-- ==== Sys2Proof/Word.lean ====
section
/-!
DEFINITION. The word types of the Crijor C96 (spec/00_scope.md R2, R3): the lane register, the scalar and pointer word,
the lane mask of a wave, and the plainest arithmetic on them.
-/

namespace Sys2Proof

/-- One byte of memory. -/
abbrev Byte := BitVec 8

/-- A 32-bit virtual register of one lane (spec/04 R90). -/
abbrev Word := BitVec 32

/-- A 64-bit scalar, pointer or program counter (spec/04 R90, spec/01 R17). -/
abbrev DWord := BitVec 64

/-- One bit per lane of a wave, lane l at bit l (spec/04 R95: sr.trapmask). -/
abbrev Mask := BitVec 128

/-- A 64-byte line as one number, the byte at the lowest address in the low bits (spec/00 R3). -/
abbrev LineData := BitVec 512

/-- One bit per byte of a line (spec/08 R141). -/
abbrev ByteMask := BitVec 64

/-- One bit per thread of a block, thread of rank r at bit r (spec/16 R292: at most 4,096 threads). -/
abbrev ThreadSet := BitVec 4096

/-- The integer a 64-bit word stands for, cut to w bits and read with the given signedness. -/
def readInt (signed : Bool) (w : Nat) (x : DWord) : Int :=
  let n := x.toNat % 2 ^ w
  if signed && decide (2 ^ (w - 1) ≤ n) then (n : Int) - 2 ^ w else n

/-- The low w bits of an integer. -/
def lowBits (w : Nat) (x : Int) : Nat := (x % (2 ^ w : Int)).toNat

/-- A w-bit pattern extended to 64 bits by sign or by zeros. -/
def extend64 (signed : Bool) (w : Nat) (n : Nat) : DWord :=
  BitVec.ofInt 64 (if signed && decide (2 ^ (w - 1) ≤ n % 2 ^ w) then ((n % 2 ^ w : Nat) : Int) - 2 ^ w else (n % 2 ^ w : Nat))

end Sys2Proof
end

