-- ==== Sys2Proof/Syntax.lean ====
section
/-!
DEFINITION. The whole instruction set and the table of events of the Crijor C96: one constructor of `Instr` for every row of
spec/opcode_table.json. Operands are typed, so a reserved bit or an illegal code of an encoding has no place here:
`Sys2Proof.decodeWord` refuses those by the cause of spec/11 R193.
-/

namespace Sys2Proof

/-- The common header of an instruction less opcode and length (spec/11 R181): guard predicate GP, guard negate GN, yield
hint Y, stall count and the last-use bits DA, DB and DC. -/
structure Hdr where
  gp : BitVec 3
  gn : Bool
  y : Bool
  stall : BitVec 4
  da : Bool
  db : Bool
  dc : Bool
  deriving DecidableEq, Repr

/-- The integer types (spec/05 R97, codes of spec/11 R186). -/
inductive ITy where
  | i8 | i16 | i32 | i64 | n8 | n16 | n32 | n64
  deriving DecidableEq, Repr

/-- The IEEE formats a lane computes in (spec/05 R98). -/
inductive FTy where
  | f32 | f16 | bf16
  deriving DecidableEq, Repr

/-- The phasor widths (spec/06 R112). -/
inductive PTy where
  | p8 | p16 | p32
  deriving DecidableEq, Repr

/-- The element types of loads, stores and atomics (spec/11 R186). -/
inductive ETy where
  | int (t : ITy)
  | flt (f : FTy)
  | pha (p : PTy)
  deriving DecidableEq, Repr

/-- Rounding modes (spec/05, spec/11 R186). -/
inductive Rm where
  | rn | rz | rp | rm
  deriving DecidableEq, Repr

/-- Visibility levels (spec/08 R140, codes of spec/11 R186). -/
inductive Level where
  | w | b | g | d | s
  deriving DecidableEq, Repr

/-- Conditions of ICMP (spec/12 R201). -/
inductive ICond where
  | eq | ne | lt | le | gt | ge
  deriving DecidableEq, Repr

/-- Conditions of FCMP (spec/13 R229). -/
inductive FCond where
  | eq | ne | lt | le | gt | ge | un
  deriving DecidableEq, Repr

/-- Conditions of PCMP (spec/13 R239). -/
inductive PCond where
  | eq | lead | lag | opp | und | ne
  deriving DecidableEq, Repr

/-- Modes of SHFL (spec/12 R218). -/
inductive ShMode where
  | idx | xor | rel
  deriving DecidableEq, Repr

/-- Operations of LRED (spec/12 R219). -/
inductive RedOp where
  | add | min | max | and | or | xor
  deriving DecidableEq, Repr

/-- The element types LRED takes (spec/12 R219). -/
inductive RedTy where
  | int (t : ITy)
  | flt (f : FTy)
  deriving DecidableEq, Repr

/-- Modes of VOTE (spec/12 R220). -/
inductive VoteMode where
  | any | all | uni
  deriving DecidableEq, Repr

/-- Operations of PSET (spec/12 R222). -/
inductive PsetOp where
  | and | or | xor
  deriving DecidableEq, Repr

/-- Operations of ATOM (spec/14 R250). -/
inductive AtomOp where
  | add | min | max | and | or | xor | xchg | cas
  deriving DecidableEq, Repr

/-- Register spaces of XRD and XWR (spec/15 R286). -/
inductive XSpace where
  | v | v64 | s | p
  deriving DecidableEq, Repr

/-- Operands of a two-source family (spec/11 R185): forms V, S and I into a vector, form U with a scalar or an immediate. -/
inductive Ops2 where
  | v (d a b : BitVec 12)
  | s (d a : BitVec 12) (b : BitVec 8)
  | i (d a : BitVec 12) (imm : BitVec 32)
  | us (d a b : BitVec 8)
  | ui (d a : BitVec 8) (imm : BitVec 32)
  deriving DecidableEq, Repr

/-- The same forms with a predicate destination, which stands in the instruction itself (R185). -/
inductive OpsC where
  | v (a b : BitVec 12)
  | s (a : BitVec 12) (b : BitVec 8)
  | i (a : BitVec 12) (imm : BitVec 32)
  | us (a b : BitVec 8)
  | ui (a : BitVec 8) (imm : BitVec 32)
  deriving DecidableEq, Repr

/-- Operands of a unary family: forms V, S and U (spec/12 R202). -/
inductive Ops1 where
  | v (d a : BitVec 12)
  | s (d : BitVec 12) (a : BitVec 8)
  | u (d a : BitVec 8)
  deriving DecidableEq, Repr

/-- A vector register or a scalar. -/
inductive VS where
  | v (n : BitVec 12)
  | s (n : BitVec 8)
  deriving DecidableEq, Repr

/-- A vector register, a scalar or an immediate. -/
inductive VSI where
  | v (n : BitVec 12)
  | s (n : BitVec 8)
  | i (imm : BitVec 32)
  deriving DecidableEq, Repr

/-- A scalar or an immediate. -/
inductive SI where
  | s (n : BitVec 8)
  | i (imm : BitVec 32)
  deriving DecidableEq, Repr

/-- Operands of a three-source pair (R185): the even opcode writes a vector, the odd one a scalar. -/
inductive Ops3 where
  | vec (d : BitVec 12) (a b : VS) (c : VSI)
  | uni (d a b : BitVec 8) (c : SI)
  deriving DecidableEq, Repr

/-- Operands of ISEL and FSEL beside their predicate. -/
inductive OpsSel where
  | vec (d : BitVec 12) (a b : VS)
  | uni (d a b : BitVec 8)
  deriving DecidableEq, Repr

/-- Operands of the conversions. -/
inductive OpsCv where
  | vec (d : BitVec 12) (a : VS)
  | uni (d a : BitVec 8)
  deriving DecidableEq, Repr

/-- Operands of BFX: vector or uniform. -/
inductive Dst1 where
  | v (d a : BitVec 12)
  | u (d a : BitVec 8)
  deriving DecidableEq, Repr

/-- Operands of LEA (spec/12 R207). -/
inductive OpsLea where
  | vec (d : BitVec 12) (base : VS) (idx : BitVec 12)
  | uni (d base idx : BitVec 8)
  deriving DecidableEq, Repr

/-- The offset of an address (spec/14 R243). -/
inductive Off where
  | none
  | v (n : BitVec 12)
  | s (n : BitVec 8)
  deriving DecidableEq, Repr

/-- The address of LD and ST (R243): base + offset × 2^sh + disp. -/
structure Addr where
  base : VS
  off : Off
  sh : BitVec 2
  disp : BitVec 24
  deriving DecidableEq, Repr

/-- Destination and address of LD (spec/14 R244). -/
inductive OpsLd where
  | vec (d : BitVec 12) (a : Addr)
  | uni (d base : BitVec 8) (off : Option (BitVec 8)) (sh : BitVec 2) (disp : BitVec 24)
  deriving DecidableEq, Repr

/-- The comparand of WAITV with its displacement, or an immediate comparand (spec/14 R252). -/
inductive WaitSrc where
  | reg (b : VS) (disp : BitVec 32)
  | imm (v : BitVec 32)
  deriving DecidableEq, Repr

/-- A segment number: immediate, or a scalar's low 16 bits (spec/14 R254). -/
inductive SegSrc where
  | imm (seg : BitVec 16)
  | scl (n : BitVec 8)
  deriving DecidableEq, Repr

/-- A buffer or queue symbol with its segment (spec/14 R254). -/
structure SegRef16 where
  sym : BitVec 8
  queue : Bool
  seg : SegSrc
  deriving DecidableEq, Repr

/-- A buffer or queue symbol of MMA and PMMA with its segment: an immediate or a scalar's number (spec/15 R273). -/
structure SegRef where
  sym : BitVec 8
  queue : Bool
  scl : Bool
  seg : BitVec 8
  deriving DecidableEq, Repr

/-- One to eight tag symbols: n − 1 and eight 6-bit slots (spec/14 R256). -/
structure TagList where
  n1 : BitVec 3
  slots : BitVec 48
  deriving DecidableEq, Repr

/-- The operands that MMA and PMMA share (spec/15 R273). -/
structure MatOps where
  acc : BitVec 8
  bank : BitVec 10
  a : SegRef
  hA : BitVec 8
  b : SegRef
  hB : BitVec 8
  k : BitVec 8
  deriving DecidableEq, Repr

/-- Where a drain lands (spec/15 R278). -/
inductive DrainDst where
  | mem (lvl : Level) (so : BitVec 8)
  | sc (sym : BitVec 8) (queue : Bool) (seg : BitVec 8)
  deriving DecidableEq, Repr

/-- The number of an interrupted register: immediate or in a scalar (spec/15 R286). -/
inductive XNum where
  | imm (n : BitVec 12)
  | scl (n : BitVec 8)
  deriving DecidableEq, Repr

/-- A block: the launch's number in the model and the block's rank (spec/16 R292). -/
structure BlockRef where
  lid : Nat
  rank : Nat
  deriving DecidableEq, Repr

/-- A wave of a block. -/
structure WaveRef where
  lid : Nat
  rank : Nat
  wave : Nat
  deriving DecidableEq, Repr

/-- A group of a wave, by its place among the wave's groups. -/
structure GroupRef where
  wave : WaveRef
  grp : Nat
  deriving DecidableEq, Repr

/-- A block as the debugger's commands name it beside its launch's SEQ (spec/18 R363): its rank and its launch's queue. -/
structure BlockName where
  rank : DWord
  queue : Nat
  deriving DecidableEq, Repr

/-- Where a command came from (spec/18 R328): the function (tenant t has number t, the package function 16), its queue and
the entry's SEQ. -/
structure CmdSrc where
  fn : Nat
  q : Nat
  seq : DWord
  deriving DecidableEq, Repr

/-- The eight words of a launch header (spec/16 R290). -/
structure LaunchHdr where
  w0 : DWord
  w1 : DWord
  w2 : DWord
  w3 : DWord
  w4 : DWord
  w5 : DWord
  w6 : DWord
  w7 : DWord
  deriving DecidableEq, Repr

/-- Per-core caps of a share (spec/04 R84). -/
structure Caps where
  segs : Nat
  slots : Nat
  tricks : Nat
  tags : Nat
  banks : Nat
  waves : Nat
  deriving DecidableEq, Repr

/-- The kind of access checked at a fill (spec/01 R19). -/
inductive Access where
  | read | write | atomic | fetch
  deriving DecidableEq, Repr

/-- What PARTITION moves (spec/18 R334): clusters, L2 slices, memory channels, copy engines and link ports. -/
structure Resources where
  clusters : BitVec 24
  slices : BitVec 96
  channels : BitVec 96
  engines : BitVec 96
  ports : BitVec 12
  deriving DecidableEq, Repr

/-- What self-test measures of a column (spec/01 R12). -/
structure ColumnMeasure where
  banks : Nat
  spare : Nat
  failed : Nat
  deriving DecidableEq, Repr

/-- A Pleip packet as its header fields and payload lines (spec/18 R336). -/
structure Packet where
  type : BitVec 8
  seq : BitVec 12
  ack : BitVec 12
  nfl : BitVec 4
  src : BitVec 8
  poison : BitVec 32
  addr : DWord
  lcv : List (BitVec 32)
  ops : List Byte
  hcv : BitVec 32
  lines : List LineData
  deriving DecidableEq, Repr

/-- A sealed Ultra Ethernet message (spec/18 R341): the nonce, the additional data and the sealed payload with its tag. -/
structure UeMessage where
  stream : BitVec 32
  counter : DWord
  aad : List Byte
  sealed : List Byte
  tag : List Byte
  deriving DecidableEq, Repr

/-- A resource of a scrub (spec/02 R55). -/
inductive ScrubUnit where
  | cluster (c : Nat)
  | slice (s : Nat)
  deriving DecidableEq, Repr

/-- The instructions (opcode ranges of spec/11 R191) and the device's events and commands (spec/95, spec/16 to 18): one
constructor for each row of spec/opcode_table.json, in the table's order. -/
inductive Instr where
  | iadd (h : Hdr) (t : ITy) (sat : Bool) (o : Ops2)
  | isub (h : Hdr) (t : ITy) (sat : Bool) (o : Ops2)
  | imul (h : Hdr) (t : ITy) (o : Ops2)
  | imulh (h : Hdr) (t : ITy) (o : Ops2)
  | imin (h : Hdr) (t : ITy) (o : Ops2)
  | imax (h : Hdr) (t : ITy) (o : Ops2)
  | and (h : Hdr) (t : ITy) (o : Ops2)
  | or (h : Hdr) (t : ITy) (o : Ops2)
  | xor (h : Hdr) (t : ITy) (o : Ops2)
  | shl (h : Hdr) (t : ITy) (o : Ops2)
  | shr (h : Hdr) (t : ITy) (o : Ops2)
  | sar (h : Hdr) (t : ITy) (o : Ops2)
  | rot (h : Hdr) (t : ITy) (o : Ops2)
  | icmp (h : Hdr) (cc : ICond) (t : ITy) (pd : BitVec 3) (o : OpsC)
  | ineg (h : Hdr) (t : ITy) (o : Ops1)
  | iabs (h : Hdr) (t : ITy) (o : Ops1)
  | not (h : Hdr) (t : ITy) (o : Ops1)
  | popc (h : Hdr) (t : ITy) (o : Ops1)
  | clz (h : Hdr) (t : ITy) (o : Ops1)
  | brev (h : Hdr) (t : ITy) (o : Ops1)
  | mov (h : Hdr) (t : ITy) (o : Ops1)
  | cvti (h : Hdr) (t : ITy) (o : Ops1)
  | imad (h : Hdr) (t : ITy) (sat : Bool) (o : Ops3)
  | bfi (h : Hdr) (t : ITy) (o : Ops3)
  | isel (h : Hdr) (t : ITy) (neg : Bool) (p : BitVec 3) (o : OpsSel)
  | bfx (h : Hdr) (t : ITy) (o : Dst1) (pos len : BitVec 8)
  | lea (h : Hdr) (t : ITy) (o : OpsLea) (sh : BitVec 3) (disp : BitVec 24)
  | movi (h : Hdr) (t : ITy) (d : VS) (imm : BitVec 32)
  | nop (h : Hdr)
  | nopl (h : Hdr)
  | bra (h : Hdr) (disp : BitVec 32)
  | brt (h : Hdr) (idx : VS) (n1 : BitVec 12) (disp : BitVec 32)
  | meet (h : Hdr) (disp : BitVec 32)
  | exit (h : Hdr)
  | yield (h : Hdr)
  | trap (h : Hdr) (imm : BitVec 32)
  | bkpt (h : Hdr)
  | shfl (h : Hdr) (m : ShMode) (d a : BitVec 12) (b : VSI)
  | lred (h : Hdr) (op : RedOp) (t : RedTy) (md : Rm) (d a : BitVec 12)
  | vote (h : Hdr) (m : VoteMode) (pd : BitVec 3) (neg : Bool) (ps : BitVec 3)
  | ballot (h : Hdr) (d : BitVec 8) (neg : Bool) (ps : BitVec 3)
  | pset (h : Hdr) (op : PsetOp) (pd : BitVec 3) (na : Bool) (pa : BitVec 3) (nb : Bool) (pb : BitVec 3)
  | fadd (h : Hdr) (f : FTy) (md : Rm) (fz x2 : Bool) (o : Ops2)
  | fsub (h : Hdr) (f : FTy) (md : Rm) (fz x2 : Bool) (o : Ops2)
  | fmul (h : Hdr) (f : FTy) (md : Rm) (fz x2 : Bool) (o : Ops2)
  | ffma (h : Hdr) (f : FTy) (md : Rm) (fz x2 : Bool) (o : Ops3)
  | fmin (h : Hdr) (f : FTy) (x2 : Bool) (o : Ops2)
  | fmax (h : Hdr) (f : FTy) (x2 : Bool) (o : Ops2)
  | fcmp (h : Hdr) (cc : FCond) (f : FTy) (pd : BitVec 3) (o : OpsC)
  | fsel (h : Hdr) (f : FTy) (neg : Bool) (p : BitVec 3) (o : OpsSel)
  | frcp (h : Hdr) (f : FTy) (fz x2 : Bool) (o : Ops1)
  | frsq (h : Hdr) (f : FTy) (fz x2 : Bool) (o : Ops1)
  | fsqrt (h : Hdr) (f : FTy) (md : Rm) (fz x2 : Bool) (o : Ops1)
  | fexp2 (h : Hdr) (f : FTy) (fz x2 : Bool) (o : Ops1)
  | flog2 (h : Hdr) (f : FTy) (fz x2 : Bool) (o : Ops1)
  | fsin (h : Hdr) (f : FTy) (fz x2 : Bool) (o : Ops1)
  | fcos (h : Hdr) (f : FTy) (fz x2 : Bool) (o : Ops1)
  | frnd (h : Hdr) (f : FTy) (md : Rm) (fz x2 : Bool) (o : Ops1)
  | cvtf (h : Hdr) (fd fs : FTy) (md : Rm) (fz : Bool) (o : OpsCv)
  | cvtfi (h : Hdr) (t : ITy) (fs : FTy) (md : Rm) (o : OpsCv)
  | cvtif (h : Hdr) (fd : FTy) (t : ITy) (md : Rm) (o : OpsCv)
  | npack (h : Hdr) (md : Rm) (fz : Bool) (d a : BitVec 12) (hn : BitVec 8) (pos : BitVec 5) (sc : Option (BitVec 8))
  | nunpk (h : Hdr) (d a : BitVec 12) (hn : BitVec 8) (pos : BitVec 5) (sc : Option (BitVec 8))
  | pmul (h : Hdr) (p : PTy) (x2 : Bool) (o : Ops2)
  | ppow (h : Hdr) (p : PTy) (x2 : Bool) (o : Ops2)
  | pcmp (h : Hdr) (p : PTy) (cc : PCond) (pd : BitVec 3) (o : OpsC)
  | pconj (h : Hdr) (p : PTy) (x2 : Bool) (d a : BitVec 12)
  | pdef (h : Hdr) (p : PTy) (pd : BitVec 3) (a : BitVec 12)
  | pcvt (h : Hdr) (pm pn : PTy) (d a : BitVec 12)
  | pred (h : Hdr) (p : PTy) (d a : BitVec 12)
  | ptof (h : Hdr) (md : Rm) (fz : Bool) (f : FTy) (p : PTy) (d a : BitVec 12)
  | pcos (h : Hdr) (md : Rm) (fz : Bool) (f : FTy) (p : PTy) (d a : BitVec 12)
  | psin (h : Hdr) (md : Rm) (fz : Bool) (f : FTy) (p : PTy) (d a : BitVec 12)
  | pvec (h : Hdr) (md : Rm) (fz : Bool) (f : FTy) (p : PTy) (d a : BitVec 12)
  | pfromf (h : Hdr) (p : PTy) (f : FTy) (d a : BitVec 12)
  | patan (h : Hdr) (p : PTy) (f : FTy) (d y x : BitVec 12)
  | ld (h : Hdr) (t : ETy) (o : OpsLd)
  | st (h : Hdr) (t : ETy) (a : Addr) (data : BitVec 12)
  | ldb (h : Hdr) (t : ETy) (d : BitVec 12) (off : VS) (queue : Bool) (sym : BitVec 8) (disp : BitVec 32)
  | stb (h : Hdr) (t : ETy) (off : VS) (queue : Bool) (sym : BitVec 8) (disp : BitVec 32) (data : BitVec 12)
  | atom (h : Hdr) (op : AtomOp) (lvl : Level) (t : ETy) (d : BitVec 12) (base b : VS) (c : Option VS) (disp : BitVec 32)
  | waitv (h : Hdr) (ne : Bool) (lvl : Level) (t : ITy) (d : BitVec 12) (base : VS) (src : WaitSrc)
  | commit (h : Hdr) (lvl : Level)
  | commitX (h : Hdr) (lvl : Level) (d : BitVec 8)
  | abort (h : Hdr) (lvl : Level)
  | acq (h : Hdr) (lvl : Level)
  | fence (h : Hdr) (src dst : BitVec 4)
  | icinv (h : Hdr)
  | cpy (h : Hdr) (lvl : Level) (d s : BitVec 8) (n : SI) (tag : BitVec 8)
  | cpytLd (h : Hdr) (buf : SegRef16) (hn : BitVec 8) (so : BitVec 8) (tag : BitVec 8)
  | cpytSt (h : Hdr) (lvl : Level) (buf : SegRef16) (hn : BitVec 8) (so : BitVec 8) (tag : BitVec 8)
  | cpyr (h : Hdr) (d s : BitVec 8) (n : SI) (tag : BitVec 8)
  | twany (h : Hdr) (tags : TagList)
  | twall (h : Hdr) (tags : TagList)
  | tfirst (h : Hdr) (d : BitVec 8) (tags : TagList)
  | tclr (h : Hdr) (tags : TagList)
  | barv (h : Hdr) (d : BitVec 8) (sym : BitVec 8)
  | bard (h : Hdr) (sym : BitVec 8)
  | barw (h : Hdr) (sym : BitVec 8)
  | bars (h : Hdr) (sym : BitVec 8) (a : BitVec 8)
  | qpush (h : Hdr) (sym : BitVec 8) (a : BitVec 8)
  | qpop (h : Hdr) (d : BitVec 8) (sym : BitVec 8)
  | qtry (h : Hdr) (d : BitVec 8) (sym : BitVec 8)
  | qgrant (h : Hdr) (sym : BitVec 8) (n : BitVec 5)
  | epush (h : Hdr) (d a b : BitVec 8) (disp : BitVec 32)
  | epop (h : Hdr) (d a : BitVec 8) (disp : BitVec 32)
  | sign (h : Hdr) (k : BitVec 8)
  | mma (h : Hdr) (w2 : Bool) (o : MatOps)
  | pmma (h : Hdr) (qn : BitVec 2) (conj : Bool) (o : MatOps)
  | acca (h : Hdr) (sym : BitVec 8) (b : BitVec 10) (cnt1 : BitVec 4) (grp : BitVec 4)
  | accf (h : Hdr) (sym : BitVec 8) (b : BitVec 10) (cnt1 : BitVec 4)
  | accz (h : Hdr) (sym : BitVec 8) (b : BitVec 10) (cnt1 : BitVec 4)
  | accr (h : Hdr) (d : BitVec 12) (sym : BitVec 8) (b : BitVec 10) (sw : BitVec 8)
  | accw (h : Hdr) (sym : BitVec 8) (b : BitVec 10) (sw : BitVec 8) (a : BitVec 12)
  | drain (h : Hdr) (dst : DrainDst) (w2 : Bool) (md : Rm) (fz : Bool) (amx : Option (Level × BitVec 8)) (hn : BitVec 8)
      (acc : BitVec 8) (b : BitVec 10) (tag : BitVec 8)
  | pdrain (h : Hdr) (dst : DrainDst) (sn : BitVec 8) (hn : BitVec 8) (acc : BitVec 8) (b : BitVec 10) (tag : BitVec 8)
  | tdef (h : Hdr) (hn : BitVec 8) (a : BitVec 8)
  | tqry (h : Hdr) (d : BitVec 8) (hn : BitVec 8) (i : BitVec 4)
  | srr (h : Hdr) (d : VS) (sr : BitVec 8)
  | srw (h : Hdr) (sr : BitVec 8) (b : BitVec 8)
  | xrd (h : Hdr) (sp : XSpace) (d : BitVec 12) (n : XNum)
  | xwr (h : Hdr) (sp : XSpace) (n : XNum) (b : BitVec 12)
  | rtt (h : Hdr) (a : BitVec 8)
  | rttBr (h : Hdr) (a : BitVec 8)
  -- the device's events and the queue commands
  | handlerEntry (w : WaveRef)
  | launch (c : CmdSrc) (hdr : LaunchHdr)
  | launchBegin (fn q : Nat)
  | blockPlacement (lid : Nat) (cores : List Nat) (pipes : List Nat)
  | stockPromotion (core pipe : Nat) (w : WaveRef)
  | waitvPoll (w : WaveRef)
  | regcacheFill (w : WaveRef) (regs : List Nat)
  | lineFill (core : Nat) (fn ctx : Nat) (ptr : DWord) (acc : Access)
  | pageWalk (fn ctx : Nat) (ptr : DWord)
  | forwardResponse (w : WaveRef)
  | copyLineTransfer (job : Nat)
  | mmaExecute (core : Nat)
  | drainExecute (core : Nat)
  | pdrainExecute (core : Nat)
  | blockRetire (b : BlockRef)
  | kernelBoundary (lid : Nat)
  | launchComplete (lid : Nat)
  | sliceEnd (fn ctx : Nat)
  | graceExpiry (b : BlockRef)
  | blockReentry (b : BlockRef) (cores : List Nat) (pipes : List Nat)
  | blockMove (b : BlockRef) (cores : List Nat) (pipes : List Nat)
  | rebindWindowExpiry (b : BlockRef)
  | blockSwapOut (b : BlockRef)
  | launchEnd (lid : Nat)
  | debugHaltBkpt (b : BlockRef)
  | launchRollback (lid : Nat)
  | timingReplay (g : GroupRef) (again : Bool)
  | copy (c : CmdSrc) (dst src len : DWord)
  | ctxcreate (c : CmdSrc) (ctx : Nat) (desc : DWord)
  | ctxdestroy (c : CmdSrc) (ctx : Nat)
  | share (c : CmdSrc) (ctx : Nat) (coreSet : List Nat) (caps : List Caps) (poolBase poolSize : DWord) (slice : Nat)
  | reginval (c : CmdSrc) (ctx : Nat) (region : BitVec 8)
  | pageinval (c : CmdSrc) (ctx : Nat) (va : DWord) (size : DWord)
  | handleinval (c : CmdSrc) (ctx : Nat) (hn : BitVec 8)
  | dirtyrc (c : CmdSrc) (first count dst : DWord)
  | faultresume (c : CmdSrc) (fseq block : DWord) (fq : Nat)
  | faultfail (c : CmdSrc) (fseq block : DWord) (fq : Nat)
  | debughalt (c : CmdSrc) (fseq : DWord) (block : BlockName)
  | debugwrite (c : CmdSrc) (fseq : DWord) (block : BlockName) (off : DWord) (src : DWord) (len : DWord)
  | debugresume (c : CmdSrc) (fseq : DWord) (block : BlockName)
  | keyset (c : CmdSrc) (ptr : DWord)
  | precopy (c : CmdSrc) (port : Nat) (peer : DWord) (stream : BitVec 32) (kind : Nat) (records : DWord) (len : DWord)
  | restore (c : CmdSrc) (ptr len : DWord)
  | trackset (c : CmdSrc) (ptr size : DWord)
  | partition (c : CmdSrc) (tenant : Nat) (res : Resources)
  | scrub (u : ScrubUnit)
  | l2OwnershipChange (tenant : Nat) (slices : BitVec 96)
  | regionretire (c : CmdSrc) (region : Nat)
  | linkretrain (c : CmdSrc) (port : Nat) (locks : BitVec 16) (peerAck : BitVec 12)
  | fwupdate (c : CmdSrc) (ptr len : DWord)
  | attest (c : CmdSrc) (nonce dst : DWord)
  | qtailWrite (fn q : Nat) (tail : DWord)
  | registerWrite (fn : Nat) (off : Nat) (val : DWord)
  | functionLevelReset (tenant : Nat)
  | packageReset (cols : List ColumnMeasure) (regions : Nat)
  | hostCxlMemRead (tenant : Nat) (addr : Nat) (len : Nat)
  | hostCxlMemWrite (tenant : Nat) (addr : Nat) (bytes : List Byte)
  | pleipPacketReceive (port : Nat) (p : Packet)
  | pleipAckReceive (port : Nat) (ack : BitVec 12)
  | pleipNakReceive (port : Nat) (ack : BitVec 12)
  | pleipReplayTimeout (port : Nat)
  | pleipAckTimer (port : Nat)
  | laneLoss (port : Nat) (lane : Nat)
  | retrainComplete (port : Nat) (peerAck : BitVec 12)
  | ueMessageReceive (tenant : Nat) (port : Nat) (m : UeMessage)
  | restripeStart (region : Nat) (column : Nat)
  | restripeUnitMove (region : Nat) (unreadable : List Nat)
  | bankOvertemp (channel : Nat) (bank : Nat) (hot : Bool)
  | thermalThrottleStep (island : Nat) (lower : Bool)
  | powerLimitStep (lower : Bool)
  | ideKeyManagement (stream : Nat) (key : BitVec 256)
  deriving DecidableEq, Repr

end Sys2Proof
end

