-- ==== Sys2Proof/WellFormed.lean ====
section
/-!
DEFINITION. Which instruction terms have an encoding: the limits of spec/11 (R182, R183, R185, R186) and of the field tables
of spec/12 to 15. A term outside `Instr.wf` has no words; a word outside the limits is refused by `decodeAt`.
-/

namespace Sys2Proof

/-- A guard with a meaning (R182) and last-use bits only on fields that name vector sources (R183). -/
def Hdr.ok (h : Hdr) (a b c : Bool) : Bool :=
  !(h.gp == 7 && h.gn) && (!h.da || a) && (!h.db || b) && (!h.dc || c)

def VS.isV : VS → Bool
  | .v _ => true
  | .s _ => false

def VSI.isV : VSI → Bool
  | .v _ => true
  | _ => false

/-- Whether SA names a vector source. -/
def Ops2.aV : Ops2 → Bool
  | .v .. | .s .. | .i .. => true
  | .us .. | .ui .. => false

/-- Whether SB names a vector source. -/
def Ops2.bV : Ops2 → Bool
  | .v .. => true
  | _ => false

def OpsC.aV : OpsC → Bool
  | .v .. | .s .. | .i .. => true
  | .us .. | .ui .. => false

def OpsC.bV : OpsC → Bool
  | .v .. => true
  | _ => false

def Ops1.aV : Ops1 → Bool
  | .v .. => true
  | _ => false

def Ops3.ok (h : Hdr) : Ops3 → Bool
  | .vec _ a b c => h.ok a.isV b.isV c.isV
  | .uni .. => h.ok false false false

def OpsSel.ok (h : Hdr) : OpsSel → Bool
  | .vec _ a b => h.ok a.isV b.isV false
  | .uni .. => h.ok false false false

def OpsCv.ok (h : Hdr) : OpsCv → Bool
  | .vec _ a => h.ok a.isV false false
  | .uni .. => h.ok false false false

/-- The 32-bit immediate of a form, where it has one. -/
def Ops2.imm? : Ops2 → Option (BitVec 32)
  | .i _ _ m | .ui _ _ m => some m
  | _ => none

def OpsC.imm? : OpsC → Option (BitVec 32)
  | .i _ m | .ui _ m => some m
  | _ => none

def Ops3.imm? : Ops3 → Option (BitVec 32)
  | .vec _ _ _ (.i m) | .uni _ _ _ (.i m) => some m
  | _ => none

/-- An immediate that leaves its bits at n and above zero (R186, R238). -/
def immBelow (n : Nat) : Option (BitVec 32) → Bool
  | none => true
  | some m => decide (m.toNat < 2 ^ n)

def PTy.bits : PTy → Nat
  | .p8 => 8
  | .p16 => 16
  | .p32 => 32

/-- .x2 is for 16-bit types only (R186). -/
def FTy.x2ok (f : FTy) (x2 : Bool) : Bool := !x2 || f != .f32

/-- Bits of a float immediate that may be set (R186). -/
def FTy.immBits (f : FTy) (x2 : Bool) : Nat := if f == .f32 || x2 then 32 else 16

/-- .x2 of a phasor is for P16 only (R239). -/
def PTy.x2ok (p : PTy) (x2 : Bool) : Bool := !x2 || p == .p16

/-- Types of LEA, WAITV and the bitwise atomics. -/
def ITy.wide : ITy → Bool
  | .i32 | .n32 | .i64 | .n64 => true
  | _ => false

def RedTy.okFor (op : RedOp) : RedTy → Bool
  | .int _ => true
  | .flt _ => op == .add || op == .min || op == .max

def RedTy.isFloat : RedTy → Bool
  | .int _ => false
  | .flt _ => true

/-- The types of ATOM (spec/14 R250). -/
def AtomOp.tyOk (op : AtomOp) : ETy → Bool
  | .int t => t.wide
  | .flt .f32 => !(op == .and || op == .or || op == .xor)
  | _ => false

def optV : Option VS → Bool
  | some a => a.isV
  | none => false

def Off.isV : Off → Bool
  | .v _ => true
  | _ => false

/-- Slots at and above n are zero (R256). -/
def TagList.ok (l : TagList) : Bool := decide (l.slots.toNat < 2 ^ (6 * (l.n1.toNat + 1)))

/-- A term that an encoding stands for. Events have no encoding and no limits. -/
def Instr.wf : Instr → Bool
  | .iadd h _ _ o | .isub h _ _ o => h.ok o.aV o.bV false
  | .imul h _ o | .imulh h _ o | .imin h _ o | .imax h _ o | .and h _ o | .or h _ o | .xor h _ o
  | .shl h _ o | .shr h _ o | .sar h _ o | .rot h _ o => h.ok o.aV o.bV false
  | .icmp h _ _ _ o => h.ok o.aV o.bV false
  | .ineg h _ o | .iabs h _ o | .not h _ o | .popc h _ o | .clz h _ o | .brev h _ o | .mov h _ o
  | .cvti h _ o => h.ok o.aV false false
  | .imad h _ _ o => o.ok h
  | .bfi h _ o => o.ok h && immBelow 16 o.imm?
  | .isel h _ _ _ o => o.ok h
  | .bfx h _ o _ _ => (match o with | .v .. => h.ok true false false | .u .. => h.ok false false false)
  | .lea h t o _ _ => t.wide && (match o with
      | .vec _ b _ => h.ok b.isV true false
      | .uni .. => h.ok false false false)
  | .movi h _ _ _ => h.ok false false false
  | .nop h | .nopl h | .exit h | .yield h | .bkpt h | .icinv h => h.ok false false false
  | .bra h _ | .meet h _ | .trap h _ => h.ok false false false
  | .brt h i _ _ => h.ok i.isV false false
  | .shfl h _ _ _ b => h.ok true b.isV false
  | .lred h op t md _ _ => h.ok true false false && t.okFor op && (md == .rn || (t.isFloat && op == .add))
  | .vote h .. | .ballot h .. | .pset h .. => h.ok false false false
  | .fadd h f _ _ x o | .fsub h f _ _ x o | .fmul h f _ _ x o =>
      h.ok o.aV o.bV false && f.x2ok x && immBelow (f.immBits x) o.imm?
  | .ffma h f _ _ x o => o.ok h && f.x2ok x && immBelow (f.immBits x) o.imm?
  | .fmin h f x o | .fmax h f x o => h.ok o.aV o.bV false && f.x2ok x && immBelow (f.immBits x) o.imm?
  | .fcmp h _ f _ o => h.ok o.aV o.bV false && immBelow (f.immBits false) o.imm?
  | .fsel h _ _ _ o => o.ok h
  | .frcp h f _ x o | .frsq h f _ x o | .fexp2 h f _ x o | .flog2 h f _ x o | .fsin h f _ x o
  | .fcos h f _ x o => h.ok o.aV false false && f.x2ok x
  | .fsqrt h f _ _ x o | .frnd h f _ _ x o => h.ok o.aV false false && f.x2ok x
  | .cvtf h fd fs _ _ o => o.ok h && fd != fs
  | .cvtfi h _ _ _ o | .cvtif h _ _ _ o => o.ok h
  | .npack h .. | .nunpk h .. => h.ok true false false
  | .pmul h p x o => h.ok o.aV o.bV false && p.x2ok x && immBelow (if x then 32 else p.bits) o.imm?
  | .ppow h p x o => h.ok o.aV o.bV false && p.x2ok x
  | .pcmp h p _ _ o => h.ok o.aV o.bV false && immBelow p.bits o.imm?
  | .pconj h p x _ _ => h.ok true false false && p.x2ok x
  | .pdef h .. | .pcvt h .. | .pred h .. | .ptof h .. | .pcos h .. | .psin h .. | .pvec h .. | .pfromf h .. =>
      h.ok true false false
  | .patan h .. => h.ok true true false
  | .ld h _ o => (match o with
      | .vec _ a => h.ok a.base.isV a.off.isV false
      | .uni .. => h.ok false false false)
  | .st h _ a _ => h.ok true a.off.isV false
  | .ldb h _ _ off _ _ _ => h.ok off.isV false false
  | .stb h _ off _ _ _ _ => h.ok off.isV true false
  | .atom h op _ t _ base b c _ => h.ok base.isV b.isV (optV c) && op.tyOk t && (c.isSome == (op == .cas))
  | .waitv h _ _ t _ base src => t.wide && (match src with
      | .reg b _ => h.ok base.isV b.isV false
      | .imm _ => h.ok base.isV false false)
  | .commit h _ | .abort h _ | .acq h _ | .commitX h _ _ => h.ok false false false
  | .fence h a b => h.ok false false false && a != 0 && b != 0
  | .cpy h .. | .cpytLd h .. | .cpytSt h .. | .cpyr h .. => h.ok false false false
  | .twany h l | .twall h l | .tfirst h _ l | .tclr h l => h.ok false false false && l.ok
  | .barv h .. | .bard h .. | .barw h .. | .bars h .. | .qpush h .. | .qpop h .. | .qtry h .. => h.ok false false false
  | .qgrant h _ n => h.ok false false false && decide (1 ≤ n.toNat) && decide (n.toNat ≤ 16)
  | .epush h .. | .epop h .. | .sign h .. | .mma h .. | .pmma h .. | .acca h .. | .accf h .. | .accz h .. | .accr h .. =>
      h.ok false false false
  | .accw h .. => h.ok false true false
  | .drain h dst _ _ _ _ _ _ _ _ => h.ok false false false && (match dst with | .mem l _ => l != .w | .sc .. => true)
  | .pdrain h dst _ _ _ _ _ => h.ok false false false && (match dst with | .mem l _ => l != .w | .sc .. => true)
  | .tdef h .. => h.ok false false false
  | .tqry h _ _ i => h.ok false false false && decide (i.toNat ≤ 8)
  | .srr h d sr => h.ok false false false && (d.isV || decide (2 ≤ sr.toNat))
  | .srw h .. => h.ok false false false
  | .xrd h sp d _ => h.ok false false false && (match sp with
      | .v | .v64 => true
      | .s => decide (d.toNat < 256)
      | .p => decide (d.toNat < 8))
  | .xwr h sp _ b => (match sp with
      | .v | .v64 => h.ok false true false
      | .s => h.ok false false false && decide (b.toNat < 256)
      | .p => h.ok false false false && decide (b.toNat < 8))
  | .rtt h _ | .rttBr h _ => h.ok false false false
  | .handlerEntry .. | .launch .. | .launchBegin .. | .blockPlacement .. | .stockPromotion .. | .waitvPoll ..
  | .regcacheFill .. | .lineFill .. | .pageWalk .. | .forwardResponse .. | .copyLineTransfer .. | .mmaExecute ..
  | .drainExecute .. | .pdrainExecute .. | .blockRetire .. | .kernelBoundary .. | .launchComplete .. | .sliceEnd ..
  | .graceExpiry .. | .blockReentry .. | .blockMove .. | .rebindWindowExpiry .. | .blockSwapOut .. | .launchEnd ..
  | .debugHaltBkpt .. | .launchRollback .. | .timingReplay .. | .copy .. | .ctxcreate .. | .ctxdestroy .. | .share ..
  | .reginval .. | .pageinval .. | .handleinval .. | .dirtyrc .. | .faultresume .. | .faultfail .. | .debughalt ..
  | .debugwrite .. | .debugresume .. | .keyset .. | .precopy .. | .restore .. | .trackset .. | .partition .. | .scrub ..
  | .l2OwnershipChange .. | .regionretire .. | .linkretrain .. | .fwupdate .. | .attest .. | .qtailWrite ..
  | .registerWrite .. | .functionLevelReset .. | .packageReset .. | .hostCxlMemRead .. | .hostCxlMemWrite ..
  | .pleipPacketReceive .. | .pleipAckReceive .. | .pleipNakReceive .. | .pleipReplayTimeout .. | .pleipAckTimer ..
  | .laneLoss .. | .retrainComplete .. | .ueMessageReceive .. | .restripeStart .. | .restripeUnitMove ..
  | .bankOvertemp .. | .thermalThrottleStep .. | .powerLimitStep .. | .ideKeyManagement .. => true

end Sys2Proof
end

