-- ==== Sys2Proof/Decode.lean ====
section
/-!
DEFINITION. The decoder and the encoder of the Crijor C96 (spec/11 R179 to R193 and the field tables of spec/12 to 15).
Words become fields (`unpack`), fields become instructions (`parseRow`); the encoder goes the other way (`toRaw`, `pack`).
A refusal is named by its cause of R193.
-/

namespace Sys2Proof

/-- Causes of a decode trap that depend on the words and their place alone (spec/11 R193, codes 0x01 to 0x07). -/
inductive DecodeCause where
  | lencode | xbound | unassigned | wronglen | resbit | badmod | badguard
  deriving DecidableEq, Repr

def DecodeCause.code : DecodeCause → Nat
  | .lencode => 1
  | .xbound => 2
  | .unassigned => 3
  | .wronglen => 4
  | .resbit => 5
  | .badmod => 6
  | .badguard => 7

/-- The fields of a word (R181, R184); a field the format lacks is zero. -/
structure Raw where
  len : BitVec 2
  op : BitVec 10
  hdr : Hdr
  dst : BitVec 12
  sa : BitVec 12
  sb : BitVec 12
  mod : BitVec 4
  sc : BitVec 12
  sym : BitVec 8
  mod16 : BitVec 16
  imm : BitVec 32
  deriving DecidableEq, Repr

/-- Bits [hi : lo] of a word held as a number, hi = lo + n − 1. -/
def field (w lo n : Nat) : BitVec n := BitVec.ofNat n (w / 2 ^ lo)

def bit (w i : Nat) : Bool := w / 2 ^ i % 2 == 1

/-- The fields of a 16-byte word (R184). -/
def unpack (w : Nat) : Raw :=
  let l := field w 0 2
  { len := l
    op := field w 2 10
    hdr := { stall := field w 12 4, y := bit w 16, gp := field w 17 3, gn := bit w 20,
             da := bit w 21, db := bit w 22, dc := bit w 23 }
    dst := field w 24 12
    sa := field w 36 12
    sb := field w 48 12
    mod := if l == 2 then 0 else field w 60 4
    sc := if l == 2 then field w 60 12 else 0
    sym := if l == 2 then field w 72 8 else 0
    mod16 := if l == 2 then field w 80 16 else 0
    imm := if l == 2 then field w 96 32 else if l == 1 then field w 64 32 else 0 }

/-- The word of given fields (R184). -/
def pack (r : Raw) : Nat :=
  r.len.toNat + 2 ^ 2 * r.op.toNat + 2 ^ 12 * r.hdr.stall.toNat + 2 ^ 16 * r.hdr.y.toNat + 2 ^ 17 * r.hdr.gp.toNat
    + 2 ^ 20 * r.hdr.gn.toNat + 2 ^ 21 * r.hdr.da.toNat + 2 ^ 22 * r.hdr.db.toNat + 2 ^ 23 * r.hdr.dc.toNat
    + 2 ^ 24 * r.dst.toNat + 2 ^ 36 * r.sa.toNat + 2 ^ 48 * r.sb.toNat
    + (if r.len == 2 then 2 ^ 60 * r.sc.toNat + 2 ^ 72 * r.sym.toNat + 2 ^ 80 * r.mod16.toNat + 2 ^ 96 * r.imm.toNat
       else 2 ^ 60 * r.mod.toNat + (if r.len == 1 then 2 ^ 64 * r.imm.toNat else 0))

/-- The length in bytes a length code gives (R179). -/
def lenBytes (l : BitVec 2) : Nat := 8 + 4 * l.toNat

/-! Modifier codes (R186 and the field tables). -/

def ITy.code : ITy → BitVec 3
  | .i8 => 0 | .i16 => 1 | .i32 => 2 | .i64 => 3 | .n8 => 4 | .n16 => 5 | .n32 => 6 | .n64 => 7

def ITy.ofCode (c : BitVec 3) : ITy :=
  match c.toNat with
  | 0 => .i8 | 1 => .i16 | 2 => .i32 | 3 => .i64 | 4 => .n8 | 5 => .n16 | 6 => .n32 | _ => .n64

def FTy.code : FTy → BitVec 2
  | .f32 => 0 | .f16 => 1 | .bf16 => 2

def FTy.ofCode (c : BitVec 2) : Option FTy :=
  match c.toNat with
  | 0 => some .f32 | 1 => some .f16 | 2 => some .bf16 | _ => none

def PTy.code : PTy → BitVec 2
  | .p8 => 0 | .p16 => 1 | .p32 => 2

def PTy.ofCode (c : BitVec 2) : Option PTy :=
  match c.toNat with
  | 0 => some .p8 | 1 => some .p16 | 2 => some .p32 | _ => none

def ETy.code : ETy → BitVec 4
  | .int t => t.code.setWidth 4
  | .flt .f32 => 8 | .flt .f16 => 9 | .flt .bf16 => 10
  | .pha .p8 => 11 | .pha .p16 => 12 | .pha .p32 => 13

def ETy.ofCode (c : BitVec 4) : Option ETy :=
  match c.toNat with
  | 8 => some (.flt .f32) | 9 => some (.flt .f16) | 10 => some (.flt .bf16)
  | 11 => some (.pha .p8) | 12 => some (.pha .p16) | 13 => some (.pha .p32)
  | 14 => none | 15 => none
  | n => some (.int (ITy.ofCode (BitVec.ofNat 3 n)))

def RedTy.code : RedTy → BitVec 4
  | .int t => (ETy.int t).code
  | .flt f => (ETy.flt f).code

def RedTy.ofCode (c : BitVec 4) : Option RedTy :=
  match ETy.ofCode c with
  | some (.int t) => some (.int t)
  | some (.flt f) => some (.flt f)
  | _ => none

def Rm.code : Rm → BitVec 2
  | .rn => 0 | .rz => 1 | .rp => 2 | .rm => 3

def Rm.ofCode (c : BitVec 2) : Rm :=
  match c.toNat with
  | 0 => .rn | 1 => .rz | 2 => .rp | _ => .rm

def Level.code : Level → BitVec 3
  | .w => 0 | .b => 1 | .g => 2 | .d => 3 | .s => 4

def Level.ofCode (c : BitVec 3) : Option Level :=
  match c.toNat with
  | 0 => some .w | 1 => some .b | 2 => some .g | 3 => some .d | 4 => some .s | _ => none

def ICond.code : ICond → BitVec 3
  | .eq => 0 | .ne => 1 | .lt => 2 | .le => 3 | .gt => 4 | .ge => 5

def ICond.ofCode (c : BitVec 3) : Option ICond :=
  match c.toNat with
  | 0 => some .eq | 1 => some .ne | 2 => some .lt | 3 => some .le | 4 => some .gt | 5 => some .ge | _ => none

def FCond.code : FCond → BitVec 3
  | .eq => 0 | .ne => 1 | .lt => 2 | .le => 3 | .gt => 4 | .ge => 5 | .un => 6

def FCond.ofCode (c : BitVec 3) : Option FCond :=
  match c.toNat with
  | 0 => some .eq | 1 => some .ne | 2 => some .lt | 3 => some .le | 4 => some .gt | 5 => some .ge | 6 => some .un
  | _ => none

def PCond.code : PCond → BitVec 3
  | .eq => 0 | .lead => 1 | .lag => 2 | .opp => 3 | .und => 4 | .ne => 5

def PCond.ofCode (c : BitVec 3) : Option PCond :=
  match c.toNat with
  | 0 => some .eq | 1 => some .lead | 2 => some .lag | 3 => some .opp | 4 => some .und | 5 => some .ne | _ => none

def ShMode.code : ShMode → BitVec 4
  | .idx => 0 | .xor => 1 | .rel => 2

def ShMode.ofCode (c : BitVec 4) : Option ShMode :=
  match c.toNat with
  | 0 => some .idx | 1 => some .xor | 2 => some .rel | _ => none

def RedOp.code : RedOp → BitVec 4
  | .add => 0 | .min => 1 | .max => 2 | .and => 3 | .or => 4 | .xor => 5

def RedOp.ofCode (c : BitVec 4) : Option RedOp :=
  match c.toNat with
  | 0 => some .add | 1 => some .min | 2 => some .max | 3 => some .and | 4 => some .or | 5 => some .xor | _ => none

def VoteMode.code : VoteMode → BitVec 4
  | .any => 0 | .all => 1 | .uni => 2

def VoteMode.ofCode (c : BitVec 4) : Option VoteMode :=
  match c.toNat with
  | 0 => some .any | 1 => some .all | 2 => some .uni | _ => none

def PsetOp.code : PsetOp → BitVec 4
  | .and => 0 | .or => 1 | .xor => 2

def PsetOp.ofCode (c : BitVec 4) : Option PsetOp :=
  match c.toNat with
  | 0 => some .and | 1 => some .or | 2 => some .xor | _ => none

def AtomOp.code : AtomOp → BitVec 4
  | .add => 0 | .min => 1 | .max => 2 | .and => 3 | .or => 4 | .xor => 5 | .xchg => 6 | .cas => 7

def AtomOp.ofCode (c : BitVec 4) : Option AtomOp :=
  match c.toNat with
  | 0 => some .add | 1 => some .min | 2 => some .max | 3 => some .and | 4 => some .or | 5 => some .xor
  | 6 => some .xchg | 7 => some .cas | _ => none

def XSpace.code : XSpace → BitVec 2
  | .v => 0 | .v64 => 1 | .s => 2 | .p => 3

def XSpace.ofCode (c : BitVec 2) : XSpace :=
  match c.toNat with
  | 0 => .v | 1 => .v64 | 2 => .s | _ => .p

/-! Small fields. -/

/-- Whether a register field names no scalar: bits [11:8] set (R185). -/
def hi8 (f : BitVec 12) : Bool := f.extractLsb' 8 4 != 0

def lo8 (f : BitVec 12) : BitVec 8 := f.extractLsb' 0 8

def up8 (f : BitVec 8) : BitVec 12 := (0 : BitVec 4) ++ f

/-- Whether a predicate field has bits [11:3] set. -/
def hi3 (f : BitVec 12) : Bool := f.extractLsb' 3 9 != 0

def lo3 (f : BitVec 12) : BitVec 3 := f.extractLsb' 0 3

def up3 (f : BitVec 3) : BitVec 12 := (0 : BitVec 9) ++ f

/-- A predicate source: number in [2:0], negation in [3] (R220). -/
def hi4 (f : BitVec 12) : Bool := f.extractLsb' 4 8 != 0

def neg3 (f : BitVec 12) : Bool := f.getLsbD 3

def upPred (neg : Bool) (p : BitVec 3) : BitVec 12 := (0 : BitVec 8) ++ (BitVec.ofBool neg ++ p)

/-- A compare's destination: predicate in [2:0], condition in [5:3] (R201). -/
def hi6 (f : BitVec 12) : Bool := f.extractLsb' 6 6 != 0

def cond3 (f : BitVec 12) : BitVec 3 := f.extractLsb' 3 3

def upCond (cc pd : BitVec 3) : BitVec 12 := (0 : BitVec 6) ++ (cc ++ pd)

/-- What a parse found: whether a reserved bit is set, and the instruction where every code is assigned. -/
structure Parse where
  res : Bool
  ins : Option Instr
  deriving DecidableEq, Repr

/-- A row of the opcode map (R191): first opcode, the length code of each form (none: unassigned form), and the parser of a
form. -/
structure OpRow where
  lo : Nat
  forms : List (Option (BitVec 2))
  parse : Nat → Raw → Parse

/-! Operand forms (R185). Each answers whether a reserved bit is set, and the operands. -/

def parseOps2 (k : Nat) (r : Raw) : Bool × Ops2 :=
  match k with
  | 0 => (false, .v r.dst r.sa r.sb)
  | 1 => (hi8 r.sb, .s r.dst r.sa (lo8 r.sb))
  | 2 => (r.sb != 0, .i r.dst r.sa r.imm)
  | _ =>
    if r.sb.getLsbD 11 then (hi8 r.dst || hi8 r.sa || r.sb.extractLsb' 0 11 != 0, .ui (lo8 r.dst) (lo8 r.sa) r.imm)
    else (hi8 r.dst || hi8 r.sa || hi8 r.sb || r.imm != 0, .us (lo8 r.dst) (lo8 r.sa) (lo8 r.sb))

def parseOpsC (k : Nat) (r : Raw) : Bool × OpsC :=
  match k with
  | 0 => (hi6 r.dst, .v r.sa r.sb)
  | 1 => (hi6 r.dst || hi8 r.sb, .s r.sa (lo8 r.sb))
  | 2 => (hi6 r.dst || r.sb != 0, .i r.sa r.imm)
  | _ =>
    if r.sb.getLsbD 11 then (hi6 r.dst || hi8 r.sa || r.sb.extractLsb' 0 11 != 0, .ui (lo8 r.sa) r.imm)
    else (hi6 r.dst || hi8 r.sa || hi8 r.sb || r.imm != 0, .us (lo8 r.sa) (lo8 r.sb))

def parseOps1 (k : Nat) (r : Raw) : Bool × Ops1 :=
  match k with
  | 0 => (r.sb != 0, .v r.dst r.sa)
  | 1 => (r.sb != 0 || hi8 r.sa, .s r.dst (lo8 r.sa))
  | _ => (r.sb != 0 || hi8 r.dst || hi8 r.sa || r.imm != 0, .u (lo8 r.dst) (lo8 r.sa))

/-- A source that is a vector, or a scalar when its kind bit is set. -/
def parseVS (isS : Bool) (f : BitVec 12) : Bool × VS := if isS then (hi8 f, .s (lo8 f)) else (false, .v f)

def parseOps3 (k : Nat) (r : Raw) : Bool × Ops3 :=
  let m := r.mod16
  let immRes := if m.getLsbD 12 then r.sc != 0 || m.getLsbD 13 else r.imm != 0
  let base := r.sym != 0 || m.extractLsb' 4 8 != 0 || immRes
  match k with
  | 0 =>
    let (za, a) := parseVS (m.getLsbD 15) r.sa
    let (zb, b) := parseVS (m.getLsbD 14) r.sb
    let (zc, c) : Bool × VSI :=
      if m.getLsbD 12 then (false, .i r.imm)
      else if m.getLsbD 13 then (hi8 r.sc, .s (lo8 r.sc)) else (false, .v r.sc)
    (base || za || zb || zc, .vec r.dst a b c)
  | _ =>
    let (zc, c) : Bool × SI := if m.getLsbD 12 then (false, .i r.imm) else (hi8 r.sc, .s (lo8 r.sc))
    (base || m.extractLsb' 13 3 != 0 || hi8 r.dst || hi8 r.sa || hi8 r.sb || zc, .uni (lo8 r.dst) (lo8 r.sa) (lo8 r.sb) c)

/-- The selecting pairs: the predicate stands in SC (R204, R230). -/
def parseOpsSel (k : Nat) (r : Raw) : Bool × OpsSel :=
  let m := r.mod16
  let base := r.sym != 0 || m.extractLsb' 4 8 != 0 || m.extractLsb' 12 2 != 0 || r.imm != 0 || hi4 r.sc
  match k with
  | 0 =>
    let (za, a) := parseVS (m.getLsbD 15) r.sa
    let (zb, b) := parseVS (m.getLsbD 14) r.sb
    (base || za || zb, .vec r.dst a b)
  | _ => (base || m.extractLsb' 14 2 != 0 || hi8 r.dst || hi8 r.sa || hi8 r.sb, .uni (lo8 r.dst) (lo8 r.sa) (lo8 r.sb))

/-- The conversions (R234). -/
def parseOpsCv (k : Nat) (r : Raw) : Bool × OpsCv :=
  let m := r.mod16
  let base := r.sym != 0 || r.imm != 0 || r.sb != 0 || r.sc != 0 || m.extractLsb' 11 4 != 0
  match k with
  | 0 => let (za, a) := parseVS (m.getLsbD 15) r.sa; (base || za, .vec r.dst a)
  | _ => (base || m.getLsbD 15 || hi8 r.dst || hi8 r.sa, .uni (lo8 r.dst) (lo8 r.sa))

/-- The last-use bits of a word stand on vector sources only (R183). -/
def lastRes (h : Hdr) (a b c : Bool) : Bool := (h.da && !a) || (h.db && !b) || (h.dc && !c)

def lastRes3 (h : Hdr) : Ops3 → Bool
  | .vec _ a b c => lastRes h a.isV b.isV c.isV
  | .uni .. => lastRes h false false false

def lastResSel (h : Hdr) : OpsSel → Bool
  | .vec _ a b => lastRes h a.isV b.isV false
  | .uni .. => lastRes h false false false

def lastResCv (h : Hdr) : OpsCv → Bool
  | .vec _ a => lastRes h a.isV false false
  | .uni .. => lastRes h false false false

/-- An instruction where a condition on its codes holds (else BADMOD). -/
def okIf (c : Bool) (i : Instr) : Option Instr := if c then some i else none

/-! The parsers, family by family. -/

/-- Integer blocks (R198): MOD[2:0] the type, MOD[3] .sat where the family has it. -/
def parseInt2 (sat : Bool) (mk : Hdr → ITy → Bool → Ops2 → Instr) (k : Nat) (r : Raw) : Parse :=
  let (z, o) := parseOps2 k r
  let s := r.mod.getLsbD 3
  ⟨z || lastRes r.hdr o.aV o.bV false, okIf (sat || !s) (mk r.hdr (ITy.ofCode (r.mod.extractLsb' 0 3)) s o)⟩

def parseIcmp (k : Nat) (r : Raw) : Parse :=
  let (z, o) := parseOpsC k r
  ⟨z || lastRes r.hdr o.aV o.bV false,
   match ICond.ofCode (cond3 r.dst) with
   | none => none
   | some cc => okIf (!r.mod.getLsbD 3) (.icmp r.hdr cc (ITy.ofCode (r.mod.extractLsb' 0 3)) (lo3 r.dst) o)⟩

def parseInt1 (mk : Hdr → ITy → Ops1 → Instr) (k : Nat) (r : Raw) : Parse :=
  let (z, o) := parseOps1 k r
  ⟨z || lastRes r.hdr o.aV false false, okIf (!r.mod.getLsbD 3) (mk r.hdr (ITy.ofCode (r.mod.extractLsb' 0 3)) o)⟩

def parseImad (k : Nat) (r : Raw) : Parse :=
  let (z, o) := parseOps3 k r
  ⟨z || lastRes3 r.hdr o, some (.imad r.hdr (ITy.ofCode (r.mod16.extractLsb' 0 3)) (r.mod16.getLsbD 3) o)⟩

def parseBfi (k : Nat) (r : Raw) : Parse :=
  let (z, o) := parseOps3 k r
  ⟨z || lastRes3 r.hdr o || !immBelow 16 o.imm?,
   okIf (!r.mod16.getLsbD 3) (.bfi r.hdr (ITy.ofCode (r.mod16.extractLsb' 0 3)) o)⟩

def parseIsel (k : Nat) (r : Raw) : Parse :=
  let (z, o) := parseOpsSel k r
  ⟨z || lastResSel r.hdr o,
   okIf (!r.mod16.getLsbD 3) (.isel r.hdr (ITy.ofCode (r.mod16.extractLsb' 0 3)) (neg3 r.sc) (lo3 r.sc) o)⟩

def parseBfx (k : Nat) (r : Raw) : Parse :=
  let t := ITy.ofCode (r.mod.extractLsb' 0 3)
  let z := r.sb != 0 || r.imm.extractLsb' 16 16 != 0
  let pos := r.imm.extractLsb' 0 8
  let len := r.imm.extractLsb' 8 8
  match k with
  | 0 => ⟨z || lastRes r.hdr true false false, okIf (!r.mod.getLsbD 3) (.bfx r.hdr t (.v r.dst r.sa) pos len)⟩
  | _ => ⟨z || hi8 r.dst || hi8 r.sa || lastRes r.hdr false false false,
          okIf (!r.mod.getLsbD 3) (.bfx r.hdr t (.u (lo8 r.dst) (lo8 r.sa)) pos len)⟩

def parseLea (k : Nat) (r : Raw) : Parse :=
  let t := ITy.ofCode (r.mod.extractLsb' 0 3)
  let z := r.imm.extractLsb' 3 5 != 0
  let sh := r.imm.extractLsb' 0 3
  let disp := r.imm.extractLsb' 8 24
  match k with
  | 0 =>
    let (zb, b) := parseVS (!r.mod.getLsbD 3) r.sa
    ⟨z || zb || lastRes r.hdr b.isV true false, okIf t.wide (.lea r.hdr t (.vec r.dst b r.sb) sh disp)⟩
  | _ => ⟨z || hi8 r.dst || hi8 r.sa || hi8 r.sb || lastRes r.hdr false false false,
          okIf (t.wide && !r.mod.getLsbD 3) (.lea r.hdr t (.uni (lo8 r.dst) (lo8 r.sa) (lo8 r.sb)) sh disp)⟩

def parseMovi (k : Nat) (r : Raw) : Parse :=
  let t := ITy.ofCode (r.mod.extractLsb' 0 3)
  let (zd, d) := parseVS (k != 0) r.dst
  ⟨zd || r.sa != 0 || r.sb != 0 || lastRes r.hdr false false false,
   okIf (!r.mod.getLsbD 3) (.movi r.hdr t d r.imm)⟩

/-- Instructions whose bits above the header are all zero. -/
def parseBare (i : Hdr → Instr) (_ : Nat) (r : Raw) : Parse :=
  ⟨r.dst != 0 || r.sa != 0 || r.sb != 0 || r.mod != 0 || r.imm != 0 || lastRes r.hdr false false false, some (i r.hdr)⟩

/-- Instructions with IMM32 only (R210, R211, R216). -/
def parseImm (i : Hdr → BitVec 32 → Instr) (_ : Nat) (r : Raw) : Parse :=
  ⟨r.dst != 0 || r.sa != 0 || r.sb != 0 || r.mod != 0 || lastRes r.hdr false false false, some (i r.hdr r.imm)⟩

def parseBrt (_ : Nat) (r : Raw) : Parse :=
  let (za, a) := parseVS (r.mod16.getLsbD 15) r.sa
  ⟨r.dst != 0 || r.sb != 0 || r.sc != 0 || r.sym != 0 || r.mod16.extractLsb' 12 3 != 0 || za
    || lastRes r.hdr a.isV false false, some (.brt r.hdr a (r.mod16.extractLsb' 0 12) r.imm)⟩

def parseShfl (k : Nat) (r : Raw) : Parse :=
  let (z, b) : Bool × VSI :=
    match k with
    | 0 => (false, .v r.sb)
    | 1 => (hi8 r.sb, .s (lo8 r.sb))
    | _ => (r.sb != 0, .i r.imm)
  ⟨z || lastRes r.hdr true b.isV false, (ShMode.ofCode r.mod).map fun m => .shfl r.hdr m r.dst r.sa b⟩

def parseLred (_ : Nat) (r : Raw) : Parse :=
  let rmd := Rm.ofCode (r.imm.extractLsb' 4 2)
  ⟨r.sb != 0 || r.imm.extractLsb' 6 26 != 0 || lastRes r.hdr true false false,
   match RedOp.ofCode r.mod, RedTy.ofCode (r.imm.extractLsb' 0 4) with
   | some op, some t =>
     okIf (t.okFor op && (rmd == .rn || (t.isFloat && op == .add))) (.lred r.hdr op t rmd r.dst r.sa)
   | _, _ => none⟩

def parseVote (_ : Nat) (r : Raw) : Parse :=
  ⟨hi3 r.dst || hi4 r.sa || r.sb != 0 || lastRes r.hdr false false false,
   (VoteMode.ofCode r.mod).map fun m => .vote r.hdr m (lo3 r.dst) (neg3 r.sa) (lo3 r.sa)⟩

def parseBallot (_ : Nat) (r : Raw) : Parse :=
  ⟨hi8 r.dst || hi4 r.sa || r.sb != 0 || r.mod != 0 || lastRes r.hdr false false false,
   some (.ballot r.hdr (lo8 r.dst) (neg3 r.sa) (lo3 r.sa))⟩

def parsePset (_ : Nat) (r : Raw) : Parse :=
  ⟨hi3 r.dst || hi4 r.sa || hi4 r.sb || lastRes r.hdr false false false,
   (PsetOp.ofCode r.mod).map fun m => .pset r.hdr m (lo3 r.dst) (neg3 r.sa) (lo3 r.sa) (neg3 r.sb) (lo3 r.sb)⟩

/-- FADD, FSUB and FMUL (R225): MOD[1:0] rounding, [2] .fz, [3] .x2. -/
def parseFloat2 (f : FTy) (mk : Hdr → FTy → Rm → Bool → Bool → Ops2 → Instr) (k : Nat) (r : Raw) : Parse :=
  let (z, o) := parseOps2 k r
  let x := r.mod.getLsbD 3
  ⟨z || lastRes r.hdr o.aV o.bV false || !immBelow (f.immBits x) o.imm?,
   okIf (f.x2ok x) (mk r.hdr f (Rm.ofCode (r.mod.extractLsb' 0 2)) (r.mod.getLsbD 2) x o)⟩

/-- FMIN and FMAX (R228). -/
def parseFminmax (f : FTy) (mk : Hdr → FTy → Bool → Ops2 → Instr) (k : Nat) (r : Raw) : Parse :=
  let (z, o) := parseOps2 k r
  let x := r.mod.getLsbD 3
  ⟨z || lastRes r.hdr o.aV o.bV false || !immBelow (f.immBits x) o.imm?,
   okIf (f.x2ok x && r.mod.extractLsb' 0 3 == 0) (mk r.hdr f x o)⟩

def parseFcmp (f : FTy) (k : Nat) (r : Raw) : Parse :=
  let (z, o) := parseOpsC k r
  ⟨z || lastRes r.hdr o.aV o.bV false || !immBelow (f.immBits false) o.imm?,
   match FCond.ofCode (cond3 r.dst) with
   | none => none
   | some cc => okIf (r.mod == 0) (.fcmp r.hdr cc f (lo3 r.dst) o)⟩

/-- The functions without a rounding field (R231). -/
def parseFun (f : FTy) (mk : Hdr → FTy → Bool → Bool → Ops1 → Instr) (k : Nat) (r : Raw) : Parse :=
  let (z, o) := parseOps1 k r
  let x := r.mod.getLsbD 3
  ⟨z || lastRes r.hdr o.aV false false, okIf (f.x2ok x && r.mod.extractLsb' 0 2 == 0) (mk r.hdr f (r.mod.getLsbD 2) x o)⟩

/-- FSQRT and FRND (R231). -/
def parseFunR (f : FTy) (mk : Hdr → FTy → Rm → Bool → Bool → Ops1 → Instr) (k : Nat) (r : Raw) : Parse :=
  let (z, o) := parseOps1 k r
  let x := r.mod.getLsbD 3
  ⟨z || lastRes r.hdr o.aV false false,
   okIf (f.x2ok x) (mk r.hdr f (Rm.ofCode (r.mod.extractLsb' 0 2)) (r.mod.getLsbD 2) x o)⟩

def parseFfma (f : FTy) (k : Nat) (r : Raw) : Parse :=
  let (z, o) := parseOps3 k r
  let x := r.mod16.getLsbD 3
  ⟨z || lastRes3 r.hdr o || !immBelow (f.immBits x) o.imm?,
   okIf (f.x2ok x) (.ffma r.hdr f (Rm.ofCode (r.mod16.extractLsb' 0 2)) (r.mod16.getLsbD 2) x o)⟩

def parseFsel (k : Nat) (r : Raw) : Parse :=
  let (z, o) := parseOpsSel k r
  ⟨z || lastResSel r.hdr o,
   match FTy.ofCode (r.mod16.extractLsb' 0 2) with
   | none => none
   | some f => okIf (r.mod16.extractLsb' 2 2 == 0) (.fsel r.hdr f (neg3 r.sc) (lo3 r.sc) o)⟩

def parseCvtf (k : Nat) (r : Raw) : Parse :=
  let (z, o) := parseOpsCv k r
  let m := r.mod16
  ⟨z || lastResCv r.hdr o || m.extractLsb' 8 3 != 0,
   match FTy.ofCode (m.extractLsb' 6 2), FTy.ofCode (m.extractLsb' 4 2) with
   | some fd, some fs => okIf (fd != fs && !m.getLsbD 3) (.cvtf r.hdr fd fs (Rm.ofCode (m.extractLsb' 0 2)) (m.getLsbD 2) o)
   | _, _ => none⟩

def parseCvtfi (k : Nat) (r : Raw) : Parse :=
  let (z, o) := parseOpsCv k r
  let m := r.mod16
  ⟨z || lastResCv r.hdr o || m.extractLsb' 6 2 != 0,
   match FTy.ofCode (m.extractLsb' 4 2) with
   | some fs => okIf (m.extractLsb' 2 2 == 0)
       (.cvtfi r.hdr (ITy.ofCode (m.extractLsb' 8 3)) fs (Rm.ofCode (m.extractLsb' 0 2)) o)
   | none => none⟩

def parseCvtif (k : Nat) (r : Raw) : Parse :=
  let (z, o) := parseOpsCv k r
  let m := r.mod16
  ⟨z || lastResCv r.hdr o || m.extractLsb' 4 2 != 0,
   match FTy.ofCode (m.extractLsb' 6 2) with
   | some fd => okIf (m.extractLsb' 2 2 == 0)
       (.cvtif r.hdr fd (ITy.ofCode (m.extractLsb' 8 3)) (Rm.ofCode (m.extractLsb' 0 2)) o)
   | none => none⟩

/-- The scale operand of NPACK and NUNPK (R236). -/
def parseScale (r : Raw) : Bool × Option (BitVec 8) :=
  if r.mod16.getLsbD 4 then (hi8 r.sb, some (lo8 r.sb)) else (r.sb != 0, none)

def parseNpack (_ : Nat) (r : Raw) : Parse :=
  let (z, s) := parseScale r
  ⟨z || r.sc != 0 || r.imm.extractLsb' 5 27 != 0 || r.mod16.extractLsb' 5 11 != 0 || lastRes r.hdr true false false,
   okIf (!r.mod16.getLsbD 3) (.npack r.hdr (Rm.ofCode (r.mod16.extractLsb' 0 2)) (r.mod16.getLsbD 2) r.dst r.sa r.sym
     (r.imm.extractLsb' 0 5) s)⟩

def parseNunpk (_ : Nat) (r : Raw) : Parse :=
  let (z, s) := parseScale r
  ⟨z || r.sc != 0 || r.imm.extractLsb' 5 27 != 0 || r.mod16.extractLsb' 5 11 != 0 || r.mod16.extractLsb' 0 4 != 0
    || lastRes r.hdr true false false,
   some (.nunpk r.hdr r.dst r.sa r.sym (r.imm.extractLsb' 0 5) s)⟩

def parsePmul (p : PTy) (k : Nat) (r : Raw) : Parse :=
  let (z, o) := parseOps2 k r
  let x := r.mod.getLsbD 3
  ⟨z || lastRes r.hdr o.aV o.bV false || !immBelow (if x then 32 else p.bits) o.imm?,
   okIf (p.x2ok x && r.mod.extractLsb' 0 3 == 0) (.pmul r.hdr p x o)⟩

def parsePpow (p : PTy) (k : Nat) (r : Raw) : Parse :=
  let (z, o) := parseOps2 k r
  let x := r.mod.getLsbD 3
  ⟨z || lastRes r.hdr o.aV o.bV false, okIf (p.x2ok x && r.mod.extractLsb' 0 3 == 0) (.ppow r.hdr p x o)⟩

def parsePcmp (p : PTy) (k : Nat) (r : Raw) : Parse :=
  let (z, o) := parseOpsC k r
  ⟨z || lastRes r.hdr o.aV o.bV false || !immBelow p.bits o.imm?,
   match PCond.ofCode (cond3 r.dst) with
   | none => none
   | some cc => okIf (r.mod == 0) (.pcmp r.hdr p cc (lo3 r.dst) o)⟩

def parsePconj (_ : Nat) (r : Raw) : Parse :=
  ⟨r.sb != 0 || lastRes r.hdr true false false,
   match PTy.ofCode (r.mod.extractLsb' 0 2) with
   | some p => okIf (!r.mod.getLsbD 2 && p.x2ok (r.mod.getLsbD 3)) (.pconj r.hdr p (r.mod.getLsbD 3) r.dst r.sa)
   | none => none⟩

def parsePdef (_ : Nat) (r : Raw) : Parse :=
  ⟨r.sb != 0 || hi3 r.dst || lastRes r.hdr true false false,
   match PTy.ofCode (r.mod.extractLsb' 0 2) with
   | some p => okIf (r.mod.extractLsb' 2 2 == 0) (.pdef r.hdr p (lo3 r.dst) r.sa)
   | none => none⟩

def parsePcvt (_ : Nat) (r : Raw) : Parse :=
  ⟨r.sb != 0 || lastRes r.hdr true false false,
   match PTy.ofCode (r.mod.extractLsb' 0 2), PTy.ofCode (r.mod.extractLsb' 2 2) with
   | some pm, some pn => some (.pcvt r.hdr pm pn r.dst r.sa)
   | _, _ => none⟩

def parsePred (_ : Nat) (r : Raw) : Parse :=
  ⟨r.sb != 0 || lastRes r.hdr true false false,
   match PTy.ofCode (r.mod.extractLsb' 0 2) with
   | some p => okIf (r.mod.extractLsb' 2 2 == 0) (.pred r.hdr p r.dst r.sa)
   | none => none⟩

/-- PTOF, PCOS, PSIN and PVEC (R241). -/
def parsePhaF (mk : Hdr → Rm → Bool → FTy → PTy → BitVec 12 → BitVec 12 → Instr) (_ : Nat) (r : Raw) : Parse :=
  ⟨r.sb != 0 || r.imm.extractLsb' 2 2 != 0 || r.imm.extractLsb' 6 26 != 0 || lastRes r.hdr true false false,
   match PTy.ofCode (r.imm.extractLsb' 0 2), FTy.ofCode (r.imm.extractLsb' 4 2) with
   | some p, some f => okIf (!r.mod.getLsbD 3) (mk r.hdr (Rm.ofCode (r.mod.extractLsb' 0 2)) (r.mod.getLsbD 2) f p r.dst r.sa)
   | _, _ => none⟩

def parsePfromf (_ : Nat) (r : Raw) : Parse :=
  ⟨r.sb != 0 || r.imm.extractLsb' 2 2 != 0 || r.imm.extractLsb' 6 26 != 0 || lastRes r.hdr true false false,
   match PTy.ofCode (r.imm.extractLsb' 0 2), FTy.ofCode (r.imm.extractLsb' 4 2) with
   | some p, some f => okIf (r.mod == 0) (.pfromf r.hdr p f r.dst r.sa)
   | _, _ => none⟩

def parsePatan (_ : Nat) (r : Raw) : Parse :=
  ⟨r.imm.extractLsb' 2 2 != 0 || r.imm.extractLsb' 6 26 != 0 || lastRes r.hdr true true false,
   match PTy.ofCode (r.imm.extractLsb' 0 2), FTy.ofCode (r.imm.extractLsb' 4 2) with
   | some p, some f => okIf (r.mod == 0) (.patan r.hdr p f r.dst r.sa r.sb)
   | _, _ => none⟩

/-- The offset of an address (R243): OFF in IMM32[6:5]. -/
def parseOff (r : Raw) : Bool × Option Off :=
  match (r.imm.extractLsb' 5 2).toNat with
  | 0 => (r.sb != 0, some .none)
  | 1 => (false, some (.v r.sb))
  | 2 => (hi8 r.sb, some (.s (lo8 r.sb)))
  | _ => (false, none)

def parseLd (k : Nat) (r : Raw) : Parse :=
  let (zo, off) := parseOff r
  let sh := r.imm.extractLsb' 3 2
  let disp := r.imm.extractLsb' 8 24
  let bv := r.imm.getLsbD 7
  let z := r.imm.extractLsb' 0 3 != 0 || zo
  match k with
  | 0 =>
    let (zb, b) := parseVS (!bv) r.sa
    ⟨z || zb || lastRes r.hdr b.isV (match off with | some o => o.isV | none => false) false,
     match ETy.ofCode r.mod, off with
     | some t, some o => some (.ld r.hdr t (.vec r.dst ⟨b, o, sh, disp⟩))
     | _, _ => none⟩
  | _ =>
    ⟨z || bv || hi8 r.dst || hi8 r.sa || lastRes r.hdr false false false,
     match ETy.ofCode r.mod, off with
     | some t, some .none => some (.ld r.hdr t (.uni (lo8 r.dst) (lo8 r.sa) none sh disp))
     | some t, some (.s n) => some (.ld r.hdr t (.uni (lo8 r.dst) (lo8 r.sa) (some n) sh disp))
     | _, _ => none⟩

def parseSt (_ : Nat) (r : Raw) : Parse :=
  let (zo, off) := parseOff r
  let (zb, b) := parseVS (!r.imm.getLsbD 7) r.dst
  ⟨r.imm.extractLsb' 0 3 != 0 || zo || zb || lastRes r.hdr true (match off with | some o => o.isV | none => false) false,
   match ETy.ofCode r.mod, off with
   | some t, some o => some (.st r.hdr t ⟨b, o, r.imm.extractLsb' 3 2, r.imm.extractLsb' 8 24⟩ r.sa)
   | _, _ => none⟩

def parseLdb (_ : Nat) (r : Raw) : Parse :=
  let (za, a) := parseVS (r.mod16.getLsbD 15) r.sa
  ⟨r.sb != 0 || r.sc != 0 || r.mod16.extractLsb' 5 10 != 0 || za || lastRes r.hdr a.isV false false,
   (ETy.ofCode (r.mod16.extractLsb' 0 4)).map fun t => .ldb r.hdr t r.dst a (r.mod16.getLsbD 4) r.sym r.imm⟩

def parseStb (_ : Nat) (r : Raw) : Parse :=
  let (za, a) := parseVS (r.mod16.getLsbD 15) r.sa
  ⟨r.dst != 0 || r.sc != 0 || r.mod16.extractLsb' 5 10 != 0 || za || lastRes r.hdr a.isV true false,
   (ETy.ofCode (r.mod16.extractLsb' 0 4)).map fun t => .stb r.hdr t a (r.mod16.getLsbD 4) r.sym r.imm r.sb⟩

def parseAtom (_ : Nat) (r : Raw) : Parse :=
  let m := r.mod16
  let (za, a) := parseVS (m.getLsbD 15) r.sa
  let (zb, b) := parseVS (m.getLsbD 14) r.sb
  let isCas := m.extractLsb' 8 4 == 7
  let (zc, c) : Bool × Option VS :=
    if isCas then (let (z, x) := parseVS (m.getLsbD 13) r.sc; (z, some x)) else (m.getLsbD 13 || r.sc != 0, none)
  ⟨r.sym != 0 || m.getLsbD 7 || m.getLsbD 12 || za || zb || zc || lastRes r.hdr a.isV b.isV (optV c),
   match AtomOp.ofCode (m.extractLsb' 8 4), Level.ofCode (m.extractLsb' 4 3), ETy.ofCode (m.extractLsb' 0 4) with
   | some op, some l, some t => okIf (op.tyOk t) (.atom r.hdr op l t r.dst a b c r.imm)
   | _, _, _ => none⟩

def parseWaitv (_ : Nat) (r : Raw) : Parse :=
  let m := r.mod16
  let (za, a) := parseVS (m.getLsbD 15) r.sa
  let (zb, src, bV) : Bool × WaitSrc × Bool :=
    if m.getLsbD 12 then (r.sb != 0 || m.getLsbD 14, .imm r.imm, false)
    else (let (z, b) := parseVS (m.getLsbD 14) r.sb; (z, .reg b r.imm, b.isV))
  ⟨r.sym != 0 || r.sc != 0 || m.getLsbD 7 || m.getLsbD 13 || za || zb || lastRes r.hdr a.isV bV false,
   match Level.ofCode (m.extractLsb' 4 3), ETy.ofCode (m.extractLsb' 0 4) with
   | some l, some (.int t) =>
     okIf (t.wide && m.extractLsb' 9 3 == 0) (.waitv r.hdr (m.getLsbD 8) l t r.dst a src)
   | _, _ => none⟩

/-- COMMIT, ABORT and ACQ (R248). -/
def parseLevel (mk : Hdr → Level → Instr) (_ : Nat) (r : Raw) : Parse :=
  ⟨r.dst != 0 || r.sa != 0 || r.sb != 0 || lastRes r.hdr false false false,
   match Level.ofCode (r.mod.extractLsb' 0 3) with
   | some l => okIf (!r.mod.getLsbD 3) (mk r.hdr l)
   | none => none⟩

def parseCommitX (_ : Nat) (r : Raw) : Parse :=
  ⟨hi8 r.dst || r.sa != 0 || r.sb != 0 || lastRes r.hdr false false false,
   match Level.ofCode (r.mod.extractLsb' 0 3) with
   | some l => okIf (!r.mod.getLsbD 3) (.commitX r.hdr l (lo8 r.dst))
   | none => none⟩

/-- FENCE (spec/09 R164): SRCM in bits [27:24], DSTM in [31:28]; an empty path list is an unassigned value. -/
def parseFence (_ : Nat) (r : Raw) : Parse :=
  let src := r.dst.extractLsb' 0 4
  let dst := r.dst.extractLsb' 4 4
  ⟨hi8 r.dst || r.sa != 0 || r.sb != 0 || r.mod != 0 || lastRes r.hdr false false false,
   okIf (src != 0 && dst != 0) (.fence r.hdr src dst)⟩

/-- The length operand of CPY and CPYR (R253). -/
def parseLenOp (r : Raw) : Bool × SI :=
  if r.mod16.getLsbD 12 then (r.sb != 0, .i r.imm) else (hi8 r.sb || r.imm != 0, .s (lo8 r.sb))

def parseCpy (_ : Nat) (r : Raw) : Parse :=
  let (z, n) := parseLenOp r
  let m := r.mod16
  ⟨z || hi8 r.dst || hi8 r.sa || r.sc != 0 || m.extractLsb' 13 3 != 0 || m.extractLsb' 4 8 != 0
    || lastRes r.hdr false false false,
   match Level.ofCode (m.extractLsb' 0 3) with
   | some l => okIf (!m.getLsbD 3) (.cpy r.hdr l (lo8 r.dst) (lo8 r.sa) n r.sym)
   | none => none⟩

def parseCpyr (_ : Nat) (r : Raw) : Parse :=
  let (z, n) := parseLenOp r
  let m := r.mod16
  ⟨z || hi8 r.dst || hi8 r.sa || r.sc != 0 || m.extractLsb' 13 3 != 0 || m.extractLsb' 0 12 != 0
    || lastRes r.hdr false false false,
   some (.cpyr r.hdr (lo8 r.dst) (lo8 r.sa) n r.sym)⟩

/-- The buffer or queue segment of CPYT (R254). -/
def parseSegRef16 (r : Raw) : Bool × SegRef16 :=
  let sym := r.imm.extractLsb' 0 8
  let q := r.mod16.getLsbD 3
  if r.mod16.getLsbD 14 then (hi8 r.sb || r.imm.extractLsb' 16 16 != 0, ⟨sym, q, .scl (lo8 r.sb)⟩)
  else (r.sb != 0, ⟨sym, q, .imm (r.imm.extractLsb' 16 16)⟩)

def parseCpytLd (_ : Nat) (r : Raw) : Parse :=
  let (z, b) := parseSegRef16 r
  let m := r.mod16
  ⟨z || r.dst != 0 || r.sc != 0 || hi8 r.sa || m.getLsbD 15 || m.extractLsb' 4 10 != 0 || m.extractLsb' 0 3 != 0
    || lastRes r.hdr false false false,
   some (.cpytLd r.hdr b r.sym (lo8 r.sa) (r.imm.extractLsb' 8 8))⟩

def parseCpytSt (_ : Nat) (r : Raw) : Parse :=
  let (z, b) := parseSegRef16 r
  let m := r.mod16
  ⟨z || r.dst != 0 || r.sc != 0 || hi8 r.sa || m.getLsbD 15 || m.extractLsb' 4 10 != 0 || lastRes r.hdr false false false,
   (Level.ofCode (m.extractLsb' 0 3)).map fun l => .cpytSt r.hdr l b r.sym (lo8 r.sa) (r.imm.extractLsb' 8 8)⟩

/-- A list of tag symbols (R256). -/
def parseTags (r : Raw) : Bool × TagList :=
  let l : TagList := ⟨r.sym.extractLsb' 0 3, r.mod16 ++ r.imm⟩
  (r.sa != 0 || r.sb != 0 || r.sc != 0 || r.sym.extractLsb' 3 5 != 0 || !l.ok || lastRes r.hdr false false false, l)

def parseTagList (mk : Hdr → TagList → Instr) (_ : Nat) (r : Raw) : Parse :=
  let (z, l) := parseTags r
  ⟨z || r.dst != 0, some (mk r.hdr l)⟩

def parseTfirst (_ : Nat) (r : Raw) : Parse :=
  let (z, l) := parseTags r
  ⟨z || hi8 r.dst, some (.tfirst r.hdr (lo8 r.dst) l)⟩

/-- F128 instructions whose SB, SC, MOD16 and IMM32 are zero (R258, R263). -/
def restZero (r : Raw) : Bool := r.sb != 0 || r.sc != 0 || r.mod16 != 0 || r.imm != 0 || lastRes r.hdr false false false

/-- A symbol and a scalar destination. -/
def parseSymD (mk : Hdr → BitVec 8 → BitVec 8 → Instr) (_ : Nat) (r : Raw) : Parse :=
  ⟨restZero r || hi8 r.dst || r.sa != 0, some (mk r.hdr (lo8 r.dst) r.sym)⟩

/-- A symbol and a scalar source. -/
def parseSymA (mk : Hdr → BitVec 8 → BitVec 8 → Instr) (_ : Nat) (r : Raw) : Parse :=
  ⟨restZero r || r.dst != 0 || hi8 r.sa, some (mk r.hdr r.sym (lo8 r.sa))⟩

/-- A symbol alone. -/
def parseSym (mk : Hdr → BitVec 8 → Instr) (_ : Nat) (r : Raw) : Parse :=
  ⟨restZero r || r.dst != 0 || r.sa != 0, some (mk r.hdr r.sym)⟩

def parseQgrant (_ : Nat) (r : Raw) : Parse :=
  let n := r.imm.extractLsb' 0 5
  ⟨r.dst != 0 || r.sa != 0 || r.sb != 0 || r.sc != 0 || r.mod16 != 0 || r.imm.extractLsb' 5 27 != 0
    || lastRes r.hdr false false false,
   okIf (decide (1 ≤ n.toNat) && decide (n.toNat ≤ 16)) (.qgrant r.hdr r.sym n)⟩

def parseEpush (_ : Nat) (r : Raw) : Parse :=
  ⟨hi8 r.dst || hi8 r.sa || hi8 r.sb || r.mod != 0 || lastRes r.hdr false false false,
   some (.epush r.hdr (lo8 r.dst) (lo8 r.sa) (lo8 r.sb) r.imm)⟩

def parseEpop (_ : Nat) (r : Raw) : Parse :=
  ⟨hi8 r.dst || hi8 r.sa || r.sb != 0 || r.mod != 0 || lastRes r.hdr false false false,
   some (.epop r.hdr (lo8 r.dst) (lo8 r.sa) r.imm)⟩

/-- The operands of MMA and PMMA (R273). -/
def parseMat (r : Raw) : Bool × MatOps :=
  let m := r.mod16
  (hi8 r.sa || hi8 r.sb || hi8 r.sc || r.dst.extractLsb' 10 2 != 0 || m.extractLsb' 4 8 != 0
    || lastRes r.hdr false false false,
   { acc := r.sym, bank := r.dst.extractLsb' 0 10
     a := ⟨lo8 r.sa, m.getLsbD 15, m.getLsbD 13, r.imm.extractLsb' 16 8⟩
     hA := r.imm.extractLsb' 0 8
     b := ⟨lo8 r.sb, m.getLsbD 14, m.getLsbD 12, r.imm.extractLsb' 24 8⟩
     hB := r.imm.extractLsb' 8 8
     k := lo8 r.sc })

def parseMma (_ : Nat) (r : Raw) : Parse :=
  let (z, o) := parseMat r
  ⟨z, okIf (r.mod16.extractLsb' 1 3 == 0) (.mma r.hdr (r.mod16.getLsbD 0) o)⟩

def parsePmma (_ : Nat) (r : Raw) : Parse :=
  let (z, o) := parseMat r
  ⟨z, okIf (!r.mod16.getLsbD 3) (.pmma r.hdr (r.mod16.extractLsb' 0 2) (r.mod16.getLsbD 2) o)⟩

def parseAcca (_ : Nat) (r : Raw) : Parse :=
  ⟨r.dst != 0 || r.sa != 0 || r.sb != 0 || r.sc != 0 || r.mod16 != 0 || r.imm.extractLsb' 10 6 != 0
    || r.imm.extractLsb' 24 8 != 0 || lastRes r.hdr false false false,
   some (.acca r.hdr r.sym (r.imm.extractLsb' 0 10) (r.imm.extractLsb' 16 4) (r.imm.extractLsb' 20 4))⟩

/-- ACCF and ACCZ (R276). -/
def parseAccn (mk : Hdr → BitVec 8 → BitVec 10 → BitVec 4 → Instr) (_ : Nat) (r : Raw) : Parse :=
  ⟨r.dst != 0 || r.sa != 0 || r.sb != 0 || r.sc != 0 || r.mod16 != 0 || r.imm.extractLsb' 10 6 != 0
    || r.imm.extractLsb' 20 12 != 0 || lastRes r.hdr false false false,
   some (mk r.hdr r.sym (r.imm.extractLsb' 0 10) (r.imm.extractLsb' 16 4))⟩

def parseAccr (_ : Nat) (r : Raw) : Parse :=
  ⟨hi8 r.sa || r.sb != 0 || r.sc != 0 || r.mod16 != 0 || r.imm.extractLsb' 10 22 != 0 || lastRes r.hdr false false false,
   some (.accr r.hdr r.dst r.sym (r.imm.extractLsb' 0 10) (lo8 r.sa))⟩

def parseAccw (_ : Nat) (r : Raw) : Parse :=
  ⟨r.dst != 0 || hi8 r.sa || r.sc != 0 || r.mod16 != 0 || r.imm.extractLsb' 10 22 != 0 || lastRes r.hdr false true false,
   some (.accw r.hdr r.sym (r.imm.extractLsb' 0 10) (lo8 r.sa) r.sb)⟩

/-- The destination of a drain (R278): MOD16[6:4] is 0 for .sc, else a level. -/
def parseDrainDst (r : Raw) : Bool × Option DrainDst :=
  let m := r.mod16
  match (m.extractLsb' 4 3).toNat with
  | 0 => (hi8 r.dst, some (.sc (lo8 r.dst) (m.getLsbD 11) (r.imm.extractLsb' 24 8)))
  | _ => (hi8 r.dst || m.getLsbD 11 || r.imm.extractLsb' 24 8 != 0,
          (Level.ofCode (m.extractLsb' 4 3)).map fun l => .mem l (lo8 r.dst))

def parseDrain (_ : Nat) (r : Raw) : Parse :=
  let m := r.mod16
  let (z, d) := parseDrainDst r
  let amx := m.getLsbD 7
  ⟨z || r.sb != 0 || hi8 r.sc || m.extractLsb' 12 4 != 0 || r.imm.extractLsb' 10 6 != 0
    || (if amx then hi8 r.sa else r.sa != 0 || m.extractLsb' 8 3 != 0) || lastRes r.hdr false false false,
   match d, Level.ofCode (m.extractLsb' 8 3) with
   | some d, some la =>
     some (.drain r.hdr d (m.getLsbD 3) (Rm.ofCode (m.extractLsb' 0 2)) (m.getLsbD 2)
       (if amx then some (la, lo8 r.sa) else none) r.sym (r.imm.extractLsb' 16 8) (r.imm.extractLsb' 0 10) (lo8 r.sc))
   | _, _ => none⟩

def parsePdrain (_ : Nat) (r : Raw) : Parse :=
  let m := r.mod16
  let (z, d) := parseDrainDst r
  ⟨z || r.sa != 0 || hi8 r.sb || hi8 r.sc || m.extractLsb' 12 4 != 0 || m.extractLsb' 7 4 != 0 || m.extractLsb' 0 4 != 0
    || r.imm.extractLsb' 10 6 != 0 || lastRes r.hdr false false false,
   d.map fun d => .pdrain r.hdr d (lo8 r.sb) r.sym (r.imm.extractLsb' 16 8) (r.imm.extractLsb' 0 10) (lo8 r.sc)⟩

def parseTqry (_ : Nat) (r : Raw) : Parse :=
  let i := r.imm.extractLsb' 0 4
  ⟨hi8 r.dst || r.sa != 0 || r.sb != 0 || r.sc != 0 || r.mod16 != 0 || r.imm.extractLsb' 4 28 != 0
    || lastRes r.hdr false false false,
   okIf (decide (i.toNat ≤ 8)) (.tqry r.hdr (lo8 r.dst) r.sym i)⟩

/-- SRR (R282): reading sr.wid or sr.lane into a scalar is BADMOD; it takes no modifier, so its unused MOD bits are RESBIT (R186). -/
def parseSrr (_ : Nat) (r : Raw) : Parse :=
  let sc := r.mod.getLsbD 0
  let (z, d) := parseVS sc r.dst
  ⟨z || hi8 r.sa || r.sb != 0 || r.mod.extractLsb' 1 3 != 0 || lastRes r.hdr false false false,
   okIf (!sc || decide (2 ≤ (lo8 r.sa).toNat)) (.srr r.hdr d (lo8 r.sa))⟩

def parseSrw (_ : Nat) (r : Raw) : Parse :=
  ⟨r.dst != 0 || hi8 r.sa || hi8 r.sb || r.mod != 0 || lastRes r.hdr false false false,
   some (.srw r.hdr (lo8 r.sa) (lo8 r.sb))⟩

/-- The register number of XRD and XWR (R286). -/
def parseXNum (r : Raw) : Bool × XNum :=
  if r.mod.getLsbD 2 then (hi8 r.sa || r.imm != 0, .scl (lo8 r.sa))
  else (r.sa != 0 || r.imm.extractLsb' 12 20 != 0, .imm (r.imm.extractLsb' 0 12))

/-- Bits of a register field that the space leaves reserved. -/
def xRes (sp : XSpace) (f : BitVec 12) : Bool :=
  match sp with
  | .v | .v64 => false
  | .s => decide (256 ≤ f.toNat)
  | .p => decide (8 ≤ f.toNat)

def XSpace.isV : XSpace → Bool
  | .v | .v64 => true
  | .s | .p => false

def parseXrd (_ : Nat) (r : Raw) : Parse :=
  let sp := XSpace.ofCode (r.mod.extractLsb' 0 2)
  let (z, n) := parseXNum r
  ⟨z || r.sb != 0 || xRes sp r.dst || lastRes r.hdr false false false, okIf (!r.mod.getLsbD 3) (.xrd r.hdr sp r.dst n)⟩

def parseXwr (_ : Nat) (r : Raw) : Parse :=
  let sp := XSpace.ofCode (r.mod.extractLsb' 0 2)
  let (z, n) := parseXNum r
  ⟨z || r.dst != 0 || xRes sp r.sb || lastRes r.hdr false sp.isV false, okIf (!r.mod.getLsbD 3) (.xwr r.hdr sp n r.sb)⟩

def parseRtt (_ : Nat) (r : Raw) : Parse :=
  ⟨r.dst != 0 || hi8 r.sa || r.sb != 0 || lastRes r.hdr false false false,
   okIf (r.mod.extractLsb' 1 3 == 0) (if r.mod.getLsbD 0 then .rttBr r.hdr (lo8 r.sa) else .rtt r.hdr (lo8 r.sa))⟩

/-! The opcode map (R191). -/

def blockForms : List (Option (BitVec 2)) := [some 0, some 0, some 1, some 1]
def unaryForms : List (Option (BitVec 2)) := [some 0, some 0, none, some 1]
def pair128 : List (Option (BitVec 2)) := [some 2, some 2]
def pair96 : List (Option (BitVec 2)) := [some 1, some 1]
def one64 : List (Option (BitVec 2)) := [some 0]
def one96 : List (Option (BitVec 2)) := [some 1]
def one128 : List (Option (BitVec 2)) := [some 2]

def opRowsInt : List OpRow :=
  [⟨0x000, blockForms, parseInt2 true .iadd⟩, ⟨0x004, blockForms, parseInt2 true .isub⟩,
   ⟨0x008, blockForms, parseInt2 false fun h t _ o => .imul h t o⟩,
   ⟨0x00C, blockForms, parseInt2 false fun h t _ o => .imulh h t o⟩,
   ⟨0x010, blockForms, parseInt2 false fun h t _ o => .imin h t o⟩,
   ⟨0x014, blockForms, parseInt2 false fun h t _ o => .imax h t o⟩,
   ⟨0x018, blockForms, parseInt2 false fun h t _ o => .and h t o⟩,
   ⟨0x01C, blockForms, parseInt2 false fun h t _ o => .or h t o⟩,
   ⟨0x020, blockForms, parseInt2 false fun h t _ o => .xor h t o⟩,
   ⟨0x024, blockForms, parseInt2 false fun h t _ o => .shl h t o⟩,
   ⟨0x028, blockForms, parseInt2 false fun h t _ o => .shr h t o⟩,
   ⟨0x02C, blockForms, parseInt2 false fun h t _ o => .sar h t o⟩,
   ⟨0x030, blockForms, parseInt2 false fun h t _ o => .rot h t o⟩,
   ⟨0x034, blockForms, parseIcmp⟩,
   ⟨0x040, unaryForms, parseInt1 .ineg⟩, ⟨0x044, unaryForms, parseInt1 .iabs⟩, ⟨0x048, unaryForms, parseInt1 .not⟩,
   ⟨0x04C, unaryForms, parseInt1 .popc⟩, ⟨0x050, unaryForms, parseInt1 .clz⟩, ⟨0x054, unaryForms, parseInt1 .brev⟩,
   ⟨0x058, unaryForms, parseInt1 .mov⟩, ⟨0x05C, unaryForms, parseInt1 .cvti⟩,
   ⟨0x060, pair128, parseImad⟩, ⟨0x062, pair128, parseBfi⟩, ⟨0x064, pair128, parseIsel⟩,
   ⟨0x066, pair96, parseBfx⟩, ⟨0x068, pair96, parseLea⟩, ⟨0x06A, pair96, parseMovi⟩]

def opRowsControl : List OpRow :=
  [⟨0x080, one64, parseBare .nop⟩, ⟨0x081, one96, parseBare .nopl⟩, ⟨0x082, one96, parseImm .bra⟩,
   ⟨0x083, one128, parseBrt⟩, ⟨0x084, one96, parseImm .meet⟩, ⟨0x085, one64, parseBare .exit⟩,
   ⟨0x086, one64, parseBare .yield⟩, ⟨0x087, one96, parseImm .trap⟩, ⟨0x088, one64, parseBare .bkpt⟩,
   ⟨0x090, [some 0, some 0, some 1], parseShfl⟩, ⟨0x094, one96, parseLred⟩, ⟨0x095, one64, parseVote⟩,
   ⟨0x096, one64, parseBallot⟩, ⟨0x097, one64, parsePset⟩]

def opRowsFloat : List OpRow :=
  [⟨0x100, blockForms, parseFloat2 .f32 .fadd⟩, ⟨0x104, blockForms, parseFloat2 .f16 .fadd⟩,
   ⟨0x108, blockForms, parseFloat2 .bf16 .fadd⟩,
   ⟨0x10C, blockForms, parseFloat2 .f32 .fsub⟩, ⟨0x110, blockForms, parseFloat2 .f16 .fsub⟩,
   ⟨0x114, blockForms, parseFloat2 .bf16 .fsub⟩,
   ⟨0x118, blockForms, parseFloat2 .f32 .fmul⟩, ⟨0x11C, blockForms, parseFloat2 .f16 .fmul⟩,
   ⟨0x120, blockForms, parseFloat2 .bf16 .fmul⟩,
   ⟨0x124, blockForms, parseFminmax .f32 .fmin⟩, ⟨0x128, blockForms, parseFminmax .f16 .fmin⟩,
   ⟨0x12C, blockForms, parseFminmax .bf16 .fmin⟩,
   ⟨0x130, blockForms, parseFminmax .f32 .fmax⟩, ⟨0x134, blockForms, parseFminmax .f16 .fmax⟩,
   ⟨0x138, blockForms, parseFminmax .bf16 .fmax⟩,
   ⟨0x13C, blockForms, parseFcmp .f32⟩, ⟨0x140, blockForms, parseFcmp .f16⟩, ⟨0x144, blockForms, parseFcmp .bf16⟩,
   ⟨0x148, unaryForms, parseFun .f32 .frcp⟩, ⟨0x14C, unaryForms, parseFun .f16 .frcp⟩,
   ⟨0x150, unaryForms, parseFun .bf16 .frcp⟩,
   ⟨0x154, unaryForms, parseFun .f32 .frsq⟩, ⟨0x158, unaryForms, parseFun .f16 .frsq⟩,
   ⟨0x15C, unaryForms, parseFun .bf16 .frsq⟩,
   ⟨0x160, unaryForms, parseFunR .f32 .fsqrt⟩, ⟨0x164, unaryForms, parseFunR .f16 .fsqrt⟩,
   ⟨0x168, unaryForms, parseFunR .bf16 .fsqrt⟩,
   ⟨0x16C, unaryForms, parseFun .f32 .fexp2⟩, ⟨0x170, unaryForms, parseFun .f16 .fexp2⟩,
   ⟨0x174, unaryForms, parseFun .bf16 .fexp2⟩,
   ⟨0x178, unaryForms, parseFun .f32 .flog2⟩, ⟨0x17C, unaryForms, parseFun .f16 .flog2⟩,
   ⟨0x180, unaryForms, parseFun .bf16 .flog2⟩,
   ⟨0x184, unaryForms, parseFun .f32 .fsin⟩, ⟨0x188, unaryForms, parseFun .f16 .fsin⟩,
   ⟨0x18C, unaryForms, parseFun .bf16 .fsin⟩,
   ⟨0x190, unaryForms, parseFun .f32 .fcos⟩, ⟨0x194, unaryForms, parseFun .f16 .fcos⟩,
   ⟨0x198, unaryForms, parseFun .bf16 .fcos⟩,
   ⟨0x19C, unaryForms, parseFunR .f32 .frnd⟩, ⟨0x1A0, unaryForms, parseFunR .f16 .frnd⟩,
   ⟨0x1A4, unaryForms, parseFunR .bf16 .frnd⟩,
   ⟨0x1A8, pair128, parseFfma .f32⟩, ⟨0x1AA, pair128, parseFfma .f16⟩, ⟨0x1AC, pair128, parseFfma .bf16⟩,
   ⟨0x1AE, pair128, parseFsel⟩, ⟨0x1B0, pair128, parseCvtf⟩, ⟨0x1B2, pair128, parseCvtfi⟩,
   ⟨0x1B4, pair128, parseCvtif⟩, ⟨0x1B6, one128, parseNpack⟩, ⟨0x1B7, one128, parseNunpk⟩]

def opRowsPhasor : List OpRow :=
  [⟨0x1C0, blockForms, parsePmul .p8⟩, ⟨0x1C4, blockForms, parsePmul .p16⟩, ⟨0x1C8, blockForms, parsePmul .p32⟩,
   ⟨0x1CC, blockForms, parsePpow .p8⟩, ⟨0x1D0, blockForms, parsePpow .p16⟩, ⟨0x1D4, blockForms, parsePpow .p32⟩,
   ⟨0x1D8, blockForms, parsePcmp .p8⟩, ⟨0x1DC, blockForms, parsePcmp .p16⟩, ⟨0x1E0, blockForms, parsePcmp .p32⟩,
   ⟨0x1E4, one64, parsePconj⟩, ⟨0x1E5, one64, parsePdef⟩, ⟨0x1E6, one64, parsePcvt⟩, ⟨0x1E7, one64, parsePred⟩,
   ⟨0x1E8, one96, parsePhaF .ptof⟩, ⟨0x1E9, one96, parsePhaF .pcos⟩, ⟨0x1EA, one96, parsePhaF .psin⟩,
   ⟨0x1EB, one96, parsePhaF .pvec⟩, ⟨0x1EC, one96, parsePfromf⟩, ⟨0x1ED, one96, parsePatan⟩]

def opRowsMem : List OpRow :=
  [⟨0x200, pair96, parseLd⟩, ⟨0x202, one96, parseSt⟩, ⟨0x204, one128, parseLdb⟩, ⟨0x205, one128, parseStb⟩,
   ⟨0x208, one128, parseAtom⟩, ⟨0x209, one128, parseWaitv⟩, ⟨0x210, one64, parseLevel .commit⟩,
   ⟨0x211, one64, parseCommitX⟩, ⟨0x212, one64, parseLevel .abort⟩, ⟨0x213, one64, parseLevel .acq⟩,
   ⟨0x238, one64, parseFence⟩, ⟨0x239, one64, parseBare .icinv⟩,
   ⟨0x280, one128, parseCpy⟩, ⟨0x281, one128, parseCpytLd⟩, ⟨0x282, one128, parseCpytSt⟩, ⟨0x283, one128, parseCpyr⟩,
   ⟨0x288, one128, parseTagList .twany⟩, ⟨0x289, one128, parseTagList .twall⟩, ⟨0x28A, one128, parseTfirst⟩,
   ⟨0x28B, one128, parseTagList .tclr⟩,
   ⟨0x2C0, one128, parseSymD .barv⟩, ⟨0x2C1, one128, parseSym .bard⟩, ⟨0x2C2, one128, parseSym .barw⟩,
   ⟨0x2C3, one128, parseSymA .bars⟩,
   ⟨0x2C8, one128, parseSymA .qpush⟩, ⟨0x2C9, one128, parseSymD .qpop⟩, ⟨0x2CA, one128, parseSymD .qtry⟩,
   ⟨0x2CB, one128, parseQgrant⟩, ⟨0x2D0, one96, parseEpush⟩, ⟨0x2D1, one96, parseEpop⟩]

def opRowsMatrix : List OpRow :=
  [⟨0x300, one128, parseSym .sign⟩, ⟨0x304, one128, parseMma⟩, ⟨0x305, one128, parsePmma⟩,
   ⟨0x308, one128, parseAcca⟩, ⟨0x309, one128, parseAccn .accf⟩, ⟨0x30A, one128, parseAccn .accz⟩,
   ⟨0x30B, one128, parseAccr⟩, ⟨0x30C, one128, parseAccw⟩, ⟨0x310, one128, parseDrain⟩, ⟨0x311, one128, parsePdrain⟩,
   ⟨0x318, one128, parseSymA .tdef⟩, ⟨0x319, one128, parseTqry⟩, ⟨0x380, one64, parseSrr⟩, ⟨0x381, one64, parseSrw⟩,
   ⟨0x384, one96, parseXrd⟩, ⟨0x385, one96, parseXwr⟩, ⟨0x388, one64, parseRtt⟩]

/-- The rows of one quarter of the opcode space. -/
def opRows (op : Nat) : List OpRow :=
  if op < 0x080 then opRowsInt
  else if op < 0x100 then opRowsControl
  else if op < 0x1C0 then opRowsFloat
  else if op < 0x200 then opRowsPhasor
  else if op < 0x300 then opRowsMem
  else opRowsMatrix

/-- The row of an opcode, with the number of the form within it. -/
def findRow (op : Nat) : List OpRow → Option (OpRow × Nat)
  | [] => none
  | e :: es => if e.lo ≤ op && op < e.lo + e.forms.length then some (e, op - e.lo) else findRow op es

/-- The legal length and the parser of an opcode; none where R191 lists none (R192). -/
def opEntry (op : Nat) : Option (BitVec 2 × (Raw → Parse)) :=
  match findRow op (opRows op) with
  | none => none
  | some (e, k) =>
    match e.forms.getD k none with
    | none => none
    | some l => some (l, e.parse k)

/-- Decode from the fields, after LENCODE and XBOUND (R193). -/
def decodeRaw (r : Raw) : Except DecodeCause Instr :=
  match opEntry r.op.toNat with
  | none => .error .unassigned
  | some (l, parse) =>
    if l != r.len then .error .wronglen
    else
      let p := parse r
      if p.res then .error .resbit
      else match p.ins with
        | none => .error .badmod
        | some i => if r.hdr.gp == 7 && r.hdr.gn then .error .badguard else .ok i

/-- Decode the instruction in the low bytes of a 16-byte word, with `room` bytes left in its 32-byte unit: the checks of R193
that need no state, in its order. Bytes past the instruction are not read. -/
def decodeAt (room w : Nat) : Except DecodeCause Instr :=
  let l := field w 0 2
  if l == 3 then .error .lencode
  else if room < lenBytes l then .error .xbound
  else decodeRaw (unpack w)

/-! The encoder. -/

def hdrRaw (l : BitVec 2) (op : Nat) (h : Hdr) : Raw :=
  { len := l, op := BitVec.ofNat 10 op, hdr := h, dst := 0, sa := 0, sb := 0, mod := 0, sc := 0, sym := 0, mod16 := 0, imm := 0 }

def encOps2 (base : Nat) (h : Hdr) (m : BitVec 4) : Ops2 → Raw
  | .v d a b => { hdrRaw 0 base h with dst := d, sa := a, sb := b, mod := m }
  | .s d a b => { hdrRaw 0 (base + 1) h with dst := d, sa := a, sb := up8 b, mod := m }
  | .i d a i => { hdrRaw 1 (base + 2) h with dst := d, sa := a, mod := m, imm := i }
  | .us d a b => { hdrRaw 1 (base + 3) h with dst := up8 d, sa := up8 a, sb := up8 b, mod := m }
  | .ui d a i => { hdrRaw 1 (base + 3) h with dst := up8 d, sa := up8 a, sb := 0x800, mod := m, imm := i }

def encOpsC (base : Nat) (h : Hdr) (m : BitVec 4) (dst : BitVec 12) : OpsC → Raw
  | .v a b => { hdrRaw 0 base h with dst := dst, sa := a, sb := b, mod := m }
  | .s a b => { hdrRaw 0 (base + 1) h with dst := dst, sa := a, sb := up8 b, mod := m }
  | .i a i => { hdrRaw 1 (base + 2) h with dst := dst, sa := a, mod := m, imm := i }
  | .us a b => { hdrRaw 1 (base + 3) h with dst := dst, sa := up8 a, sb := up8 b, mod := m }
  | .ui a i => { hdrRaw 1 (base + 3) h with dst := dst, sa := up8 a, sb := 0x800, mod := m, imm := i }

def encOps1 (base : Nat) (h : Hdr) (m : BitVec 4) : Ops1 → Raw
  | .v d a => { hdrRaw 0 base h with dst := d, sa := a, mod := m }
  | .s d a => { hdrRaw 0 (base + 1) h with dst := d, sa := up8 a, mod := m }
  | .u d a => { hdrRaw 1 (base + 3) h with dst := up8 d, sa := up8 a, mod := m }

def VS.field : VS → BitVec 12
  | .v n => n
  | .s n => up8 n

def VS.isS (a : VS) : Bool := !a.isV

/-- MOD16 of a three-source pair: kind bits, the middle bits and the modifier bits. -/
def mk16 (a b c i : Bool) (mid : BitVec 8) (lo : BitVec 4) : BitVec 16 :=
  BitVec.ofBool a ++ (BitVec.ofBool b ++ (BitVec.ofBool c ++ (BitVec.ofBool i ++ (mid ++ lo))))

def encOps3 (base : Nat) (h : Hdr) (m : BitVec 4) : Ops3 → Raw
  | .vec d a b (.v c) => { hdrRaw 2 base h with
      dst := d, sa := a.field, sb := b.field, sc := c,
      mod16 := mk16 a.isS b.isS false false 0 m }
  | .vec d a b (.s c) => { hdrRaw 2 base h with
      dst := d, sa := a.field, sb := b.field, sc := up8 c,
      mod16 := mk16 a.isS b.isS true false 0 m }
  | .vec d a b (.i c) => { hdrRaw 2 base h with
      dst := d, sa := a.field, sb := b.field, imm := c,
      mod16 := mk16 a.isS b.isS false true 0 m }
  | .uni d a b (.s c) => { hdrRaw 2 (base + 1) h with
      dst := up8 d, sa := up8 a, sb := up8 b, sc := up8 c,
      mod16 := mk16 false false false false 0 m }
  | .uni d a b (.i c) => { hdrRaw 2 (base + 1) h with
      dst := up8 d, sa := up8 a, sb := up8 b, imm := c,
      mod16 := mk16 false false false true 0 m }

def encOpsSel (base : Nat) (h : Hdr) (m : BitVec 4) (p : BitVec 12) : OpsSel → Raw
  | .vec d a b => { hdrRaw 2 base h with
      dst := d, sa := a.field, sb := b.field, sc := p,
      mod16 := mk16 a.isS b.isS false false 0 m }
  | .uni d a b => { hdrRaw 2 (base + 1) h with
      dst := up8 d, sa := up8 a, sb := up8 b, sc := p,
      mod16 := mk16 false false false false 0 m }

def encOpsCv (base : Nat) (h : Hdr) (mid : BitVec 8) (m : BitVec 4) : OpsCv → Raw
  | .vec d a => { hdrRaw 2 base h with dst := d, sa := a.field, mod16 := mk16 a.isS false false false mid m }
  | .uni d a => { hdrRaw 2 (base + 1) h with dst := up8 d, sa := up8 a, mod16 := mk16 false false false false mid m }

/-- MOD of an integer instruction. -/
def imod (t : ITy) (sat : Bool) : BitVec 4 := BitVec.ofBool sat ++ t.code

/-- MOD of a float instruction. -/
def fmod (m : Rm) (fz x2 : Bool) : BitVec 4 := BitVec.ofBool x2 ++ (BitVec.ofBool fz ++ m.code)

/-- The opcode of a type's block, three types in a row. -/
def FTy.at (f : FTy) (base step : Nat) : Nat := base + step * f.code.toNat
def PTy.at (p : PTy) (base : Nat) : Nat := base + 4 * p.code.toNat

def encShfl (h : Hdr) (m : BitVec 4) (d a : BitVec 12) : VSI → Raw
  | .v b => { hdrRaw 0 0x090 h with dst := d, sa := a, sb := b, mod := m }
  | .s b => { hdrRaw 0 0x091 h with dst := d, sa := a, sb := up8 b, mod := m }
  | .i i => { hdrRaw 1 0x092 h with dst := d, sa := a, mod := m, imm := i }

def Off.kind : Off → BitVec 2
  | .none => 0
  | .v _ => 1
  | .s _ => 2

def Off.field : Off → BitVec 12
  | .none => 0
  | .v n => n
  | .s n => up8 n

/-- IMM32 of an address (R243). -/
def addrImm (bv : Bool) (off sh : BitVec 2) (disp : BitVec 24) : BitVec 32 :=
  disp ++ (BitVec.ofBool bv ++ (off ++ (sh ++ (0 : BitVec 3))))

def scaleField : Option (BitVec 8) → BitVec 12
  | some s => up8 s
  | none => 0

/-- MOD16 of NPACK and NUNPK. -/
def scale16 (s : Option (BitVec 8)) (m : BitVec 4) : BitVec 16 := (0 : BitVec 11) ++ (BitVec.ofBool s.isSome ++ m)

/-- IMM32 of the phasor-float instructions (R241). -/
def phaImm (p : PTy) (f : FTy) : BitVec 32 := (0 : BitVec 26) ++ (f.code ++ ((0 : BitVec 2) ++ p.code))

def encPhaF (op : Nat) (h : Hdr) (m : Rm) (fz : Bool) (f : FTy) (p : PTy) (d a : BitVec 12) : Raw :=
  { hdrRaw 1 op h with dst := d, sa := a, mod := fmod m fz false, imm := phaImm p f }

/-- MOD16 of LDB and STB. -/
def ldb16 (off : VS) (q : Bool) (t : ETy) : BitVec 16 :=
  BitVec.ofBool off.isS ++ ((0 : BitVec 10) ++ (BitVec.ofBool q ++ t.code))

/-- MOD16 of ATOM and WAITV. -/
def atom16 (a b c i : Bool) (op : BitVec 4) (l : Level) (t : ETy) : BitVec 16 :=
  mk16 a b c i (op ++ ((0 : BitVec 1) ++ l.code)) t.code

def optField : Option VS → BitVec 12
  | some a => a.field
  | none => 0

def optS : Option VS → Bool
  | some a => a.isS
  | none => false

def levelMod (l : Level) : BitVec 4 := (0 : BitVec 1) ++ l.code

def encLen (n : SI) (lo : BitVec 4) (r : Raw) : Raw :=
  match n with
  | .s b => { r with sb := up8 b, mod16 := mk16 false false false false 0 lo }
  | .i i => { r with imm := i, mod16 := mk16 false false false true 0 lo }

def encSegRef16 (b : SegRef16) (tag : BitVec 8) (lv : BitVec 3) (r : Raw) : Raw :=
  match b.seg with
  | .imm seg => { r with imm := seg ++ (tag ++ b.sym), mod16 := mk16 false false false false 0 (BitVec.ofBool b.queue ++ lv) }
  | .scl n => { r with
      sb := up8 n, imm := (0 : BitVec 16) ++ (tag ++ b.sym),
      mod16 := mk16 false true false false 0 (BitVec.ofBool b.queue ++ lv) }

def encTags (op : Nat) (h : Hdr) (l : TagList) : Raw :=
  { hdrRaw 2 op h with sym := (0 : BitVec 5) ++ l.n1, mod16 := l.slots.extractLsb' 32 16, imm := l.slots.extractLsb' 0 32 }

def encMat (op : Nat) (h : Hdr) (m : BitVec 4) (o : MatOps) : Raw :=
  { hdrRaw 2 op h with
      dst := (0 : BitVec 2) ++ o.bank, sa := up8 o.a.sym, sb := up8 o.b.sym, sc := up8 o.k, sym := o.acc,
      mod16 := mk16 o.a.queue o.b.queue o.a.scl o.b.scl 0 m,
      imm := o.b.seg ++ (o.a.seg ++ (o.hB ++ o.hA)) }

/-- IMM32 of the accumulator instructions (R276). -/
def accImm (b : BitVec 10) (cnt grp : BitVec 4) : BitVec 32 := (0 : BitVec 8) ++ (grp ++ (cnt ++ ((0 : BitVec 6) ++ b)))

/-- IMM32 of the drains (R278). -/
def drainImm (seg acc : BitVec 8) (b : BitVec 10) : BitVec 32 := seg ++ (acc ++ ((0 : BitVec 6) ++ b))

def DrainDst.field : DrainDst → BitVec 12
  | .mem _ so => up8 so
  | .sc sym _ _ => up8 sym

def DrainDst.isQ : DrainDst → Bool
  | .mem .. => false
  | .sc _ q _ => q

def DrainDst.lv : DrainDst → BitVec 3
  | .mem l _ => l.code
  | .sc .. => 0

def DrainDst.segf : DrainDst → BitVec 8
  | .mem .. => 0
  | .sc _ _ seg => seg

/-- MOD16 of the drains. -/
def drain16 (d : DrainDst) (la : BitVec 3) (amx : Bool) (lo : BitVec 4) : BitVec 16 :=
  (0 : BitVec 4) ++ (BitVec.ofBool d.isQ ++ (la ++ (BitVec.ofBool amx ++ (d.lv ++ lo))))

def encX (op : Nat) (h : Hdr) (sp : XSpace) (n : XNum) : Raw :=
  match n with
  | .imm i => { hdrRaw 1 op h with mod := (0 : BitVec 2) ++ sp.code, imm := (0 : BitVec 20) ++ i }
  | .scl s => { hdrRaw 1 op h with mod := (0 : BitVec 1) ++ ((1 : BitVec 1) ++ sp.code), sa := up8 s }

/-- The fields of an instruction; none for an event, which has no words. -/
def toRaw : Instr → Option Raw
  | .iadd h t s o => some (encOps2 0x000 h (imod t s) o)
  | .isub h t s o => some (encOps2 0x004 h (imod t s) o)
  | .imul h t o => some (encOps2 0x008 h (imod t false) o)
  | .imulh h t o => some (encOps2 0x00C h (imod t false) o)
  | .imin h t o => some (encOps2 0x010 h (imod t false) o)
  | .imax h t o => some (encOps2 0x014 h (imod t false) o)
  | .and h t o => some (encOps2 0x018 h (imod t false) o)
  | .or h t o => some (encOps2 0x01C h (imod t false) o)
  | .xor h t o => some (encOps2 0x020 h (imod t false) o)
  | .shl h t o => some (encOps2 0x024 h (imod t false) o)
  | .shr h t o => some (encOps2 0x028 h (imod t false) o)
  | .sar h t o => some (encOps2 0x02C h (imod t false) o)
  | .rot h t o => some (encOps2 0x030 h (imod t false) o)
  | .icmp h cc t pd o => some (encOpsC 0x034 h (imod t false) (upCond cc.code pd) o)
  | .ineg h t o => some (encOps1 0x040 h (imod t false) o)
  | .iabs h t o => some (encOps1 0x044 h (imod t false) o)
  | .not h t o => some (encOps1 0x048 h (imod t false) o)
  | .popc h t o => some (encOps1 0x04C h (imod t false) o)
  | .clz h t o => some (encOps1 0x050 h (imod t false) o)
  | .brev h t o => some (encOps1 0x054 h (imod t false) o)
  | .mov h t o => some (encOps1 0x058 h (imod t false) o)
  | .cvti h t o => some (encOps1 0x05C h (imod t false) o)
  | .imad h t s o => some (encOps3 0x060 h (imod t s) o)
  | .bfi h t o => some (encOps3 0x062 h (imod t false) o)
  | .isel h t n p o => some (encOpsSel 0x064 h (imod t false) (upPred n p) o)
  | .bfx h t (.v d a) pos len =>
      some { hdrRaw 1 0x066 h with dst := d, sa := a, mod := imod t false, imm := (0 : BitVec 16) ++ (len ++ pos) }
  | .bfx h t (.u d a) pos len =>
      some { hdrRaw 1 0x067 h with dst := up8 d, sa := up8 a, mod := imod t false, imm := (0 : BitVec 16) ++ (len ++ pos) }
  | .lea h t (.vec d b x) sh disp =>
      some { hdrRaw 1 0x068 h with
      dst := d, sa := b.field, sb := x, mod := imod t b.isV,
      imm := disp ++ ((0 : BitVec 5) ++ sh) }
  | .lea h t (.uni d b x) sh disp =>
      some { hdrRaw 1 0x069 h with
      dst := up8 d, sa := up8 b, sb := up8 x, mod := imod t false,
      imm := disp ++ ((0 : BitVec 5) ++ sh) }
  | .movi h t (.v d) imm => some { hdrRaw 1 0x06A h with dst := d, mod := imod t false, imm := imm }
  | .movi h t (.s d) imm => some { hdrRaw 1 0x06B h with dst := up8 d, mod := imod t false, imm := imm }
  | .nop h => some (hdrRaw 0 0x080 h)
  | .nopl h => some (hdrRaw 1 0x081 h)
  | .bra h d => some { hdrRaw 1 0x082 h with imm := d }
  | .brt h i n d => some { hdrRaw 2 0x083 h with
      sa := i.field, imm := d, mod16 := BitVec.ofBool i.isS ++ ((0 : BitVec 3) ++ n) }
  | .meet h d => some { hdrRaw 1 0x084 h with imm := d }
  | .exit h => some (hdrRaw 0 0x085 h)
  | .yield h => some (hdrRaw 0 0x086 h)
  | .trap h i => some { hdrRaw 1 0x087 h with imm := i }
  | .bkpt h => some (hdrRaw 0 0x088 h)
  | .shfl h m d a b => some (encShfl h m.code d a b)
  | .lred h op t m d a => some { hdrRaw 1 0x094 h with
      dst := d, sa := a, mod := op.code, imm := (0 : BitVec 26) ++ (m.code ++ t.code) }
  | .vote h m pd n ps => some { hdrRaw 0 0x095 h with dst := up3 pd, sa := upPred n ps, mod := m.code }
  | .ballot h d n ps => some { hdrRaw 0 0x096 h with dst := up8 d, sa := upPred n ps }
  | .pset h op pd na pa nb pb => some { hdrRaw 0 0x097 h with
      dst := up3 pd, sa := upPred na pa, sb := upPred nb pb, mod := op.code }
  | .fadd h f m z x o => some (encOps2 (f.at 0x100 4) h (fmod m z x) o)
  | .fsub h f m z x o => some (encOps2 (f.at 0x10C 4) h (fmod m z x) o)
  | .fmul h f m z x o => some (encOps2 (f.at 0x118 4) h (fmod m z x) o)
  | .ffma h f m z x o => some (encOps3 (f.at 0x1A8 2) h (fmod m z x) o)
  | .fmin h f x o => some (encOps2 (f.at 0x124 4) h (fmod .rn false x) o)
  | .fmax h f x o => some (encOps2 (f.at 0x130 4) h (fmod .rn false x) o)
  | .fcmp h cc f pd o => some (encOpsC (f.at 0x13C 4) h 0 (upCond cc.code pd) o)
  | .fsel h f n p o => some (encOpsSel 0x1AE h ((0 : BitVec 2) ++ f.code) (upPred n p) o)
  | .frcp h f z x o => some (encOps1 (f.at 0x148 4) h (fmod .rn z x) o)
  | .frsq h f z x o => some (encOps1 (f.at 0x154 4) h (fmod .rn z x) o)
  | .fsqrt h f m z x o => some (encOps1 (f.at 0x160 4) h (fmod m z x) o)
  | .fexp2 h f z x o => some (encOps1 (f.at 0x16C 4) h (fmod .rn z x) o)
  | .flog2 h f z x o => some (encOps1 (f.at 0x178 4) h (fmod .rn z x) o)
  | .fsin h f z x o => some (encOps1 (f.at 0x184 4) h (fmod .rn z x) o)
  | .fcos h f z x o => some (encOps1 (f.at 0x190 4) h (fmod .rn z x) o)
  | .frnd h f m z x o => some (encOps1 (f.at 0x19C 4) h (fmod m z x) o)
  | .cvtf h fd fs m z o => some (encOpsCv 0x1B0 h ((0 : BitVec 4) ++ (fd.code ++ fs.code)) (fmod m z false) o)
  | .cvtfi h t fs m o =>
      some (encOpsCv 0x1B2 h ((0 : BitVec 1) ++ (t.code ++ ((0 : BitVec 2) ++ fs.code))) (fmod m false false) o)
  | .cvtif h fd t m o =>
      some (encOpsCv 0x1B4 h ((0 : BitVec 1) ++ (t.code ++ (fd.code ++ (0 : BitVec 2)))) (fmod m false false) o)
  | .npack h m z d a hn pos s => some { hdrRaw 2 0x1B6 h with
      dst := d, sa := a, sb := scaleField s, sym := hn, mod16 := scale16 s (fmod m z false), imm := (0 : BitVec 27) ++ pos }
  | .nunpk h d a hn pos s => some { hdrRaw 2 0x1B7 h with
      dst := d, sa := a, sb := scaleField s, sym := hn, mod16 := scale16 s 0, imm := (0 : BitVec 27) ++ pos }
  | .pmul h p x o => some (encOps2 (p.at 0x1C0) h (fmod .rn false x) o)
  | .ppow h p x o => some (encOps2 (p.at 0x1CC) h (fmod .rn false x) o)
  | .pcmp h p cc pd o => some (encOpsC (p.at 0x1D8) h 0 (upCond cc.code pd) o)
  | .pconj h p x d a => some { hdrRaw 0 0x1E4 h with dst := d, sa := a, mod := BitVec.ofBool x ++ ((0 : BitVec 1) ++ p.code) }
  | .pdef h p pd a => some { hdrRaw 0 0x1E5 h with dst := up3 pd, sa := a, mod := (0 : BitVec 2) ++ p.code }
  | .pcvt h pm pn d a => some { hdrRaw 0 0x1E6 h with dst := d, sa := a, mod := pn.code ++ pm.code }
  | .pred h p d a => some { hdrRaw 0 0x1E7 h with dst := d, sa := a, mod := (0 : BitVec 2) ++ p.code }
  | .ptof h m z f p d a => some (encPhaF 0x1E8 h m z f p d a)
  | .pcos h m z f p d a => some (encPhaF 0x1E9 h m z f p d a)
  | .psin h m z f p d a => some (encPhaF 0x1EA h m z f p d a)
  | .pvec h m z f p d a => some (encPhaF 0x1EB h m z f p d a)
  | .pfromf h p f d a => some { hdrRaw 1 0x1EC h with dst := d, sa := a, imm := phaImm p f }
  | .patan h p f d y x => some { hdrRaw 1 0x1ED h with dst := d, sa := y, sb := x, imm := phaImm p f }
  | .ld h t (.vec d a) => some { hdrRaw 1 0x200 h with
      dst := d, sa := a.base.field, sb := a.off.field, mod := t.code, imm := addrImm a.base.isV a.off.kind a.sh a.disp }
  | .ld h t (.uni d b none sh disp) => some { hdrRaw 1 0x201 h with
      dst := up8 d, sa := up8 b, mod := t.code, imm := addrImm false 0 sh disp }
  | .ld h t (.uni d b (some n) sh disp) => some { hdrRaw 1 0x201 h with
      dst := up8 d, sa := up8 b, sb := up8 n, mod := t.code, imm := addrImm false 2 sh disp }
  | .st h t a v => some { hdrRaw 1 0x202 h with
      dst := a.base.field, sa := v, sb := a.off.field, mod := t.code, imm := addrImm a.base.isV a.off.kind a.sh a.disp }
  | .ldb h t d off q sym disp => some { hdrRaw 2 0x204 h with
      dst := d, sa := off.field, sym := sym, mod16 := ldb16 off q t, imm := disp }
  | .stb h t off q sym disp v => some { hdrRaw 2 0x205 h with
      sa := off.field, sb := v, sym := sym, mod16 := ldb16 off q t, imm := disp }
  | .atom h op l t d a b c disp => some { hdrRaw 2 0x208 h with
      dst := d, sa := a.field, sb := b.field, sc := optField c, imm := disp,
      mod16 := atom16 a.isS b.isS (optS c) false op.code l t }
  | .waitv h ne l t d a (.reg b disp) => some { hdrRaw 2 0x209 h with
      dst := d, sa := a.field, sb := b.field, imm := disp,
      mod16 := atom16 a.isS b.isS false false ((0 : BitVec 3) ++ BitVec.ofBool ne) l (.int t) }
  | .waitv h ne l t d a (.imm i) => some { hdrRaw 2 0x209 h with
      dst := d, sa := a.field, imm := i,
      mod16 := atom16 a.isS false false true ((0 : BitVec 3) ++ BitVec.ofBool ne) l (.int t) }
  | .commit h l => some { hdrRaw 0 0x210 h with mod := levelMod l }
  | .commitX h l d => some { hdrRaw 0 0x211 h with dst := up8 d, mod := levelMod l }
  | .abort h l => some { hdrRaw 0 0x212 h with mod := levelMod l }
  | .acq h l => some { hdrRaw 0 0x213 h with mod := levelMod l }
  | .fence h src dst => some { hdrRaw 0 0x238 h with dst := (0 : BitVec 4) ++ (dst ++ src) }
  | .icinv h => some (hdrRaw 0 0x239 h)
  | .cpy h l d s n tag => some (encLen n (levelMod l) { hdrRaw 2 0x280 h with dst := up8 d, sa := up8 s, sym := tag })
  | .cpytLd h b hn so tag => some (encSegRef16 b tag 0 { hdrRaw 2 0x281 h with sa := up8 so, sym := hn })
  | .cpytSt h l b hn so tag => some (encSegRef16 b tag l.code { hdrRaw 2 0x282 h with sa := up8 so, sym := hn })
  | .cpyr h d s n tag => some (encLen n 0 { hdrRaw 2 0x283 h with dst := up8 d, sa := up8 s, sym := tag })
  | .twany h l => some (encTags 0x288 h l)
  | .twall h l => some (encTags 0x289 h l)
  | .tfirst h d l => some { encTags 0x28A h l with dst := up8 d }
  | .tclr h l => some (encTags 0x28B h l)
  | .barv h d sym => some { hdrRaw 2 0x2C0 h with dst := up8 d, sym := sym }
  | .bard h sym => some { hdrRaw 2 0x2C1 h with sym := sym }
  | .barw h sym => some { hdrRaw 2 0x2C2 h with sym := sym }
  | .bars h sym a => some { hdrRaw 2 0x2C3 h with sa := up8 a, sym := sym }
  | .qpush h sym a => some { hdrRaw 2 0x2C8 h with sa := up8 a, sym := sym }
  | .qpop h d sym => some { hdrRaw 2 0x2C9 h with dst := up8 d, sym := sym }
  | .qtry h d sym => some { hdrRaw 2 0x2CA h with dst := up8 d, sym := sym }
  | .qgrant h sym n => some { hdrRaw 2 0x2CB h with sym := sym, imm := (0 : BitVec 27) ++ n }
  | .epush h d a b disp => some { hdrRaw 1 0x2D0 h with dst := up8 d, sa := up8 a, sb := up8 b, imm := disp }
  | .epop h d a disp => some { hdrRaw 1 0x2D1 h with dst := up8 d, sa := up8 a, imm := disp }
  | .sign h k => some { hdrRaw 2 0x300 h with sym := k }
  | .mma h w2 o => some (encMat 0x304 h ((0 : BitVec 3) ++ BitVec.ofBool w2) o)
  | .pmma h qn conj o => some (encMat 0x305 h ((0 : BitVec 1) ++ (BitVec.ofBool conj ++ qn)) o)
  | .acca h sym b cnt grp => some { hdrRaw 2 0x308 h with sym := sym, imm := accImm b cnt grp }
  | .accf h sym b cnt => some { hdrRaw 2 0x309 h with sym := sym, imm := accImm b cnt 0 }
  | .accz h sym b cnt => some { hdrRaw 2 0x30A h with sym := sym, imm := accImm b cnt 0 }
  | .accr h d sym b sw => some { hdrRaw 2 0x30B h with dst := d, sa := up8 sw, sym := sym, imm := accImm b 0 0 }
  | .accw h sym b sw a => some { hdrRaw 2 0x30C h with sa := up8 sw, sb := a, sym := sym, imm := accImm b 0 0 }
  | .drain h d w2 m z amx hn acc b tag => some { hdrRaw 2 0x310 h with
      dst := d.field, sa := scaleField (amx.map (·.2)), sc := up8 tag, sym := hn, imm := drainImm d.segf acc b,
      mod16 := drain16 d (match amx with | some (la, _) => la.code | none => 0) amx.isSome (fmod m z w2) }
  | .pdrain h d sn hn acc b tag => some { hdrRaw 2 0x311 h with
      dst := d.field, sb := up8 sn, sc := up8 tag, sym := hn, imm := drainImm d.segf acc b, mod16 := drain16 d 0 false 0 }
  | .tdef h hn a => some { hdrRaw 2 0x318 h with sa := up8 a, sym := hn }
  | .tqry h d hn i => some { hdrRaw 2 0x319 h with dst := up8 d, sym := hn, imm := (0 : BitVec 28) ++ i }
  | .srr h d sr => some { hdrRaw 0 0x380 h with dst := d.field, sa := up8 sr, mod := (0 : BitVec 3) ++ BitVec.ofBool d.isS }
  | .srw h sr b => some { hdrRaw 0 0x381 h with sa := up8 sr, sb := up8 b }
  | .xrd h sp d n => some { encX 0x384 h sp n with dst := d }
  | .xwr h sp n b => some { encX 0x385 h sp n with sb := b }
  | .rtt h a => some { hdrRaw 0 0x388 h with sa := up8 a }
  | .rttBr h a => some { hdrRaw 0 0x388 h with sa := up8 a, mod := 1 }
  | _ => none

/-- The words of an instruction as one number, the first byte lowest; none for an event. -/
def encodeWord (i : Instr) : Option Nat := (toRaw i).map pack

/-- n bytes of a number, the lowest first. -/
def leBytes : Nat → Nat → List Byte
  | 0, _ => []
  | n + 1, w => BitVec.ofNat 8 w :: leBytes n (w / 256)

/-- The number that bytes give, the first lowest. -/
def leNat : List Byte → Nat
  | [] => 0
  | b :: bs => b.toNat + 256 * leNat bs

/-- The bytes of an instruction in ascending order: 8, 12 or 16 of them; none for an event. -/
def encode (i : Instr) : List Byte :=
  match toRaw i with
  | none => []
  | some r => leBytes (lenBytes r.len) (pack r)

/-- Decode from the bytes at a PC, `room` bytes before the end of its 32-byte unit; missing bytes read as zero (R192). -/
def decode (room : Nat) (bs : List Byte) : Except DecodeCause Instr := decodeAt room (leNat (bs.take 16))

/-- The decoder on a word numbered as spec/opcode_table.json numbers it: the bits above nbits are zero. -/
def decodeTableWord (nbits w : Nat) : Option Instr :=
  match decode 32 (leBytes 16 (w % 2 ^ nbits)) with
  | .ok i => some i
  | .error _ => none

end Sys2Proof
end

