-- ==== Sys2Proof/Config.lean ====
section
/-!
DEFINITION. What is fixed for the C96 part (spec/00_scope.md R1, R2), and the values the manual leaves to the device: each
of the latter is an opaque constant, so nothing can be proved of its value.
-/

namespace Sys2Proof.Config

/-- The wave width W of the C96 (spec/00 R2: 128; software reads it from sr.width). -/
def W : Nat := 128

/-- Clusters of the package (R1). -/
def clusters : Nat := 24

/-- Cores of a cluster (R1). -/
def coresPerCluster : Nat := 12

/-- Cores of the package (R2). -/
def cores : Nat := 288

/-- The value an unwritten register lane reads as (spec/04 R94). -/
def marker : Word := 0x7FA00DEC

/-- What a byte of memory that nothing has written reads as. DESIGN CHOICE, unsafe: log 2. -/
def unlistedByte : Byte := 0

/-- FREE VALUES (log 4): w bits that the manual leaves open, drawn by a counter of State. -/
opaque freeBits (w : Nat) : Nat → BitVec w

/-- A free natural number, for a duration the manual leaves open (log 4, log 8). -/
opaque freeNat : Nat → Nat

/-- Whether the device delivers the upper of the two neighbours of an inexact function value (spec/05 R111): a function of
the function's number and of its input only, so that every core returns the same result (log 16). -/
opaque ulpUp : Nat → Nat → Bool

/-- The hash of a line's home slice (spec/02 R41): of ASID, region identifier and virtual line. -/
opaque homeHash : Nat → Nat → Nat

/-- The hash of a physical line's home (spec/01 R25). -/
opaque physHomeHash : Nat → Nat

/-- The set of its home slice that a line falls into (spec/02 R40: 4,096 sets; the index is the device's), of a tag's two numbers. -/
opaque sliceSet : Nat → Nat → Nat

/-- The set of a core's L1 that a line falls into (R47: 8 ways; the index is the device's). -/
opaque l1Set : Nat → Nat → Nat

/-- The set of the register cache that a line falls into (spec/04 R92: 768 sets; the index is the device's), of the numbers that name
it. -/
opaque regSet : List Nat → Nat

/-- The hash of generation g, for a unit of 256 bytes (spec/01 R14: the device's): the first number chooses a channel of the region's
set, the second a place among the banks behind it. -/
opaque bankHash : Nat → Nat → Nat × Nat

/-- Which bank of a column fails as its n-th (R15): the channel it lies behind, of the column's four, and its place there. -/
opaque failingBank : Nat → Nat → Nat × Nat

/-- The i-th of the twenty bank positions, of a layer's 128, that lie over the matrix engines and hold no bank (spec/01 R9). -/
opaque viaPosition : Nat → Nat

/-- Whether a ring or buffer pointer of a driver names host memory (spec/18 R327: rings live in host memory or in the
tenant's device memory; the manual does not say how a pointer tells them apart, log 21). -/
opaque ringInHost : DWord → Bool

/-- The set of the column cache that a line falls into (spec/02 R43: 1,048,576 sets; the index is the device's). -/
opaque columnSet : Nat → Nat → Nat

/-- Which of the tenant's engines of the cluster serves a copy's tag symbol (spec/03 R57). -/
opaque engineOfTag : Nat → Nat

/-- Whether the Ed25519 and the ML-DSA-65 signature of a firmware image both verify under the vendor keys (spec/18 R343):
the keys are the boot ROM's and not in the manual (log 18). -/
opaque firmwareSigned : List Byte → Bool

/-- The security version an image carries; its place in the image is not in the manual (R343, log 18). -/
opaque firmwareVersion : List Byte → Nat

/-- The fused minimum security version (R343). -/
opaque fusedMinimum : Nat

/-- The part and the stepping that the identity record names (spec/18 R326: not in the manual). -/
opaque part : BitVec 16

opaque stepping : BitVec 16

/-- The bytes of an attestation report over nonce, firmware, partition state and IDE state (R344): the layout and the
device's keys are not in the manual (log 18). -/
opaque attestReport : List Byte → List Byte → List Nat → List Nat → List Byte

/-- Where SHARE and PARTITION find their bitmaps and caps in words 2 to 7 of a queue entry, as one list of numbers: the
manual gives no layout for operands wider than the words (spec/18 R328, R329, log 14). -/
opaque wideOperands : List DWord → Option (List Nat)

/-- The channel set that firmware chooses for a region among the channels of a tenant (spec/01 R13). -/
opaque firmwareSet : Nat → BitVec 96 → BitVec 96

/-- The index by which peers know this device (spec/18 R336). -/
opaque deviceIndex : BitVec 8

/-- The index of the device that a Pleip port is cabled to, as training learns it (spec/21 R351). -/
opaque farEnd : Nat → BitVec 8

/-- The ordinal that a region of the sending device has in a record stream (spec/18 R342: frames are relocated by region ordinal; the
records' layout is not in the manual, log 19). -/
opaque sourceOrdinal : List Byte → Nat → Nat

/-- How many regions the sending tenant had (R342, log 19). -/
opaque sourceRegions : List Byte → Nat

/-- The context number that a descriptor record stands for (R342, log 19). -/
opaque recordContext : List Byte → Nat

/-- Where the sender's memory held the descriptor of a descriptor record (R342, log 19). -/
opaque recordPlace : List Byte → Nat

/-- The table pages of a page-table record: address and contents of each (R342, log 19). -/
opaque recordTables : List Byte → List (Nat × List Byte)

/-- Numbers that a queue-state, block or share record holds (R342, log 19). -/
opaque recordNumbers : Nat → List Byte → List Nat

end Sys2Proof.Config
end

