-- ==== Sys2Proof/Machine/State.lean ====
section
/-!
DEFINITION. The state of a whole Crijor C96 package as plain data: waves and their registers, blocks and the symbols the Dealer
binds, cores, memory and caches, contexts, tenants, queues, links, and the list of what moves next. Every field cites the
rule of spec/ that names it; INVENTORY.md lists widths and reset values.
-/

namespace Sys2Proof.Machine

/-- Why a run stops. -/
inductive Fault where
  /-- Raised by every instruction of the ISA when no group is selected to issue it (`State.sel` is none): no agent of the
  machine executes it then. Safe: `step` always selects a group first. -/
  | noIssuingGroup
  deriving DecidableEq, Repr

/-- Why an instruction has no meaning. -/
inductive Refusal where
  /-- Raised by an arm of `exec` whose instruction has no meaning yet. Safe: nothing is said about it. -/
  | notModelled (mnemonic : String)
  deriving DecidableEq, Repr

/-! ### Registers -/

/-- One virtual register: the word of each lane, none where the lane is unwritten (spec/04 R90, R94). A lane past the end
of the list is unwritten. -/
abbrev Row := List (Option Word)

/-- The registers a group issues with: the wave's own, or a handler window's (R90, R310). -/
structure RegCtx where
  nv : Nat
  vregs : List Row
  scalars : List DWord
  preds : List Mask
  fstat : BitVec 6
  deriving DecidableEq, Repr

/-- The kind of a register in a hazard (spec/17 R306). -/
inductive RegKind where
  | v | s | p
  deriving DecidableEq, Repr

/-- A fixed-latency result that later instructions of its threads may reach too early (spec/11 R187 to R189): the register,
the lanes it was written in, the separation still owed, the writer's PC and the values before it. -/
structure Pending where
  kind : RegKind
  num : Nat
  lanes : Mask
  left : Nat
  ipc : DWord
  oldRow : Row
  oldBits : Mask
  deriving DecidableEq, Repr

/-- A group: threads of one wave that share a PC and issue together (spec/12 R209). `last` is the stamp of its last issue
(spec/16 R296). -/
structure Group where
  lanes : Mask
  pc : DWord
  last : Nat
  deriving DecidableEq, Repr

/-! ### Buffers (spec/08) -/

/-- Who holds a line's memory (spec/01 R23). -/
inductive Owner where
  | loc | host | peer (p : Nat)
  deriving DecidableEq, Repr

/-- A 64-byte line of a wave, block or gang buffer: the line's number (pointer div 64, region identifier included), the valid
mask, the bytes, the wave whose shadow log holds it (none: it stands in its buffer's own place), whether it stands in a gang
save range, and the wave that created it (rank and wave; R141, R155). -/
structure BufLine where
  line : Nat
  mask : ByteMask
  data : LineData
  log : Option (Nat × Nat)
  saved : Bool
  maker : Nat × Nat
  /-- Double words of an L1 line with a double-bit error (R54). -/
  bad : BitVec 8 := 0
  /-- Bytes of it come from a poisoned source (spec/03 R73): it is consumed as poison, and published it poisons its line. -/
  poison : Bool := false
  /-- Which line of the shadow log it takes, where one holds it (spec/04 R91). -/
  slot : Nat := 0
  deriving DecidableEq, Repr

/-- A clean line of an L1 or an instruction cache (spec/02 R47, spec/09 R170), with the place it is a copy of, by which the synonym
detector finds it (spec/01 R31), and the check value that travels with it (R38). -/
structure CoreLine where
  tenant : Nat
  asid : Nat
  line : Nat
  data : LineData
  owner : Owner := .loc
  addr : Nat := 0
  check : BitVec 32 := 0
  /-- Double words with a double-bit error (R54). -/
  bad : BitVec 8 := 0
  deriving DecidableEq, Repr

/-! ### Traps (spec/17) -/

/-- What a trap reports (R306, R315). -/
structure TrapInfo where
  cls : Nat
  cause : Nat
  info : DWord
  lane : Nat
  lanes : Mask
  vreg : Nat
  symKind : Nat
  sym : Nat
  offset : DWord
  paddr : DWord
  punit : Nat
  deriving DecidableEq, Repr

/-- A trap raised and not yet taken up: what it reports, the group's PC, its lanes and the 16 bytes at the PC (R308). -/
structure TrapRec where
  info : TrapInfo
  pc : DWord
  inst : Nat
  mask : Mask
  deriving DecidableEq, Repr

/-- A handler's frame: the trap it took and what it interrupted (R308, R310, R311). Results on their way complete before the
handler starts (R310), so no pending one is kept. -/
structure Frame where
  trap : TrapRec
  regs : RegCtx
  groups : List Group
  held : Mask
  mr : List DWord
  window : Nat
  deriving DecidableEq, Repr

/-- Why a wave issues nothing (R297). `retry` waits, and `phase` waits (BARW, for its barrier's next phase), re-execute their
instruction when they are tried again. -/
inductive Wait where
  | retry
  | phase
  | barw (sym : Nat) (token : BitVec 16)
  /-- Between the polls of a WAITV; `asked` is a forwarded line that a poll waits for. -/
  | waitv (op : Instr) (inst : Nat) (grp : Nat) (prio : Nat) (last : List DWord) (asked : Option Nat)
  | forward (line : Nat) (atomic : Bool)
  /-- An atomic on a peer's line to which no port leads (spec/18 R339). -/
  | link (line : Nat)
  /-- A COMMIT.S or an atomic on a peer's lines that the peer has not acknowledged (spec/09 R161, R163). -/
  | acks
  | room
  | traps
  deriving DecidableEq, Repr

/-- A fence that later operations on its destination paths must wait for (spec/09 R164): path bits, the jobs whose writes must settle,
and the forwarded writes (entries of `State.unsettled`) that their owners must acknowledge. -/
structure PathFence where
  dst : BitVec 4
  jobs : List Nat
  writes : List Nat
  deriving DecidableEq, Repr

/-- A QGRANT that has issued and is not yet effective (spec/14 R265): its PC, bytes and operation, and the engine operations it waits
for. -/
structure Grant where
  pc : DWord
  ops : List Nat
  op : Instr
  inst : Nat
  deriving DecidableEq, Repr

/-- One wave of a block (spec/04 R88, R91, R95, R96; spec/08 R140, R146; spec/12 R209; spec/16 R295, R300). -/
structure Wave where
  present : Mask
  exited : Mask
  groups : List Group
  held : Mask
  mr : List DWord
  regs : RegCtx
  status : BitVec 64
  frame : Option Frame
  trap : Option TrapRec
  wait : Option Wait
  /-- The lanes of the group whose instruction waits. -/
  waiter : Mask
  pend : List Pending
  buf : List BufLine
  winB : Nat
  winG : Nat
  winD : Nat
  winS : Nat
  fences : List PathFence
  /-- Instruction lines that a PAGEINVAL dropped while the wave executed from them: it runs on from them (spec/01 R26). -/
  runOn : List CoreLine
  pipe : Nat
  stock : Bool
  entered : Nat
  yielded : Bool
  retired : Bool
  /-- The stamps of its last issue, and of the moment it last became ready (spec/16 R296, R297). -/
  issuedAt : Nat := 0
  readySince : Nat := 0
  /-- The pipe is to swap it (R297): it has executed YIELD (spec/12 R215), or missed in the register cache. -/
  swap : Bool := false
  grant : Option Grant := none
  deriving DecidableEq, Repr

/-! ### Symbols and their state (spec/04 R80 to R82) -/

/-- A symbol record (R81), with the queue's depth and the accumulator's waves per group (spec/10 R172, spec/07 R131) that the
directives give, and the place the translator fixes in the block's reservation (R85). -/
structure SymRec where
  kind : Nat
  num : Nat
  count : Nat
  first : Nat
  last : Nat
  plSwz : BitVec 4
  depth : Nat
  wavesPerGroup : Nat
  place : Nat
  deriving DecidableEq, Repr

/-- A liveness entry of a barrier site (R83). -/
structure SiteRec where
  index : Nat
  live : List Nat
  scratch : List (Nat × Nat × Nat)
  deriving DecidableEq, Repr

/-- A bound barrier (spec/14 R257). -/
structure BarState where
  sym : Nat
  unit : Nat
  p : BitVec 16
  e : Nat
  a : Nat
  q : Nat
  arrived : ThreadSet
  dropped : ThreadSet
  lastSite : Option Nat
  deriving DecidableEq, Repr

/-- A bound queue (R262). `pushes` tells of each entry the wave that pushed it and when (R265). -/
structure QueueState where
  sym : Nat
  unit : Nat
  ring : List DWord
  g : Nat
  pushes : List (Nat × Nat) := []
  deriving DecidableEq, Repr

/-- Where the flags of an engine operation go (spec/17 R310, spec/20 R349): into the kernel's sr.fstat, or, where its wave issued it in
its trap handler, into the handler's own, which is gone once the handler has returned. -/
inductive FlagsTo where
  | kernel | handler | nobody
  deriving DecidableEq, Repr

/-- A bound trick (spec/07 R128): the threads that have signed, and the operation of the last MMA or PMMA with the wave that signed
it, where its flags go, and the entries of its two handles as they stood then (spec/03 R59). -/
structure TrickState where
  sym : Nat
  unit : Nat
  signed : ThreadSet
  count : Nat
  op : Option (Nat × FlagsTo × Instr)
  entryA : List DWord := []
  entryB : List DWord := []
  deriving DecidableEq, Repr

/-- A bound tag (spec/03 R68). -/
structure TagState where
  sym : Nat
  unit : Nat
  ready : Bool
  count : Nat
  deriving DecidableEq, Repr

/-- One scratch segment: 1,024 bytes as a number, little-endian, and the tag (spec/02 R48, R49). -/
structure Segment where
  data : Nat
  tag : BitVec 4
  deriving DecidableEq, Repr

/-- One accumulator bank: allocation, owner group and 512 words (R54, spec/07 R131); a word past the end is zero. -/
structure Bank where
  alloc : Bool
  owner : Nat
  words : List Word
  deriving DecidableEq, Repr

/-- Where a block stands (spec/16, spec/17). -/
inductive BlockPlace where
  | resident
  /-- Off its core: swapped out, pre-empted, or waiting for a place (R304, R316, R87). -/
  | away
  | retired
  deriving DecidableEq, Repr

/-- One block (spec/04 R82, R88, R91; spec/16 R292; spec/17 R313 to R318). -/
structure Block where
  lid : Nat
  rank : Nat
  place : BlockPlace
  core : Nat
  waves : List Wave
  buf : List BufLine
  bars : List BarState
  queues : List QueueState
  tricks : List TrickState
  tags : List TagState
  bound : List (Nat × Nat)
  barsite : Nat
  deck : Nat
  deckSize : Nat
  segBase : Nat
  segCount : Nat
  bankBase : Nat
  bankCount : Nat
  /-- The slice has ended: a barrier stop is wanted (R303). -/
  stopWanted : Bool
  /-- A share move is wanted, and whether its window for a barrier stop is open (R355). -/
  moveWanted : Bool
  window : Bool
  /-- Stopped at a completed phase whose waits are not released (R303, R355). -/
  stopped : Bool
  stopSite : Nat
  /-- The barrier and the phase whose waits a soft stop has not released (R305). -/
  stopBar : Option (Nat × BitVec 16) := none
  /-- Swapped out on a fault that awaits FAULTRESUME (R316). -/
  faulted : Bool
  /-- Halted for the debugger (R318), and whether a BKPT halted it. -/
  halted : Bool
  atBkpt : Bool
  /-- The retirement commit is still to be made (R150). -/
  retiring : Bool
  /-- Held for a leave that waits: for its gang's save range (spec/08 R155), or for what its waves had issued (spec/04 R87). -/
  leaving : Bool := false
  deriving DecidableEq, Repr

/-- A gang: its buffer, the block ranks, its cluster and whether it stands in a save range (spec/08 R140, R155). -/
structure Gang where
  lid : Nat
  num : Nat
  buf : List BufLine
  cluster : Nat
  saveRange : Nat
  saveSize : Nat
  deriving DecidableEq, Repr

/-! ### Kernels, launches, contexts -/

/-- A kernel installed by the loader (spec/04 R76, R81, R83; log 15). -/
structure Kernel where
  entry : DWord
  index : Nat
  nv : Nat
  syms : List SymRec
  sites : List SiteRec
  /-- Byte offset from the entry of each scalar-level instruction, in index order (R78). -/
  offsets : List Nat
  usesCopy : Bool
  handles : List Nat
  demand : Caps
  deriving DecidableEq, Repr

/-- How far a launch has come. -/
inductive LaunchState where
  /-- Taken from the queue, not begun (held, or waiting for the boundary before it). -/
  | taken
  | running
  /-- All blocks retired and the kernel boundary made (R150). -/
  | boundary
  /-- Ended with an error (R314), waiting for its completion record. -/
  | ended (err : Nat)
  deriving DecidableEq, Repr

/-- A launch (spec/16 R290 to R294; spec/17 R320, R321). -/
structure Launch where
  lid : Nat
  src : CmdSrc
  hdr : LaunchHdr
  ctx : Nat
  state : LaunchState
  start : Nat
  nextUnit : Nat
  replay : Bool
  replays : Nat
  snap : Bool
  replayable : Bool
  shadowDir : Nat
  shadowBitmap : Nat
  /-- The first 4 KiB of the shadow map, and the further units it has grown by (spec/01 R36). -/
  shadowMap : Nat
  mapUnits : List Nat := []
  shadowCount : Nat
  /-- Forwarded lines asked of their owners before the launch's blocks start (spec/01 R27). -/
  asked : List Nat := []
  savedTable : Nat
  /-- The out-edge had too few free slots when FREE was read last (R301). -/
  held : Bool
  deriving DecidableEq, Repr

/-- A tensor-table entry: eight words (spec/03 R59). -/
abbrev TEntry := List DWord

/-- A context: its descriptor, loaded tensor table, share and turn state (spec/18 R331; spec/03 R59; spec/04 R84;
spec/16 R302; spec/17 R309). -/
structure Ctx where
  tenant : Nat
  num : Nat
  desc : List DWord
  descAt : Nat
  table : List TEntry
  hentry : DWord
  h1 : DWord
  cores : List Nat
  /-- The caps of each core of the share, in the order of `cores` (R84). -/
  caps : List Caps
  poolBase : Nat
  poolSize : Nat
  slice : Nat
  credit : Nat
  /-- Slices left in the burst under way (R302). -/
  burst : Nat := 0
  /-- The context has the turn, or had it last; its burst has ended (R302). -/
  turn : Bool
  spent : Bool
  /-- Ranges taken from the deck pool: base and size. -/
  pool : List (Nat × Nat)
  /-- Ranges taken from the shadow pool (spec/01 R36). -/
  shadow : List (Nat × Nat)
  /-- Pages whose migration hint has been posted (R29): region and page. -/
  hinted : List (Nat × Nat)
  /-- A SHARE that is still moving blocks (spec/23 R356). -/
  sharing : Option CmdSrc
  deriving DecidableEq, Repr

/-! ### Queues and tenants (spec/18) -/

/-- A command queue's registers (R327) and the entry it is carrying out (R362). -/
structure CmdQueue where
  qbase : DWord
  qctl : DWord
  qtail : DWord
  qhead : DWord
  cbase : DWord
  chead : DWord
  ctail : DWord
  busy : Bool
  deriving DecidableEq, Repr

/-- A fault or event ring (R332). -/
structure Ring where
  base : DWord
  log : Nat
  head : DWord
  tail : DWord
  enabled : Bool
  lost : Bool
  deriving DecidableEq, Repr

/-- A stream of a pre-copy (R341): number, next counter, the counters a receiver has seen, whether it has failed, and the records that
have arrived on it, by counter. -/
structure Stream where
  num : BitVec 32
  counter : Nat
  seen : List Nat
  failed : Bool
  records : List (Nat × List Byte)
  deriving DecidableEq, Repr

/-- A tenant and its function (R325 to R334). -/
structure Tenant where
  own : Resources
  queues : List CmdQueue
  faults : Ring
  events : Ring
  key : Option (BitVec 256)
  sent : List Stream
  received : List Stream
  dropped : Nat
  track : Option (Nat × Nat)
  /-- Frames whose next write sets its dirty bit though the line is dirty already (R34): dirty lines reported. -/
  round : Nat
  regions : List Nat
  resetting : Bool
  deriving DecidableEq, Repr

/-! ### The memory side (spec/01, spec/02) -/

/-- A translation: the physical or owner address of a page, its owner and permissions (R23). -/
structure Trans where
  addr : Nat
  owner : Owner
  rd : Bool
  w : Bool
  x : Bool
  deriving DecidableEq, Repr

/-- A TLB entry (R21, R24): address space, virtual page base, page size as a power of two, translation. -/
structure TlbEntry where
  tenant : Nat
  asid : Nat
  chan : Nat
  base : Nat
  log : Nat
  tr : Trans
  deriving DecidableEq, Repr

/-- A line held in L2 (R19, R41, R44): tag, the checks it has passed, where it lies, dirtiness, the column caches with a near
copy, whether it is poisoned (R39), and the bytes and check value of a forwarded line's copy. A local line's bytes are `State.mem`,
its check value `State.checkOf`. -/
structure L2Line where
  tenant : Nat
  asid : Nat
  line : Nat
  phys : Bool
  rd : Bool
  w : Bool
  x : Bool
  addr : Nat
  owner : Owner
  dirty : Bool
  reported : Bool
  sharers : BitVec 24
  data : LineData
  poisoned : Bool := false
  check : BitVec 32 := 0
  deriving DecidableEq, Repr

/-- An upper-level entry that the walkers keep (R25): the table that indexes the bits from `lo` on for addresses with one prefix. -/
structure WalkEntry where
  tenant : Nat
  asid : Nat
  lo : Nat
  base : Nat
  table : Nat
  deriving DecidableEq, Repr

/-- A deck line in a column cache (spec/02 R43): the cluster, the block whose deck it belongs to, the line's local physical address and
its bytes; a dirty one is written back to the deck's D location. -/
structure DeckLine where
  cluster : Nat
  lid : Nat
  rank : Nat
  tenant : Nat
  addr : Nat
  data : LineData
  dirty : Bool
  deriving DecidableEq, Repr

/-- One word of register SRAM (spec/04 R92): a resident register-cache line, of the deck or of a handler's window. -/
structure RcLine where
  lid : Nat
  rank : Nat
  wave : Nat
  window : Bool
  reg : Nat
  dirty : Bool
  used : Nat
  /-- Pairs of lanes whose double word has a double-bit error (R54). -/
  bad : BitVec 64 := 0
  deriving DecidableEq, Repr

/-- An operation in a core's engine queue (spec/07 R130): who issued it and what it does, with the operands read at issue: the
origin of a drain, its amax pointer or count (`arg`), the segments, the entries, its wave's pipe and where its flags go. -/
structure EngOp where
  id : Nat
  wave : WaveRef
  pc : DWord
  op : Instr
  origin : List DWord
  arg : DWord
  segA : Nat
  segB : Nat
  entryA : TEntry
  entryB : TEntry
  pipe : Nat := 0
  flagsTo : FlagsTo := .kernel
  deriving DecidableEq, Repr

/-- One core (spec/00 R1, R6; spec/02 R46 to R54; spec/07 R130). `split` is S; segments and banks past the list's end are
zero and untagged. -/
structure Core where
  split : Nat
  segs : List Segment
  banks : List Bank
  l1 : List CoreLine
  icache : List CoreLine
  engine : List EngOp
  regCache : List RcLine
  cycle : DWord
  /-- Words with a double-bit error (R54): scratch double words by number, accumulator words by number. -/
  badScratch : List Nat
  badAcc : List Nat
  deriving DecidableEq, Repr

/-- What a copy or a drain still has to do (spec/03 R65 to R75; spec/15 R279). Segments count from the symbol's first one; `cols`
is how many elements a drain writes of each row, `amx` its amax word with the level and the scalar that named it. -/
inductive JobKind where
  | linear (lvl : Level) (dst src : DWord) (len : Nat) (overlap : Bool) (remote : Bool) (dstSc srcSc : Nat)
  | tileLoad (sym : Nat) (queue : Bool) (seg : Nat) (entry : TEntry) (handle : Nat) (origin : List DWord)
  | tileStore (lvl : Level) (sym : Nat) (queue : Bool) (seg : Nat) (entry : TEntry) (handle : Nat) (origin : List DWord)
  | drain (lvl : Level) (entry : TEntry) (handle : Nat) (origin : List DWord) (cols : Nat) (flags : BitVec 6)
      (amx : Option (Level × DWord × Nat)) (amax : Nat)
  deriving DecidableEq, Repr

/-- A copy in flight, or a drain that is writing memory. `row` counts finished pieces of its destination; `stage` holds what it
has read already; `after` names the copies it follows (R58); `stop` is the fault that stopped it (R74), `told` whether its record is written;
`engine` is the copy engine that serves it (R57), `asked` the forwarded line it has asked its owner for (spec/01 R27), `srcLines` the
source lines it has read and still needs (R65), `port` the port through which a remote copy has begun to leave (spec/21 R350), and `flagsTo` where a drain's flags go: for any job it tells whether its wave issued it
in its trap handler. -/
structure Job where
  id : Nat
  wave : Option WaveRef
  cmd : Option CmdSrc
  ctx : Nat
  tenant : Nat
  pc : DWord
  core : Nat
  pipe : Nat
  tag : Nat
  kind : JobKind
  row : Nat
  stage : List Nat
  after : List Nat
  stop : Option TrapInfo
  told : Bool
  engine : Nat := 0
  asked : Option Nat := none
  srcLines : List (Nat × LineData × Bool) := []
  port : Option Nat := none
  flagsTo : FlagsTo := .kernel
  deriving DecidableEq, Repr

/-- A core write that has not settled for the other paths (spec/09 R163): bytes published at D (`loc` is the line's address at its
owner) or written by STB (`loc` counts 64-byte pieces of scratch over all cores), with the bytes before it, and
the paths whose next operation by this wave waits for it (R164). `unseen` holds the paths on which it may still be overtaken
(bit 0 core: other waves' LDB, bit 1 copy, bit 2 matrix, bit 3 link). A forwarded write settles with its owner's acknowledgement.
For an STB: the barriers on which its wave has arrived since, those of which such a phase has completed, and the waves that have
waited for one (R166). -/
structure Unsettled where
  id : Nat
  wave : WaveRef
  owner : Owner := .loc
  arrived : List Nat := []
  phased : List Nat := []
  seenBy : List Nat := []
  unseen : BitVec 4
  fenced : BitVec 4
  scratch : Bool
  loc : Nat
  mask : ByteMask
  old : LineData
  deriving DecidableEq, Repr

/-- A write at a level, for the windows of COMMIT.X (spec/08 R145, R146): when, at which level, in which address space, by
whom (none: an engine of no wave, an ingress or the host), at which line, at which local physical address where it is one of
this device's, and bytes. -/
structure WriteRec where
  stamp : Nat
  lvl : Level
  tenant : Nat
  asid : Nat
  lid : Option Nat
  block : Nat
  wave : Nat
  gang : Nat
  engine : Bool
  line : Nat
  phys : Option Nat
  mask : ByteMask
  deriving DecidableEq, Repr

/-! ### Links and the package -/

/-- A sent packet that is not yet acknowledged (spec/18 R337), with the copy that waits for it, the launch whose commit at S
it carries (spec/09 R168), the context and first virtual line of a write, by which PAGEINVAL sends it elsewhere (R339), the wave
whose COMMIT.S or atomic completes with it (spec/09 R161), and the unsettled write that its acknowledgement settles (R163). -/
structure SentPacket where
  packet : Packet
  job : Option Nat
  lid : Option Nat
  va : Option (Nat × Nat)
  wave : Option WaveRef := none
  settles : Option Nat := none
  deriving DecidableEq, Repr

/-- A packet that finds no port, or no room in the replay buffer of the port it is routed to (R339, spec/21 R350): its tenant and peer. -/
structure HeldPacket where
  tenant : Nat
  peer : Nat
  sent : SentPacket
  port : Option Nat := none
  deriving DecidableEq, Repr

/-- A Pleip port (spec/21 R351; R337). -/
structure Port where
  far : BitVec 8
  lanes : BitVec 16
  state : BitVec 4
  replays : BitVec 32
  retrains : BitVec 16
  nextSeq : BitVec 12
  acked : BitVec 12
  expected : BitVec 12
  nakSent : Bool
  ackDue : Bool
  buffer : List SentPacket
  deriving DecidableEq, Repr

/-- A physical region (spec/01 R13, R15). -/
structure Region where
  num : Nat
  inService : Bool
  channels : BitVec 96
  gen : BitVec 4
  cursor : Option Nat
  excluded : Option Nat
  deriving DecidableEq, Repr

/-- A column entry of the discovery table (R12), with the banks above 85 °C (spec/17 R324), as channel and bank. -/
structure Column where
  banks : Nat
  spare : Nat
  failed : Nat
  mainMib : Nat
  hot : List (Nat × Nat)
  deriving DecidableEq, Repr

/-- An island (spec/17 R323, R324; spec/18 R345). Step 0 is 1.9 GHz, step 7 is 0.95 GHz. -/
structure Island where
  step : Nat
  replays : BitVec 32
  throttled : Bool
  deriving DecidableEq, Repr

/-- The package function and what belongs to no tenant (spec/01 R11; spec/02 R56; R325, R326, R343, R345). -/
structure Package where
  queue : CmdQueue
  events : Ring
  regionsInService : Nat
  columns : List Column
  regions : List Region
  islands : List Island
  scrubCluster : BitVec 24
  scrubSlice : BitVec 96
  firmware : List Byte
  ideKeys : List (Nat × BitVec 256)
  deriving DecidableEq, Repr

/-- What has left the package: interrupts, packets, messages, and data returned to the host (R168, R336, R341). -/
inductive OutEvent where
  | msix (fn vector : Nat)
  | packet (port : Nat) (p : Packet)
  | message (port : Nat) (peer : DWord) (m : UeMessage)
  | hostData (tenant : Nat) (bytes : List Byte) (poisoned : Bool)
  | hostWrite (addr : Nat) (mask : ByteMask) (d : LineData) (poisoned : Bool)
  /-- The exchange that ends a port's training: the last sequence number its receiver has accepted (spec/21 R353). -/
  | trainExchange (port : Nat) (accepted : BitVec 12)
  /-- What a register of a function's BAR0 reads as (spec/00 R5, R326). -/
  | registerValue (fn off : Nat) (value : DWord)
  deriving DecidableEq, Repr

/-! ### What moves next (log 1) -/

/-- One entry of the agenda: a group issues its next instruction, or an event or command takes place. -/
inductive Move where
  | issue (w : WaveRef) (grp : Nat)
  | event (i : Instr)
  /-- The command processor completes a queue entry that is no command with BADCMD (R329). -/
  | reject (c : CmdSrc) (opc : Nat)
  /-- The host reads 64 bits of a function's BAR0 (spec/00 R5, R326). -/
  | read (fn off : Nat)
  deriving DecidableEq, Repr

/-- The group that issues, and the bytes its instruction was decoded from. -/
structure Sel where
  ref : WaveRef
  grp : Nat
  inst : Nat
  deriving DecidableEq, Repr

/-- The whole machine. -/
structure State where
  agenda : List Move
  sel : Option Sel
  stamp : Nat
  fresh : Nat
  pkg : Package
  tenants : List Tenant
  ctxs : List Ctx
  kernels : List Kernel
  launches : List Launch
  blocks : List Block
  gangs : List Gang
  cores : List Core
  mem : List Host.Cell
  hostMem : List Host.Cell
  peerMem : List Host.Cell
  /-- Physical line numbers of the local lines that DRAM holds poisoned (spec/01 R39), and poisoned lines of other owners as this
  device knows them. -/
  poison : List Nat
  farPoison : List (Owner × Nat)
  /-- Check values held beside local lines (R37) that are not those of the lines' bytes; a line not listed holds its bytes' one. -/
  checks : List (Nat × BitVec 32)
  l2 : List L2Line
  deckLines : List DeckLine
  tlb : List TlbEntry
  walkCache : List WalkEntry
  jobs : List Job
  unsettled : List Unsettled
  wlog : List WriteRec
  ports : List Port
  heldPackets : List HeldPacket
  out : List OutEvent
  deriving DecidableEq, Repr

/-! ### Reset -/

def CmdQueue.reset : CmdQueue :=
  { qbase := 0, qctl := 0, qtail := 0, qhead := 0, cbase := 0, chead := 0, ctail := 0, busy := false }

def Ring.reset : Ring := { base := 0, log := 0, head := 0, tail := 0, enabled := false, lost := false }

def Resources.none : Resources := { clusters := 0, slices := 0, channels := 0, engines := 0, ports := 0 }

def Tenant.reset : Tenant :=
  { own := Resources.none, queues := List.replicate 64 CmdQueue.reset, faults := Ring.reset, events := Ring.reset,
    key := none, sent := [], received := [], dropped := 0, track := none, round := 0, regions := [], resetting := false }

/-- A port after package reset (spec/21 R351). -/
def Port.reset : Port :=
  { far := 0xFF, lanes := 0, state := 0, replays := 0, retrains := 0, nextSeq := 0, acked := 0xFFF, expected := 0,
    nakSent := false, ackDue := false, buffer := [] }

/-- A core after package reset: no scratchpad split, nothing cached, the cycle counter at zero (spec/00 R6, spec/02 R55). -/
def Core.reset : Core :=
  { split := 0, segs := [], banks := [], l1 := [], icache := [], engine := [], regCache := [], cycle := 0,
    badScratch := [], badAcc := [] }

/-- A column of a part without failures (R12; log 6). -/
def Column.reset : Column := { banks := 864, spare := 0, failed := 0, mainMib := 12800, hot := [] }

def Island.reset : Island := { step := 0, replays := 0, throttled := false }

/-- The regions of a part without failures: 300, each with an empty channel set until firmware partitions the device
(spec/01 R12, R13; log 6). -/
def Region.resetList : List Region :=
  (List.range 300).map fun n =>
    { num := n, inService := true, channels := 0, gen := 0, cursor := none, excluded := none }

def Package.reset : Package :=
  { queue := CmdQueue.reset, events := Ring.reset, regionsInService := 300, columns := List.replicate 24 Column.reset,
    regions := Region.resetList, islands := List.replicate 24 Island.reset, scrubCluster := 0, scrubSlice := 0,
    firmware := [], ideKeys := [] }

/-- The machine right after package reset (spec/00 R5, R6; spec/01 R12; spec/21 R351): no context, launch or block exists,
memory lists nothing, and nothing is on the agenda. -/
def State.reset : State :=
  { agenda := [], sel := none, stamp := 0, fresh := 0, pkg := Package.reset, tenants := List.replicate 16 Tenant.reset,
    ctxs := [], kernels := [], launches := [], blocks := [], gangs := [], cores := List.replicate 288 Core.reset,
    mem := [], hostMem := [], peerMem := [], poison := [], farPoison := [], checks := [], l2 := [], deckLines := [], tlb := [],
    walkCache := [], jobs := [], unsettled := [], wlog := [],
    ports := List.replicate 8 Port.reset, heldPackets := [], out := [] }

end Sys2Proof.Machine
end

