-- ==== Sys2Proof/Machine/Access.lean ====
section
/-!
DEFINITION. Reading and replacing the parts of the state by name: lanes of rows, registers, waves, blocks, launches,
contexts, cores; pointer arithmetic (spec/01 R17) and free values (log 4).
-/

namespace Sys2Proof.Machine

/-! ### Lists by index -/

/-- Replace element n, padding with d where the list is shorter. -/
def setAt {α : Type} (d : α) : Nat → α → List α → List α
  | 0, x, [] => [x]
  | 0, x, _ :: ys => x :: ys
  | n + 1, x, [] => d :: setAt d n x []
  | n + 1, x, y :: ys => y :: setAt d n x ys

def minList : List Nat → Option Nat
  | [] => none
  | x :: xs => match minList xs with
    | none => some x
    | some y => some (min x y)

/-! ### Free values (log 4) -/

/-- w free bits, and the state with its counter advanced. -/
def State.draw (s : State) (w : Nat) : BitVec w × State := (Config.freeBits w s.fresh, { s with fresh := s.fresh + 1 })

def State.drawNat (s : State) : Nat × State := (Config.freeNat s.fresh, { s with fresh := s.fresh + 1 })

/-- A new stamp of the write order and of the issue order. -/
def State.tick (s : State) : State := { s with stamp := s.stamp + 1 }

/-! ### Pointers (R17) -/

/-- A pointer plus an offset: the address wraps mod 2^56, the region identifier stands. -/
def ptrAdd (p : DWord) (o : Int) : DWord :=
  p.extractLsb' 56 8 ++ BitVec.ofInt 56 (((p.toNat % 2 ^ 56 : Nat) : Int) + o)

/-- The line of a pointer, region identifier included. -/
def lineNo (p : DWord) : Nat := p.toNat / 64

/-- The byte of a pointer within its line. -/
def lineOff (p : DWord) : Nat := p.toNat % 64

/-- The pointer of a line. -/
def linePtr (n : Nat) : DWord := BitVec.ofNat 64 (64 * n)

def ridOf (line : Nat) : Nat := line / 2 ^ 50 % 256

/-- The line's number within its region's address space: address bits [55:6]. -/
def lineVa (line : Nat) : Nat := line % 2 ^ 50

/-! ### Lines -/

def byteOf (d : LineData) (i : Nat) : Byte := d.extractLsb' (8 * i) 8

def setByte (d : LineData) (i : Nat) (b : Byte) : LineData :=
  (d &&& ~~~((0xFF : LineData) <<< (8 * i))) ||| ((b.setWidth 512) <<< (8 * i))

/-- Bytes of one line laid over another under a byte mask. -/
def mergeLine (old new : LineData) (m : ByteMask) : LineData :=
  (List.range 64).foldl (fun d i => if m.getLsbD i then setByte d i (byteOf new i) else d) old

/-- How many bytes a mask names. -/
def popMask (m : ByteMask) : Nat := (List.range 64).foldl (fun n i => if m.getLsbD i then n + 1 else n) 0

/-! ### Lanes -/

/-- Lanes of a mask, ascending. -/
def lanesOf (m : Mask) : List Nat := (List.range 128).filter fun l => m.getLsbD l

def laneBit (l : Nat) : Mask := (1 : Mask) <<< l

/-- The mask of the lanes that satisfy p. -/
def maskOf (p : Nat → Bool) : Mask := (List.range 128).foldl (fun m l => if p l then m ||| laneBit l else m) 0

def lowestLane (m : Mask) : Nat := (lanesOf m).headD 0xFF

def laneCount (m : Mask) : Nat := (lanesOf m).length

/-- Lanes of a row in a mask replaced; the others stand. -/
def rowSet (m : Mask) (f : Nat → Option Word) (r : Row) : Row :=
  (List.range 128).map fun l => if m.getLsbD l then f l else r.getD l none

/-! ### Registers (spec/04 R90, R94) -/

def RegCtx.row (r : RegCtx) (n : Nat) : Row := r.vregs.getD n []

/-- A lane of a register with its tag: none is unwritten. -/
def RegCtx.lane (r : RegCtx) (n l : Nat) : Option Word := (r.row n).getD l none

/-- The value a lane reads as: an unwritten lane reads as the marker. -/
def RegCtx.word (r : RegCtx) (n l : Nat) : Word := (r.lane n l).getD Config.marker

/-- A pair: the low half in the even register. -/
def RegCtx.pair (r : RegCtx) (n l : Nat) : DWord := r.word (n + 1) l ++ r.word n l

def RegCtx.scalar (r : RegCtx) (n : Nat) : DWord := r.scalars.getD n 0

/-- p7 reads true in every lane. -/
def RegCtx.pred (r : RegCtx) (n : Nat) : Mask := if n = 7 then BitVec.allOnes 128 else r.preds.getD n 0

def RegCtx.setRow (r : RegCtx) (n : Nat) (m : Mask) (f : Nat → Option Word) : RegCtx :=
  { r with vregs := setAt [] n (rowSet m f (r.row n)) r.vregs }

def RegCtx.setPair (r : RegCtx) (n : Nat) (m : Mask) (f : Nat → Option Word × Option Word) : RegCtx :=
  (r.setRow n m fun l => (f l).1).setRow (n + 1) m fun l => (f l).2

def RegCtx.setScalar (r : RegCtx) (n : Nat) (x : DWord) : RegCtx :=
  if n < 256 then { r with scalars := setAt 0 n x r.scalars } else r

/-- Lanes of a predicate; a write to p7 is discarded. -/
def RegCtx.setPred (r : RegCtx) (n : Nat) (m : Mask) (v : Mask) : RegCtx :=
  if n < 7 then { r with preds := setAt 0 n ((r.pred n &&& ~~~m) ||| (v &&& m)) r.preds } else r

/-- Mark lanes of a register unwritten (R93). -/
def RegCtx.kill (r : RegCtx) (n : Nat) (m : Mask) : RegCtx := r.setRow n m fun _ => none

/-- The registers at wave start (R90): the argument block's 32 scalars, predicates false, every lane unwritten. -/
def RegCtx.fresh (nv : Nat) (args : List DWord) : RegCtx := { nv := nv, vregs := [], scalars := args, preds := [], fstat := 0 }

/-! ### Blocks, waves, launches, contexts, cores -/

def State.block? (s : State) (lid rank : Nat) : Option Block := s.blocks.find? fun b => b.lid == lid && b.rank == rank

def State.setBlock (s : State) (b : Block) : State :=
  { s with blocks := s.blocks.map fun x => if x.lid == b.lid && x.rank == b.rank then b else x }

def State.launch? (s : State) (lid : Nat) : Option Launch := s.launches.find? fun l => l.lid == lid

def State.setLaunch (s : State) (l : Launch) : State :=
  { s with launches := s.launches.map fun x => if x.lid == l.lid then l else x }

def State.ctx? (s : State) (t n : Nat) : Option Ctx := s.ctxs.find? fun c => c.tenant == t && c.num == n

def State.setCtx (s : State) (c : Ctx) : State :=
  { s with ctxs := s.ctxs.map fun x => if x.tenant == c.tenant && x.num == c.num then c else x }

def State.kernel? (s : State) (entry : DWord) : Option Kernel := s.kernels.find? fun k => k.entry == entry

def State.gang? (s : State) (lid num : Nat) : Option Gang := s.gangs.find? fun g => g.lid == lid && g.num == num

def State.setGang (s : State) (g : Gang) : State :=
  { s with gangs := s.gangs.map fun x => if x.lid == g.lid && x.num == g.num then g else x }

def State.core (s : State) (n : Nat) : Core := s.cores.getD n Core.reset

def State.setCore (s : State) (n : Nat) (c : Core) : State := { s with cores := s.cores.set n c }

def State.tenant (s : State) (t : Nat) : Tenant := s.tenants.getD t Tenant.reset

def State.setTenant (s : State) (t : Nat) (x : Tenant) : State := { s with tenants := s.tenants.set t x }

def State.port (s : State) (n : Nat) : Port := s.ports.getD n Port.reset

def State.setPort (s : State) (n : Nat) (p : Port) : State := { s with ports := s.ports.set n p }

def State.job? (s : State) (id : Nat) : Option Job := s.jobs.find? fun j => j.id == id

def State.setJob (s : State) (j : Job) : State := { s with jobs := s.jobs.map fun x => if x.id == j.id then j else x }

def State.emit (s : State) (e : OutEvent) : State := { s with out := s.out ++ [e] }

def Wave.default : Wave :=
  { present := 0, exited := 0, groups := [], held := 0, mr := [], regs := RegCtx.fresh 0 [], status := 0, frame := none,
    trap := none, wait := none, waiter := 0, pend := [], buf := [], winB := 0, winG := 0, winD := 0, winS := 0, fences := [],
    runOn := [], pipe := 0, stock := false, entered := 0, yielded := false, retired := false }

def Group.default : Group := { lanes := 0, pc := 0, last := 0 }

def Block.wave (b : Block) (n : Nat) : Wave := b.waves.getD n Wave.default

def Block.setWave (b : Block) (n : Nat) (w : Wave) : Block := { b with waves := b.waves.set n w }

/-- No meeting register (spec/12 R209). -/
def mrNone : DWord := BitVec.allOnes 64

def Wave.mrOf (w : Wave) (l : Nat) : DWord := w.mr.getD l mrNone

/-- Threads of the wave that have not exited. -/
def Wave.alive (w : Wave) : Mask := w.present &&& ~~~w.exited

end Sys2Proof.Machine

namespace Sys2Proof

/-! ### The launch header's fields (spec/16 R290) -/

def LaunchHdr.nv (h : LaunchHdr) : Nat := (h.w0.extractLsb' 36 12).toNat + 1
def LaunchHdr.fields (h : LaunchHdr) : Nat := (h.w0.extractLsb' 33 3).toNat
def LaunchHdr.blk (h : LaunchHdr) : Nat := (h.w0.extractLsb' 30 3).toNat
def LaunchHdr.gng (h : LaunchHdr) : Nat := (h.w0.extractLsb' 27 3).toNat
def LaunchHdr.snap (h : LaunchHdr) : Bool := h.w0.getLsbD 3
def LaunchHdr.scb (h : LaunchHdr) : Bool := h.w0.getLsbD 2
def LaunchHdr.unw (h : LaunchHdr) : Bool := h.w0.getLsbD 1
def LaunchHdr.hasGang (h : LaunchHdr) : Bool := h.gng != 0
def LaunchHdr.width (h : LaunchHdr) (i : Nat) : Nat := (h.w1.toNat / 2 ^ (7 * i)) % 128
def LaunchHdr.entry (h : LaunchHdr) : DWord := h.w3
def LaunchHdr.args (h : LaunchHdr) : DWord := h.w4
def LaunchHdr.outEdge (h : LaunchHdr) : DWord := h.w5
def LaunchHdr.grace (h : LaunchHdr) : Nat := (h.w6.extractLsb' 32 24).toNat
def LaunchHdr.need (h : LaunchHdr) : Nat := (h.w6.extractLsb' 0 24).toNat

/-- The lowest work-identifier bit of field i (R291). -/
def LaunchHdr.bitOf (h : LaunchHdr) (i : Nat) : Nat := (List.range i).foldl (fun o j => o + h.width j) 0

/-- The extent of field i. -/
def LaunchHdr.extent (h : LaunchHdr) (i : Nat) : Nat := (h.w2.toNat / 2 ^ h.bitOf i) % 2 ^ h.width i + 1

/-- The product of the extents of fields a to b − 1. -/
def LaunchHdr.prod (h : LaunchHdr) (a b : Nat) : Nat :=
  (List.range b).foldl (fun p i => if a ≤ i then p * h.extent i else p) 1

def LaunchHdr.threads (h : LaunchHdr) : Nat := h.prod 0 h.blk
def LaunchHdr.waveCount (h : LaunchHdr) : Nat := (h.threads + Config.W - 1) / Config.W
def LaunchHdr.blockCount (h : LaunchHdr) : Nat := h.prod h.blk h.fields
def LaunchHdr.gangSize (h : LaunchHdr) : Nat := if h.hasGang then h.prod h.blk h.gng else 1

/-- The work identifier of a mixed-radix rank over fields a to b − 1 (R292). -/
def LaunchHdr.unrank (h : LaunchHdr) (a b r : Nat) : Nat :=
  ((List.range b).foldl (fun (x : Nat × Nat) i =>
    if a ≤ i then (x.1 / h.extent i, x.2 + (x.1 % h.extent i) * 2 ^ h.bitOf i) else x) (r, 0)).2

/-- sr.wid of a thread: block rank and rank within the block (R292). -/
def LaunchHdr.wid (h : LaunchHdr) (block r : Nat) : DWord :=
  BitVec.ofNat 64 (h.unrank 0 h.blk r + h.unrank h.blk h.fields block)

/-- The gang of a block (R292). -/
def LaunchHdr.gangOf (h : LaunchHdr) (block : Nat) : Nat := block / h.gangSize

end Sys2Proof

namespace Sys2Proof.Machine

/-! ### The context descriptor (spec/18 R331) -/

def Ctx.word (c : Ctx) (i : Nat) : DWord := c.desc.getD i 0
def Ctx.asid (c : Ctx) : Nat := (c.word 0).toNat % 2 ^ 16
def Ctx.ptBase (c : Ctx) : Nat := (c.word 1).toNat
def Ctx.rbBase (c : Ctx) : Nat := (c.word 2).toNat
def Ctx.ttBase (c : Ctx) : Nat := (c.word 3).toNat
def Ctx.acBase (c : Ctx) : Nat := (c.word 4).toNat
def Ctx.acThr (c : Ctx) : Nat := (c.word 5).toNat % 2 ^ 16
def Ctx.shBase (c : Ctx) : Nat := (c.word 10).toNat
def Ctx.shSize (c : Ctx) : Nat := (c.word 11).toNat
def Ctx.hnv (c : Ctx) : Nat := c.h1.toNat % 2 ^ 12 + 1
def Ctx.hmask (c : Ctx) (cls : Nat) : Bool := c.h1.getLsbD (32 + cls)

def clusterOf (core : Nat) : Nat := core / 12

/-- sr.status bits (spec/04 R96). -/
def stUnalloc : DWord := 1
def stRebound : DWord := 2
def stResumed : DWord := 4
def stReplay : DWord := 8

end Sys2Proof.Machine
end

