-- ==== Sys2Proof/Machine/MemOps.lean ====
section
/-!
DEFINITION. The memory side: cells in canonical form, translation (spec/01 R17 to R31), fills and their checks, the levels
below the buffers (spec/02 R41 to R47), writes at D with their dirty bits, snapshots and poison (R33 to R39), and forwarded
lines (R27 to R29).
-/

namespace Sys2Proof.Machine

/-! ### Cells -/

/-- The byte at an address; an address that is not listed reads as `Config.unlistedByte` (log 2). -/
def memRead : List Host.Cell → Nat → Byte
  | [], _ => Config.unlistedByte
  | (x, y) :: m, a => if a = x then y else memRead m a

/-- Write one byte, keeping the canonical form: addresses strictly rising, and no entry equal to the unlisted byte. -/
def memWrite : List Host.Cell → Nat → Byte → List Host.Cell
  | [], a, b => if b = Config.unlistedByte then [] else [(a, b)]
  | (x, y) :: m, a, b =>
    if a < x then (if b = Config.unlistedByte then (x, y) :: m else (a, b) :: (x, y) :: m)
    else if a = x then (if b = Config.unlistedByte then m else (a, b) :: m)
    else (x, y) :: memWrite m a b

/-- Every address of m is above a. -/
def memAbove (a : Nat) : List Host.Cell → Bool
  | [] => true
  | (x, _) :: _ => decide (a < x)

/-- The canonical form of memory. -/
def memWf : List Host.Cell → Bool
  | [] => true
  | (x, y) :: m => (y != Config.unlistedByte) && memAbove x m && memWf m

/-- n bytes from an address, as a little-endian number (spec/00 R3). -/
def memNat (m : List Host.Cell) (a : Nat) : Nat → Nat
  | 0 => 0
  | n + 1 => (memRead m a).toNat + 256 * memNat m (a + 1) n

/-- n bytes of a number written from an address. -/
def memPut (m : List Host.Cell) (a v : Nat) : Nat → List Host.Cell
  | 0 => m
  | n + 1 => memPut (memWrite m a (BitVec.ofNat 8 v)) (a + 1) (v / 256) n

def memBytes (m : List Host.Cell) (a : Nat) : Nat → List Byte
  | 0 => []
  | n + 1 => memRead m a :: memBytes m (a + 1) n

def memPutBytes (m : List Host.Cell) (a : Nat) : List Byte → List Host.Cell
  | [] => m
  | b :: bs => memPutBytes (memWrite m a b) (a + 1) bs

def mem64 (m : List Host.Cell) (a : Nat) : DWord := BitVec.ofNat 64 (memNat m a 8)

def memLine (m : List Host.Cell) (a : Nat) : LineData := BitVec.ofNat 512 (memNat m a 64)

/-- Write the bytes of a line that a mask names. -/
def memPutLine (m : List Host.Cell) (a : Nat) (mask : ByteMask) (d : LineData) : List Host.Cell :=
  (List.range 64).foldl (fun m i => if mask.getLsbD i then memWrite m (a + i) (byteOf d i) else m) m

/-- A copy of n bytes within one memory. -/
def memCopy (m : List Host.Cell) (dst src : Nat) : Nat → List Host.Cell
  | 0 => m
  | n + 1 => memCopy (memWrite m dst (memRead m src)) (dst + 1) (src + 1) n

/-! ### Regions and ownership -/

/-- Whether a local physical address lies in a region in service (R13). DESIGN CHOICE (log 68): an address of a retired region counts
as beyond the regions, though a region of a higher number is in service. -/
def State.locOk (s : State) (addr : Nat) : Bool :=
  s.pkg.regions.any fun r => r.inService && r.num == addr / 2 ^ 30

/-- Entries of an ownership bitmap in ascending order. -/
def bitsOf {n : Nat} (b : BitVec n) : List Nat := (List.range n).filter fun i => b.getLsbD i

def State.clusterOwner (s : State) (c : Nat) : Option Nat := s.tenants.findIdx? fun t => t.own.clusters.getLsbD c

/-- The home slice of a line (spec/02 R41). -/
def State.home (s : State) (t asid line : Nat) : Nat :=
  let own := bitsOf (s.tenant t).own.slices
  own.getD (Config.homeHash asid line % own.length) 0

/-- The home slice of a physical line (spec/01 R25). -/
def State.physHome (s : State) (t addr : Nat) : Nat :=
  let own := bitsOf (s.tenant t).own.slices
  own.getD (Config.physHomeHash (addr / 64) % own.length) 0

/-- The TLB that serves a slice (R21): the channel of the same number where its owner owns it, else entry s mod n of the
owner's channels. -/
def State.tlbOf (s : State) (t slice : Nat) : Nat :=
  let ch := (s.tenant t).own.channels
  if ch.getLsbD slice then slice
  else
    let own := bitsOf ch
    own.getD (slice % own.length) 0

/-! ### Check values and poison (R37 to R39) -/

/-- One step of the reflected CRC-32C: a byte into the register. -/
def crcByte (r : BitVec 32) (b : Byte) : BitVec 32 :=
  (List.range 8).foldl (fun r _ => if r.getLsbD 0 then (r >>> 1) ^^^ 0x82F63B78 else r >>> 1) (r ^^^ b.setWidth 32)

/-- CRC-32C of bytes in ascending address order (R37). -/
def crc32c (bs : List Byte) : BitVec 32 := (bs.foldl crcByte 0xFFFFFFFF) ^^^ 0xFFFFFFFF

def lineBytes (d : LineData) : List Byte := (List.range 64).map (byteOf d)

/-- The check value of a line. -/
def lineCheck (d : LineData) : BitVec 32 := crc32c (lineBytes d)

/-- The check value held beside a local line (R37). -/
def State.checkOf (s : State) (addr : Nat) : BitVec 32 :=
  match s.checks.find? fun x => x.1 == addr / 64 with
  | some x => x.2
  | none => lineCheck (memLine s.mem (addr / 64 * 64))

/-- The check value held beside a local line is not that of its bytes. -/
def State.mismatch (s : State) (addr : Nat) : Bool :=
  match s.checks.find? fun x => x.1 == addr / 64 with
  | some x => x.2 != lineCheck (memLine s.mem (addr / 64 * 64))
  | none => false

/-- A line of L2 holds a local line. -/
def L2Line.holds (l : L2Line) (addr : Nat) : Bool := l.owner == .loc && l.addr == addr / 64 * 64

/-- A local line is poisoned at its D: in L2 where L2 holds it, else in DRAM (R39). -/
def State.poisoned (s : State) (addr : Nat) : Bool :=
  match s.l2.find? (·.holds addr) with
  | some l => l.poisoned
  | none => s.poison.contains (addr / 64)

/-- DRAM holds a local line poisoned, or does not. -/
def State.dramPoison (s : State) (addr : Nat) (on : Bool) : State :=
  if on then (if s.poison.contains (addr / 64) then s else { s with poison := addr / 64 :: s.poison })
  else { s with poison := s.poison.filter (· != addr / 64) }

def State.setPoison (s : State) (addr : Nat) (on : Bool) : State :=
  if s.l2.any (·.holds addr) then { s with l2 := s.l2.map fun l => if l.holds addr then { l with poisoned := on } else l }
  else s.dramPoison addr on

/-- A check value verified (R38): a mismatch poisons the line (R39). -/
def State.verify (s : State) (addr : Nat) : State := if s.mismatch addr then s.setPoison addr true else s

/-- Whether a line of a range is poisoned, or would be once its check value is verified. -/
def State.poisonIn (s : State) (a n : Nat) : Bool :=
  let marked := s.poison ++ (s.l2.filter fun l => l.owner == .loc && l.poisoned).map (·.addr / 64) ++ s.checks.map (·.1)
  n != 0 && marked.any fun x =>
    decide (a < 64 * x + 64) && decide (64 * x < a + n) && (s.poisoned (64 * x) || s.mismatch (64 * x))

/-- Bytes of a mask written into a local line at its D: the old contents are verified before a partial write merges into them, the line
receives a new check value (R38), and a write of the whole line clears its poison unless the new bytes come from a poisoned source
(R39, spec/03 R73). -/
def State.mergeMem (s : State) (addr : Nat) (mask : ByteMask) (d : LineData) (poison : Bool) : State :=
  let s := if mask == BitVec.allOnes 64 then s.setPoison addr poison
    else if poison then (s.verify addr).setPoison addr true else s.verify addr
  { s with mem := memPutLine s.mem addr mask d, checks := s.checks.filter fun x => x.1 != addr / 64 }

/-- Bytes written at their D: near copies of their lines go (spec/02 R44), lines written whole are poisoned no more, the others' old
contents are verified, and each line receives a new check value (R38, R39). -/
def State.putBytes (s : State) (addr : Nat) (bs : List Byte) : State :=
  let last := addr + bs.length
  let part (n : Nat) : Bool := decide (64 * n < addr) || decide (last < 64 * n + 64)
  let met (n : Nat) : Bool := decide (addr < 64 * n + 64) && decide (64 * n < last)
  let s := ([addr / 64, (last - 1) / 64].filter fun n => met n && part n).foldl (fun s n => s.verify (64 * n)) s
  { s with mem := memPutBytes s.mem addr bs,
           checks := s.checks.filter fun x => !met x.1,
           poison := s.poison.filter fun n => !(met n && !part n),
           l2 := s.l2.map fun l =>
             if l.owner == .loc && met (l.addr / 64) then { l with sharers := 0, poisoned := l.poisoned && part (l.addr / 64) } else l }

/-! ### Dirty bits (R33) -/

/-- The ordinal of a region among a tenant's regions, and the bit of a frame in its bitmap (R33). -/
def State.frameBit (s : State) (t addr : Nat) : Option Nat :=
  match (s.tenant t).regions.findIdx? (· == addr / 2 ^ 30) with
  | none => none
  | some n => some (n * 262144 + addr % 2 ^ 30 / 4096)

/-- The tenant whose region holds a local address. -/
def State.regionTenant (s : State) (addr : Nat) : Option Nat :=
  s.tenants.findIdx? fun t => t.regions.contains (addr / 2 ^ 30)

/-- Bit b of a bitmap at an address. -/
def bitmapGet (m : List Host.Cell) (at_ b : Nat) : Bool := (memRead m (at_ + b / 8)).getLsbD (b % 8)

/-- The byte that holds bit b of a bitmap, with the bit set. -/
def bitmapByte (m : List Host.Cell) (at_ b : Nat) : Byte := memRead m (at_ + b / 8) ||| ((1 : Byte) <<< (b % 8))

/-- Set the dirty bit of the frame of a local address in its tenant's bitmap (R33). -/
def State.markDirty (s : State) (addr : Nat) : State :=
  match s.regionTenant addr with
  | none => s
  | some t =>
    match (s.tenant t).track, s.frameBit t addr with
    | some (base, size), some b => if b / 8 < size then s.putBytes (base + b / 8) [bitmapByte s.mem base b] else s
    | _, _ => s

/-- Bytes that the device writes into local memory at D, without a permission check: they set dirty bits (R33). -/
def State.devPut (s : State) (addr : Nat) (bs : List Byte) : State :=
  let frames := (List.range (bs.length / 4096 + 2)).map fun i => addr / 4096 * 4096 + 4096 * i
  ((frames.filter fun f => decide (f < addr + bs.length)).foldl (fun s f => s.markDirty f) s).putBytes addr bs

/-! ### L2 (spec/02 R40, R41, R44) -/

/-- A set of a slice holds 24 lines in the slices that R40 names, else 20; with 4,096 sets of 64-byte lines they are 6 MiB or 5 MiB. -/
def sliceWays (n : Nat) : Nat := if n % 4 == 0 || (n % 4 == 1 && (n / 4 % 6 == 0 || n / 4 % 6 == 3)) then 24 else 20

def sliceBytes (n : Nat) : Nat := 4096 * 64 * sliceWays n

def L2Line.sameTag (a b : L2Line) : Bool := a.phys == b.phys && a.tenant == b.tenant && a.asid == b.asid && a.line == b.line

def L2Line.isLine (l : L2Line) (t asid line : Nat) : Bool := !l.phys && l.tenant == t && l.asid == asid && l.line == line

def State.l2? (s : State) (t asid line : Nat) : Option L2Line := s.l2.find? (·.isLine t asid line)

def State.setL2 (s : State) (l : L2Line) : State := { s with l2 := s.l2.map fun x => if x.sameTag l then l else x }

/-- The slice a line is held in, and its set there. -/
def State.sliceOf (s : State) (l : L2Line) : Nat := if l.phys then s.physHome l.tenant l.addr else s.home l.tenant l.asid l.line

def L2Line.set (l : L2Line) : Nat := (if l.phys then Config.sliceSet 65536 (l.addr / 64) else Config.sliceSet l.asid l.line) % 4096

/-- Lines leave L2, and their near copies with them (R44): a dirty one is written back, which sets its frame's bit (R33); its poison
then stands in DRAM. -/
def State.leaveL2 (s : State) (p : L2Line → Bool) : State :=
  let dirty := s.l2.filter fun l => p l && l.dirty && l.owner == .loc
  let s := dirty.foldl (fun s l => (s.markDirty l.addr).dramPoison l.addr l.poisoned) s
  { s with l2 := s.l2.filter fun l => !p l }

/-- Replacement at will (R47, log 9): a line of L2, chosen freely or none, leaves. -/
def State.evictL2 (s : State) : State :=
  let (n, s) := s.drawNat
  match s.l2[n]? with
  | some l => s.leaveL2 (·.sameTag l)
  | none => s

/-- Room for a line in its set (R40): where every way is taken, one of the lines there, chosen freely, leaves. -/
def State.l2Room (s : State) (new : L2Line) : State :=
  if s.l2.length < 20 then s
  else
    let set := s.l2.filter fun l => s.sliceOf l == s.sliceOf new && l.set == new.set
    if set.length < sliceWays (s.sliceOf new) then s
    else
      let (n, s) := s.drawNat
      match set[n % set.length]? with
      | some l => s.leaveL2 (·.sameTag l)
      | none => s

/-- A copy of the same physical line under another tag (R31). -/
def L2Line.aliasOf (l new : L2Line) : Bool := l.owner == new.owner && l.addr == new.addr && !l.sameTag new

def CoreLine.aliasOf (l : CoreLine) (new : L2Line) : Bool :=
  l.owner == new.owner && l.addr == new.addr && !(!new.phys && l.tenant == new.tenant && l.asid == new.asid && l.line == new.line)

/-- Drop the older alias of a physical line at every level before a fill under another tag completes (R31). -/
def State.dropAliases (s : State) (new : L2Line) : State :=
  let s := if s.l2.any (·.aliasOf new) then s.leaveL2 (·.aliasOf new) else s
  if s.cores.any fun c => c.l1.any (·.aliasOf new) || c.icache.any (·.aliasOf new) then
    { s with cores := s.cores.map fun c =>
        { c with l1 := c.l1.filter fun l => !l.aliasOf new, icache := c.icache.filter fun l => !l.aliasOf new } }
  else s

/-- A line of another owner is poisoned, as far as this device knows. -/
def State.farPoisoned (s : State) (o : Owner) (addr : Nat) : Bool := s.farPoison.contains (o, addr / 64)

def State.setFarPoison (s : State) (o : Owner) (addr : Nat) (on : Bool) : State :=
  { s with farPoison := if on then (o, addr / 64) :: s.farPoison else s.farPoison.filter (· != (o, addr / 64)) }

/-- A line enters L2: older aliases go, its set has room, and its check value is verified (R31, R40, R41). -/
def State.hold (s : State) (l : L2Line) : State × L2Line :=
  let s := (s.dropAliases l).l2Room l
  let (s, l) := match l.owner with
    | .loc => let s := s.verify l.addr; (s, { l with poisoned := s.poisoned l.addr })
    | o => (s, { l with poisoned := s.farPoisoned o l.addr, check := lineCheck l.data })
  ({ s with l2 := l :: s.l2 }, l)

/-- A local line as L2 holds it under a physical tag (R25): a table line, or one that the host or a link names. -/
def physLine (t addr : Nat) : L2Line :=
  { tenant := t, asid := 0, line := addr / 64, phys := true, rd := true, w := true, x := false, addr := addr / 64 * 64, owner := .loc,
    dirty := false, reported := false, sharers := 0, data := 0 }

/-- A local line is held at its physical home: an alias held under a virtual tag leaves (R25, R31). -/
def State.physFill (s : State) (t addr : Nat) : State :=
  if s.l2.any fun l => l.phys && l.holds addr then s else (s.hold (physLine t addr)).1

/-- Bytes of host or peer memory: the model's view of the owner's line (R27; log 20). -/
def peerAddr (p addr : Nat) : Nat := p * 2 ^ 56 + addr

def State.ownerLine (s : State) (o : Owner) (addr : Nat) : LineData :=
  match o with
  | .loc => memLine s.mem addr
  | .host => memLine s.hostMem addr
  | .peer p => memLine s.peerMem (peerAddr p addr)

/-! ### The bounds table (R18, R19) -/

/-- Cause codes of R30. -/
def cNoOwner : Nat := 1
def cBadPte : Nat := 2
def cPagePerm : Nat := 3
def cRegInval : Nat := 4
def cRegBound : Nat := 5
def cRegPerm : Nat := 6
def cOwnAtom : Nat := 7
def cWbFull : Nat := 8
def cBadEdge : Nat := 9

def grants (rd w x : Bool) : Access → Bool
  | .read => rd
  | .write => w
  | .atomic => rd && w
  | .fetch => x

/-- The two words of the bounds entry of a region identifier. -/
def State.boundsEntry (s : State) (c : Ctx) (rid : Nat) : DWord × DWord :=
  (mem64 s.mem (c.rbBase + 16 * rid), mem64 s.mem (c.rbBase + 16 * rid + 8))

/-- The region check of a fill: none, or the cause it fails with. DESIGN CHOICE (log 67): R30 names no error for a bounds entry with a
reserved bit set, and the check ignores those bits. -/
def State.regionCheck (s : State) (c : Ctx) (line : Nat) (acc : Access) : Option Nat :=
  let (w0, w1) := s.boundsEntry c (ridOf line)
  let base := w0.toNat / 64 % 2 ^ 50
  let limit := w1.toNat / 64 % 2 ^ 50
  if !w0.getLsbD 3 then some cRegInval
  else if lineVa line < base || limit < lineVa line then some cRegBound
  else if !grants (w0.getLsbD 0) (w0.getLsbD 1) (w0.getLsbD 2) acc then some cRegPerm
  else none

/-! ### The page walk (R22 to R24) -/

/-- The reserved bits of an entry are clear: [55:52], [11:8], and PEER unless OWN = 10 (R23). -/
def pteReservedOk (e : DWord) : Bool :=
  e.extractLsb' 52 4 == 0 && e.extractLsb' 8 4 == 0 && (e.extractLsb' 6 2 == 2 || e.extractLsb' 56 8 == 0)

/-- The FRAME field as an address. -/
def pteFrame (e : DWord) : Nat := (e.toNat / 2 ^ 12 % 2 ^ 40) * 2 ^ 12

/-- Whether the sixteen entries of a 64 KiB group are consistent (R24). -/
def groupOk (m : List Host.Cell) (table idx : Nat) : Bool :=
  let first := idx / 16 * 16
  let e0 := mem64 m (table + 8 * first)
  let rest := (BitVec.allOnes 64) ^^^ ((BitVec.ofNat 64 (2 ^ 40 - 1)) <<< 12)
  pteFrame e0 % 2 ^ 16 == 0 && (List.range 16).all fun k =>
    let e := mem64 m (table + 8 * (first + k))
    (e &&& rest) == (e0 &&& rest) && pteFrame e == pteFrame e0 + k * 2 ^ 12

/-- A leaf's meaning, or BADPTE: page size 2^log (R23, R30). -/
def State.leaf (s : State) (e : DWord) (va log : Nat) : Except Nat (Trans × Nat) :=
  let own := (e.extractLsb' 6 2).toNat
  let frame := pteFrame e
  if own == 3 || frame % 2 ^ log != 0 || (e.getLsbD 5 && log != 12) then .error cBadPte
  else if own == 0 && !s.locOk frame then .error cBadPte
  else
    let owner : Owner := if own == 0 then .loc else if own == 1 then .host else .peer (e.extractLsb' 56 8).toNat
    .ok ({ addr := frame + va % 2 ^ log, owner := owner, rd := e.getLsbD 2, w := e.getLsbD 3, x := e.getLsbD 4 }, log)

/-- The walk below one table: the levels left, each with the lowest VA bit it indexes and its index width. A leaf is allowed
at T2, T1 and T0; no level lies below T0. -/
def State.walkFrom (s : State) (va : Nat) : List (Nat × Nat) → Nat → Except Nat (Trans × Nat)
  | [], _ => .error cBadPte
  | (lo, n) :: rest, table =>
    let idx := va / 2 ^ lo % 2 ^ n
    let e := mem64 s.mem (table + 8 * idx)
    if !e.getLsbD 0 then .error cNoOwner
    else if !pteReservedOk e then .error cBadPte
    else if e.getLsbD 1 then
      if lo > 30 then .error cBadPte
      else
        match s.leaf e va lo with
        | .error c => .error c
        | .ok (t, log) =>
          if lo == 12 && e.getLsbD 5 && groupOk s.mem table idx then .ok (t, 16) else .ok (t, log)
    else if e.extractLsb' 2 6 != 0 || !s.locOk (pteFrame e) then .error cBadPte
    else s.walkFrom va rest (pteFrame e)

/-- The levels of the tree (R22): the lowest VA bit each indexes, and its index width. -/
def walkLevels : List (Nat × Nat) := [(48, 8), (39, 9), (30, 9), (21, 9), (12, 9)]

/-- Where a walk begins: at the deepest table that the walk cache holds for the address, else at the top (R25). -/
def State.walkStart (s : State) (c : Ctx) (va : Nat) : List (Nat × Nat) × Nat :=
  let from_ (k : Nat) : Option (List (Nat × Nat) × Nat) :=
    match walkLevels.drop k with
    | [] => none
    | (lo, n) :: rest =>
      (s.walkCache.find? fun e => e.tenant == c.tenant && e.asid == c.asid && e.lo == lo && e.base == va / 2 ^ (lo + n)).map
        fun e => ((lo, n) :: rest, e.table)
  ([4, 3, 2, 1].findSome? from_).getD (walkLevels, c.ptBase)

/-- A page walk of a context for a virtual address (R22). -/
def State.walk (s : State) (c : Ctx) (va : Nat) : Except Nat (Trans × Nat) :=
  s.walkFrom va (s.walkStart c va).1 (s.walkStart c va).2

/-- The tables a walk meets, each with its level. -/
def State.tablesMet (s : State) (va : Nat) : List (Nat × Nat) → Nat → List (Nat × Nat × Nat)
  | [], _ => []
  | (lo, n) :: rest, table =>
    let e := mem64 s.mem (table + 8 * (va / 2 ^ lo % 2 ^ n))
    (lo, n, table) ::
      if e.getLsbD 0 && pteReservedOk e && !e.getLsbD 1 && e.extractLsb' 2 6 == 0 && s.locOk (pteFrame e) then
        s.tablesMet va rest (pteFrame e)
      else []

/-- The entry a walk reads in a table, and with C64 the whole group of sixteen (R24): the lines it reads. -/
def State.entryLines (s : State) (va : Nat) (x : Nat × Nat × Nat) : List Nat :=
  let idx := va / 2 ^ x.1 % 2 ^ x.2.1
  let a := x.2.2 + 8 * idx
  if x.1 == 12 && (mem64 s.mem a).getLsbD 5 then [x.2.2 + 8 * (idx / 16 * 16), x.2.2 + 8 * (idx / 16 * 16) + 64] else [a]

/-- What a walk leaves behind (R25): the table lines it read, held in L2 at their physical homes, and the tables below the first in the
walk cache. -/
def State.walked (s : State) (c : Ctx) (va : Nat) : State :=
  let met := s.tablesMet va (s.walkStart c va).1 (s.walkStart c va).2
  let kept := (met.drop 1).map fun x =>
    ({ tenant := c.tenant, asid := c.asid, lo := x.1, base := va / 2 ^ (x.1 + x.2.1), table := x.2.2 } : WalkEntry)
  let s := (met.flatMap (s.entryLines va)).foldl (fun s a => s.physFill c.tenant a) s
  { s with walkCache := kept ++ s.walkCache }

/-- A TLB entry that covers a virtual address. -/
def State.tlb? (s : State) (t asid chan va : Nat) : Option TlbEntry :=
  s.tlb.find? fun e => e.tenant == t && e.asid == asid && e.chan == chan && va / 2 ^ e.log == e.base / 2 ^ e.log

/-- Translate a line's address through the TLB of its home slice, walking on a miss (R21, R25). -/
def State.translate (s : State) (c : Ctx) (line : Nat) : State × Except Nat Trans :=
  let va := 64 * lineVa line
  let chan := s.tlbOf c.tenant (s.home c.tenant c.asid line)
  match s.tlb? c.tenant c.asid chan va with
  | some e => (s, .ok { e.tr with addr := e.tr.addr + va % 2 ^ e.log })
  | none =>
    match s.walk c va with
    | .error cause => (s.walked c va, .error cause)
    | .ok (t, log) =>
      let s := s.walked c va
      let base := va / 2 ^ log * 2 ^ log
      let e : TlbEntry := { tenant := c.tenant, asid := c.asid, chan := chan, base := base, log := log,
                            tr := { t with addr := t.addr - va % 2 ^ log } }
      ({ s with tlb := e :: s.tlb }, .ok t)

/-! ### Access counters (R29) and event rings (spec/18 R332) -/

/-- Whether a ring pointer names host memory; otherwise it is an address of the tenant's local device memory (log 21). -/
def State.readRing (s : State) (p : DWord) (n : Nat) : List Byte :=
  if Config.ringInHost p then memBytes s.hostMem p.toNat n else memBytes s.mem (p.toNat % 2 ^ 52) n

def State.writeRing (s : State) (p : DWord) (bs : List Byte) : State :=
  if Config.ringInHost p then { s with hostMem := memPutBytes s.hostMem p.toNat bs }
  else s.devPut (p.toNat % 2 ^ 52) bs

/-- n bytes of a number, the lowest first. -/
def natBytes : Nat → Nat → List Byte
  | 0, _ => []
  | n + 1, v => BitVec.ofNat 8 v :: natBytes n (v / 256)

def bytesNat : List Byte → Nat
  | [] => 0
  | b :: bs => b.toNat + 256 * bytesNat bs

def wordsBytes (ws : List DWord) : List Byte := ws.foldr (fun w bs => natBytes 8 w.toNat ++ bs) []

/-- A 16-byte event record written to a ring of host memory (R332): a full ring drops it and marks the next. The LOST mark
of an event record stands in word 0 bit 8 (log 22). -/
def Ring.full (r : Ring) : Bool := (r.tail.toNat + 1) % 2 ^ (r.log + 4) == r.head.toNat % 2 ^ (r.log + 4)

def State.ringPut (s : State) (r : Ring) (size : Nat) (rec : Bool → List DWord) : State × Ring :=
  if !r.enabled then (s, r)
  else if r.full then (s, { r with lost := true })
  else
    let addr := r.base.toNat + size * r.tail.toNat
    ({ s with hostMem := memPutBytes s.hostMem addr (wordsBytes (rec r.lost)) },
     { r with tail := BitVec.ofNat 64 ((r.tail.toNat + 1) % 2 ^ (r.log + 4)), lost := false })

def eventWords (type : Nat) (detail : DWord) (lost : Bool) : List DWord :=
  [BitVec.ofNat 64 (type + if lost then 256 else 0), detail]

/-- Post an event to a tenant function (vector 65, R332). -/
def State.tenantEvent (s : State) (t type : Nat) (detail : DWord) : State :=
  let tn := s.tenant t
  let (s, r) := s.ringPut tn.events 16 (eventWords type detail)
  let s := s.setTenant t { s.tenant t with events := r }
  if tn.events.enabled then s.emit (.msix (t + 1) 65) else s

/-- Post an event to the package function (vector 1). -/
def State.packageEvent (s : State) (type : Nat) (detail : DWord) : State :=
  let on := s.pkg.events.enabled
  let (s, r) := s.ringPut s.pkg.events 16 (eventWords type detail)
  let s := { s with pkg := { s.pkg with events := r } }
  if on then s.emit (.msix 0 1) else s

/-- Count a forwarded access in the context's access-counter table and post a migration hint at the threshold (R29). DESIGN CHOICE
(log 67): a directory entry's reserved bits of word 1 are ignored. -/
def State.countForward (s : State) (c : Ctx) (line : Nat) : State :=
  let c := (s.ctx? c.tenant c.num).getD c
  if c.acBase == 0 then s
  else
    let rid := ridOf line
    let arr := (mem64 s.mem (c.acBase + 16 * rid)).toNat
    let pages := (mem64 s.mem (c.acBase + 16 * rid + 8)).toNat % 2 ^ 36
    let p0 := (s.boundsEntry c rid).1.toNat / 64 % 2 ^ 50 / 64
    let page := lineVa line / 64
    if arr == 0 || page < p0 || p0 + pages ≤ page then s
    else
      let at_ := arr + 2 * (page - p0)
      let old := memNat s.mem at_ 2
      let new := min (old + 1) 0xFFFF
      let s := s.devPut at_ (natBytes 2 new)
      let hinted := if old == 0 then c.hinted.filter (· != (rid, page)) else c.hinted
      if c.acThr != 0 && new ≥ c.acThr && !hinted.contains (rid, page) then
        (s.setCtx { c with hinted := (rid, page) :: hinted }).tenantEvent c.tenant 1
          (BitVec.ofNat 64 (c.asid * 2 ^ 48 + page))
      else s.setCtx { c with hinted := hinted }

/-! ### Settlement (spec/09 R163 to R166; log 11) -/

def Unsettled.on (u : Unsettled) (o : Owner) (scratch : Bool) (loc : Nat) : Bool := u.owner == o && u.scratch == scratch && u.loc == loc

/-- Bytes that have settled at their final place. -/
def State.settleAt (s : State) (scratch : Bool) (loc : Nat) (mask : ByteMask) : State :=
  let cut (u : Unsettled) : Unsettled := if u.on .loc scratch loc then { u with mask := u.mask &&& ~~~mask } else u
  { s with unsettled := (s.unsettled.map cut).filter (·.mask != 0) }

/-- The wave begins an operation on a path (0 core, 1 copy, 2 matrix, 3 link): its writes that a FENCE ordered before that path
settle. -/
def State.settlePath (s : State) (w : WaveRef) (path : Nat) : State :=
  { s with unsettled := s.unsettled.filter fun u => !(u.wave == w && u.owner == .loc && u.fenced.getLsbD path) }

/-- A read on a path, by a wave or by none, may overtake the write: not a wave's own LDB, nor a read on the core or matrix path by a wave
that has waited for a phase or popped an entry (R166, spec/14 R265). -/
def Unsettled.hides (u : Unsettled) (path : Nat) (me : Option WaveRef) : Bool :=
  u.unseen.getLsbD path && match me with
  | none => true
  | some r => !(path == 0 && r == u.wave) && !(path != 1 && r.lid == u.wave.lid && r.rank == u.wave.rank && u.seenBy.contains r.wave)

/-- The write once some of its bytes have been seen new on a path: those stay new there. -/
def Unsettled.seen (u : Unsettled) (path : Nat) (new : ByteMask) : List Unsettled :=
  [{ u with mask := u.mask &&& ~~~new }, { u with mask := u.mask &&& new, unseen := u.unseen &&& ~~~((1 : BitVec 4) <<< path) }].filter
    (·.mask != 0)

/-- Bytes as a path reads them: where a core write has not settled, either value, byte by byte. -/
def State.readUnsettled (s : State) (path : Nat) (me : Option WaveRef) (o : Owner) (scratch : Bool) (loc : Nat) (d : LineData) :
    State × LineData :=
  (s.unsettled.filter fun u => u.hides path me && u.on o scratch loc).foldl (fun (x : State × LineData) u =>
    let (b, s) := x.1.draw 64
    let split (y : Unsettled) : List Unsettled := if y == u then y.seen path (~~~b) else [y]
    ({ s with unsettled := s.unsettled.flatMap split }, mergeLine x.2 u.old (u.mask &&& b))) (s, d)

/-! ### Fills (R19, R45) -/

/-- What a fill found: the line with its checks passed, a failed check with its cause and the translated address, or a
forwarded line that must come from its owner first. -/
inductive FillResult where
  | ok (l : L2Line)
  | fail (cause : Nat) (paddr : Nat)
  | away (l : L2Line)
  deriving DecidableEq, Repr

/-- Make a line of L2 pass the checks for an access (R19): a resident line that has passed them is a hit and is not checked
again; otherwise the bounds and permission checks are made, the older alias is dropped and the line is held. With `resp` a
forwarded line's bytes arrive with it; without, a read of a forwarded line that is not held waits for its owner. -/
def State.fill (s : State) (c : Ctx) (line : Nat) (acc : Access) (resp : Bool) : State × FillResult :=
  match s.l2? c.tenant c.asid line with
  | some l =>
    if grants l.rd l.w l.x acc then (s, .ok l)
    else
      match s.regionCheck c line acc with
      | some cause => (s, .fail cause 0)
      | none =>
        match s.translate c line with
        | (s, .error cause) => (s, .fail cause 0)
        | (s, .ok tr) =>
          if !grants tr.rd tr.w tr.x acc then (s, .fail cPagePerm tr.addr)
          else
            let l := { l with rd := l.rd || acc == .read || acc == .atomic, w := l.w || acc == .write || acc == .atomic,
                              x := l.x || acc == .fetch }
            if (s.l2? c.tenant c.asid line).isSome then (s.setL2 l, .ok l)
            else
              let (s, l) := s.hold l
              (s, .ok l)
  | none =>
    match s.regionCheck c line acc with
    | some cause => (s, .fail cause 0)
    | none =>
      match s.translate c line with
      | (s, .error cause) => (s, .fail cause 0)
      | (s, .ok tr) =>
        if !grants tr.rd tr.w tr.x acc then (s, .fail cPagePerm tr.addr)
        else
          let l : L2Line :=
            { tenant := c.tenant, asid := c.asid, line := line, phys := false, rd := acc == .read || acc == .atomic,
              w := acc == .write || acc == .atomic, x := acc == .fetch, addr := tr.addr, owner := tr.owner, dirty := false,
              reported := false, sharers := 0, data := s.ownerLine tr.owner tr.addr }
          if tr.owner == .loc then
            let (s, l) := s.hold l
            (s, .ok l)
          else if resp then
            let (s, d) := s.readUnsettled 3 none tr.owner false tr.addr l.data
            let (s, l) := s.hold { l with data := d }
            (s, .ok l)
          else (s, .away l)

/-- Where a line lies: as L2 holds it, else as its translation gives it. -/
def State.placeOf (s : State) (c : Ctx) (line : Nat) : Option (Owner × Nat) :=
  match s.l2? c.tenant c.asid line with
  | some l => some (l.owner, l.addr)
  | none => match (s.translate c line).2 with
    | .ok tr => some (tr.owner, tr.addr)
    | .error _ => none

/-- The local physical address of a line. -/
def State.physOf (s : State) (c : Ctx) (line : Nat) : Option Nat :=
  match s.placeOf c line with
  | some (.loc, a) => some a
  | _ => none

/-- The D value of a line: local memory, or the forwarded copy that L2 holds, or the owner's own. -/
def State.dLine (s : State) (c : Ctx) (line : Nat) : LineData :=
  match s.l2? c.tenant c.asid line, s.placeOf c line with
  | some l, _ => if l.owner == .loc then memLine s.mem l.addr else l.data
  | none, some (o, a) => s.ownerLine o a
  | none, none => 0

/-- A read of a line at D: bytes, whether it is poisoned, or why it fails. -/
inductive ReadResult where
  | ok (d : LineData) (poisoned : Bool)
  | fail (cause : Nat) (paddr : Nat)
  | away (l : L2Line)
  deriving DecidableEq, Repr

/-- Read a line at D through its home slice, never from an L1 copy. -/
def State.readD (s : State) (c : Ctx) (line : Nat) (acc : Access) (resp : Bool) : State × ReadResult :=
  match s.fill c line acc resp with
  | (s, .fail cause pa) => (s, .fail cause pa)
  | (s, .away l) => (s, .away l)
  | (s, .ok l) =>
    if l.owner == .loc then
      let s := s.verify l.addr
      (s, .ok (memLine s.mem l.addr) (s.poisoned l.addr))
    else if l.check == lineCheck l.data then (s, .ok l.data l.poisoned)
    else (s.setL2 { l with poisoned := true }, .ok l.data true)

/-! ### L1 (spec/02 R46, R47) -/

/-- Lines of a core's L1 part. -/
def Core.l1Lines (k : Core) : Nat := (2097152 - k.split * 131072) / 64

/-- The set of the core's L1 that a line falls into; it has eight ways. -/
def Core.l1Set (k : Core) (asid line : Nat) : Nat := Config.l1Set asid line % (k.l1Lines / 8)

/-- Lines of a buffer that stand in their own place. -/
def inPlace (b : List BufLine) : Nat := (b.filter fun x => x.log.isNone && !x.saved).length

def Block.buffered (b : Block) : Nat := b.waves.foldl (fun n w => n + inPlace w.buf) (inPlace b.buf)

/-- The buffered lines that stand in place in a block's buffers. -/
def Block.bufferLines (b : Block) : List Nat :=
  ((b.buf ++ b.waves.flatMap (·.buf)).filter fun x => x.log.isNone && !x.saved).map (·.line)

/-- The ASID of a launch's context. -/
def State.asidOf (s : State) (lid : Nat) : Nat :=
  match s.launch? lid with
  | some l => (s.ctx? l.src.fn l.ctx).elim 0 (·.asid)
  | none => 0

/-- How many ways of a set of a core's L1 the given blocks' buffered lines take. -/
def State.waysHeld (s : State) (core set : Nat) (bs : List Block) : Nat :=
  bs.foldl (fun n b => n + (b.bufferLines.filter fun line => (s.core core).l1Set (s.asidOf b.lid) line == set).length) 0

/-- Room for a line in its set (R47): where clean and buffered lines take all eight ways, a clean one, chosen freely, leaves. The blocks
are those of the core. -/
def State.l1Make (s : State) (core : Nat) (asid line : Nat) (bs : List Block) : State :=
  let k := s.core core
  if k.l1.length + bs.foldl (fun n b => n + b.buffered) 0 < 8 then s
  else
    let set := k.l1Set asid line
    let clean := k.l1.filter fun l => k.l1Set l.asid l.line == set
    if clean.length + s.waysHeld core set bs < 8 then s
    else
      let (n, s) := s.drawNat
      match clean[n % clean.length]? with
      | some l => s.setCore core { k with l1 := k.l1.filter (· != l) }
      | none => s

def State.residentOn (s : State) (core : Nat) : List Block := s.blocks.filter fun b => b.place == .resident && b.core == core

/-- A set of the core's L1 has a way that no buffered line takes. -/
def State.l1Way (s : State) (core asid line : Nat) (bs : List Block) : Bool :=
  decide (bs.foldl (fun n b => n + b.buffered) 0 < 8) || decide (s.waysHeld core ((s.core core).l1Set asid line) bs < 8)

/-- Replacement of a clean L1 line at will (R47, log 9). -/
def State.evictL1 (s : State) (core : Nat) : State :=
  let (n, s) := s.drawNat
  let k := s.core core
  match k.l1[n]? with
  | some l => s.setCore core { k with l1 := k.l1.filter (· != l) }
  | none => s

/-- A clean copy enters a core's L1, where its set has a way for it. -/
def State.keepL1 (s : State) (core : Nat) (x : CoreLine) : State :=
  let s := s.evictL1 core
  let k := s.core core
  let s := s.setCore core { k with l1 := k.l1.filter fun l => !(l.tenant == x.tenant && l.asid == x.asid && l.line == x.line) }
  let bs := s.residentOn core
  if s.l1Way core x.asid x.line bs then
    let s := s.l1Make core x.asid x.line bs
    let k := s.core core
    s.setCore core { k with l1 := x :: k.l1 }
  else s

/-- The clean copy of an L2 line that a core takes. -/
def L2Line.copy (l : L2Line) (d : LineData) : CoreLine :=
  { tenant := l.tenant, asid := l.asid, line := l.line, data := d, owner := l.owner, addr := l.addr, check := lineCheck d }

/-! ### Column caches (spec/02 R43) -/

/-- The set of a column cache that a line falls into, of its 1,048,576. -/
def colSet (asid line : Nat) : Nat := Config.columnSet asid line % 1048576

/-- The set of a deck line, which has no virtual tag: its ASID is none that a context can have. -/
def DeckLine.set (x : DeckLine) : Nat := colSet 65536 (x.addr / 64)

/-- The gang lines that stand in a cluster's column cache, by set. -/
def State.gangWays (s : State) (cluster set : Nat) : Nat :=
  s.gangs.foldl (fun n g =>
    if g.cluster == cluster then
      n + (g.buf.filter fun x => x.log.isNone && !x.saved && colSet (s.asidOf g.lid) x.line == set).length
    else n) 0

/-- The near copies of a set of a cluster's column cache. -/
def State.nearIn (s : State) (cluster set : Nat) : List L2Line :=
  s.l2.filter fun l => l.sharers.getLsbD cluster && colSet l.asid l.line == set

def State.decksIn (s : State) (cluster set : Nat) : List DeckLine := s.deckLines.filter fun x => x.cluster == cluster && x.set == set

/-- A deck line leaves a column cache; a dirty one is written back to the deck's D location. -/
def State.dropDeckLine (s : State) (x : DeckLine) : State :=
  let s := if x.dirty then s.devPut x.addr (lineBytes x.data) else s
  { s with deckLines := s.deckLines.filter fun y => !(y.cluster == x.cluster && y.addr == x.addr) }

/-- Room for one more line in a set of a column cache: where its sixteen ways are taken, a near copy or a deck line, chosen freely, leaves;
a gang line never does. -/
def State.colMake (s : State) (cluster set : Nat) : State :=
  let near := s.nearIn cluster set
  let decks := s.decksIn cluster set
  if near.length + decks.length + s.gangWays cluster set < 16 then s
  else
    let (n, s) := s.drawNat
    let k := n % (near.length + decks.length)
    match near[k]?, decks[k - near.length]? with
    | some l, _ => s.setL2 { l with sharers := l.sharers &&& ~~~((1 : BitVec 24) <<< cluster) }
    | none, some x => s.dropDeckLine x
    | none, none => s

/-- A near copy of an L2 line enters a column cache, where its set has a way for it. -/
def State.nearCopy (s : State) (cluster : Nat) (l : L2Line) : State :=
  let set := colSet l.asid l.line
  if s.gangWays cluster set < 16 then
    let s := if l.sharers.getLsbD cluster then s else s.colMake cluster set
    match s.l2.find? (·.sameTag l) with
    | some l => s.setL2 { l with sharers := l.sharers ||| ((1 : BitVec 24) <<< cluster) }
    | none => s
  else s

/-- A core's read of a line (R45): its L1 when it holds the line and has not replaced it, otherwise D, leaving a clean copy in
L1 and a near copy's sharer bit. -/
def State.readCore (s : State) (core : Nat) (c : Ctx) (line : Nat) : State × ReadResult :=
  let k := s.core core
  let hit := k.l1.find? fun l => l.tenant == c.tenant && l.asid == c.asid && l.line == line
  let (gone, s) := s.draw 1
  match hit, gone == 1 with
  | some l, false => (s, .ok l.data false)
  | _, _ =>
    match s.readD c line .read false with
    | (s, .ok d p) =>
      match p, s.l2? c.tenant c.asid line with
      | false, some l =>
        let s := s.keepL1 core (l.copy d)
        if s.home c.tenant c.asid line / 4 == clusterOf core then (s, .ok d p)
        else (s.nearCopy (clusterOf core) l, .ok d p)
      | _, _ => (s, .ok d p)
    | r => r

/-! ### Snapshots (R35, R36) -/

/-- A 4 KiB range of the shadow pool that nothing has taken (R36): the first free one, after the directory page. -/
def freeRange (base size : Nat) (taken : List (Nat × Nat)) (n : Nat) : Option Nat :=
  let starts := base :: taken.map fun r => r.1 + r.2
  let fits := starts.filter fun a => a + n ≤ base + size && taken.all fun r => a + n ≤ r.1 || r.1 + r.2 ≤ a
  minList fits

/-- The highest free range of n bytes. -/
def freeTop (base size : Nat) (taken : List (Nat × Nat)) (n : Nat) : Option Nat :=
  let ends := (base + size) :: taken.map fun r => r.1
  let fits := ends.filter fun e =>
    decide (base + n ≤ e) && decide (e ≤ base + size) && taken.all fun r => decide (e ≤ r.1) || decide (r.1 + r.2 + n ≤ e)
  match fits.map fun e => e - n with
  | [] => none
  | x :: xs => some (xs.foldl max x)

/-- Where record n of a launch's shadow map stands: 256 to each 4 KiB unit. -/
def Launch.mapRecord (l : Launch) (n : Nat) : Nat := (l.shadowMap :: l.mapUnits).getD (n / 256) l.shadowMap + 16 * (n % 256)

/-- The shadow map's next 4 KiB unit, taken when its last one is full (R36): the ranges taken then, and the launch's units. DESIGN CHOICE
(log 23): a further unit is the lowest free one of the pool. -/
def growMap (c : Ctx) (l : Launch) : Option (List (Nat × Nat) × List Nat) :=
  if l.shadowCount < 256 * (l.mapUnits.length + 1) then some (c.shadow, l.mapUnits)
  else (freeRange (c.shBase + 4096) (c.shSize - 4096) c.shadow 4096).map fun a => ((a, 4096) :: c.shadow, l.mapUnits ++ [a])

/-- The page of the shadow pool that the next snapshot takes (R36): the highest free one above the directory page. -/
def Ctx.shadowFree (c : Ctx) (taken : List (Nat × Nat)) : Option Nat := freeTop (c.shBase + 4096) (c.shSize - 4096) taken 4096

/-- The ranges taken once the map has room for another record, the map's units, and the page the snapshot takes; none where the pool
is empty. -/
def Ctx.shadowPlan (c : Ctx) (l : Launch) : Option (List (Nat × Nat) × List Nat × Nat) :=
  (growMap c l).bind fun x => (c.shadowFree x.1).map fun page => (x.1, x.2, page)

/-- A page's D contents copied to another page; a poisoned line stays poisoned (R39). -/
def State.copyPage (s : State) (dst src : Nat) : State :=
  let sick := (List.range 64).filter fun i => s.poisonIn (src + 64 * i) 64
  sick.foldl (fun s i => s.setPoison (dst + 64 * i) true) (s.devPut dst (memBytes s.mem src 4096))

/-- One page saved (R35): its D contents go to the shadow page, the frame's bit is set, and the shadow map gains a record; a bit once
set stands for the launch. -/
def State.shadowPage (s : State) (c : Ctx) (l : Launch) (taken : List (Nat × Nat)) (units : List Nat) (page addr b : Nat) : State :=
  let frame := addr / 4096 * 4096
  let l := { l with mapUnits := units }
  let s := s.copyPage page frame
  let s := s.devPut (l.shadowBitmap + b / 8) [bitmapByte s.mem l.shadowBitmap b]
  let s := s.devPut (l.mapRecord l.shadowCount) (natBytes 8 frame ++ natBytes 8 page)
  let s := s.devPut (l.shadowDir + 16) (natBytes 8 (l.shadowCount + 1))
  (s.setCtx { c with shadow := (page, 4096) :: taken }).setLaunch { l with shadowCount := l.shadowCount + 1 }

/-- The snapshot of the first write to a page in a snapshot region during a launch (R35): copy the page's D contents to a
shadow page, set the frame's bit, append a shadow-map record; an empty pool marks the launch not replayable. A local frame outside the
tenant's regions has no bit: a launch that writes there is not replayable (spec/17 R321). -/
def State.snapshot (s : State) (lid addr : Nat) : State :=
  match s.launch? lid with
  | none => s
  | some l =>
    if !(l.snap && l.replayable) then s
    else
      match s.ctx? (l.src.fn) l.ctx, s.frameBit l.src.fn addr with
      | some c, some b =>
        if bitmapGet s.mem l.shadowBitmap b then s
        else
          match c.shadowPlan l with
          | none => s.setLaunch { l with replayable := false }
          | some (taken, units, page) => s.shadowPage c l taken units page addr b
      | _, _ => s.setLaunch { l with replayable := false }

/-- A page of a local address lies in a snapshot region of a context: L2 holds a line of it under the context's tags, in a region that
allows writes (log 23). -/
def State.inSnapRegion (s : State) (c : Ctx) (addr : Nat) : Bool :=
  s.l2.any fun l => !l.phys && l.tenant == c.tenant && l.asid == c.asid && l.owner == .loc && l.addr / 4096 == addr / 4096 &&
    (s.boundsEntry c (ridOf l.line)).1.getLsbD 3 && (s.boundsEntry c (ridOf l.line)).1.getLsbD 1

/-- Before a local line is written, by a launch or by anyone else: the running snapshot launches of which it is a page save it first
(R35). -/
def State.beforeWrite (s : State) (lid : Option Nat) (addr : Nat) : State :=
  (s.launches.filter fun l => l.snap && l.state == .running).foldl (fun s l =>
    if lid == some l.lid || (s.ctx? l.src.fn l.ctx).elim false (fun c => s.inSnapRegion c addr) then s.snapshot l.lid addr else s) s

/-- A launch that has written what a rollback cannot undo is not replayable (spec/17 R321). -/
def State.noReplay (s : State) (lid : Nat) : State :=
  match s.launch? lid with
  | none => s
  | some l => s.setLaunch { l with replayable := false }

/-! ### Packets of forwarded writes (spec/18 R336) -/

/-- Bytes 144 to 251 of a header flit (spec/18 R336). -/
def opsZero : List Byte := List.replicate 108 0

/-- The header flit's bytes 0 to 251, over which HCV is made. -/
def packetHead (p : Packet) : List Byte :=
  let w := p.type.toNat + p.seq.toNat * 2 ^ 8 + p.ack.toNat * 2 ^ 20 + p.nfl.toNat * 2 ^ 32 + p.src.toNat * 2 ^ 36
    + (p.poison.toNat % 2 ^ 20) * 2 ^ 44
  let lcv := (List.range 32).foldr (fun i bs => natBytes 4 ((p.lcv.getD i 0).toNat) ++ bs) []
  natBytes 8 w ++ natBytes 8 p.addr.toNat ++ lcv ++ (p.ops ++ opsZero).take 108

/-- Complete a packet: payload flits counted, check values made. -/
def sealPacket (p : Packet) : Packet :=
  let p := { p with nfl := BitVec.ofNat 4 ((p.lines.length + 3) / 4) }
  { p with hcv := crc32c (packetHead p) }

/-- Bytes 144 and 145 hold the poison bits of lines 20 to 31, bytes 146 to 161 the masks of a partial first and last line
(spec/18 R336, spec/21 R352). -/
def opsOf (poison : BitVec 32) (first last : ByteMask) : List Byte :=
  natBytes 2 (poison.toNat / 2 ^ 20) ++ natBytes 8 first.toNat ++ natBytes 8 last.toNat ++ List.replicate 90 0

/-- A port may carry accesses to a peer (spec/21 R350): the tenant owns it, its far end is the peer, and it is not down. -/
def State.eligible (s : State) (t p n : Nat) : Bool :=
  (s.tenant t).own.ports.getLsbD n && (s.port n).far.toNat == p && (s.port n).state != 0

/-- The port through which accesses to a peer leave (R350): the lowest-numbered eligible one. -/
def State.portTo (s : State) (t p : Nat) : Option Nat := (List.range 8).find? (s.eligible t p)

/-- The port of traffic that has been routed to one already: that one, as long as it is eligible (R350). -/
def State.portFor (s : State) (t p : Nat) (via : Option Nat) : Option Nat :=
  match via with
  | some n => if s.eligible t p n then some n else s.portTo t p
  | none => s.portTo t p

/-- Send a sequenced packet on a port: number it, keep it in the replay buffer, put it on the link unless the port retrains
(spec/18 R337, spec/21 R353). -/
def State.sendOn (s : State) (n : Nat) (sp : SentPacket) : State :=
  let pt := s.port n
  let pk := sealPacket { sp.packet with seq := pt.nextSeq, ack := pt.expected - 1 }
  let s := s.setPort n { pt with nextSeq := pt.nextSeq + 1, buffer := pt.buffer ++ [{ sp with packet := pk }], ackDue := false }
  if pt.state == 1 then s else s.emit (.packet n pk)

/-- Send a packet to a peer, by the port it has been routed to if any, or hold it while no port is eligible or the replay buffer holds
1,024 packets (R337, R339). -/
def State.sendPeer (s : State) (t p : Nat) (sp : SentPacket) (via : Option Nat := none) : State :=
  let port := s.portFor t p via
  let free := match port with
    | some n => decide ((s.port n).buffer.length < 1024) && !s.heldPackets.any fun h => h.tenant == t && h.peer == p
    | none => false
  match port, free with
  | some n, true => s.sendOn n sp
  | _, _ => { s with heldPackets := s.heldPackets ++ [{ tenant := t, peer := p, sent := sp, port := port }] }

/-- Send the held packets that can go, in order (R339, spec/21 R353). -/
def State.releaseHeld (s : State) : State :=
  s.heldPackets.foldl (fun s h => s.sendPeer h.tenant h.peer h.sent h.port) { s with heldPackets := [] }

/-- A write packet of lines for a peer (spec/21 R352). -/
def writePacket (addr : Nat) (lines : List LineData) (first last : ByteMask) : Packet :=
  { type := 0x01, seq := 0, ack := 0, nfl := 0, src := Config.deviceIndex, poison := 0, addr := BitVec.ofNat 64 addr,
    lcv := lines.map lineCheck, ops := opsOf 0 first last, hcv := 0, lines := lines }

/-- A packet without lines for a peer: a read request (0x02) or an atomic (0x04), whose operands the manual gives no layout
(spec/18 R336; log 20). -/
def askPacket (type : Nat) (addr : Nat) (ops : List Byte) : Packet :=
  { type := BitVec.ofNat 8 type, seq := 0, ack := 0, nfl := 0, src := Config.deviceIndex, poison := 0, addr := BitVec.ofNat 64 addr, lcv := [],
    ops := ops, hcv := 0, lines := [] }

/-- Ask the owner of a forwarded line for it (R27): a peer gets a read request. -/
def State.requestLine (s : State) (t : Nat) (l : L2Line) : State :=
  match l.owner with
  | .peer p => s.sendPeer t p { packet := askPacket 0x02 l.addr [], job := none, lid := none, va := none }
  | _ => s

/-! ### Writes at D (R33, R38, R41, R44; spec/08 R144, R145) -/

/-- Who writes, for windows, settlement and replay, and whether the bytes come from a poisoned source (spec/03 R73). -/
structure Writer where
  lvl : Level
  lid : Option Nat
  block : Nat
  wave : Nat
  gang : Nat
  engine : Bool
  job : Option Nat
  poison : Bool := false
  deriving DecidableEq, Repr

/-- The wave that writes, where no engine does. -/
def Writer.ref? (w : Writer) : Option WaveRef :=
  if w.engine then none else w.lid.map fun lid => { lid := lid, rank := w.block, wave := w.wave }

/-- Record a write at a level for the windows of COMMIT.X (R146). -/
def State.logWrite (s : State) (c : Ctx) (w : Writer) (line : Nat) (phys : Option Nat) (mask : ByteMask) : State :=
  let s := s.tick
  { s with wlog := { stamp := s.stamp, lvl := w.lvl, tenant := c.tenant, asid := c.asid, lid := w.lid, block := w.block,
                     wave := w.wave, gang := w.gang, engine := w.engine, line := line, phys := phys, mask := mask } :: s.wlog }

/-- The line becomes dirty: its frame's bit is set on the first transition, or again after the bits were read and cleared
(R33, R34). -/
def State.dirtyLine (s : State) (l : L2Line) : State :=
  let s := if l.dirty && l.reported then s else s.markDirty l.addr
  s.setL2 { l with dirty := true, reported := true, sharers := 0 }

/-- A far line's poison after a write: a whole line takes the writer's, a part keeps what was there (R39). -/
def State.writeFarPoison (s : State) (l : L2Line) (mask : ByteMask) (on : Bool) : State :=
  if mask == BitVec.allOnes 64 || on then s.setFarPoison l.owner l.addr on else s

/-- The copy of a forwarded line that L2 holds takes the bytes; near copies go (spec/02 R44). -/
def State.writeCopy (s : State) (l : L2Line) (mask : ByteMask) (d : LineData) (on : Bool) : State :=
  let new := mergeLine l.data d mask
  s.setL2 { l with data := new, check := lineCheck new, sharers := 0, poisoned := on || (l.poisoned && mask != BitVec.allOnes 64) }

/-- A core's write to another owner's line has settled only when its owner has acknowledged it (spec/09 R163). The host's
acknowledgement comes at once (log 69). -/
def State.unsettleFar (s : State) (ref : Option WaveRef) (l : L2Line) (mask : ByteMask) : State :=
  match ref, l.owner with
  | some r, .peer _ =>
    let s := s.tick
    { s with unsettled := { id := s.stamp, wave := r, owner := l.owner, unseen := 8, fenced := 0, scratch := false, loc := l.addr,
                            mask := mask, old := s.ownerLine l.owner l.addr } :: s.unsettled }
  | _, _ => s

/-- Write the bytes of a mask into a line that has passed its check for W, at its D or at its owner. -/
def State.writeLine (s : State) (c : Ctx) (w : Writer) (l : L2Line) (mask : ByteMask) (d : LineData) : State :=
  let noReplay (s : State) : State := match w.lid with
    | some lid => s.noReplay lid
    | none => s
  match l.owner with
  | .loc =>
    let s := (s.beforeWrite w.lid l.addr).dirtyLine l
    (s.mergeMem l.addr mask d w.poison).logWrite c w l.line (some l.addr) mask
  | .host =>
    let s := { s with hostMem := memPutLine s.hostMem l.addr mask d }
    let s := (s.writeFarPoison l mask w.poison).writeCopy l mask d w.poison
    let s := (noReplay s).emit (.hostWrite l.addr mask d w.poison)
    (s.countForward c l.line).logWrite c w l.line none mask
  | .peer p =>
    let s := s.unsettleFar w.ref? l mask
    let sent : Option Nat := w.ref?.map fun _ => s.stamp
    let s := { s with peerMem := memPutLine s.peerMem (peerAddr p l.addr) mask d }
    let s := (s.writeFarPoison l mask w.poison).writeCopy l mask d w.poison
    let part := if mask == BitVec.allOnes 64 then 0 else mask
    let pk := { writePacket l.addr [mergeLine 0 d mask] part part with poison := if w.poison then 1 else 0 }
    let s := (noReplay s).sendPeer c.tenant p
      { packet := pk, job := w.job, lid := if w.lvl == Level.s then w.lid else none, va := some (c.num, l.line),
        wave := if w.lvl == Level.s then w.ref? else none, settles := sent }
    (s.countForward c l.line).logWrite c w l.line none mask

/-- Check a line for an access, waiting for nothing. A forwarded line that L2 does not hold is not taken in (log 69). -/
def State.ensure (s : State) (c : Ctx) (line : Nat) (acc : Access) : State × FillResult :=
  s.fill c line acc false

/-- Write bytes at D, checking the line for W (R19). -/
def State.writeD (s : State) (c : Ctx) (w : Writer) (line : Nat) (mask : ByteMask) (d : LineData) : State × Option (Nat × Nat) :=
  match s.ensure c line .write with
  | (s, .ok l) => (s.writeLine c w l mask d, none)
  | (s, .away l) => (s.writeLine c w l mask d, none)
  | (s, .fail cause pa) => (s, some (cause, pa))

/-- Host or link writes to a local physical address: at its D, through its physical home, displacing virtual copies (R25, spec/09 R169).
They settle at once (spec/09 R163, R167). -/
def State.writePhys (s : State) (t : Nat) (addr : Nat) (mask : ByteMask) (d : LineData) (poison : Bool := false) : State :=
  let s := (s.beforeWrite none addr).physFill t addr
  let s := match s.l2.find? fun l => l.phys && l.holds addr with
    | some l => s.dirtyLine l
    | none => s
  let s := (s.mergeMem addr mask d poison).settleAt false addr mask
  let s := s.tick
  { s with wlog := { stamp := s.stamp, lvl := .d, tenant := t, asid := 0, lid := none, block := 0, wave := 0, gang := 0,
                     engine := true, line := addr / 64, phys := some addr, mask := mask } :: s.wlog }

end Sys2Proof.Machine
end

