-- ==== Sys2Proof/Machine/Ops.lean ====
section
/-!
DEFINITION. The named operations of the machine: the checked-out context of an issue, groups and meeting points (spec/12 R209,
R211), symbols (spec/04 R80 to R82), fault records (spec/17 R315), taking a trap and returning from one (R306 to R313,
spec/15 R287), tags (spec/03 R71), barriers (spec/14 R257 to R261), buffers and their publication (spec/08).
-/

namespace Sys2Proof.Machine

/-! ### The context of an issue -/

/-- What an issuing group works on: the state, the selection, its launch, kernel and context, its block (with the wave in it) and the registers as
this instruction reads them (the stall hazards of spec/11 R189 applied): `alts` holds, for a scalar, the lanes that read an older value. -/
structure Cx where
  s : State
  sel : Sel
  lch : Launch
  krn : Kernel
  ctx : Ctx
  blk : Block
  rv : RegCtx
  alts : List (Nat × Mask × DWord)
  deriving Repr

/-- The context of a wave, for what it does itself and for what engines do for it; none where its block, launch, kernel or context
does not exist. -/
def State.cxAt (s : State) (sel : Sel) : Option Cx :=
  match s.block? sel.ref.lid sel.ref.rank, s.launch? sel.ref.lid with
  | some b, some l =>
    match s.kernel? l.hdr.entry, s.ctx? l.src.fn l.ctx with
    | some k, some c =>
      some { s := s, sel := sel, lch := l, krn := k, ctx := c, blk := b, rv := (b.wave sel.ref.wave).regs, alts := [] }
    | _, _ => none
  | _, _ => none

/-- The context of the selected group; none where no such group exists. -/
def State.cx? (s : State) : Option Cx :=
  match s.sel with
  | none => none
  | some sel =>
    match s.cxAt sel with
    | none => none
    | some c =>
      if sel.ref.wave < c.blk.waves.length && sel.grp < (c.blk.wave sel.ref.wave).groups.length then some c else none

/-- The context of a wave outside an issue. -/
def State.cxOf (s : State) (w : WaveRef) : Option Cx := s.cxAt { ref := w, grp := 0, inst := 0 }

def Cx.wv (c : Cx) : Wave := c.blk.wave c.sel.ref.wave

def Cx.setWv (c : Cx) (w : Wave) : Cx := { c with blk := c.blk.setWave c.sel.ref.wave w }

def Cx.g (c : Cx) : Group := c.wv.groups.getD c.sel.grp Group.default

/-- Put the block back into the state. -/
def Cx.close (c : Cx) : State := c.s.setBlock c.blk

def Cx.setRegs (c : Cx) (f : RegCtx → RegCtx) : Cx := c.setWv { c.wv with regs := f c.wv.regs }

def Cx.draw (c : Cx) (w : Nat) : BitVec w × Cx := let (x, s) := c.s.draw w; (x, { c with s := s })

/-- The wave executes its handler (spec/15 R285). -/
def Cx.inHandler (c : Cx) : Bool := c.wv.frame.isSome

/-- The core the block is resident on. -/
def Cx.core (c : Cx) : Nat := c.blk.core

def Cx.ref (c : Cx) : WaveRef := c.sel.ref

/-- The writer of a core write at a level. -/
def Cx.writer (c : Cx) (lvl : Level) (engine : Bool) : Writer :=
  { lvl := lvl, lid := some c.lch.lid, block := c.blk.rank, wave := c.sel.ref.wave, gang := c.lch.hdr.gangOf c.blk.rank,
    engine := engine, job := none }

/-! ### Groups and meeting points (spec/12 R209, R211) -/

/-- Hold the threads of a group whose PC has reached their meeting register. -/
def Wave.arrive (w : Wave) : Wave :=
  let heldIn (g : Group) : Mask := maskOf fun l => g.lanes.getLsbD l && w.mrOf l == g.pc && g.pc != mrNone
  { w with held := w.groups.foldl (fun m g => m ||| heldIn g) w.held
           groups := w.groups.map fun g => { g with lanes := g.lanes &&& ~~~(heldIn g) } }

/-- Release at x when every non-exited thread whose meeting register is x is held (R211). -/
def Wave.releaseAt (w : Wave) (x : DWord) : Wave :=
  let waiting := maskOf fun l => w.alive.getLsbD l && w.mrOf l == x
  if waiting != 0 && waiting &&& ~~~w.held == 0 then
    { w with held := w.held &&& ~~~waiting
             mr := (lanesOf waiting).foldl (fun m l => setAt mrNone l mrNone m) w.mr
             groups := w.groups ++ [{ lanes := waiting, pc := x, last := 0 }] }
  else w

/-- The meeting condition evaluated after any change: holds, releases, and empty groups dropped. -/
def Wave.meet (w : Wave) : Wave :=
  let w := w.arrive
  let xs := (lanesOf w.held).map w.mrOf
  let w := xs.foldl (fun w x => w.releaseAt x) w
  { w with groups := w.groups.filter fun g => g.lanes != 0 }

/-- Replace the selected group by others, with the meeting condition evaluated. -/
def Cx.setGroups (c : Cx) (gs : List Group) : Cx :=
  let w := c.wv
  let w := { w with groups := w.groups.take c.sel.grp ++ gs ++ w.groups.drop (c.sel.grp + 1) }
  c.setWv w.meet

/-- The selected group goes on at its PC plus n bytes. -/
def Cx.advance (c : Cx) (n : Nat) : Cx :=
  let g := c.g
  c.setGroups [{ g with pc := ptrAdd g.pc n, last := c.s.stamp }]

/-! ### Symbols (spec/04 R80 to R82) -/

def kBuffer : Nat := 0
def kBarrier : Nat := 1
def kQueue : Nat := 2
def kTrick : Nat := 3
def kTag : Nat := 4
def kAcc : Nat := 5

def Kernel.sym? (k : Kernel) (kind num : Nat) : Option SymRec := k.syms.find? fun r => r.kind == kind && r.num == num

/-- A symbol that is declared and bound, with a range of banks inside it (spec/07 R131). -/
def Cx.symOk (c : Cx) (kind num first count : Nat) : Bool :=
  match c.krn.sym? kind num with
  | none => false
  | some r => c.blk.bound.contains (kind, num) && (kind != kAcc || first + count ≤ r.count)

/-- The first physical segment of a buffer or queue symbol. -/
def Cx.segAt (c : Cx) (queue : Bool) (sym : Nat) : Nat :=
  match c.krn.sym? (if queue then kQueue else kBuffer) sym with
  | some r => c.blk.segBase + r.place
  | none => c.blk.segBase

/-- The bound segments of a buffer or queue symbol. -/
def Cx.segCount (c : Cx) (queue : Bool) (sym : Nat) : Nat :=
  match c.krn.sym? (if queue then kQueue else kBuffer) sym with
  | some r => r.count
  | none => 0

/-- The layout core writes use (R51, R247): a queue's segments are plain rows under swizzle 0. -/
def Cx.symTag (c : Cx) (queue : Bool) (sym : Nat) : BitVec 4 :=
  if queue then 0
  else match c.krn.sym? kBuffer sym with
    | some r => r.plSwz
    | none => 0

def Cx.bankAt (c : Cx) (sym : Nat) : Nat :=
  match c.krn.sym? kAcc sym with
  | some r => c.blk.bankBase + r.place
  | none => c.blk.bankBase

/-- The wave's group for bank ownership: sr.wave div g, or 0 when g is omitted (spec/07 R131). -/
def Cx.waveGroup (c : Cx) (sym : Nat) : Nat :=
  match c.krn.sym? kAcc sym with
  | some r => if r.wavesPerGroup == 0 then 0 else c.sel.ref.wave / r.wavesPerGroup
  | none => 0

def Block.bar? (b : Block) (sym : Nat) : Option BarState := b.bars.find? (·.sym == sym)
def Block.setBar (b : Block) (x : BarState) : Block := { b with bars := b.bars.map fun y => if y.sym == x.sym then x else y }
def Block.queue? (b : Block) (sym : Nat) : Option QueueState := b.queues.find? (·.sym == sym)
def Block.setQueue (b : Block) (x : QueueState) : Block :=
  { b with queues := b.queues.map fun y => if y.sym == x.sym then x else y }
def Block.trick? (b : Block) (sym : Nat) : Option TrickState := b.tricks.find? (·.sym == sym)
def Block.setTrick (b : Block) (x : TrickState) : Block :=
  { b with tricks := b.tricks.map fun y => if y.sym == x.sym then x else y }
def Block.tag? (b : Block) (sym : Nat) : Option TagState := b.tags.find? (·.sym == sym)
def Block.setTag (b : Block) (x : TagState) : Block := { b with tags := b.tags.map fun y => if y.sym == x.sym then x else y }

/-- The physical unit that holds a symbol, for PUNIT (R315). -/
def Block.unitOf (b : Block) (k : Kernel) (kind sym : Nat) : Nat :=
  let place := match k.sym? kind sym with
    | some r => r.place
    | none => 0
  if kind == kBuffer then b.segBase + place
  else if kind == kAcc then b.bankBase + place
  else if kind == kBarrier then (b.bar? sym).elim 0 (·.unit)
  else if kind == kQueue then (b.queue? sym).elim 0 (·.unit)
  else if kind == kTrick then (b.trick? sym).elim 0 (·.unit)
  else if kind == kTag then (b.tag? sym).elim 0 (·.unit)
  else 0

/-! ### Tags (spec/03 R71) -/

/-- One issue on a tag: the count rises and the ready bit clears. -/
def Block.tagIssue (b : Block) (sym : Nat) : Block :=
  match b.tag? sym with
  | some t => b.setTag { t with count := t.count + 1, ready := false }
  | none => b

/-- One completion on a tag: the count falls, and at 0 the ready bit is set. -/
def Block.tagDone (b : Block) (sym : Nat) : Block :=
  match b.tag? sym with
  | some t => b.setTag { t with count := t.count - 1, ready := if t.count ≤ 1 then true else t.ready }
  | none => b

/-- Wake the waves of a block that wait to try their instruction again. -/
def Block.wake (b : Block) : Block :=
  { b with waves := b.waves.map fun w => if w.wait == some .retry || w.wait == some .phase then { w with wait := none } else w }

/-! ### The header of a deck (spec/04 R91; log 19) -/

/-- A type-length-version record, its head laid out as spec/04 R76 says, required and of version 1. -/
def deckRecord (type : Nat) (body : List Byte) : List Byte := natBytes 8 (type + 2 ^ 16 + 2 ^ 24 + 2 ^ 32 * body.length) ++ body

def nat16s (ns : List Nat) : List Byte := ns.flatMap (natBytes 2)

/-- The 4 KiB block header: records of barriers, queues, tricks and tags, of the handler windows of the block's waves, and, given, the
pointer to the gang save range. The records' bodies are the model's (log 19). -/
def Block.header (b : Block) (saveRange : Nat) : List Byte :=
  let bars := b.bars.flatMap fun k => deckRecord 1 (nat16s [k.sym, k.unit, k.p.toNat, k.e, k.a, k.q, k.lastSite.getD 0xFFFF, 0])
  let queues := b.queues.flatMap fun q => deckRecord 2 (nat16s [q.sym, q.unit, q.g, q.ring.length] ++ wordsBytes q.ring)
  let tricks := b.tricks.flatMap fun t => deckRecord 3 (nat16s [t.sym, t.unit, t.count, 0])
  let tags := b.tags.flatMap fun t => deckRecord 4 (nat16s [t.sym, t.unit, t.ready.toNat, t.count])
  let windows := b.waves.zipIdx.flatMap fun w => match w.1.frame with
    | some f => deckRecord 5 (natBytes 8 w.2 ++ natBytes 8 f.window)
    | none => []
  let save := if saveRange == 0 then [] else deckRecord 6 (natBytes 8 saveRange)
  let all := bars ++ queues ++ tricks ++ tags ++ windows ++ save
  all.take 4096 ++ List.replicate (4096 - all.length) 0

/-- The gang of a block. -/
def State.gangOf? (s : State) (b : Block) : Option Gang :=
  (s.launch? b.lid).bind fun l => if l.hdr.hasGang then s.gang? b.lid (l.hdr.gangOf b.rank) else none

/-- The lowest rank among the blocks of a gang that have not retired. -/
def State.lowestOf (s : State) (l : Launch) (g : Gang) : Option Nat :=
  minList ((s.blocks.filter fun x => x.lid == l.lid && x.place != .retired && l.hdr.gangOf x.rank == g.num).map (·.rank))

/-- The save range that a block's header names: the header of the gang's lowest-ranked block does (spec/08 R155). -/
def State.saveRangeOf (s : State) (b : Block) : Nat :=
  match s.launch? b.lid, s.gangOf? b with
  | some l, some g => if s.lowestOf l g == some b.rank then g.saveRange else 0
  | _, _ => 0

def State.writeHeader (s : State) (b : Block) : State := s.devPut b.deck (b.header (s.saveRangeOf b))

/-- Count a completion on a block's tag and wake its waves; the deck of a block that is off its core, or halted, follows (spec/03 R75). -/
def State.completeTag (s : State) (w : WaveRef) (tag : Nat) : State :=
  match s.block? w.lid w.rank with
  | some b =>
    let b := (b.tagDone tag).wake
    let s := s.setBlock b
    if b.place == .away || b.halted then s.writeHeader b else s
  | none => s

/-! ### Deck pool (spec/04 R84, R88, R91) -/

/-- Take n bytes of the context's deck pool, aligned to 4 KiB. -/
def State.takePool (s : State) (t num n : Nat) : Option (Nat × State) :=
  match s.ctx? t num with
  | none => none
  | some c =>
    let need := (n + 4095) / 4096 * 4096
    match freeRange c.poolBase c.poolSize c.pool need with
    | none => none
    | some a => some (a, s.setCtx { c with pool := (a, need) :: c.pool })

def State.freePool (s : State) (t num a : Nat) : State :=
  match s.ctx? t num with
  | none => s
  | some c => s.setCtx { c with pool := c.pool.filter fun r => r.1 != a }

/-- The size of a handler window (R311). -/
def windowSize (nh : Nat) : Nat := 4096 + (8192 + nh * 4 * Config.W + nh * Config.W / 8 + 4095) / 4096 * 4096

/-- The stride of a wave area (R91). -/
def waveStride (nv : Nat) : Nat := (8192 + nv * 4 * Config.W + nv * Config.W / 8 + 4095) / 4096 * 4096 + 65536

/-- The size of a block's deck (R91). -/
def deckBytes (nv waves segs banks : Nat) : Nat := 4096 + waves * waveStride nv + segs * 1024 + banks * 2048 + 4096

/-- Where the wave area of a wave begins in its block's deck. -/
def deckAreaAt (b : Block) (nv w : Nat) : Nat := b.deck + 4096 + w * waveStride nv

/-- Where the deck, or a handler's window, holds register n of a wave: its row and its unwritten tags (R91, R311). -/
def Block.regAt (b : Block) (nv wave : Nat) (window : Bool) (n : Nat) : Nat × Nat :=
  match (b.wave wave).frame, window with
  | some f, true =>
    let a := f.window + 4096 + 0x2000
    (a + 512 * n, a + 512 * (b.wave wave).regs.nv + 16 * n)
  | _, _ =>
    let a := deckAreaAt b nv wave + 0x2000
    (a + 512 * n, a + 512 * nv + 16 * n)

/-! ### Traps (spec/17) -/

def tIllop : Nat := 1
def tAlign : Nat := 2
def tUninit : Nat := 3
def tStallchk : Nat := 4
def tBadHandle : Nat := 5
def tSwizzle : Nat := 6
def tMemFault : Nat := 7
def tBandOwn : Nat := 8
def tBkpt : Nat := 9
def tTrap : Nat := 10
def tUce : Nat := 11

/-- A trap with no lane, register or symbol. -/
def plainTrap (cls cause info : Nat) : TrapInfo :=
  { cls := cls, cause := cause, info := BitVec.ofNat 64 info, lane := 0xFF, lanes := 0, vreg := 0xFFF, symKind := 0xF, sym := 0,
    offset := 0, paddr := 0, punit := 0 }

/-- A trap raised by lanes: the lowest one reports. -/
def laneTrap (cls cause : Nat) (info : DWord) (lanes : Mask) : TrapInfo :=
  { plainTrap cls cause 0 with info := info, lane := lowestLane lanes, lanes := lanes }

/-- The value of sr.trapc (R306). -/
def TrapInfo.trapc (t : TrapInfo) : DWord :=
  BitVec.ofNat 64 (t.cls * 2 ^ 60 + t.cause * 2 ^ 56 + t.info.toNat % 2 ^ 56)

/-- INFO of a memory line: address bits [55:6] (R306). -/
def infoLine (p : DWord) : DWord := BitVec.ofNat 64 (p.toNat % 2 ^ 56 / 64)

/-- INFO of a scratch segment (R306). -/
def infoScratch (seg : Nat) (queue : Bool) (sym found want : Nat) : DWord :=
  BitVec.ofNat 64 (2 ^ 55 + seg % 2 ^ 16 * 2 ^ 25 + queue.toNat * 2 ^ 24 + sym * 2 ^ 16 + found * 16 + want)

/-- The context delivers a class to its handler (R309). A wave in its handler gets none (R312), and class 0xB has none. -/
def Cx.delivers (c : Cx) (cls : Nat) : Bool :=
  c.ctx.hentry != 0 && c.ctx.hmask cls && !c.inHandler && decide (1 ≤ cls) && decide (cls ≤ 10)

/-- The frame page of a window (R311). -/
def framePage (f : Frame) (handler : RegCtx) : List Byte :=
  natBytes 8 f.trap.info.trapc.toNat ++ natBytes 8 f.trap.pc.toNat ++ natBytes 16 f.trap.inst ++ natBytes 16 f.trap.mask.toNat ++
  natBytes 4 handler.fstat.toNat ++ natBytes 4 f.regs.fstat.toNat ++ List.replicate (4096 - 0x38) 0

/-- Enter the handler (R310): the other groups stop, a window is taken, the frame is written, and the lanes of the trapping
group go on at HENTRY with no meeting register. With no room in the pool the wave is blocked until HANDLER_ENTRY tries again. -/
def Cx.enterHandler (c : Cx) (r : TrapRec) : Cx :=
  match c.s.takePool c.ctx.tenant c.ctx.num (windowSize c.ctx.hnv) with
  | none => c.setWv { c.wv with trap := some r, wait := some .room }
  | some (a, s) =>
    let w := c.wv
    let others := w.groups.filter fun g => g.lanes &&& r.mask == 0
    let f : Frame := { trap := r, regs := w.regs, groups := others, held := w.held, mr := w.mr, window := a }
    let regs := RegCtx.fresh c.ctx.hnv [c.lch.hdr.args]
    Cx.setWv { c with s := s.devPut a (framePage f regs) }
      { w with frame := some f, trap := none, wait := none, held := 0, mr := [], pend := [], regs := regs,
               groups := [{ lanes := r.mask, pc := c.ctx.hentry, last := 0 }] }

/-- TAKING A TRAP (R307 to R313): sr.trapmask holds the lanes of the issuing group, as R308 says for every class (log 70: spec/12 R216
says the active lanes for TRAP and BKPT). The trapping instruction has no effect; a delivered trap enters the handler, and any other
waits with the wave for the step that takes it up (BLOCK_SWAP_OUT, LAUNCH_END, DEBUG_HALT_BKPT, LAUNCH_ROLLBACK). -/
def Cx.takeTrap (c : Cx) (t : TrapInfo) : Cx :=
  let g := c.g
  let r : TrapRec := { info := t, pc := g.pc, inst := c.sel.inst, mask := g.lanes }
  if c.delivers t.cls then c.enterHandler r
  else c.setWv { c.wv with trap := some r, wait := some .traps }

/-- Where the flags of what the wave issues now go. -/
def Cx.flagsTo (c : Cx) : FlagsTo := if c.inHandler then .handler else .kernel

/-- The flags of what a wave issued in its handler are discarded once it has returned (R310). -/
def FlagsTo.leave : FlagsTo → FlagsTo
  | .handler => .nobody
  | f => f

/-- A wave returns from its handler: nothing of it is left to take flags. -/
def State.leaveFlags (s : State) (w : WaveRef) : State :=
  let op (o : EngOp) : EngOp := if o.wave == w then { o with flagsTo := o.flagsTo.leave } else o
  let job (j : Job) : Job := if j.wave == some w then { j with flagsTo := j.flagsTo.leave } else j
  { s with cores := s.cores.map fun k => if k.engine.isEmpty then k else { k with engine := k.engine.map op }, jobs := s.jobs.map job }

def Block.leaveFlags (b : Block) (wave : Nat) : Block :=
  { b with tricks := b.tricks.map fun t => match t.op with
      | some (w, f, i) => if w == wave then { t with op := some (w, f.leave, i) } else t
      | none => t }

/-- RETURNING FROM A TRAP (spec/15 R287): the window is discarded, the lanes of sr.trapmask resume as one group at a new PC, and
everything else stands as it was interrupted. Threads that exited in the handler do not resume. -/
def Cx.leaveHandler (c : Cx) (pc : DWord) : Cx :=
  match c.wv.frame with
  | none => c
  | some f =>
    let w := c.wv
    let lanes := f.trap.mask &&& w.alive
    let w : Wave := { w with frame := none, regs := f.regs, held := f.held, mr := f.mr, pend := [],
                             groups := f.groups ++ [{ lanes := lanes, pc := pc, last := c.s.stamp }] }
    let s := (c.s.freePool c.ctx.tenant c.ctx.num f.window).leaveFlags c.ref
    Cx.setWv { c with s := s, blk := c.blk.leaveFlags c.sel.ref.wave } w.meet

/-! ### Fault records (R315, R332) -/

/-- The instruction index of a PC (spec/04 R78): 0xFFFF_FFFF for none. -/
def Kernel.indexOf (k : Kernel) (pc : DWord) : Nat :=
  (k.offsets.findIdx? fun (o : Nat) => ptrAdd k.entry (o : Int) == pc).getD 0xFFFFFFFF

/-- The 16 words of a fault record (R315). -/
def faultWords (k : Kernel) (l : Launch) (b : Block) (wave : Nat) (pipe : Nat) (inHandler : Bool) (index : Nat) (t : TrapInfo)
    (lost : Bool) : List DWord :=
  let w0 := 2 ^ 55 + lost.toNat * 2 ^ 54 + inHandler.toNat * 2 ^ 53 + l.replay.toNat * 2 ^ 52 + 1 * 2 ^ 40 + t.cls * 2 ^ 36
    + t.cause * 2 ^ 32 + l.src.q * 2 ^ 16 + k.index
  let w4 := wave * 2 ^ 48 + t.lane * 2 ^ 40 + t.vreg * 2 ^ 28 + t.symKind * 2 ^ 24 + t.sym * 2 ^ 16
  let unit := if t.symKind < 6 then b.unitOf k t.symKind t.sym + t.punit else 0
  [BitVec.ofNat 64 w0, l.src.seq, BitVec.ofNat 64 (index * 2 ^ 32 + b.barsite), BitVec.ofNat 64 b.rank, BitVec.ofNat 64 w4,
   t.offset, t.lanes.extractLsb' 0 64, t.lanes.extractLsb' 64 64,
   BitVec.ofNat 64 (unit * 2 ^ 32 + pipe * 2 ^ 10 + b.core), BitVec.ofNat 64 t.paddr.toNat, t.trapc, 0, 0, 0, 0, 0]

/-- Write a record to the tenant's fault queue and raise its interrupt; a full ring loses it (R317, R332). -/
def State.writeFault (s : State) (t : Nat) (words : Bool → List DWord) : State :=
  let tn := s.tenant t
  let full := tn.faults.full
  let (s, r) := s.ringPut tn.faults 128 words
  let s := s.setTenant t { s.tenant t with faults := r }
  if tn.faults.enabled && !full then s.emit (.msix (t + 1) 64) else s

/-- Write the record of a wave's pending trap (R313). -/
def State.recordTrap (s : State) (b : Block) (wave : Nat) (r : TrapRec) : State :=
  match s.launch? b.lid with
  | none => s
  | some l =>
    match s.kernel? l.hdr.entry with
    | none => s
    | some k =>
      let w := b.wave wave
      -- a trap in a handler names the handler's instruction, where the loader knows that code as a kernel's
      let at_ := if w.frame.isSome then (s.ctx? l.src.fn l.ctx).bind fun c => s.kernel? c.hentry else some k
      s.writeFault l.src.fn (faultWords k l b wave w.pipe w.frame.isSome (at_.elim 0xFFFFFFFF (·.indexOf r.pc)) r.info)

/-! ### Barriers (spec/14 R257 to R261) -/

/-- Bit of a thread in a block. -/
def threadBit (wave lane : Nat) : ThreadSet := (1 : ThreadSet) <<< (wave * 128 + lane)

/-- The threads of a wave's lanes. -/
def threadsOf (wave : Nat) (m : Mask) : ThreadSet := (m.setWidth 4096) <<< (wave * 128)

def popThreads (t : ThreadSet) : Nat := (List.range 4096).foldl (fun n i => if t.getLsbD i then n + 1 else n) 0

/-- Arrivals of threads: A rises and their arrived bits are set. -/
def BarState.arrive (b : BarState) (t : ThreadSet) (n : Nat) (site : Option Nat) : BarState :=
  { b with a := b.a + n, arrived := b.arrived ||| t, lastSite := match site with | some x => some x | none => b.lastSite }

/-- Drops of threads: A and Q rise and their dropped bits are set (R259 step 1). -/
def BarState.drop (b : BarState) (t : ThreadSet) (n : Nat) (site : Option Nat) : BarState :=
  { b with a := b.a + n, q := b.q + n, dropped := b.dropped ||| t,
           lastSite := match site with | some x => some x | none => b.lastSite }

/-- A thread's exit on one barrier (R259 step 1, R213). -/
def BarState.exit (b : BarState) (t : ThreadSet) : BarState :=
  if b.dropped &&& t != 0 then b
  else if b.arrived &&& t != 0 then { b with q := b.q + 1, dropped := b.dropped ||| t }
  else b.drop t 1 none

/-- Completion (R259 step 3): whether A = E, and the barrier in its next phase. A phase with E = 0 never completes (R260). -/
def BarState.complete (b : BarState) : Bool × BarState :=
  if b.a == b.e && b.e != 0 then
    (true, { b with p := b.p + 1, e := b.e - b.q, a := 0, q := 0, arrived := 0, lastSite := none })
  else (false, b)

/-- Whether a wave's wait on a barrier ends at a phase: (P − token) mod 2^16 ≠ 0 (R260). -/
def waitOver (p token : BitVec 16) : Bool := p != token

/-- The threads of a block in one of its waves, not exited. -/
def Block.threads (b : Block) : Nat := b.waves.foldl (fun n w => n + laneCount w.present) 0

/-- Bind one symbol (R82): barriers, queues, tricks and tags with their state at binding. -/
def Block.bindSym (b : Block) (r : SymRec) (unit : Nat) : Block :=
  let b := { b with bound := (r.kind, r.num) :: b.bound.filter (· != (r.kind, r.num)) }
  if r.kind == kBarrier then
    { b with bars := { sym := r.num, unit := unit, p := 0, e := b.threads, a := 0, q := 0, arrived := 0, dropped := 0,
                       lastSite := none } :: b.bars.filter (·.sym != r.num) }
  else if r.kind == kQueue then
    { b with queues := { sym := r.num, unit := unit, ring := [], g := 0 } :: b.queues.filter (·.sym != r.num) }
  else if r.kind == kTrick then
    { b with tricks := { sym := r.num, unit := unit, signed := 0, count := 0, op := none } :: b.tricks.filter (·.sym != r.num) }
  else if r.kind == kTag then
    { b with tags := b.tags.filter (·.sym != r.num) ++ [{ sym := r.num, unit := unit, ready := false, count := 0 }] }
  else b

/-- Unbind a span symbol (R82). -/
def Block.unbindSym (b : Block) (r : SymRec) : Block :=
  { b with bound := b.bound.filter (· != (r.kind, r.num))
           bars := if r.kind == kBarrier then b.bars.filter (·.sym != r.num) else b.bars
           queues := if r.kind == kQueue then b.queues.filter (·.sym != r.num) else b.queues
           tricks := if r.kind == kTrick then b.tricks.filter (·.sym != r.num) else b.tricks }

/-- The registers a site's entry omits are dead in all lanes (spec/04 R93); the registers of a handler's window are no kernel
registers and stay, the interrupted ones die in the frame. -/
def Wave.siteDeaths (w : Wave) (live : List Nat) : Wave :=
  let cut (r : RegCtx) : RegCtx := { r with vregs := r.vregs.zipIdx.map fun x => if live.contains x.2 then x.1 else [] }
  match w.frame with
  | none => { w with regs := cut w.regs }
  | some f => { w with frame := some { f with regs := cut f.regs } }

/-- A fresh span buffer holds zeros or what its segments held (R82): freely chosen, segment by segment (log 12). Fresh banks are
unallocated. -/
def State.freshUnits (s : State) (core first count : Nat) (banks : Bool) : State :=
  (List.range count).foldl (fun s i =>
    let k := s.core core
    if banks then s.setCore core { k with banks := setAt { alloc := false, owner := 0, words := [] } (first + i)
                                              { alloc := false, owner := 0, words := [] } k.banks }
    else
      let (z, s) := s.draw 1
      if z == 1 then s.setCore core { k with segs := setAt { data := 0, tag := 0 } (first + i) { data := 0, tag := 0 } k.segs }
      else s) s

/-- The lowest physical unit of a kind that no resident block of the core has bound (R86: the Dealer's choice); barriers and queues
take slots of one kind. -/
def State.freeUnit (s : State) (b : Block) (kind : Nat) : Nat :=
  let here := b :: s.blocks.filter fun x => x.place == .resident && x.core == b.core && !(x.lid == b.lid && x.rank == b.rank)
  let used := here.flatMap fun x =>
    if kind == kBarrier || kind == kQueue then x.bars.map (·.unit) ++ x.queues.map (·.unit)
    else if kind == kTrick then x.tricks.map (·.unit)
    else if kind == kTag then x.tags.map (·.unit)
    else []
  ((List.range 64).find? fun n => !used.contains n).getD 0

/-- What a completed phase does at its site (R261): span symbols bind and unbind, registers die, BARSITE is set. A phase with no
site changes nothing. -/
def Cx.phaseAtSite (c : Cx) (site : Nat) : Cx :=
  let ends := c.krn.syms.filter fun r => r.last == site && !(r.first == 0 && r.last == 0xFFFF)
  let starts := c.krn.syms.filter fun r => r.first == site && !(r.first == 0 && r.last == 0xFFFF)
  let b := ends.foldl (fun b r => b.unbindSym r) c.blk
  let b := starts.foldl (fun b r => b.bindSym r (c.s.freeUnit b r.kind)) b
  let s := starts.foldl (fun s r =>
    if r.kind == kBuffer || r.kind == kQueue then s.freshUnits b.core (b.segBase + r.place) r.count false
    else if r.kind == kAcc then s.freshUnits b.core (b.bankBase + r.place) r.count true else s) c.s
  let live := (c.krn.sites[site - 1]?).elim [] (·.live)
  let b := { b with barsite := site, waves := b.waves.map fun w => w.siteDeaths live }
  { c with s := s, blk := b }

/-- Every non-exited wave of the block waits in BARW or BARS, and this completion ends every one of those waits (R303). -/
def Block.softStop (b : Block) (k : BarState) : Bool :=
  b.waves.all fun w => w.alive == 0 || (match w.wait with
    | some (.barw sym token) => sym == k.sym && waitOver k.p token
    | _ => false)

/-- Release the waits that a phase of a barrier ends. -/
def Block.releaseWaits (b : Block) (bar : Nat) (p : BitVec 16) : Block :=
  { b with waves := b.waves.map fun w => match w.wait with
      | some (.barw sym token) => if sym == bar && waitOver p token then { w with wait := none } else w
      | _ => w }

def Block.releaseBar (b : Block) (k : BarState) : Block := b.releaseWaits k.sym k.p

/-! ### Scratch writes and phases (spec/09 R166, spec/15 R275) -/

/-- A scratch write by a wave of a block. -/
def Unsettled.inBlock (u : Unsettled) (b : Block) : Bool := u.scratch && u.wave.lid == b.lid && u.wave.rank == b.rank

/-- A wave has arrived on a barrier: its scratch writes so far are before the arrival. -/
def State.stbArrived (s : State) (w : WaveRef) (sym : Nat) : State :=
  let mark (u : Unsettled) : Unsettled := if u.scratch && u.wave == w then { u with arrived := sym :: u.arrived } else u
  { s with unsettled := s.unsettled.map mark }

/-- A phase of a barrier has completed: the writes before arrivals in it are ordered by it. -/
def State.phaseDone (s : State) (b : Block) (sym : Nat) : State :=
  let mark (u : Unsettled) : Unsettled :=
    if u.inBlock b && u.arrived.contains sym then { u with arrived := u.arrived.filter (· != sym), phased := sym :: u.phased } else u
  { s with unsettled := s.unsettled.map mark }

/-- A wave of a block has waited for a phase of a barrier: it sees the writes that the phase orders. -/
def State.waitPassed (s : State) (b : Block) (wave sym : Nat) : State :=
  let mark (u : Unsettled) : Unsettled := if u.inBlock b && u.phased.contains sym then { u with seenBy := wave :: u.seenBy } else u
  { s with unsettled := s.unsettled.map mark }

/-- The waves whose waits a barrier's phase ends have waited for it. -/
def State.waitsEnd (s : State) (b : Block) (k : BarState) : State :=
  b.waves.zipIdx.foldl (fun s x => match x.1.wait with
    | some (.barw sym token) => if sym == k.sym && waitOver k.p token then s.waitPassed b x.2 sym else s
    | _ => s) s

/-- After arrivals on a barrier: completion, the site's effects, a stop where the command processor wants one (R303, R355), and
the waits. -/
def Cx.barSettle (c : Cx) (k : BarState) : Cx :=
  let site := k.lastSite
  let (done, k) := k.complete
  let c := { c with blk := c.blk.setBar k }
  if !done then c
  else
    let c := { c with s := (c.s.phaseDone c.blk k.sym).waitsEnd c.blk k }
    let c := match site with
      | some n => c.phaseAtSite n
      | none => c
    let k := (c.blk.bar? k.sym).getD k
    if (c.blk.stopWanted || (c.blk.moveWanted && c.blk.window)) && site.isSome && c.blk.softStop k then
      { c with blk := { c.blk with stopped := true, stopSite := site.getD 0, stopBar := some (k.sym, k.p) } }
    else { c with blk := (c.blk.releaseBar k).wake }

/-! ### Exit and retirement (spec/12 R213, spec/08 R150) -/

/-- Threads exit: their lane state, and the barriers they leave. Their groups and meeting points follow at the end of the
instruction. -/
def Cx.exitLanes (c : Cx) (m : Mask) : Cx :=
  let w := c.wv
  let c := c.setWv { w with exited := w.exited ||| m, held := w.held &&& ~~~m }
  c.blk.bars.foldl (fun c k =>
    let c := { c with s := c.s.stbArrived c.ref k.sym }
    let k := (c.blk.bar? k.sym).getD k
    let k := (lanesOf m).foldl (fun k l => k.exit (threadBit c.sel.ref.wave l)) k
    c.barSettle k) c

end Sys2Proof.Machine
end

