-- ==== Sys2Proof/Machine/Operands.lean ====
section
/-!
DEFINITION. The operand forms (spec/11 R183, R185, R196; spec/12 to 15) and the issue of one instruction for one group: the
checks in the order of spec/17 R307, the guard (R182), the stall hazards (R187 to R189), last uses (R93, R183), writes, and
the group's advance (R179).
-/

namespace Sys2Proof

/-- Width of an integer type. -/
def ITy.width : ITy → Nat
  | .i8 | .n8 => 8
  | .i16 | .n16 => 16
  | .i32 | .n32 => 32
  | .i64 | .n64 => 64

def ITy.signed : ITy → Bool
  | .i8 | .i16 | .i32 | .i64 => true
  | .n8 | .n16 | .n32 | .n64 => false

def ITy.is64 (t : ITy) : Bool := t.width == 64

/-- Least and greatest value of a type (spec/05 R97). -/
def ITy.least (t : ITy) : Int := if t.signed then -(2 ^ (t.width - 1)) else 0

def ITy.greatest (t : ITy) : Int := if t.signed then 2 ^ (t.width - 1) - 1 else 2 ^ t.width - 1

/-- A value clamped to a type's range. -/
def ITy.clamp (t : ITy) (x : Int) : Int := max t.least (min t.greatest x)

/-- The value of T that a 64-bit word's low bits stand for. -/
def ITy.read (t : ITy) (x : DWord) : Int := readInt t.signed t.width x

/-- The 64-bit word that an integer's w-bit pattern extends to by T's signedness (R196). -/
def ITy.result (t : ITy) (x : Int) : DWord := extend64 t.signed t.width (lowBits t.width x)

/-- The immediate as a 64-bit word, with the signedness of the type (R186). -/
def ITy.imm (t : ITy) (m : BitVec 32) : DWord := if t.signed then m.signExtend 64 else m.setWidth 64

end Sys2Proof

namespace Sys2Proof.Machine

/-! ### Register operands -/

/-- One register operand: n consecutive registers from num, read or written, and whether its read is arithmetic (spec/04
R94). -/
structure Opd where
  kind : RegKind
  num : Nat
  n : Nat
  rd : Bool
  wr : Bool
  arith : Bool
  deriving DecidableEq, Repr

def Opd.regs (o : Opd) : List Nat := (List.range o.n).map (o.num + ·)

def rdV (n : BitVec 12) (wide : Bool) : Opd := { kind := .v, num := n.toNat, n := 1 + wide.toNat, rd := true, wr := false, arith := true }
/-- A read that copies or stores the value, no arithmetic read. -/
def rdRaw (n : BitVec 12) (wide : Bool) : Opd := { rdV n wide with arith := false }
def wrV (n : BitVec 12) (wide : Bool) : Opd := { kind := .v, num := n.toNat, n := 1 + wide.toNat, rd := false, wr := true, arith := false }
def rdS (n : BitVec 8) (k : Nat) : Opd := { kind := .s, num := n.toNat, n := k, rd := true, wr := false, arith := false }
def wrS (n : BitVec 8) (k : Nat) : Opd := { kind := .s, num := n.toNat, n := k, rd := false, wr := true, arith := false }
def rdP (n : BitVec 3) : Opd := { kind := .p, num := n.toNat, n := 1, rd := true, wr := false, arith := false }
def wrP (n : BitVec 3) : Opd := { kind := .p, num := n.toNat, n := 1, rd := false, wr := true, arith := false }

/-- What an instruction says of itself to the issue: its bytes, its fixed latency (spec/11 R188; 0: variable, interlocked), its
register operands (sources in the order of its assembly form, then destinations), the registers each last-use bit marks, and
what its decode checks need: a field that is BADREG of itself, a special register that R95 does not list, symbols (kind,
number, first bank, banks), a level with whether W and whether D and S are refused, and the handle that fails its check. -/
structure Info where
  len : Nat
  lat : Nat := 0
  uni : Bool := false
  ops : List Opd := []
  lastA : List Nat := []
  lastB : List Nat := []
  lastC : List Nat := []
  badReg : Bool := false
  badSr : Bool := false
  syms : List (Nat × Nat × Nat × Nat) := []
  level : Option (Level × Bool × Bool) := none
  /-- The second level of a drain with .amx. -/
  level2 : Option (Level × Bool × Bool) := none
  handle : Cx → Option Nat := fun _ => none

/-! ### Decode checks that need the state (spec/11 R193) -/

def illop (cause : Nat) : TrapInfo := plainTrap tIllop cause 0

/-- A vector operand names registers below NV, a pair begins at an even one (spec/04 R90, spec/11 R185). -/
def Cx.opdOk (c : Cx) (o : Opd) : Bool :=
  o.kind != .v || (decide (o.num + o.n ≤ c.rv.nv) && (o.n != 2 || o.num % 2 == 0))

def Cx.levelBad (c : Cx) : Option (Level × Bool × Bool) → Bool
  | none => false
  | some (l, noW, noDS) => (l == .w && noW) || ((l == .d || l == .s) && noDS) || (l == .g && !c.lch.hdr.hasGang)

/-- Causes 0x08 to 0x0B of R193 in order, then BADHANDLE. -/
def Cx.decodeTrap (c : Cx) (i : Info) : Option TrapInfo :=
  if i.badReg || i.ops.any (fun o => !c.opdOk o) then some (illop 0x08)
  else if i.badSr then some (illop 0x09)
  else if i.syms.any (fun y => !c.symOk y.1 y.2.1 y.2.2.1 y.2.2.2) then some (illop 0x0A)
  else if c.levelBad i.level || c.levelBad i.level2 then some (illop 0x0B)
  else match i.handle c with
    | some hn => some (plainTrap tBadHandle 0 hn)
    | none => none

/-! ### Stall hazards (spec/11 R187 to R189; log 13) -/

/-- The pending results that an instruction of the group meets on a register operand. -/
def Cx.hazards (c : Cx) (o : Opd) : List Pending :=
  c.wv.pend.filter fun e => !(e.kind == .p && e.num == 7) && e.kind == o.kind && decide (0 < e.left) && o.regs.contains e.num && (e.lanes &&& c.g.lanes) != 0

/-- One pending result in what the instruction reads: in each lane either the result or, where `chain` still runs, the value
before it. -/
def Cx.viewOne (x : Cx × Mask) (e : Pending) : Cx × Mask :=
  let (b, c) := x.1.draw 128
  let old := e.lanes &&& c.g.lanes &&& x.2 &&& b
  match e.kind with
  | .v => ({ c with rv := c.rv.setRow e.num old fun l => e.oldRow.getD l none }, old)
  | .p => ({ c with rv := c.rv.setPred e.num old e.oldBits }, old)
  | .s => ({ c with alts := (e.num, old, e.oldBits.setWidth 64) :: c.alts }, old)

/-- The registers as the instruction reads them: for each register it reads, the pending results from the newest on. -/
def Cx.view (c : Cx) (ops : List Opd) : Cx :=
  ops.foldl (fun c o =>
    o.regs.foldl (fun c n => ((c.hazards { o with num := n, n := 1 }).foldl Cx.viewOne (c, BitVec.allOnes 128)).1) c) c

/-- The guard predicate as an operand. -/
def guardOpd (h : Hdr) : Opd := rdP h.gp

/-- The lanes of the group whose guard is true (R182). -/
def Cx.guardMask (c : Cx) (h : Hdr) : Mask :=
  let p := c.rv.pred h.gp.toNat
  c.g.lanes &&& (if h.gn then ~~~p else p)

def RegKind.code : RegKind → Nat
  | .v => 0
  | .s => 1
  | .p => 2

/-- STALLCHK on the first operand with a pending result (R189, R306). -/
def Cx.stallTrap (c : Cx) (ops : List Opd) (lanes : Mask) : Option TrapInfo :=
  match ops.flatMap c.hazards with
  | [] => none
  | e :: _ =>
    let base := if c.inHandler then c.ctx.hentry else c.lch.hdr.entry
    let off := (e.ipc.toNat + 2 ^ 56 - base.toNat % 2 ^ 56) % 2 ^ 56 / 4 % 2 ^ 32
    some { laneTrap tStallchk 0 (BitVec.ofNat 64 (e.kind.code * 2 ^ 44 + off * 2 ^ 12 + e.num)) lanes with
             vreg := if e.kind == .v then e.num else 0xFFF }

/-! ### The unwritten check (spec/04 R94) -/

/-- The active lanes in which a register of the operand is unwritten. -/
def Cx.unwritten (c : Cx) (act : Mask) (o : Opd) : Mask :=
  if o.arith then maskOf fun l => act.getLsbD l && o.regs.any fun n => (c.rv.lane n l).isNone else 0

def Cx.uninitTrap (c : Cx) (act : Mask) (ops : List Opd) : Option TrapInfo :=
  match ops.find? fun o => c.unwritten act o != 0 with
  | none => none
  | some o => some { laneTrap tUninit 0 (BitVec.ofNat 64 o.num) (c.unwritten act o) with vreg := o.num }

/-! ### Uncorrectable errors of registers (spec/02 R54, spec/17 R319) -/

/-- An uncorrectable error met by the lanes of an instruction (R319). -/
def uceTrap (cause : Nat) (lanes : Mask) : TrapInfo := laneTrap tUce cause 0 lanes

/-- A line of the register SRAM that holds a register of the wave, of its deck or of its handler's window. -/
def RcLine.ofWave (x : RcLine) (w : WaveRef) (window : Bool) : Bool :=
  x.lid == w.lid && x.rank == w.rank && x.wave == w.wave && x.window == window

/-- The active lanes that read a register with a double-bit error. -/
def Cx.regWorn (c : Cx) (act : Mask) (window : Bool) (regs : List Nat) : Mask :=
  let lines := (c.s.core c.core).regCache.filter fun x => x.ofWave c.ref window && regs.contains x.reg && x.bad != 0
  if lines.isEmpty then 0 else maskOf fun l => act.getLsbD l && lines.any fun x => x.bad.getLsbD (l / 2)

/-- The vector registers that an instruction reads. -/
def Info.reads (i : Info) : List Nat := (i.ops.filter fun o => o.kind == .v && o.rd).flatMap (·.regs)

/-- The vector registers that an instruction writes. -/
def Info.writes (i : Info) : List Nat := (i.ops.filter fun o => o.kind == .v && o.wr).flatMap (·.regs)

/-- Registers, of the deck or of the handler's window, that are not resident. -/
def Cx.absent (c : Cx) (window : Bool) (regs : List Nat) : List Nat :=
  let k := c.s.core c.core
  regs.filter fun n => !k.regCache.any fun x => x.ofWave c.ref window && x.reg == n

/-- The registers that the register cache must fetch (spec/04 R92): those that are not resident and that the instruction reads, or writes
in some lanes only. -/
def Cx.fetches (c : Cx) (act : Mask) (i : Info) : List Nat :=
  c.absent c.inHandler ((if act == BitVec.allOnes 128 then [] else i.writes) ++ i.reads)

/-- Some line of local memory is poisoned, or may be. -/
def State.anyPoison (s : State) : Bool := !s.poison.isEmpty || !s.checks.isEmpty || s.l2.any (·.poisoned)

/-- A register that is to be fetched comes from a poisoned line of the deck or the window. -/
def Cx.regsSick (c : Cx) (window : Bool) (regs : List Nat) : Bool :=
  c.s.anyPoison && regs.any fun n =>
    let a := (c.blk.regAt c.krn.nv c.sel.ref.wave window n).1
    (List.range 8).any fun j => c.s.poisonIn (a + 64 * j) 64 && !c.s.deckLines.any fun x => x.addr == a + 64 * j

def Cx.fetchBad (c : Cx) (act : Mask) (i : Info) : Bool := c.regsSick c.inHandler (c.fetches act i)

def Cx.wornTrap (c : Cx) (act : Mask) (i : Info) : Option TrapInfo :=
  let worn := c.regWorn act c.inHandler i.reads
  if worn != 0 then some (uceTrap 2 worn)
  else if c.fetchBad act i then some (uceTrap 1 act)
  else none

/-! ### The issue -/

/-- The context as the instruction reads it: with the checking scoreboard off, its reads and its guard meet the pending results. -/
def Cx.look (c : Cx) (h : Hdr) (i : Info) : Cx :=
  if c.lch.hdr.scb then c else c.view (guardOpd h :: i.ops.filter (·.rd))

/-- The first cause that stops the instruction before it acts (spec/17 R307, steps 2 to 5), then an uncorrectable
error of a register it reads. -/
def Cx.firstTrap (c : Cx) (h : Hdr) (i : Info) : Option TrapInfo :=
  let act := c.guardMask h
  match c.decodeTrap i with
  | some t => some t
  | none =>
    let guardPending := if c.lch.hdr.scb then c.stallTrap [guardOpd h] c.g.lanes else none
    match guardPending with
    | some t => some t
    | none =>
      if act == 0 then none
      else
        match (if c.lch.hdr.scb then c.stallTrap i.ops act else none) with
        | some t => some t
        | none =>
          match (if c.lch.hdr.unw then c.uninitTrap act i.ops else none) with
          | some t => some t
          | none => c.wornTrap act i

/-- What a meaning answers: its effects on everything but its own registers, and what it writes to those (`done`, the group goes
on at the next instruction; `go`, at groups of its own); that it has left the handler; a trap, with what the state keeps of it;
or a wait after which it is tried again (`stay`, `wait`). -/
inductive Res where
  | done (c : Cx) (w : RegCtx → RegCtx)
  | go (c : Cx) (w : RegCtx → RegCtx) (gs : List Group)
  | left (c : Cx)
  /-- The wave waits, with what it has noted for when the instruction is tried again. -/
  | stay (c : Cx)
  | trap (s : State) (t : TrapInfo)
  | wait (s : State) (k : Wait)

/-- Separation counted for the threads of a group (R187). -/
def Pending.age (m : Mask) (n : Nat) (e : Pending) : List Pending :=
  (if (e.lanes &&& m) != 0 && decide (n < e.left) then [{ e with lanes := e.lanes &&& m, left := e.left - n }] else []) ++
  (if (e.lanes &&& ~~~m) != 0 then [{ e with lanes := e.lanes &&& ~~~m }] else [])

/-- The registers that the last-use bits mark (R183). -/
def Info.kills (i : Info) (h : Hdr) : List Nat :=
  (if h.da then i.lastA else []) ++ (if h.db then i.lastB else []) ++ (if h.dc then i.lastC else [])

/-- Undo a write where a pending result of an earlier instruction ends in its place (R189): lane by lane, freely. -/
def Cx.keepOne (before : RegCtx) (x : Cx × RegCtx) (e : Pending) : Cx × RegCtx :=
  let (b, c) := x.1.draw 128
  let keep := e.lanes &&& c.g.lanes &&& b
  match e.kind with
  | .v => (c, x.2.setRow e.num keep fun l => before.lane e.num l)
  | .p => (c, x.2.setPred e.num keep (before.pred e.num))
  | .s => (c, if keep != 0 then x.2.setScalar e.num (before.scalar e.num) else x.2)

/-- The results that J itself leaves pending. -/
def Cx.newPend (c : Cx) (h : Hdr) (i : Info) (act : Mask) (before : RegCtx) : List Pending :=
  let left := i.lat - (h.stall.toNat + 1)
  if left == 0 then []
  else (i.ops.filter (·.wr)).flatMap fun o => o.regs.map fun n =>
    { kind := o.kind, num := n, lanes := if i.uni then c.g.lanes else act, left := left, ipc := c.g.pc,
      oldRow := if o.kind == .v then before.row n else [],
      oldBits := if o.kind == .p then before.pred n else if o.kind == .s then (before.scalar n).setWidth 128 else 0 }

/-- Pairs of lanes that a mask covers whole. -/
def lanePairs (m : Mask) : BitVec 64 :=
  (List.range 64).foldl (fun (b : BitVec 64) i => if m.getLsbD (2 * i) && m.getLsbD (2 * i + 1) then b ||| (1 : BitVec 64) <<< i else b) 0

/-- The register-cache lines the instruction uses, and those it makes dirty (spec/04 R92); a double word written whole loses its
error. A register that was not resident has been fetched, or is allocated for its write; the lines that make room for it leave as the
step ends (`State.rcTrim`). -/
def State.touchRegs (s : State) (core : Nat) (w : WaveRef) (inHandler : Bool) (ops : List Opd) (act : Mask) : State :=
  let used := (ops.filter (·.kind == .v)).flatMap (·.regs)
  let dirty := (ops.filter fun o => o.kind == .v && o.wr).flatMap (·.regs)
  let touch (x : RcLine) : RcLine :=
    if x.ofWave w inHandler && used.contains x.reg then
      { x with used := s.stamp, dirty := x.dirty || dirty.contains x.reg,
               bad := if x.bad != 0 && dirty.contains x.reg then x.bad &&& ~~~lanePairs act else x.bad }
    else x
  let k := s.core core
  let miss := (used.filter fun n => !k.regCache.any fun x => x.ofWave w inHandler && x.reg == n).eraseDups
  let new (n : Nat) : RcLine :=
    { lid := w.lid, rank := w.rank, wave := w.wave, window := inHandler, reg := n, dirty := dirty.contains n, used := s.stamp }
  s.setCore core { k with regCache := miss.map new ++ k.regCache.map touch }

/-- The registers as the instruction leaves them: with the checking scoreboard off, its writes meet the pending results (R189). -/
def Cx.keepPending (c : Cx) (i : Info) (before after : RegCtx) : Cx × RegCtx :=
  if c.lch.hdr.scb then (c, after)
  else ((i.ops.filter (·.wr)).flatMap c.hazards).foldl (Cx.keepOne before) (c, after)

/-- An instruction that leaves its handler is the wave's last issue, with its yield hint (R190, spec/16 R296). -/
def Cx.counted (c : Cx) (h : Hdr) : Cx := c.setWv { c.wv with issuedAt := c.s.stamp, yielded := h.y }

/-- The end of an instruction that acted: sources marked dead, destinations written (R183), pending results, the yield hint
(R190), a register-cache miss noted for the pipe (spec/16 R297), and the group's next PC. -/
def Cx.finish (c : Cx) (h : Hdr) (i : Info) (act : Mask) (w : RegCtx → RegCtx) (gs : Option (List Group)) : Cx :=
  let missed := !(c.fetches act i).isEmpty
  let c := { c with s := (c.s.tick).touchRegs c.core c.ref c.inHandler i.ops act }
  let before := c.wv.regs
  let after := w ((i.kills h).foldl (fun r n => r.kill n act) before)
  let (c, after) := c.keepPending i before after
  let aged := c.wv.pend.flatMap (Pending.age c.g.lanes (h.stall.toNat + 1))
  let c := c.setWv { c.wv with regs := after, pend := c.newPend h i act before ++ aged, yielded := h.y, issuedAt := c.s.stamp,
                               swap := c.wv.swap || missed }
  match gs with
  | none => c.advance i.len
  | some gs => c.setGroups (gs.map fun g => { g with last := c.s.stamp })

/-- The effects of an issue on the context. -/
def Cx.issued (c : Cx) (h : Hdr) (i : Info) (body : Cx → Mask → Res) : Cx :=
  let v := c.look h i
  match v.firstTrap h i with
  | some t => v.takeTrap t
  | none =>
    let act := v.guardMask h
    if act == 0 then v.finish h { len := i.len } act id none
    else
      match body v act with
      | .done x w => x.finish h i act w none
      | .go x w gs => x.finish h i act w (some gs)
      | .left x | .stay x => x
      | .trap s t => Cx.takeTrap { v with s := s } t
      | .wait s k => Cx.setWv { v with s := s } { v.wv with wait := some k, waiter := v.g.lanes }

/-- ISSUE: one instruction for the selected group. Without a selected group nothing executes it. -/
def issue (h : Hdr) (i : Info) (body : Cx → Mask → Res) (s : State) : Host.Outcome State Fault Refusal :=
  match s.cx? with
  | none => .fault .noIssuingGroup
  | some c => .next (c.issued h i body).close

/-! ### Values of operands -/

/-- A scalar as lane l reads it. -/
def Cx.scl (c : Cx) (n : BitVec 8) (l : Nat) : DWord :=
  match c.alts.find? fun a => a.1 == n.toNat && a.2.1.getLsbD l with
  | some a => a.2.2
  | none => c.rv.scalar n.toNat

/-- A vector register of a lane as a 64-bit word: one register, or a pair. -/
def Cx.vec (c : Cx) (n : BitVec 12) (wide : Bool) (l : Nat) : DWord :=
  if wide then c.rv.pair n.toNat l else (c.rv.word n.toNat l).setWidth 64

def Cx.vs (c : Cx) (o : VS) (wide : Bool) (l : Nat) : DWord :=
  match o with
  | .v n => c.vec n wide l
  | .s n => c.scl n l

/-- The operand with its immediate, as the family reads it. -/
def Cx.vsi (c : Cx) (o : VSI) (wide : Bool) (imm : BitVec 32 → DWord) (l : Nat) : DWord :=
  match o with
  | .v n => c.vec n wide l
  | .s n => c.scl n l
  | .i m => imm m

def Cx.si (c : Cx) (o : SI) (imm : BitVec 32 → DWord) (l : Nat) : DWord :=
  match o with
  | .s n => c.scl n l
  | .i m => imm m

/-- A destination. -/
inductive Dst where
  | v (n : BitVec 12) (wide : Bool)
  | s (n : BitVec 8)
  deriving DecidableEq, Repr

def Dst.opd : Dst → Opd
  | .v n wide => wrV n wide
  | .s n => wrS n 1

/-- A vector destination is written in the active lanes; a uniform one once, from the lowest active lane. -/
def RegCtx.put (r : RegCtx) (d : Dst) (act : Mask) (f : Nat → DWord) : RegCtx :=
  match d with
  | .v n false => r.setRow n.toNat act fun l => some ((f l).setWidth 32)
  | .v n true => r.setPair n.toNat act fun l => (some ((f l).setWidth 32), some ((f l).extractLsb' 32 32))
  | .s n => r.setScalar n.toNat (f (lowestLane act))

/-- A vector destination that takes values with their unwritten tags. -/
def RegCtx.putTagged (r : RegCtx) (n : BitVec 12) (wide : Bool) (act : Mask) (f : Nat → Option Word × Option Word) : RegCtx :=
  if wide then r.setPair n.toNat act f else r.setRow n.toNat act fun l => (f l).1

/-- A register of a lane with its tags. -/
def Cx.tagged (c : Cx) (n : BitVec 12) (l : Nat) : Option Word × Option Word := (c.rv.lane n.toNat l, c.rv.lane (n.toNat + 1) l)

/-- A predicate result per active lane; a uniform one in every lane of the predicate (R185). -/
def RegCtx.putPred (r : RegCtx) (n : BitVec 3) (uni : Bool) (act : Mask) (f : Nat → Bool) : RegCtx :=
  if uni then r.setPred n.toNat (BitVec.allOnes 128) (if f (lowestLane act) then BitVec.allOnes 128 else 0)
  else r.setPred n.toNat act (maskOf f)

/-- Registers of a vector operand, for a last-use bit. -/
def regsOf (n : BitVec 12) (wide : Bool) : List Nat := if wide then [n.toNat, n.toNat + 1] else [n.toNat]

def vsOpd (wide raw : Bool) : VS → Opd
  | .v n => if raw then rdRaw n wide else rdV n wide
  | .s n => rdS n 1

def vsLast (wide : Bool) : VS → List Nat
  | .v n => regsOf n wide
  | .s _ => []

def vsiOpds (wide : Bool) : VSI → List Opd
  | .v n => [rdV n wide]
  | .s n => [rdS n 1]
  | .i _ => []

def vsiLast (wide : Bool) : VSI → List Nat
  | .v n => regsOf n wide
  | _ => []

def siOpds : SI → List Opd
  | .s n => [rdS n 1]
  | .i _ => []

end Sys2Proof.Machine
end

