-- ==== Sys2Proof/Machine/Flags.lean ====
section
/-!
DEFINITION. Number formats, rounding and every floating-point flag (spec/05 R98 to R111, spec/13 R223 to R237): values are
exact, and one function rounds them and raises the flags of R107.
-/

namespace Sys2Proof.Machine

/-! ### Flags (R107) -/

abbrev Flags := BitVec 6

def fNV : Flags := 1
def fDZ : Flags := 2
def fOF : Flags := 4
def fUF : Flags := 8
def fNX : Flags := 16
def fNSC : Flags := 32

/-! ### Formats (R98, R99) -/

/-- A binary format: sign bit, exponent and mantissa bits, bias, and whether E all ones is special. -/
structure Fmt where
  sg : Bool
  eb : Nat
  mb : Nat
  bias : Int
  spv : Bool
  deriving DecidableEq, Repr

def Fmt.f32 : Fmt := { sg := true, eb := 8, mb := 23, bias := 127, spv := true }
def Fmt.f16 : Fmt := { sg := true, eb := 5, mb := 10, bias := 15, spv := true }
def Fmt.bf16 : Fmt := { sg := true, eb := 8, mb := 7, bias := 127, spv := true }

def fmtOf : FTy → Fmt
  | .f32 => Fmt.f32
  | .f16 => Fmt.f16
  | .bf16 => Fmt.bf16

def ftyWidth : FTy → Nat
  | .f32 => 32
  | .f16 | .bf16 => 16

def Fmt.width (f : Fmt) : Nat := f.sg.toNat + f.eb + f.mb

/-- E all ones is an infinity or a NaN. -/
def Fmt.special (f : Fmt) : Bool := f.spv && f.eb != 0

def Fmt.hasInf (f : Fmt) : Bool := f.special && f.mb != 0

/-- The code of the largest finite magnitude. -/
def Fmt.maxCode (f : Fmt) : Nat := if f.special then (2 ^ f.eb - 1) * 2 ^ f.mb - 1 else 2 ^ (f.eb + f.mb) - 1

def Fmt.infCode (f : Fmt) : Nat := (2 ^ f.eb - 1) * 2 ^ f.mb

/-- The canonical NaN (R98, R100). -/
def Fmt.nanCode (f : Fmt) : Nat := f.infCode + if f.mb == 0 then 0 else 2 ^ (f.mb - 1)

/-- The exponent of the least spacing: of subnormals, or of a fixed-point format. -/
def Fmt.qMin (f : Fmt) : Int := if f.eb == 0 then -f.bias else 1 - f.bias - f.mb

def Fmt.signed (f : Fmt) (neg : Bool) (code : Nat) : Nat := if neg && f.sg then code + 2 ^ (f.eb + f.mb) else code

/-! ### Exact values -/

/-- A NaN (signalling or not), an infinity, or (−1)^neg · m · 2^e; with `st` the exact magnitude lies strictly between m · 2^e and
(m + 1) · 2^e. -/
inductive FVal where
  | nan (signalling : Bool)
  | inf (neg : Bool)
  | fin (neg : Bool) (m : Nat) (e : Int) (st : Bool)
  deriving DecidableEq, Repr

def FVal.isNan : FVal → Bool
  | .nan _ => true
  | _ => false

def FVal.isSnan : FVal → Bool
  | .nan s => s
  | _ => false

def FVal.isZero : FVal → Bool
  | .fin _ m _ st => m == 0 && !st
  | _ => false

def FVal.neg : FVal → FVal
  | .nan s => .nan s
  | .inf n => .inf !n
  | .fin n m e st => .fin (!n) m e st

/-- The value of a code (R98, R99). -/
def Fmt.value (f : Fmt) (code : Nat) : FVal :=
  let mag := code % 2 ^ (f.eb + f.mb)
  let neg := f.sg && decide (2 ^ (f.eb + f.mb) ≤ code % 2 ^ f.width)
  let e := mag / 2 ^ f.mb
  let m := mag % 2 ^ f.mb
  if f.special && e == 2 ^ f.eb - 1 then
    if f.mb != 0 && m == 0 then .inf neg else .nan (f.mb != 0 && m < 2 ^ (f.mb - 1))
  else if f.eb == 0 || e == 0 then .fin neg m f.qMin false
  else .fin neg (m + 2 ^ f.mb) (e - f.bias - f.mb) false

/-- A value times a power of two. -/
def FVal.scale (x : FVal) (k : Int) : FVal :=
  match x with
  | .fin n m e st => .fin n m (e + k) st
  | x => x

/-! ### Rounding (R104) -/

/-- Whether a magnitude between two multiples rounds up: twice the remainder against the divisor, and whether the lower multiple's
code is odd. -/
def roundsUp (m : Rm) (neg odd : Bool) (twice d : Nat) (st : Bool) : Bool :=
  match m with
  | .rn => decide (d < twice) || (twice == d && (st || odd))
  | .rz => false
  | .rp => !neg && (decide (0 < twice) || st)
  | .rm => neg && (decide (0 < twice) || st)

/-- m · 2^e as a multiple of 2^q, rounded: the multiple and whether it is inexact. A value with `st` carries more bits than the
rounding keeps; with `alt` the codes of even multiples are odd. -/
def roundTo (alt : Bool) (md : Rm) (neg : Bool) (m : Nat) (e : Int) (st : Bool) (q : Int) : Nat × Bool :=
  if q ≤ e then (m * 2 ^ (e - q).toNat, st)
  else
    let d := 2 ^ (q - e).toNat
    let n := m / d
    let r := m % d
    ((if roundsUp md neg ((n % 2 == 1) != alt) (2 * r) d st then n + 1 else n), r != 0 || st)

/-- The same to an integer multiple, whose code is itself. -/
def roundAt (md : Rm) (neg : Bool) (m : Nat) (e : Int) (st : Bool) (q : Int) : Nat × Bool := roundTo false md neg m e st q

/-- The same to a multiple of a format's spacing 2^q: without mantissa bits a code is an exponent field alone, so its parity alternates
with the spacing (R104: ties go to the code whose lowest bit is 0). -/
def Fmt.roundIn (f : Fmt) (md : Rm) (neg : Bool) (m : Nat) (e : Int) (st : Bool) (q : Int) : Nat × Bool :=
  roundTo (f.eb != 0 && f.mb == 0 && (q - f.qMin) % 2 != 0) md neg m e st q

/-- The exponent of the spacing at full precision. -/
def Fmt.qFull (f : Fmt) (m : Nat) (e : Int) : Int := m.log2 + e - f.mb

/-- Tiny: rounded with unbounded exponent, the magnitude lies below the smallest normal. -/
def Fmt.tiny (f : Fmt) (md : Rm) (neg : Bool) (m : Nat) (e : Int) (st : Bool) : Bool :=
  f.eb != 0 &&
    let q := f.qFull m e
    let n := (f.roundIn md neg m e st q).1
    decide (((if n == 2 ^ (f.mb + 1) then q + 1 else q) + f.mb) < 1 - f.bias)

/-- The magnitude code of a multiple n of 2^q, q at or above the least spacing. -/
def Fmt.codeAt (f : Fmt) (n : Nat) (q : Int) : Nat :=
  if f.eb == 0 then n else (q - f.qMin).toNat * 2 ^ f.mb + n

/-- Overflow of a sign in a mode: ±Inf or ±max, with OF and NX. -/
def Fmt.overflow (f : Fmt) (md : Rm) (neg : Bool) : Nat × Flags :=
  let toInf := f.hasInf && (match md with
    | .rn => true
    | .rz => false
    | .rp => !neg
    | .rm => neg)
  (f.signed neg (if toInf then f.infCode else f.maxCode), fOF ||| fNX)

/-- A finite value rounded, as if the format had a sign bit. -/
def Fmt.rndFin (f : Fmt) (md : Rm) (neg : Bool) (m : Nat) (e : Int) (st : Bool) : Nat × Flags :=
  if m == 0 && !st then (f.signed neg 0, 0)
  else
    let q := if f.eb == 0 then f.qMin else max (f.qFull m e) f.qMin
    let (n, inexact) := f.roundIn md neg m e st q
    let code := f.codeAt n q
    if f.maxCode < code then f.overflow md neg
    else
      (f.signed neg code,
       if inexact then (if f.tiny md neg m e st then fNX ||| fUF else fNX) else 0)

/-- rnd(x, f, m) (R104, R100). -/
def Fmt.rnd (f : Fmt) (md : Rm) (x : FVal) : Nat × Flags :=
  match x with
  | .nan _ => if f.special then (f.nanCode, 0) else (0, fNV)
  | .inf neg =>
    if neg && !f.sg then (0, fNV)
    else if f.hasInf then (f.signed neg f.infCode, 0)
    else (f.signed neg f.maxCode, fOF ||| fNX)
  | .fin neg m e st =>
    if neg && !f.sg then
      if m == 0 && !st then (0, 0)
      else
        let r := { f with sg := true }.rndFin md true m e st
        if r.1 % 2 ^ (f.eb + f.mb) == 0 then (0, r.2) else (0, fNV)
    else f.rndFin md neg m e st

/-- flush(y, f) (R105, R109): a nonzero subnormal becomes the zero of its sign, with UF and NX. -/
def Fmt.flush (f : Fmt) (on : Bool) (y : Nat × Flags) : Nat × Flags :=
  let mag := y.1 % 2 ^ (f.eb + f.mb)
  if on && f.eb != 0 && mag != 0 && decide (mag < 2 ^ f.mb) then (y.1 - mag, y.2 ||| fUF ||| fNX) else y

/-! ### Exact arithmetic -/

/-- A signed dyadic from an integer. -/
def ofInt (x : Int) (e : Int) : FVal := .fin (decide (x < 0)) x.natAbs e false

/-- The exact sum (R104, R226): Inf − Inf is a NaN with NV; an exact zero of opposite signs is −0 only in rm. -/
def FVal.add (md : Rm) (x y : FVal) : FVal × Flags :=
  match x, y with
  | .nan _, _ => (.nan false, 0)
  | _, .nan _ => (.nan false, 0)
  | .inf a, .inf b => if a == b then (.inf a, 0) else (.nan false, fNV)
  | .inf a, _ => (.inf a, 0)
  | _, .inf b => (.inf b, 0)
  | .fin a m e _, .fin b n k _ =>
    if m == 0 && n == 0 then
      (.fin (if a == b then a else md == .rm) 0 0 false, 0)
    else
      let lo := min e k
      let p : Nat := m * 2 ^ (e - lo).toNat
      let q : Nat := n * 2 ^ (k - lo).toNat
      let s : Int := (if a then -(p : Int) else p) + (if b then -(q : Int) else q)
      if s == 0 then (.fin (md == .rm) 0 0 false, 0) else (ofInt s lo, 0)

/-- The exact product: 0 × Inf is a NaN with NV. -/
def FVal.mul (x y : FVal) : FVal × Flags :=
  match x, y with
  | .nan _, _ => (.nan false, 0)
  | _, .nan _ => (.nan false, 0)
  | .inf a, .inf b => (.inf (a != b), 0)
  | .inf a, .fin b m e st => if (FVal.fin b m e st).isZero then (.nan false, fNV) else (.inf (a != b), 0)
  | .fin a m e st, .inf b => if (FVal.fin a m e st).isZero then (.nan false, fNV) else (.inf (a != b), 0)
  | .fin a m e _, .fin b n k _ => (.fin (a != b) (m * n) (e + k) false, 0)

/-- NV where an operand is a signalling NaN (R106). -/
def snan (xs : List FVal) : Flags := if xs.any FVal.isSnan then fNV else 0

/-- x < y on values that are no NaN, −0 equal to +0. -/
def FVal.lt (x y : FVal) : Bool :=
  match x, y with
  | .nan _, _ => false
  | _, .nan _ => false
  | .inf a, .inf b => a && !b
  | .inf a, _ => a
  | _, .inf b => !b
  | .fin a m e _, .fin b n k _ =>
    let lo := min e k
    let p : Nat := m * 2 ^ (e - lo).toNat
    let q : Nat := n * 2 ^ (k - lo).toNat
    decide ((if a then -(p : Int) else (p : Int)) < (if b then -(q : Int) else (q : Int)))

def FVal.eq (x y : FVal) : Bool := !x.isNan && !y.isNan && !x.lt y && !y.lt x

def FVal.isNeg : FVal → Bool
  | .nan _ => false
  | .inf n => n
  | .fin n _ _ _ => n

/-! ### Element operations (R226 to R229): codes in, code and flags out -/

def fadd (f : Fmt) (md : Rm) (fz : Bool) (a b : Nat) : Nat × Flags :=
  let x := f.value a
  let y := f.value b
  let (z, fl) := x.add md y
  let r := f.flush fz (f.rnd md z)
  (r.1, r.2 ||| fl ||| snan [x, y])

def fsub (f : Fmt) (md : Rm) (fz : Bool) (a b : Nat) : Nat × Flags :=
  let x := f.value a
  let y := f.value b
  let (z, fl) := x.add md y.neg
  let r := f.flush fz (f.rnd md z)
  (r.1, r.2 ||| fl ||| snan [x, y])

def fmul (f : Fmt) (md : Rm) (fz : Bool) (a b : Nat) : Nat × Flags :=
  let x := f.value a
  let y := f.value b
  let (z, fl) := x.mul y
  let r := f.flush fz (f.rnd md z)
  (r.1, r.2 ||| fl ||| snan [x, y])

/-- A × B + C with one rounding (R227). -/
def ffma (f : Fmt) (md : Rm) (fz : Bool) (a b c : Nat) : Nat × Flags :=
  let x := f.value a
  let y := f.value b
  let w := f.value c
  let (p, f1) := x.mul y
  let (z, f2) := p.add md w
  let r := f.flush fz (f.rnd md z)
  (r.1, r.2 ||| f1 ||| f2 ||| snan [x, y, w])

/-- minimumNumber and maximumNumber (R228). -/
def fminmax (f : Fmt) (mx : Bool) (a b : Nat) : Nat × Flags :=
  let x := f.value a
  let y := f.value b
  let fl := snan [x, y]
  if x.isNan && y.isNan then (f.nanCode, fl)
  else if x.isNan then (b, fl)
  else if y.isNan then (a, fl)
  else
    let less := x.lt y || (x.eq y && x.isNeg && !y.isNeg)
    (if less != mx then a else b, fl)

/-- A comparison with its NV (R229). -/
def fcmp (f : Fmt) (cc : FCond) (a b : Nat) : Bool × Flags :=
  let x := f.value a
  let y := f.value b
  let un := x.isNan || y.isNan
  let quiet := match cc with
    | .eq | .ne | .un => false
    | .lt | .le | .gt | .ge => true
  let r := match cc with
    | .eq => x.eq y
    | .ne => !x.eq y
    | .lt => x.lt y
    | .le => !un && !y.lt x
    | .gt => y.lt x
    | .ge => !un && !x.lt y
    | .un => un
  (r, snan [x, y] ||| (if un && quiet then fNV else 0))

/-! ### Conversions (R105, R233, R235) -/

/-- x rounded to an integer. -/
def toInteger (md : Rm) (neg : Bool) (m : Nat) (e : Int) (st : Bool) : Int × Bool :=
  let (n, inexact) := roundAt md neg m e st 0
  ((if neg then -(n : Int) else n), inexact)

/-- rndi(x, T, m) (R105). -/
def rndi (t : ITy) (md : Rm) (x : FVal) : Int × Flags :=
  match x with
  | .nan _ => (0, fNV)
  | .inf neg => (if neg then t.least else t.greatest, fNV)
  | .fin neg m e st =>
    let (n, inexact) := toInteger md neg m e st
    if n < t.least || t.greatest < n then (t.clamp n, fNV) else (n, if inexact then fNX else 0)

/-- FRND (R233): no flag but NV; a zero result keeps the source's sign. -/
def frnd (f : Fmt) (md : Rm) (a : Nat) : Nat × Flags :=
  match f.value a with
  | .nan s => (f.nanCode, if s then fNV else 0)
  | .inf _ => (a, 0)
  | .fin neg m e st =>
    let n := (toInteger md neg m e st).1.natAbs
    ((f.rnd .rn (.fin neg n 0 false)).1, 0)

/-- CVTF: one format to another. -/
def cvtf (fd fs : Fmt) (md : Rm) (fz : Bool) (a : Nat) : Nat × Flags :=
  let x := fs.value a
  let r := fd.flush fz (fd.rnd md x)
  (r.1, r.2 ||| snan [x])

/-! ### Functions within one ulp (R111, R232; log 16) -/

/-- The integer square root by bits, from 2^n down. -/
def isqrtFrom (x : Nat) : Nat → Nat → Nat
  | 0, r => if (r + 1) * (r + 1) ≤ x then r + 1 else r
  | n + 1, r => isqrtFrom x n (if (r + 2 ^ (n + 1)) * (r + 2 ^ (n + 1)) ≤ x then r + 2 ^ (n + 1) else r)

def isqrt (x : Nat) : Nat := isqrtFrom x (x.log2 / 2 + 1) 0

/-- Fraction bits of the fixed-point work below. -/
def fixBits : Nat := 704

/-- floor(π · 2^704), floor(ln 2 · 2^704) and floor(2^704 / 2π). -/
def fixPi : Nat := 0x3243f6a8885a308d313198a2e03707344a4093822299f31d0082efa98ec4e6c89452821e638d01377be5466cf34e90c6cc0ac29b7c97c50dd3f84d5b5b54709179216d5d98979fb1bd1310ba698dfb5ac2ffd72dbd01adfb7
def fixLn2 : Nat := 0xb17217f7d1cf79abc9e3b39803f2f6af40f343267298b62d8a0d175b8baafa2be7b876206debac98559552fb4afa1b10ed2eae35c138214427573b291169b8253e96ca16224ae8c51acbda11317c387eb9ea9bc3b136603b
def fixInv2Pi : Nat := 0x28be60db9391054a7f09d5f47d4d377036d8a5664f10e4107f9458eaf7aef1586dc91b8e909374b801924bba827464873f877ac72c4a69cfba208d7d4baed1213a671c09ad17df904e64758e60d4ce7d272117e2ef7e4a0e

/-- The terms x^k / k! of one parity, summed: (sum of the positive ones, sum of the negative ones), alternating when `alt`. -/
def taylor (step : Nat → Nat → Nat) : Nat → Nat → Nat → Nat × Nat → Nat × Nat
  | 0, _, _, acc => acc
  | n + 1, k, t, (p, q) => taylor step n (k + 1) (step k t) (q + t, p)

/-- sin x and cos x of a fixed-point x below 2. -/
def fixSin (x : Nat) : Nat :=
  let x2 := x * x / 2 ^ fixBits
  let r := taylor (fun k t => t * x2 / 2 ^ fixBits / ((2 * k + 2) * (2 * k + 3))) 71 0 x (0, 0)
  r.1 - r.2

def fixCos (x : Nat) : Nat :=
  let x2 := x * x / 2 ^ fixBits
  let r := taylor (fun k t => t * x2 / 2 ^ fixBits / ((2 * k + 1) * (2 * k + 2))) 71 0 (2 ^ fixBits) (0, 0)
  r.1 - r.2

/-- e^x of a fixed-point x below 1. -/
def fixExp (x : Nat) : Nat :=
  let rec go : Nat → Nat → Nat → Nat → Nat
    | 0, _, _, acc => acc
    | n + 1, k, t, acc => go n (k + 1) (t * x / 2 ^ fixBits / k) (acc + t)
  go 140 1 (2 ^ fixBits) 0

/-- sin and cos of a quadrant's angle: the quadrant q mod 4 and x in [0, π/2), as signed magnitudes. -/
def quadSin (q x : Nat) : Bool × Nat := (decide (2 ≤ q % 4), if q % 2 == 0 then fixSin x else fixCos x)
def quadCos (q x : Nat) : Bool × Nat := (q % 4 == 1 || q % 4 == 2, if q % 2 == 0 then fixCos x else fixSin x)

/-- A fixed-point magnitude that is no exact value. -/
def fixVal (x : Bool × Nat) : FVal := .fin x.1 x.2 (-(fixBits : Int)) true

/-- One of the two neighbours of an inexact value, freely chosen by function and input (log 16); an exact value rounds to
itself. Overflow, underflow and the sign of zero are those of rnd in mode rn (spec/13 R232). -/
def Fmt.near (f : Fmt) (fn input : Nat) (x : FVal) : Nat × Flags :=
  match x with
  | .fin neg m e true =>
    let up := Config.ulpUp fn input
    let r := f.rndFin (if up then (if neg then .rm else .rp) else .rz) neg m e true
    if f.maxCode < (f.rndFin .rn neg m e true).1 % 2 ^ (f.eb + f.mb) then f.overflow .rn neg
    else if f.maxCode < r.1 % 2 ^ (f.eb + f.mb) then f.overflow .rn neg
    else if f.tiny .rn neg m e true then f.rndFin .rn neg m e true
    else (r.1, fNX)
  | x => f.rnd .rn x

/-- 1 / (m · 2^e), with enough bits for any format. -/
def recip (neg : Bool) (m : Nat) (e : Int) : FVal :=
  let k := m.log2 + 80
  .fin neg (2 ^ k / m) (-(k : Int) - e) (2 ^ k % m != 0)

/-- √(m · 2^e): the exponent made even, the magnitude long enough. -/
def root (m : Nat) (e : Int) : FVal :=
  let odd := (e % 2).toNat
  let m' := m * 2 ^ odd * 2 ^ 160
  let r := isqrt m'
  .fin false r ((e - odd - 160) / 2) (r * r != m')

/-- 1 / √(m · 2^e). -/
def recipRoot (m : Nat) (e : Int) : FVal :=
  let odd := (e % 2).toNat
  let m' := m * 2 ^ odd
  let k := m'.log2 / 2 + 100
  let r := isqrt (2 ^ (2 * k) / m')
  .fin false r (-(k : Int) - (e - odd) / 2) (r * r * m' != 2 ^ (2 * k))

/-- 2^x for x = ± m · 2^e. -/
def exp2 (neg : Bool) (m : Nat) (e : Int) : FVal :=
  -- an exponent beyond every format over- or underflows all the same
  let big : Bool := decide (16 ≤ (m.log2 : Int) + e)
  if big then .fin false 1 (if neg then -70000 else 70000) true
  else
    let fx := if 0 ≤ e then m * 2 ^ e.toNat * 2 ^ fixBits else m * 2 ^ fixBits / 2 ^ (-e).toNat
    let ip : Int := (fx / 2 ^ fixBits : Nat)
    let fr := fx % 2 ^ fixBits
    let (ip, fr) : Int × Nat := if neg then (if fr == 0 then (-ip, 0) else (-ip - 1, 2 ^ fixBits - fr)) else (ip, fr)
    if fr == 0 then .fin false 1 ip false
    else .fin false (fixExp (fr * fixLn2 / 2 ^ fixBits)) (ip - fixBits) true

/-- The first n fraction bits of log2 of a fixed-point y in [1, 2), by squaring. -/
def logBits : Nat → Nat → Nat → Nat
  | 0, _, acc => acc
  | n + 1, y, acc =>
    let z := y * y / 2 ^ fixBits
    if 2 ^ (fixBits + 1) ≤ z then logBits n (z / 2) (2 * acc + 1) else logBits n z (2 * acc)

/-- log2 of m · 2^e. -/
def log2Of (m : Nat) (e : Int) : FVal :=
  let l := m.log2
  let ip : Int := l + e
  if m == 2 ^ l then ofInt ip 0
  else
    let frac := logBits 200 (m * 2 ^ fixBits / 2 ^ l) 0
    if 0 ≤ ip then .fin false (ip.toNat * 2 ^ 200 + frac) (-200) true
    else .fin true ((-ip).toNat * 2 ^ 200 - frac - 1) (-200) true

/-- The quadrant and the angle left in it of a nonzero finite x, reduced modulo 2π. -/
def reduce (neg : Bool) (m : Nat) (e : Int) : Nat × Nat :=
  let fx := if 0 ≤ e then m * 2 ^ e.toNat * 2 ^ fixBits else m * 2 ^ fixBits / 2 ^ (-e).toNat
  let q := 2 * fx / fixPi
  let r := fx - q * fixPi / 2
  if neg then (4 - q % 4 + 3, fixPi / 2 - r) else (q, r)

/-- The unary functions of R231. -/
inductive FFun where
  | rcp | rsq | exp2 | log2 | sin | cos
  deriving DecidableEq, Repr

def FFun.num : FFun → Nat
  | .rcp => 0
  | .rsq => 1
  | .exp2 => 2
  | .log2 => 3
  | .sin => 4
  | .cos => 5

def ftyNum : FTy → Nat
  | .f32 => 0
  | .f16 => 1
  | .bf16 => 2

/-- One element of a unary function, with the special inputs of R232. -/
def ffun (t : FTy) (fn : FFun) (fz : Bool) (a : Nat) : Nat × Flags :=
  let f := fmtOf t
  let id := 3 * fn.num + ftyNum t
  let nv : Nat × Flags := (f.nanCode, fNV)
  let zero (neg : Bool) : Nat × Flags := (f.signed neg 0, 0)
  let inf (neg : Bool) (fl : Flags) : Nat × Flags := (f.signed neg f.infCode, fl)
  let r : Nat × Flags := match f.value a with
    | .nan s => (f.nanCode, if s then fNV else 0)
    | .inf neg => match fn with
      | .rcp => zero neg
      | .rsq => if neg then nv else zero false
      | .exp2 => if neg then zero false else inf false 0
      | .log2 => if neg then nv else inf false 0
      | .sin | .cos => nv
    | .fin neg m e _ =>
      if m == 0 then match fn with
        | .rcp | .rsq => inf neg fDZ
        | .exp2 | .cos => f.rnd .rn (.fin false 1 0 false)
        | .log2 => inf true fDZ
        | .sin => zero neg
      else match fn with
        | .rcp => f.near id a (recip neg m e)
        | .rsq => if neg then nv else f.near id a (recipRoot m e)
        | .exp2 => f.near id a (exp2 neg m e)
        | .log2 => if neg then nv else f.near id a (log2Of m e)
        | .sin => let (q, x) := reduce neg m e; f.near id a (fixVal (quadSin q x))
        | .cos => let (q, x) := reduce neg m e; f.near id a (fixVal (quadCos q x))
  f.flush fz r

/-- FSQRT, rounded in its mode (R232). -/
def fsqrt (f : Fmt) (md : Rm) (fz : Bool) (a : Nat) : Nat × Flags :=
  match f.value a with
  | .nan s => (f.nanCode, if s then fNV else 0)
  | .inf neg => if neg then (f.nanCode, fNV) else (a, 0)
  | .fin neg m e _ =>
    if m == 0 then (a, 0)
    else if neg then (f.nanCode, fNV)
    else f.flush fz (f.rnd md (root m e))

/-! ### Packed pairs (R98) -/

/-- One element of 16 or 32 bits, or both 16-bit halves under .x2. -/
def perElem (t : FTy) (x2 : Bool) (op : Nat → Nat → Nat × Flags) (a b : DWord) : DWord × Flags :=
  let w := ftyWidth t
  let x := a.toNat
  let y := b.toNat
  let (r, fl) := op (x % 2 ^ w) (y % 2 ^ w)
  if x2 then
    let (r1, f1) := op (x / 2 ^ 16 % 2 ^ 16) (y / 2 ^ 16 % 2 ^ 16)
    (BitVec.ofNat 64 (r + 2 ^ 16 * r1), fl ||| f1)
  else (BitVec.ofNat 64 r, fl)

/-- Flags of all active lanes (R108). -/
def laneFlags (act : Mask) (f : Nat → Flags) : Flags := (lanesOf act).foldl (fun r l => r ||| f l) 0

def RegCtx.orFlags (r : RegCtx) (fl : Flags) : RegCtx := { r with fstat := r.fstat ||| fl }

/-- A result and flags per lane: a vector in the active lanes, a uniform one once. -/
def RegCtx.putF (r : RegCtx) (d : Dst) (act : Mask) (f : Nat → DWord × Flags) : RegCtx :=
  match d with
  | .v .. => (r.put d act fun l => (f l).1).orFlags (laneFlags act fun l => (f l).2)
  | .s _ => (r.put d act fun l => (f l).1).orFlags (f (lowestLane act)).2

end Sys2Proof.Machine
end

