-- ==== Sys2Proof/Machine/Angle.lean ====
section
/-!
DEFINITION. Phasor values (spec/06 R112 to R122): codes, element operations, conversions, the table of unit vectors and the
exact reduction.
-/

namespace Sys2Proof.Machine

/-- x mod 2^(n−1) (spec/05 R105). -/
def wrapn (x : Int) (n : Nat) : Nat := (x % (2 ^ (n - 1) : Int)).toNat

/-- The canonical undefined code (R112). -/
def undef (n : Nat) : Nat := 2 ^ (n - 1)

/-- A code is defined when its U bit is clear; bits above the width are ignored. -/
def defined (n x : Nat) : Bool := x % 2 ^ n < 2 ^ (n - 1)

/-- The angle field. -/
def ang (n x : Nat) : Nat := x % 2 ^ (n - 1)

def pmul (n a b : Nat) : Nat := if defined n a && defined n b then wrapn (ang n a + ang n b) n else undef n

def pconj (n a : Nat) : Nat := if defined n a then wrapn (-(ang n a : Int)) n else undef n

def ppow (n a : Nat) (k : Int) : Nat := if defined n a then wrapn (k * ang n a) n else undef n

/-- The outcome of a comparison (R116). -/
inductive POut where
  | eq | lead | lag | opp | und
  deriving DecidableEq, Repr

def pcmp (n a b : Nat) : POut :=
  if !(defined n a && defined n b) then .und
  else
    let d := wrapn ((ang n b : Int) - ang n a) n
    let h := 2 ^ (n - 2)
    if d == 0 then .eq else if d < h then .lead else if d == h then .opp else .lag

/-- Whether a condition holds of an outcome (spec/13 R239). -/
def PCond.holds : PCond → POut → Bool
  | .eq, o => o == .eq
  | .lead, o => o == .lead
  | .lag, o => o == .lag
  | .opp, o => o == .opp
  | .und, o => o == .und
  | .ne, o => o == .lead || o == .lag || o == .opp

/-- The nearest integer to x / 2^k, ties to the even one. -/
def nearestDiv (x k : Nat) : Nat := (roundAt .rn false x 0 false k).1

/-- PCVT (R117). -/
def pcvt (m n a : Nat) : Nat × Flags :=
  if !defined n a then (undef m, 0)
  else if n ≤ m then (ang n a * 2 ^ (m - n), 0)
  else (wrapn (nearestDiv (ang n a) (n - m)) m, if ang n a % 2 ^ (n - m) != 0 then fNX else 0)

/-! ### Angles of floats (R118) -/

/-- The first n bits of the angle of a vector (x, y) as a fraction of the circle, by doubling the angle. -/
def angleBits : Nat → Int → Int → Nat → Nat
  | 0, _, _, acc => acc
  | n + 1, x, y, acc =>
    let b : Nat := if y < 0 || (y == 0 && x < 0) then 1 else 0
    let x2 := x * x - y * y
    let y2 := 2 * x * y
    let cut := (max x2.natAbs y2.natAbs).log2 - 600
    angleBits n (x2.sign * (x2.natAbs / 2 ^ cut : Nat)) (y2.sign * (y2.natAbs / 2 ^ cut : Nat)) (2 * acc + b)

/-- The nearest code of width n to atan2(y, x) mod 2π; no angle of an integer vector lies halfway between two codes. -/
def atanCode (n : Nat) (y x : Int) : Nat :=
  let cut := (max x.natAbs y.natAbs).log2 - 600
  let bits := angleBits n (x.sign * (x.natAbs / 2 ^ cut : Nat)) (y.sign * (y.natAbs / 2 ^ cut : Nat)) 0
  wrapn ((bits + 1) / 2 : Nat) n

/-- The vector lies at a multiple of π/4, where its angle is a code exactly. -/
def atanExact (y x : Int) : Bool := x == 0 || y == 0 || x.natAbs == y.natAbs

/-- PATAN of two values (R118). -/
def patan (n : Nat) (vy vx : FVal) : Nat × Flags :=
  if vy.isNan || vx.isNan then (undef n, snan [vy, vx])
  else if vy.isZero && vx.isZero then (undef n, 0)
  else
    let one (v : FVal) : Int := if v.isNeg then -1 else 1
    let (y, x) : Int × Int := match vy, vx with
      | .inf _, .inf _ => (one vy, one vx)
      | .inf _, _ => (one vy, 0)
      | _, .inf _ => (0, one vx)
      | .fin a m e _, .fin b k g _ =>
        let lo := min e g
        let p : Nat := m * 2 ^ (e - lo).toNat
        let q : Nat := k * 2 ^ (g - lo).toNat
        ((if a then -(p : Int) else p), (if b then -(q : Int) else q))
      | _, _ => (0, 1)
    (atanCode n y x, if atanExact y x then 0 else fNX)

/-- PFROMF of a value in radians (R118). -/
def pfromf (n : Nat) (v : FVal) : Nat × Flags :=
  match v with
  | .nan s => (undef n, if s then fNV else 0)
  | .inf _ => (undef n, fNV)
  | .fin neg m e _ =>
    if m == 0 then (0, 0)
    else
      let t := m * fixInv2Pi * 2 ^ n
      let t := if 0 ≤ e then t * 2 ^ e.toNat / 2 ^ fixBits else t / 2 ^ (fixBits + (-e).toNat)
      let c : Int := ((t + 1) / 2 : Nat)
      (wrapn (if neg then -c else c) n, fNX)

/-! ### Floats of angles (R119) -/

/-- The quadrant and the fixed-point angle left in it of code a of width n. -/
def codeAngle (n a : Nat) : Nat × Nat :=
  let quarter := 2 ^ (n - 3)
  (ang n a / quarter, ang n a % quarter * fixPi / (2 * quarter))

def exactQuad (n a : Nat) : Bool := ang n a % 2 ^ (n - 3) == 0

/-- cos and sin of a code: 0 or ±1 at the quarter points, otherwise no exact value. -/
def cosOf (n a : Nat) : FVal :=
  let (q, x) := codeAngle n a
  if exactQuad n a then (if q % 2 == 1 then .fin false 0 0 false else .fin (q == 2) 1 0 false) else fixVal (quadCos q x)

def sinOf (n a : Nat) : FVal :=
  let (q, x) := codeAngle n a
  if exactQuad n a then (if q % 2 == 0 then .fin false 0 0 false else .fin (q == 3) 1 0 false) else fixVal (quadSin q x)

/-- 2π · A / 2^(n−1). -/
def radOf (n a : Nat) : FVal :=
  if ang n a == 0 then .fin false 0 0 false else .fin false (2 * ang n a * fixPi / 2 ^ (n - 1)) (-(fixBits : Int)) true

def rmNum : Rm → Nat
  | .rn => 0
  | .rz => 1
  | .rp => 2
  | .rm => 3

/-- A value of a phasor in a float format (R119): correctly rounded in the mode from P8 and P16; from P32 one of the two neighbours, freely
chosen by function, mode and input (log 16), with the flags that rnd in the mode sets. -/
def phasorFloat (t : FTy) (p : PTy) (fn : Nat) (md : Rm) (fz : Bool) (val : Nat → Nat → FVal) (a : Nat) : Nat × Flags :=
  let f := fmtOf t
  let n := p.bits
  if !defined n a then (f.nanCode, 0)
  else
    let v := val n a
    f.flush fz (match p, v with
      | .p32, .fin neg m e true =>
        let up := Config.ulpUp (18 + 4 * (3 * fn + ftyNum t) + rmNum md) (a % 2 ^ 32)
        ((f.rndFin (if up then (if neg then .rm else .rp) else .rz) neg m e true).1, (f.rndFin md neg m e true).2)
      | _, v => f.rnd md v)

/-! ### Reduction (R120, R121) -/

/-- ptab(i) (spec/05 R105). -/
def ptab (i : Nat) : Int × Int :=
  let one (v : FVal) : Int :=
    let n : Int := match v with
      | .fin neg m e st => (toInteger .rn neg m (e + 15) st).1
      | _ => 0
    max (-32767) (min 32767 n)
  (one (cosOf 13 i), one (sinOf 13 i))

/-- The table index of a defined code (R120). -/
def tableIndex (n x : Nat) : Nat := if n ≤ 13 then ang n x * 2 ^ (13 - n) else nearestDiv (ang n x) (n - 13) % 4096

/-- What an input adds: (X, Y, count). -/
def contribute (n x : Nat) : Int × Int × Nat :=
  if defined n x then ((ptab (tableIndex n x)).1, (ptab (tableIndex n x)).2, 1) else (0, 0, 0)

/-- Angle and coherence of the sums (R121). -/
def resultant (n : Nat) (x y : Int) (count : Nat) : Nat × Nat :=
  if count == 0 || (x == 0 && y == 0) then (undef n, 0)
  else
    (atanCode n y x,
     min 0xFFFF (isqrt (65536 * 65536 * (x.natAbs * x.natAbs + y.natAbs * y.natAbs) / (32767 * count * (32767 * count)))))

end Sys2Proof.Machine
end

