-- ==== Sys2Proof/Machine/Buffers.lean ====
section
/-!
DEFINITION. Buffers and publication (spec/08 R140 to R155): room and shadow logs, what a load or an atomic finds below D, the
set of a commit and its conflicts, publication, aborts and windows.
-/

namespace Sys2Proof.Machine

/-! ### Lines of a buffer -/

def bufFind (b : List BufLine) (line : Nat) : Option BufLine := b.find? fun x => x.line == line

/-- The double words of a line that a mask covers whole, and the bytes of double words (R54). -/
def wholeDwords (m : ByteMask) : BitVec 8 :=
  (List.range 8).foldl (fun (b : BitVec 8) i => if m.extractLsb' (8 * i) 8 == 0xFF then b ||| (1 : BitVec 8) <<< i else b) 0

def dwordBytes (b : BitVec 8) : ByteMask :=
  (List.range 8).foldl (fun (m : ByteMask) i => if b.getLsbD i then m ||| (0xFF : ByteMask) <<< (8 * i) else m) 0

/-- Bytes laid over a buffer's line, which keeps its place; a new line takes the given one. A double word written whole loses its
error; a line written whole loses its poison. -/
def bufMerge (b : List BufLine) (line : Nat) (mask : ByteMask) (data : LineData) (log : Option (Nat × Nat))
    (maker : Nat × Nat := (0, 0)) (slot : Nat := 0) (poison : Bool := false) (bad : BitVec 8 := 0) : List BufLine :=
  match bufFind b line with
  | some _ => b.map fun x => if x.line == line then
      { x with mask := x.mask ||| mask, data := mergeLine x.data data mask, bad := (x.bad &&& ~~~wholeDwords mask) ||| bad,
               poison := poison || (x.poison && mask != BitVec.allOnes 64) } else x
  | none =>
    { line := line, mask := mask, data := mergeLine 0 data mask, log := log, saved := false, maker := maker, slot := slot,
      poison := poison, bad := bad } :: b

/-- What a buffer holds of a line: the bytes' mask and the bytes. -/
def bufHeld (b : List BufLine) (line : Nat) : ByteMask × LineData :=
  match bufFind b line with
  | some x => (x.mask, x.data)
  | none => (0, 0)

/-- Nearer bytes over farther ones. -/
def overlay (near far : ByteMask × LineData) : ByteMask × LineData := (near.1 ||| far.1, mergeLine far.2 near.2 near.1)

/-! ### Room (R141, spec/02 R46, R47) -/

/-- The gang of the block, where the kernel has a gang level. -/
def Cx.gang? (c : Cx) : Option Gang := if c.lch.hdr.hasGang then c.s.gang? c.lch.lid (c.lch.hdr.gangOf c.blk.rank) else none

/-- The blocks of the issuer's core, its own as it stands. -/
def Cx.coreBlocks (c : Cx) : List Block :=
  c.blk :: (c.s.residentOn c.core).filter fun b => !(b.lid == c.blk.lid && b.rank == c.blk.rank)

/-- A buffered line has room in L1: buffered lines stay within half of its lines, and its set has a way that no other takes. -/
def Cx.l1Room (c : Cx) (line : Nat) : Bool :=
  decide (c.coreBlocks.foldl (fun n b => n + b.buffered) 0 < (c.s.core c.core).l1Lines / 2) &&
  c.s.l1Way c.core c.ctx.asid line c.coreBlocks

/-- A buffered line takes a way of its set: a clean line may leave for it. -/
def Cx.l1Make (c : Cx) (line : Nat) (log : Option (Nat × Nat)) : Cx :=
  if log.isNone then { c with s := c.s.l1Make c.core c.ctx.asid line c.coreBlocks } else c

/-- The lines in a wave's shadow log, of every level. -/
def Cx.logLines (c : Cx) (wave : Nat) : List BufLine :=
  (c.blk.buf ++ c.blk.waves.flatMap (·.buf) ++ c.gang?.elim [] (·.buf)).filter fun x => x.log == some (c.blk.rank, wave) && !x.saved

def Cx.logged (c : Cx) (wave : Nat) : Nat := (c.logLines wave).length

/-- A line of the issuing wave's shadow log, which holds 1,024. -/
def Cx.logPlace (c : Cx) : Option (Option (Nat × Nat)) :=
  if c.logged c.sel.ref.wave < 1024 then some (some (c.blk.rank, c.sel.ref.wave)) else none

/-- The lowest line of a log that none of its lines takes. -/
def freeSlot (used : List Nat) : Nat := ((List.range (used.length + 1)).find? fun n => !used.contains n).getD used.length

/-- The lowest free line of the log that a new line goes to. -/
def Cx.slotFor (c : Cx) (log : Option (Nat × Nat)) : Nat :=
  match log with
  | none => 0
  | some (_, wave) => freeSlot ((c.logLines wave).map (·.slot))

/-- Where a new wave-buffer line goes: L1, or the shadow log, or nowhere. -/
def Cx.wavePlace (c : Cx) (line : Nat) : Option (Option (Nat × Nat)) :=
  if inPlace c.wv.buf < 256 && c.l1Room line then some none else c.logPlace

/-- Where a new block-buffer line goes. -/
def Cx.blockPlace (c : Cx) (line : Nat) : Option (Option (Nat × Nat)) := if c.l1Room line then some none else c.logPlace

/-- Where a new gang line goes: a set of the column cache holds at most sixteen (spec/02 R43). -/
def Cx.gangPlace (c : Cx) (line : Nat) : Option (Option (Nat × Nat)) :=
  if c.s.gangWays (clusterOf c.core) (colSet c.ctx.asid line) < 16 then some none else c.logPlace

/-- A gang line takes a way of the column cache: a near copy or a deck line may leave for it. -/
def Cx.gangMake (c : Cx) (line : Nat) (log : Option (Nat × Nat)) : Cx :=
  if log.isNone then { c with s := c.s.colMake (clusterOf c.core) (colSet c.ctx.asid line) } else c

/-! ### Lookups (R143, R151) -/

/-- The bytes of a line that the buffers from a level on hold. -/
def Cx.held (c : Cx) (lvl : Level) (line : Nat) : ByteMask × LineData :=
  let g := bufHeld (c.gang?.elim [] (·.buf)) line
  let b := bufHeld c.blk.buf line
  match lvl with
  | .w => overlay (bufHeld c.wv.buf line) (overlay b g)
  | .b => overlay b g
  | .g => g
  | .d | .s => (0, 0)

/-- The bytes that a buffer holds of a line in SRAM with an uncorrectable error; lines in a shadow log stand in memory (R54, R141). -/
def bufBad (b : List BufLine) (line : Nat) : ByteMask :=
  match bufFind b line with
  | some x => if x.log.isNone && !x.saved then x.mask &&& dwordBytes x.bad else 0
  | none => 0

/-- The bytes of a line that a read from a level on takes from the wave's or block's buffer and that have an uncorrectable error
(R319). Gang buffers stand in a column cache. -/
def Cx.heldBad (c : Cx) (lvl : Level) (line : Nat) : ByteMask :=
  match lvl with
  | .w => bufBad c.wv.buf line ||| (bufBad c.blk.buf line &&& ~~~(bufHeld c.wv.buf line).1)
  | .b => bufBad c.blk.buf line
  | .g | .d | .s => 0

/-- A buffer's line as poison: it came from a poisoned source, or it stands in a line of a shadow log that memory holds poisoned (R319,
spec/03 R73, spec/04 R91). -/
def Cx.bufSick (c : Cx) (b : List BufLine) (line : Nat) : ByteMask :=
  match bufFind b line with
  | none => 0
  | some x =>
    let inLog := match x.log with
      | some (rank, wave) =>
        c.s.anyPoison && !x.saved &&
          ((if rank == c.blk.rank then some c.blk else c.s.block? c.blk.lid rank).elim false fun d =>
            c.s.poisonIn (deckAreaAt d c.krn.nv wave + waveStride c.krn.nv - 65536 + 64 * x.slot) 64)
      | none => false
    if x.poison || inLog then x.mask else 0

/-- The bytes that a read from a level on takes from poisoned buffer lines. -/
def Cx.heldSick (c : Cx) (lvl : Level) (line : Nat) : ByteMask :=
  let g := c.bufSick (c.gang?.elim [] (·.buf)) line
  let b := c.bufSick c.blk.buf line ||| (g &&& ~~~(bufHeld c.blk.buf line).1)
  match lvl with
  | .w => c.bufSick c.wv.buf line ||| (b &&& ~~~(bufHeld c.wv.buf line).1)
  | .b => b
  | .g => g
  | .d | .s => 0

def Cx.setGangBuf (c : Cx) (f : List BufLine → List BufLine) : Cx :=
  match c.gang? with
  | some g => { c with s := c.s.setGang { g with buf := f g.buf } }
  | none => c

/-! ### Memory traps (spec/17 R306, R315, spec/23 R358) -/

/-- A MEMFAULT on memory of lanes: `ptr` is the lowest faulting lane's effective pointer. -/
def memTrap (cause : Nat) (ptr : DWord) (paddr : Nat) (lanes : Mask) (vreg : Nat) : TrapInfo :=
  { laneTrap tMemFault cause (infoLine ptr) lanes with vreg := vreg, offset := ptr, paddr := BitVec.ofNat 64 paddr }

def alignTrap (ptr : DWord) (lanes : Mask) : TrapInfo := { laneTrap tAlign 0 (infoLine ptr) lanes with offset := ptr }

/-! ### The set of a commit (R144) -/

/-- Bytes of one line to be published, with the shadow log its line stands in and the double words of it with a double-bit error. -/
structure SetLine where
  line : Nat
  mask : ByteMask
  data : LineData
  log : Option (Nat × Nat)
  poison : Bool := false
  bad : BitVec 8 := 0
  deriving DecidableEq, Repr

/-- Add a buffer's bytes that the set does not already hold. -/
def addLevel (set : List SetLine) (b : List BufLine) : List SetLine :=
  b.foldl (fun set x =>
    match set.find? fun y => y.line == x.line with
    | some _ => set.map fun y =>
        if y.line == x.line then
          { y with mask := y.mask ||| x.mask, data := mergeLine x.data y.data y.mask,
                   poison := y.poison || (x.poison && x.mask &&& ~~~y.mask != 0) }
        else y
    | none => { line := x.line, mask := x.mask, data := x.data, log := x.log, poison := x.poison, bad := x.bad } :: set) set

/-- Insertion in ascending address order. -/
def insertLine (x : SetLine) : List SetLine → List SetLine
  | [] => [x]
  | y :: ys => if x.line ≤ y.line then x :: y :: ys else y :: insertLine x ys

/-- The set COMMIT.L publishes: the wave's bytes, then those of each level between, in address order. -/
def Cx.commitSet (c : Cx) (lvl : Level) : List SetLine :=
  let set := addLevel [] c.wv.buf
  let set := if lvl == .g || lvl == .d || lvl == .s then addLevel set c.blk.buf else set
  let set := if lvl == .d || lvl == .s then addLevel set (c.gang?.elim [] (·.buf)) else set
  set.foldr insertLine []

/-- The buffers the set was drawn from, emptied. -/
def Cx.emptied (c : Cx) (lvl : Level) : Cx :=
  let c := c.setWv { c.wv with buf := [] }
  let c := if lvl == .g || lvl == .d || lvl == .s then { c with blk := { c.blk with buf := [] } } else c
  if lvl == .d || lvl == .s then c.setGangBuf fun _ => [] else c

/-! ### Conflicts (R146) -/

def Cx.window (c : Cx) : Level → Nat
  | .w | .b => c.wv.winB
  | .g => c.wv.winG
  | .d => c.wv.winD
  | .s => c.wv.winS

/-- Whether a write is a sibling's at the level (R140, R146, R255). -/
def Cx.sibling (c : Cx) (lvl : Level) (r : WriteRec) : Bool :=
  let mine := r.lid == some c.lch.lid
  match lvl with
  | .w => false
  | .b => r.lvl == .b && mine && r.block == c.blk.rank && r.wave != c.sel.ref.wave
  | .g => r.lvl == .g && mine && r.gang == c.lch.hdr.gangOf c.blk.rank && r.block != c.blk.rank
  | .d | .s =>
    (r.lvl == .d || r.lvl == .s) &&
      (r.engine || !mine || (if c.lch.hdr.hasGang then r.gang != c.lch.hdr.gangOf c.blk.rank else r.block != c.blk.rank))

/-- A write to the same line: one address space's line, or one physical line of this device. -/
def WriteRec.onLine (r : WriteRec) (t asid line : Nat) (phys : Option Nat) : Bool :=
  match r.phys, phys with
  | some a, some b => a == b
  | _, _ => r.phys.isNone && phys.isNone && r.tenant == t && r.asid == asid && r.line == line

/-- How many bytes of the set conflict. -/
def Cx.conflicts (c : Cx) (lvl : Level) (set : List SetLine) : Nat :=
  set.foldl (fun n x =>
    let phys := if lvl == .d || lvl == .s then c.s.physOf c.ctx x.line else none
    let hit := c.s.wlog.foldl (fun m r =>
      if decide (c.window lvl < r.stamp) && c.sibling lvl r && r.onLine c.ctx.tenant c.ctx.asid x.line phys then m ||| r.mask
      else m) (0 : ByteMask)
    n + popMask (hit &&& x.mask)) 0

/-! ### Fences (spec/09 R164) -/

/-- Whether a job or an engine operation is still under way. -/
def State.underway (s : State) (id : Nat) : Bool :=
  s.jobs.any (fun j => j.id == id) || s.cores.any fun k => k.engine.any (·.id == id)

/-- Packets of a job that their receiver has not acknowledged. -/
def State.outstanding (s : State) (id : Nat) : Bool :=
  s.ports.any (fun p => p.buffer.any fun x => x.job == some id) || s.heldPackets.any fun h => h.sent.job == some id

/-- A forwarded write that its owner has not acknowledged. -/
def State.unacked (s : State) (id : Nat) : Bool := s.unsettled.any fun u => u.id == id && u.owner != .loc

/-- A packet of a wave's COMMIT.S or atomic, or one that settles a write of it, has not been acknowledged. -/
def State.awaitsAck (s : State) (w : WaveRef) : Bool :=
  s.ports.any (fun p => p.buffer.any fun x => x.wave == some w) || s.heldPackets.any fun h => h.sent.wave == some w

/-- The wave issues nothing until its owners have acknowledged what it sent (R149, R161, R163). -/
def Cx.awaitAcks (c : Cx) : Cx := if c.s.awaitsAck c.ref then c.setWv { c.wv with wait := some .acks } else c

/-- A FENCE holds the wave's next operation on a path while writes of its source paths are under way (R164). -/
def Cx.fenced (c : Cx) (path : Nat) : Bool :=
  c.wv.fences.any fun f => f.dst.getLsbD path && (f.jobs.any c.s.underway || f.writes.any c.s.unacked)

/-! ### Publication -/

/-- Put a set's line into the block buffer at a place. -/
def Cx.putBlock (c : Cx) (x : SetLine) (log : Option (Nat × Nat)) : Cx :=
  let buf := bufMerge c.blk.buf x.line x.mask x.data log (c.blk.rank, c.sel.ref.wave) (c.slotFor log) x.poison x.bad
  let c := { c with blk := { c.blk with buf := buf } }
  { c with s := c.s.logWrite c.ctx (c.writer .b false) x.line none x.mask }

/-- Place a set in the block buffer at a wave's retirement: its lines are relabelled where they stand (R141). -/
def Cx.relabelB (c : Cx) (set : List SetLine) : Cx := set.foldl (fun c x => c.putBlock x x.log) c

/-- Place a set in the block buffer for a COMMIT: the lines that stood in L1 stay there; a logged one finds room in L1 or takes a line
of the log, of which its own has become free. -/
def Cx.publishB (c : Cx) (set : List SetLine) : Cx :=
  let c := (set.filter fun x => x.log.isNone).foldl (fun c x => c.putBlock x none) c
  (set.filter fun x => x.log.isSome).foldl (fun c x =>
    let log := (c.blockPlace x.line).getD x.log
    let c := if (bufFind c.blk.buf x.line).isSome then c else c.l1Make x.line log
    c.putBlock x log) c

/-- Place a set in the gang buffer; a new line that finds neither a way nor a log line fails. -/
def Cx.publishG (c : Cx) (set : List SetLine) : Option Cx :=
  set.foldl (fun oc x =>
    match oc with
    | none => none
    | some c =>
      let old := bufFind (c.gang?.elim [] (·.buf)) x.line
      let place := if old.isSome then some none else c.gangPlace x.line
      match place with
      | none => none
      | some log =>
        let c := if old.isSome then c else c.gangMake x.line log
        let c := c.setGangBuf fun b => bufMerge b x.line x.mask x.data log (c.blk.rank, c.sel.ref.wave) (c.slotFor log) x.poison
        some { c with s := c.s.logWrite c.ctx (c.writer .g false) x.line none x.mask }) (some c)

/-- Cores that hold a block of the issuer's gang or block. -/
def Cx.groupCores (c : Cx) : List Nat :=
  c.core :: (c.s.blocks.filter fun b =>
    b.place == .resident && b.lid == c.blk.lid && c.lch.hdr.hasGang && c.lch.hdr.gangOf b.rank == c.lch.hdr.gangOf c.blk.rank).map
      (·.core)

/-- Drop a clean L1 line of some cores. -/
def State.dropL1 (s : State) (cores : List Nat) (t asid line : Nat) : State :=
  { s with cores := s.cores.zipIdx.map fun x =>
      if cores.contains x.2 then
        { x.1 with l1 := x.1.l1.filter fun l => !(l.tenant == t && l.asid == asid && l.line == line) }
      else x.1 }

/-- Check each line of a set for W, in address order (R144): the first that fails. -/
def State.checkSet (s : State) (c : Ctx) : List SetLine → State × Option (Nat × Nat × Nat)
  | [] => (s, none)
  | x :: xs =>
    match s.ensure c x.line .write with
    | (s, .fail cause pa) => (s, some (x.line, cause, pa))
    | (s, _) => s.checkSet c xs

/-- Write a checked set at D or S: in one step, with the group's clean L1 copies invalidated; not settled for the other paths
(spec/09 R163). -/
def Cx.publishD (c : Cx) (lvl : Level) (set : List SetLine) : Cx :=
  set.foldl (fun c x =>
    let phys := c.s.physOf c.ctx x.line
    let s := (c.s.writeD c.ctx { c.writer lvl false with poison := x.poison } x.line x.mask x.data).1
    let s := match phys with
      | some a =>
        let s := s.tick
        { s with unsettled := { id := s.stamp, wave := c.ref, unseen := 0xE, fenced := 0, scratch := false, loc := a,
                                mask := x.mask, old := memLine c.s.mem a } :: s.unsettled }
      | none => s
    let s := if lvl == .s then s.noReplay c.lch.lid else s
    { c with s := s.dropL1 c.groupCores c.ctx.tenant c.ctx.asid x.line }) c

/-- The cause of the uncorrectable error that a buffer which a set is drawn from holds, in SRAM or in a shadow log's memory (R319). -/
def Cx.setBad (c : Cx) (lvl : Level) : Option Nat :=
  let bufs := [c.wv.buf] ++ (if lvl == .g || lvl == .d || lvl == .s then [c.blk.buf] else []) ++
    (if lvl == .d || lvl == .s then [c.gang?.elim [] (·.buf)] else [])
  if bufs.any fun b => b.any fun x => bufBad b x.line != 0 then some 2
  else if bufs.any fun b => b.any fun x => !x.poison && c.bufSick b x.line != 0 then some 1
  else none

/-- What a commit comes to. -/
inductive PubResult where
  | ok (c : Cx)
  | conflict (c : Cx) (n : Nat)
  | fault (s : State) (t : TrapInfo)

/-- COMMIT.L and COMMIT.X.L (R144, R146) by the wave, for the lanes that issued it. -/
def Cx.publish (c : Cx) (lvl : Level) (x : Bool) (act : Mask) : PubResult :=
  let set := c.commitSet lvl
  let atD := lvl == .d || lvl == .s
  let (s, bad) := if atD then c.s.checkSet c.ctx set else (c.s, none)
  let c := { c with s := s }
  match bad with
  | some (line, cause, pa) => .fault s (memTrap cause (linePtr line) pa act 0xFFF)
  | none =>
    match c.setBad lvl with
    | some cause => .fault s (uceTrap cause act)
    | none =>
    let n := if x then c.conflicts lvl set else 0
    if n != 0 then .conflict c n
    else
      let e := c.emptied lvl
      match lvl with
      | .w => .ok c
      | .b => .ok (e.publishB set)
      | .g => match e.publishG set with
        | some e => .ok e
        | none => .fault s (memTrap cWbFull (linePtr ((set.map (·.line)).headD 0)) 0 act 0xFFF)
      | .d | .s => .ok (e.publishD lvl set)

/-! ### Writes that land at a level at once: atomics, copies, drains (R145, R151, R255) -/

/-- Bytes of one line written at a level. A new buffer line that finds no room takes a log line of the wave; with the log full it
stands beyond the log's bound (log 24). -/
def Cx.writeAt (c : Cx) (lvl : Level) (w : Writer) (line : Nat) (mask : ByteMask) (d : LineData) : Cx × Option (Nat × Nat) :=
  match lvl with
  | .w | .b =>
    let log := (c.blockPlace line).getD (some (c.blk.rank, c.sel.ref.wave))
    let c := if (bufFind c.blk.buf line).isSome then c else c.l1Make line log
    let c := { c with blk := { c.blk with buf := bufMerge c.blk.buf line mask d log (c.blk.rank, c.sel.ref.wave) (c.slotFor log) w.poison } }
    ({ c with s := c.s.logWrite c.ctx w line none mask }, none)
  | .g =>
    let log := (c.gangPlace line).getD (some (c.blk.rank, c.sel.ref.wave))
    let c := if (bufFind (c.gang?.elim [] (·.buf)) line).isSome then c else c.gangMake line log
    let c := c.setGangBuf fun b => bufMerge b line mask d log (c.blk.rank, c.sel.ref.wave) (c.slotFor log) w.poison
    ({ c with s := c.s.logWrite c.ctx w line none mask }, none)
  | .d | .s =>
    let (s, bad) := c.s.writeD c.ctx w line mask d
    let s := match s.physOf c.ctx line with
      | some a => s.settleAt false a mask
      | none => s
    ({ c with s := if lvl == .s then s.noReplay c.lch.lid else s }, bad)

/-! ### Windows and retirement -/

/-- ACQ.L opens the window (R148). -/
def Cx.openWindow (c : Cx) (lvl : Level) : Cx :=
  let c := { c with s := c.s.tick }
  let w := c.wv
  c.setWv (match lvl with
    | .w => w
    | .b => { w with winB := c.s.stamp }
    | .g => { w with winG := c.s.stamp }
    | .d => { w with winD := c.s.stamp }
    | .s => { w with winS := c.s.stamp })

/-- A wave whose last thread has exited retires: it commits to B, unchecked (R150). -/
def Cx.retireWave (c : Cx) : Cx :=
  if c.wv.alive == 0 && !c.wv.retired then
    let set := c.commitSet .b
    let c := (c.emptied .b).relabelB set
    c.setWv { c.wv with retired := true, groups := [], wait := none, pend := [] }
  else c

end Sys2Proof.Machine
end

