-- ==== Sys2Proof/Machine/Tensor.lean ====
section
/-!
DEFINITION. Entries of the tensor table (spec/03 R59 to R64): fields, validity, formats, and the places of elements and scales.
-/

namespace Sys2Proof.Machine

def entW (e : TEntry) (i : Nat) : DWord := e.getD i 0

/-! ### Word 0 (R60, R61) -/

def entV (e : TEntry) : Bool := (entW e 0).getLsbD 63
def entRank (e : TEntry) : Nat := ((entW e 0).extractLsb' 58 3).toNat
def entPl (e : TEntry) : Bool := (entW e 0).getLsbD 57
def entSwz (e : TEntry) : Nat := ((entW e 0).extractLsb' 54 3).toNat
def entScm (e : TEntry) : Nat := ((entW e 0).extractLsb' 52 2).toNat
def entFmt (e : TEntry) : BitVec 24 := (entW e 0).extractLsb' 0 24
def entCls (e : TEntry) : Nat := ((entFmt e).extractLsb' 20 4).toNat
def entIw (e : TEntry) : Nat := ((entFmt e).extractLsb' 18 2).toNat
def entSg (e : TEntry) : Bool := (entFmt e).getLsbD 17
def entEb (e : TEntry) : Nat := ((entFmt e).extractLsb' 14 3).toNat
def entMb (e : TEntry) : Nat := ((entFmt e).extractLsb' 10 4).toNat
def entSpv (e : TEntry) : Bool := (entFmt e).getLsbD 9
def entBias (e : TEntry) : Int := ((entFmt e).extractLsb' 0 8).toInt

/-- The element width (R61). -/
def entWidth (e : TEntry) : Nat :=
  match entCls e with
  | 0 | 1 => 8 * 2 ^ entIw e
  | 2 | 8 => 32
  | 3 | 4 | 7 => 16
  | 6 => 8
  | 5 => (entSg e).toNat + entEb e + entMb e
  | _ => 0

/-- The float or narrow format of an entry. -/
def entFloat (e : TEntry) : Fmt :=
  match entCls e with
  | 2 => Fmt.f32
  | 3 => Fmt.f16
  | 4 => Fmt.bf16
  | _ => { sg := entSg e, eb := entEb e, mb := entMb e, bias := entBias e, spv := entSpv e }

/-! ### Words 1 to 7 (R62) -/

def entBase (e : TEntry) : DWord := entW e 1
def entScale (e : TEntry) : DWord := entW e 2
def entSize (e : TEntry) (d : Nat) : Nat := ((entW e (3 + d)).extractLsb' 40 24).toNat
def entStride (e : TEntry) (d : Nat) : Nat := ((entW e (3 + d)).extractLsb' 0 40).toNat

/-- SIZE_d of a dimension in use; a dimension beyond RANK has one index. -/
def entExtent (e : TEntry) (d : Nat) : Nat := if d < entRank e then entSize e d else 1

/-! ### Validity (R63) -/

/-- The FMT fields that the class does not use are zero. -/
def entFmtOk (e : TEntry) : Bool :=
  let f := entFmt e
  match entCls e with
  | 0 | 1 => f.extractLsb' 0 18 == 0
  | 5 => f.extractLsb' 18 2 == 0 && !f.getLsbD 8 && decide (1 ≤ entWidth e) && decide (entWidth e ≤ 8) &&
         (entEb e != 0 || entMb e != 0) && (!entSpv e || decide (2 ≤ entEb e))
  | 2 | 3 | 4 | 6 | 7 | 8 => f.extractLsb' 0 20 == 0
  | _ => false

def entDimOk (e : TEntry) (d : Nat) : Bool :=
  if d < entRank e then entSize e d != 0 && (if d == 0 then entStride e 0 == 0 else entStride e d % 16 == 0)
  else entW e (3 + d) == 0

def entValid (e : TEntry) : Bool :=
  entV e && (entW e 0).extractLsb' 61 2 == 0 && (entW e 0).extractLsb' 24 28 == 0 && entFmtOk e &&
  decide (1 ≤ entRank e) && decide (entRank e ≤ 5) && (List.range 5).all (entDimOk e) &&
  (entBase e).toNat % 16 == 0 && (!entPl e || decide (entWidth e ≤ 16)) && decide (entSwz e ≤ 6) &&
  (entScm e == 0 || (entScm e == 1 && (entCls e == 5 || entCls e == 3 || entCls e == 4) && (entScale e).toNat % 16 == 0))

/-- No dimension of size above 1 has a zero stride, as a destination needs (R64). Dimension 0 is packed. -/
def entWritable (e : TEntry) : Bool :=
  (List.range 5).all fun d => d == 0 || !(decide (d < entRank e) && decide (1 < entSize e d) && entStride e d == 0)

/-! ### Tiles (spec/02 R53, R67) -/

/-- Elements of a tile row for width w. -/
def tileK (w : Nat) : Nat := if w ≤ 16 then (if w ∣ 1536 then 1536 / w else 1536 / w / 32 * 32) else 1536 / w

/-- Scale blocks of a tile row, and the segments of the scale area. -/
def scaleBlocks (w : Nat) : Nat := tileK w / 32
def scaleSegs (w : Nat) : Nat := if scaleBlocks w ≤ 32 then 1 else 2

/-- Segments a tile takes through an entry. -/
def tileSegs (e : TEntry) : Nat := 6 + if entScm e == 1 then scaleSegs (entWidth e) else 0

/-- Origin coordinates from the scalars at so on (R67): only the registers that RANK needs. -/
def originOf (e : TEntry) (words : List DWord) : List Nat :=
  let w (i : Nat) : Nat := (words.getD i 0).toNat
  let all := [w 0 % 2 ^ 32, w 0 / 2 ^ 32, w 1 % 2 ^ 32, w 1 / 2 ^ 32, w 2 % 2 ^ 32]
  (List.range 5).map fun d => if d < entRank e then all.getD d 0 else 0

/-- How many origin registers RANK needs. -/
def originRegs (e : TEntry) : Nat := (entRank e + 1) / 2

/-- An element of the tile: its coordinates, and whether it is in bounds. -/
def tileCoord (o : List Nat) (i e : Nat) : List Nat := [o.getD 0 0 + e, o.getD 1 0 + i, o.getD 2 0, o.getD 3 0, o.getD 4 0]

def inBounds (e : TEntry) (x : List Nat) : Bool := (List.range 5).all fun d => decide (x.getD d 0 < entExtent e d)

/-- Byte offset of a row's start from BASE, and of an element's first bit. -/
def rowOffset (e : TEntry) (x : List Nat) : Nat :=
  (List.range 4).foldl (fun n d => n + x.getD (d + 1) 0 * entStride e (d + 1)) 0

/-- The pointer of the byte that holds bit b of the row that coordinates x name, and the bit within it. -/
def bitPlace (e : TEntry) (x : List Nat) (b : Nat) : DWord × Nat :=
  (ptrAdd (entBase e) ((rowOffset e x + b / 8 : Nat)), b % 8)

/-- The pointer of the scale byte of the block of 32 elements that holds coordinates x (R62). -/
def scalePlace (e : TEntry) (x : List Nat) : DWord :=
  let nb := (entSize e 0 + 31) / 32
  let rho := x.getD 1 0 + entExtent e 1 * (x.getD 2 0 + entExtent e 2 * (x.getD 3 0 + entExtent e 3 * x.getD 4 0))
  ptrAdd (entScale e) ((nb * rho + x.getD 0 0 / 32 : Nat))

/-- The fill code of out-of-bounds elements (R67). -/
def fillCode (e : TEntry) : Nat :=
  match entCls e with
  | 6 => 0x80
  | 7 => 0x8000
  | 8 => 0x80000000
  | _ => 0

/-! ### Handles (R64) -/

def Ctx.entry (c : Ctx) (h : Nat) : TEntry := c.table.getD h []

/-- BADHANDLE unless the entry is valid and meets a condition of the instruction. -/
def needs (h : BitVec 8) (ok : TEntry → Bool) (c : Cx) : Option Nat :=
  let e := c.ctx.entry h.toNat
  if entValid e && ok e then none else some h.toNat

end Sys2Proof.Machine
end

