-- ==== Sys2Proof/Machine/Scratch.lean ====
section
/-!
DEFINITION. Scratch segments (spec/02 R48 to R53): swizzles, tags, reads and writes of bytes, and reads on the copy and matrix
paths (spec/09 R163).
-/

namespace Sys2Proof.Machine

/-- A bit of an offset as a number. -/
def bitAt (o i : Nat) : Nat := o / 2 ^ i % 2

/-- The physical offset of a logical offset within a segment (R50). -/
def swz (s o : Nat) : Nat :=
  let f := match s with
    | 1 => bitAt o 7
    | 2 => bitAt o 7 + 2 * bitAt o 8
    | 3 => bitAt o 7 + 2 * bitAt o 8 + 4 * bitAt o 9
    | 4 => bitAt o 8 + 2 * bitAt o 9
    | 5 => bitAt o 9
    | 6 => 4 * bitAt o 7 + 2 * bitAt o 8 + bitAt o 9
    | _ => 0
  o ^^^ (16 * f)

/-- Layout bit and swizzle code of a tag (R49). -/
def tagPl (t : BitVec 4) : Bool := t.getLsbD 3
def tagSwz (t : BitVec 4) : Nat := t.toNat % 8

/-- The tag after a write (R51). -/
def tagAfter (old new : BitVec 4) (whole : Bool) : BitVec 4 :=
  if whole then new else if tagSwz old == 7 || old == new then old else old ||| 7

def noSegment : Segment := { data := 0, tag := 0 }

def Core.seg (k : Core) (n : Nat) : Segment := k.segs.getD n noSegment

def Core.setSeg (k : Core) (n : Nat) (x : Segment) : Core := { k with segs := setAt noSegment n x k.segs }

/-- Byte i of a little-endian number, and the number with that byte replaced. -/
def natByte (d i : Nat) : Nat := d / 2 ^ (8 * i) % 256

def natSetByte (d i b : Nat) : Nat := (d ^^^ (natByte d i * 2 ^ (8 * i))) ||| (b * 2 ^ (8 * i))

/-- The number of a 64-byte piece of scratch over all cores. -/
def pieceNo (core seg piece : Nat) : Nat := (core * 1536 + seg) * 16 + piece

/-- Write some bytes of a segment, at physical offsets, as one write (R51). A double word written whole loses its error. -/
def State.putSeg (s : State) (core seg : Nat) (bytes : List (Nat × Nat)) (tag : BitVec 4) : State :=
  let k := s.core core
  let old := k.seg seg
  let mask := bytes.foldl (fun m x => m ||| 2 ^ x.1) 0
  let data := bytes.foldl (fun d x => natSetByte d x.1 x.2) old.data
  let k := k.setSeg seg { data := data, tag := tagAfter old.tag tag (mask == 2 ^ 1024 - 1) }
  s.setCore core { k with badScratch := k.badScratch.filter fun w =>
    !(w / 128 == seg && mask / 2 ^ (w % 128 * 8) % 256 == 255) }

/-- A scratch write of another wave that no phase orders before a wave's next write (spec/09 R166). -/
def Unsettled.races (u : Unsettled) (w : WaveRef) (loc : Nat) : Bool := u.wave != w && u.hides 0 (some w) && u.on .loc true loc

/-- The bytes that a wave's STB leaves in a segment: where it meets an unordered STB of another wave, either value stays (R166). -/
def State.stbRace (s : State) (w : WaveRef) (core seg old : Nat) (bytes : List (Nat × Nat)) : State × List (Nat × Nat) :=
  if s.unsettled.any fun u => u.wave != w && u.hides 0 (some w) && u.scratch && u.loc / 16 == core * 1536 + seg then
    (List.range 16).foldl (fun (x : State × List (Nat × Nat)) p =>
      let met := (x.1.unsettled.filter fun u => u.races w (pieceNo core seg p)).foldl (fun m u => m ||| u.mask) (0 : ByteMask)
      let (b, s) := x.1.draw 64
      let lost (o : Nat) : Bool := o / 64 == p && (met &&& b).getLsbD (o % 64)
      (s, x.2.map fun y => if lost y.1 then (y.1, natByte old y.1) else y)) (s, bytes)
  else (s, bytes)

/-- The bytes a core write has left unsettled in a segment (spec/09 R163). -/
def State.unsettleSeg (s : State) (w : WaveRef) (core seg : Nat) (old : Nat) (bytes : List (Nat × Nat)) : State :=
  let mask := bytes.foldl (fun m x => m ||| 2 ^ x.1) 0
  (List.range 16).foldl (fun s p =>
    let m := mask / 2 ^ (64 * p) % 2 ^ 64
    if m == 0 then s
    else { s with unsettled := { id := s.stamp, wave := w, unseen := 0x7, fenced := 0, scratch := true, loc := pieceNo core seg p,
                                 mask := BitVec.ofNat 64 m, old := BitVec.ofNat 512 (old / 2 ^ (512 * p)) } :: s.unsettled }) s

/-- A whole segment written by an engine: its bytes in logical order, under a swizzle and layout; every byte settles. -/
def State.putWhole (s : State) (core seg : Nat) (data : Nat) (tag : BitVec 4) : State :=
  let sw := tagSwz tag
  let s := s.putSeg core seg ((List.range 1024).map fun o => (swz sw o, natByte data o)) tag
  (List.range 16).foldl (fun s p => s.settleAt true (pieceNo core seg p) (BitVec.allOnes 64)) s

/-- Whether some double word of a segment's bytes has an uncorrectable error (R54). -/
def Core.badBytes (k : Core) (seg : Nat) (offs : List Nat) : Bool := offs.any fun o => k.badScratch.contains (seg * 128 + o / 8)

/-- A segment as a path reads it for a wave, or for none: unsettled bytes take either value. -/
def State.readSeg (s : State) (path : Nat) (me : Option WaveRef) (core seg : Nat) : State × Nat :=
  let d := ((s.core core).seg seg).data
  if s.unsettled.any (fun u => u.hides path me && u.scratch && u.loc / 16 == core * 1536 + seg) then
    (List.range 16).foldl (fun (x : State × Nat) p =>
      let (s, piece) := x.1.readUnsettled path me .loc true (pieceNo core seg p) (BitVec.ofNat 512 (d / 2 ^ (512 * p)))
      (s, x.2 + piece.toNat * 2 ^ (512 * p))) (s, 0)
  else (s, d)

/-- Logical bytes of n consecutive segments under a swizzle, as one number, with whether an error was met in a byte that the reader
uses. -/
def State.readTile (s : State) (path : Nat) (me : Option WaveRef) (core seg n sw : Nat) (uses : Nat → Bool) : State × Nat × Bool :=
  (List.range n).foldl (fun (x : State × Nat × Bool) i =>
    let (s, d) := x.1.readSeg path me core (seg + i)
    let logical := (List.range 1024).foldr (fun o acc => natByte d (swz sw o) + 256 * acc) 0
    let k := s.core core
    let bad := !k.badScratch.isEmpty && k.badBytes (seg + i) (((List.range 1024).filter fun o => uses (1024 * i + o)).map (swz sw))
    (s, x.2.1 + logical * 2 ^ (8192 * i), x.2.2 || bad)) (s, 0, false)

/-- Segments of a core as the issuing wave's LDB reads them. -/
def State.readSegs (s : State) (me : WaveRef) (core : Nat) (segs : List Nat) : State × List (Nat × Nat) :=
  segs.foldl (fun (x : State × List (Nat × Nat)) n =>
    let (s, d) := x.1.readSeg 0 (some me) core n
    (s, x.2 ++ [(n, d)])) (s, [])

/-! ### Tiles in scratch (R53) -/

/-- The tile bit that holds bit b of element e of operand row i, for width w. -/
def tileBit (pl : Bool) (w i e b : Nat) : Nat :=
  if pl then 8 * (b * (4 * tileK w)) + (tileK w * i + e) else 8 * (192 * i) + w * e + b

/-- A tile byte that the rows from lo to hi − 1 use: no reader uses the room after their elements (R53). -/
def tileUses (pl : Bool) (w lo hi b : Nat) : Bool :=
  let k := tileK w
  let row := if pl then 8 * (b % (4 * k)) / k else b / 192
  (if pl then decide (b / (4 * k) < w) else decide (8 * (b % 192) < k * w)) && decide (lo ≤ row) && decide (row < hi)

/-- A byte of the scale area that those rows use. -/
def scaleUses (w lo hi b : Nat) : Bool := decide (tileK w / 32 * lo ≤ b) && decide (b < tileK w / 32 * hi)

/-- Element e of row i of a tile. -/
def tileElem (pl : Bool) (w : Nat) (tile i e : Nat) : Nat :=
  if pl then (List.range w).foldl (fun n b => n + bitAt tile (tileBit true w i e b) * 2 ^ b) 0
  else tile / 2 ^ tileBit false w i e 0 % 2 ^ w

/-- A tile of 32 rows of elements: the unused room reads zero. Rows are gathered first, then placed plane by plane. -/
def tileMake (pl : Bool) (w : Nat) (elem : Nat → Nat → Nat) : Nat :=
  let k := tileK w
  let rows := (List.range 32).map fun i => (List.range k).map (elem i)
  if pl then
    (List.range w).foldl (fun t b =>
      let plane := (rows.foldr (fun r acc => r.foldr (fun x acc => bitAt x b + 2 * acc) acc) 0)
      t + plane * 2 ^ (8 * (b * (4 * k)))) 0
  else
    (rows.zipIdx).foldl (fun t r => t + (r.1.foldr (fun x acc => x % 2 ^ w + 2 ^ w * acc) 0) * 2 ^ (8 * 192 * r.2)) 0

/-- Segment i of a tile. -/
def tileSeg (tile i : Nat) : Nat := tile / 2 ^ (8192 * i) % 2 ^ 8192

/-! ### Segments that the engine queue is to read (spec/15 R275, spec/14 R265) -/

/-- Segments of an operand of an MMA or PMMA in the engine queue. -/
def EngOp.reads (o : EngOp) (seg : Nat) : Bool :=
  match o.op with
  | .mma _ _ _ | .pmma _ _ _ _ =>
    (decide (o.segA ≤ seg) && decide (seg < o.segA + tileSegs o.entryA)) ||
    (decide (o.segB ≤ seg) && decide (seg < o.segB + tileSegs o.entryB))
  | _ => false

def State.engineReads (s : State) (core seg : Nat) : Bool := (s.core core).engine.any fun o => o.reads seg

end Sys2Proof.Machine
end

