-- ==== Sys2Proof/Machine/Mem.lean ====
section
/-!
DEFINITION. Loads, stores, scratch accesses, atomics, polling waits, commits, aborts, acquires, FENCE and ICINV (spec/14 R243 to
R252, spec/08 R142 to R149, spec/09 R164, R170).
-/

namespace Sys2Proof

/-- The width of an element type. -/
def ETy.width : ETy → Nat
  | .int t => t.width
  | .flt .f32 => 32
  | .flt _ => 16
  | .pha p => p.bits

def ETy.bytes (t : ETy) : Nat := t.width / 8

def ETy.wide (t : ETy) : Bool := t.width == 64

/-- What a loaded element becomes (R244): integers extend by their signedness, every other element with zeros. -/
def ETy.load (t : ETy) (x : Nat) : DWord :=
  match t with
  | .int t => t.result (x : Int)
  | _ => BitVec.ofNat 64 x

/-- Registers of an address, base before offset. -/
def Addr.opds (a : Addr) : List Machine.Opd :=
  Machine.vsOpd true false a.base :: (match a.off with
    | .none => []
    | .v n => [Machine.rdV n false]
    | .s n => [Machine.rdS n 1])

def Addr.offLast (a : Addr) : List Nat :=
  match a.off with
  | .v n => Machine.regsOf n false
  | _ => []

end Sys2Proof

namespace Sys2Proof.Machine

/-! ### Lanes and lines -/

/-- The bytes of an element within its line. -/
def elemMask (p : DWord) (n : Nat) : ByteMask := BitVec.ofNat 64 ((2 ^ n - 1) * 2 ^ lineOff p)

/-- The lines that lanes touch, each with the bytes they need, in order of first lane. -/
def lineNeeds (ptr : Nat → DWord) (n : Nat) : List Nat → List (Nat × ByteMask) → List (Nat × ByteMask)
  | [], acc => acc
  | l :: ls, acc =>
    let line := lineNo (ptr l)
    let m := elemMask (ptr l) n
    lineNeeds ptr n ls
      (if acc.any (fun x => x.1 == line) then acc.map fun x => if x.1 == line then (line, x.2 ||| m) else x
       else acc ++ [(line, m)])

/-- What was read of some lines. -/
abbrev Got := List (Nat × ReadResult)

/-- Read lines as a wave sees them from a level on: buffered bytes first; the others from the core's L1 and below (`viaL1`), or
at D. A line whose needed bytes are all buffered is not read. -/
def Cx.readLines (c : Cx) (lvl : Level) (viaL1 : Bool) : List (Nat × ByteMask) → Got → Cx × Got
  | [], got => (c, got)
  | (line, need) :: rest, got =>
    let h := c.held lvl line
    if need &&& ~~~h.1 == 0 then Cx.readLines c lvl viaL1 rest (got ++ [(line, .ok h.2 false)])
    else
      let (s, r) := if viaL1 then c.s.readCore c.core c.ctx line else c.s.readD c.ctx line .read false
      let r := match r with
        | .ok d p => ReadResult.ok (mergeLine d h.2 h.1) p
        | r => r
      Cx.readLines { c with s := s } lvl viaL1 rest (got ++ [(line, r)])

def Got.of (g : Got) (p : DWord) : Option ReadResult := (g.find? fun x => x.1 == lineNo p).map (·.2)

/-- The lanes of a mask whose line satisfies a test. -/
def Got.lanes (g : Got) (act : Mask) (ptr : Nat → DWord) (q : ReadResult → Bool) : Mask :=
  maskOf fun l => act.getLsbD l && (g.of (ptr l)).elim false q

def ReadResult.failed : ReadResult → Bool
  | .fail _ _ => true
  | _ => false

def ReadResult.poisoned : ReadResult → Bool
  | .ok _ p => p
  | _ => false

/-- The element a lane reads. -/
def Got.elem (g : Got) (p : DWord) (n : Nat) : Nat :=
  match g.of p with
  | some (.ok d _) => d.toNat / 2 ^ (8 * lineOff p) % 2 ^ (8 * n)
  | _ => 0

/-- The forwarded line that is not held yet, if any. -/
def Got.away (g : Got) : Option L2Line := g.findSome? fun x => match x.2 with
  | .away l => some l
  | _ => none

/-- MEMFAULT of the lanes whose line failed its check: the lowest one supplies cause and address (R307). -/
def Got.fault (g : Got) (act : Mask) (ptr : Nat → DWord) (vreg : Nat) : Option TrapInfo :=
  let bad := g.lanes act ptr ReadResult.failed
  if bad == 0 then none
  else
    let p := ptr (lowestLane bad)
    match g.of p with
    | some (.fail cause pa) => some (memTrap cause p pa bad vreg)
    | _ => none

/-- ALIGN of the lanes whose address is no multiple of the element size. -/
def misaligned (act : Mask) (ptr : Nat → DWord) (n : Nat) : Option TrapInfo :=
  let bad := maskOf fun l => act.getLsbD l && (ptr l).toNat % n != 0
  if bad == 0 then none else some (alignTrap (ptr (lowestLane bad)) bad)

/-- Wait for a forwarded line: its owner is asked for it (spec/01 R27), on the link path, which a FENCE may hold (spec/09 R162, R164). -/
def Cx.awaitLine (c : Cx) (l : L2Line) (atomic : Bool) : Res :=
  if c.fenced 3 then .wait c.s .retry else .wait (c.s.requestLine c.ctx.tenant l) (.forward l.line atomic)

/-- Whether a line lies with another owner. -/
def State.isFar (s : State) (c : Ctx) (line : Nat) : Bool :=
  match s.placeOf c line with
  | some (o, _) => o != .loc
  | none => false

/-- The bytes of a line that a core's clean L1 line holds with an uncorrectable error. -/
def Core.l1Bad (k : Core) (t asid line : Nat) : ByteMask :=
  match k.l1.find? fun l => l.tenant == t && l.asid == asid && l.line == line with
  | some l => dwordBytes l.bad
  | none => 0

/-- The lanes whose element, read from a level on, takes a byte of the core's SRAM with an uncorrectable error (R54, R319). -/
def Cx.worn (c : Cx) (lvl : Level) (viaL1 : Bool) (act : Mask) (ptr : Nat → DWord) (n : Nat) : Mask :=
  maskOf fun l => act.getLsbD l && (
    let line := lineNo (ptr l)
    let far := if viaL1 then (c.s.core c.core).l1Bad c.ctx.tenant c.ctx.asid line &&& ~~~(c.held lvl line).1 else 0
    elemMask (ptr l) n &&& (c.heldBad lvl line ||| far) != 0)

/-- The lanes whose element takes a poisoned byte of a buffer (R39, spec/03 R73). -/
def Cx.sickLanes (c : Cx) (lvl : Level) (act : Mask) (ptr : Nat → DWord) (n : Nat) : Mask :=
  maskOf fun l => act.getLsbD l && elemMask (ptr l) n &&& c.heldSick lvl (lineNo (ptr l)) != 0

/-- What a read of lanes comes to: a trap, a wait, or the bytes. -/
def Cx.readLanes (c : Cx) (lvl : Level) (viaL1 : Bool) (act : Mask) (ptr : Nat → DWord) (n vreg : Nat) (k : Cx → Got → Res) : Res :=
  match misaligned act ptr n with
  | some t => .trap c.s t
  | none =>
    let (c, g) := c.readLines lvl viaL1 (lineNeeds ptr n (lanesOf act) []) []
    match g.fault act ptr vreg with
    | some t => .trap c.s t
    | none =>
      match g.away with
      | some l => c.awaitLine l false
      | none =>
        let bad := g.lanes act ptr ReadResult.poisoned ||| c.sickLanes lvl act ptr n
        let worn := c.worn lvl viaL1 act ptr n
        if bad != 0 then .trap c.s (uceTrap 1 bad)
        else if worn != 0 then .trap c.s (uceTrap 2 worn)
        else k c g

/-- An instruction that begins an operation on a path waits for the FENCEs that hold it (spec/09 R164). -/
def onPath (path : Nat) (body : Cx → Mask → Res) (c : Cx) (act : Mask) : Res :=
  if c.fenced path then .wait c.s .retry else body { c with s := c.s.settlePath c.ref path } act

/-! ### Addresses (R243) -/

def Cx.addr (c : Cx) (a : Addr) (l : Nat) : DWord :=
  let off : Int := match a.off with
    | .none => 0
    | .v n => ((c.vec n false l).setWidth 32).toInt
    | .s n => ((c.scl n l).setWidth 32).toInt
  ptrAdd (c.vs a.base true l) (off * 2 ^ a.sh.toNat + a.disp.toInt)

/-- Base and displacement of ATOM and WAITV. -/
def Cx.based (c : Cx) (base : VS) (disp : Int) (l : Nat) : DWord := ptrAdd (c.vs base true l) disp

/-! ### LD and ST (R244, R245) -/

def execLd (h : Hdr) (t : ETy) (o : OpsLd) (s : State) : Host.Outcome State Fault Refusal :=
  match o with
  | .vec d a =>
    issue h { len := 12, ops := a.opds ++ [wrV d t.wide], lastA := vsLast true a.base, lastB := a.offLast }
      (onPath 0 fun c act =>
        c.readLanes .w true act (c.addr a) t.bytes d.toNat fun x g =>
          .done x fun r => r.put (.v d t.wide) act fun l => t.load (g.elem (c.addr a l) t.bytes)) s
  | .uni d base off sh disp =>
    let a : Addr := { base := .s base, off := match off with
                        | some n => .s n
                        | none => .none, sh := sh, disp := disp }
    issue h { len := 12, uni := true, ops := a.opds ++ [wrS d 1] }
      (onPath 0 fun c act =>
        let p := c.addr a (lowestLane act)
        c.readLanes .w true act (fun _ => p) t.bytes 0xFFF fun x g =>
          .done x fun r => r.put (.s d) act fun _ => t.load (g.elem p t.bytes)) s

/-- Check lines for an access. -/
def State.checkLines (s : State) (c : Ctx) (acc : Access) : List (Nat × ByteMask) → Got → State × Got
  | [], got => (s, got)
  | (line, _) :: rest, got =>
    match s.ensure c line acc with
    | (s, .ok _) | (s, .away _) => s.checkLines c acc rest (got ++ [(line, .ok 0 false)])
    | (s, .fail cause pa) => s.checkLines c acc rest (got ++ [(line, .fail cause pa)])

/-- Bytes of lanes in one line, ascending, so that the highest lane's byte is kept. -/
def laneBytes (ptr : Nat → DWord) (val : Nat → Nat) (n line : Nat) (lanes : List Nat) : LineData :=
  lanes.foldl (fun d l =>
    if lineNo (ptr l) == line then mergeLine d (BitVec.ofNat 512 (val l % 2 ^ (8 * n) * 2 ^ (8 * lineOff (ptr l)))) (elemMask (ptr l) n)
    else d) 0

/-- Put lines into the wave buffer; the lines that found no room. A new line in L1 takes a way of its set. -/
def Cx.storeLines (c : Cx) (data : Nat → LineData) : List (Nat × ByteMask) → List Nat → Cx × List Nat
  | [], full => (c, full)
  | (line, m) :: rest, full =>
    if (bufFind c.wv.buf line).isSome then (c.setWv { c.wv with buf := bufMerge c.wv.buf line m (data line) none }).storeLines data rest full
    else
      match c.wavePlace line with
      | none => c.storeLines data rest (line :: full)
      | some log =>
        let x := c.l1Make line log
        (x.setWv { x.wv with buf := bufMerge x.wv.buf line m (data line) log (slot := x.slotFor log) }).storeLines data rest full

def execSt (h : Hdr) (t : ETy) (a : Addr) (data : BitVec 12) (s : State) : Host.Outcome State Fault Refusal :=
  issue h { len := 12, ops := a.opds ++ [rdRaw data t.wide], lastA := regsOf data t.wide, lastB := a.offLast }
    (fun c act =>
      match misaligned act (c.addr a) t.bytes with
      | some tr => .trap c.s tr
      | none =>
        let needs := lineNeeds (c.addr a) t.bytes (lanesOf act) []
        let (s, g) := c.s.checkLines c.ctx .write needs []
        let (x, full) := { c with s := s }.storeLines
          (fun line => laneBytes (c.addr a) (fun l => (c.vec data t.wide l).toNat) t.bytes line (lanesOf act)) needs []
        let g : Got := g.map fun y => if full.contains y.1 && !y.2.failed then (y.1, ReadResult.fail cWbFull 0) else y
        match g.fault act (c.addr a) 0xFFF with
        | some tr => .trap s tr
        | none => .done x id) s

/-! ### LDB and STB (R246, R247) -/

/-- The byte offset of a lane. -/
def Cx.scOff (c : Cx) (off : VS) (disp : BitVec 32) (l : Nat) : Int := ((c.vs off false l).setWidth 32).toInt + disp.toInt

/-- ALIGN and REGBOUND of a scratch access. -/
def Cx.scTrap (c : Cx) (queue : Bool) (sym : Nat) (act : Mask) (off : Nat → Int) (n : Nat) : Option TrapInfo :=
  let kind := if queue then kQueue else kBuffer
  let odd := maskOf fun l => act.getLsbD l && off l % (n : Int) != 0
  let out := maskOf fun l => act.getLsbD l && (off l < 0 || decide (1024 * c.segCount queue sym < off l + n))
  if odd != 0 then
    some { laneTrap tAlign 0 0 odd with symKind := kind, sym := sym, offset := BitVec.ofInt 64 (off (lowestLane odd)) }
  else if out != 0 then
    let o := off (lowestLane out)
    some { laneTrap tMemFault cRegBound (infoScratch (o.toNat / 1024) queue sym 0 0) out with
             symKind := kind, sym := sym, offset := BitVec.ofInt 64 o }
  else none

/-- Segment and physical offset of each byte of a lane's element. -/
def Cx.scBytes (c : Cx) (queue : Bool) (sym : Nat) (o : Int) (n : Nat) : List (Nat × Nat) :=
  let sw := tagSwz (c.symTag queue sym)
  (List.range n).map fun i =>
    let b := o.toNat + i
    (c.segAt queue sym + b / 1024, swz sw (b % 1024))

def execLdb (h : Hdr) (t : ETy) (d : BitVec 12) (off : VS) (queue : Bool) (sym : BitVec 8) (disp : BitVec 32) (s : State) :
    Host.Outcome State Fault Refusal :=
  issue h { len := 16, ops := [vsOpd false false off, wrV d t.wide], lastA := vsLast false off,
            syms := [(if queue then kQueue else kBuffer, sym.toNat, 0, 0)] }
    (onPath 0 fun c act =>
      match c.scTrap queue sym.toNat act (c.scOff off disp) t.bytes with
      | some tr => .trap c.s { tr with vreg := if tr.cls == tMemFault then d.toNat else 0xFFF }
      | none =>
        let k := c.s.core c.core
        let places (l : Nat) := c.scBytes queue sym.toNat (c.scOff off disp l) t.bytes
        let bad := maskOf fun l => act.getLsbD l && (places l).any fun p => k.badBytes p.1 [p.2]
        if bad != 0 then .trap c.s (uceTrap 2 bad)
        else
          let (s, segs) := c.s.readSegs c.ref c.core (((lanesOf act).flatMap fun l => (places l).map (·.1)).eraseDups)
          let data (n : Nat) : Nat := (segs.lookup n).getD 0
          .done { c with s := s } fun r => r.put (.v d t.wide) act fun l =>
            t.load ((places l).foldr (fun p acc => natByte (data p.1) p.2 + 256 * acc) 0)) s

/-- The bytes of lanes gathered by segment, ascending lanes. -/
def scGather (places : Nat → List (Nat × Nat)) (val : Nat → Nat) : List Nat → List (Nat × List (Nat × Nat)) →
    List (Nat × List (Nat × Nat))
  | [], acc => acc
  | l :: ls, acc =>
    let bytes := (places l).zipIdx.map fun p => (p.1.1, p.1.2, natByte (val l) p.2)
    scGather places val ls (bytes.foldl (fun acc b =>
      if acc.any (fun x => x.1 == b.1) then acc.map fun x => if x.1 == b.1 then (x.1, x.2 ++ [b.2]) else x
      else acc ++ [(b.1, [b.2])]) acc)

def execStb (h : Hdr) (t : ETy) (off : VS) (queue : Bool) (sym : BitVec 8) (disp : BitVec 32) (data : BitVec 12) (s : State) :
    Host.Outcome State Fault Refusal :=
  issue h { len := 16, ops := [vsOpd false false off, rdRaw data t.wide], lastA := vsLast false off, lastB := regsOf data t.wide,
            syms := [(if queue then kQueue else kBuffer, sym.toNat, 0, 0)] }
    (onPath 0 fun c act =>
      match c.scTrap queue sym.toNat act (c.scOff off disp) t.bytes with
      | some tr => .trap c.s tr
      | none =>
        let places (l : Nat) := c.scBytes queue sym.toNat (c.scOff off disp l) t.bytes
        let segs := scGather places (fun l => (c.vec data t.wide l).toNat) (lanesOf act) []
        if segs.any (fun x => c.s.engineReads c.core x.1) then .wait c.s .retry
        else
          let s := segs.foldl (fun (s : State) x =>
            let old := ((s.core c.core).seg x.1).data
            let (s, bytes) := s.stbRace c.ref c.core x.1 old x.2
            (s.putSeg c.core x.1 bytes (c.symTag queue sym.toNat)).unsettleSeg c.ref c.core x.1 old bytes) c.s.tick
          .done { c with s := s } id) s

/-! ### ATOM (R250, R251, spec/01 R28) -/

/-- The value an atomic writes, if it writes one, with its flags. -/
def atomNew (op : AtomOp) (t : ETy) (old b cmp : Nat) : Option Nat × Flags :=
  match op with
  | .xchg => (some b, 0)
  | .cas => (if old == cmp then some b else none, 0)
  | .and => (some (old &&& b), 0)
  | .or => (some (old ||| b), 0)
  | .xor => (some (old ^^^ b), 0)
  | .add =>
    match t with
    | .int t => (some (lowBits t.width (old + b : Nat)), 0)
    | _ => let (x, f) := fadd Fmt.f32 .rn false old b; (some x, f)
  | .min | .max =>
    match t with
    | .int t =>
      let x := t.read (BitVec.ofNat 64 old)
      let y := t.read (BitVec.ofNat 64 b)
      (some (lowBits t.width (if op == .max then max x y else min x y)), 0)
    | _ => let (x, f) := fminmax Fmt.f32 (op == .max) old b; (some x, f)

/-- What the host carries out on its own lines (R28). -/
def hostDoes (op : AtomOp) (t : ETy) : Bool :=
  match op, t with
  | .add, .int _ => true
  | .xchg, _ | .cas, _ => true
  | _, _ => false

/-- What a checked line is to an atomic: a host's line only where the host can do it, at every level (R28); a line that an atomic on
a buffer needs and L2 does not hold (`held`) is away, and so is a peer's line while no port leads to the peer. -/
def State.atomLine (s : State) (c : Ctx) (buffered able held : Bool) (l : L2Line) : ReadResult :=
  match l.owner with
  | .loc => .ok 0 false
  | .host => if !able then .fail cOwnAtom l.addr else if buffered && !held then .away l else .ok 0 false
  | .peer p => if buffered then (if held then .ok 0 false else .away l) else if (s.portTo c.tenant p).isSome then .ok 0 false else .away l

/-- Check an atomic's lines for RD and W, and for what their owner can do. -/
def State.atomLines (s : State) (c : Ctx) (buffered : Bool) (able : Bool) : List (Nat × ByteMask) → Got → State × Got
  | [], got => (s, got)
  | (line, _) :: rest, got =>
    match s.fill c line .atomic false with
    | (s, .fail cause pa) => s.atomLines c buffered able rest (got ++ [(line, .fail cause pa)])
    | (s, .away l) => s.atomLines c buffered able rest (got ++ [(line, s.atomLine c buffered able false l)])
    | (s, .ok l) => s.atomLines c buffered able rest (got ++ [(line, s.atomLine c buffered able true l)])

/-- The D value of a line that an atomic acts on: local memory, or at D and S the owner's own. -/
def Cx.atomD (c : Cx) (buffered : Bool) (line : Nat) : LineData × Bool :=
  match c.s.placeOf c.ctx line with
  | some (.loc, a) => (memLine c.s.mem a, c.s.poisoned a || c.s.mismatch a)
  | some (o, a) => (if buffered then c.s.dLine c.ctx line else c.s.ownerLine o a, false)
  | none => (0, false)

/-- An atomic on the bytes of a mask at the owner of a forwarded line, which carries it out (R28) whether or not it writes (`new` is none
for a compare that fails). The issuing wave waits for the answer. -/
def State.ownerAtom (s : State) (c : Ctx) (w : Writer) (l : L2Line) (mask : ByteMask) (new : Option LineData) : State :=
  let put (s : State) : State := match new with
    | none => s
    | some d =>
      match l.owner with
      | .loc => s
      | .host => { s with hostMem := memPutLine s.hostMem l.addr mask d }.emit (.hostWrite l.addr mask d false)
      | .peer p => { s with peerMem := memPutLine s.peerMem (peerAddr p l.addr) mask d }
  let s := put (match new with
    | none => s
    | some d => s.writeCopy l mask d false)
  let s := match l.owner with
    | .peer p => s.sendPeer c.tenant p
        { packet := askPacket 0x04 l.addr (opsOf 0 mask 0), job := w.job, lid := if w.lvl == Level.s then w.lid else none, va := none,
          wave := w.ref? }
    | _ => s
  let s := s.countForward c l.line
  match new, w.lid with
  | none, _ => s
  | some _, some lid => (s.noReplay lid).logWrite c w l.line none mask
  | some _, none => s.logWrite c w l.line none mask

/-- The line has passed the checks for an access, and is as they leave it. -/
def Cx.lineReady (c : Cx) (line : Nat) (acc : Access) : Cx × Option L2Line :=
  match c.s.ensure c.ctx line acc with
  | (s, .ok l) | (s, .away l) => ({ c with s := s }, some l)
  | (s, .fail _ _) => ({ c with s := s }, none)

/-- One lane's atomic on n bytes at a pointer, by a writer: the value before it, and its flags. -/
def Cx.atomStep (c : Cx) (w : Writer) (p : DWord) (n : Nat) (f : Nat → Option Nat × Flags) : Cx × Nat × Flags :=
  let line := lineNo p
  let buffered := w.lvl == .b || w.lvl == .g
  -- a line of the same instruction under another address may have displaced it (R31)
  let (c, l) := c.lineReady line .atomic
  let h := c.held w.lvl line
  let cur := mergeLine (c.atomD buffered line).1 h.2 h.1
  let old := cur.toNat / 2 ^ (8 * lineOff p) % 2 ^ (8 * n)
  let (new, fl) := f old
  let m := elemMask p n
  let d := new.map fun x => BitVec.ofNat 512 (x % 2 ^ (8 * n) * 2 ^ (8 * lineOff p))
  let far := l.filter fun l => !buffered && l.owner != .loc
  match far, d with
  | some l, _ => ({ c with s := c.s.ownerAtom c.ctx w l m d }, old, fl)
  | none, none => (c, old, fl)
  | none, some d => ((c.writeAt w.lvl w line m d).1, old, fl)

/-- Every lane's atomic, in ascending order (R151): the values before them by lane, and all flags. -/
def Cx.atomAll (c : Cx) (lvl : Level) (n : Nat) (ptr : Nat → DWord) (f : Nat → Nat → Option Nat × Flags) :
    List Nat → List (Nat × Nat) → Flags → Cx × List (Nat × Nat) × Flags
  | [], olds, fl => (c, olds, fl)
  | l :: ls, olds, fl =>
    let (c, old, g) := c.atomStep (c.writer lvl false) (ptr l) n (f l)
    c.atomAll lvl n ptr f ls ((l, old) :: olds) (fl ||| g)

def execAtom (h : Hdr) (op : AtomOp) (lvl : Level) (t : ETy) (d : BitVec 12) (base b : VS) (cmp : Option VS) (disp : BitVec 32)
    (s : State) : Host.Outcome State Fault Refusal :=
  let opt (o : Option VS) (f : VS → List Nat) : List Nat := o.elim [] f
  issue h { len := 16, ops := [vsOpd true false base, vsOpd t.wide false b] ++
              (match cmp with
               | some x => [vsOpd t.wide false x]
               | none => []) ++ [wrV d t.wide],
            lastA := vsLast true base, lastB := vsLast t.wide b, lastC := opt cmp (vsLast t.wide),
            level := some (lvl, true, false) }
    (onPath 0 fun c act =>
      let ptr := c.based base disp.toInt
      let n := t.bytes
      match misaligned act ptr n with
      | some tr => .trap c.s tr
      | none =>
        let buffered := lvl == .b || lvl == .g
        let needs := lineNeeds ptr n (lanesOf act) []
        let (s, g) := c.s.atomLines c.ctx buffered (hostDoes op t) needs []
        let c := { c with s := s }
        match g.fault act ptr d.toNat with
        | some tr => .trap s tr
        | none =>
          let far := !buffered && needs.any fun (y : Nat × ByteMask) => s.isFar c.ctx y.1
          match g.away with
          | some l => if buffered then c.awaitLine l true else .wait s (.link l.line)
          | none =>
            -- a forwarded atomic begins on the link path (spec/09 R162)
            if far && c.fenced 3 then .wait s .retry
            else
            let sick := (maskOf fun l => act.getLsbD l &&
              (c.atomD buffered (lineNo (ptr l))).2 && (elemMask (ptr l) n &&& ~~~(c.held lvl (lineNo (ptr l))).1) != 0) |||
              c.sickLanes lvl act ptr n
            let worn := c.worn lvl false act ptr n
            if sick != 0 then .trap s (uceTrap 1 sick)
            else if worn != 0 then .trap s (uceTrap 2 worn)
            else
              let val (o : VS) (l : Nat) : Nat := (c.vs o t.wide l).toNat % 2 ^ t.width
              let (x, olds, fl) := c.atomAll lvl n ptr
                (fun l old => atomNew op t old (val b l) (cmp.elim 0 (val · l))) (lanesOf act) [] 0
              let x := { x with s := needs.foldl (fun (s : State) (y : Nat × ByteMask) => s.dropL1 [x.core] x.ctx.tenant x.ctx.asid y.1) x.s }
              .done x.awaitAcks fun r => (r.put (.v d t.wide) act fun l =>
                BitVec.ofNat 64 (((olds.find? fun y => y.1 == l).map (·.2)).getD 0)).orFlags fl) s

/-! ### WAITV (R252, spec/16 R300) -/

/-- One poll. `prior` holds the priority and the values of the poll before it, none at the first. -/
def waitvPoll (i : Instr) (ne : Bool) (lvl : Level) (t : ITy) (d : BitVec 12) (base : VS) (src : WaitSrc)
    (prior : Option (Nat × List DWord)) (c : Cx) (act : Mask) : Res :=
  let disp : Int := match src with
    | .reg _ disp => disp.toInt
    | .imm _ => 0
  let ptr := c.based base disp
  let n := t.width / 8
  let want (l : Nat) : Nat := (match src with
    | .reg b _ => c.vs b t.is64 l
    | .imm v => t.imm v).toNat % 2 ^ t.width
  -- a later poll that waits for a forwarded line, or for a FENCE, stays a poll (R300)
  let again (r : Res) : Res :=
    match r, prior with
    | .wait s (.forward line _), some (p, last) => .wait s (.waitv i c.sel.inst c.sel.grp p last (some line))
    | .wait s .retry, some (p, last) => .wait s (.waitv i c.sel.inst c.sel.grp p last none)
    | r, _ => r
  again <| c.readLanes lvl false act ptr n d.toNat fun x g =>
    let got (l : Nat) : Nat := g.elem (ptr l) n
    if (lanesOf act).all fun l => (got l == want l) != ne then
      .done x fun r => r.put (.v d t.is64) act fun l => BitVec.ofNat 64 (got l)
    else
      let vals := (lanesOf act).map fun l => BitVec.ofNat 64 (got l)
      let prio := match prior with
        | some (p, last) => if vals == last then max 1 (p / 2) else 16
        | none => 16
      .wait x.s (.waitv i c.sel.inst c.sel.grp prio vals none)

def waitvInfo (t : ITy) (lvl : Level) (d : BitVec 12) (base : VS) (src : WaitSrc) : Info :=
  { len := 16, ops := vsOpd true false base :: ((match src with
      | .reg b _ => [vsOpd t.is64 false b]
      | .imm _ => []) ++ [wrV d t.is64]),
    lastA := vsLast true base, lastB := match src with
      | .reg b _ => vsLast t.is64 b
      | .imm _ => [],
    level := some (lvl, true, false) }

def execWaitv (h : Hdr) (ne : Bool) (lvl : Level) (t : ITy) (d : BitVec 12) (base : VS) (src : WaitSrc) (s : State) :
    Host.Outcome State Fault Refusal :=
  issue h (waitvInfo t lvl d base src)
    (onPath 0 (waitvPoll (.waitv h ne lvl t d base src) ne lvl t d base src none)) s

/-! ### COMMIT, COMMIT.X, ABORT, ACQ (R248, spec/08 R144 to R149) -/

/-- A commit at D or S writes forwarded lines, which begins on the link path, where a FENCE holds it (spec/09 R162, R164). -/
def Cx.commitHeld (c : Cx) (lvl : Level) : Bool :=
  (lvl == .d || lvl == .s) && c.fenced 3 && (c.commitSet lvl).any fun x => c.s.isFar c.ctx x.line

def execCommit (h : Hdr) (lvl : Level) (s : State) : Host.Outcome State Fault Refusal :=
  issue h { len := 8, level := some (lvl, true, false) } (onPath 0 fun c act =>
    if c.commitHeld lvl then .wait c.s .retry
    else
      match c.publish lvl false act with
      | .ok x | .conflict x _ => .done x.awaitAcks id
      | .fault s t => .trap s t) s

def execCommitX (h : Hdr) (lvl : Level) (d : BitVec 8) (s : State) : Host.Outcome State Fault Refusal :=
  issue h { len := 8, uni := true, ops := [wrS d 1], level := some (lvl, true, false) } (onPath 0 fun c act =>
    if c.commitHeld lvl then .wait c.s .retry
    else
      match c.publish lvl true act with
      | .ok x => .done x.awaitAcks fun r => r.setScalar d.toNat 0
      | .conflict x n => .done x fun r => r.setScalar d.toNat (BitVec.ofNat 64 n)
      | .fault s t => .trap s t) s

def execAbort (h : Hdr) (lvl : Level) (s : State) : Host.Outcome State Fault Refusal :=
  issue h { len := 8, level := some (lvl, false, true) } (fun c _ =>
    match lvl with
    | .w => .done (c.setWv { c.wv with buf := [] }) id
    | .b => .done { c with blk := { c.blk with buf := [] } } id
    | .g => .done (c.setGangBuf fun _ => []) id
    | .d | .s => .done c id) s

/-- The clean copies that ACQ.D and ACQ.S invalidate (R148). -/
def Cx.acquire (c : Cx) (lvl : Level) : Cx :=
  let mine (t asid : Nat) : Bool := t == c.ctx.tenant && asid == c.ctx.asid
  let k := c.s.core c.core
  let l1 := { c with s := c.s.setCore c.core { k with l1 := k.l1.filter fun l => !(mine l.tenant l.asid) } }
  match lvl with
  | .w | .b | .g => c
  | .d => l1
  | .s => { l1 with s := { l1.s with l2 := l1.s.l2.filter fun l => !(mine l.tenant l.asid && !l.phys && l.owner != .loc) } }

def execAcq (h : Hdr) (lvl : Level) (s : State) : Host.Outcome State Fault Refusal :=
  issue h { len := 8, level := some (lvl, true, false) } (fun c _ => .done ((c.openWindow lvl).acquire lvl) id) s

/-! ### FENCE and ICINV (spec/09 R164, R249) -/

def JobKind.isDrain : JobKind → Bool
  | .drain .. => true
  | _ => false

def JobKind.isRemote : JobKind → Bool
  | .linear _ _ _ _ _ remote _ _ => remote
  | _ => false

/-- A job writes lines of other owners: a remote copy, one that has sent packets, or a copy whose destination lies elsewhere. -/
def State.writesFar (s : State) (c : Ctx) (j : Job) : Bool :=
  j.kind.isRemote || s.outstanding j.id || match j.kind with
    | .linear _ dst _ _ _ _ _ _ => s.isFar c (lineNo dst)
    | _ => false

/-- The copies and drains of the wave that a source mask names and that are under way. -/
def Cx.fenceJobs (c : Cx) (src : BitVec 4) : List Nat :=
  let js := c.s.jobs.filter fun j => j.wave == some c.ref &&
    ((src.getLsbD 1 && !j.kind.isDrain) || (src.getLsbD 2 && j.kind.isDrain) || (src.getLsbD 3 && c.s.writesFar c.ctx j))
  let es := (c.s.core c.core).engine.filter fun e => src.getLsbD 2 && e.wave == c.ref && (match e.op with
    | .drain .. | .pdrain .. => true
    | _ => false)
  js.map (·.id) ++ es.map (·.id)

/-- The forwarded writes of the wave, which the core and the link path name, that their owners have not acknowledged. -/
def Cx.fenceWrites (c : Cx) (src : BitVec 4) : List Nat :=
  if src.getLsbD 0 || src.getLsbD 3 then (c.s.unsettled.filter fun u => u.wave == c.ref && u.owner != .loc).map (·.id) else []

def execFence (h : Hdr) (src dst : BitVec 4) (s : State) : Host.Outcome State Fault Refusal :=
  issue h { len := 8 } (fun c _ =>
    let s := if src.getLsbD 0 then
        { c.s with unsettled := c.s.unsettled.map fun u => if u.wave == c.ref then { u with fenced := u.fenced ||| dst } else u }
      else c.s
    let jobs := c.fenceJobs src
    let writes := c.fenceWrites src
    let old := c.wv.fences.filter fun f => f.jobs.any c.s.underway || f.writes.any c.s.unacked
    let fences := if jobs.isEmpty && writes.isEmpty then old else { dst := dst, jobs := jobs, writes := writes } :: old
    .done (Cx.setWv { c with s := s } { c.wv with fences := fences }) id) s

def execIcinv (h : Hdr) (s : State) : Host.Outcome State Fault Refusal :=
  issue h { len := 8 } (fun c _ =>
    let k := c.s.core c.core
    let keep := k.icache.filter fun l => !(l.tenant == c.ctx.tenant && l.asid == c.ctx.asid)
    .done (Cx.setWv { c with s := c.s.setCore c.core { k with icache := keep } } { c.wv with runOn := [] }) id) s

end Sys2Proof.Machine
end

