-- ==== Sys2Proof/Machine/Rings.lean ====
section
/-!
DEFINITION. Command queues and their completion records (spec/18 R327 to R330, R362).
-/

namespace Sys2Proof.Machine

/-- The number of the package function among the functions of `CmdSrc`. -/
def pkgFn : Nat := 16

def CmdQueue.enabled (q : CmdQueue) : Bool := q.qctl.getLsbD 0
def CmdQueue.ctx (q : CmdQueue) : Nat := (q.qctl.extractLsb' 20 12).toNat

/-- Entries of the ring: 2^(QLOG+4), QLOG up to 12. -/
def CmdQueue.size (q : CmdQueue) : Nat := 2 ^ (min (q.qctl.extractLsb' 12 4).toNat 12 + 4)

def State.cmdQueue (s : State) (fn q : Nat) : CmdQueue :=
  if fn == pkgFn then s.pkg.queue else (s.tenant fn).queues.getD q CmdQueue.reset

def State.setCmdQueue (s : State) (fn q : Nat) (x : CmdQueue) : State :=
  if fn == pkgFn then { s with pkg := { s.pkg with queue := x } }
  else
    let t := s.tenant fn
    s.setTenant fn { t with queues := t.queues.set q x }

/-- The command processor takes the entry at QHEAD: the queue is held until the command completes (R362). -/
def State.take (s : State) (c : CmdSrc) : State :=
  let q := s.cmdQueue c.fn c.q
  s.setCmdQueue c.fn c.q { q with qhead := BitVec.ofNat 64 ((q.qhead.toNat + 1) % q.size), busy := true }

/-- The completion record of a command (R330), then the queue's MSI-X; the queue moves on unless a later LAUNCH has begun (R362). -/
def State.complete (s : State) (c : CmdSrc) (opc err result : Nat) : State :=
  let q := s.cmdQueue c.fn c.q
  let rec_ := [c.seq, BitVec.ofNat 64 (opc * 2 ^ 16 + err), BitVec.ofNat 64 result, 0]
  let at_ := BitVec.ofNat 64 (q.cbase.toNat + 32 * q.ctail.toNat)
  let s := s.writeRing at_ (wordsBytes rec_)
  let s := s.setCmdQueue c.fn c.q
    { q with ctail := BitVec.ofNat 64 ((q.ctail.toNat + 1) % q.size), busy := s.launches.any fun l => l.src.fn == c.fn && l.src.q == c.q }
  if c.fn == pkgFn then s.emit (.msix 0 0) else s.emit (.msix (c.fn + 1) c.q)

/-! ### Opcodes and errors (R329, R330) -/

def eOk : Nat := 0x0000
def eBadCmd : Nat := 0x0001
def eBadHdr : Nat := 0x0002
def eNoFit : Nat := 0x0003
def eNoCopyEng : Nat := 0x0004
def eBadEdge : Nat := 0x0005
def eUce : Nat := 0x0006
def eTrapInTrap : Nat := 0x0007
def eWbFull : Nat := 0x0008
def eBusy : Nat := 0x0009
def eRestoreFail : Nat := 0x000A
def eAuth : Nat := 0x000B
def eReuse : Nat := 0x000C
def eReset : Nat := 0x000D
def eTrap (cls : Nat) : Nat := 0x0010 + cls

def opLaunch : Nat := 0x01
def opCopy : Nat := 0x02
def opCtxCreate : Nat := 0x03
def opCtxDestroy : Nat := 0x04
def opShare : Nat := 0x05
def opRegInval : Nat := 0x06
def opPageInval : Nat := 0x07
def opHandleInval : Nat := 0x08
def opDirtyRc : Nat := 0x09
def opFaultResume : Nat := 0x0A
def opFaultFail : Nat := 0x0B
def opDebugHalt : Nat := 0x0C
def opDebugWrite : Nat := 0x0D
def opDebugResume : Nat := 0x0E
def opKeySet : Nat := 0x10
def opPreCopy : Nat := 0x11
def opRestore : Nat := 0x12
def opTrackSet : Nat := 0x13
def opPartition : Nat := 0x40
def opRegionRetire : Nat := 0x41
def opLinkRetrain : Nat := 0x42
def opFwUpdate : Nat := 0x43
def opAttest : Nat := 0x44

/-! ### Carrying a command out (R328, R329, R362) -/

/-- How the command processor carries a command out: it cannot yet and waits at the head of the queue, with an effect of its waiting on
the state or none, it completes later, or it has completed with an error code and a result. -/
inductive CmdEnd where
  | wait
  | hold (f : State → State)
  | later (s : State)
  | done (s : State) (err result : Nat)

/-- An entry may be taken (R328, R362): the queue is enabled, holds one, and carries out no command. -/
def CmdQueue.mayTake (q : CmdQueue) : Bool := q.enabled && !q.busy && q.qhead != q.qtail

/-- A command at the head of its queue: a tenant's queue takes tenant commands, the package queue package commands, and any other
completes with BADCMD (R329). -/
def State.command (s : State) (c : CmdSrc) (pkg : Bool) (opc : Nat) (f : State → CmdEnd) : Host.Outcome State Fault Refusal :=
  if !(s.cmdQueue c.fn c.q).mayTake then .next s
  else if (c.fn == pkgFn) != pkg then .next ((s.take c).complete c opc eBadCmd 0)
  else
    match f (s.take c) with
    | .wait => .next s
    | .hold f => .next (f s)
    | .later s => .next s
    | .done s err result => .next (s.complete c opc err result)

end Sys2Proof.Machine
end

