-- ==== Sys2Proof/Machine/Jobs.lean ====
section
/-!
DEFINITION. Copies and drains in flight (spec/03 R57 to R75, spec/15 R279, spec/21 R352): how a job reads, where its bytes land,
how it stops on a fault and how it completes.
-/

namespace Sys2Proof.Machine

/-! ### Starting (R57, R71, R253) -/

/-- The copy engine that serves a tag of a core's cluster (R57): one of the four of the cluster that the tenant owns, by the tag symbol,
else the lowest owned one at or above 4c, counting on from 0 after 95. -/
def State.copyEngine (s : State) (t cluster tag : Nat) : Nat :=
  let own := (s.tenant t).own.engines
  let near := ((List.range 4).map fun i => 4 * cluster + i).filter fun n => own.getLsbD n
  let far := (List.range 96).map fun i => (4 * cluster + i) % 96
  (near[Config.engineOfTag tag % near.length]?).getD ((far.find? fun n => own.getLsbD n).getD 0)

/-- The matrix operations in the engine queue that a tile load waits for: those that read a segment it writes (spec/10 R171). -/
def Cx.readersOf (c : Cx) : JobKind → List Nat
  | .tileLoad sym queue seg e _ _ =>
    let first := c.segAt queue sym + seg
    ((c.s.core c.core).engine.filter fun o => (List.range (tileSegs e)).any fun i => o.reads (first + i)).map (·.id)
  | _ => []

/-- A job of the issuing wave, counted on its tag: it follows the wave's earlier jobs with that tag (R58), and a tile load the matrix
operations that still read its segments. -/
def Cx.startJob (c : Cx) (kind : JobKind) (tag : Nat) : Cx :=
  let s := c.s.tick
  let same := (s.jobs.filter fun j => j.wave == some c.ref && j.tag == tag && !j.kind.isDrain).map (·.id)
  let j : Job :=
    { id := s.stamp, wave := some c.ref, cmd := none, ctx := c.ctx.num, tenant := c.ctx.tenant, pc := c.g.pc, core := c.core,
      pipe := c.wv.pipe, tag := tag, kind := kind, row := 0, stage := [], after := same ++ c.readersOf kind, stop := none, told := false,
      engine := s.copyEngine c.ctx.tenant (clusterOf c.core) tag, flagsTo := c.flagsTo }
  { c with s := { s with jobs := s.jobs ++ [j] }, blk := c.blk.tagIssue tag }

/-- The tag counts 255 issues: a further one is held back (R71). -/
def Cx.tagFull (c : Cx) (tag : Nat) : Bool := (c.blk.tag? tag).elim false fun t => decide (255 ≤ t.count)

/-! ### Stopping and consuming errors (R74, spec/17 R319, spec/18 R362) -/

/-- MEMFAULT of a copy or a drain: the operand it was reached through, and the line. -/
def jobTrap (cause : Nat) (p : DWord) (paddr symKind sym : Nat) : TrapInfo :=
  { plainTrap tMemFault cause 0 with info := infoLine p, symKind := symKind, sym := sym, offset := linePtr (lineNo p),
                                     paddr := BitVec.ofNat 64 paddr }

/-- The record of a COPY command's fault (R362). -/
def copyFaultWords (src : CmdSrc) (t : TrapInfo) (lost : Bool) : List DWord :=
  [BitVec.ofNat 64 (2 ^ 55 + lost.toNat * 2 ^ 54 + 2 ^ 40 + t.cls * 2 ^ 36 + t.cause * 2 ^ 32 + src.q * 2 ^ 16 + 0xFFFF), src.seq,
   0xFFFFFFFF0000FFFF, 0, BitVec.ofNat 64 (0xFF * 2 ^ 48 + 0xFF * 2 ^ 40 + 0xFFF * 2 ^ 28 + 0xF * 2 ^ 24), t.offset, 0, 0, 0x1FF,
   t.paddr, t.trapc, 0, 0, 0, 0, 0]

/-- The job stops on a fault: a COPY writes its record at once; a block's job has it written as the block is swapped out. -/
def State.stopJob (s : State) (j : Job) (t : TrapInfo) : State :=
  let s := s.setJob { j with stop := some t }
  match j.cmd with
  | some src => s.writeFault src.fn (copyFaultWords src t)
  | none => s

/-- An uncorrectable error consumed on behalf of a wave: its launch is to be rolled back or to fail (R319, LAUNCH_ROLLBACK). -/
def State.uceWave (s : State) (w : WaveRef) (cause : Nat) (pc : DWord) : State :=
  match s.block? w.lid w.rank with
  | some b =>
    let wv := b.wave w.wave
    let r : TrapRec := { info := plainTrap tUce cause 0, pc := pc, inst := 0, mask := 0 }
    s.setBlock (b.setWave w.wave { wv with trap := some r, wait := some .traps })
  | none => s

/-- The same met by a job; a COPY command leaves its record only. -/
def State.raiseUce (s : State) (j : Job) (cause : Nat) : State :=
  match j.wave, j.cmd with
  | some w, _ => s.uceWave w cause j.pc
  | none, some src => s.writeFault src.fn (copyFaultWords src (plainTrap tUce cause 0))
  | none, none => s

def State.uceIf (s : State) (j : Job) (cause : Nat) (on : Bool) : State := if on then s.raiseUce j cause else s

/-- What an engine operation reports to its wave when it completes: flags into the kernel's sr.fstat, interrupted or running, or into the
handler's own; UNALLOC into sr.status (spec/05 R108, spec/07 R132, spec/17 R310, spec/20 R349). -/
def Wave.report (w : Wave) (fl : BitVec 6) (unalloc : Bool) (f : FlagsTo) : Wave :=
  let w := match f, w.frame with
    | .kernel, some x => { w with frame := some { x with regs := { x.regs with fstat := x.regs.fstat ||| fl } } }
    | .kernel, none | .handler, some _ => { w with regs := { w.regs with fstat := w.regs.fstat ||| fl } }
    | .handler, none | .nobody, _ => w
  if unalloc then { w with status := w.status ||| stUnalloc } else w

def State.report (s : State) (r : WaveRef) (fl : BitVec 6) (unalloc : Bool) (f : FlagsTo) : State :=
  match s.block? r.lid r.rank with
  | none => s
  | some b => s.setBlock (b.setWave r.wave ((b.wave r.wave).report fl unalloc f))

/-! ### Reading memory at D on the copy path -/

/-- A line as a copy engine reads it: a core write that has not settled may be overtaken (spec/09 R163). `here` says that a forwarded
line's bytes have come. -/
def State.readPath (s : State) (me : Option WaveRef) (c : Ctx) (line : Nat) (here : Bool) : State × ReadResult :=
  match s.readD c line .read here with
  | (s, .ok d p) =>
    match s.physOf c line with
    | some a => let (s, d) := s.readUnsettled 1 me .loc false a d; (s, .ok d p)
    | none => (s, .ok d p)
  | r => r

/-- Whether the owner of a line can be reached (spec/18 R339). -/
def State.reachable (s : State) (c : Ctx) (line : Nat) : Bool :=
  match s.placeOf c line with
  | some (.peer p, _) => (s.portTo c.tenant p).isSome
  | _ => true

/-- An engine asks a forwarded line's owner for it, and takes it in a later step (spec/01 R27). -/
def State.askOwner (s : State) (j : Job) (c : Ctx) (l : L2Line) : State :=
  if j.asked == some l.line then s.setJob j else (s.requestLine c.tenant l).setJob { j with asked := some l.line }

/-- A source line of a job: each is read once (R65), a forwarded one when its owner has answered, which counts it (spec/01 R29); a
poisoned one is consumed as an uncorrectable error (R73). -/
def State.readSrc (s : State) (j : Job) (c : Ctx) (line : Nat) : State × Job × ReadResult :=
  match j.srcLines.find? fun x => x.1 == line with
  | some (_, d, p) => (s, j, .ok d p)
  | none =>
    let here := j.asked == some line && s.reachable c line
    match s.readPath j.wave c line here with
    | (s, .ok d p) =>
      let s := if here then s.countForward c line else s
      (s.uceIf j 1 p, { j with asked := none, srcLines := (line, d, p) :: j.srcLines }, .ok d p)
    | (s, r) => (s, j, r)

/-- What a read of bytes comes to; a fault comes with the bytes before it. -/
inductive SpanResult where
  | ok (bs : List Nat)
  | fail (bs : List Nat) (p : DWord) (cause paddr : Nat)
  | away (l : L2Line)
  deriving DecidableEq, Repr

/-- Bytes from a pointer on, line by line (`fuel` lines at most), a poisoned byte marked by adding 256. -/
def State.readSpan (s : State) (j : Job) (c : Ctx) : Nat → DWord → Nat → List Nat → State × Job × SpanResult
  | 0, _, _, acc => (s, j, .ok acc)
  | fuel + 1, p, n, acc =>
    if n == 0 then (s, j, .ok acc)
    else
      let m := min n (64 - lineOff p)
      match s.readSrc j c (lineNo p) with
      | (s, j, .ok d poisoned) =>
        let bytes := (List.range m).map fun i => (byteOf d (lineOff p + i)).toNat + if poisoned then 256 else 0
        s.readSpan j c fuel (ptrAdd p m) (n - m) (acc ++ bytes)
      | (s, j, .fail cause pa) => (s, j, .fail acc p cause pa)
      | (s, j, .away l) => (s, j, .away l)

def spanLines (p : DWord) (n : Nat) : Nat := (lineOff p + n + 63) / 64

def State.readBytes (s : State) (j : Job) (c : Ctx) (p : DWord) (n : Nat) : State × Job × SpanResult :=
  s.readSpan j c (spanLines p n) p n []

def sickBytes (bs : List Nat) : Bool := bs.any fun b => decide (256 ≤ b)

/-- Bytes as a number, and the bits of it that come from a poisoned source. -/
def rawNat (bs : List Nat) : Nat := bs.foldr (fun b acc => b % 256 + 256 * acc) 0

def sickNat (bs : List Nat) : Nat := bs.foldr (fun b acc => (if b < 256 then 0 else 255) + 256 * acc) 0

/-- A number with every byte zero in which another has a bit: scratch bytes derived from poison (R73). -/
def cleanBytes : Nat → Nat → Nat → Nat
  | 0, _, _ => 0
  | n + 1, v, sick => (if sick % 256 == 0 then v % 256 else 0) + 256 * cleanBytes n (v / 256) (sick / 256)

/-! ### Landing (R65, R66, R145, R255) -/

/-- The writer of a job: an engine, for its wave or for none. -/
def Job.writer (j : Job) (lvl : Level) : Writer :=
  { lvl := lvl, lid := none, block := 0, wave := 0, gang := 0, engine := true, job := some j.id }

/-- Bytes of one line land at their level, after the line's check for W (R66): poisoned where their source was (R73). Those at D and S
settle. -/
def State.land (s : State) (j : Job) (c : Ctx) (lvl : Level) (line : Nat) (mask : ByteMask) (d : LineData) (poison : Bool) :
    State × Option (Nat × Nat) :=
  match s.ensure c line .write with
  | (s, .fail cause pa) => (s, some (cause, pa))
  | (s, _) =>
    match j.wave.bind s.cxOf with
    | some x =>
      let (x, bad) := x.writeAt lvl { x.writer lvl true with job := some j.id, poison := poison } line mask d
      (x.close, bad)
    | none =>
      let (s, bad) := s.writeD c { j.writer lvl with poison := poison } line mask d
      match s.physOf c line with
      | some a => (s.settleAt false a mask, bad)
      | none => (s, bad)

/-- The current value of a line at a level (R151), for a byte that a tile shares with other bits (R67). -/
def State.current (s : State) (j : Job) (c : Ctx) (lvl : Level) (line : Nat) : LineData :=
  let d := s.dLine c line
  match j.wave.bind s.cxOf with
  | some x => let h := x.held lvl line; mergeLine d h.2 h.1
  | none => d

/-! ### Linear copies (R65, R66, R73) -/

/-- The piece of a linear copy that destination line k takes: first byte and end, counted from the start of the range. -/
def linearPiece (dst : DWord) (len k : Nat) : Nat × Nat :=
  (64 * k - lineOff dst, min len (64 * (k + 1) - lineOff dst))

/-- The ranges of a copy overlap in effective address. -/
def overlaps (dst src : DWord) (len : Nat) : Bool :=
  dst.extractLsb' 56 8 == src.extractLsb' 56 8 &&
    (decide ((dst - src).toNat % 2 ^ 56 < len) || decide ((src - dst).toNat % 2 ^ 56 < len))

/-- Check every line of a range for W; the first that fails. -/
def State.checkSpan (s : State) (c : Ctx) : Nat → DWord → State × Option (DWord × Nat × Nat)
  | 0, _ => (s, none)
  | n + 1, p =>
    match s.ensure c (lineNo p) .write with
    | (s, .fail cause pa) => (s, some (p, cause, pa))
    | (s, _) => s.checkSpan c n (ptrAdd p 64)

/-- The bytes of a destination piece as the line's data and mask. -/
def pieceLine (off : Nat) (bs : List Nat) : ByteMask × LineData :=
  (BitVec.ofNat 64 ((2 ^ bs.length - 1) * 2 ^ off), BitVec.ofNat 512 (rawNat bs * 2 ^ (8 * off)))

/-- Lines of one packet of a remote copy from destination line k on: up to the next 2 KiB boundary (spec/21 R352). -/
def packetLines (dst : DWord) (len k : Nat) : Nat :=
  let p := lineNo (ptrAdd dst (64 * k : Nat))
  min (32 - p % 32) (spanLines dst len - k)

/-- The packet of some destination lines for a peer, with byte masks where its ends are partial. -/
def remotePacket (addr : Nat) (ls : List (ByteMask × LineData × Bool)) : Packet :=
  let part (m : ByteMask) : ByteMask := if m == BitVec.allOnes 64 then 0 else m
  let first := ls.headD (0, 0, false)
  let last := ls.getLastD (0, 0, false)
  let poison : BitVec 32 := ls.zipIdx.foldl (fun p x => if x.1.2.2 then p ||| ((1 : BitVec 32) <<< x.2) else p) 0
  { writePacket addr (ls.map (·.2.1)) 0 0 with
      poison := poison, ops := opsOf poison (part first.1) (if ls.length ≤ 1 then part first.1 else part last.1) }

/-- The port to a peer, for traffic routed to one if any, holds as many packets as its replay buffer takes (spec/18 R337). -/
def State.bufferFull (s : State) (t p : Nat) (via : Option Nat) : Bool :=
  match s.portFor t p via with
  | some n => decide (1024 ≤ (s.port n).buffer.length)
  | none => false

/-- The first byte of destination line k. -/
def destAt (dst : DWord) (k : Nat) : DWord := if k == 0 then dst else linePtr (lineNo (ptrAdd dst (64 * k : Nat)))

/-- How the destination lines of a packet end: all of them are there, a line faults, or a forwarded source line must come first. -/
inductive LinesEnd where
  | whole
  | stop (t : TrapInfo)
  | away (l : L2Line)

/-- Consecutive destination lines of a remote copy, each checked for W (R66) and built from its source: mask, data and poison. DESIGN
CHOICE (log 71): of one destination line, its own fault comes before its source's. -/
def State.readPieces (s : State) (j : Job) (c : Ctx) (dst src : DWord) (len dstSc srcSc : Nat) :
    Nat → Nat → List (ByteMask × LineData × Bool) → State × Job × List (ByteMask × LineData × Bool) × LinesEnd
  | 0, _, acc => (s, j, acc, .whole)
  | n + 1, k, acc =>
    match s.ensure c (lineNo (destAt dst k)) .write with
    | (s, .fail cause pa) => (s, j, acc, .stop (jobTrap cause (destAt dst k) pa 0xD dstSc))
    | (s, _) =>
      let (a, b) := linearPiece dst len k
      match s.readBytes j c (ptrAdd src (a : Nat)) (b - a) with
      | (s, j, .fail _ q cause pa) => (s, j, acc, .stop (jobTrap cause q pa 0xD srcSc))
      | (s, j, .away l) => (s, j, acc, .away l)
      | (s, j, .ok bs) =>
        let (m, d) := pieceLine (lineOff (destAt dst k)) bs
        s.readPieces j c dst src len dstSc srcSc n (k + 1) (acc ++ [(m, d, sickBytes bs)])

/-- One packet of a remote copy leaves for its peer (R352). -/
def State.sendLines (s : State) (j : Job) (c : Ctx) (p addr : Nat) (line : Nat) (ls : List (ByteMask × LineData × Bool)) : State :=
  if ls.isEmpty then s
  else
    let s := ls.zipIdx.foldl (fun (s : State) x =>
      let a := addr + 64 * x.2
      let s := { s with peerMem := memPutLine s.peerMem (peerAddr p a) x.1.1 x.1.2.1 }
      if x.1.1 == BitVec.allOnes 64 || x.1.2.2 then s.setFarPoison (.peer p) a x.1.2.2 else s) s
    let s := match j.wave with
      | some w => s.noReplay w.lid
      | none => s
    s.sendPeer c.tenant p { packet := remotePacket addr ls, job := some j.id, lid := none, va := some (c.num, line) } j.port

/-- One packet of a remote copy, built whole from its source lines (R352); it waits while the replay buffer is full, and ends before a
line that faults (R74). -/
def State.sendRemote (s : State) (j : Job) (c : Ctx) (p addr : Nat) (dst src : DWord) (len dstSc srcSc : Nat) : State :=
  if s.bufferFull c.tenant p j.port then s
  else
    let j := { j with port := s.portFor c.tenant p j.port }
    let send (s : State) (ls : List (ByteMask × LineData × Bool)) : State := s.sendLines j c p addr (lineNo (ptrAdd dst (64 * j.row : Nat))) ls
    match s.readPieces j c dst src len dstSc srcSc (packetLines dst len j.row) j.row [] with
    | (s, k, _, .away l) => s.askOwner k c l
    | (s, k, ls, .stop t) => (send s ls).stopJob { k with row := k.row + ls.length, srcLines := [] } t
    | (s, k, ls, .whole) => (send s ls).setJob { k with row := k.row + ls.length, srcLines := k.srcLines.take 1 }

/-- An overlapping copy checks and reads everything before it writes (R66). -/
def State.stageOverlap (s : State) (j : Job) (c : Ctx) (dst src : DWord) (len dstSc srcSc : Nat) : State :=
  match s.checkSpan c (spanLines dst len) dst with
  | (s, some (p, cause, pa)) => s.stopJob j (jobTrap cause p pa 0xD dstSc)
  | (s, none) =>
    match s.readBytes j c src len with
    | (s, j, .fail _ p cause pa) => s.stopJob j (jobTrap cause p pa 0xD srcSc)
    | (s, j, .away l) => s.askOwner j c l
    | (s, j, .ok bs) => s.setJob { j with stage := bs, srcLines := [] }

/-- The bytes of a linear copy's next destination line land there. -/
def State.landLinear (s : State) (j : Job) (c : Ctx) (lvl : Level) (p : DWord) (bs : List Nat) (dstSc : Nat) : State :=
  let (m, d) := pieceLine (lineOff p) bs
  match s.land j c lvl (lineNo p) m d (sickBytes bs) with
  | (s, some (cause, pa)) => s.stopJob j (jobTrap cause p pa 0xD dstSc)
  | (s, none) => s.setJob { j with row := j.row + 1, srcLines := j.srcLines.take 1 }

/-- One destination line of a linear copy, or one packet of a remote one. A destination that CPYR finds with another owner than a peer
is written as by CPY.D (R66). -/
def State.stepLinear (s : State) (j : Job) (c : Ctx) (lvl : Level) (dst src : DWord) (len : Nat) (overlap remote : Bool)
    (dstSc srcSc : Nat) : State :=
  let p := destAt dst j.row
  match s.ensure c (lineNo p) .write with
  | (s, .fail cause pa) => s.stopJob j (jobTrap cause p pa 0xD dstSc)
  | (s, .ok l) | (s, .away l) =>
    match remote, l.owner with
    | true, .peer q => s.sendRemote j c q l.addr dst src len dstSc srcSc
    | _, _ =>
      let (a, b) := linearPiece dst len j.row
      if overlap then
        if j.stage.isEmpty then s.stageOverlap j c dst src len dstSc srcSc
        else s.landLinear j c lvl p ((j.stage.drop a).take (b - a)) dstSc
      else
        match s.readBytes j c (ptrAdd src (a : Nat)) (b - a) with
        | (s, j, .fail _ q cause pa) => s.stopJob j (jobTrap cause q pa 0xD srcSc)
        | (s, j, .away l) => s.askOwner j c l
        | (s, j, .ok bs) => s.landLinear j c lvl p bs dstSc

/-! ### Tiles out of memory (CPYT.ld; R67) -/

/-- In-bounds elements of row i, from its first one on, and whether the row's other coordinates are in bounds. -/
def rowCount (e : TEntry) (o : List Nat) (i cols : Nat) : Nat :=
  let x := tileCoord o i 0
  if (List.range 5).all fun d => d == 0 || decide (x.getD d 0 < entExtent e d) then min cols (entExtent e 0 - x.getD 0 0) else 0

/-- What a row of a tile, or its scale bytes, is read as: a number with the bits that come from poison above bit 4,096, or with the
elements before a fault. -/
inductive RowResult where
  | ok (row : Nat)
  | fail (row got : Nat) (p : DWord) (cause paddr : Nat)
  | away (l : L2Line)

def sickAt : Nat := 2 ^ 4096

/-- The elements of row i of a tile, packed in w bits each, with fill codes. -/
def State.readRow (s : State) (j : Job) (c : Ctx) (e : TEntry) (o : List Nat) (i : Nat) : State × Job × RowResult :=
  let w := entWidth e
  let k := tileK w
  let x := tileCoord o i 0
  let n := rowCount e o i k
  let b0 := w * o.getD 0 0
  let bits (v m : Nat) : Nat := v / 2 ^ (b0 % 8) % 2 ^ (w * m)
  match s.readBytes j c (bitPlace e x b0).1 (if n == 0 then 0 else (b0 % 8 + w * n + 7) / 8) with
  | (s, j, .fail bs p cause pa) =>
    let got := (8 * bs.length - b0 % 8) / w
    (s, j, .fail (bits (rawNat bs) got + bits (sickNat bs) got * sickAt) got p cause pa)
  | (s, j, .away l) => (s, j, .away l)
  | (s, j, .ok bs) =>
    let fill := (List.range (k - n)).foldl (fun acc _ => fillCode e + 2 ^ w * acc) 0
    (s, j, .ok (bits (rawNat bs) n + fill * 2 ^ (w * n) + bits (sickNat bs) n * sickAt))

/-- The scale bytes of row i of a tile. -/
def State.readScales (s : State) (j : Job) (c : Ctx) (e : TEntry) (o : List Nat) (i : Nat) : State × Job × RowResult :=
  let n := (rowCount e o i (tileK (entWidth e)) + 31) / 32
  match s.readBytes j c (scalePlace e (tileCoord o i 0)) n with
  | (s, j, .fail bs p cause pa) => (s, j, .fail (rawNat bs + sickNat bs * sickAt) bs.length p cause pa)
  | (s, j, .away l) => (s, j, .away l)
  | (s, j, .ok bs) => (s, j, .ok (rawNat bs + sickNat bs * sickAt))

/-- Rows that CPYT.ld reads before its scales, and its scale rows. -/
def scaleRows (e : TEntry) : Nat := if entScm e == 1 then 32 else 0

/-- Segment i of the tile that staged rows make, its scale segments after it: bytes derived from poison are zero (R73). -/
def stagedSeg (e : TEntry) (stage : List Nat) (i : Nat) : Nat :=
  let w := entWidth e
  let nb := scaleBlocks w
  let make (part : Nat → Nat) : Nat :=
    if i < 6 then tileSeg (tileMake (entPl e) w fun r el => part (stage.getD r 0) / 2 ^ (w * el) % 2 ^ w) i
    else tileSeg ((List.range 32).foldl (fun a r => a + part (stage.getD (32 + r) 0) % 2 ^ (8 * nb) * 2 ^ (8 * nb * r)) 0) (i - 6)
  let clean := make (· % sickAt)
  if stage.all fun x => decide (x < sickAt) then clean else cleanBytes 1024 clean (make (· / sickAt))

def entTag (e : TEntry) : BitVec 4 := BitVec.ofNat 4 ((if entPl e then 8 else 0) + entSwz e)

/-- The first n bytes of a segment of a tile, written by an engine; they settle. -/
def State.putFirst (s : State) (core seg data n : Nat) (tag : BitVec 4) : State :=
  let bytes := (List.range n).map fun o => (swz (tagSwz tag) o, natByte data o)
  let mask := bytes.foldl (fun m x => m ||| 2 ^ x.1) 0
  (List.range 16).foldl (fun s p => s.settleAt true (pieceNo core seg p) (BitVec.ofNat 64 (mask / 2 ^ (64 * p)))) (s.putSeg core seg bytes tag)

/-- The first n bytes of the tile that staged rows make, and of the scale area after it. -/
def State.putLoaded (s : State) (core first : Nat) (e : TEntry) (stage : List Nat) (n : Nat) : State :=
  (List.range (tileSegs e)).foldl (fun s i =>
    let tag := if i < 6 then entTag e else 0
    if 1024 * (i + 1) ≤ n then s.putWhole core (first + i) (stagedSeg e stage i) tag
    else if 1024 * i < n then s.putFirst core (first + i) (stagedSeg e stage i) (n - 1024 * i) tag
    else s) s

/-- Where the first tile byte lies that needs element g of row i, or scale byte g of it, at the start of its 64-byte line. -/
def lineOfElem (e : TEntry) (i g : Nat) : Nat :=
  (if entPl e then (tileK (entWidth e) * i + g) / 8 else 192 * i + g * entWidth e / 8) / 64 * 64

def lineOfScale (e : TEntry) (i g : Nat) : Nat := 6144 + (scaleBlocks (entWidth e) * i + g) / 64 * 64

/-- One step of CPYT.ld: a row is read, then its scales are, row by row; or, with everything read, a segment is written whole. A fault
stops it with the lines before the first one concerned written (R74). -/
def State.stepLoad (s : State) (j : Job) (c : Ctx) (x : Cx) (sym : Nat) (queue : Bool) (seg : Nat) (e : TEntry) (handle : Nat)
    (origin : List DWord) : State :=
  let o := originOf e origin
  let first := x.segAt queue sym + seg
  let read := 32 + scaleRows e
  if j.row < read then
    let i := j.row % 32
    let (r, at_) := if j.row < 32 then (s.readRow j c e o i, lineOfElem e i) else (s.readScales j c e o i, lineOfScale e i)
    match r with
    | (s, k, .fail row got p cause pa) =>
      (s.putLoaded x.core first e (k.stage ++ [row]) (at_ got)).stopJob k (jobTrap cause p pa 0xE handle)
    | (s, k, .away l) => s.askOwner k c l
    | (s, k, .ok row) => s.setJob { k with row := k.row + 1, stage := k.stage ++ [row] }
  else
    let i := j.row - read
    (s.putWhole x.core (first + i) (stagedSeg e j.stage i) (if i < 6 then entTag e else 0)).setJob { j with row := j.row + 1, srcLines := [] }

/-! ### Tiles into memory (CPYT.st, DRAIN, PDRAIN; R67, R135) -/

/-- Bytes that a tile writes within one line: their pointer, and each one's bit mask and bits. -/
structure Piece where
  ptr : DWord
  bytes : List (Nat × Nat)
  deriving DecidableEq, Repr

/-- Cut bytes at line ends. -/
def cutLines : Nat → DWord → List (Nat × Nat) → List Piece
  | 0, _, _ => []
  | fuel + 1, p, bs =>
    if bs.isEmpty then []
    else
      let m := 64 - lineOff p
      { ptr := p, bytes := bs.take m } :: cutLines fuel (ptrAdd p (m : Nat)) (bs.drop m)

/-- The pieces of row i: the bits of its in-bounds elements, the first `cols` of them. -/
def rowPieces (e : TEntry) (o : List Nat) (cols i bits : Nat) : List Piece :=
  let w := entWidth e
  let n := rowCount e o i cols
  if n == 0 then []
  else
    let b0 := w * o.getD 0 0
    let (p, sh) := bitPlace e (tileCoord o i 0) b0
    let full := bits % 2 ^ (w * n) * 2 ^ sh
    let mask := (2 ^ (w * n) - 1) * 2 ^ sh
    let bytes := (List.range ((sh + w * n + 7) / 8)).map fun k => (natByte mask k, natByte full k)
    cutLines (bytes.length / 64 + 2) p bytes

/-- The scale bytes of row i's blocks that hold an in-bounds element. -/
def scalePieces (e : TEntry) (o : List Nat) (i bits : Nat) : List Piece :=
  let n := (rowCount e o i (tileK (entWidth e)) + 31) / 32
  if n == 0 then []
  else cutLines 3 (scalePlace e (tileCoord o i 0)) ((List.range n).map fun b => (255, natByte bits b))

/-- Every piece a staged tile writes: elements row by row, then scales. -/
def tilePieces (e : TEntry) (origin : List DWord) (cols : Nat) (scales : Bool) (stage : List Nat) : List Piece :=
  let o := originOf e origin
  (stage.zipIdx.flatMap fun r => rowPieces e o cols r.2 (r.1 % 2 ^ 1536)) ++
  (if scales then stage.zipIdx.flatMap fun r => scalePieces e o r.2 (r.1 / 2 ^ 1536) else [])

/-- A piece joins those of its line. -/
def addPiece (ls : List (Nat × List Piece)) (p : Piece) : List (Nat × List Piece) :=
  let line := lineNo p.ptr
  if ls.any fun x => x.1 == line then ls.map fun x => if x.1 == line then (line, x.2 ++ [p]) else x else ls ++ [(line, [p])]

/-- The destination lines of a tile, each with what is written there (R58: a line is written in one piece). DESIGN CHOICE (log 71): they
come in the order of their first piece. -/
def tileLines (e : TEntry) (origin : List DWord) (cols : Nat) (scales : Bool) (stage : List Nat) : List (Nat × List Piece) :=
  (tilePieces e origin cols scales stage).foldl addPiece []

/-- Bytes laid into a line bit by bit (R67): those written, and the line. -/
def laid (cur : LineData) (ps : List Piece) : ByteMask × LineData :=
  ps.foldl (fun (x : ByteMask × LineData) p => p.bytes.zipIdx.foldl (fun (x : ByteMask × LineData) b =>
    let i := lineOff p.ptr + b.2
    let new := (b.1.2 &&& b.1.1) ||| ((byteOf x.2 i).toNat &&& (255 - b.1.1))
    (x.1 ||| ((1 : ByteMask) <<< i), setByte x.2 i (BitVec.ofNat 8 new))) x) (0, cur)

/-- One destination line of a tile: a byte that holds other bits too is written whole, with its current value at the level (R67), for
which a forwarded line comes from its owner first. -/
def State.stepLine (s : State) (j : Job) (c : Ctx) (lvl : Level) (handle : Nat) (x : Nat × List Piece) : State :=
  let part := x.2.any fun p => p.bytes.any fun b => b.1 != 255
  let p := (x.2.map (·.ptr)).headD (linePtr x.1)
  match if part then s.fill c x.1 .write (j.asked == some x.1 && s.reachable c x.1) else s.ensure c x.1 .write with
  | (s, .fail cause pa) => s.stopJob j (jobTrap cause p pa 0xE handle)
  | (s, r) =>
    let wanted : Option L2Line := match r, part with
      | .away l, true => some l
      | _, _ => none
    match wanted with
    | some l => s.askOwner j c l
    | none =>
      let s := if part && j.asked == some x.1 then s.countForward c x.1 else s
      let (m, d) := laid (s.current j c lvl x.1) x.2
      match s.land j c lvl x.1 m d false with
      | (s, some (cause, pa)) => s.stopJob j (jobTrap cause p pa 0xE handle)
      | (s, none) => s.setJob { j with row := j.row + 1, asked := none }

/-- The rows of a tile in scratch under an entry's layout, with scale bytes above bit 1,536; whether an error was met. -/
def State.stageTile (s : State) (x : Cx) (seg : Nat) (e : TEntry) : State × List Nat × Bool :=
  let w := entWidth e
  let me := some x.ref
  let (s, tile, bad) := s.readTile 1 me x.core seg 6 (entSwz e) (tileUses (entPl e) w 0 32)
  let scaled := entScm e == 1
  let (s, area, bad2) := if scaled then s.readTile 1 me x.core (seg + 6) (scaleSegs w) 0 (scaleUses w 0 32) else (s, 0, false)
  let nb := scaleBlocks w
  let rows := (List.range 32).map fun i =>
    ((List.range (tileK w)).foldr (fun el acc => tileElem (entPl e) w tile i el + 2 ^ w * acc) 0) +
      area / 2 ^ (8 * nb * i) % 2 ^ (8 * nb) * 2 ^ 1536
  (s, rows, bad || bad2)

/-- The scratch source of a CPYT.st, read before anything is written. -/
def State.stageStore (s : State) (j : Job) : State × Job :=
  match j.kind, j.wave.bind s.cxOf with
  | .tileStore _ sym queue seg e _ _, some x =>
    if j.stage.isEmpty then
      let (s, rows, bad) := s.stageTile x (x.segAt queue sym + seg) e
      let j := { j with stage := rows }
      ((s.setJob j).uceIf j 2 bad, j)
    else (s, j)
  | _, _ => (s, j)

/-- The amax word of a drain: an unsigned atomic maximum at its level (R136), on the word the pointer's low bits [1:0] leave out. Like
every atomic it drops the core's clean copy (spec/08 R152). -/
def State.mergeAmax (s : State) (j : Job) (lvl : Level) (ptr : DWord) (sc amax : Nat) : State :=
  match j.wave.bind s.cxOf with
  | none => s.setJob { j with row := j.row + 1 }
  | some x =>
    let p := ptr &&& ~~~3
    let line := lineNo p
    let buffered := lvl == .b || lvl == .g
    let s := if buffered && j.asked == some line && s.reachable x.ctx line then ((s.fill x.ctx line .atomic true).1).countForward x.ctx line else s
    match s.atomLines x.ctx buffered false [(line, elemMask p 4)] [] with
    | (s, [(_, .fail cause pa)]) => s.stopJob j (jobTrap cause p pa 0xD sc)
    | (s, [(_, .away l)]) => if buffered then s.askOwner j x.ctx l else s
    | (s, _) =>
      let x := { x with s := s }
      let sick := (x.atomD buffered line).2 && (elemMask p 4 &&& ~~~(x.held lvl line).1) != 0
      let (x, _, _) := x.atomStep { x.writer lvl true with job := some j.id } p 4 fun old => (some (max old amax), 0)
      let s := x.close.dropL1 [x.core] x.ctx.tenant x.ctx.asid line
      (s.setJob { j with row := j.row + 1, asked := none }).uceIf j 1 sick

/-! ### Steps and completion -/

/-- How many steps a job takes. -/
def Job.total (j : Job) : Nat :=
  match j.kind with
  | .linear _ dst _ len _ _ _ _ => if len == 0 then 0 else spanLines dst len
  | .tileLoad _ _ _ e _ _ => 32 + scaleRows e + tileSegs e
  | .tileStore _ _ _ _ e _ o => (tileLines e o (tileK (entWidth e)) (entScm e == 1) j.stage).length
  | .drain _ e _ o cols _ amx _ => (tileLines e o cols false j.stage).length + if amx.isSome then 1 else 0

/-- A job whose last byte has landed, with every packet acknowledged, completes: its tag counts (R71), a drain's flags merge
(R135), a COPY's record is written (R362). -/
def State.finishJob (s : State) (id : Nat) : State :=
  match s.job? id with
  | none => s
  | some j =>
    let ready := match j.kind with
      | .tileStore .. => !j.stage.isEmpty
      | _ => true
    if j.stop.isSome || !ready || j.row < j.total || s.outstanding id then s
    else
      let s := { s with jobs := s.jobs.filter (·.id != id) }
      match j.wave, j.cmd with
      | some w, _ =>
        let s := match j.kind with
          | .drain _ _ _ _ _ fl _ _ => s.report w fl false j.flagsTo
          | _ => s
        s.completeTag w j.tag
      | none, some src => s.complete src opCopy eOk 0
      | none, none => s

/-- One step of a job that may go on. -/
def State.stepJob (s : State) (j : Job) (c : Ctx) : State :=
  match j.kind with
  | .linear lvl dst src len overlap remote dsc ssc =>
    if j.row < j.total then s.stepLinear j c lvl dst src len overlap remote dsc ssc else s
  | .tileLoad sym queue seg e h o =>
    match j.wave.bind s.cxOf with
    | some x => if x.blk.place == .resident && j.row < j.total then s.stepLoad j c x sym queue seg e h o else s
    | none => s
  | .tileStore lvl _ _ _ e h o =>
    let (s, j) := s.stageStore j
    match (tileLines e o (tileK (entWidth e)) (entScm e == 1) j.stage)[j.row]? with
    | some x => s.stepLine j c lvl h x
    | none => s
  | .drain lvl e h o cols _ amx amax =>
    match (tileLines e o cols false j.stage)[j.row]?, amx with
    | some x, _ => s.stepLine j c lvl h x
    | none, some (la, ptr, sc) => if j.row < j.total then s.mergeAmax j la ptr sc amax else s
    | none, none => s

/-- A copy engine's next step for a job, where nothing holds it (R58, R74). -/
def State.transfer (s : State) (id : Nat) : State :=
  match s.job? id with
  | none => s
  | some j =>
    match s.ctx? j.tenant j.ctx with
    | none => s
    | some c => if j.stop.isSome || j.after.any s.underway then s else (s.stepJob j c).finishJob id

end Sys2Proof.Machine
end

