-- ==== Sys2Proof/Machine/Copy.lean ====
section
/-!
DEFINITION. Copy instructions and tag instructions (spec/14 R253 to R256, spec/03 R65 to R72), and the copy engines' steps.
-/

namespace Sys2Proof

def SegSrc.opds : SegSrc → List Machine.Opd
  | .imm _ => []
  | .scl n => [Machine.rdS n 1]

/-- The tags of a list, in order (R256). -/
def TagList.tags (l : TagList) : List Nat := (List.range (l.n1.toNat + 1)).map fun i => l.slots.toNat / 2 ^ (6 * i) % 64

end Sys2Proof

namespace Sys2Proof.Machine

/-! ### CPY and CPYR (R253) -/

/-- The copy that CPY and CPYR start; the tag holds it back at 255 (R71). -/
def copyBody (lvl : Level) (remote : Bool) (d src : BitVec 8) (n : SI) (tag : BitVec 8) (c : Cx) (act : Mask) : Res :=
  if c.tagFull tag.toNat then .wait c.s .retry
  else
    let l := lowestLane act
    let len := (c.si n (·.setWidth 64) l).toNat % 2 ^ 40
    let dst := c.scl d l
    let from_ := c.scl src l
    .done (c.startJob (.linear lvl dst from_ len (overlaps dst from_ len) remote d.toNat src.toNat) tag.toNat) id

def execCpy (h : Hdr) (lvl : Level) (d src : BitVec 8) (n : SI) (tag : BitVec 8) (s : State) : Host.Outcome State Fault Refusal :=
  issue h { len := 16, ops := rdS d 1 :: rdS src 1 :: siOpds n, syms := [(kTag, tag.toNat, 0, 0)], level := some (lvl, true, false) }
    (onPath 1 (copyBody lvl false d src n tag)) s

def execCpyr (h : Hdr) (d src : BitVec 8) (n : SI) (tag : BitVec 8) (s : State) : Host.Outcome State Fault Refusal :=
  issue h { len := 16, ops := rdS d 1 :: rdS src 1 :: siOpds n, syms := [(kTag, tag.toNat, 0, 0)] }
    (onPath 1 (onPath 3 (copyBody .d true d src n tag))) s

/-! ### CPYT (R254, R67) -/

/-- The entry a handle names in the issuing context, and how many origin scalars it needs; an invalid entry needs none. -/
def State.entryOf (s : State) (hn : BitVec 8) : TEntry := s.cx?.elim [] fun c => c.ctx.entry hn.toNat

def originNeed (e : TEntry) : Nat := if entValid e then originRegs e else 0

/-- The segment offset that an operand names. -/
def Cx.segOff (c : Cx) (x : SegSrc) (l : Nat) : Nat :=
  match x with
  | .imm n => n.toNat
  | .scl n => (c.scl n l).toNat % 2 ^ 16

def scKind (queue : Bool) : Nat := if queue then kQueue else kBuffer

/-- REGBOUND of a tile that runs past its symbol's segments. -/
def Cx.tileTrap (c : Cx) (queue : Bool) (sym seg n : Nat) (lanes : Mask) : Option TrapInfo :=
  if c.segCount queue sym < seg + n then
    some { laneTrap tMemFault cRegBound (infoScratch seg queue sym 0 0) lanes with
             symKind := scKind queue, sym := sym, offset := BitVec.ofNat 64 (1024 * seg) }
  else none

def Cx.origin (c : Cx) (so : BitVec 8) (n l : Nat) : List DWord :=
  (List.range n).map fun i => c.scl (so + BitVec.ofNat 8 i) l

/-- What CPYT.ld and CPYT.st do once their checks at decode have passed: a scaled origin off its blocks is ALIGN, a tile past
the symbol REGBOUND (R67). -/
def tileBody (buf : SegRef16) (hn so tag : BitVec 8) (kind : Nat → TEntry → List DWord → JobKind) (c : Cx) (act : Mask) : Res :=
  let l := lowestLane act
  let e := c.ctx.entry hn.toNat
  let origin := c.origin so (originRegs e) l
  let x0 := (originOf e origin).getD 0 0
  let seg := c.segOff buf.seg l
  if entScm e == 1 && x0 % 32 != 0 then
    .trap c.s (laneTrap tAlign 0 (BitVec.ofNat 64 (2 ^ 55 + 2 ^ 54 + hn.toNat * 2 ^ 32 + x0)) act)
  else
    match c.tileTrap buf.queue buf.sym.toNat seg (tileSegs e) act with
    | some t => .trap c.s t
    | none =>
      if c.tagFull tag.toNat then .wait c.s .retry
      else .done (c.startJob (kind seg e origin) tag.toNat) id

def tileInfo (buf : SegRef16) (so tag : BitVec 8) (n : Nat) (lvl : Option (Level × Bool × Bool)) (handle : Cx → Option Nat) : Info :=
  { len := 16, ops := buf.seg.opds ++ [rdS so n], badReg := decide (256 < so.toNat + n),
    syms := [(scKind buf.queue, buf.sym.toNat, 0, 0), (kTag, tag.toNat, 0, 0)], level := lvl, handle := handle }

def execCpytLd (h : Hdr) (buf : SegRef16) (hn so tag : BitVec 8) (s : State) : Host.Outcome State Fault Refusal :=
  issue h (tileInfo buf so tag (originNeed (s.entryOf hn)) none (needs hn fun _ => true))
    (onPath 1 (tileBody buf hn so tag fun seg e o => .tileLoad buf.sym.toNat buf.queue seg e hn.toNat o)) s

def execCpytSt (h : Hdr) (lvl : Level) (buf : SegRef16) (hn so tag : BitVec 8) (s : State) : Host.Outcome State Fault Refusal :=
  issue h (tileInfo buf so tag (originNeed (s.entryOf hn)) (some (lvl, true, false)) (needs hn entWritable))
    (onPath 1 (tileBody buf hn so tag fun seg e o => .tileStore lvl buf.sym.toNat buf.queue seg e hn.toNat o)) s

/-! ### Tags (R256, R72) -/

def tagInfo (ops : List Opd) (t : TagList) : Info := { len := 16, uni := true, ops := ops, syms := t.tags.map fun n => (kTag, n, 0, 0) }

def Block.tagReady (b : Block) (n : Nat) : Bool := (b.tag? n).elim false (·.ready)

def execTwany (h : Hdr) (tags : TagList) (s : State) : Host.Outcome State Fault Refusal :=
  issue h (tagInfo [] tags) (fun c _ => if tags.tags.any c.blk.tagReady then .done c id else .wait c.s .retry) s

def execTwall (h : Hdr) (tags : TagList) (s : State) : Host.Outcome State Fault Refusal :=
  issue h (tagInfo [] tags) (fun c _ => if tags.tags.all c.blk.tagReady then .done c id else .wait c.s .retry) s

def execTfirst (h : Hdr) (d : BitVec 8) (tags : TagList) (s : State) : Host.Outcome State Fault Refusal :=
  issue h (tagInfo [wrS d 1] tags) (fun c _ =>
    let pos := (tags.tags.findIdx? c.blk.tagReady).elim (BitVec.allOnes 64) fun (i : Nat) => BitVec.ofNat 64 i
    .done c fun r => r.setScalar d.toNat pos) s

def execTclr (h : Hdr) (tags : TagList) (s : State) : Host.Outcome State Fault Refusal :=
  issue h (tagInfo [] tags) (fun c _ =>
    let b := tags.tags.foldl (fun (b : Block) n => match b.tag? n with
      | some t => b.setTag { t with ready := false }
      | none => b) c.blk
    .done { c with blk := b } id) s

/-! ### The copy engines (R65, R71, R74) -/

/-- COPY_LINE_TRANSFER: the next destination piece of a copy. -/
def execCopyLineTransfer (job : Nat) (s : State) : Host.Outcome State Fault Refusal := .next (s.transfer job)

end Sys2Proof.Machine
end

