-- ==== Sys2Proof/Machine/Matrix.lean ====
section
/-!
DEFINITION. The matrix engine and accumulator memory (spec/07 R124 to R139, spec/05 R101 to R103 and R110, spec/15 R271 to R279):
signing, the engine queue, MMA and PMMA, accumulator instructions and drains.
-/

namespace Sys2Proof.Machine

/-! ### Banks (R54, R131, R132) -/

def noBank : Bank := { alloc := false, owner := 0, words := [] }

def Core.bank (k : Core) (n : Nat) : Bank := k.banks.getD n noBank

def Core.setBank (k : Core) (n : Nat) (b : Bank) : Core := { k with banks := setAt noBank n b k.banks }

def Bank.word (b : Bank) (i : Nat) : Word := b.words.getD i 0

/-- Bank words as reads see them: an unallocated bank reads as zeros (R132). -/
def Core.read (k : Core) (n i : Nat) : Word := if (k.bank n).alloc then (k.bank n).word i else 0

/-- All words of a bank replaced; a write to an unallocated bank is discarded. Words written whole lose their errors. -/
def Core.fill (k : Core) (n : Nat) (f : Nat → Word) : Core :=
  if (k.bank n).alloc then
    { k.setBank n { k.bank n with words := (List.range 512).map f } with badAcc := k.badAcc.filter (· / 512 != n) }
  else k

/-- Some of the banks are unallocated. -/
def Core.unalloc (k : Core) (first n : Nat) : Bool := (List.range n).any fun i => !(k.bank (first + i)).alloc

/-- A double-bit error in an allocated bank (R54): an unallocated one is not read (R132). -/
def Core.badBank (k : Core) (first n : Nat) : Bool :=
  k.badAcc.any fun w => decide (first ≤ w / 512) && decide (w / 512 < first + n) && (k.bank (w / 512)).alloc

/-! ### Expansion and the order of sums (spec/05 R101 to R103, R110) -/

/-- The value of an element in XF: exact, NaN under scale code 0x80. -/
def xfExpand (e : TEntry) (code scale : Nat) : FVal :=
  let s : Int := (BitVec.ofNat 8 scale).toInt
  if s == -128 then .nan false
  else
    (match entCls e with
     | 0 => ofInt (BitVec.ofNat 8 code).toInt 0
     | 1 => ofInt ((code % 256 : Nat) : Int) 0
     | _ => (entFloat e).value code).scale s

/-- The greatest exponent of the nonzero finite products. -/
def topExp : List FVal → Option Int
  | [] => none
  | x :: xs =>
    match x, topExp xs with
    | .fin _ m e _, none => if m == 0 then none else some (m.log2 + e)
    | .fin _ m e _, some t => if m == 0 then some t else some (max t (m.log2 + e))
    | _, t => t

/-- |x| in units of 2^q, rounded down, with its sign. -/
def truncAt (q : Int) : FVal → Int
  | .fin neg m e _ =>
    let n : Nat := if q ≤ e then m * 2 ^ (e - q).toNat else m / 2 ^ (q - e).toNat
    if neg then -(n : Int) else n
  | _ => 0

/-- A group of sixteen products. DEDUCED (log 72): no NaN among its elements sets NV, a signalling one neither. -/
def groupSum (ps : List (FVal × FVal)) : FVal × Flags :=
  let prods := ps.map fun x => (x.1.mul x.2).1
  let fl := ps.foldl (fun f x => f ||| (x.1.mul x.2).2) (0 : Flags)
  let source := ps.any fun x => x.1.isNan || x.2.isNan
  let pos := prods.any fun p => p == FVal.inf false
  let neg := prods.any fun p => p == FVal.inf true
  if prods.any FVal.isNan || (pos && neg) then
    (.nan false, fl ||| if pos && neg && !source then fNV else 0)
  else if pos || neg then (.inf neg, fl)
  else
    match topExp prods with
    | none => (.fin (prods.all FVal.isNeg) 0 0 false, fl)
    | some top => (ofInt (prods.foldl (fun s p => s + truncAt (top - 47) p) 0) (top - 47), fl)

/-- Rows of pairs in groups of sixteen, added in ascending order, one rounding each. -/
def sumGroups : Nat → List (FVal × FVal) → Nat × Flags → Nat × Flags
  | 0, _, x => x
  | n + 1, ps, (acc, fl) =>
    let (g, f1) := groupSum (ps.take 16)
    let a := Fmt.f32.value acc
    let (z, f2) := a.add .rn g
    let (y, f3) := Fmt.f32.rnd .rn z
    sumGroups n (ps.drop 16) (y, fl ||| f1 ||| f2 ||| f3 ||| snan [a])

/-- A tile's rows in XF: elements with their scales. -/
def expandRows (e : TEntry) (rows : List Nat) (n : Nat) : List (List FVal) :=
  let w := entWidth e
  (rows.take n).map fun r => (List.range (tileK w)).map fun k =>
    xfExpand e (r / 2 ^ (w * k) % 2 ^ w) (r / 2 ^ (1536 + 8 * (k / 32)) % 256)

/-- NSC: some block that is expanded has scale code 0x80. -/
def anyNsc (e : TEntry) (rows : List Nat) (n : Nat) : Bool :=
  entScm e == 1 && (rows.take n).any fun r =>
    (List.range (scaleBlocks (entWidth e))).any fun b => r / 2 ^ (1536 + 8 * b) % 256 == 0x80

/-! ### Handles of MMA and PMMA (R124) -/

def mmaClass (e : TEntry) : Bool :=
  match entCls e with
  | 3 | 4 | 5 => true
  | 0 | 1 => entIw e == 0
  | _ => false

def pmmaClass (e : TEntry) : Bool := entCls e == 6 || entCls e == 7

def matHandles (cls : TEntry → Bool) (o : MatOps) (c : Cx) : Option Nat :=
  let a := c.ctx.entry o.hA.toNat
  let b := c.ctx.entry o.hB.toNat
  if !(entValid a && entPl a && cls a) then some o.hA.toNat
  else if !(entValid b && entPl b && cls b && entWidth a == entWidth b) then some o.hB.toNat
  else none

/-! ### Issuing an operation (R127, R128, R273) -/

/-- SWIZZLE on the first segment whose tag differs (R127). -/
def Cx.swizzleTrap (c : Cx) (r : SegRef) (off : Nat) (e : TEntry) (lanes : Mask) : Option TrapInfo :=
  let want (i : Nat) : BitVec 4 := if i < 6 then entTag e else 0
  let found (i : Nat) : BitVec 4 := ((c.s.core c.core).seg (c.segAt r.queue r.sym.toNat + off + i)).tag
  ((List.range (tileSegs e)).find? fun i => found i != want i).map fun i =>
    { laneTrap tSwizzle 0 (infoScratch (off + i) r.queue r.sym.toNat (found i).toNat (want i).toNat) lanes with
        symKind := scKind r.queue, sym := r.sym.toNat, offset := BitVec.ofNat 64 (1024 * (off + i)), punit := off + i }

/-- A scalar of the wave that signed, read as the operation issues (R273): its own, also behind its handler. -/
def Cx.signerScalar (c : Cx) (wave : Nat) (from_ : FlagsTo) (n : BitVec 8) (l : Nat) : DWord :=
  if wave == c.sel.ref.wave && from_ == c.flagsTo then c.scl n l
  else
    let w := c.blk.wave wave
    match w.frame with
    | some f => if from_ == .handler then w.regs.scalar n.toNat else f.regs.scalar n.toNat
    | none => w.regs.scalar n.toNat

/-- The operands of an MMA or PMMA. -/
def matOps? : Instr → Option MatOps
  | .mma _ _ o | .pmma _ _ _ o => some o
  | _ => none

/-- Scratch writes that an operation sees (R275): in its segments, those of the issuer, and those that a phase orders before the
signature of a wave of the round. -/
def EngOp.orders (o : EngOp) (core : Nat) (signers : List Nat) (u : Unsettled) : Bool :=
  u.scratch && u.loc / 16 / 1536 == core && o.reads (u.loc / 16 % 1536) &&
    (u.wave == o.wave || (u.wave.lid == o.wave.lid && u.wave.rank == o.wave.rank && signers.any u.seenBy.contains))

/-- The round's operation enters the engine queue with the issuer's checks made (R127, R274), with the entries that its MMA or PMMA
signed with (spec/03 R59). -/
def Cx.issueOp (c : Cx) (t : TrickState) (i : Instr) (wave : Nat) (from_ : FlagsTo) (act : Mask) : Except TrapInfo Cx :=
  match matOps? i with
  | none => .ok c
  | some o =>
    let l := lowestLane act
    let off (r : SegRef) : Nat := if r.scl then (c.signerScalar wave from_ r.seg l).toNat % 2 ^ 16 else r.seg.toNat
    let ea := t.entryA
    let eb := t.entryB
    let traps := [c.tileTrap o.a.queue o.a.sym.toNat (off o.a) (tileSegs ea) act,
                  c.tileTrap o.b.queue o.b.sym.toNat (off o.b) (tileSegs eb) act,
                  c.swizzleTrap o.a (off o.a) ea act, c.swizzleTrap o.b (off o.b) eb act]
    match traps.findSome? id with
    | some t => .error t
    | none =>
      let s : State := c.s.tick
      let op : EngOp :=
        { id := s.stamp, wave := c.ref, pc := c.g.pc, op := i, origin := [], arg := 0,
          segA := c.segAt o.a.queue o.a.sym.toNat + off o.a, segB := c.segAt o.b.queue o.b.sym.toNat + off o.b,
          entryA := ea, entryB := eb, pipe := c.wv.pipe, flagsTo := c.flagsTo }
      let signers := (List.range c.blk.waves.length).filter fun w => t.signed &&& threadsOf w (BitVec.allOnes 128) != 0
      let see (u : Unsettled) : Unsettled := if op.orders c.core signers u then { u with unseen := u.unseen &&& 0xB } else u
      let s : State := { s with unsettled := s.unsettled.map see }
      let k := s.core c.core
      .ok { c with s := s.setCore c.core { k with engine := k.engine ++ [op] } }

/-- The set size of a trick: W where none is declared (R128). -/
def Cx.trickSize (c : Cx) (sym : Nat) : Nat :=
  match c.krn.sym? kTrick sym with
  | some r => if r.count == 0 then Config.W else r.count
  | none => Config.W

/-- Signatures of the active lanes on a trick (R128, R129, R272). -/
def Cx.signTrick (c : Cx) (sym : Nat) (op : Option Instr) (act : Mask) : Res :=
  match c.blk.trick? sym with
  | none => .done c id
  | some t =>
    let n := c.trickSize sym
    let m := laneCount act
    let who := threadsOf c.sel.ref.wave act
    if n < m then .trap c.s (laneTrap tIllop 0x0C 0 act)
    else if t.signed &&& who != 0 || n < t.count + m then .wait c.s .retry
    else
      let entry (h : MatOps → BitVec 8) (old : TEntry) (i : Instr) : TEntry := (matOps? i).elim old fun o => c.ctx.entry (h o).toNat
      let t := match op with
        | some i => { t with op := some (c.sel.ref.wave, c.flagsTo, i), entryA := entry (·.hA) t.entryA i, entryB := entry (·.hB) t.entryB i }
        | none => t
      let t := { t with signed := t.signed ||| who, count := t.count + m }
      if t.count < n then .done { c with blk := c.blk.setTrick t } id
      else
        let round (c : Cx) : Cx := { c with blk := (c.blk.setTrick { t with signed := 0, count := 0, op := none, entryA := [], entryB := [] }).wake }
        match t.op with
        | none => .done (round c) id
        | some (wave, from_, i) =>
          match c.issueOp t i wave from_ act with
          | .error tr => .trap c.s tr
          | .ok x => .done (round x) id

def execSign (h : Hdr) (k : BitVec 8) (s : State) : Host.Outcome State Fault Refusal :=
  issue h { len := 16, syms := [(kTrick, k.toNat, 0, 0)] } (onPath 2 fun c act => c.signTrick k.toNat none act) s

def segOpds (r : SegRef) : List Opd := if r.scl then [rdS r.seg 1] else []

def matInfo (o : MatOps) (banks : Nat) (cls : TEntry → Bool) : Info :=
  { len := 16, ops := segOpds o.a ++ segOpds o.b,
    syms := [(kAcc, o.acc.toNat, o.bank.toNat, banks), (scKind o.a.queue, o.a.sym.toNat, 0, 0),
             (scKind o.b.queue, o.b.sym.toNat, 0, 0), (kTrick, o.k.toNat, 0, 0)],
    handle := matHandles cls o }

def execMma (h : Hdr) (w2 : Bool) (o : MatOps) (s : State) : Host.Outcome State Fault Refusal :=
  issue h (matInfo o (1 + w2.toNat) mmaClass)
    (onPath 2 fun c act => c.signTrick o.k.toNat (some (.mma h w2 o)) act) s

def execPmma (h : Hdr) (qn : BitVec 2) (conj : Bool) (o : MatOps) (s : State) : Host.Outcome State Fault Refusal :=
  issue h (matInfo o 2 pmmaClass)
    (onPath 2 fun c act => c.signTrick o.k.toNat (some (.pmma h qn conj o)) act) s

/-! ### Accumulator instructions (R130 to R132, R276, R277; log 17) -/

/-- In queue order: the instruction acts once every operation queued before it has. -/
def onEngine (body : Cx → Mask → Res) (c : Cx) (act : Mask) : Res :=
  if (c.s.core c.core).engine.isEmpty then body c act else .wait c.s .retry

/-- Change the core, and set UNALLOC where an unallocated bank was met. -/
def Cx.putAcc (c : Cx) (k : Core) (unalloc : Bool) : Cx :=
  let c := { c with s := c.s.setCore c.core k }
  if unalloc then c.setWv { c.wv with status := c.wv.status ||| stUnalloc } else c

def accInfo (sym : BitVec 8) (b : BitVec 10) (n : Nat) (ops : List Opd) : Info :=
  { len := 16, ops := ops, syms := [(kAcc, sym.toNat, b.toNat, n)] }

def execAcca (h : Hdr) (sym : BitVec 8) (b : BitVec 10) (cnt1 grp : BitVec 4) (s : State) : Host.Outcome State Fault Refusal :=
  let n := cnt1.toNat + 1
  issue h (accInfo sym b n []) (onEngine fun c _ =>
    let first := c.bankAt sym.toNat + b.toNat
    let k := (List.range n).foldl (fun k i =>
      ({ k.setBank (first + i) { alloc := true, owner := grp.toNat, words := [] } with
          badAcc := k.badAcc.filter (· / 512 != first + i) } : Core)) (c.s.core c.core)
    .done (c.putAcc k false) id) s

def execAccf (h : Hdr) (sym : BitVec 8) (b : BitVec 10) (cnt1 : BitVec 4) (s : State) : Host.Outcome State Fault Refusal :=
  let n := cnt1.toNat + 1
  issue h (accInfo sym b n []) (onEngine fun c _ =>
    let first := c.bankAt sym.toNat + b.toNat
    let k := (List.range n).foldl (fun k i => k.setBank (first + i) { k.bank (first + i) with alloc := false }) (c.s.core c.core)
    .done (c.putAcc k false) id) s

def execAccz (h : Hdr) (sym : BitVec 8) (b : BitVec 10) (cnt1 : BitVec 4) (s : State) : Host.Outcome State Fault Refusal :=
  let n := cnt1.toNat + 1
  issue h (accInfo sym b n []) (onEngine fun c _ =>
    let first := c.bankAt sym.toNat + b.toNat
    let k := c.s.core c.core
    .done (c.putAcc ((List.range n).foldl (fun k i => k.fill (first + i) fun _ => 0) k) (k.unalloc first n)) id) s

/-- The word of a bank that lane l names. -/
def accWord (sw : DWord) (l : Nat) : Nat := (sw.toNat % 512 + l) % 512

def execAccr (h : Hdr) (d : BitVec 12) (sym : BitVec 8) (b : BitVec 10) (sw : BitVec 8) (s : State) :
    Host.Outcome State Fault Refusal :=
  issue h (accInfo sym b 1 [rdS sw 1, wrV d false]) (onEngine fun c act =>
    let bank := c.bankAt sym.toNat + b.toNat
    let k := c.s.core c.core
    let word (l : Nat) : Nat := accWord (c.scl sw (lowestLane act)) l
    let bad := maskOf fun l => act.getLsbD l && (k.bank bank).alloc && k.badAcc.contains (bank * 512 + word l)
    if bad != 0 then .trap c.s (uceTrap 3 bad)
    else .done (c.putAcc k (k.unalloc bank 1)) fun r => r.setRow d.toNat act fun l => some (k.read bank (word l))) s

def execAccw (h : Hdr) (sym : BitVec 8) (b : BitVec 10) (sw : BitVec 8) (a : BitVec 12) (s : State) :
    Host.Outcome State Fault Refusal :=
  issue h { accInfo sym b 1 [rdS sw 1, rdRaw a false] with lastB := regsOf a false } (onEngine fun c act =>
    let bank := c.bankAt sym.toNat + b.toNat
    let k := c.s.core c.core
    let word (l : Nat) : Nat := accWord (c.scl sw (lowestLane act)) l
    let ws := (lanesOf act).foldl (fun ws l => setAt 0 (word l) ((c.vec a false l).setWidth 32) ws) (k.bank bank).words
    let named := (lanesOf act).map fun l => bank * 512 + word l
    let k' := if (k.bank bank).alloc then
        { k.setBank bank { k.bank bank with words := ws } with badAcc := k.badAcc.filter fun w => !named.contains w }
      else k
    .done (c.putAcc k' (k.unalloc bank 1)) id) s

/-! ### Drains (R135 to R138, R278, R279) -/

def drainClass (e : TEntry) : Bool := (entCls e == 2 || entCls e == 3 || entCls e == 4 || entCls e == 5) && entScm e == 0

def pdrainClass (e : TEntry) : Bool := entCls e == 1 && entIw e == 2

/-- What a drain needs of its handle: its class, a writable geometry in memory, no planes of wide elements in scratch (R64, R278). -/
def drainNeeds (hn : BitVec 8) (cls : TEntry → Bool) (dst : DrainDst) (c : Cx) : Option Nat :=
  needs hn (fun e => cls e && match dst with
    | .mem _ _ => entWritable e
    | .sc sym queue _ => !(tagPl (c.symTag queue sym.toNat)) || decide (entWidth e ≤ 16)) c

/-- Origin scalars of a drain, as far as its entry needs them. -/
def drainOrigin (dst : DrainDst) (e : TEntry) : Option (BitVec 8 × Nat) :=
  match dst with
  | .mem _ so => some (so, originNeed e)
  | .sc _ _ _ => none

def drainInfo (dst : DrainDst) (hn : BitVec 8) (acc : BitVec 8) (b : BitVec 10) (banks : Nat) (tag : BitVec 8) (extra : List Opd)
    (cls : TEntry → Bool) (amx : Option Level) (s : State) : Info :=
  let o := drainOrigin dst (s.entryOf hn)
  { len := 16, ops := (o.elim [] fun x => [rdS x.1 x.2]) ++ extra, badReg := o.elim false fun x => decide (256 < x.1.toNat + x.2),
    syms := (match dst with
      | .sc sym queue _ => [(scKind queue, sym.toNat, 0, 0)]
      | .mem _ _ => []) ++ [(kAcc, acc.toNat, b.toNat, banks), (kTag, tag.toNat, 0, 0)],
    level := (match dst with
      | .mem lvl _ => some (lvl, true, false)
      | .sc _ _ _ => none),
    level2 := amx.map fun l => (l, true, false),
    handle := drainNeeds hn cls dst }

/-- BANDOWN on the first allocated bank of another group (R138). -/
def Cx.bandTrap (c : Cx) (acc first n : Nat) (act : Mask) : Option TrapInfo :=
  let k := c.s.core c.core
  let other (i : Nat) : Bool :=
    let b := k.bank (c.bankAt acc + first + i)
    b.alloc && b.owner != c.waveGroup acc
  ((List.range n).find? other).map fun i =>
    { laneTrap tBandOwn 0 (BitVec.ofNat 64 ((first + i) * 2 ^ 16 + acc)) act with
        symKind := kAcc, sym := acc, offset := BitVec.ofNat 64 (2048 * (first + i)), punit := first + i }

/-- A drain enters the engine queue: range, then ownership, then its tag (R279). -/
def drainBody (i : Instr) (dst : DrainDst) (hn : BitVec 8) (acc : BitVec 8) (b : BitVec 10) (banks : Nat) (tag : BitVec 8)
    (arg : Cx → Nat → DWord) (c : Cx) (act : Mask) : Res :=
  let l := lowestLane act
  let e := c.ctx.entry hn.toNat
  let range := match dst with
    | .sc sym queue seg => c.tileTrap queue sym.toNat seg.toNat 6 act
    | .mem _ _ => none
  match range, c.bandTrap acc.toNat b.toNat banks act with
  | some t, _ => .trap c.s t
  | none, some t => .trap c.s t
  | none, none =>
    if c.tagFull tag.toNat then .wait c.s .retry
    else
      let s := c.s.tick
      let k := s.core c.core
      let op : EngOp :=
        { id := s.stamp, wave := c.ref, pc := c.g.pc, op := i,
          origin := match dst with
            | .mem _ so => c.origin so (originRegs e) l
            | .sc _ _ _ => [],
          arg := arg c l, segA := 0, segB := 0, entryA := e, entryB := [], pipe := c.wv.pipe, flagsTo := c.flagsTo }
      .done { c with s := s.setCore c.core { k with engine := k.engine ++ [op] }, blk := c.blk.tagIssue tag.toNat } id

def execDrain (h : Hdr) (dst : DrainDst) (w2 : Bool) (md : Rm) (fz : Bool) (amx : Option (Level × BitVec 8)) (hn acc : BitVec 8)
    (b : BitVec 10) (tag : BitVec 8) (s : State) : Host.Outcome State Fault Refusal :=
  let banks := 1 + w2.toNat
  issue h (drainInfo dst hn acc b banks tag (amx.elim [] fun a => [rdS a.2 1]) drainClass (amx.map (·.1)) s)
    (onPath 2 (drainBody (.drain h dst w2 md fz amx hn acc b tag) dst hn acc b banks tag
      fun c l => amx.elim 0 fun a => c.scl a.2 l)) s

def execPdrain (h : Hdr) (dst : DrainDst) (sn hn acc : BitVec 8) (b : BitVec 10) (tag : BitVec 8) (s : State) :
    Host.Outcome State Fault Refusal :=
  issue h (drainInfo dst hn acc b 2 tag [rdS sn 1] pdrainClass none s)
    (onPath 2 (drainBody (.pdrain h dst sn hn acc b tag) dst hn acc b 2 tag fun c l => c.scl sn l)) s

/-! ### Execution in the engine (R133, R134, R139, R274, R279) -/

/-- The head of a core's engine queue leaves it; the waves of the core's blocks that wait try again. -/
def State.popEngine (s : State) (core : Nat) : State :=
  let k := s.core core
  let s := s.setCore core { k with engine := k.engine.drop 1 }
  { s with blocks := s.blocks.map fun b => if b.place == .resident && b.core == core then b.wake else b }

/-- MMA: banks b (and b + 1) become R110 of the tiles and their old words. -/
def mmaTile (ea eb : TEntry) (a b : List Nat) (cols : Nat) (old : Nat → Nat → Word) : List (List (Nat × Flags)) :=
  let xa := expandRows ea a 32
  let xb := expandRows eb b cols
  let n := tileK (entWidth ea) / 16
  xa.zipIdx.map fun r => xb.zipIdx.map fun q => sumGroups n (r.1.zip q.1) ((old r.2 q.2).toNat, 0)

/-- The number of a PMMA sum's word in its bank. -/
def sumWord (i j : Nat) : Nat := 16 * i + 2 * j

def Core.sum (k : Core) (bank i j : Nat) : DWord := k.read bank (sumWord i j + 1) ++ k.read bank (sumWord i j)

/-- PMMA: what row i of A and row 8N + j of B add (R123, R134). -/
def pmmaSum (w : Nat) (conj : Bool) (a b : Nat) : Int × Int :=
  (List.range (tileK w)).foldl (fun (s : Int × Int) k =>
    let x := a / 2 ^ (w * k) % 2 ^ w
    let y := b / 2 ^ (w * k) % 2 ^ w
    let (c, d, _) := contribute w (pmul w x (if conj then pconj w y else y))
    (s.1 + c, s.2 + d)) (0, 0)

/-- The operand tiles of an operation, read on the matrix path, and whether an error was met in the planes of all rows of A or of rows lo
to hi − 1 of B (R125). -/
def State.readOperands (s : State) (core : Nat) (op : EngOp) (lo hi : Nat) : State × List Nat × List Nat × Bool :=
  let me := some op.wave
  let one (s : State) (seg : Nat) (e : TEntry) (lo hi : Nat) : State × List Nat × Bool :=
    let w := entWidth e
    let (s, tile, bad) := s.readTile 2 me core seg 6 (entSwz e) (tileUses (entPl e) w lo hi)
    let (s, area, bad2) := if entScm e == 1 then s.readTile 2 me core (seg + 6) (scaleSegs w) 0 (scaleUses w lo hi) else (s, 0, false)
    let nb := scaleBlocks w
    (s, (List.range 32).map fun i =>
      ((List.range (tileK w)).foldr (fun el acc => tileElem (entPl e) w tile i el + 2 ^ w * acc) 0) +
        area / 2 ^ (8 * nb * i) % 2 ^ (8 * nb) * 2 ^ 1536, bad || bad2)
  let (s, a, b1) := one s op.segA op.entryA 0 32
  let (s, b, b2) := one s op.segB op.entryB lo hi
  (s, a, b, b1 || b2)

/-- The first physical bank an operation names. -/
def State.bankOf (s : State) (w : WaveRef) (acc first : Nat) : Nat := (s.cxOf w).elim 0 fun c => c.bankAt acc + first

/-- MMA_EXECUTE: the MMA or PMMA at the head of the engine queue runs. -/
def execMmaExecute (core : Nat) (s : State) : Host.Outcome State Fault Refusal :=
  match (s.core core).engine.head? with
  | none => .next s
  | some op =>
    match op.op with
    | .mma _ w2 o =>
      let n := 1 + w2.toNat
      let first := s.bankOf op.wave o.acc.toNat o.bank.toNat
      let (s, a, b, bad) := s.readOperands core op 0 (16 * n)
      let k := s.core core
      if bad || k.badBank first n then .next ((s.uceWave op.wave (if bad then 2 else 3) op.pc).popEngine core)
      else
        let tile := mmaTile op.entryA op.entryB a b (16 * n) fun i j => k.read (first + j / 16) (16 * i + j % 16)
        let fl := tile.foldl (fun f r => r.foldl (fun f x => f ||| x.2) f) (0 : Flags)
        let fl := if anyNsc op.entryA a 32 || anyNsc op.entryB b (16 * n) then fl ||| fNSC else fl
        let word (bank w : Nat) : Word := BitVec.ofNat 32 ((tile.getD (w / 16) []).getD (16 * bank + w % 16) (0, 0)).1
        let k' := (List.range n).foldl (fun k i => k.fill (first + i) (word i)) k
        .next (((s.setCore core k').report op.wave fl (k.unalloc first n) op.flagsTo).popEngine core)
    | .pmma _ qn conj o =>
      let first := s.bankOf op.wave o.acc.toNat o.bank.toNat
      let (s, a, b, bad) := s.readOperands core op (8 * qn.toNat) (8 * qn.toNat + 8)
      let k := s.core core
      if bad || k.badBank first 2 then .next ((s.uceWave op.wave (if bad then 2 else 3) op.pc).popEngine core)
      else
        let w := entWidth op.entryA
        let sums := a.map fun ra => (List.range 8).map fun j => pmmaSum w conj ra (b.getD (8 * qn.toNat + j) 0)
        let new (bank : Nat) (pick : Int × Int → Int) (i : Nat) : Word :=
          let row := i / 16
          let j := i % 16 / 2
          let x := k.sum bank row j + BitVec.ofInt 64 (pick ((sums.getD row []).getD j (0, 0)))
          if i % 2 == 0 then x.extractLsb' 0 32 else x.extractLsb' 32 32
        let k' := (k.fill first (new first (·.1))).fill (first + 1) (new (first + 1) (·.2))
        .next (((s.setCore core k').report op.wave 0 (k.unalloc first 2) op.flagsTo).popEngine core)
    | _ => .next s

/-- A drain's job: it runs to its end or to its first fault, and completes where nothing is left (R279). -/
def State.runJob (s : State) (id : Nat) : Nat → State
  | 0 => s.finishJob id
  | n + 1 =>
    match s.job? id with
    | none => s
    | some j => if j.stop.isSome || j.total ≤ j.row then s.finishJob id else (s.transfer id).runJob id n

/-- The drain of one operation: rows of element codes, its flags and its amax. -/
def State.startDrain (s : State) (core : Nat) (op : EngOp) (c : Cx) (dst : DrainDst) (hn tag : BitVec 8) (cols : Nat)
    (rows : List Nat) (fl : Flags) (amx : Option (Level × DWord × Nat)) (amax : Nat) : State :=
  let e := op.entryA
  let w := entWidth e
  let base : Job :=
    { id := op.id, wave := some op.wave, cmd := none, ctx := c.ctx.num, tenant := c.ctx.tenant, pc := op.pc, core := core,
      pipe := op.pipe, tag := tag.toNat, kind := .drain .d e hn.toNat op.origin cols fl amx amax, row := 0,
      stage := [], after := [], stop := none, told := false, flagsTo := op.flagsTo }
  let (s, j) := match dst with
    | .mem lvl _ => (s, { base with kind := .drain lvl e hn.toNat op.origin cols fl amx amax, stage := rows })
    | .sc sym queue seg =>
      let t := c.symTag queue sym.toNat
      let tile := tileMake (tagPl t) w fun i el => if el < cols then rows.getD i 0 / 2 ^ (w * el) % 2 ^ w else 0
      ((List.range 6).foldl (fun s i => s.putWhole core (c.segAt queue sym.toNat + seg.toNat + i) (tileSeg tile i) t) s, base)
  let s := { s with jobs := s.jobs ++ [j] }
  s.runJob op.id (j.total + 1)

/-- The in-bounds elements of a drain's row: all of them in scratch. -/
def drainCols (dst : DrainDst) (e : TEntry) (origin : List DWord) (cols i : Nat) : Nat :=
  match dst with
  | .mem _ _ => rowCount e (originOf e origin) i cols
  | .sc _ _ _ => cols

/-- DRAIN_EXECUTE: the DRAIN at the head of the engine queue reads its banks, rounds and writes. -/
def execDrainExecute (core : Nat) (s : State) : Host.Outcome State Fault Refusal :=
  match (s.core core).engine.head? with
  | none => .next s
  | some op =>
    match op.op, s.cxOf op.wave with
    | .drain _ dst w2 md fz amx hn acc b tag, some c =>
      let n := 1 + w2.toNat
      let cols := 16 * n
      let first := c.bankAt acc.toNat + b.toNat
      let k := s.core core
      if k.badBank first n then .next ((s.uceWave op.wave 3 op.pc).popEngine core)
      else
        let f := entFloat op.entryA
        let w := entWidth op.entryA
        let code (i j : Nat) : Nat := (k.read (first + j / 16) (16 * i + j % 16)).toNat
        let el (i j : Nat) : Nat × Flags :=
          let x := code i j
          let v := Fmt.f32.value x
          let y := if entCls op.entryA == 2 then (x, (0 : Flags)) else let r := f.rnd md v; (r.1, r.2 ||| snan [v])
          f.flush fz y
        let all := (List.range 32).map fun i => (List.range cols).map (el i)
        let rows := all.map fun r => r.foldr (fun x acc => x.1 + 2 ^ w * acc) 0
        let seen (i : Nat) : Nat := drainCols dst op.entryA op.origin cols i
        let fl := all.foldl (fun fl r => r.foldl (fun fl x => fl ||| x.2) fl) (0 : Flags)
        let mags := (List.range 32).flatMap fun i => (List.range (seen i)).map fun j => code i j % 2 ^ 31
        let amax := (mags.filter fun x => decide (x ≤ 0x7F800000)).foldl max 0
        let s := (s.report op.wave 0 (k.unalloc first n) op.flagsTo).popEngine core
        .next (s.startDrain core op c dst hn tag cols rows fl (amx.map fun a => (a.1, op.arg, a.2.toNat)) amax)
    | _, _ => .next s

/-- PDRAIN_EXECUTE: the PDRAIN at the head of the engine queue (R137). -/
def execPdrainExecute (core : Nat) (s : State) : Host.Outcome State Fault Refusal :=
  match (s.core core).engine.head? with
  | none => .next s
  | some op =>
    match op.op, s.cxOf op.wave with
    | .pdrain _ dst _ hn acc b tag, some c =>
      let first := c.bankAt acc.toNat + b.toNat
      let k := s.core core
      if k.badBank first 2 then .next ((s.uceWave op.wave 3 op.pc).popEngine core)
      else
        let el (i j : Nat) : Nat :=
          let r := resultant 16 (k.sum first i j).toInt (k.sum (first + 1) i j).toInt (op.arg.toNat % 2 ^ 32)
          r.2 * 65536 + r.1
        let rows := (List.range 32).map fun i => (List.range 8).foldr (fun j acc => el i j + 2 ^ 32 * acc) 0
        let s := (s.report op.wave 0 (k.unalloc first 2) op.flagsTo).popEngine core
        .next (s.startDrain core op c dst hn tag 8 rows 0 none 0)
    | _, _ => .next s

end Sys2Proof.Machine
end

