-- ==== Sys2Proof/Machine/Decks.lean ====
section
/-!
DEFINITION. The deck of a block and a handler's window as bytes of local device memory (spec/04 R91, spec/17 R311): how a block's
state is written there when it leaves its core or halts, and read back. Byte masks, addresses and levels of logged lines, and the
thread sets of barriers and tricks, for which the deck has no room, stay in the state (log 19).
-/

namespace Sys2Proof.Machine

/-! ### Wave areas -/

def laneWords (f : Nat → DWord) : List Byte := wordsBytes ((List.range Config.W).map f)

/-- Lane state: 0 running, 1 held at MR, 2 exited, 3 absent. -/
def laneState (present exited held : Mask) (l : Nat) : Nat :=
  if !present.getLsbD l then 3 else if exited.getLsbD l then 2 else if held.getLsbD l then 1 else 0

/-- The PC of each lane: that of its group; a held lane stands at its meeting register. -/
def lanePc (groups : List Group) (held : Mask) (mr : List DWord) (l : Nat) : DWord :=
  match groups.find? fun g => g.lanes.getLsbD l with
  | some g => g.pc
  | none => if held.getLsbD l then mr.getD l mrNone else 0

def rowBytes (r : RegCtx) (n : Nat) : List Byte :=
  (List.range Config.W).flatMap fun l => natBytes 4 (r.word n l).toNat

def unwrittenMask (r : RegCtx) (n : Nat) : Mask := maskOf fun l => (r.lane n l).isNone

/-- The bytes of a wave area (R91) from its offset 0, up to the end of the unwritten tags; reserved bytes are zero. -/
def areaBytes (nv : Nat) (present exited held : Mask) (groups : List Group) (mr : List DWord) (r : RegCtx) : List Byte :=
  laneWords (lanePc groups held mr) ++
  laneWords (fun l => mr.getD l mrNone) ++
  wordsBytes ((List.range 256).map r.scalar) ++
  ((List.range 7).flatMap fun n => natBytes 16 (r.pred n).toNat) ++ List.replicate 16 0 ++
  ((List.range Config.W).map fun l => BitVec.ofNat 8 (laneState present exited held l)) ++ List.replicate 3840 0 ++
  ((List.range nv).flatMap (rowBytes r)) ++
  ((List.range nv).flatMap fun n => natBytes 16 (unwrittenMask r n).toNat)

/-- A row of virtual register n as an area holds it. -/
def areaRow (m : List Host.Cell) (a nv n : Nat) : Row :=
  let tags := memNat m (a + 0x2000 + nv * 512 + 16 * n) 16
  (List.range Config.W).map fun l =>
    if tags / 2 ^ l % 2 == 1 then none else some (BitVec.ofNat 32 (memNat m (a + 0x2000 + 512 * n + 4 * l) 4))

/-- The registers that an area holds; sr.fstat stands elsewhere. -/
def areaRegs (m : List Host.Cell) (a nv : Nat) (old : RegCtx) : RegCtx :=
  { old with vregs := (List.range nv).map (areaRow m a nv),
             scalars := (List.range 256).map fun i => mem64 m (a + 0x800 + 8 * i),
             preds := (List.range 7).map fun n => BitVec.ofNat 128 (memNat m (a + 0x1000 + 16 * n) 16) }

def areaPc (m : List Host.Cell) (a l : Nat) : DWord := mem64 m (a + 8 * l)

def areaMr (m : List Host.Cell) (a : Nat) : List DWord := (List.range Config.W).map fun l => mem64 m (a + 0x400 + 8 * l)

def areaState (m : List Host.Cell) (a st : Nat) : Mask := maskOf fun l => (memRead m (a + 0x1080 + l)).toNat == st

/-- The lanes of a mask cut into groups by their PC. -/
def cutByPc (pc : Nat → DWord) (last : Nat) : List Nat → List Group → List Group
  | [], gs => gs
  | l :: ls, gs =>
    cutByPc pc last ls
      (if gs.any (fun g => g.pc == pc l) then gs.map fun g => if g.pc == pc l then { g with lanes := g.lanes ||| laneBit l } else g
       else gs ++ [{ lanes := laneBit l, pc := pc l, last := last }])

/-- Groups after a deck is read back: each keeps its running lanes, cut apart where their PCs differ now; running lanes of no group
form groups by PC. -/
def regroup (old : List Group) (pc : Nat → DWord) (running : Mask) : List Group :=
  let kept := old.flatMap fun g => cutByPc pc g.last (lanesOf (g.lanes &&& running)) []
  let seen := old.foldl (fun (m : Mask) g => m ||| g.lanes) 0
  kept ++ cutByPc pc 0 (lanesOf (running &&& ~~~seen)) []

/-! ### A wave and its window -/

def saveAreaAt (b : Block) (nv : Nat) : Nat := b.deck + 4096 + b.waves.length * waveStride nv

/-- The area of a wave in the deck: what its handler interrupted, where it runs one. -/
def Wave.deckArea (w : Wave) (nv : Nat) : List Byte :=
  match w.frame with
  | none => areaBytes nv w.present w.exited w.held w.groups w.mr w.regs
  | some f =>
    areaBytes nv w.present w.exited f.held ({ lanes := f.trap.mask, pc := f.trap.pc, last := 0 } :: f.groups) f.mr f.regs

/-- A window whole: the frame page, then the handler's own area. -/
def Wave.windowBytes (w : Wave) (f : Frame) : List Byte :=
  framePage f w.regs ++ areaBytes w.regs.nv (f.trap.mask &&& w.present) w.exited w.held w.groups w.mr w.regs

/-- A wave as its deck area, and its window, hold it. -/
def Wave.fromDeck (w : Wave) (m : List Host.Cell) (a nv : Nat) : Wave :=
  let exited := areaState m a 2 &&& w.present
  let running := areaState m a 0 &&& w.present
  let held := areaState m a 1 &&& w.present
  match w.frame with
  | none =>
    let w := { w with regs := areaRegs m a nv w.regs, exited := exited, held := held, mr := areaMr m a,
                      groups := regroup w.groups (areaPc m a) running }
    w.meet
  | some f =>
    let f := { f with regs := areaRegs m a nv f.regs, held := held &&& ~~~f.trap.mask, mr := areaMr m a,
                      groups := regroup f.groups (areaPc m a) (running &&& ~~~f.trap.mask) }
    let x := f.window + 4096
    let lanes := f.trap.mask &&& w.present
    { w with frame := some f, exited := exited, regs := areaRegs m x w.regs.nv w.regs,
             held := areaState m x 1 &&& lanes, mr := areaMr m x,
             groups := regroup w.groups (areaPc m x) (areaState m x 0 &&& lanes) }

/-! ### The save area -/

def Core.bankBytes (k : Core) (n : Nat) : List Byte := (List.range 512).flatMap fun i => natBytes 4 ((k.bank n).words.getD i 0).toNat

/-- The places of a reservation in symbol order: those of the bound symbols of some kinds, then the others. -/
def Block.symOrder (b : Block) (k : Kernel) (kinds : List Nat) (total : Nat) : List Nat :=
  let bound := k.syms.filter fun r => kinds.contains r.kind && b.bound.contains (r.kind, r.num)
  ((bound.flatMap fun r => (List.range r.count).map (r.place + ·)) ++ List.range total).eraseDups.filter fun i => decide (i < total)

def State.segOrder (s : State) (b : Block) : List Nat :=
  (((s.launch? b.lid).bind fun l => s.kernel? l.hdr.entry).map fun k => b.symOrder k [kBuffer, kQueue] b.segCount).getD (List.range b.segCount)

def State.bankOrder (s : State) (b : Block) : List Nat :=
  (((s.launch? b.lid).bind fun l => s.kernel? l.hdr.entry).map fun k => b.symOrder k [kAcc] b.bankCount).getD (List.range b.bankCount)

/-- Scratch segments, then banks, of the block's reservation in the given order, then a byte for each segment's tag and each bank's
allocation bit and owner (log 19). -/
def saveBytes (k : Core) (b : Block) (segs banks : List Nat) : List Byte :=
  (segs.flatMap fun i => natBytes 1024 (k.seg (b.segBase + i)).data) ++
  (banks.flatMap fun i => k.bankBytes (b.bankBase + i)) ++
  (segs.map fun i => (k.seg (b.segBase + i)).tag.setWidth 8) ++
  (banks.map fun i => let x := k.bank (b.bankBase + i); BitVec.ofNat 8 (x.alloc.toNat + 16 * x.owner))

/-- The reservation as a save area holds it. -/
def Core.fromSave (k : Core) (b : Block) (segs banks : List Nat) (m : List Host.Cell) (a : Nat) : Core :=
  let a2 := a + 1024 * b.segCount
  let t := a2 + 2048 * b.bankCount
  let k := segs.zipIdx.foldl (fun (k : Core) p =>
    let i := p.2
    k.setSeg (b.segBase + p.1) { data := memNat m (a + 1024 * i) 1024, tag := (memRead m (t + i)).extractLsb' 0 4 }) k
  let k := banks.zipIdx.foldl (fun (k : Core) p =>
    let i := p.2
    let x := (memRead m (t + b.segCount + i)).toNat
    k.setBank (b.bankBase + p.1)
      { alloc := x % 2 == 1, owner := x / 16, words := (List.range 512).map fun j => BitVec.ofNat 32 (memNat m (a2 + 2048 * i + 4 * j) 4) }) k
  { k with badScratch := k.badScratch.filter fun w => !(decide (b.segBase ≤ w / 128) && decide (w / 128 < b.segBase + b.segCount)),
           badAcc := k.badAcc.filter fun w => !(decide (b.bankBase ≤ w / 512) && decide (w / 512 < b.bankBase + b.bankCount)) }

/-! ### Shadow logs (spec/08 R141) -/

/-- Where line `slot` of a wave's shadow log stands. -/
def logLineAt (b : Block) (nv wave slot : Nat) : Nat := deckAreaAt b nv wave + waveStride nv - 65536 + 64 * slot

/-- The lines of every level that stand in a block's shadow logs. -/
def State.logLinesOf (s : State) (b : Block) : List BufLine :=
  (b.buf ++ b.waves.flatMap (·.buf) ++ (s.gangOf? b).elim [] (·.buf)).filter fun x => !x.saved && x.log.elim false fun p => p.1 == b.rank

def State.writeLogs (s : State) (b : Block) (nv : Nat) : State :=
  (s.logLinesOf b).foldl (fun s x => match x.log with
    | some (_, wave) => s.devPut (logLineAt b nv wave x.slot) (lineBytes x.data)
    | none => s) s

/-- The bytes of a block's logged lines as its deck holds them. -/
def BufLine.fromLog (x : BufLine) (m : List Host.Cell) (b : Block) (nv : Nat) : BufLine :=
  match x.log with
  | some (rank, wave) => if rank == b.rank && !x.saved then { x with data := memLine m (logLineAt b nv wave x.slot) } else x
  | none => x

/-! ### The header read back -/

/-- Records of a header, up to the first empty one. -/
def headRecords : Nat → List Byte → List (Nat × List Byte)
  | 0, _ => []
  | fuel + 1, bs =>
    let h := bytesNat (bs.take 8)
    let n := h / 2 ^ 32 % 2 ^ 32
    if h == 0 then [] else (h % 2 ^ 16, (bs.drop 8).take n) :: headRecords fuel (bs.drop (8 + n))

/-- A record's values in a bound barrier, queue, trick or tag. -/
def Block.fromRecord (b : Block) (r : Nat × List Byte) : Block :=
  let w (i : Nat) : Nat := bytesNat ((r.2.drop (2 * i)).take 2)
  match r.1 with
  | 1 => (b.bar? (w 0)).elim b fun k => b.setBar { k with p := BitVec.ofNat 16 (w 2), e := w 3, a := w 4, q := w 5 }
  | 2 => (b.queue? (w 0)).elim b fun q =>
      b.setQueue { q with g := w 2, ring := (List.range (w 3)).map fun i => BitVec.ofNat 64 (bytesNat ((r.2.drop (8 + 8 * i)).take 8)),
                          pushes := q.pushes.take (w 3) }
  | 3 => (b.trick? (w 0)).elim b fun t => b.setTrick { t with count := w 2 }
  | 4 => (b.tag? (w 0)).elim b fun t => b.setTag { t with ready := w 2 != 0, count := w 3 }
  | _ => b

def Block.fromHeader (b : Block) (bs : List Byte) : Block := (headRecords 512 bs).foldl Block.fromRecord b

/-! ### Decks whole -/

/-- Words of a block's reservation, or of its dirty registers, that a save meets with a double-bit error: the cause (spec/17 R319). -/
def Core.saveWorn (k : Core) (b : Block) : Option Nat :=
  if k.badScratch.any (fun w => decide (b.segBase ≤ w / 128) && decide (w / 128 < b.segBase + b.segCount)) ||
     k.regCache.any (fun x => x.lid == b.lid && x.rank == b.rank && x.dirty && x.bad != 0) then some 2
  else if k.badBank b.bankBase b.bankCount then some 3
  else none

/-- An uncorrectable error that a block meets outside an instruction is its first wave's. -/
def State.uceBlock (s : State) (b : Block) (cause : Option Nat) : State :=
  match cause with
  | some n => s.uceWave { lid := b.lid, rank := b.rank, wave := 0 } n 0
  | none => s

/-- The lines of a block's deck and windows leave the column cache: what they hold is written whole, or is no more (spec/02 R43). -/
def State.dropDecks (s : State) (b : Block) : State :=
  { s with deckLines := s.deckLines.filter fun x => !(x.lid == b.lid && x.rank == b.rank) }

/-- Write a block's deck and its waves' windows (R91, R311). -/
def State.writeDeck (s : State) (b : Block) (nv : Nat) : State :=
  let s := s.dropDecks b
  let s := b.waves.zipIdx.foldl (fun (s : State) w =>
    let s := s.devPut (deckAreaAt b nv w.2) (w.1.deckArea nv)
    match w.1.frame with
    | some f => s.devPut f.window (w.1.windowBytes f)
    | none => s) s
  let s := (s.writeHeader b).writeLogs b nv
  let s := s.devPut (saveAreaAt b nv) (saveBytes (s.core b.core) b (s.segOrder b) (s.bankOrder b))
  s.uceBlock b ((s.core b.core).saveWorn b)

/-- A line of a block's deck, or of a window of its waves, is poisoned. -/
def State.deckSick (s : State) (b : Block) : Bool :=
  s.poisonIn b.deck b.deckSize || b.waves.any fun w => w.frame.elim false fun f => s.poisonIn f.window (windowSize w.regs.nv)

/-- Read a block back from its deck, its reservation onto its core; a poisoned line of it is an uncorrectable error of its
first wave (R319). -/
def State.loadDeck (s : State) (b : Block) (nv : Nat) : State :=
  let b := { b with waves := b.waves.zipIdx.map fun w => w.1.fromDeck s.mem (deckAreaAt b nv w.2) nv }
  let s := s.setCore b.core ((s.core b.core).fromSave b (s.segOrder b) (s.bankOrder b) s.mem (saveAreaAt b nv))
  (s.setBlock b).uceBlock b (if s.deckSick b then some 1 else none)

/-- DEBUGWRITE of some bytes of a halted block's deck (spec/17 R318): what its header and logs hold now is what the block holds. -/
def State.writeDeckBytes (s : State) (b : Block) (nv at_ : Nat) (bs : List Byte) : State :=
  let s := ((s.writeHeader b).writeLogs b nv).devPut (b.deck + at_) bs
  let line (x : BufLine) : BufLine := x.fromLog s.mem b nv
  let b := { (b.fromHeader (memBytes s.mem b.deck 4096)) with
    buf := b.buf.map line, waves := b.waves.map fun w => { w with buf := w.buf.map line } }
  let s := match s.gangOf? b with
    | some g => s.setGang { g with buf := g.buf.map line }
    | none => s
  s.setBlock b

end Sys2Proof.Machine
end

