-- ==== Sys2Proof/Machine/Sync.lean ====
section
/-!
DEFINITION. Barriers, queues and graph edges (spec/14 R257 to R269).
-/

namespace Sys2Proof.Machine

/-! ### Barriers (R257 to R261) -/

/-- The number of the barrier site that an instruction of the kernel is, if it is one (R81, R83). -/
def Cx.site (c : Cx) : Option Nat :=
  (c.krn.sites.findIdx? fun x => x.index == c.krn.indexOf c.g.pc).map (· + 1)

def barInfo (ops : List Opd) (sym : BitVec 8) : Info := { len := 16, uni := true, ops := ops, syms := [(kBarrier, sym.toNat, 0, 0)] }

/-- The threads of the active lanes. -/
def Cx.threads (c : Cx) (act : Mask) : ThreadSet := threadsOf c.sel.ref.wave act

/-- Whether an arrival stops (a thread that has dropped: BARSTATE, R259) or waits (a thread that has arrived already). -/
def Cx.arrival (c : Cx) (sym : Nat) (act : Mask) (wait : Wait) (k : BarState → ThreadSet → Res) : Res :=
  match c.blk.bar? sym with
  | none => .done c id
  | some b =>
    let t := c.threads act
    let gone := maskOf fun l => act.getLsbD l && (b.dropped &&& threadBit c.sel.ref.wave l) != 0
    if gone != 0 then .trap c.s (laneTrap tIllop 0x0D 0 gone)
    else if b.arrived &&& t != 0 then .wait c.s wait
    else k b t

/-- The wave arrives: its scratch writes so far are before the arrival (spec/09 R166). -/
def Cx.arriving (c : Cx) (sym : Nat) : Cx := { c with s := c.s.stbArrived c.ref sym }

/-- The wave's wait for a phase of a barrier that has completed already. -/
def Cx.passed (c : Cx) (sym : Nat) : Cx := { c with s := c.s.waitPassed c.blk c.sel.ref.wave sym }

/-- The wave waits on a barrier's phase: the wait is set before the phase is tested, so that a stop finds it (R303). -/
def Cx.awaitBar (c : Cx) (sym : Nat) (token : BitVec 16) : Cx := c.setWv { c.wv with wait := some (.barw sym token) }

def execBarv (h : Hdr) (d sym : BitVec 8) (s : State) : Host.Outcome State Fault Refusal :=
  issue h (barInfo [wrS d 1] sym) (fun c act =>
    c.arrival sym.toNat act .retry fun b t =>
      .done ((c.arriving sym.toNat).barSettle (b.arrive t (laneCount act) c.site)) fun r => r.setScalar d.toNat (b.p.setWidth 64)) s

def execBard (h : Hdr) (sym : BitVec 8) (s : State) : Host.Outcome State Fault Refusal :=
  issue h (barInfo [] sym) (fun c act =>
    c.arrival sym.toNat act .retry fun b t => .done ((c.arriving sym.toNat).barSettle (b.drop t (laneCount act) c.site)) id) s

def execBarw (h : Hdr) (sym : BitVec 8) (s : State) : Host.Outcome State Fault Refusal :=
  issue h (barInfo [] sym) (fun c act =>
    c.arrival sym.toNat act .phase fun b t =>
      .done (((c.arriving sym.toNat).awaitBar sym.toNat b.p).barSettle (b.arrive t (laneCount act) c.site)) id) s

/-- BARS waits on the token in a scalar's low 16 bits (R260). -/
def execBars (h : Hdr) (sym a : BitVec 8) (s : State) : Host.Outcome State Fault Refusal :=
  issue h (barInfo [rdS a 1] sym) (fun c act =>
    match c.blk.bar? sym.toNat with
    | none => .done c id
    | some b =>
      let token := (c.scl a (lowestLane act)).setWidth 16
      if waitOver b.p token then .done (c.passed sym.toNat) id else .done (c.awaitBar sym.toNat token) id) s

/-! ### Queues (R262 to R265) -/

def queueInfo (ops : List Opd) (sym : BitVec 8) : Info := { len := 16, uni := true, ops := ops, syms := [(kQueue, sym.toNat, 0, 0)] }

/-- The declared depth of a queue. -/
def Cx.depth (c : Cx) (sym : Nat) : Nat := (c.krn.sym? kQueue sym).elim 0 (·.depth)

/-- A queue's new state; the waves that wait try again. -/
def Cx.putQueue (c : Cx) (q : QueueState) : Cx := { c with blk := (c.blk.setQueue q).wake }

/-- The entry at a queue's head is taken: the wave sees what the pushing wave had written into the queue's segments before its QPUSH
(R265). -/
def Cx.takeEntry (c : Cx) (q : QueueState) : Cx :=
  let c := match q.pushes.head? with
    | none => c
    | some (wave, at_) =>
      let first := c.core * 1536 + c.segAt true q.sym
      let mine (u : Unsettled) : Bool := u.inBlock c.blk && u.wave.wave == wave && decide (u.id ≤ at_) &&
        decide (first ≤ u.loc / 16) && decide (u.loc / 16 < first + c.segCount true q.sym)
      let see (u : Unsettled) : Unsettled := if mine u then { u with seenBy := c.sel.ref.wave :: u.seenBy } else u
      { c with s := { c.s with unsettled := c.s.unsettled.map see } }
  c.putQueue { q with ring := q.ring.drop 1, pushes := q.pushes.drop 1 }

/-- A queue instruction on its bound queue. -/
def Cx.onQueue (c : Cx) (sym : Nat) (k : QueueState → Res) : Res := (c.blk.queue? sym).elim (.done c id) k

def execQpush (h : Hdr) (sym a : BitVec 8) (s : State) : Host.Outcome State Fault Refusal :=
  issue h (queueInfo [rdS a 1] sym) (fun c act => c.onQueue sym.toNat fun q =>
    if q.g == 0 then .wait c.s .retry
    else
      let c := { c with s := c.s.tick }
      .done (c.putQueue { q with g := q.g - 1, ring := q.ring ++ [c.scl a (lowestLane act)],
                                 pushes := q.pushes ++ [(c.sel.ref.wave, c.s.stamp)] }) id) s

def execQpop (h : Hdr) (d sym : BitVec 8) (s : State) : Host.Outcome State Fault Refusal :=
  issue h (queueInfo [wrS d 1] sym) (fun c _ => c.onQueue sym.toNat fun q =>
    match q.ring with
    | [] => .wait c.s .retry
    | x :: _ => .done (c.takeEntry q) fun r => r.setScalar d.toNat x) s

def execQtry (h : Hdr) (d sym : BitVec 8) (s : State) : Host.Outcome State Fault Refusal :=
  issue h { queueInfo [wrS d 2] sym with badReg := d == 255 } (fun c _ => c.onQueue sym.toNat fun q =>
    match q.ring with
    | [] => .done c fun r => (r.setScalar d.toNat 0).setScalar (d.toNat + 1) 1
    | x :: _ => .done (c.takeEntry q) fun r => (r.setScalar d.toNat x).setScalar (d.toNat + 1) 0) s

/-- The matrix operations of the core's engine queue. -/
def Cx.matrixOps (c : Cx) : List Nat :=
  ((c.s.core c.core).engine.filter fun o => match o.op with
    | .mma .. | .pmma .. => true
    | _ => false).map (·.id)

/-- Those that a QGRANT waits for: the ones that stood there when it issued (R265). -/
def Cx.grantOps (c : Cx) : List Nat :=
  match c.wv.grant with
  | some g => if g.pc == c.g.pc then g.ops.filter c.s.underway else c.matrixOps
  | none => c.matrixOps

/-- QGRANT waits until the matrix operations that stood in the engine queue as it issued have read (R265); QOVER is tested then. -/
def execQgrant (h : Hdr) (sym : BitVec 8) (n : BitVec 5) (s : State) : Host.Outcome State Fault Refusal :=
  issue h (queueInfo [] sym) (fun c act => c.onQueue sym.toNat fun q =>
    if !c.grantOps.isEmpty then
      let g : Grant := { pc := c.g.pc, ops := c.grantOps, op := .qgrant h sym n, inst := c.sel.inst }
      .stay (c.setWv { c.wv with wait := some .retry, waiter := c.g.lanes, grant := some g })
    else if c.depth sym.toNat < q.g + n.toNat + q.ring.length then .trap c.s (laneTrap tIllop 0x0E 0 act)
    else .done ((c.setWv { c.wv with grant := none }).putQueue { q with g := q.g + n.toNat }) id) s

/-! ### Graph edges (R267 to R269) -/

/-- An edge descriptor's fields. -/
structure Edge where
  slots : DWord
  cap : Nat
  free : Nat
  pushed : DWord
  popped : DWord
  deriving DecidableEq, Repr

def lineWord (d : LineData) (i : Nat) : DWord := d.extractLsb' (64 * i) 64

/-- The descriptor of a line, none where it breaks R269. Slots that are not aligned to 8 bytes break it too (log 26). -/
def edgeOf (d : LineData) : Option Edge :=
  let w := lineWord d
  let e : Edge := { slots := w 0, cap := (w 1).toNat % 2 ^ 24, free := (w 2).toNat % 2 ^ 32, pushed := w 3, popped := w 4 }
  if w 1 >>> 24 == 0 && w 2 >>> 32 == 0 && w 5 == 0 && w 6 == 0 && w 7 == 0 && e.cap != 0 && e.free ≤ e.cap &&
     e.slots.toNat % 8 == 0 then some e
  else none

/-- Read a line for an edge operation: RD and W are needed (R269). -/
def Cx.edgeLine (c : Cx) (p : DWord) (act : Mask) (k : Cx → LineData → Res) : Res :=
  match c.s.readD c.ctx (lineNo p) .atomic false with
  | (s, .fail cause pa) => .trap s (memTrap cause p pa act 0xFFF)
  | (s, .away l) => Cx.awaitLine { c with s := s } l true
  | (s, .ok d poisoned) => if poisoned then .trap s (uceTrap 1 act) else k { c with s := s } d

/-- A descriptor that satisfies R269. -/
def Cx.edge (c : Cx) (p : DWord) (act : Mask) (k : Cx → Edge → Res) : Res :=
  if p.toNat % 64 != 0 then .trap c.s (memTrap cBadEdge p 0 act 0xFFF)
  else c.edgeLine p act fun c d =>
    match edgeOf d with
    | some e => k c e
    | none => .trap c.s (memTrap cBadEdge p ((c.s.physOf c.ctx (lineNo p)).getD 0) act 0xFFF)

/-- Write double words of a line at D, settled, as an atomic of this core does (R269, R160). -/
def Cx.edgeWrite (c : Cx) (p : DWord) (ws : List (Nat × DWord)) : Cx :=
  let mask := ws.foldl (fun (m : ByteMask) w => m ||| ((0xFF : ByteMask) <<< (8 * w.1))) 0
  let data := ws.foldl (fun (d : LineData) w => d ||| ((w.2.setWidth 512 : LineData) <<< (64 * w.1 : Nat))) (0 : LineData)
  let c := (c.writeAt .d (c.writer .d false) (lineNo p) mask data).1
  { c with s := (c.s.noReplay c.lch.lid).dropL1 [c.core] c.ctx.tenant c.ctx.asid (lineNo p) }

def Edge.slot (e : Edge) (n : DWord) : DWord := ptrAdd e.slots ((8 * (n.toNat % e.cap) : Nat))

/-- An EPOP on a descriptor: FREE is read again for the launches that it holds (R301). -/
def State.freeReadAgain (s : State) (c : Ctx) (p : DWord) : State :=
  { s with launches := s.launches.map fun l =>
      match s.ctx? l.src.fn l.ctx with
      | some d => if s.placeOf d (lineNo l.hdr.outEdge) == s.placeOf c (lineNo p) then { l with held := false } else l
      | none => l }

def Cx.freeReadAgain (c : Cx) (p : DWord) : Cx := { c with s := c.s.freeReadAgain c.ctx p }

def execEpush (h : Hdr) (d a b : BitVec 8) (disp : BitVec 32) (s : State) : Host.Outcome State Fault Refusal :=
  issue h { len := 12, uni := true, ops := [rdS a 1, rdS b 1, wrS d 1] } (onPath 0 fun c act =>
    let l := lowestLane act
    let p := ptrAdd (c.scl a l) disp.toInt
    c.edge p act fun c e =>
      if e.free == 0 then .done c fun r => r.setScalar d.toNat 1
      else
        let q := e.slot e.pushed
        c.edgeLine q act fun c _ =>
          let c := c.edgeWrite q [(lineOff q / 8, c.scl b l)]
          .done (c.edgeWrite p [(2, BitVec.ofNat 64 (e.free - 1)), (3, e.pushed + 1)]) fun r => r.setScalar d.toNat 0) s

def execEpop (h : Hdr) (d a : BitVec 8) (disp : BitVec 32) (s : State) : Host.Outcome State Fault Refusal :=
  issue h { len := 12, uni := true, ops := [rdS a 1, wrS d 2], badReg := d == 255 } (onPath 0 fun c act =>
    let p := ptrAdd (c.scl a (lowestLane act)) disp.toInt
    c.edge p act fun c e =>
      if e.pushed == e.popped then .done (c.freeReadAgain p) fun r => (r.setScalar d.toNat 0).setScalar (d.toNat + 1) 1
      else
        let q := e.slot e.popped
        c.edgeLine q act fun c x =>
          .done ((c.edgeWrite p [(2, BitVec.ofNat 64 (e.free + 1)), (4, e.popped + 1)]).freeReadAgain p) fun r =>
            (r.setScalar d.toNat (lineWord x (lineOff q / 8))).setScalar (d.toNat + 1) 0) s

end Sys2Proof.Machine
end

