-- ==== Sys2Proof/Machine/Residency.lean ====
section
/-!
DEFINITION. Where blocks stand: demands and room on a core (spec/04 R80, R84 to R86), placement and pipes (spec/16 R294, R295),
turns (R302), and how a block or gang leaves its core and returns (spec/04 R87 to R89, spec/08 R154, R155, spec/16 R303 to R305).
-/

namespace Sys2Proof

def Caps.add (a b : Caps) : Caps :=
  { segs := a.segs + b.segs, slots := a.slots + b.slots, tricks := a.tricks + b.tricks, tags := a.tags + b.tags,
    banks := a.banks + b.banks, waves := a.waves + b.waves }

def Caps.le (a b : Caps) : Bool :=
  decide (a.segs ≤ b.segs) && decide (a.slots ≤ b.slots) && decide (a.tricks ≤ b.tricks) && decide (a.tags ≤ b.tags) &&
  decide (a.banks ≤ b.banks) && decide (a.waves ≤ b.waves)

/-- The units of a launch, and the ranks of unit u's blocks (R294). -/
def LaunchHdr.units (h : LaunchHdr) : Nat := h.blockCount / h.gangSize

def LaunchHdr.unitRanks (h : LaunchHdr) (u : Nat) : List Nat := (List.range h.gangSize).map fun i => u * h.gangSize + i

def Caps.none : Caps := { segs := 0, slots := 0, tricks := 0, tags := 0, banks := 0, waves := 0 }

end Sys2Proof

namespace Sys2Proof.Machine

/-! ### Demands (R80, R85) -/

/-- What a block of a launch needs: the kernel's demand, as the translator computes it, with a wave slot for each wave. -/
def needOf (k : Kernel) (h : LaunchHdr) : Caps := { k.demand with waves := h.waveCount }

def State.blockNeed (s : State) (b : Block) : Caps :=
  match s.launch? b.lid with
  | none => Caps.none
  | some l => (s.kernel? l.hdr.entry).elim Caps.none fun k => needOf k l.hdr

/-- What a core has under a split S. -/
def coreCaps (split : Nat) : Caps := { segs := 128 * split, slots := 32, tricks := 16, tags := 64, banks := 1024, waves := 128 }

def State.residents (s : State) (core : Nat) : List Block := s.blocks.filter fun b => b.place == .resident && b.core == core

/-- Whether a block belongs to a launch of a context. -/
def State.ofCtx (s : State) (t n : Nat) (b : Block) : Bool := (s.launch? b.lid).elim false fun l => l.src.fn == t && l.ctx == n

/-- The caps of one core of a context's share (R84). -/
def Ctx.capsOf (c : Ctx) (core : Nat) : Caps :=
  match c.cores.findIdx? (· == core) with
  | some i => c.caps.getD i Caps.none
  | none => Caps.none

def State.use (s : State) (bs : List Block) : Caps := bs.foldl (fun u b => u.add (s.blockNeed b)) Caps.none

/-- The lowest free run of n units in a range of `total`, starting on a multiple of `al`. -/
def freeRun (n al total : Nat) (taken : List (Nat × Nat)) : Option Nat :=
  let starts := 0 :: taken.map fun r => (r.1 + r.2 + al - 1) / al * al
  minList (starts.filter fun a => decide (a + n ≤ total) && taken.all fun r => decide (a + n ≤ r.1) || decide (r.1 + r.2 ≤ a))

/-- The split the Dealer sets on an empty core: the smallest that gives the block and the share's cap, at most twelve (R46; the
Dealer's choice, log 27). -/
def splitFor (need cap : Nat) : Nat := max ((need + 127) / 128) (min 12 ((cap + 127) / 128))

/-- Reserve a demand on a core of a context's share (R85), no unit of which is being scrubbed (R56): the core after it, with the first
segment and the first bank. DESIGN CHOICE (log 27): where the Dealer changes S, the core's clean L1 lines leave it, all of them. -/
def State.seat (s : State) (c : Ctx) (need : Caps) (core : Nat) : Option (State × Nat × Nat) :=
  let here := s.residents core
  let mine := here.filter (s.ofCtx c.tenant c.num)
  let k := s.core core
  let k := if here.isEmpty then
      let sp := splitFor need.segs (c.capsOf core).segs
      if sp == k.split then k else { k with split := sp, l1 := [] }
    else k
  let run := freeRun need.segs 1 (128 * k.split) (here.map fun b => (b.segBase, b.segCount))
  let banks := freeRun need.banks 2 1024 (here.map fun b => (b.bankBase, b.bankCount))
  let cl := clusterOf core
  if c.cores.contains core && (s.tenant c.tenant).own.clusters.getLsbD cl && !s.pkg.scrubCluster.getLsbD cl &&
     (s.tenant c.tenant).own.slices &&& s.pkg.scrubSlice == 0 &&
     ((s.use mine).add need).le (c.capsOf core) && ((s.use here).add need).le (coreCaps k.split) then
    match run, banks with
    | some a, some b => some (s.setCore core k, a, b)
    | _, _ => none
  else none

/-! ### Pipes (R295) -/

def State.pipeWaves (s : State) (core pipe : Nat) : List Wave :=
  (s.residents core).flatMap fun b => b.waves.filter fun w => w.pipe == pipe && !w.retired

/-- Give a block's waves to pipes, in order; none where a pipe has no room. -/
def State.givePipes (s : State) (b : Block) (pipes : List Nat) : Option Block :=
  if pipes.length != b.waves.length then none
  else
    (b.waves.zip pipes).foldl (fun (x : Option (Block × Nat)) wp =>
      match x with
      | none => none
      | some (b, i) =>
        let mine := (b.waves.take i).filter fun w => w.pipe == wp.2 && !w.retired
        let all := mine ++ s.pipeWaves b.core wp.2
        let hand := (all.filter fun w => !w.stock).length
        if decide (4 ≤ wp.2) || decide (32 ≤ all.length) then none
        else if decide (8 ≤ hand) && decide (24 ≤ all.length - hand) then none
        else
          let w : Wave := { wp.1 with pipe := wp.2, stock := decide (8 ≤ hand), entered := s.stamp, readySince := s.stamp, yielded := false }
          some (b.setWave i w, i + 1))
      (some (b, 0)) |>.map (·.1)

/-- The pipes the scheduler gives a block: each wave to the least filled one, the waves that it has given pipes of the core already counted. -/
def State.choosePipes (s : State) (core n : Nat) (given : List Nat := []) : List Nat :=
  let start := (List.range 4).map fun p => (s.pipeWaves core p).length + (given.filter (· == p)).length
  ((List.range n).foldl (fun (x : List Nat × List Nat) _ =>
    let best := (minList x.1).getD 0
    let p := (x.1.findIdx? (· == best)).getD 0
    (x.1.set p (best + 1), x.2 ++ [p])) (start, [])).2

/-! ### New blocks (R90, R94, R292; R82, R86) -/

/-- The lanes of wave w that exist (R292). -/
def presentMask (threads w : Nat) : Mask := maskOf fun l => decide (128 * w + l < threads)

/-- A wave as its block is placed: its windows at B and G open there, those at D and S at its launch's start (spec/08 R146). -/
def newWave (l : Launch) (args : List DWord) (placed w : Nat) : Wave :=
  let m := presentMask l.hdr.threads w
  { Wave.default with
      present := m, groups := [{ lanes := m, pc := l.hdr.entry, last := 0 }], regs := RegCtx.fresh l.hdr.nv args,
      status := if l.replay then stReplay else 0, winB := placed, winG := placed, winD := l.start, winS := l.start }

/-- A block as the Dealer places it, the symbols bound whose span begins with the block (R81, R82). -/
def State.newBlock (s : State) (l : Launch) (k : Kernel) (rank core deck segBase bankBase : Nat) (args : List DWord) : Block :=
  let b : Block :=
    { lid := l.lid, rank := rank, place := .resident, core := core, waves := (List.range l.hdr.waveCount).map (newWave l args s.stamp),
      buf := [], bars := [], queues := [], tricks := [], tags := [], bound := [], barsite := 0xFFFF, deck := deck,
      deckSize := deckBytes l.hdr.nv l.hdr.waveCount k.demand.segs k.demand.banks, segBase := segBase, segCount := k.demand.segs,
      bankBase := bankBase, bankCount := k.demand.banks, stopWanted := false, moveWanted := false, window := false,
      stopped := false, stopSite := 0, faulted := false, halted := false, atBkpt := false, retiring := false }
  (k.syms.filter fun r => r.first == 0).foldl (fun b r => b.bindSym r (s.freeUnit b r.kind)) b

/-- The lines of the argument block (R90). -/
def argLines (p : DWord) : List Nat := (List.range (if lineOff p == 0 then 4 else 5)).map fun i => lineNo (ptrAdd p (64 * i : Nat))

/-- The argument block as a wave start loads it (R90): words of a line that no check lets through are free (log 28); whether a
poisoned line was read. -/
def State.readArgs (s : State) (c : Ctx) (p : DWord) : State × List DWord × Bool :=
  let (s, lines, bad) := (argLines p).foldl (fun (x : State × List LineData × Bool) line =>
    match x.1.readD c line .read true with
    | (s, .ok d poisoned) => (s, x.2.1 ++ [d], x.2.2 || poisoned)
    | (s, _) => let (d, s) := s.draw 512; (s, x.2.1 ++ [d], x.2.2)) (s, [], false)
  let all := lines.foldr (fun d n => d.toNat + 2 ^ 512 * n) 0 / 2 ^ (8 * lineOff p)
  (s, (List.range 32).map fun i => BitVec.ofNat 64 (all / 2 ^ (64 * i)), bad)

/-- Place one new block on a core (R85, R86, R88 to R90): a deck, a reservation, its waves on pipes. -/
def State.placeNew (s : State) (l : Launch) (k : Kernel) (c : Ctx) (rank core : Nat) (pipes : List Nat) : Option State :=
  let need := needOf k l.hdr
  match s.seat c need core with
  | none => none
  | some (s, a, b) =>
    match s.takePool c.tenant c.num (deckBytes l.hdr.nv l.hdr.waveCount k.demand.segs k.demand.banks) with
    | none => none
    | some (deck, s) =>
      let (s, args, bad) := s.readArgs c l.hdr.args
      let s := s.tick
      let blk := s.newBlock l k rank core deck a b args
      match s.givePipes blk pipes with
      | none => none
      | some blk =>
        let s := (s.freshUnits core a k.demand.segs false).freshUnits core b k.demand.banks true
        let s := { s with blocks := s.blocks ++ [blk] }
        some (if bad then s.uceWave { lid := l.lid, rank := rank, wave := 0 } 1 l.hdr.entry else s)

/-! ### Units: a gang, or a block alone (R294) -/

/-- The blocks that stand or leave together: a gang's that have not retired, or one block. -/
def State.unitOf (s : State) (b : Block) : List Block :=
  match s.launch? b.lid with
  | none => [b]
  | some l =>
    if l.hdr.hasGang then
      s.blocks.filter fun x => x.lid == b.lid && x.place != .retired && l.hdr.gangOf x.rank == l.hdr.gangOf b.rank
    else [b]

/-- A gang's cores lie in one cluster. -/
def oneCluster (cores : List Nat) : Bool := cores.all fun c => clusterOf c == clusterOf (cores.headD 0)

/-- The pipes of the blocks of a unit: as many for each as it has waves. -/
def cutPipes : List Nat → List Nat → List (List Nat)
  | [], _ => []
  | n :: ns, ps => ps.take n :: cutPipes ns (ps.drop n)

/-- Place the next unit of a launch: every block of it at once. -/
def State.placeUnit (s : State) (l : Launch) (k : Kernel) (c : Ctx) (cores pipes : List Nat) : Option State :=
  let ranks := l.hdr.unitRanks l.nextUnit
  let n := l.hdr.waveCount
  if cores.length != ranks.length || !oneCluster cores then none
  else
    let jobs := (ranks.zip cores).zip (cutPipes (ranks.map fun _ => n) pipes)
    let placed := jobs.foldl (fun (x : Option State) j =>
      x.bind fun s => match s.ctx? c.tenant c.num with
        | some c => s.placeNew l k c j.1.1 j.1.2 j.2
        | none => none) (some s)
    placed.map fun s =>
      let s := s.setLaunch { l with nextUnit := l.nextUnit + 1 }
      if l.hdr.hasGang then
        { s with gangs := { lid := l.lid, num := l.nextUnit, buf := [], cluster := clusterOf (cores.headD 0), saveRange := 0,
                            saveSize := 0 } :: s.gangs }
      else s

/-! ### Turns (R302) -/

def State.launchesOf (s : State) (t n : Nat) : List Launch := s.launches.filter fun l => l.src.fn == t && l.ctx == n

def State.blocksOf (s : State) (t n : Nat) : List Block := s.blocks.filter (s.ofCtx t n)

/-- A block that is off its core and may come back: served, released, and its deck whole. -/
def Block.returning (b : Block) : Bool := b.place == .away && !b.faulted && !b.halted

/-- Its whole unit may come back (R294). -/
def State.canReturn (s : State) (b : Block) : Bool := b.returning && (s.unitOf b).all (·.returning)

/-- A launch whose next unit the share could ever hold (R85). -/
def State.placeable (s : State) (l : Launch) (c : Ctx) : Bool :=
  match s.kernel? l.hdr.entry with
  | none => false
  | some k => c.cores.any fun core => (needOf k l.hdr).le (c.capsOf core)

/-- Launches of a queue, oldest first. -/
def State.queueLaunches (s : State) (fn q : Nat) : List Launch := s.launches.filter fun l => l.src.fn == fn && l.src.q == q

/-- The launch of a queue that may begin: the first one taken, where every one before it has passed its boundary (R293). -/
def State.nextLaunch (s : State) (fn q : Nat) : Option Launch :=
  match (s.queueLaunches fn q).find? fun l => l.state == .taken || l.state == .running with
  | some l => if l.state == .taken then some l else none
  | none => none

/-- A launch has something to place: it is held neither by its share (R85), nor by the launch before it (R293), nor by its edge (R301). -/
def State.toPlace (s : State) (l : Launch) (c : Ctx) : Bool :=
  s.placeable l c && !l.held &&
    ((l.state == .running && decide (l.nextUnit < l.hdr.units)) || (s.nextLaunch l.src.fn l.src.q).elim false (·.lid == l.lid))

/-- A context has work (R302): a launch with something to place, or a resident, pre-empted or returning block. -/
def State.hasWork (s : State) (c : Ctx) : Bool :=
  ((s.launchesOf c.tenant c.num).any fun l => s.toPlace l c) ||
  (s.blocksOf c.tenant c.num).any fun b => b.place == .resident || b.returning

def State.resident (s : State) (c : Ctx) : Bool := (s.blocksOf c.tenant c.num).any fun b => b.place == .resident

/-- Contexts of a tenant in ascending number, from the one after n on, n last. -/
def State.turnOrder (s : State) (t : Nat) (n : Option Nat) : List Ctx :=
  let nums := (List.range 4096).filter fun i => (s.ctx? t i).isSome
  let after := match n with
    | none => nums
    | some n => nums.filter (fun i => decide (n < i)) ++ nums.filter fun i => decide (i ≤ n)
  after.filterMap (s.ctx? t)

/-- Skip contexts without work, whose credit rises, and give the turn to the first that has some, for 1 + credit slices (R302). -/
def State.passTurn (s : State) : List Ctx → State
  | [] => s
  | c :: cs =>
    if s.hasWork c then s.setCtx { c with turn := true, spent := false, burst := 1 + c.credit, credit := 0 }
    else (s.setCtx { c with credit := min 2 (c.credit + 1) }).passTurn cs

/-- The turn in a tenant's partition moves on where its holder's burst has ended, or its work has, and none of the holder's blocks
is resident; a holder that is alone by then runs on. -/
def State.settleTurn (s : State) (t : Nat) : State :=
  match s.ctxs.find? fun c => c.tenant == t && c.turn with
  | none => if s.ctxs.any (fun c => c.tenant == t && s.hasWork c) then s.passTurn (s.turnOrder t none) else s
  | some h =>
    let others := s.ctxs.any fun c => c.tenant == t && c.num != h.num && s.hasWork c
    if (h.spent || !s.hasWork h) && !s.resident h then
      if others then (s.setCtx { h with turn := false, spent := false }).passTurn (s.turnOrder t (some h.num))
      else if h.spent then s.setCtx { h with spent := false, burst := 1 }
      else s
    else s

def State.hasTurn (s : State) (t n : Nat) : Bool := (s.ctx? t n).elim false (·.turn)

/-! ### Leaving a core (R75, R87, R304, R316) -/

/-- Run the head of a core's engine queue. -/
def State.engineStep (s : State) (core : Nat) : State :=
  let out := match (s.core core).engine.head? with
    | none => Host.Outcome.next s
    | some op => match op.op with
      | .drain .. => execDrainExecute core s
      | .pdrain .. => execPdrainExecute core s
      | _ => execMmaExecute core s
  match out with
  | .next s => s
  | _ => s

/-- What a block has issued to the engine queue completes before it leaves (R87, R139, spec/15 R289). -/
def State.finishEngine (s : State) (b : Block) : Nat → State
  | 0 => s
  | n + 1 =>
    if (s.core b.core).engine.any (fun o => o.wave.lid == b.lid && o.wave.rank == b.rank) then (s.engineStep b.core).finishEngine b n
    else s

def Job.ofBlock (j : Job) (b : Block) : Bool := j.wave.elim false fun w => w.lid == b.lid && w.rank == b.rank

def JobKind.isLoad : JobKind → Bool
  | .tileLoad .. => true
  | _ => false

/-- Pending CPYT.ld of the block complete, after the copies they follow; a CPYT.st reads its scratch source (R75). -/
def State.finishCopies (s : State) (b : Block) : State :=
  let mine : List Job := s.jobs.filter (·.ofBlock b)
  let last : Nat := (mine.filter fun j => j.kind.isLoad).foldl (fun n j => max n j.id) 0
  let s := (mine.filter fun j => decide (j.id ≤ last)).foldl (fun (s : State) j => s.runJob j.id (j.total + 1)) s
  (s.jobs.filter (·.ofBlock b)).foldl (fun s j => (s.stageStore j).1) s

/-- A copy stands still on a fault. -/
def State.stuck (s : State) (id : Nat) : Bool := (s.job? id).elim false (·.stop.isSome)

/-- A CPYT.ld that neither has completed nor stands still on a fault holds its block on the core. -/
def State.copiesHold (s : State) (b : Block) : Bool :=
  s.jobs.any fun j => j.ofBlock b && j.kind.isLoad && j.stop.isNone && !j.after.any s.stuck

/-- A FENCE whose writes have not all settled, or a commit or an atomic that a peer has not acknowledged, holds its block too (spec/14
R270); a FENCE does not where a copy of it stands still on a fault (spec/09 R164). -/
def State.fencesHold (s : State) (b : Block) : Bool :=
  b.waves.any fun w => w.wait == some .acks ||
    w.fences.any fun f => !f.jobs.any s.stuck && (f.jobs.any s.underway || f.writes.any s.unacked)

/-- Run the core's engine until some of its operations are done. -/
def State.runOps (s : State) (core : Nat) (ops : List Nat) : Nat → State
  | 0 => s
  | n + 1 => if (s.core core).engine.any (fun o => ops.contains o.id) then (s.engineStep core).runOps core ops n else s

/-- A QGRANT that a wave of the block has issued becomes effective before the hold (spec/14 R270): what it waits for runs first. -/
def State.finishGrant (s : State) (b : Block) (wave : Nat) : State :=
  let w := b.wave wave
  match w.grant, w.wait with
  | some g, some .retry =>
    let s := s.runOps b.core g.ops ((s.core b.core).engine.length)
    match g.op, s.block? b.lid b.rank, w.groups.findIdx? fun x => x.lanes == w.waiter && x.pc == g.pc with
    | .qgrant h sym n, some b, some grp =>
      let s := s.setBlock (b.setWave wave { b.wave wave with wait := none })
      match execQgrant h sym n { s with sel := some { ref := { lid := b.lid, rank := b.rank, wave := wave }, grp := grp, inst := g.inst } } with
      | .next t => { t with sel := none }
      | _ => s
    | _, _, _ => s
  | _, _ => s

def State.finishGrants (s : State) (b : Block) : State := (List.range b.waves.length).foldl (fun s n => s.finishGrant b n) s

/-- A wave at its hold: what it had issued has completed, and its blocked state goes along, to be tested again (R87, R89, spec/14
R270). -/
def Wave.hold (w : Wave) : Wave :=
  { w with pend := [], wait := match w.wait with
      | some .retry | some .phase | some (.forward _ _) | some (.link _) => none
      | some (.waitv op inst grp prio last _) => some (.waitv op inst grp prio last none)
      | x => x }

/-- The first place for a gang line whose buffer place goes: the log of its maker, then that of the lowest wave with room (R155). -/
def logFor (room : Nat × Nat → Bool) (waves : List (Nat × Nat)) (maker : Nat × Nat) : Option (Nat × Nat) :=
  (maker :: waves).find? room

/-- The waves of some blocks that have not retired, as rank and wave, in order. -/
def wavesOf (unit : List Block) : List (Nat × Nat) :=
  unit.flatMap fun b => (b.waves.zipIdx.filter fun w => !w.1.retired).map fun w => (b.rank, w.2)

/-- The lines of a block's own buffers. -/
def Block.lines (b : Block) : List BufLine := b.buf ++ b.waves.flatMap (·.buf)

/-- The lines that a wave's shadow log holds for a gang and some blocks. -/
def slotsTaken (gang : List BufLine) (unit : List Block) (p : Nat × Nat) : List Nat :=
  ((gang ++ unit.flatMap Block.lines).filter fun x => x.log == some p && !x.saved).map (·.slot)

/-- A line in a wave's log. -/
def BufLine.inLog (x : BufLine) (gang : List BufLine) (unit : List Block) (p : Nat × Nat) : BufLine :=
  { x with log := some p, saved := false, slot := freeSlot (slotsTaken gang unit p) }

/-- A line goes to the log of its maker, where that wave has not retired and its log has room, else to the first log with room. -/
def BufLine.toLog (x : BufLine) (gang : List BufLine) (unit : List Block) : Option BufLine :=
  let room (p : Nat × Nat) : Bool := (wavesOf unit).contains p && decide ((slotsTaken gang unit p).length < 1024)
  (logFor room (wavesOf unit) x.maker).map (x.inLog gang unit)

/-- Gang lines without a log go to logs, and to the save range what finds no room (R155). -/
def logGang (g : Gang) (unit : List Block) : Gang :=
  g.buf.foldl (fun (g : Gang) x =>
    if x.log.isSome || x.saved then g
    else
      let x' := (x.toLog g.buf unit).getD { x with saved := true }
      { g with buf := g.buf.map fun y => if y.line == x.line then x' else y }) g

/-- One entry of a gang save range: 64 data bytes, the line's address, ASID and region identifier, its byte mask (R155). -/
def saveEntry (asid : Nat) (x : BufLine) : List Byte :=
  lineBytes x.data ++ natBytes 8 (64 * lineVa x.line) ++ natBytes 8 (asid + 2 ^ 16 * ridOf x.line) ++ natBytes 8 x.mask.toNat ++
  List.replicate 40 0

/-- The gang lines of a unit leave its column cache; none where the deck pool has no room for the save range. -/
def State.gangLeaves (s : State) (c : Ctx) (b : Block) (unit : List Block) : Option State :=
  match s.launch? b.lid with
  | none => some s
  | some l =>
    match (if l.hdr.hasGang then s.gang? b.lid (l.hdr.gangOf b.rank) else none) with
    | none => some s
    | some g =>
      let g := logGang g unit
      let saved := g.buf.filter (·.saved)
      if saved.isEmpty then some (s.setGang g)
      else
        let n := 4096 + 128 * saved.length
        (s.takePool c.tenant c.num n).map fun (a, s) =>
          let s := (s.setGang { g with saveRange := a, saveSize := n }).devPut (a + 4096) (saved.flatMap (saveEntry c.asid))
          -- decks that are written already name the range too
          (unit.filter fun x => x.place == .away || x.halted).foldl (fun s x => s.writeHeader x) s

/-- The scratch of buffer symbols that a soft stop's site does not list reads as zeros afterwards (R303). -/
def State.forgetScratch (s : State) (b : Block) (k : Kernel) : State :=
  let site := (k.sites[b.stopSite - 1]?).elim [] (·.scratch)
  let bufs := k.syms.filter fun r => r.kind == kBuffer && b.bound.contains (kBuffer, r.num)
  let core := bufs.foldl (fun (core : Core) r =>
    (List.range r.count).foldl (fun core i =>
      if site.any fun t => t.1 == r.num && decide (t.2.1 ≤ i) && decide (i < t.2.1 + t.2.2) then core
      else core.setSeg (b.segBase + r.place + i) { data := 0, tag := 0 }) core) (s.core b.core)
  s.setCore b.core core

/-- One block leaves its core: its waves are held, its deck is written (a halted block's is whole already, R318), its units are
free. -/
def State.blockLeaves (s : State) (b : Block) (nv : Nat) : State :=
  match s.block? b.lid b.rank with
  | none => s
  | some b =>
    let b := { b with waves := b.waves.map Wave.hold, moveWanted := false, window := false, leaving := false, place := .away }
    let s := if b.halted then s.setBlock b else (s.setBlock b).writeDeck b nv
    let k := s.core b.core
    s.setCore b.core { k with regCache := k.regCache.filter fun x => !(x.lid == b.lid && x.rank == b.rank) }

/-- A unit leaves its cores; none while something its waves had issued, or the deck pool, holds it. With `soft`, blocks at a barrier stop
keep what their site lists. -/
def State.unitLeaves (s : State) (unit : List Block) (soft : Bool) : Option State :=
  match unit with
  | [] => some s
  | b0 :: _ =>
    match s.launch? b0.lid with
    | none => none
    | some l =>
      match s.ctx? l.src.fn l.ctx, s.kernel? l.hdr.entry with
      | some _, some k =>
        let here := unit.filter fun b => b.place == .resident
        let s := here.foldl (fun s b => s.finishEngine b ((s.core b.core).engine.length)) s
        let s := here.foldl (fun s b => s.finishGrants b) s
        let s := here.foldl (fun s b => s.finishCopies b) s
        if here.any fun b => s.copiesHold b || s.fencesHold b then none
        else
          let s := here.foldl (fun s b => if soft && b.stopped then s.forgetScratch b k else s) s
          match s.ctx? l.src.fn l.ctx with
          | none => none
          | some c => (s.gangLeaves c b0 unit).map fun s => here.foldl (fun s b => s.blockLeaves b l.hdr.nv) s
      | _, _ => none

/-- The unit leaves, or what holds it holds its blocks where they are until it can (R87, spec/08 R155). -/
def State.leaveOrWait (s : State) (unit : List Block) (soft : Bool) : State :=
  match s.unitLeaves unit soft with
  | some t => t
  | none =>
    unit.foldl (fun s b => match s.block? b.lid b.rank with
      | some b => if b.place == .resident then s.setBlock { b with leaving := true } else s
      | none => s) s

/-! ### Returning (R294, R305, R155) -/

/-- Replace a line in a block's buffer or in one of its waves' buffers. -/
def Block.putLine (b : Block) (x : BufLine) : Option Nat → Block
  | none => { b with buf := b.buf.map fun y => if y.line == x.line then x else y }
  | some n => b.setWave n { b.wave n with buf := (b.wave n).buf.map fun y => if y.line == x.line then x else y }

/-- The lines of a block that stand in place, each with the wave whose buffer it is of (none: the block's). -/
def Block.standing (b : Block) : List (Option Nat × BufLine) :=
  let own : List (Option Nat × BufLine) := b.buf.map fun x => (none, x)
  let waves : List (Option Nat × BufLine) := b.waves.zipIdx.flatMap fun w => w.1.buf.map fun x => (some w.2, x)
  (own ++ waves).filter fun x => x.2.log.isNone && !x.2.saved

/-- A line may stand in L1 beside others: within half of its lines, and within the ways of its set (spec/02 R46, R47). -/
def State.standsIn (s : State) (b : Block) (others : List Block) (kept : List Nat) (line : Nat) : Bool :=
  let k := s.core b.core
  let used := others.foldl (fun n x => n + x.buffered) 0 + kept.length
  let asid := s.asidOf b.lid
  decide (used < k.l1Lines / 2) &&
  (decide (used < 8) ||
    decide (s.waysHeld b.core (k.l1Set asid line) others + (kept.filter fun n => k.l1Set asid n == k.l1Set asid line).length < 8))

/-- The buffered lines of a block on its new core: they stand in its L1 as far as there is room; beyond that a wave's line goes to its own
shadow log (R88), and a block's to the log of the wave that made it, or, where that has retired or is full, to the first with
room. DESIGN CHOICE (log 24): with no log line left it stands in its maker's log beyond the 1,024. -/
def State.settleBuffers (s : State) (b : Block) : Block :=
  let others := (s.residents b.core).filter fun x => !(x.lid == b.lid && x.rank == b.rank)
  let gang := (s.gangOf? b).elim [] (·.buf)
  (b.standing.foldl (fun (x : Block × List Nat) p =>
    let (b, kept) := x
    let (own, line) := p
    if s.standsIn b others kept line.line then (b, line.line :: kept)
    else
      let logged := match own with
        | some n => line.inLog gang [b] (b.rank, n)
        | none => (line.toLog gang [b]).getD (line.inLog gang [b] line.maker)
      (b.putLine logged own, kept)) (b, [])).1

/-- The lines that stand in L1 take ways of their sets: clean lines leave for them. -/
def State.makeWays (s : State) (b : Block) : State :=
  b.bufferLines.foldl (fun s line => s.l1Make b.core (s.asidOf b.lid) line (s.residents b.core)) s

/-- Release the waits that a barrier stop kept (R303, R305, R355). -/
def Block.releaseStop (b : Block) : Block :=
  match b.stopBar with
  | some (bar, p) => { b.releaseWaits bar p with stopped := false, stopBar := none }.wake
  | none => { b with stopped := false }

/-- A block on its new core: bound afresh, with a mark in every wave's sr.status. A stop that its slice's end has asked for stands where
it has moved (R89), and is over where it has been away. -/
def State.seatBlock (s : State) (b : Block) (c : Ctx) (core : Nat) (pipes : List Nat) (mark : DWord) (nv : Nat) : Option State :=
  match s.seat c (s.blockNeed b) core with
  | none => none
  | some (s, a, bank) =>
    let s := s.tick
    let b := { b with core := core, segBase := a, bankBase := bank, place := .resident, leaving := false,
                      stopWanted := b.stopWanted && mark == stRebound }
    match s.givePipes b pipes with
    | none => none
    | some b =>
      let units (kind : Nat) (b : Block) : Nat := s.freeUnit b kind
      -- slots, tricks and tags are bound afresh one after another
      let b0 := { b with bars := [], queues := [], tricks := [], tags := [] }
      let b1 := b.bars.foldl (fun (x : Block) y => { x with bars := x.bars ++ [{ y with unit := units kBarrier x }] }) b0
      let b1 := b.queues.foldl (fun (x : Block) y => { x with queues := x.queues ++ [{ y with unit := units kQueue x }] }) b1
      let b1 := b.tricks.foldl (fun (x : Block) y => { x with tricks := x.tricks ++ [{ y with unit := units kTrick x }] }) b1
      let b1 := b.tags.foldl (fun (x : Block) y => { x with tags := x.tags ++ [{ y with unit := units kTag x }] }) b1
      let b1 := { b1 with waves := b1.waves.map fun w => { w with status := w.status ||| mark, runOn := [] } }
      let b1 := (s.settleBuffers b1).releaseStop
      let s := ((s.setBlock b1).makeWays b1).loadDeck b1 nv
      -- copies that had stopped go on; a CPYT.ld begins again (R75)
      some { s with jobs := s.jobs.map fun j =>
        if j.ofBlock b1 then
          let j := { j with stop := none, told := false }
          if j.kind.isLoad then { j with row := 0, stage := [], srcLines := [] } else j
        else j }

/-- Gang lines come back into the cluster's column cache, and the save range is free (R155); a line that finds no way there keeps its log
line, or takes one. -/
def State.gangReturns (s : State) (c : Ctx) (b : Block) (core : Nat) : State :=
  match s.launch? b.lid with
  | none => s
  | some l =>
    match (if l.hdr.hasGang then s.gang? b.lid (l.hdr.gangOf b.rank) else none) with
    | none => s
    | some g =>
      let cl := clusterOf core
      let unit := s.unitOf b
      let s := if g.saveSize == 0 then s else s.freePool c.tenant c.num g.saveRange
      let s := s.setGang { g with cluster := cl, saveRange := 0, saveSize := 0 }
      g.buf.foldl (fun (s : State) x =>
        match s.gang? g.lid g.num with
        | none => s
        | some g =>
          let set := colSet c.asid x.line
          let fits := decide (s.gangWays cl set < 16)
          let x' := if fits then { x with log := none, saved := false }
            else if x.saved then (x.toLog g.buf unit).getD (x.inLog g.buf unit x.maker) else x
          let s := if fits then s.colMake cl set else s
          s.setGang { g with buf := g.buf.map fun y => if y.line == x.line then x' else y }) s

/-- A unit returns whole, its gang lines first; none where some block does not fit. -/
def State.unitReturns (s : State) (unit : List Block) (cores pipes : List Nat) (mark : DWord) : Option State :=
  match unit with
  | [] => none
  | b0 :: _ =>
    match s.launch? b0.lid with
    | none => none
    | some l =>
      match s.ctx? l.src.fn l.ctx with
      | none => none
      | some c =>
        if cores.length != unit.length || (l.hdr.hasGang && !oneCluster cores) then none
        else
          let s := s.gangReturns c b0 (cores.headD 0)
          let jobs := (unit.zip cores).zip (cutPipes (unit.map (·.waves.length)) pipes)
          jobs.foldl (fun (x : Option State) j =>
            x.bind fun s => match s.ctx? c.tenant c.num with
              | some c => s.seatBlock j.1.1 c j.1.2 j.2 mark l.hdr.nv
              | none => none) (some s)

/-- A SHARE is complete once no block of its context is still to move (spec/23 R356). -/
def State.settleShare (s : State) (t n : Nat) : State :=
  match s.ctx? t n with
  | none => s
  | some c =>
    match c.sharing with
    | none => s
    | some src =>
      if (s.blocksOf t n).any (·.moveWanted) then s else (s.setCtx { c with sharing := none }).complete src opShare eOk 0

/-! ### Choices of the scheduler -/

/-- Cores for blocks of one demand, one after another, the lowest that fit; within a cluster where they are a gang. -/
def State.fitCores (s : State) (c : Ctx) (lid : Nat) (need : Caps) (cores : List Nat) : Nat → Option (List Nat)
  | 0 => some []
  | n + 1 =>
    match cores.findSome? fun k => (s.seat c need k).map fun x => (k, x) with
    | none => none
    | some (k, s, a, b) =>
      -- a stand-in for the block just seated
      let blk : Block :=
        { lid := lid, rank := 2 ^ 64 + n, place := .resident, core := k, waves := [], buf := [], bars := [], queues := [], tricks := [],
          tags := [], bound := [], barsite := 0, deck := 0, deckSize := 0, segBase := a, segCount := need.segs, bankBase := b,
          bankCount := need.banks, stopWanted := false, moveWanted := false, window := false, stopped := false, stopSite := 0,
          faulted := false, halted := false, atBkpt := false, retiring := false }
      ({ s with blocks := s.blocks ++ [blk] }.fitCores c lid need cores n).map (k :: ·)

def State.chooseCores (s : State) (c : Ctx) (l : Launch) (need : Caps) (n : Nat) : Option (List Nat) :=
  if l.hdr.hasGang then
    (List.range 24).findSome? fun cl => s.fitCores c l.lid need (c.cores.filter fun k => clusterOf k == cl) n
  else s.fitCores c l.lid need c.cores n

end Sys2Proof.Machine
end

