-- ==== Sys2Proof/Machine/Launch.lean ====
section
/-!
DEFINITION. Launches from the queue to the completion record (spec/16 R290 to R294, R301, spec/08 R150, spec/09 R167, R168):
checks, the tensor-table reload, the shadow pool, placement, retirement, the kernel boundary and completion.
-/

namespace Sys2Proof

/-! ### The checks of a launch header (R290, R291) -/

/-- Bits lo to lo + n − 1 of a word are clear. -/
def clearBits (w : DWord) (lo n : Nat) : Bool := w.toNat / 2 ^ lo % 2 ^ n == 0

def LaunchHdr.reservedOk (h : LaunchHdr) : Bool :=
  clearBits h.w0 48 16 && clearBits h.w0 4 23 && clearBits h.w0 0 1 && clearBits h.w1 42 22 && clearBits h.w6 56 8 &&
  clearBits h.w6 24 8 && h.w7 == 0

def LaunchHdr.widthSum (h : LaunchHdr) : Nat := h.bitOf h.fields

def LaunchHdr.widthsOk (h : LaunchHdr) : Bool :=
  (List.range 6).all (fun i =>
    if i < h.fields then decide (1 ≤ h.width i) && decide (h.width i ≤ 64) else h.width i == 0) && decide (h.widthSum ≤ 64)

def LaunchHdr.rangesOk (h : LaunchHdr) : Bool :=
  decide (1 ≤ h.fields) && decide (h.fields ≤ 6) && decide (1 ≤ h.blk) && decide (h.blk ≤ h.fields) &&
  (h.gng == 0 || (decide (h.blk < h.gng) && decide (h.gng ≤ h.fields)))

/-- BADHDR unless a header keeps R291, for a kernel of nv registers. -/
def LaunchHdr.ok (h : LaunchHdr) (nv : Nat) : Bool :=
  h.reservedOk && h.rangesOk && h.widthsOk && h.w2.toNat / 2 ^ h.widthSum == 0 && h.entry.toNat % 64 == 0 &&
  h.args.toNat % 8 == 0 && h.nv == nv && !(h.outEdge == 0 && h.need != 0)

end Sys2Proof

namespace Sys2Proof.Machine

/-- The limits of R291 and R80, and every trick's set size (NOFIT). -/
def launchFits (k : Kernel) (h : LaunchHdr) : Bool :=
  decide (h.threads ≤ 4096) && decide (h.gangSize ≤ 12) && decide (h.waveCount ≤ 128) && (needOf k h).le (coreCaps 12) &&
  k.syms.all fun r => r.kind != kTrick || decide ((if r.count == 0 then Config.W else r.count) ≤ h.threads)

/-- The handler words keep the map of R309. -/
def handlerOk (h0 h1 : DWord) : Bool := clearBits h0 0 6 && clearBits h1 43 21 && clearBits h1 12 21

/-- Words 8 and 9 of a context's descriptor as memory holds them now (R309, R331). -/
def State.handlerWords (s : State) (c : Ctx) : DWord × DWord := (mem64 s.mem (c.descAt + 64), mem64 s.mem (c.descAt + 72))

/-- The error a launch is rejected with, if any (R291, R309, R334, R57). -/
def State.launchError (s : State) (l : Launch) : Option Nat :=
  match s.ctx? l.src.fn l.ctx with
  | none => some eBadCmd
  | some c =>
    let (h0, h1) := s.handlerWords c
    match s.kernel? l.hdr.entry with
    | none => some eBadHdr
    | some k =>
      let own := (s.tenant l.src.fn).own
      if !(l.hdr.ok k.nv && handlerOk h0 h1) then some eBadHdr
      else if !launchFits k l.hdr || own.clusters == 0 || own.slices == 0 || own.channels == 0 then some eNoFit
      else if k.usesCopy && own.engines == 0 then some eNoCopyEng
      else none

/-- A line that the command processor reads for a launch: a forwarded one that L2 does not hold is asked of its owner, and arrives with a
later try, which counts it (spec/01 R27, R29). Whether the read may go on. -/
def State.bringLine (s : State) (l : Launch) (c : Ctx) (line : Nat) (acc : Access) : State × Bool :=
  let asked := ((s.launch? l.lid).getD l).asked
  match s.fill c line acc false with
  | (t, .away x) =>
    if !asked.contains line then ((t.requestLine c.tenant x).setLaunch { (t.launch? l.lid).getD l with asked := line :: asked }, false)
    else if t.reachable c line then
      let t := (t.fill c line acc true).1.countForward c line
      (t.setLaunch { (t.launch? l.lid).getD l with asked := asked.filter (· != line) }, true)
    else (t, false)
  | (t, _) => (t, true)

def State.bringLines (s : State) (l : Launch) (c : Ctx) (acc : Access) (lines : List Nat) : State × Bool :=
  lines.foldl (fun x line => let (s, there) := x.1.bringLine l c line acc; (s, x.2 && there)) (s, true)

/-- What the test of the out-edge comes to (R301). -/
inductive EdgeTest where
  | go (s : State)
  | held (s : State)
  | away (s : State)
  | bad (s : State)

def State.edgeTest (s : State) (c : Ctx) (l : Launch) : EdgeTest :=
  let h := l.hdr
  if h.outEdge == 0 then .go s
  else if h.outEdge.toNat % 64 != 0 then .bad s
  else
    let (s, there) := s.bringLine l c (lineNo h.outEdge) .atomic
    if !there then .away s
    else
    match s.readD c (lineNo h.outEdge) .atomic false with
    | (s, .fail _ _) => .bad s
    | (s, .away _) => .away s
    | (s, .ok d _) =>
      match edgeOf d with
      | none => .bad s
      | some e => if e.free < h.need then .held s else .go s

/-- The error a launch completes with, once it has ended. -/
def Launch.result (l : Launch) : Option Nat :=
  match l.state with
  | .boundary => some eOk
  | .ended e => some e
  | .taken | .running => none

/-- A launch may be taken while the launches before it in its queue have passed their kernel boundaries, though their records are
still to be written (R293, R362). -/
def State.mayTakeLaunch (s : State) (fn q : Nat) : Bool :=
  let x := s.cmdQueue fn q
  let mine := s.queueLaunches fn q
  x.mayTake || ({ x with busy := false }.mayTake && !mine.isEmpty && mine.all (·.result.isSome))

/-- LAUNCH: the entry leaves its queue; in the package queue it is no command. -/
def execLaunch (c : CmdSrc) (hdr : LaunchHdr) (s : State) : Host.Outcome State Fault Refusal :=
  if !s.mayTakeLaunch c.fn c.q then .next s
  else if c.fn == pkgFn then .next ((s.take c).complete c opLaunch eBadCmd 0)
  else
  let s := (s.take c).tick
  let l : Launch :=
    { lid := s.stamp, src := c, hdr := hdr, ctx := (s.cmdQueue c.fn c.q).ctx, state := .taken, start := 0, nextUnit := 0,
      replay := false, replays := 0, snap := hdr.snap, replayable := hdr.snap, shadowDir := 0, shadowBitmap := 0, shadowMap := 0,
      shadowCount := 0, savedTable := 0, held := false }
  .next { s with launches := s.launches ++ [l] }

/-! ### The shadow pool (spec/01 R36) -/

/-- Bytes of a snapshot bitmap: one bit per frame of the tenant's regions, in 4 KiB units. -/
def State.bitmapBytes (s : State) (t : Nat) : Nat := 32768 * (s.tenant t).regions.length

def tableBytes (t : List TEntry) : List Byte := (List.range 256).flatMap fun h => wordsBytes ((List.range 8).map fun i => entW (t.getD h []) i)

/-- The table as memory holds it. -/
def State.tableOf (s : State) (at_ : Nat) : List TEntry :=
  (List.range 256).map fun h => (List.range 8).map fun i => mem64 s.mem (at_ + 64 * h + 8 * i)

/-- Take a free range of the rest of the shadow pool. -/
def State.takeShadow (s : State) (t n size : Nat) : Option (Nat × State) :=
  match s.ctx? t n with
  | none => none
  | some c =>
    (freeRange (c.shBase + 4096) (c.shSize - 4096) c.shadow size).map fun a => (a, s.setCtx { c with shadow := (a, size) :: c.shadow })

/-- Carve a snapshot launch's bitmap, map and saved table out of the pool; where it cannot supply them the launch is not
replayable. -/
def State.carve (s : State) (l : Launch) : State :=
  let t := l.src.fn
  let got := (s.takeShadow t l.ctx (max 4096 (s.bitmapBytes t))).bind fun (bm, s) =>
    (s.takeShadow t l.ctx 4096).bind fun (mp, s) => (s.takeShadow t l.ctx 16384).map fun (tb, s) => (bm, mp, tb, s)
  match got, s.ctx? t l.ctx with
  | some (bm, mp, tb, s), some c =>
    let dir := c.shBase + 64 * l.src.q
    let s := s.devPut bm (List.replicate (max 4096 (s.bitmapBytes t)) 0)
    let s := s.devPut tb (tableBytes c.table)
    let s := s.devPut dir (wordsBytes [BitVec.ofNat 64 bm, BitVec.ofNat 64 mp, 0, BitVec.ofNat 64 tb, 0, 0, 0, 0])
    s.setLaunch { l with shadowDir := dir, shadowBitmap := bm, shadowMap := mp, shadowCount := 0, savedTable := tb }
  | _, _ => s.setLaunch { l with replayable := false }

/-- The shadow pages of a launch: frame and page of each record of its map. -/
def State.shadowPages (s : State) (l : Launch) : List (Nat × Nat) :=
  (List.range l.shadowCount).map fun i =>
    (memNat s.mem (l.mapRecord i) 8 / 4096 % 2 ^ 40 * 4096, memNat s.mem (l.mapRecord i + 8) 8)

/-- Free everything a snapshot launch took from the pool, and its directory entry. -/
def State.freeShadow (s : State) (l : Launch) : State :=
  if l.shadowMap == 0 then s
  else
    let gone := l.shadowBitmap :: l.savedTable :: l.shadowMap :: (l.mapUnits ++ (s.shadowPages l).map (·.2))
    let s := match s.ctx? l.src.fn l.ctx with
      | some c => s.setCtx { c with shadow := c.shadow.filter fun r => !gone.contains r.1 }
      | none => s
    s.devPut l.shadowDir (List.replicate 64 0)

/-! ### LAUNCH_BEGIN (R293, R301, R309, spec/03 R59, spec/09 R167) -/

/-- Clean lines of an address space leave every L1. -/
def State.dropAsidL1 (s : State) (t asid : Nat) : State :=
  { s with cores := s.cores.map fun k => { k with l1 := k.l1.filter fun l => !(l.tenant == t && l.asid == asid) } }

/-- The command processor's ACQ.S for a context: clean copies of forwarded lines go from L2, and those of its address space from every
L1 (spec/09 R167, spec/08 R148). -/
def State.acquireS (s : State) (c : Ctx) : State :=
  { (s.dropAsidL1 c.tenant c.asid) with
    l2 := s.l2.filter fun l => !(l.tenant == c.tenant && l.asid == c.asid && !l.phys && l.owner != .loc) }

/-- A launch begins: handler words and tensor table are loaded, a snapshot launch carves its part of the shadow pool. -/
def State.beginLaunch (s : State) (l : Launch) (c : Ctx) : State :=
  let (h0, h1) := s.handlerWords c
  let s := s.tick
  let s := s.setCtx { c with table := s.tableOf c.ttBase, hentry := h0, h1 := h1 }
  let l := { l with state := .running, start := s.stamp, nextUnit := 0 }
  let s := s.setLaunch l
  if l.snap && l.shadowMap == 0 then s.carve l else s

/-- What LAUNCH_BEGIN makes of a launch that may begin: FREE is read once, and a launch that its edge holds waits until FREE is to
be read again (R301). While a slice of its tenant is being scrubbed it waits (spec/02 R56). -/
def State.tryBegin (s : State) (l : Launch) : Option State :=
  if l.held || (s.tenant l.src.fn).own.slices &&& s.pkg.scrubSlice != 0 then none
  else
  match s.launchError l with
  | some e => some (s.setLaunch { l with state := .ended e })
  | none =>
    match s.ctx? l.src.fn l.ctx with
    | none => none
    | some c =>
      match (s.acquireS c).edgeTest c l with
      | .bad s => some (s.setLaunch { l with state := .ended eBadEdge })
      | .held _ => some (s.setLaunch { l with held := true })
      | .away s => some s
      | .go s => some ((s.beginLaunch ((s.launch? l.lid).getD l) c).settleTurn c.tenant)

def execLaunchBegin (fn q : Nat) (s : State) : Host.Outcome State Fault Refusal :=
  match (s.nextLaunch fn q).bind s.tryBegin with
  | some s => .next s
  | none => .next s

/-! ### BLOCK_PLACEMENT (R294, R295, R302) -/

/-- The launch's next unit may be offered: none of its blocks waits to return, and its context has the turn. -/
def State.offered (s : State) (l : Launch) : Bool :=
  l.state == .running && decide (l.nextUnit < l.hdr.units) && !(s.blocks.any fun b => b.lid == l.lid && s.canReturn b) &&
  (s.ctx? l.src.fn l.ctx).elim false fun c => c.turn && !c.spent

def execBlockPlacement (lid : Nat) (cores pipes : List Nat) (s : State) : Host.Outcome State Fault Refusal :=
  match s.launch? lid with
  | none => .next s
  | some l =>
    match s.ctx? l.src.fn l.ctx, s.kernel? l.hdr.entry with
    | some c, some k =>
      if !s.offered l then .next s
      else
        let (t, there) := s.bringLines l c .read (argLines l.hdr.args)
        if there then .next ((t.placeUnit ((t.launch? lid).getD l) k c cores pipes).getD s) else .next t
    | _, _ => .next s

/-! ### Retirement (spec/08 R150) -/

/-- A resident block whose waves have all retired and whose engine work and copies into scratch are done may retire. -/
def Block.finished (b : Block) : Bool := b.place == .resident && !b.faulted && !b.halted && b.waves.all (·.retired)

/-- The record of a retirement commit that failed: no instruction and no lane raised it. -/
def State.retireFault (s : State) (b : Block) (t : TrapInfo) : State :=
  match s.launch? b.lid with
  | none => s
  | some l =>
    match s.kernel? l.hdr.entry with
    | none => s
    | some k => s.writeFault l.src.fn (faultWords k l b 0xFF 0 false 0xFFFFFFFF { t with lane := 0xFF, lanes := 0, vreg := 0xFFF })

/-- A block gives up its deck, its units and its register-cache lines. -/
def State.freeBlock (s : State) (b : Block) : State :=
  let s := s.dropDecks b
  let s := match s.launch? b.lid with
    | some l => b.waves.foldl (fun (s : State) (w : Wave) => match w.frame with
        | some f => s.freePool l.src.fn l.ctx f.window
        | none => s) (s.freePool l.src.fn l.ctx b.deck)
    | none => s
  let k := s.core b.core
  s.setCore b.core { k with regCache := k.regCache.filter fun x => !(x.lid == b.lid && x.rank == b.rank) }

def execBlockRetire (b : BlockRef) (s : State) : Host.Outcome State Fault Refusal :=
  match s.block? b.lid b.rank with
  | none => .next s
  | some blk =>
    if !blk.finished then .next s
    else
      let s := s.finishEngine blk ((s.core blk.core).engine.length)
      let s := s.finishCopies blk
      if s.copiesHold blk || s.jobs.any (fun j => j.ofBlock blk && j.stop.isSome) then .next s
      else
        match s.cxOf { lid := b.lid, rank := b.rank, wave := 0 } with
        | none => .next s
        | some c =>
          match c.publish .d false 0 with
          | .ok c | .conflict c _ =>
            let s := (c.close.setBlock { c.blk with place := .retired, buf := [], retiring := false, stopWanted := false,
                                                    moveWanted := false, window := false }).freeBlock c.blk
            .next ((s.settleShare c.ctx.tenant c.ctx.num).settleTurn c.ctx.tenant)
          | .fault s t =>
            if t.cls == tUce then .next (s.uceBlock blk (some t.cause))
            else .next ((s.retireFault blk t).setBlock { c.blk with faulted := true, retiring := true })

/-! ### The kernel boundary and completion -/

/-- Every L1 of the device is invalidated. -/
def State.dropAllL1 (s : State) : State := { s with cores := s.cores.map fun k => { k with l1 := [] } }

def State.atBoundary (s : State) (l : Launch) : Bool :=
  l.state == .running && l.nextUnit == l.hdr.units && s.blocks.all fun b => b.lid != l.lid || b.place == .retired

def execKernelBoundary (lid : Nat) (s : State) : Host.Outcome State Fault Refusal :=
  match s.launch? lid with
  | none => .next s
  | some l =>
    if s.atBoundary l then .next (((s.setLaunch { l with state := .boundary }).dropAllL1).settleTurn l.src.fn) else .next s

/-- Nothing of the launch is under way: every copy and drain has settled and every COMMIT.S is acknowledged (R168). -/
def State.launchSettled (s : State) (lid : Nat) : Bool :=
  !(s.jobs.any fun j => j.wave.elim false fun w => w.lid == lid) &&
  !(s.cores.any fun k => k.engine.any fun o => o.wave.lid == lid) &&
  !(s.ports.any fun p => p.buffer.any fun x => x.lid == some lid) && !(s.heldPackets.any fun h => h.sent.lid == some lid)

/-- A launch leaves the machine with its blocks and gangs; its writes have settled (spec/09 R163, R168). -/
def State.forget (s : State) (lid : Nat) : State :=
  { s with launches := s.launches.filter fun l => l.lid != lid, blocks := s.blocks.filter fun b => b.lid != lid,
           gangs := s.gangs.filter fun g => g.lid != lid, unsettled := s.unsettled.filter fun u => u.wave.lid != lid }

def State.completable (s : State) (l : Launch) : Bool :=
  l.result.isSome && s.launchSettled l.lid && ((s.queueLaunches l.src.fn l.src.q).head?.elim false fun x => x.lid == l.lid)

def execLaunchComplete (lid : Nat) (s : State) : Host.Outcome State Fault Refusal :=
  match s.launch? lid with
  | none => .next s
  | some l =>
    match l.result with
    | none => .next s
    | some e =>
      if s.completable l then .next ((((s.freeShadow l).forget lid).complete l.src opLaunch e 0).settleTurn l.src.fn) else .next s

end Sys2Proof.Machine
end

