-- ==== Sys2Proof/Machine/Preempt.lean ====
section
/-!
DEFINITION. Slices, pre-emption, re-entry, moves and promotion (spec/16 R297, R298, R302 to R305; spec/04 R87, R88; spec/23 R355,
R356).
-/

namespace Sys2Proof.Machine

/-! ### The end of a slice (R302, R303) -/

def State.othersWork (s : State) (c : Ctx) : Bool := s.ctxs.any fun x => x.tenant == c.tenant && x.num != c.num && s.hasWork x

/-- An undelivered trap that the block's waves have raised is taken up before the block is pre-empted or moved (R89). -/
def Block.trapPending (b : Block) : Bool := b.waves.any fun w => w.trap.isSome && w.wait == some .traps

/-- A unit may be pre-empted: no fault of it waits to be taken up, and no move of it is under way, which completes first (R89, R304). -/
def mayLeave (unit : List Block) : Bool := !unit.any fun b => b.trapPending || b.moveWanted

/-- The units of a context whose blocks the end of a burst asks to stop leave at once where their launch's GRACE is 0 (R304). -/
def State.noGrace (s : State) (fn ctx : Nat) : State :=
  ((s.blocksOf fn ctx).filter fun b => b.place == .resident && (s.launch? b.lid).elim false fun l => l.hdr.grace == 0).foldl
    (fun (s : State) b => match s.block? b.lid b.rank with
      | some b => if b.place == .resident && mayLeave (s.unitOf b) then s.leaveOrWait (s.unitOf b) false else s
      | none => s) s

/-- SLICE_END: a slice of the burst is over; with its last one every resident block of the context is asked to stop. A context alone runs
on, without using its burst (R302). -/
def execSliceEnd (fn ctx : Nat) (s : State) : Host.Outcome State Fault Refusal :=
  match s.ctx? fn ctx with
  | none => .next s
  | some c =>
    if c.turn && !c.spent && s.othersWork c then
      if 1 < c.burst then .next (s.setCtx { c with burst := c.burst - 1 })
      else
        let stop (b : Block) : Block := if s.ofCtx fn ctx b && b.place == .resident then { b with stopWanted := true } else b
        let s := { s with blocks := s.blocks.map stop }.setCtx { c with spent := true, burst := 0 }
        .next ((s.noGrace fn ctx).settleTurn fn)
    else .next s

/-- GRACE_EXPIRY: the unit leaves its cores. Blocks at a barrier stop keep what their site lists (R303), the others are held and saved
whole (R304). A unit whose every block has stopped leaves so without waiting. -/
def execGraceExpiry (b : BlockRef) (s : State) : Host.Outcome State Fault Refusal :=
  match s.block? b.lid b.rank with
  | none => .next s
  | some blk =>
    let unit := s.unitOf blk
    let t := (s.launch? b.lid).elim 0 (·.src.fn)
    if blk.place == .resident && blk.stopWanted && mayLeave unit then .next ((s.leaveOrWait unit true).settleTurn t)
    else .next s

/-- BLOCK_REENTRY: a unit comes back when its context has the turn, bound afresh, RESUMED set (R294, R305, R316). -/
def execBlockReentry (b : BlockRef) (cores pipes : List Nat) (s : State) : Host.Outcome State Fault Refusal :=
  match s.block? b.lid b.rank, s.launch? b.lid with
  | some blk, some l =>
    let may := (s.ctx? l.src.fn l.ctx).elim false fun c => c.turn && !c.spent
    if s.canReturn blk && may then .next ((s.unitReturns (s.unitOf blk) cores pipes stResumed).getD s) else .next s
  | _, _ => .next s

/-! ### Moves (spec/04 R87, spec/23 R355, R356) -/

/-- The unit may move now: each of its blocks has stopped at a barrier, or has no window left. -/
def State.mayMove (s : State) (b : Block) : Bool :=
  let unit := s.unitOf b
  b.place == .resident && unit.any (·.moveWanted) && unit.all (fun x => x.stopped || !x.window) && !(unit.any (·.trapPending))

/-- The instruction cache of a core loses an address space. -/
def State.dropIcache (s : State) (core t asid : Nat) : State :=
  let k := s.core core
  s.setCore core { k with icache := k.icache.filter fun l => !(l.tenant == t && l.asid == asid) }

/-- The blocks of a unit as they stand now. -/
def State.again (s : State) (unit : List Block) : List Block := unit.filterMap fun b => s.block? b.lid b.rank

/-- BLOCK_MOVE: the unit moves to other cores of the share, REBOUND set; without cores, where none fits, it stays in its deck until
room appears (R87, R88). -/
def execBlockMove (b : BlockRef) (cores pipes : List Nat) (s : State) : Host.Outcome State Fault Refusal :=
  match s.block? b.lid b.rank, s.launch? b.lid with
  | some blk, some l =>
    if !s.mayMove blk then .next s
    else
      match s.unitLeaves (s.unitOf blk) false with
      | none => .next s
      | some s1 =>
        match s1.ctx? l.src.fn l.ctx with
        | none => .next s
        | some c =>
          let unit := s1.again (s.unitOf blk)
          if cores.isEmpty then
            match s1.chooseCores c l (s.blockNeed blk) unit.length with
            | some _ => .next s
            | none => .next ((s1.settleShare c.tenant c.num).settleTurn c.tenant)
          else
            match s1.unitReturns unit cores pipes stRebound with
            | none => .next s
            | some s2 =>
              let s2 := cores.foldl (fun s k => s.dropIcache k c.tenant c.asid) s2
              .next (s2.settleShare c.tenant c.num)
  | _, _ => .next s

/-- REBIND_WINDOW_EXPIRY: the window for a barrier stop has passed; blocks that have not stopped are held (R355). -/
def execRebindWindowExpiry (b : BlockRef) (s : State) : Host.Outcome State Fault Refusal :=
  match s.block? b.lid b.rank with
  | none => .next s
  | some blk =>
    let unit := s.unitOf blk
    .next (unit.foldl (fun s x => match s.block? x.lid x.rank with
      | some x => s.setBlock { x with window := false }
      | none => s) s)

/-! ### The hand and the stock (R297, R298) -/

/-- The wave waits only to try its instruction again. -/
def Wave.mayTry (w : Wave) : Bool := !w.retired && (w.wait == some .retry || w.wait == some .phase)

/-- The wave can issue nothing (R297): it waits, or every thread that has not exited is held. -/
def Wave.blocked (w : Wave) : Bool := w.wait.isSome || w.groups.all fun g => g.lanes == 0

/-- The block's waves may issue: it is resident, and nothing holds it. -/
def Block.runs (b : Block) : Bool :=
  b.place == .resident && !b.faulted && !b.halted && !b.stopped && !b.leaving && !(b.moveWanted && !b.window)

/-- The hand wave of a pipe that entered the hand earliest, as block and wave. -/
def State.oldestHand (s : State) (core pipe : Nat) : Option (Block × Nat) :=
  let hand := (s.residents core).flatMap fun b =>
    (b.waves.zipIdx.filter fun w => w.1.pipe == pipe && !w.1.stock && !w.1.retired).map fun w => (b, w.2, w.1.entered)
  match minList (hand.map (·.2.2)) with
  | none => none
  | some n => (hand.find? fun x => x.2.2 == n).map fun x => (x.1, x.2.1)

/-- A stock wave enters the hand, and a hand wave goes to the stock. -/
def State.swapWaves (s : State) (w : WaveRef) (out : Option (Block × Nat)) : State :=
  let s := s.tick
  let s := match out with
    | none => s
    | some (b, n) => match s.block? b.lid b.rank with
      | some b => s.setBlock (b.setWave n { b.wave n with stock := true, readySince := s.stamp, swap := false })
      | none => s
  match s.block? w.lid w.rank with
  | some b => s.setBlock (b.setWave w.wave { b.wave w.wave with stock := false, entered := s.stamp, yielded := false, swap := false })
  | none => s

/-- STOCK_PROMOTION: a stock wave that has long been ready changes places with the hand wave that entered earliest. -/
def execStockPromotion (core pipe : Nat) (w : WaveRef) (s : State) : Host.Outcome State Fault Refusal :=
  match s.block? w.lid w.rank with
  | none => .next s
  | some b =>
    let v := b.wave w.wave
    if b.core == core && b.runs && v.stock && v.pipe == pipe && (!v.blocked || v.mayTry) && !v.retired then .next (s.swapWaves w (s.oldestHand core pipe))
    else .next s

end Sys2Proof.Machine
end

