-- ==== Sys2Proof/Machine/Recovery.lean ====
section
/-!
DEFINITION. What becomes of traps (spec/17 R310 to R323): entry to a handler that had no room, swap-out on a fault, the end of a
launch, halts at BKPT, rollback and timing replays.
-/

namespace Sys2Proof.Machine

/-! ### HANDLER_ENTRY (R310) -/

/-- A wave that waited for a handler window tries again. -/
def execHandlerEntry (w : WaveRef) (s : State) : Host.Outcome State Fault Refusal :=
  match s.cxOf w with
  | none => .next s
  | some c =>
    match c.wv.trap, c.wv.wait with
    | some r, some .room => if c.blk.runs then .next (c.enterHandler r).close else .next s
    | _, _ => .next s

/-! ### What follows an undelivered trap (R312, R313) -/

inductive Fate where
  | swap
  | halt
  | roll
  | fail (err : Nat)
  deriving DecidableEq, Repr

/-- What the class of a wave's undelivered trap leads to. -/
def trapFate (inHandler : Bool) (t : TrapInfo) : Fate :=
  if t.cls == tUce then .roll
  else if inHandler then .fail eTrapInTrap
  else if t.cls == tMemFault then (if t.cause == cWbFull then .fail eWbFull else .swap)
  else if t.cls == tBkpt then .halt
  else .fail (eTrap t.cls)

def Wave.fate (w : Wave) : Option Fate :=
  match w.trap, w.wait with
  | some r, some .traps => some (trapFate w.frame.isSome r.info)
  | _, _ => none

def Block.hasFate (b : Block) (f : Fate) : Bool := b.waves.any fun w => w.fate == some f

/-- Write the records of a block's waves whose trap has a fate. -/
def State.recordFates (s : State) (b : Block) (f : Fate) : State :=
  b.waves.zipIdx.foldl (fun (s : State) w => match w.1.fate == some f, w.1.trap with
    | true, some r => s.recordTrap b w.2 r
    | _, _ => s) s

/-! ### BLOCK_SWAP_OUT (R313, R316, R317, spec/03 R74) -/

/-- The record of a copy or a drain that stopped: the issuing wave's core and pipe as they were; of one that a handler issued, the
handler's instruction, where the loader knows that code as a kernel's. -/
def State.recordJob (s : State) (b : Block) (j : Job) (t : TrapInfo) : State :=
  match s.launch? b.lid, j.wave with
  | some l, some w =>
    match s.kernel? l.hdr.entry with
    | none => s
    | some k =>
      let inHandler := j.flagsTo != .kernel
      let at_ := if inHandler then (s.ctx? l.src.fn l.ctx).bind fun c => s.kernel? c.hentry else some k
      s.writeFault l.src.fn (faultWords k l { b with core := j.core } w.wave j.pipe inHandler (at_.elim 0xFFFFFFFF (·.indexOf j.pc)) t)
  | _, _ => s

/-- Write the records of a block's stopped copies and drains. -/
def State.recordJobs (s : State) (b : Block) : State :=
  (s.jobs.filter fun j => j.ofBlock b && !j.told).foldl (fun (s : State) j => match j.stop with
    | some t => (s.recordJob b j t).setJob { j with told := true }
    | none => s) s

/-- The block has met a fault that nobody has taken up. -/
def State.faultDue (s : State) (b : Block) : Bool := b.hasFate .swap || s.jobs.any fun j => j.ofBlock b && !j.told && j.stop.isSome

/-- The traps that were recorded are taken off their waves: the faulting instruction is to be executed again whole. -/
def Block.dropFates (b : Block) (f : Fate) : Block :=
  { b with waves := b.waves.map fun w => if w.fate == some f then { w with trap := none, wait := none } else w }

/-- BLOCK_SWAP_OUT: records first, then the block, or its whole gang, leaves its core; where something holds it, it waits there, held. -/
def execBlockSwapOut (b : BlockRef) (s : State) : Host.Outcome State Fault Refusal :=
  match s.block? b.lid b.rank, s.launch? b.lid with
  | some blk, some l =>
    if s.faultDue blk || (blk.faulted && blk.place == .resident) then
      let s := (s.recordFates blk .swap).recordJobs blk
      let blk := { blk.dropFates .swap with faulted := true }
      let s := s.setBlock blk
      if blk.place == .resident then .next (((s.leaveOrWait (s.unitOf blk) false).settleShare l.src.fn l.ctx).settleTurn l.src.fn)
      else .next s
    else .next s
  | _, _ => .next s

/-! ### The end of a launch (R314) -/

/-- The blocks of a launch stop where they are, resident or swapped out, and their state, copies and drains are dropped. -/
def State.stopLaunch (s : State) (l : Launch) : State :=
  let mine := s.blocks.filter fun b => b.lid == l.lid
  let s := (mine.filter fun b => b.place != .retired).foldl (fun s b => s.freeBlock b) s
  let s := (s.gangs.filter fun g => g.lid == l.lid && g.saveSize != 0).foldl (fun (s : State) g => s.freePool l.src.fn l.ctx g.saveRange) s
  let s : State :=
    { s with blocks := s.blocks.filter fun b => b.lid != l.lid, gangs := s.gangs.filter fun g => g.lid != l.lid,
             jobs := s.jobs.filter fun j => !(j.wave.elim false fun w => w.lid == l.lid),
             cores := s.cores.map fun k => { k with engine := k.engine.filter fun o => o.wave.lid != l.lid } }
  { s with unsettled := s.unsettled.filter fun u => u.wave.lid != l.lid }

/-- The launch ends with an error; every L1 is invalidated. -/
def State.endLaunch (s : State) (l : Launch) (err : Nat) : State :=
  (((((s.stopLaunch l).setLaunch { l with state := .ended err }).dropAllL1).settleShare l.src.fn l.ctx).settleTurn l.src.fn)

/-- The first block of a launch with a trap that ends the launch, and the error it ends with. -/
def State.failing (s : State) (lid : Nat) : Option (Block × Nat × TrapRec × Nat) :=
  (s.blocks.filter fun b => b.lid == lid).findSome? fun b =>
    b.waves.zipIdx.findSome? fun w => match w.1.fate, w.1.trap with
      | some (.fail e), some r => some (b, w.2, r, e)
      | _, _ => none

def execLaunchEnd (lid : Nat) (s : State) : Host.Outcome State Fault Refusal :=
  match s.launch? lid, s.failing lid with
  | some l, some (b, w, r, e) => .next ((s.recordTrap b w r).endLaunch l e)
  | _, _ => .next s

/-! ### The debugger's halts (R318) -/

/-- A resident block halts: its waves are held and its deck is made whole; none while something its waves had issued holds it. -/
def State.haltBlock (s : State) (b : Block) : Option State :=
  match s.launch? b.lid with
  | none => none
  | some l =>
    let s := s.finishEngine b ((s.core b.core).engine.length)
    let s := s.finishGrants b
    let s := s.finishCopies b
    if s.copiesHold b || s.fencesHold b then none
    else
      match s.block? b.lid b.rank with
      | none => none
      | some b =>
        let b := { b with waves := b.waves.map Wave.hold, halted := true, leaving := false }
        some ((s.setBlock b).writeDeck b l.hdr.nv)

/-- The records of the BKPTs that halt a block. -/
def State.atBkpt (s : State) (b : BlockRef) : State :=
  match s.block? b.lid b.rank with
  | some blk => (s.recordFates blk .halt).setBlock { blk with atBkpt := true }
  | none => s

/-- DEBUG_HALT_BKPT: an undelivered BKPT writes its record and halts the block, which the debugger may have halted already. While
something its waves had issued holds it, the block is held. -/
def execDebugHaltBkpt (b : BlockRef) (s : State) : Host.Outcome State Fault Refusal :=
  match s.block? b.lid b.rank with
  | none => .next s
  | some blk =>
    if !blk.hasFate .halt || blk.atBkpt then .next s
    else if blk.halted then .next (s.atBkpt b)
    else if blk.place == .resident then
      match s.haltBlock blk with
      | none => .next (s.setBlock { blk with leaving := true })
      | some s => .next (s.atBkpt b)
    else .next s

/-- A group that stopped at a BKPT goes on 8 bytes further. -/
def Wave.passBkpt (w : Wave) : Wave :=
  match w.fate, w.trap with
  | some .halt, some r =>
    { w with trap := none, wait := none,
             groups := w.groups.map fun g => if g.lanes &&& r.mask != 0 && g.pc == r.pc then { g with pc := ptrAdd g.pc 8 } else g }
  | _, _ => w

/-- DEBUGRESUME of a block: its state is what its deck holds, past a BKPT that halted it; away from a core it waits on for its return. -/
def State.releaseBlock (s : State) (b : Block) : State :=
  match s.launch? b.lid with
  | none => s
  | some l =>
    let nv := l.hdr.nv
    let s := if b.place == .resident then s.loadDeck b nv
      else s.setBlock { b with waves := b.waves.zipIdx.map fun w => w.1.fromDeck s.mem (deckAreaAt b nv w.2) nv }
    match s.block? b.lid b.rank with
    | none => s
    | some b =>
      let b := { b with halted := false, atBkpt := false, waves := if b.atBkpt then b.waves.map (·.passBkpt) else b.waves }
      let s := s.setBlock b
      if b.place == .resident then s
      else b.waves.zipIdx.foldl (fun (s : State) w => s.devPut (deckAreaAt b nv w.2) (w.1.deckArea nv)) s

/-! ### Rollback (R319 to R322) -/

/-- A wave of a launch that has met an uncorrectable error. -/
def State.sick (s : State) (lid : Nat) : Option (Block × Nat × TrapRec) :=
  (s.blocks.filter fun b => b.lid == lid).findSome? fun b =>
    b.waves.zipIdx.findSome? fun w => match w.1.fate, w.1.trap with
      | some .roll, some r => some (b, w.2, r)
      | _, _ => none

def Launch.canReplay (l : Launch) : Bool := l.snap && l.replayable && decide (l.replays < 2)

/-- Restore the pages that a launch's snapshot bitmap names from its shadow pages, at D, then the tensor table (R320). -/
def State.restorePages (s : State) (l : Launch) : State :=
  let s := (s.shadowPages l).foldl (fun (s : State) p => match s.frameBit l.src.fn p.1 with
    | some b => if bitmapGet s.mem l.shadowBitmap b then s.copyPage p.1 p.2 else s
    | none => s) s
  let pages := (s.shadowPages l).map (·.2) ++ l.mapUnits
  let s := s.devPut l.shadowBitmap (List.replicate (max 4096 (s.bitmapBytes l.src.fn)) 0)
  let s := s.devPut (l.shadowDir + 16) (natBytes 8 0)
  match s.ctx? l.src.fn l.ctx with
  | none => s
  | some c =>
    let s := s.devPut c.ttBase (memBytes s.mem l.savedTable 16384)
    s.setCtx { c with table := s.tableOf l.savedTable, shadow := c.shadow.filter fun r => !pages.contains r.1 }

/-- LAUNCH_ROLLBACK: the record of class 0xB; a replayable launch is stopped, restored and started again from its entry, any other fails
with UCE. -/
def execLaunchRollback (lid : Nat) (s : State) : Host.Outcome State Fault Refusal :=
  match s.launch? lid, s.sick lid with
  | some l, some (b, w, r) =>
    let s := s.recordTrap b w r
    if l.canReplay then
      let s := s.stopLaunch l
      let s := match s.ctx? l.src.fn l.ctx with
        | some c => s.dropAsidL1 c.tenant c.asid
        | none => s
      let s := if l.shadowMap == 0 then s else s.restorePages l
      let s := s.setLaunch { l with state := .taken, replay := true, replays := l.replays + 1, nextUnit := 0, shadowCount := 0, mapUnits := [] }
      .next ((s.settleShare l.src.fn l.ctx).settleTurn l.src.fn)
    else .next (s.endLaunch l eUce)
  | _, _ => .next s

/-! ### TIMING_REPLAY (R323) -/

/-- The replay of a group's issue takes two cycles of the core and counts on its island; a flag raised again is an uncorrectable error
that the group's instruction consumes. -/
def execTimingReplay (g : GroupRef) (again : Bool) (s : State) : Host.Outcome State Fault Refusal :=
  match s.block? g.wave.lid g.wave.rank with
  | none => .next s
  | some b =>
    if b.place != .resident then .next s
    else
      let k := s.core b.core
      let s := s.setCore b.core { k with cycle := k.cycle + 2 }
      let n := clusterOf b.core
      let isl := s.pkg.islands.getD n Island.reset
      let isl : Island := { isl with replays := if isl.replays == BitVec.allOnes 32 then isl.replays else isl.replays + 1 }
      let s : State := { s with pkg := { s.pkg with islands := s.pkg.islands.set n isl } }
      let pc := ((b.wave g.wave.wave).groups.getD g.grp Group.default).pc
      .next (if again then s.uceWave g.wave 4 pc else s)

end Sys2Proof.Machine
end

