-- ==== Sys2Proof/Machine/System.lean ====
section
/-!
DEFINITION. The tensor table's instructions, special registers, and the trap frame (spec/15 R280 to R289, spec/04 R95, R96).
-/

namespace Sys2Proof.Machine

/-! ### TDEF and TQRY (R280, R281) -/

/-- TDEF changes the entry whole: in the context's loaded copy, and in the table's memory at D. -/
def State.putEntry (s : State) (c : Ctx) (n : Nat) (e : TEntry) : State :=
  let s := match s.ctx? c.tenant c.num with
    | some x => s.setCtx { x with table := setAt [] n e x.table }
    | none => s
  s.writePhys c.tenant (c.ttBase + 64 * n) (BitVec.allOnes 64) (BitVec.ofNat 512 (bytesNat (wordsBytes e)))

def execTdef (h : Hdr) (hn a : BitVec 8) (s : State) : Host.Outcome State Fault Refusal :=
  issue h { len := 16, uni := true, ops := [rdS a 8], badReg := decide (248 < a.toNat) } (onPath 0 fun c act =>
    let e := (List.range 8).map fun i => c.scl (a + BitVec.ofNat 8 i) (lowestLane act)
    .done { c with s := c.s.putEntry c.ctx hn.toNat e } id) s

/-- Word i of an entry as the loaded copy holds it; 8 asks for its validity. -/
def tableWord (e : TEntry) (i : Nat) : DWord := if i < 8 then entW e i else if entValid e then 1 else 0

def execTqry (h : Hdr) (d hn : BitVec 8) (i : BitVec 4) (s : State) : Host.Outcome State Fault Refusal :=
  issue h { len := 16, uni := true, ops := [wrS d 1] } (fun c _ =>
    .done c fun r => r.setScalar d.toNat (tableWord (c.ctx.entry hn.toNat) i.toNat)) s

/-! ### Special registers (R282 to R284, spec/04 R95, R96) -/

/-- How wide a special register is. -/
inductive SrWidth where
  | w32 | w64 | mask
  deriving DecidableEq, Repr

/-- The special registers that R95 lists. -/
def srWidth (n : BitVec 8) : Option SrWidth :=
  match n.toNat with
  | 0x01 | 0x02 | 0x03 | 0x04 | 0x08 => some .w32
  | 0x00 | 0x05 | 0x06 | 0x07 | 0x10 | 0x11 | 0x12 | 0x13 | 0x14 | 0x15 => some .w64
  | 0x16 => some .mask
  | _ => none

/-- The ready bits of the block's tags in declaration order (spec/03 R68). -/
def Cx.tagWord (c : Cx) : DWord :=
  let tags := c.krn.syms.filter fun r => r.kind == kTag
  tags.zipIdx.foldl (fun (w : DWord) x =>
    if (c.blk.tag? x.1.num).elim false (·.ready) then w ||| ((1 : DWord) <<< (x.2 : Nat)) else w) 0

/-- A 32-bit piece of the instruction bytes at the trapping PC. -/
def instPiece (inst i : Nat) : DWord := BitVec.ofNat 64 (inst / 2 ^ (32 * i) % 2 ^ 32)

/-- The trap registers: zero outside a handler. -/
def Cx.trapReg (c : Cx) (n : Nat) : DWord :=
  match c.wv.frame with
  | none => 0
  | some f =>
    match n with
    | 0x10 => f.trap.info.trapc
    | 0x11 => f.trap.pc
    | 0x12 => instPiece f.trap.inst 0
    | 0x13 => instPiece f.trap.inst 1
    | 0x14 => instPiece f.trap.inst 2
    | 0x15 => instPiece f.trap.inst 3
    | _ => 0

def Cx.trapMask (c : Cx) : Mask := c.wv.frame.elim 0 fun f => f.trap.mask

/-- The value of a special register in a lane; sr.cycle has been read already. -/
def Cx.srValue (c : Cx) (cycle : DWord) (n l : Nat) : DWord :=
  match n with
  | 0x00 => c.lch.hdr.wid c.blk.rank (128 * c.sel.ref.wave + l)
  | 0x01 => BitVec.ofNat 64 l
  | 0x02 => BitVec.ofNat 64 Config.W
  | 0x03 => BitVec.ofNat 64 c.sel.ref.wave
  | 0x04 => BitVec.ofNat 64 c.core
  | 0x05 => cycle
  | 0x06 => c.tagWord
  | 0x07 => c.wv.status
  | 0x08 => c.rv.fstat.setWidth 64
  | 0x16 => if c.trapMask.getLsbD l then 1 else 0
  | n => c.trapReg n

/-- Time passes on a core: its cycle counter rises by a free amount (spec/00 R6; log 8). -/
def Cx.passTime (c : Cx) : Cx :=
  let (n, s) := c.s.drawNat
  let k := s.core c.core
  { c with s := s.setCore c.core { k with cycle := k.cycle + BitVec.ofNat 64 n } }

/-- Whether drains of the wave have not reported yet (spec/20 R349). -/
def Cx.drains (c : Cx) : Bool :=
  ((c.s.core c.core).engine.any fun o => o.wave == c.ref && match o.op with
    | .drain .. | .pdrain .. => true
    | _ => false) ||
  c.s.jobs.any fun j => j.wave == some c.ref && j.kind.isDrain

/-- The destination registers of SRR. -/
def srrOpds (d : VS) (w : SrWidth) : List Opd :=
  match d, w with
  | .v n, .w64 => [wrV n true]
  | .v n, _ => [wrV n false]
  | .s n, .mask => [wrS n 2]
  | .s n, _ => [wrS n 1]

def execSrr (h : Hdr) (d : VS) (sr : BitVec 8) (s : State) : Host.Outcome State Fault Refusal :=
  let w := (srWidth sr).getD .w32
  issue h { len := 8, ops := srrOpds d w, badSr := (srWidth sr).isNone,
            badReg := (match d with
              | .s n => w == .mask && n == 255
              | .v _ => false) } (fun c act =>
    if sr == 0x07 && c.drains then .wait c.s .retry
    else
      let c := if sr == 0x05 then c.passTime else c
      let v := c.srValue (c.s.core c.core).cycle sr.toNat
      match d with
      | .v n => .done c fun r => r.put (.v n (w == .w64)) act v
      | .s n =>
        if w == .mask then
          .done c fun r => (r.setScalar n.toNat (c.trapMask.extractLsb' 0 64)).setScalar (n.toNat + 1) (c.trapMask.extractLsb' 64 64)
        else .done c fun r => r.setScalar n.toNat (v (lowestLane act))) s

/-- A 1 written to sr.status clears UNALLOC, REBOUND or RESUMED (R96). -/
def clearStatus (old w : DWord) : DWord := old &&& ~~~(w &&& (stUnalloc ||| stRebound ||| stResumed))

def execSrw (h : Hdr) (sr b : BitVec 8) (s : State) : Host.Outcome State Fault Refusal :=
  issue h { len := 8, uni := true, ops := [rdS b 1], badSr := sr != 0x07 && sr != 0x08 } (fun c act =>
    let x := c.scl b (lowestLane act)
    if sr == 0x07 then .done (c.setWv { c.wv with status := clearStatus c.wv.status x }) id
    else .done c fun r => { r with fstat := x.extractLsb' 0 6 }) s

/-! ### The trap frame (R285 to R287) -/

def noFrame (act : Mask) : TrapInfo := laneTrap tIllop 0x0F 0 act

/-- The frame that XRD, XWR and RTT act on, or NOFRAME. -/
def onFrame (body : Cx → Mask → Frame → Res) (c : Cx) (act : Mask) : Res :=
  match c.wv.frame with
  | none => .trap c.s (noFrame act)
  | some f => body c act f

def xnumOpds : XNum → List Opd
  | .imm _ => []
  | .scl n => [rdS n 1]

/-- The number of the interrupted register. -/
def Cx.xnum (c : Cx) (n : XNum) (act : Mask) : Nat :=
  match n with
  | .imm k => k.toNat
  | .scl k => (c.scl k (lowestLane act)).toNat % 4096

/-- A lane of an interrupted register, and a pair whose number's bit 0 is ignored; out of range it is unwritten. -/
def Frame.lane (f : Frame) (n l : Nat) : Option Word := if n < f.regs.nv then f.regs.lane n l else none

def Frame.pair (f : Frame) (n l : Nat) : Option Word × Option Word :=
  let n := n / 2 * 2
  if n + 1 < f.regs.nv then (f.regs.lane n l, f.regs.lane (n + 1) l) else (none, none)

def low8 (f : BitVec 12) : BitVec 8 := f.extractLsb' 0 8

def low3 (f : BitVec 12) : BitVec 3 := f.extractLsb' 0 3

def xrdOpds (sp : XSpace) (d : BitVec 12) : List Opd :=
  match sp with
  | .v => [wrV d false]
  | .v64 => [wrV d true]
  | .s => [wrS (low8 d) 1]
  | .p => [wrP (low3 d)]

/-- The vector registers of the interrupted group that XRD reads. -/
def xrdRegs (sp : XSpace) (k : Nat) : List Nat :=
  match sp with
  | .v => [k]
  | .v64 => [k / 2 * 2, k / 2 * 2 + 1]
  | .s | .p => []

def execXrd (h : Hdr) (sp : XSpace) (d : BitVec 12) (n : XNum) (s : State) : Host.Outcome State Fault Refusal :=
  issue h { len := 12, ops := xnumOpds n ++ xrdOpds sp d } (onFrame fun c act f =>
    let k := c.xnum n act
    let worn := c.regWorn act false (xrdRegs sp k)
    if worn != 0 then .trap c.s (uceTrap 2 worn)
    else if c.regsSick false (c.absent false (xrdRegs sp k)) then .trap c.s (uceTrap 1 act)
    else .done c fun r =>
      match sp with
      | .v => r.putTagged d false act fun l => (f.lane k l, none)
      | .v64 => r.putTagged d true act (f.pair k)
      | .s => r.setScalar (low8 d).toNat (if k < 256 then f.regs.scalar k else 0)
      | .p => r.setPred (low3 d).toNat act (if k < 8 then f.regs.pred k else 0)) s

def xwrOpds (sp : XSpace) (b : BitVec 12) : List Opd :=
  match sp with
  | .v => [rdRaw b false]
  | .v64 => [rdRaw b true]
  | .s => [rdS (low8 b) 1]
  | .p => [rdP (low3 b)]

/-- The interrupted registers after XWR; an out-of-range number is discarded. -/
def Cx.writeFrame (c : Cx) (sp : XSpace) (k : Nat) (b : BitVec 12) (act : Mask) (r : RegCtx) : RegCtx :=
  match sp with
  | .v => if k < r.nv then r.setRow k act fun l => (c.tagged b l).1 else r
  | .v64 => if k / 2 * 2 + 1 < r.nv then r.setPair (k / 2 * 2) act (c.tagged b) else r
  | .s => r.setScalar k (c.scl (low8 b) (lowestLane act))
  | .p => r.setPred k act (c.rv.pred (low3 b).toNat)

def execXwr (h : Hdr) (sp : XSpace) (n : XNum) (b : BitVec 12) (s : State) : Host.Outcome State Fault Refusal :=
  issue h { len := 12, ops := xnumOpds n ++ xwrOpds sp b,
            lastB := match sp with
              | .v => regsOf b false
              | .v64 => regsOf b true
              | _ => [] } (onFrame fun c act f =>
    .done (c.setWv { c.wv with frame := some { f with regs := c.writeFrame sp (c.xnum n act) b act f.regs } }) id) s

/-- RTT resumes at sr.trappc plus 4 times bits [4:2] of the scalar. -/
def execRtt (h : Hdr) (a : BitVec 8) (s : State) : Host.Outcome State Fault Refusal :=
  issue h { len := 8, uni := true, ops := [rdS a 1] } (onFrame fun c act f =>
    let n := ((c.scl a (lowestLane act)).extractLsb' 2 3).toNat
    .left (Cx.counted (Cx.leaveHandler { c with s := c.s.tick } (ptrAdd f.trap.pc ((4 * n : Nat) : Int))) h)) s

/-- RTT.br resumes at the scalar's target, on a 64-byte block (spec/11 R180). -/
def execRttBr (h : Hdr) (a : BitVec 8) (s : State) : Host.Outcome State Fault Refusal :=
  issue h { len := 8, uni := true, ops := [rdS a 1] } (onFrame fun c act _ =>
    let target := c.scl a (lowestLane act)
    if target.toNat % 64 == 0 then .left (Cx.counted (Cx.leaveHandler { c with s := c.s.tick } target) h)
    else .trap c.s (laneTrap tAlign 0 (infoLine target) act)) s

end Sys2Proof.Machine
end

