-- ==== Sys2Proof/Machine/Events.lean ====
section
/-!
DEFINITION. What arrives at a core or a wave: polls (spec/16 R300), register-cache lines (spec/04 R92), lines and translations
(spec/01 R19, R25, spec/02 R45), and forwarded lines (spec/01 R27, R29).
-/

namespace Sys2Proof.Machine

/-! ### WAITV_POLL (R252, R300) -/

/-- A wave between polls polls again, as the instruction it waits in; a poll whose line its owner has still to send goes on with it. -/
def execWaitvPoll (w : WaveRef) (s : State) : Host.Outcome State Fault Refusal :=
  match (s.cxOf w).bind fun c => c.wv.wait with
  | some (.waitv op inst grp prio last none) =>
    match s.cxAt { ref := w, grp := grp, inst := inst }, op with
    | some c, .waitv h ne lvl t d base src =>
      if c.blk.runs && decide (grp < c.wv.groups.length) then
        let c := c.setWv { c.wv with wait := none, pend := [] }
        .next (Cx.issued { c with rv := c.wv.regs } h (waitvInfo t lvl d base src)
          (onPath 0 (waitvPoll op ne lvl t d base src (some (prio, last))))).close
      else .next s
    | _, _ => .next s
  | _ => .next s

/-! ### The register cache (R92) -/

/-- The registers a cache line of a wave stands for: the deck's, or the handler window's. -/
def Wave.cacheRegs (w : Wave) (window : Bool) : RegCtx :=
  match w.frame, window with
  | some f, false => f.regs
  | _, _ => w.regs

def State.rcWave (s : State) (x : RcLine) : Wave := (s.block? x.lid x.rank).elim Wave.default fun b => b.wave x.wave

/-- A register with no live lane. -/
def deadReg (r : RegCtx) (n : Nat) : Bool := (List.range Config.W).all fun l => (r.lane n l).isNone

/-- The next victim: a line with no live lane, then a line of a stock wave, then the one used longest ago. -/
def State.rcVictim (s : State) (lines : List RcLine) : Option RcLine :=
  let dead := lines.find? fun x => deadReg ((s.rcWave x).cacheRegs x.window) x.reg
  match dead, lines.find? fun x => (s.rcWave x).stock with
  | some x, _ => some x
  | none, some x => some x
  | none, none =>
    match minList (lines.map (·.used)) with
    | none => none
    | some n => lines.find? fun x => x.used == n

/-! #### Deck lines of a column cache (spec/02 R43) -/

/-- A line of a block's deck, or of a window of its waves, as the column cache of its cluster or memory has it. -/
def State.deckLine (s : State) (cluster addr : Nat) : LineData :=
  match s.deckLines.find? fun x => x.cluster == cluster && x.addr == addr with
  | some x => x.data
  | none => memLine s.mem addr

/-- A deck line enters a column cache; where gang lines take every way of its set, a dirty one goes to its D location at once. -/
def State.keepDeck (s : State) (x : DeckLine) : State :=
  let old := s.deckLines.find? fun y => y.cluster == x.cluster && y.addr == x.addr
  match old with
  | some o =>
    let x := { x with dirty := x.dirty || o.dirty }
    { s with deckLines := s.deckLines.map fun y => if y.cluster == x.cluster && y.addr == x.addr then x else y }
  | none =>
    if s.gangWays x.cluster x.set < 16 then
      let s := s.colMake x.cluster x.set
      { s with deckLines := x :: s.deckLines }
    else if x.dirty then s.devPut x.addr (lineBytes x.data)
    else s

/-- Bytes of a block's deck or window as a line of its column cache. -/
def State.toDeck (s : State) (b : Block) (addr : Nat) (bs : List Byte) (dirty : Bool) : State :=
  let at_ := addr / 64 * 64
  let cl := clusterOf b.core
  let old := lineBytes (s.deckLine cl at_)
  let bytes := old.take (addr - at_) ++ bs ++ old.drop (addr - at_ + bs.length)
  let t := (s.launch? b.lid).elim 0 (·.src.fn)
  s.keepDeck { cluster := cl, lid := b.lid, rank := b.rank, tenant := t, addr := at_, data := BitVec.ofNat 512 (bytesNat bytes), dirty := dirty }

/-- Where the deck, or the handler's window, of its block holds a register-cache line: the block, the row and the unwritten tags. -/
def State.rcPlace (s : State) (x : RcLine) : Option (Block × Nat × Nat) :=
  match s.block? x.lid x.rank, s.launch? x.lid with
  | some b, some l => some (b, b.regAt l.hdr.nv x.wave x.window x.reg)
  | _, _ => none

/-- A victim leaves; a dirty one with a live lane is written back to the deck. -/
def State.rcEvict (s : State) (core : Nat) (x : RcLine) : State :=
  let r := (s.rcWave x).cacheRegs x.window
  let s := if x.dirty && !deadReg r x.reg then
      match s.rcPlace x with
      | some (b, a, t) =>
        let row := rowBytes r x.reg
        let s := (List.range 8).foldl (fun s i => s.toDeck b (a + 64 * i) ((row.drop (64 * i)).take 64) true) s
        s.toDeck b t (natBytes 16 (unwrittenMask r x.reg).toNat) true
      | none => s
    else s
  let k := s.core core
  s.setCore core { k with regCache := k.regCache.filter (· != x) }

/-- The set that a line falls into. -/
def RcLine.set (x : RcLine) : Nat := Config.regSet [x.lid, x.rank, x.wave, x.window.toNat, x.reg] % 768

/-- A set of the register cache holds sixteen lines: the others leave, each the next victim. -/
def State.rcTrimSet (s : State) (core set : Nat) : Nat → State
  | 0 => s
  | n + 1 =>
    let lines := (s.core core).regCache.filter fun x => x.set == set
    if lines.length ≤ 16 then s
    else
      match s.rcVictim lines with
      | some x => (s.rcEvict core x).rcTrimSet core set n
      | none => s

/-- Room in the sets of the lines that were used last. -/
def State.rcTrim (s : State) (core : Nat) : State :=
  let lines := (s.core core).regCache
  if lines.length ≤ 16 then s
  else
    let last := lines.foldl (fun n x => max n x.used) 0
    let sets := ((lines.filter fun x => x.used == last).map (·.set)).eraseDups
    sets.foldl (fun s n => s.rcTrimSet core n lines.length) s

/-- A wave whose handler has returned has no window (spec/17 R311): the lines of it are gone from the register and column caches. -/
def State.rcLeft (s : State) (b : Block) (wave : Nat) : State :=
  if (b.wave wave).frame.isSome then s
  else
    let k := s.core b.core
    let gone (x : RcLine) : Bool := x.lid == b.lid && x.rank == b.rank && x.wave == wave && x.window
    if k.regCache.any gone then
      let keeps (x : DeckLine) : Bool := !(x.lid == b.lid && x.rank == b.rank) || decide (b.deck ≤ x.addr && x.addr < b.deck + b.deckSize) ||
        b.waves.any fun w => w.frame.elim false fun f => decide (f.window ≤ x.addr) && decide (x.addr < f.window + windowSize w.regs.nv)
      { s.setCore b.core { k with regCache := k.regCache.filter fun x => !gone x } with deckLines := s.deckLines.filter keeps }
    else s

/-- The register cache of a wave's core after the wave has issued. -/
def State.rcKept (s : State) (ref : WaveRef) : State :=
  match s.block? ref.lid ref.rank with
  | some b => (s.rcLeft b ref.wave).rcTrim b.core
  | none => s

/-- One register of a wave enters its core's register cache, read through the column cache; a poisoned line of it is consumed (R319). -/
def State.rcFill (s : State) (core : Nat) (x : RcLine) : State :=
  let k := s.core core
  if k.regCache.any fun y => y.lid == x.lid && y.rank == x.rank && y.wave == x.wave && y.window == x.window && y.reg == x.reg then s
  else
    let s := (s.setCore core { k with regCache := x :: k.regCache }).rcTrimSet core x.set k.regCache.length
    match s.rcPlace x with
    | some (b, a, _) =>
      let fresh := (List.range 8).filter fun i => !s.deckLines.any fun y => y.addr == a + 64 * i
      if fresh.any fun i => s.poisonIn (a + 64 * i) 64 then s.uceWave { lid := x.lid, rank := x.rank, wave := x.wave } 1 0
      else fresh.foldl (fun s i => s.toDeck b (a + 64 * i) (lineBytes (s.deckLine (clusterOf core) (a + 64 * i))) false) s
    | none => s

/-- REGCACHE_FILL: registers of a wave arrive from its deck, or from its handler's window. -/
def execRegcacheFill (w : WaveRef) (regs : List Nat) (s : State) : Host.Outcome State Fault Refusal :=
  match s.block? w.lid w.rank with
  | none => .next s
  | some b =>
    if b.place != .resident then .next s
    else
      let v := b.wave w.wave
      let s := s.tick
      .next ((regs.filter fun n => decide (n < v.regs.nv)).foldl (fun (s : State) n =>
        s.rcFill b.core { lid := w.lid, rank := w.rank, wave := w.wave, window := v.frame.isSome, reg := n, dirty := false, used := s.stamp }) s)

/-! ### Lines and translations (spec/01 R19, R25; spec/02 R45, R47) -/

/-- Replacement in an instruction cache, as in L1. -/
def State.evictI (s : State) (core : Nat) : State :=
  let (n, s) := s.drawNat
  let k := s.core core
  match k.icache[n]? with
  | some l => s.setCore core { k with icache := k.icache.filter (· != l) }
  | none => s

/-- Read a line for fetching at D, and keep it in the core's instruction cache (spec/09 R170), with its place and check value. -/
def State.fetchLine (s : State) (core : Nat) (c : Ctx) (line : Nat) : State × ReadResult :=
  match s.readD c line .fetch false with
  | (s, .ok d p) =>
    if p then (s, .ok d p)
    else
      let s := s.evictI core
      let k := s.core core
      match s.l2? c.tenant c.asid line with
      | some l => (s.setCore core { k with icache := l.copy d :: k.icache }, .ok d p)
      | none => (s, .ok d p)
  | r => r

/-- LINE_FILL: a line enters the caches after its checks, and one of L2 may make room for it; a line that fails them enters none. -/
def execLineFill (core fn ctx : Nat) (ptr : DWord) (acc : Access) (s : State) : Host.Outcome State Fault Refusal :=
  match s.ctx? fn ctx with
  | none => .next s
  | some c =>
    let held (s : State) : Bool := (s.l2? c.tenant c.asid (lineNo ptr)).isSome
    let t := match acc with
      | .read => (s.readCore core c (lineNo ptr)).1
      | .fetch => (s.fetchLine core c (lineNo ptr)).1
      | .write | .atomic => (s.fill c (lineNo ptr) acc false).1
    .next (if held t && !held s then t.evictL2 else t)

/-- PAGE_WALK: a walk's translation enters the TLB of the line's home; a walk that fails leaves nothing. -/
def execPageWalk (fn ctx : Nat) (ptr : DWord) (s : State) : Host.Outcome State Fault Refusal :=
  match s.ctx? fn ctx with
  | none => .next s
  | some c => .next (s.translate c (lineNo ptr)).1

/-! ### FORWARD_RESPONSE (R27, R29, R339) -/

/-- The line that a wave has asked an owner for, and whether an atomic waits for it. -/
def Wait.asks : Wait → Option (Nat × Bool)
  | .forward line atomic => some (line, atomic)
  | .waitv _ _ _ _ _ asked => asked.map (·, false)
  | .link line => some (line, true)
  | _ => none

/-- What the wave waits for once the line has come, or the link is there: it tries its instruction again, and a poll polls again. -/
def Wait.come : Wait → Option Wait
  | .waitv op inst grp prio last _ => some (.waitv op inst grp prio last none)
  | _ => none

/-- Waves whose commits and atomics have all been acknowledged go on (spec/09 R161, R163). -/
def State.endAcks (s : State) : State :=
  let free (b : Block) (w : Wave × Nat) : Wave :=
    if w.1.wait == some .acks && !s.awaitsAck { lid := b.lid, rank := b.rank, wave := w.2 } then { w.1 with wait := none } else w.1
  { s with blocks := s.blocks.map fun b => if b.waves.any (·.wait == some .acks) then { b with waves := b.waves.zipIdx.map (free b) } else b }

/-- The owner's line arrives: the access is counted, L2 holds the line, and the wave tries its instruction again; an atomic that waited
for a link only is tried again. While no link leads to the owner nothing arrives. -/
def execForwardResponse (w : WaveRef) (s : State) : Host.Outcome State Fault Refusal :=
  match s.cxOf w with
  | none => .next s
  | some c =>
    match c.wv.wait.bind fun k => k.asks.map (k, ·) with
    | some (k, line, atomic) =>
      if !s.reachable c.ctx line then .next s
      else
        let s := match k with
          | .link _ => s
          | _ =>
            let s := s.countForward c.ctx line
            match s.fill c.ctx line (if atomic then .atomic else .read) true with
            | (s, .fail _ _) => if atomic then s else (s.fill c.ctx line .fetch true).1
            | (s, _) => s
        .next (s.setBlock (c.blk.setWave w.wave { c.wv with wait := k.come }))
    | none => .next s

end Sys2Proof.Machine
end

