-- ==== Sys2Proof/Machine/Commands.lean ====
section
/-!
DEFINITION. The tenant's queue commands but for LAUNCH and migration (spec/18 R329, R331, R362, R363): copies, contexts and shares,
invalidations, dirty tracking, fault service, the debugger and keys. Their operands stand as log 14 says.
-/

namespace Sys2Proof.Machine

/-! ### COPY (R362, spec/03 R57, R65, R66) -/

/-- The copy job of a COPY command: linear, at D, for no wave. DESIGN CHOICE (log 71): its engine is the one that serves tag 0 of
cluster 0. -/
def State.copyJob (s : State) (c : CmdSrc) (ctx : Nat) (dst src len : DWord) : State :=
  let s := s.tick
  let n := len.toNat
  let j : Job :=
    { id := s.stamp, wave := none, cmd := some c, ctx := ctx, tenant := c.fn, pc := 0, core := 0, pipe := 0, tag := 0,
      kind := .linear .d dst src n (overlaps dst src n) false 0 0, row := 0, stage := [], after := [], stop := none, told := false,
      engine := s.copyEngine c.fn 0 0 }
  { s with jobs := s.jobs ++ [j] }.finishJob j.id

def execCopy (c : CmdSrc) (dst src len : DWord) (s : State) : Host.Outcome State Fault Refusal :=
  s.command c false opCopy fun s =>
    let n := (s.cmdQueue c.fn c.q).ctx
    if (s.ctx? c.fn n).isNone || decide (2 ^ 40 ≤ len.toNat) then .done s eBadCmd 0
    else if (s.tenant c.fn).own.engines == 0 then .done s eNoCopyEng 0
    else .later (s.copyJob c n dst src len)

/-! ### Contexts (R331) -/

/-- The 16 words of a descriptor as memory holds them. -/
def State.readDesc (s : State) (a : Nat) : List DWord := (List.range 16).map fun i => mem64 s.mem (a + 8 * i)

/-- Reserved bits of a descriptor are zero; words 8 and 9 are checked at each launch (R309). -/
def descOk (d : List DWord) : Bool :=
  (d.getD 0 0).toNat / 2 ^ 16 == 0 && (d.getD 5 0).toNat / 2 ^ 16 == 0 && (d.drop 12).all (· == 0)

/-- A context as CTXCREATE leaves it: no core in its share, the whole deck pool, the shortest slice, an empty table until a launch
begins. -/
def newCtx (fn n : Nat) (at_ : Nat) (d : List DWord) : Ctx :=
  { tenant := fn, num := n, desc := d, descAt := at_, table := [], hentry := d.getD 8 0, h1 := d.getD 9 0, cores := [],
    caps := [], poolBase := (d.getD 6 0).toNat, poolSize := (d.getD 7 0).toNat, slice := 65536, credit := 0, turn := false,
    spent := false, pool := [], shadow := [], hinted := [], sharing := none }

def execCtxcreate (c : CmdSrc) (ctx : Nat) (desc : DWord) (s : State) : Host.Outcome State Fault Refusal :=
  s.command c false opCtxCreate fun s =>
    let d := s.readDesc desc.toNat
    let x := newCtx c.fn ctx desc.toNat d
    let taken := (s.ctx? c.fn ctx).isSome || s.ctxs.any fun y => y.tenant == c.fn && y.asid == x.asid
    if taken || decide (4096 ≤ ctx) || desc.toNat % 128 != 0 || !descOk d then .done s eBadCmd 0
    else .done { s with ctxs := x :: s.ctxs } eOk 0

/-- Whether a context has a launch or a copy that is not over. -/
def State.ctxBusy (s : State) (x : Ctx) : Bool :=
  !(s.launchesOf x.tenant x.num).isEmpty || s.jobs.any (fun j => j.tenant == x.tenant && j.ctx == x.num) || x.sharing.isSome

def execCtxdestroy (c : CmdSrc) (ctx : Nat) (s : State) : Host.Outcome State Fault Refusal :=
  s.command c false opCtxDestroy fun s =>
    match s.ctx? c.fn ctx with
    | none => .done s eBadCmd 0
    | some x =>
      if s.ctxBusy x then .done s eBusy 0
      else .done ({ s with ctxs := s.ctxs.filter fun y => !(y.tenant == x.tenant && y.num == x.num) }.settleTurn c.fn) eOk 0

/-! ### SHARE (spec/04 R84, R87; spec/16 R302; spec/23 R355, R356) -/

/-- The resident blocks of a context that its share no longer holds: those on cores it has lost, and on each core the ones beyond its
caps. DESIGN CHOICE (log 27): of the blocks of a core the ones placed earlier stay, as far as the core's cap holds them. -/
def State.outOfShare (s : State) (x : Ctx) : List Block :=
  let mine := (s.blocksOf x.tenant x.num).filter fun b => b.place == .resident
  (mine.foldl (fun (k : List Block × List Block) b =>
    let here := k.1.filter fun y => y.core == b.core
    if x.cores.contains b.core && ((s.use here).add (s.blockNeed b)).le (x.capsOf b.core) then (k.1 ++ [b], k.2) else (k.1, k.2 ++ [b]))
    ([], [])).2

/-- A wave waits in BARW or BARS (R355). -/
def Wave.atBarrier (w : Wave) : Bool :=
  w.alive != 0 && match w.wait with
    | some (.barw _ _) | some .phase => true
    | _ => false

/-- Mark a unit to move; a block of which some wave waits at a barrier has a window. -/
def State.markMove (s : State) (b : Block) : State :=
  (s.unitOf b).foldl (fun (s : State) x => match s.block? x.lid x.rank with
    | some x => if x.moveWanted then s else s.setBlock { x with moveWanted := true, window := x.waves.any (·.atBarrier) }
    | none => s) s

/-- Set a share and mark what must move; SHARE completes once nothing of it is still to move. -/
def State.setShare (s : State) (c : CmdSrc) (x : Ctx) : State :=
  let s := s.setCtx { x with sharing := some c }
  let s := (s.outOfShare x).foldl (fun s b => s.markMove b) s
  (s.settleShare x.tenant x.num).settleTurn x.tenant

def execShare (c : CmdSrc) (ctx : Nat) (coreSet : List Nat) (caps : List Caps) (poolBase poolSize : DWord) (slice : Nat) (s : State) :
    Host.Outcome State Fault Refusal :=
  s.command c false opShare fun s =>
    match s.ctx? c.fn ctx with
    | none => .done s eBadCmd 0
    | some x =>
      if decide (slice < 65536) || decide (2 ^ 32 ≤ slice) || coreSet.any (fun k => decide (288 ≤ k)) || caps.length != coreSet.length then
        .done s eBadCmd 0
      else if x.sharing.isSome then .wait
      else
        .later (s.setShare c { x with cores := coreSet, caps := caps, poolBase := poolBase.toNat, poolSize := poolSize.toNat,
                                      slice := slice })

/-! ### Invalidations (spec/01 R20, R26; spec/15 R281) -/

/-- Lines of an address space that satisfy p leave every level, dirty ones written back (R20, R26). -/
def State.dropLines (s : State) (t asid : Nat) (p : Nat → Bool) : State :=
  let s := s.leaveL2 fun l => !l.phys && l.tenant == t && l.asid == asid && p l.line
  let stays (l : CoreLine) : Bool := !(l.tenant == t && l.asid == asid && p l.line)
  { s with cores := s.cores.map fun k => { k with l1 := k.l1.filter stays, icache := k.icache.filter stays } }

/-- Waves run on from the instruction lines they execute from, though their page is invalidated (R26). -/
def State.runOnFrom (s : State) (t asid : Nat) (p : Nat → Bool) : State :=
  { s with blocks := s.blocks.map fun b =>
      { b with waves := b.waves.map fun w =>
          { w with runOn := ((s.core b.core).icache.filter fun l => l.tenant == t && l.asid == asid && p l.line &&
                              w.groups.any fun g => lineNo g.pc == l.line) ++ w.runOn } } }

def execReginval (c : CmdSrc) (ctx : Nat) (region : BitVec 8) (s : State) : Host.Outcome State Fault Refusal :=
  s.command c false opRegInval fun s =>
    match s.ctx? c.fn ctx with
    | none => .done s eBadCmd 0
    | some x => .done (s.dropLines x.tenant x.asid fun line => ridOf line == region.toNat) eOk 0

/-- A line of a page, and a translation that meets it. -/
def inPage (va size line : Nat) : Bool := 64 * lineVa line / size == va / size

def TlbEntry.meets (e : TlbEntry) (va size : Nat) : Bool :=
  decide (e.base < va / size * size + size) && decide (va / size * size < e.base + 2 ^ e.log)

/-- A held write goes to the page's owner as the tables name it now (spec/18 R339): line by line, the masked bytes of a first or last
line only. -/
def State.reroute (s : State) (x : Ctx) (line : Nat) (h : HeldPacket) : State :=
  let ops := bytesNat h.sent.packet.ops
  let mask (i : Nat) : ByteMask :=
    let m := if i == 0 then ops / 2 ^ 16 % 2 ^ 64 else if i + 1 == h.sent.packet.lines.length then ops / 2 ^ 80 % 2 ^ 64 else 0
    if m == 0 then BitVec.allOnes 64 else BitVec.ofNat 64 m
  let sick := h.sent.packet.poison.toNat + bytesNat (h.sent.packet.ops.take 2) % 2 ^ 16 * 2 ^ 20
  let w : Writer := match h.sent.wave with
    | some r => { lvl := .s, lid := some r.lid, block := r.rank, wave := r.wave, gang := 0, engine := false, job := h.sent.job }
    | none => { lvl := if h.sent.lid.isSome then .s else .d, lid := h.sent.lid, block := 0, wave := 0, gang := 0, engine := true,
                job := h.sent.job }
  let s := match h.sent.settles with
    | some id => { s with unsettled := s.unsettled.filter fun u => u.id != id }
    | none => s
  h.sent.packet.lines.zipIdx.foldl (fun (s : State) d =>
    (s.writeD x { w with poison := sick / 2 ^ d.2 % 2 == 1 } (lineNo (ptrAdd (linePtr line) (64 * d.2 : Nat))) (mask d.2) d.1).1) s

/-- The first line of a write of a context's page. -/
def SentPacket.inPage (sp : SentPacket) (x : Ctx) (va size : Nat) : Option Nat :=
  match sp.va with
  | some (n, line) => if n == x.num && Machine.inPage va size line then some line else none
  | none => none

/-- The writes of a page that ports which are down have sent and not had acknowledged: they go elsewhere too, and what stays of them in the
replay buffer keeps its place in the sequence and nothing else (log 73). -/
def State.takeDead (s : State) (x : Ctx) (va size : Nat) : State × List HeldPacket :=
  let dead := (List.range 8).filter fun n => (s.port n).state == 0 && (s.tenant x.tenant).own.ports.getLsbD n
  let mine (sp : SentPacket) : Bool := (sp.inPage x va size).isSome
  let took := dead.flatMap fun n => ((s.port n).buffer.filter mine).map fun sp =>
    ({ tenant := x.tenant, peer := (s.port n).far.toNat, sent := sp } : HeldPacket)
  let leave (sp : SentPacket) : SentPacket :=
    if mine sp then { packet := sp.packet, job := none, lid := none, va := none } else sp
  (dead.foldl (fun s n => s.setPort n { s.port n with buffer := (s.port n).buffer.map leave }) s, took)

/-- Held accesses of a page: writes go to the new owner, and who waits for its lines tries again (spec/18 R339). -/
def State.freePage (s : State) (x : Ctx) (va size : Nat) : State :=
  let mine (h : HeldPacket) : Option Nat := if h.tenant == x.tenant then h.sent.inPage x va size else none
  let (s, dead) := s.takeDead x va size
  let held := dead ++ s.heldPackets
  let s : State := { s with heldPackets := s.heldPackets.filter fun h => (mine h).isNone }
  let s := held.foldl (fun (s : State) h => match mine h with
    | some line => s.reroute x line h
    | none => s) s
  let free (w : Wave) : Wave := match w.wait.bind fun k => k.asks.map (k, ·) with
    | some (k, line, _) => if inPage va size line then { w with wait := k.come } else w
    | none => w
  let job (j : Job) : Job :=
    if j.tenant == x.tenant && j.ctx == x.num && j.asked.elim false (inPage va size) then { j with asked := none } else j
  let s : State :=
    { s with blocks := s.blocks.map fun b => if s.ofCtx x.tenant x.num b then { b with waves := b.waves.map free } else b,
             jobs := s.jobs.map job,
             launches := s.launches.map fun l =>
               if l.src.fn == x.tenant && l.ctx == x.num then { l with asked := l.asked.filter fun n => !inPage va size n } else l }
  -- copies whose last packet has gone elsewhere may be over
  ((s.jobs.map (·.id)).foldl (fun s id => s.finishJob id) s).endAcks

def execPageinval (c : CmdSrc) (ctx : Nat) (va size : DWord) (s : State) : Host.Outcome State Fault Refusal :=
  s.command c false opPageInval fun s =>
    match s.ctx? c.fn ctx with
    | none => .done s eBadCmd 0
    | some x =>
      if !([4096, 65536, 2097152, 1073741824].contains size.toNat) then .done s eBadCmd 0
      else
        let a := va.toNat % 2 ^ 56
        let s : State := { s with tlb := s.tlb.filter fun e => !(e.tenant == x.tenant && e.asid == x.asid && e.meets a size.toNat),
                                  walkCache := s.walkCache.filter fun e => !(e.tenant == x.tenant && e.asid == x.asid) }
        .done (((s.runOnFrom x.tenant x.asid (inPage a size.toNat)).dropLines x.tenant x.asid (inPage a size.toNat)).freePage x a size.toNat) eOk 0

/-- Word 0 of an entry with V = 0. -/
def clearV (e : TEntry) : TEntry := setAt 0 0 (entW e 0 &&& ~~~((1 : DWord) <<< 63)) e

/-- V = 0 in an entry of the loaded table and of the table in memory (R281). -/
def State.clearHandle (s : State) (x : Ctx) (n : Nat) : State :=
  let s := s.setCtx { x with table := setAt [] n (clearV (x.table.getD n [])) x.table }
  let a := x.ttBase + 64 * n
  s.writePhys x.tenant a 0x80 (memLine s.mem a &&& ~~~((1 : LineData) <<< 63))

def execHandleinval (c : CmdSrc) (ctx : Nat) (hn : BitVec 8) (s : State) : Host.Outcome State Fault Refusal :=
  s.command c false opHandleInval fun s =>
    match s.ctx? c.fn ctx with
    | none => .done s eBadCmd 0
    | some x => .done (s.clearHandle x hn.toNat) eOk 0

/-! ### Dirty tracking (spec/01 R33, R34) -/

/-- Forget that lines have been reported: the next write to one of them sets its frame's bit again. -/
def State.unreport (s : State) (t : Nat) (p : Nat → Bool) : State :=
  { s with l2 := s.l2.map fun l =>
      if l.owner == .loc && (s.frameBit t l.addr).elim false p then { l with reported := false } else l }

/-- Read and clear the bits of words of a tenant's bitmap. -/
def State.takeDirty (s : State) (t base first count : Nat) : State × List Byte :=
  let a := base + 8 * first
  let bits := memBytes s.mem a (8 * count)
  let s := s.putBytes a (List.replicate (8 * count) 0)
  (s.unreport t fun b => decide (64 * first ≤ b) && decide (b < 64 * (first + count)), bits)

def execDirtyrc (c : CmdSrc) (first count dst : DWord) (s : State) : Host.Outcome State Fault Refusal :=
  s.command c false opDirtyRc fun s =>
    match (s.tenant c.fn).track with
    | none => .done s eBadCmd 0
    | some (base, size) =>
      if size / 8 < first.toNat + count.toNat then .done s eBadCmd 0
      else
        let (s, bits) := s.takeDirty c.fn base first.toNat count.toNat
        .done (s.writeRing dst bits) eOk count.toNat

/-- TRACKSET: a zero pointer turns tracking off. -/
def execTrackset (c : CmdSrc) (ptr size : DWord) (s : State) : Host.Outcome State Fault Refusal :=
  s.command c false opTrackSet fun s =>
    let t := s.tenant c.fn
    if ptr == 0 then .done (s.setTenant c.fn { t with track := none }) eOk 0
    else if ptr.toNat % 4096 != 0 || decide (size.toNat < 32768 * t.regions.length) then .done s eBadCmd 0
    else .done ((s.setTenant c.fn { t with track := some (ptr.toNat, size.toNat) }).unreport c.fn fun _ => true) eOk 0

/-! ### Fault service (R316, R362, R363) -/

/-- The COPY that a fault record names. -/
def State.stoppedCopy (s : State) (fn q : Nat) (seq block : DWord) : Option Job :=
  if block != 0 then none
  else s.jobs.find? fun j => j.stop.isSome && match j.cmd with
    | some src => src.fn == fn && src.q == q && src.seq == seq
    | none => false

/-- The launch's block of a tenant that satisfies p, named by SEQ, rank and queue (R363). -/
def State.namedBlock (s : State) (fn q : Nat) (seq block : DWord) (p : Launch → Block → Bool) : Option (Launch × Block) :=
  s.launches.findSome? fun l =>
    if l.src.fn == fn && l.src.q == q && l.src.seq == seq then
      match s.block? l.lid block.toNat with
      | some b => if p l b then some (l, b) else none
      | none => none
    else none

/-- A block off its core on a MEMFAULT that is not yet resumed or failed. -/
def Block.served (b : Block) : Bool := b.faulted && b.place != .resident

/-- A served block may return; copies of a retired block go on. -/
def State.resumeBlock (s : State) (b : Block) : State :=
  let s := s.setBlock { b with faulted := false }
  if b.place == .retired then
    { s with jobs := s.jobs.map fun j => if j.ofBlock b then { j with stop := none, told := false } else j }
  else s

def execFaultresume (c : CmdSrc) (fseq block : DWord) (fq : Nat) (s : State) : Host.Outcome State Fault Refusal :=
  s.command c false opFaultResume fun s =>
    match s.stoppedCopy c.fn fq fseq block with
    | some j => .done (s.setJob { j with stop := none, told := false }) eOk 0
    | none =>
      match s.namedBlock c.fn fq fseq block fun _ b => b.served with
      | some (_, b) => .done ((s.resumeBlock b).settleTurn c.fn) eOk 0
      | none => .done s eBadCmd 0

/-- A COPY that fails completes with the class of its fault; the lines it has written stay. -/
def State.failCopy (s : State) (j : Job) : State :=
  let s : State := { s with jobs := s.jobs.filter fun x => x.id != j.id }
  match j.cmd with
  | some src => s.complete src opCopy (eTrap tMemFault) 0
  | none => s

def execFaultfail (c : CmdSrc) (fseq block : DWord) (fq : Nat) (s : State) : Host.Outcome State Fault Refusal :=
  s.command c false opFaultFail fun s =>
    match s.stoppedCopy c.fn fq fseq block with
    | some j => .done (s.failCopy j) eOk 0
    | none =>
      match s.namedBlock c.fn fq fseq block fun _ b => b.served with
      | some (l, _) => .done (s.endLaunch l (eTrap tMemFault)) eOk 0
      | none => .done s eBadCmd 0

/-! ### The debugger (R318, R357, R363) -/

/-- A block of a launch in progress, resident or off its core, that is not halted. -/
def haltable (l : Launch) (b : Block) : Bool := l.state == .running && b.place != .retired && !b.halted

/-- A block is held until it can halt. -/
def State.holdBlock (lid rank : Nat) (s : State) : State :=
  match s.block? lid rank with
  | some b => s.setBlock { b with leaving := true }
  | none => s

def execDebughalt (c : CmdSrc) (fseq : DWord) (block : BlockName) (s : State) : Host.Outcome State Fault Refusal :=
  s.command c false opDebugHalt fun s =>
    match s.namedBlock c.fn block.queue fseq block.rank haltable with
    | none => .done s eBadCmd 0
    | some (_, b) =>
      if b.place == .resident then
        match s.haltBlock b with
        | none => .hold (State.holdBlock b.lid b.rank)
        | some s => .done s eOk 0
      else .done (s.setBlock { b with halted := true }) eOk 0

/-- DEBUGWRITE: bytes into the deck of a halted block; how many stands in a further operand (log 14). -/
def execDebugwrite (c : CmdSrc) (fseq : DWord) (block : BlockName) (off src len : DWord) (s : State) : Host.Outcome State Fault Refusal :=
  s.command c false opDebugWrite fun s =>
    match s.namedBlock c.fn block.queue fseq block.rank fun _ b => b.halted with
    | none => .done s eBadCmd 0
    | some (l, b) =>
      if b.deckSize < off.toNat + len.toNat then .done s eBadCmd 0
      else .done (s.writeDeckBytes b l.hdr.nv off.toNat (s.readRing src len.toNat)) eOk 0

def execDebugresume (c : CmdSrc) (fseq : DWord) (block : BlockName) (s : State) : Host.Outcome State Fault Refusal :=
  s.command c false opDebugResume fun s =>
    match s.namedBlock c.fn block.queue fseq block.rank fun _ b => b.halted with
    | none => .done s eBadCmd 0
    | some (_, b) => .done ((s.releaseBlock b).settleTurn c.fn) eOk 0

/-! ### KEYSET (R340) -/

/-- KEYSET: 32 key bytes; no stream has been used under a new key. -/
def execKeyset (c : CmdSrc) (ptr : DWord) (s : State) : Host.Outcome State Fault Refusal :=
  s.command c false opKeySet fun s =>
    let key := BitVec.ofNat 256 (bytesNat (s.readRing ptr 32))
    .done (s.setTenant c.fn { s.tenant c.fn with key := some key, sent := [], received := [] }) eOk 0

end Sys2Proof.Machine
end

