-- ==== Sys2Proof/Machine/Control.lean ====
section
/-!
DEFINITION. Control flow and lane operations (spec/12 R209 to R222): branches, meeting points, exit, deliberate traps, and the
exchanges among the lanes of a group.
-/

namespace Sys2Proof.Machine

/-- Bytes only. -/
def plain (n : Nat) : Info := { len := n }

def execNop (h : Hdr) (s : State) : Host.Outcome State Fault Refusal := issue h (plain 8) (fun c _ => .done c id) s

/-- NOPL (spec/10 R177): as NOP, 12 bytes long. -/
def execNopl (h : Hdr) (s : State) : Host.Outcome State Fault Refusal := issue h (plain 12) (fun c _ => .done c id) s

/-! ### Branches (R209, R210, R212, spec/11 R180) -/

/-- A branch target lies on a 64-byte block. -/
def aligned64 (p : DWord) : Bool := p.toNat % 64 == 0

/-- ALIGN on a branch: the target's line. -/
def branchTrap (target : DWord) (lanes : Mask) : TrapInfo := laneTrap tAlign 0 (infoLine target) lanes

/-- The group split by target: the lanes of a mask at the target, the others at the next instruction. -/
def Cx.split (c : Cx) (taken : Mask) (target next : DWord) : List Group :=
  [{ c.g with lanes := taken, pc := target }, { c.g with lanes := c.g.lanes &&& ~~~taken, pc := next }]

def execBra (h : Hdr) (disp : BitVec 32) (s : State) : Host.Outcome State Fault Refusal :=
  issue h (plain 12) (fun c act =>
    let target := ptrAdd c.g.pc disp.toInt
    if aligned64 target then .go c id (c.split act target (ptrAdd c.g.pc 12)) else .trap c.s (branchTrap target act)) s

/-- The lanes of a mask gathered by target, in order of first lane. -/
def byTarget (target : Nat → DWord) : List Nat → List (DWord × Mask) → List (DWord × Mask)
  | [], acc => acc
  | l :: ls, acc =>
    byTarget target ls
      (if acc.any (fun x => x.1 == target l) then
        acc.map fun x => if x.1 == target l then (x.1, x.2 ||| laneBit l) else x
       else acc ++ [(target l, laneBit l)])

def execBrt (h : Hdr) (idx : VS) (n1 : BitVec 12) (disp : BitVec 32) (s : State) : Host.Outcome State Fault Refusal :=
  issue h { len := 16, ops := [vsOpd false false idx], lastA := vsLast false idx } (fun c act =>
    let base := ptrAdd c.g.pc disp.toInt
    let i (l : Nat) : Nat := (c.vs idx false l).toNat % 2 ^ 32
    let taken := maskOf fun l => act.getLsbD l && decide (i l ≤ n1.toNat)
    let target (l : Nat) : DWord := if taken.getLsbD l then ptrAdd base (64 * i l) else ptrAdd c.g.pc 16
    if taken != 0 && !aligned64 base then .trap c.s (branchTrap (target (lowestLane taken)) taken)
    else .go c id ((byTarget target (lanesOf c.g.lanes) []).map fun x => { c.g with lanes := x.2, pc := x.1 })) s

/-- MEET sets the meeting register of the active lanes (R211); the condition is evaluated at the end of the instruction. -/
def execMeet (h : Hdr) (disp : BitVec 32) (s : State) : Host.Outcome State Fault Refusal :=
  issue h (plain 12) (fun c act =>
    let target := ptrAdd c.g.pc disp.toInt
    if aligned64 target then
      .done (c.setWv { c.wv with mr := (lanesOf act).foldl (fun m l => setAt mrNone l target m) c.wv.mr }) id
    else .trap c.s (branchTrap target act)) s

/-- A handler whose lanes have all exited is left behind; the wave's other groups resume (log 25). -/
def Cx.endHandler (c : Cx) : Cx :=
  match c.wv.frame with
  | some f => if f.trap.mask &&& c.wv.alive == 0 && c.wv.alive != 0 then c.leaveHandler 0 else c
  | none => c

/-- EXIT (R213): the active threads end, and with the wave's last one the wave retires (spec/08 R150). -/
def execExit (h : Hdr) (s : State) : Host.Outcome State Fault Refusal :=
  issue h (plain 8) (fun c act =>
    let rest := [{ c.g with lanes := c.g.lanes &&& ~~~act, pc := ptrAdd c.g.pc 8 }]
    let c := c.exitLanes act
    if c.wv.alive == 0 then .left c.retireWave
    else if (c.wv.frame.elim false fun f => f.trap.mask &&& c.wv.alive == 0) then .left (Cx.counted (Cx.endHandler { c with s := c.s.tick }) h)
    else .go c id rest) s

/-- YIELD acts as Y = 1, and where a lane's guard is true the pipe swaps the wave with a ready stock wave (R215, `State.rehand`). An
instruction that has no active lane does nothing but advance (R194). -/
def execYield (h : Hdr) (s : State) : Host.Outcome State Fault Refusal :=
  issue { h with y := true } (plain 8) (fun c _ => .done (c.setWv { c.wv with swap := true }) id) s

/-- TRAP raises a trap of its class with IMM32 in INFO (R216, spec/17 R306). -/
def execTrap (h : Hdr) (imm : BitVec 32) (s : State) : Host.Outcome State Fault Refusal :=
  issue h (plain 12) (fun c act => .trap c.s (laneTrap tTrap 0 (imm.setWidth 64) act)) s

def execBkpt (h : Hdr) (s : State) : Host.Outcome State Fault Refusal :=
  issue h (plain 8) (fun c act => .trap c.s (laneTrap tBkpt 0 0 act)) s

/-! ### Lane operations (R217 to R222) -/

/-- The lane a SHFL reads for lane l. -/
def shflLane (m : ShMode) (l : Nat) (b : BitVec 32) : Nat :=
  match m with
  | .idx => b.toNat % Config.W
  | .xor => l ^^^ (b.toNat % Config.W)
  | .rel => (((l : Int) + b.toInt) % (Config.W : Int)).toNat

def execShfl (h : Hdr) (m : ShMode) (d a : BitVec 12) (b : VSI) (s : State) : Host.Outcome State Fault Refusal :=
  issue h { len := match b with
              | .i _ => 12
              | _ => 8,
            ops := rdRaw a false :: (vsiOpds false b ++ [wrV d false]), lastA := regsOf a false, lastB := vsiLast false b }
    (fun c act =>
      .done c fun r => r.putTagged d false act fun l =>
        let src := shflLane m l ((c.vsi b false (·.setWidth 64) l).setWidth 32)
        (c.rv.lane a.toNat (if c.g.lanes.getLsbD src then src else l), none)) s

/-- One step of LRED on two values, with flags. -/
def redStep (op : RedOp) (t : RedTy) (md : Rm) (x y : Nat) : Nat × Flags :=
  match t with
  | .int t =>
    let a := t.read (BitVec.ofNat 64 x)
    let b := t.read (BitVec.ofNat 64 y)
    (match op with
     | .add => lowBits t.width (a + b)
     | .min => lowBits t.width (min a b)
     | .max => lowBits t.width (max a b)
     | .and => x &&& y
     | .or => x ||| y
     | .xor => x ^^^ y, 0)
  | .flt f =>
    match op with
    | .min => fminmax (fmtOf f) false x y
    | .max => fminmax (fmtOf f) true x y
    | _ => fadd (fmtOf f) md false x y

/-- What an inactive lane stands for. -/
def redIdentity (op : RedOp) (t : RedTy) : Nat :=
  match t with
  | .int t =>
    match op with
    | .add | .or | .xor => 0
    | .min => lowBits t.width t.greatest
    | .max => lowBits t.width t.least
    | .and => 2 ^ t.width - 1
  | .flt f =>
    let g := fmtOf f
    match op with
    | .min => g.infCode
    | .max => g.signed true g.infCode
    | _ => g.signed true 0

def RedTy.width : RedTy → Nat
  | .int t => t.width
  | .flt f => ftyWidth f

/-- The steps s = 1, 2, 4, … of the reduction over the lanes of the wave. -/
def redSteps (op : RedOp) (t : RedTy) (md : Rm) : List Nat → List Nat × Flags → List Nat × Flags
  | [], x => x
  | k :: ks, (v, fl) =>
    let u := (List.range Config.W).map fun l => redStep op t md (v.getD l 0) (v.getD (l ^^^ k) 0)
    redSteps op t md ks (u.map (·.1), u.foldl (fun f x => f ||| x.2) fl)

def execLred (h : Hdr) (op : RedOp) (t : RedTy) (md : Rm) (d a : BitVec 12) (s : State) : Host.Outcome State Fault Refusal :=
  let wide := RedTy.width t == 64
  issue h { len := 12, ops := [rdV a wide, wrV d wide], lastA := regsOf a wide } (fun c act =>
    let first := (List.range Config.W).map fun l =>
      if act.getLsbD l then (c.vec a wide l).toNat % 2 ^ RedTy.width t else redIdentity op t
    let (v, fl) := redSteps op t md [1, 2, 4, 8, 16, 32, 64] (first, 0)
    .done c fun r => (r.put (.v d wide) act fun l =>
      match t with
      | .int t => t.result (v.getD l 0 : Nat)
      | .flt _ => BitVec.ofNat 64 (v.getD l 0)).orFlags fl) s

/-- A predicate source of a lane. -/
def Cx.predSrc (c : Cx) (neg : Bool) (p : BitVec 3) (l : Nat) : Bool := (c.rv.pred p.toNat).getLsbD l != neg

def voteResult (m : VoteMode) (vals : List Bool) : Bool :=
  match m with
  | .any => vals.any id
  | .all => vals.all id
  | .uni => vals.all id || !vals.any id

def execVote (h : Hdr) (m : VoteMode) (pd : BitVec 3) (neg : Bool) (ps : BitVec 3) (s : State) :
    Host.Outcome State Fault Refusal :=
  issue h { len := 8, ops := [rdP ps, wrP pd] } (fun c act =>
    .done c fun r => r.putPred pd false act fun _ => voteResult m ((lanesOf act).map (c.predSrc neg ps))) s

/-- BALLOT writes s(d) and s(d + 1); d = 255 is BADREG. -/
def execBallot (h : Hdr) (d : BitVec 8) (neg : Bool) (ps : BitVec 3) (s : State) : Host.Outcome State Fault Refusal :=
  issue h { len := 8, ops := [rdP ps, wrS d 2], badReg := d == 255 } (fun c act =>
    let m := maskOf fun l => act.getLsbD l && c.predSrc neg ps l
    .done c fun r => (r.setScalar d.toNat (m.extractLsb' 0 64)).setScalar (d.toNat + 1) (m.extractLsb' 64 64)) s

def psetResult (op : PsetOp) (a b : Bool) : Bool :=
  match op with
  | .and => a && b
  | .or => a || b
  | .xor => a != b

def execPset (h : Hdr) (op : PsetOp) (pd : BitVec 3) (na : Bool) (pa : BitVec 3) (nb : Bool) (pb : BitVec 3) (s : State) :
    Host.Outcome State Fault Refusal :=
  issue h { len := 8, lat := 3, ops := [rdP pa, rdP pb, wrP pd] } (fun c act =>
    .done c fun r => r.putPred pd false act fun l => psetResult op (c.predSrc na pa l) (c.predSrc nb pb l)) s

end Sys2Proof.Machine
end

