-- ==== Sys2Proof/Machine/Int.lean ====
section
/-!
DEFINITION. The integer and address instructions (spec/12 R196 to R208): each family's form is read once, and each instruction
is one function of integers or patterns over it.
-/

namespace Sys2Proof.Machine

/-! ### The two-source forms (spec/11 R185) -/

/-- What a two-source instruction says of itself: `wa`, `wb`, `wd` tell 64-bit operands. -/
def Ops2.info (o : Ops2) (lat : Nat) (wa wb wd : Bool) : Info :=
  match o with
  | .v d a b => { len := 8, lat := lat, ops := [rdV a wa, rdV b wb, wrV d wd], lastA := regsOf a wa, lastB := regsOf b wb }
  | .s d a b => { len := 8, lat := lat, ops := [rdV a wa, rdS b 1, wrV d wd], lastA := regsOf a wa }
  | .i d a _ => { len := 12, lat := lat, ops := [rdV a wa, wrV d wd], lastA := regsOf a wa }
  | .us d a b => { len := 12, lat := lat, uni := true, ops := [rdS a 1, rdS b 1, wrS d 1] }
  | .ui d a _ => { len := 12, lat := lat, uni := true, ops := [rdS a 1, wrS d 1] }

def Ops2.dst (o : Ops2) (wd : Bool) : Dst :=
  match o with
  | .v d _ _ | .s d _ _ | .i d _ _ => .v d wd
  | .us d _ _ | .ui d _ _ => .s d

def Ops2.a (o : Ops2) (c : Cx) (wa : Bool) (l : Nat) : DWord :=
  match o with
  | .v _ a _ | .s _ a _ | .i _ a _ => c.vec a wa l
  | .us _ a _ | .ui _ a _ => c.scl a l

def Ops2.b (o : Ops2) (c : Cx) (wb : Bool) (imm : BitVec 32 → DWord) (l : Nat) : DWord :=
  match o with
  | .v _ _ b => c.vec b wb l
  | .s _ _ b | .us _ _ b => c.scl b l
  | .i _ _ m | .ui _ _ m => imm m

def OpsC.info (o : OpsC) (lat : Nat) (wide : Bool) (pd : BitVec 3) : Info :=
  match o with
  | .v a b => { len := 8, lat := lat, ops := [rdV a wide, rdV b wide, wrP pd], lastA := regsOf a wide, lastB := regsOf b wide }
  | .s a b => { len := 8, lat := lat, ops := [rdV a wide, rdS b 1, wrP pd], lastA := regsOf a wide }
  | .i a _ => { len := 12, lat := lat, ops := [rdV a wide, wrP pd], lastA := regsOf a wide }
  | .us a b => { len := 12, lat := lat, uni := true, ops := [rdS a 1, rdS b 1, wrP pd] }
  | .ui a _ => { len := 12, lat := lat, uni := true, ops := [rdS a 1, wrP pd] }

def OpsC.uni : OpsC → Bool
  | .us .. | .ui .. => true
  | _ => false

def OpsC.a (o : OpsC) (c : Cx) (wide : Bool) (l : Nat) : DWord :=
  match o with
  | .v a _ | .s a _ | .i a _ => c.vec a wide l
  | .us a _ | .ui a _ => c.scl a l

def OpsC.b (o : OpsC) (c : Cx) (wide : Bool) (imm : BitVec 32 → DWord) (l : Nat) : DWord :=
  match o with
  | .v _ b => c.vec b wide l
  | .s _ b | .us _ b => c.scl b l
  | .i _ m | .ui _ m => imm m

def Ops1.info (o : Ops1) (lat : Nat) (wa wd raw : Bool) : Info :=
  match o with
  | .v d a => { len := 8, lat := lat, ops := [if raw then rdRaw a wa else rdV a wa, wrV d wd], lastA := regsOf a wa }
  | .s d a => { len := 8, lat := lat, ops := [rdS a 1, wrV d wd] }
  | .u d a => { len := 12, lat := lat, uni := true, ops := [rdS a 1, wrS d 1] }

def Ops1.dst (o : Ops1) (wd : Bool) : Dst :=
  match o with
  | .v d _ | .s d _ => .v d wd
  | .u d _ => .s d

def Ops1.a (o : Ops1) (c : Cx) (wa : Bool) (l : Nat) : DWord :=
  match o with
  | .v _ a => c.vec a wa l
  | .s _ a | .u _ a => c.scl a l

def Ops3.info (o : Ops3) (lat : Nat) (w wc : Bool) : Info :=
  match o with
  | .vec d a b c =>
    { len := 16, lat := lat, ops := vsOpd w false a :: vsOpd w false b :: (vsiOpds wc c ++ [wrV d w]),
      lastA := vsLast w a, lastB := vsLast w b, lastC := vsiLast wc c }
  | .uni d a b c => { len := 16, lat := lat, uni := true, ops := rdS a 1 :: rdS b 1 :: (siOpds c ++ [wrS d 1]) }

def Ops3.dst (o : Ops3) (w : Bool) : Dst :=
  match o with
  | .vec d _ _ _ => .v d w
  | .uni d _ _ _ => .s d

def Ops3.a (o : Ops3) (c : Cx) (w : Bool) (l : Nat) : DWord :=
  match o with
  | .vec _ a _ _ => c.vs a w l
  | .uni _ a _ _ => c.scl a l

def Ops3.b (o : Ops3) (c : Cx) (w : Bool) (l : Nat) : DWord :=
  match o with
  | .vec _ _ b _ => c.vs b w l
  | .uni _ _ b _ => c.scl b l

def Ops3.c (o : Ops3) (c : Cx) (w : Bool) (imm : BitVec 32 → DWord) (l : Nat) : DWord :=
  match o with
  | .vec _ _ _ x => c.vsi x w imm l
  | .uni _ _ _ x => c.si x imm l

/-- The fixed latency of an integer instruction (spec/11 R188). -/
def intLat (base : Nat) (t : ITy) : Nat := if t.is64 then base + 2 else base

/-! ### What the two-source families compute (R199 to R201) -/

/-- The result of an exact integer: clamped under .sat, wrapped otherwise, extended by T's signedness (R196, R199). -/
def intResult (t : ITy) (sat : Bool) (x : Int) : DWord := t.result (if sat then t.clamp x else x)

/-- A two-source instruction on integers. -/
def int2 (h : Hdr) (t : ITy) (lat : Nat) (sat : Bool) (o : Ops2) (f : Int → Int → Int) (s : State) :
    Host.Outcome State Fault Refusal :=
  issue h (Ops2.info o (intLat lat t) t.is64 t.is64 t.is64) (fun c act =>
    .done c fun r => r.put (Ops2.dst o t.is64) act fun l =>
      intResult t sat (f (t.read (Ops2.a o c t.is64 l)) (t.read (Ops2.b o c t.is64 t.imm l)))) s

def execIadd (h : Hdr) (t : ITy) (sat : Bool) (o : Ops2) (s : State) := int2 h t 3 sat o (fun a b => a + b) s
def execIsub (h : Hdr) (t : ITy) (sat : Bool) (o : Ops2) (s : State) := int2 h t 3 sat o (fun a b => a - b) s
def execImul (h : Hdr) (t : ITy) (o : Ops2) (s : State) := int2 h t 5 false o (fun a b => a * b) s
/-- The high w bits of the 2w-bit product, by the floor of the division. -/
def execImulh (h : Hdr) (t : ITy) (o : Ops2) (s : State) := int2 h t 5 false o (fun a b => a * b / 2 ^ t.width) s
def execImin (h : Hdr) (t : ITy) (o : Ops2) (s : State) := int2 h t 3 false o (fun a b => min a b) s
def execImax (h : Hdr) (t : ITy) (o : Ops2) (s : State) := int2 h t 3 false o (fun a b => max a b) s

/-- A two-source instruction on w-bit patterns, with the result's pattern extended by T's signedness. -/
def bits2 (h : Hdr) (t : ITy) (o : Ops2) (f : DWord → DWord → DWord) (s : State) : Host.Outcome State Fault Refusal :=
  issue h (Ops2.info o (intLat 3 t) t.is64 t.is64 t.is64) (fun c act =>
    .done c fun r => r.put (Ops2.dst o t.is64) act fun l =>
      t.result (f (Ops2.a o c t.is64 l) (Ops2.b o c t.is64 t.imm l)).toNat) s

def execAnd (h : Hdr) (t : ITy) (o : Ops2) (s : State) := bits2 h t o (fun a b => a &&& b) s
def execOr (h : Hdr) (t : ITy) (o : Ops2) (s : State) := bits2 h t o (fun a b => a ||| b) s
def execXor (h : Hdr) (t : ITy) (o : Ops2) (s : State) := bits2 h t o (fun a b => a ^^^ b) s

/-- A shift of a w-bit pattern by a count of 32 bits (R200). The count is never a pair. -/
def shift2 (h : Hdr) (t : ITy) (o : Ops2) (f : Nat → Nat → Nat) (s : State) : Host.Outcome State Fault Refusal :=
  issue h (Ops2.info o (intLat 3 t) t.is64 false t.is64) (fun c act =>
    .done c fun r => r.put (Ops2.dst o t.is64) act fun l =>
      t.result (f ((Ops2.a o c t.is64 l).toNat % 2 ^ t.width) ((Ops2.b o c false (·.setWidth 64) l).toNat % 2 ^ 32))) s

def shlBits (w p c : Nat) : Nat := if w ≤ c then 0 else p * 2 ^ c % 2 ^ w
def shrBits (w p c : Nat) : Nat := if w ≤ c then 0 else p / 2 ^ c
def sarBits (w p c : Nat) : Nat :=
  let v : Int := if 2 ^ (w - 1) ≤ p then (p : Int) - 2 ^ w else p
  if w ≤ c then (if v < 0 then 2 ^ w - 1 else 0) else lowBits w (v / 2 ^ c)
def rotBits (w p c : Nat) : Nat := p * 2 ^ (c % w) % 2 ^ w + p / 2 ^ (w - c % w)

def execShl (h : Hdr) (t : ITy) (o : Ops2) (s : State) := shift2 h t o (shlBits t.width) s
def execShr (h : Hdr) (t : ITy) (o : Ops2) (s : State) := shift2 h t o (shrBits t.width) s
def execSar (h : Hdr) (t : ITy) (o : Ops2) (s : State) := shift2 h t o (sarBits t.width) s
def execRot (h : Hdr) (t : ITy) (o : Ops2) (s : State) := shift2 h t o (rotBits t.width) s

/-- The condition of a comparison (R201). -/
def ICond.holds : ICond → Int → Int → Bool
  | .eq, a, b => decide (a = b)
  | .ne, a, b => decide (a ≠ b)
  | .lt, a, b => decide (a < b)
  | .le, a, b => decide (a ≤ b)
  | .gt, a, b => decide (b < a)
  | .ge, a, b => decide (b ≤ a)

def execIcmp (h : Hdr) (cc : ICond) (t : ITy) (pd : BitVec 3) (o : OpsC) (s : State) : Host.Outcome State Fault Refusal :=
  issue h (OpsC.info o (intLat 3 t) t.is64 pd) (fun c act =>
    .done c fun r => r.putPred pd (OpsC.uni o) act fun l =>
      ICond.holds cc (t.read (OpsC.a o c t.is64 l)) (t.read (OpsC.b o c t.is64 t.imm l))) s

/-! ### The unary families (R202, R203) -/

/-- A unary instruction on a w-bit pattern. -/
def int1 (h : Hdr) (t : ITy) (o : Ops1) (f : Nat → Int) (s : State) : Host.Outcome State Fault Refusal :=
  issue h (Ops1.info o (intLat 3 t) t.is64 t.is64 false) (fun c act =>
    .done c fun r => r.put (Ops1.dst o t.is64) act fun l => t.result (f ((Ops1.a o c t.is64 l).toNat % 2 ^ t.width))) s

def execIneg (h : Hdr) (t : ITy) (o : Ops1) (s : State) := int1 h t o (fun p => -(p : Int)) s
/-- |A|; the least value of a signed type gives itself, by wrapping. -/
def execIabs (h : Hdr) (t : ITy) (o : Ops1) (s : State) :=
  int1 h t o (fun p => (t.read (BitVec.ofNat 64 p)).natAbs) s
def execNot (h : Hdr) (t : ITy) (o : Ops1) (s : State) := int1 h t o (fun p => ((2 ^ t.width - 1 - p : Nat) : Int)) s

/-- Set bits of the low w bits. -/
def countBits (w p : Nat) : Nat := ((List.range w).filter fun i => p.testBit i).length
def execPopc (h : Hdr) (t : ITy) (o : Ops1) (s : State) := int1 h t o (fun p => countBits t.width p) s

def leadingZeros (w p : Nat) : Nat := if p == 0 then w else w - 1 - p.log2
def execClz (h : Hdr) (t : ITy) (o : Ops1) (s : State) := int1 h t o (fun p => leadingZeros t.width p) s

/-- Bit i moved to bit w − 1 − i. -/
def reverseBits (w p : Nat) : Nat := (List.range w).foldl (fun r i => if p.testBit i then r + 2 ^ (w - 1 - i) else r) 0
def execBrev (h : Hdr) (t : ITy) (o : Ops1) (s : State) := int1 h t o (fun p => reverseBits t.width p) s

/-- What a uniform MOV or ISEL writes: all 64 bits, or the low 32 extended by T's signedness (R202). -/
def movScalar (t : ITy) (x : DWord) : DWord := if t.is64 then x else extend64 t.signed 32 (x.toNat % 2 ^ 32)

/-- MOV: a vector source is copied with its unwritten tags; widths below 32 have no effect on a vector destination. -/
def execMov (h : Hdr) (t : ITy) (o : Ops1) (s : State) : Host.Outcome State Fault Refusal :=
  issue h (Ops1.info o (intLat 3 t) t.is64 t.is64 true) (fun c act =>
    .done c fun r => match o with
      | .v d a => r.putTagged d t.is64 act (c.tagged a)
      | .s d a => r.put (.v d t.is64) act (c.scl a)
      | .u d a => r.put (.s d) act fun l => movScalar t (c.scl a l)) s

/-- CVTI reads 64 bits for a 32-bit T, otherwise 32 (R203). -/
def cvtiWide (t : ITy) : Bool := t.width == 32

def cvtiValue (t : ITy) (x : DWord) : DWord :=
  if t.is64 then extend64 t.signed 32 (x.toNat % 2 ^ 32)
  else t.result (t.clamp (if cvtiWide t then x.toInt else (x.extractLsb' 0 32).toInt))

def execCvti (h : Hdr) (t : ITy) (o : Ops1) (s : State) : Host.Outcome State Fault Refusal :=
  issue h (Ops1.info o (intLat 3 t) (cvtiWide t) t.is64 false) (fun c act =>
    .done c fun r => r.put (Ops1.dst o t.is64) act fun l => cvtiValue t (Ops1.a o c (cvtiWide t) l)) s

/-! ### Three sources (R204, R205) -/

def execImad (h : Hdr) (t : ITy) (sat : Bool) (o : Ops3) (s : State) : Host.Outcome State Fault Refusal :=
  issue h (Ops3.info o (intLat 5 t) t.is64 t.is64) (fun c act =>
    .done c fun r => r.put (Ops3.dst o t.is64) act fun l =>
      intResult t sat (t.read (Ops3.a o c t.is64 l) * t.read (Ops3.b o c t.is64 l) + t.read (Ops3.c o c t.is64 t.imm l))) s

/-- Pattern a with bits pos to h − 1 taken from b. -/
def bfiBits (w a b c : Nat) : Nat :=
  let pos := c % 256
  let len := c / 256 % 256
  let h := min (pos + len) w
  (List.range w).foldl (fun r i =>
    if (if pos ≤ i && i < h then b.testBit (i - pos) else a.testBit i) then r + 2 ^ i else r) 0

def execBfi (h : Hdr) (t : ITy) (o : Ops3) (s : State) : Host.Outcome State Fault Refusal :=
  issue h (Ops3.info o (intLat 3 t) t.is64 false) (fun c act =>
    .done c fun r => r.put (Ops3.dst o t.is64) act fun l =>
      t.result (bfiBits t.width (Ops3.a o c t.is64 l).toNat (Ops3.b o c t.is64 l).toNat
        (Ops3.c o c false (·.setWidth 64) l).toNat)) s

/-- What a selecting instruction says of itself: its predicate stands before its sources. -/
def OpsSel.info (o : OpsSel) (lat : Nat) (w : Bool) (p : BitVec 3) : Info :=
  match o with
  | .vec d a b =>
    { len := 16, lat := lat, ops := [rdP p, vsOpd w true a, vsOpd w true b, wrV d w], lastA := vsLast w a, lastB := vsLast w b }
  | .uni d a b => { len := 16, lat := lat, uni := true, ops := [rdP p, rdS a 1, rdS b 1, wrS d 1] }

/-- A source of ISEL with its tags: a register's own, a scalar's written. -/
def Cx.selected (c : Cx) (o : VS) (l : Nat) : Option Word × Option Word :=
  match o with
  | .v n => c.tagged n l
  | .s n => (some ((c.scl n l).setWidth 32), some ((c.scl n l).extractLsb' 32 32))

/-- The selecting predicate of a lane. -/
def Cx.picks (c : Cx) (neg : Bool) (p : BitVec 3) (l : Nat) : Bool := (c.rv.pred p.toNat).getLsbD l != neg

def execIsel (h : Hdr) (t : ITy) (neg : Bool) (p : BitVec 3) (o : OpsSel) (s : State) : Host.Outcome State Fault Refusal :=
  issue h (OpsSel.info o (intLat 3 t) t.is64 p) (fun c act =>
    .done c fun r => match o with
      | .vec d a b => r.putTagged d t.is64 act fun l => if c.picks neg p l then c.selected a l else c.selected b l
      | .uni d a b => r.put (.s d) act fun l => movScalar t (if c.picks neg p l then c.scl a l else c.scl b l)) s

/-! ### BFX, LEA, MOVI (R206 to R208) -/

def bfxBits (t : ITy) (a pos len : Nat) : Int :=
  let w := t.width
  let h := min (pos + len) w
  if w ≤ pos || len == 0 then 0
  else
    let n := h - pos
    let f := a % 2 ^ w / 2 ^ pos % 2 ^ n
    if t.signed && 2 ^ (n - 1) ≤ f then (f : Int) - 2 ^ n else f

def execBfx (h : Hdr) (t : ITy) (o : Dst1) (pos len : BitVec 8) (s : State) : Host.Outcome State Fault Refusal :=
  match o with
  | .v d a =>
    issue h { len := 12, lat := intLat 3 t, ops := [rdV a t.is64, wrV d t.is64], lastA := regsOf a t.is64 } (fun c act =>
      .done c fun r => r.put (.v d t.is64) act fun l => t.result (bfxBits t (c.vec a t.is64 l).toNat pos.toNat len.toNat)) s
  | .u d a =>
    issue h { len := 12, lat := intLat 3 t, uni := true, ops := [rdS a 1, wrS d 1] } (fun c act =>
      .done c fun r => r.put (.s d) act fun l => t.result (bfxBits t (c.scl a l).toNat pos.toNat len.toNat)) s

/-- The pointer LEA forms. -/
def leaValue (t : ITy) (base idx : DWord) (sh : BitVec 3) (disp : BitVec 24) : DWord :=
  ptrAdd base (t.read idx * 2 ^ sh.toNat + disp.toInt)

def execLea (h : Hdr) (t : ITy) (o : OpsLea) (sh : BitVec 3) (disp : BitVec 24) (s : State) :
    Host.Outcome State Fault Refusal :=
  match o with
  | .vec d base idx =>
    issue h { len := 12, lat := intLat 3 t, ops := [vsOpd true false base, rdV idx t.is64, wrV d true], lastA := vsLast true base,
              lastB := regsOf idx t.is64 } (fun c act =>
      .done c fun r => r.put (.v d true) act fun l => leaValue t (c.vs base true l) (c.vec idx t.is64 l) sh disp) s
  | .uni d base idx =>
    issue h { len := 12, lat := intLat 3 t, uni := true, ops := [rdS base 1, rdS idx 1, wrS d 1] } (fun c act =>
      .done c fun r => r.put (.s d) act fun l => leaValue t (c.scl base l) (c.scl idx l) sh disp) s

def execMovi (h : Hdr) (t : ITy) (d : VS) (imm : BitVec 32) (s : State) : Host.Outcome State Fault Refusal :=
  let dst : Dst := match d with
    | .v n => .v n t.is64
    | .s n => .s n
  issue h { len := 12, lat := intLat 3 t, uni := !d.isV, ops := [dst.opd] } (fun c act =>
    .done c fun r => r.put dst act fun _ => t.result (t.read (t.imm imm))) s

end Sys2Proof.Machine
end

