-- ==== Sys2Proof/Machine/Float.lean ====
section
/-!
DEFINITION. The floating-point instructions and conversions (spec/13 R223 to R237) over the value rules of Machine/Flags.lean.
-/

namespace Sys2Proof.Machine

/-- A float immediate as a register would hold it (spec/11 R186). -/
def fimm (m : BitVec 32) : DWord := m.setWidth 64

/-- A two-source float instruction, element by element. -/
def float2 (h : Hdr) (f : FTy) (x2 : Bool) (o : Ops2) (op : Nat → Nat → Nat × Flags) (s : State) :
    Host.Outcome State Fault Refusal :=
  issue h (Ops2.info o 4 false false false) (fun c act =>
    .done c fun r => r.putF (Ops2.dst o false) act fun l =>
      perElem f x2 op (Ops2.a o c false l) (Ops2.b o c false fimm l)) s

def execFadd (h : Hdr) (f : FTy) (md : Rm) (fz x2 : Bool) (o : Ops2) (s : State) := float2 h f x2 o (fadd (fmtOf f) md fz) s
def execFsub (h : Hdr) (f : FTy) (md : Rm) (fz x2 : Bool) (o : Ops2) (s : State) := float2 h f x2 o (fsub (fmtOf f) md fz) s
def execFmul (h : Hdr) (f : FTy) (md : Rm) (fz x2 : Bool) (o : Ops2) (s : State) := float2 h f x2 o (fmul (fmtOf f) md fz) s
def execFmin (h : Hdr) (f : FTy) (x2 : Bool) (o : Ops2) (s : State) := float2 h f x2 o (fminmax (fmtOf f) false) s
def execFmax (h : Hdr) (f : FTy) (x2 : Bool) (o : Ops2) (s : State) := float2 h f x2 o (fminmax (fmtOf f) true) s

/-- Three elements of 16 or 32 bits, both halves under .x2. -/
def perElem3 (t : FTy) (x2 : Bool) (op : Nat → Nat → Nat → Nat × Flags) (a b c : DWord) : DWord × Flags :=
  let w := ftyWidth t
  let (r, fl) := op (a.toNat % 2 ^ w) (b.toNat % 2 ^ w) (c.toNat % 2 ^ w)
  if x2 then
    let hi (x : DWord) : Nat := x.toNat / 2 ^ 16 % 2 ^ 16
    let (r1, f1) := op (hi a) (hi b) (hi c)
    (BitVec.ofNat 64 (r + 2 ^ 16 * r1), fl ||| f1)
  else (BitVec.ofNat 64 r, fl)

def execFfma (h : Hdr) (f : FTy) (md : Rm) (fz x2 : Bool) (o : Ops3) (s : State) : Host.Outcome State Fault Refusal :=
  issue h (Ops3.info o 4 false false) (fun c act =>
    .done c fun r => r.putF (Ops3.dst o false) act fun l =>
      perElem3 f x2 (ffma (fmtOf f) md fz) (Ops3.a o c false l) (Ops3.b o c false l) (Ops3.c o c false fimm l)) s

/-- Flags of a comparison: of the active lanes, or of the one uniform comparison. -/
def RegCtx.putCmp (r : RegCtx) (pd : BitVec 3) (uni : Bool) (act : Mask) (f : Nat → Bool × Flags) : RegCtx :=
  (r.putPred pd uni act fun l => (f l).1).orFlags
    (if uni then (f (lowestLane act)).2 else laneFlags act fun l => (f l).2)

def execFcmp (h : Hdr) (cc : FCond) (f : FTy) (pd : BitVec 3) (o : OpsC) (s : State) : Host.Outcome State Fault Refusal :=
  issue h (OpsC.info o 4 false pd) (fun c act =>
    .done c fun r => r.putCmp pd (OpsC.uni o) act fun l =>
      fcmp (fmtOf f) cc ((OpsC.a o c false l).toNat % 2 ^ ftyWidth f) ((OpsC.b o c false fimm l).toNat % 2 ^ ftyWidth f)) s

/-- The bits FSEL copies: 32, or the low 16 with zero above (R230). -/
def fselBits (f : FTy) (x : Word) : Word := if f == .f32 then x else BitVec.ofNat 32 (x.toNat % 2 ^ 16)

def execFsel (h : Hdr) (f : FTy) (neg : Bool) (p : BitVec 3) (o : OpsSel) (s : State) : Host.Outcome State Fault Refusal :=
  issue h (OpsSel.info o 4 false p) (fun c act =>
    .done c fun r => match o with
      | .vec d a b => r.putTagged d false act fun l =>
          (((if c.picks neg p l then c.selected a l else c.selected b l).1).map (fselBits f), none)
      | .uni d a b => r.put (.s d) act fun l =>
          (fselBits f ((if c.picks neg p l then c.scl a l else c.scl b l).setWidth 32)).setWidth 64) s

/-- A unary float instruction. -/
def float1 (h : Hdr) (f : FTy) (lat : Nat) (x2 : Bool) (o : Ops1) (op : Nat → Nat × Flags) (s : State) :
    Host.Outcome State Fault Refusal :=
  issue h (Ops1.info o lat false false false) (fun c act =>
    .done c fun r => r.putF (Ops1.dst o false) act fun l => perElem f x2 (fun a _ => op a) (Ops1.a o c false l) 0) s

def execFrcp (h : Hdr) (f : FTy) (fz x2 : Bool) (o : Ops1) (s : State) := float1 h f 0 x2 o (ffun f .rcp fz) s
def execFrsq (h : Hdr) (f : FTy) (fz x2 : Bool) (o : Ops1) (s : State) := float1 h f 0 x2 o (ffun f .rsq fz) s
def execFsqrt (h : Hdr) (f : FTy) (md : Rm) (fz x2 : Bool) (o : Ops1) (s : State) := float1 h f 0 x2 o (fsqrt (fmtOf f) md fz) s
def execFexp2 (h : Hdr) (f : FTy) (fz x2 : Bool) (o : Ops1) (s : State) := float1 h f 0 x2 o (ffun f .exp2 fz) s
def execFlog2 (h : Hdr) (f : FTy) (fz x2 : Bool) (o : Ops1) (s : State) := float1 h f 0 x2 o (ffun f .log2 fz) s
def execFsin (h : Hdr) (f : FTy) (fz x2 : Bool) (o : Ops1) (s : State) := float1 h f 0 x2 o (ffun f .sin fz) s
def execFcos (h : Hdr) (f : FTy) (fz x2 : Bool) (o : Ops1) (s : State) := float1 h f 0 x2 o (ffun f .cos fz) s
/-- FRND; .fz has no effect (R233). -/
def execFrnd (h : Hdr) (f : FTy) (md : Rm) (_fz x2 : Bool) (o : Ops1) (s : State) := float1 h f 4 x2 o (frnd (fmtOf f) md) s

/-! ### Conversions (R234, R235) -/

def OpsCv.info (o : OpsCv) (wa wd : Bool) : Info :=
  match o with
  | .vec d a => { len := 16, lat := 4, ops := [vsOpd wa false a, wrV d wd], lastA := vsLast wa a }
  | .uni d a => { len := 16, lat := 4, uni := true, ops := [rdS a 1, wrS d 1] }

def OpsCv.dst (o : OpsCv) (wd : Bool) : Dst :=
  match o with
  | .vec d _ => .v d wd
  | .uni d _ => .s d

def OpsCv.a (o : OpsCv) (c : Cx) (wa : Bool) (l : Nat) : DWord :=
  match o with
  | .vec _ a => c.vs a wa l
  | .uni _ a => c.scl a l

def execCvtf (h : Hdr) (fd fs : FTy) (md : Rm) (fz : Bool) (o : OpsCv) (s : State) : Host.Outcome State Fault Refusal :=
  issue h (OpsCv.info o false false) (fun c act =>
    .done c fun r => r.putF (OpsCv.dst o false) act fun l =>
      let (y, fl) := cvtf (fmtOf fd) (fmtOf fs) md fz ((OpsCv.a o c false l).toNat % 2 ^ ftyWidth fs)
      (BitVec.ofNat 64 y, fl)) s

def execCvtfi (h : Hdr) (t : ITy) (fs : FTy) (md : Rm) (o : OpsCv) (s : State) : Host.Outcome State Fault Refusal :=
  issue h (OpsCv.info o false t.is64) (fun c act =>
    .done c fun r => r.putF (OpsCv.dst o t.is64) act fun l =>
      let (y, fl) := rndi t md ((fmtOf fs).value ((OpsCv.a o c false l).toNat % 2 ^ ftyWidth fs))
      (t.result y, fl)) s

def execCvtif (h : Hdr) (fd : FTy) (t : ITy) (md : Rm) (o : OpsCv) (s : State) : Host.Outcome State Fault Refusal :=
  issue h (OpsCv.info o t.is64 false) (fun c act =>
    .done c fun r => r.putF (OpsCv.dst o false) act fun l =>
      let (y, fl) := (fmtOf fd).rnd md (ofInt (t.read (OpsCv.a o c t.is64 l)) 0)
      (BitVec.ofNat 64 y, fl)) s

/-! ### Narrow codes (R236, R237) -/

/-- The low 8 bits of the scale scalar, read signed; 0 where none is named. -/
def Cx.sigma (c : Cx) (sc : Option (BitVec 8)) (l : Nat) : Int :=
  match sc with
  | some n => ((c.scl n l).extractLsb' 0 8).toInt
  | none => 0

/-- NPACK of one lane: the code of va × 2^−σ, its flags. -/
def npackCode (f : Fmt) (md : Rm) (fz : Bool) (sigma : Int) (a : Nat) : Nat × Flags :=
  let x := Fmt.f32.value a
  let (x, nsc) : FVal × Flags := if sigma == -128 then (.nan false, fNSC) else (x.scale (-sigma), 0)
  let y := f.flush fz (f.rnd md x)
  (y.1, y.2 ||| nsc ||| snan [Fmt.f32.value a])

/-- A field of w bits at pos replaced; bits at 32 and above do not exist. -/
def setField (old : Nat) (pos w code : Nat) : Nat :=
  (List.range 32).foldl (fun r i =>
    if (if pos ≤ i && i < pos + w then code.testBit (i - pos) else old.testBit i) then r + 2 ^ i else r) 0

def scaleOpds (sc : Option (BitVec 8)) : List Opd :=
  match sc with
  | some n => [rdS n 1]
  | none => []

/-- Handles of class narrow (R236). -/
def narrowHandle (hn : BitVec 8) : Cx → Option Nat := needs hn fun e => entCls e == 5

def execNpack (h : Hdr) (md : Rm) (fz : Bool) (d a : BitVec 12) (hn : BitVec 8) (pos : BitVec 5) (sc : Option (BitVec 8))
    (s : State) : Host.Outcome State Fault Refusal :=
  issue h { len := 16, ops := rdV a false :: (scaleOpds sc ++ [{ rdRaw d false with wr := true }]), lastA := regsOf a false,
            handle := narrowHandle hn } (fun c act =>
    let f := entFloat (c.ctx.entry hn.toNat)
    .done c fun r => r.putF (.v d false) act fun l =>
      let (code, fl) := npackCode f md fz (c.sigma sc l) (c.vec a false l).toNat
      let old := ((c.rv.lane d.toNat l).getD 0).toNat
      (BitVec.ofNat 64 (setField old pos.toNat f.width code), fl)) s

/-- NUNPK of one lane: the value of a code × 2^σ in FP32, its flags. -/
def nunpkValue (f : Fmt) (sigma : Int) (code : Nat) : Nat × Flags :=
  if sigma == -128 then (Fmt.f32.nanCode, fNSC) else Fmt.f32.rnd .rn ((f.value code).scale sigma)

def execNunpk (h : Hdr) (d a : BitVec 12) (hn : BitVec 8) (pos : BitVec 5) (sc : Option (BitVec 8)) (s : State) :
    Host.Outcome State Fault Refusal :=
  issue h { len := 16, ops := rdV a false :: (scaleOpds sc ++ [wrV d false]), lastA := regsOf a false,
            handle := narrowHandle hn } (fun c act =>
    let f := entFloat (c.ctx.entry hn.toNat)
    .done c fun r => r.putF (.v d false) act fun l =>
      let (y, fl) := nunpkValue f (c.sigma sc l) ((c.vec a false l).toNat / 2 ^ pos.toNat % 2 ^ f.width)
      (BitVec.ofNat 64 y, fl)) s

end Sys2Proof.Machine
end

