-- ==== Sys2Proof/Machine/Gcm.lean ====
section
/-!
DEFINITION. AES-256-GCM (spec/18 R341), as its public standards define it: the block cipher on lists of bytes, and the authenticated mode
with a 96-bit nonce and a 16-byte tag. PRESUMED: the manual names the algorithm only (log 31).
-/

namespace Sys2Proof.Machine

/-! ### The block cipher -/

def sbox0 : List Nat :=
  [0x63, 0x7c, 0x77, 0x7b, 0xf2, 0x6b, 0x6f, 0xc5, 0x30, 0x01, 0x67, 0x2b, 0xfe, 0xd7, 0xab, 0x76,
   0xca, 0x82, 0xc9, 0x7d, 0xfa, 0x59, 0x47, 0xf0, 0xad, 0xd4, 0xa2, 0xaf, 0x9c, 0xa4, 0x72, 0xc0]

def sbox1 : List Nat :=
  [0xb7, 0xfd, 0x93, 0x26, 0x36, 0x3f, 0xf7, 0xcc, 0x34, 0xa5, 0xe5, 0xf1, 0x71, 0xd8, 0x31, 0x15,
   0x04, 0xc7, 0x23, 0xc3, 0x18, 0x96, 0x05, 0x9a, 0x07, 0x12, 0x80, 0xe2, 0xeb, 0x27, 0xb2, 0x75]

def sbox2 : List Nat :=
  [0x09, 0x83, 0x2c, 0x1a, 0x1b, 0x6e, 0x5a, 0xa0, 0x52, 0x3b, 0xd6, 0xb3, 0x29, 0xe3, 0x2f, 0x84,
   0x53, 0xd1, 0x00, 0xed, 0x20, 0xfc, 0xb1, 0x5b, 0x6a, 0xcb, 0xbe, 0x39, 0x4a, 0x4c, 0x58, 0xcf]

def sbox3 : List Nat :=
  [0xd0, 0xef, 0xaa, 0xfb, 0x43, 0x4d, 0x33, 0x85, 0x45, 0xf9, 0x02, 0x7f, 0x50, 0x3c, 0x9f, 0xa8,
   0x51, 0xa3, 0x40, 0x8f, 0x92, 0x9d, 0x38, 0xf5, 0xbc, 0xb6, 0xda, 0x21, 0x10, 0xff, 0xf3, 0xd2]

def sbox4 : List Nat :=
  [0xcd, 0x0c, 0x13, 0xec, 0x5f, 0x97, 0x44, 0x17, 0xc4, 0xa7, 0x7e, 0x3d, 0x64, 0x5d, 0x19, 0x73,
   0x60, 0x81, 0x4f, 0xdc, 0x22, 0x2a, 0x90, 0x88, 0x46, 0xee, 0xb8, 0x14, 0xde, 0x5e, 0x0b, 0xdb]

def sbox5 : List Nat :=
  [0xe0, 0x32, 0x3a, 0x0a, 0x49, 0x06, 0x24, 0x5c, 0xc2, 0xd3, 0xac, 0x62, 0x91, 0x95, 0xe4, 0x79,
   0xe7, 0xc8, 0x37, 0x6d, 0x8d, 0xd5, 0x4e, 0xa9, 0x6c, 0x56, 0xf4, 0xea, 0x65, 0x7a, 0xae, 0x08]

def sbox6 : List Nat :=
  [0xba, 0x78, 0x25, 0x2e, 0x1c, 0xa6, 0xb4, 0xc6, 0xe8, 0xdd, 0x74, 0x1f, 0x4b, 0xbd, 0x8b, 0x8a,
   0x70, 0x3e, 0xb5, 0x66, 0x48, 0x03, 0xf6, 0x0e, 0x61, 0x35, 0x57, 0xb9, 0x86, 0xc1, 0x1d, 0x9e]

def sbox7 : List Nat :=
  [0xe1, 0xf8, 0x98, 0x11, 0x69, 0xd9, 0x8e, 0x94, 0x9b, 0x1e, 0x87, 0xe9, 0xce, 0x55, 0x28, 0xdf,
   0x8c, 0xa1, 0x89, 0x0d, 0xbf, 0xe6, 0x42, 0x68, 0x41, 0x99, 0x2d, 0x0f, 0xb0, 0x54, 0xbb, 0x16]

/-- The substitution of one byte. -/
def sbox (b : Nat) : Nat := (sbox0 ++ sbox1 ++ sbox2 ++ sbox3 ++ sbox4 ++ sbox5 ++ sbox6 ++ sbox7).getD b 0

/-- Multiplication by x in the field of the cipher. -/
def xtime (b : Nat) : Nat := if b < 128 then 2 * b else (2 * b % 256) ^^^ 0x1b

def xorBytes (a b : List Nat) : List Nat := (a.zip b).map fun x => x.1 ^^^ x.2

/-- The round constants. -/
def rcon (i : Nat) : Nat := (List.range (i - 1)).foldl (fun r _ => xtime r) 1

/-- The next word of the key schedule, from the words so far. -/
def keyWord (ws : List (List Nat)) : List Nat :=
  let i := ws.length
  let prev := ws.getD (i - 1) []
  let t := if i % 8 == 0 then xorBytes ((prev.drop 1 ++ prev.take 1).map sbox) [rcon (i / 8), 0, 0, 0]
    else if i % 8 == 4 then prev.map sbox
    else prev
  xorBytes (ws.getD (i - 8) []) t

/-- The 60 words of the schedule of a 32-byte key. -/
def keySchedule (key : List Nat) : List (List Nat) :=
  (List.range 52).foldl (fun ws _ => ws ++ [keyWord ws]) ((List.range 8).map fun i => (key.drop (4 * i)).take 4)

def roundKey (ws : List (List Nat)) (r : Nat) : List Nat := ((ws.drop (4 * r)).take 4).flatten

/-- Byte r + 4c of the state moves c columns round. -/
def shiftRows (s : List Nat) : List Nat := (List.range 16).map fun i => s.getD ((i + 4 * (i % 4)) % 16) 0

def mixColumn (s : List Nat) (c i : Nat) : Nat :=
  let a (k : Nat) : Nat := s.getD (4 * c + (i + k) % 4) 0
  xtime (a 0) ^^^ (xtime (a 1) ^^^ a 1) ^^^ a 2 ^^^ a 3

def mixColumns (s : List Nat) : List Nat := (List.range 16).map fun i => mixColumn s (i / 4) (i % 4)

/-- One block of 16 bytes under a key schedule. -/
def aesBlock (ws : List (List Nat)) (block : List Nat) : List Nat :=
  let s := (List.range 13).foldl (fun (s : List Nat) r => xorBytes (mixColumns (shiftRows (s.map sbox))) (roundKey ws (r + 1)))
    (xorBytes block (roundKey ws 0))
  xorBytes (shiftRows (s.map sbox)) (roundKey ws 14)

/-! ### The mode -/

/-- Bytes as a number, the first byte highest. -/
def bigNat (bs : List Nat) : Nat := bs.foldl (fun n b => 256 * n + b % 256) 0

def bigBytes (n v : Nat) : List Nat := (List.range n).map fun i => v / 256 ^ (n - 1 - i) % 256

/-- The product of two blocks in the field of the mode, whose bit 0 is the highest. -/
def gfMul (x y : Nat) : Nat :=
  ((List.range 128).foldl (fun (zv : Nat × Nat) i =>
    let z := if x.testBit (127 - i) then zv.1 ^^^ zv.2 else zv.1
    (z, if zv.2 % 2 == 1 then zv.2 / 2 ^^^ 0xE1 * 2 ^ 120 else zv.2 / 2)) (0, y)).1

/-- Blocks of 16 bytes, the last one filled with zeros. -/
def blocks16 (bs : List Nat) : List (List Nat) :=
  (List.range ((bs.length + 15) / 16)).map fun i =>
    let b := (bs.drop (16 * i)).take 16
    b ++ List.replicate (16 - b.length) 0

def ghash (h : Nat) (bs : List (List Nat)) : Nat := bs.foldl (fun y b => gfMul (y ^^^ bigNat b) h) 0

/-- The counter mode's bytes over a text, from block counter 2 on. -/
def ctrText (ws : List (List Nat)) (nonce text : List Nat) : List Nat :=
  (List.range ((text.length + 15) / 16)).flatMap fun i =>
    xorBytes ((text.drop (16 * i)).take 16) (aesBlock ws (nonce ++ bigBytes 4 (i + 2)))

/-- The tag over additional data and sealed text. -/
def gcmTag (ws : List (List Nat)) (nonce aad text : List Nat) : List Nat :=
  let h := bigNat (aesBlock ws (List.replicate 16 0))
  let lens := bigBytes 8 (8 * aad.length) ++ bigBytes 8 (8 * text.length)
  let y := ghash h (blocks16 aad ++ blocks16 text ++ [lens])
  xorBytes (bigBytes 16 y) (aesBlock ws (nonce ++ bigBytes 4 1))

def byteNats (bs : List Byte) : List Nat := bs.map (·.toNat)

def natsBytes (ns : List Nat) : List Byte := ns.map (BitVec.ofNat 8)

/-- Seal a payload: the sealed bytes and the tag. -/
def gcmSeal (key nonce aad text : List Byte) : List Byte × List Byte :=
  let ws := keySchedule (byteNats key)
  let ct := ctrText ws (byteNats nonce) (byteNats text)
  (natsBytes ct, natsBytes (gcmTag ws (byteNats nonce) (byteNats aad) ct))

/-- Open a sealed payload; none where the tag fails. -/
def gcmOpen (key nonce aad text tag : List Byte) : Option (List Byte) :=
  let ws := keySchedule (byteNats key)
  if natsBytes (gcmTag ws (byteNats nonce) (byteNats aad) (byteNats text)) == tag then
    some (natsBytes (ctrText ws (byteNats nonce) (byteNats text)))
  else none

end Sys2Proof.Machine
end

