-- ==== Sys2Proof/Machine/Package.lean ====
section
/-!
DEFINITION. Partitions and their scrubs, region retirement, bank repair, heat and power, firmware and attestation (spec/01 R12 to R16,
spec/02 R42, R55, R56, spec/17 R324, spec/18 R334, R343 to R345).
-/

namespace Sys2Proof

/-- Resources of a which b names too; resources of a or b; of a and not b. -/
def Resources.meet (a b : Resources) : Resources :=
  { clusters := a.clusters &&& b.clusters, slices := a.slices &&& b.slices, channels := a.channels &&& b.channels,
    engines := a.engines &&& b.engines, ports := a.ports &&& b.ports }

def Resources.join (a b : Resources) : Resources :=
  { clusters := a.clusters ||| b.clusters, slices := a.slices ||| b.slices, channels := a.channels ||| b.channels,
    engines := a.engines ||| b.engines, ports := a.ports ||| b.ports }

def Resources.less (a b : Resources) : Resources :=
  { clusters := a.clusters &&& ~~~b.clusters, slices := a.slices &&& ~~~b.slices, channels := a.channels &&& ~~~b.channels,
    engines := a.engines &&& ~~~b.engines, ports := a.ports &&& ~~~b.ports }

end Sys2Proof

namespace Sys2Proof.Machine

/-! ### L2 ownership (spec/02 R42, R55) -/

/-- Every line of a tenant leaves L2, dirty ones written back; near copies go with their lines (R44). -/
def State.flushTenant (s : State) (t : Nat) : State := s.leaveL2 (·.tenant == t)

/-- A block of the tenant is resident. -/
def State.tenantResident (s : State) (t : Nat) : Bool :=
  s.blocks.any fun b => b.place == .resident && (s.launch? b.lid).elim false fun l => l.src.fn == t

/-- Steps 2 to 4 of a change to a tenant's slices: its lines are flushed, the bitmap is installed, and the slices that leave it are to
be scrubbed. -/
def State.changeSlices (s : State) (t : Nat) (slices : BitVec 96) : State :=
  let s := s.flushTenant t
  let x := s.tenant t
  let leaving := x.own.slices &&& ~~~slices
  let s := s.setTenant t { x with own := { x.own with slices := slices } }
  { s with pkg := { s.pkg with scrubSlice := s.pkg.scrubSlice ||| leaving } }

/-- Slices that no other tenant owns. -/
def State.slicesFree (s : State) (t : Nat) (slices : BitVec 96) : Bool :=
  s.tenants.zipIdx.all fun x => x.2 == t || x.1.own.slices &&& slices == 0

/-- L2_OWNERSHIP_CHANGE: waits while a block of the tenant is resident. -/
def execL2OwnershipChange (tenant : Nat) (slices : BitVec 96) (s : State) : Host.Outcome State Fault Refusal :=
  if decide (16 ≤ tenant) || s.tenantResident tenant || !s.slicesFree tenant slices || slices &&& s.pkg.scrubSlice != 0 then .next s
  else .next (s.changeSlices tenant slices)

/-! ### SCRUB (spec/02 R55, R56) -/

/-- A scrubbed core: nothing of its SRAMs is left; its cycle counter runs on. -/
def Core.scrub (k : Core) : Core := { Core.reset with cycle := k.cycle }

/-- A reset is over once nothing of the tenant is still to be scrubbed (R333). -/
def State.settleReset (s : State) (t : Nat) : State :=
  let x := s.tenant t
  if x.resetting && x.own.clusters &&& s.pkg.scrubCluster == 0 && x.own.slices &&& s.pkg.scrubSlice == 0 then
    s.setTenant t { x with resetting := false }
  else s

/-- A cluster's cores and its column cache: deck lines go back to their decks, near copies are dropped. -/
def State.scrubCluster (s : State) (c : Nat) : State :=
  let bit := (1 : BitVec 24) <<< c
  let s := (s.deckLines.filter fun x => x.cluster == c).foldl State.dropDeckLine s
  let s : State :=
    { s with cores := s.cores.zipIdx.map (fun k => if clusterOf k.2 == c then k.1.scrub else k.1),
             l2 := s.l2.map (fun l => { l with sharers := l.sharers &&& ~~~bit }),
             pkg := { s.pkg with scrubCluster := s.pkg.scrubCluster &&& ~~~bit } }
  match s.clusterOwner c with
  | some t => s.settleReset t
  | none => s

def State.scrubSlice (s : State) (n : Nat) : State :=
  let s : State := { s with pkg := { s.pkg with scrubSlice := s.pkg.scrubSlice &&& ~~~((1 : BitVec 96) <<< n) } }
  match s.tenants.findIdx? fun t => t.own.slices.getLsbD n with
  | some t => s.settleReset t
  | none => s

/-- SCRUB: a cluster or slice that is to be scrubbed, once no block stands on it. -/
def execScrub (u : ScrubUnit) (s : State) : Host.Outcome State Fault Refusal :=
  match u with
  | .cluster c =>
    if s.pkg.scrubCluster.getLsbD c && !(s.blocks.any fun b => b.place == .resident && clusterOf b.core == c) then
      .next (s.scrubCluster c)
    else .next s
  | .slice n => if s.pkg.scrubSlice.getLsbD n then .next (s.scrubSlice n) else .next s

/-! ### PARTITION (R334, spec/01 R13) -/

/-- The tenants other than t that own something named. -/
def State.ownersOf (s : State) (t : Nat) (r : Resources) : List Nat :=
  (List.range 16).filter fun n => n != t && (s.tenant n).own.meet r != Resources.none

/-- A leaving channel carries a region in service of its tenant. -/
def State.carriesRegion (s : State) (t : Nat) (channels : BitVec 96) : Bool :=
  let leaving := (s.tenant t).own.channels &&& channels
  (s.tenant t).regions.any fun n => s.pkg.regions.any fun r => r.num == n && r.inService && r.channels &&& leaving != 0

def insertNat (n : Nat) : List Nat → List Nat
  | [] => [n]
  | x :: xs => if n < x then n :: x :: xs else if n == x then x :: xs else x :: insertNat n xs

/-- Firmware gives a tenant regions in service that have no channel set yet, with sets among its channels (R13); a change of its
regions turns tracking off (R33). -/
def State.giveRegions (s : State) (t : Nat) : State :=
  let own := (s.tenant t).own.channels
  let set (r : Region) : BitVec 96 := if r.inService && r.channels == 0 then Config.firmwareSet r.num own &&& own else 0
  let new := (s.pkg.regions.filter fun r => set r != 0).map (·.num)
  let s : State := { s with pkg := { s.pkg with regions := s.pkg.regions.map fun r => if set r == 0 then r else { r with channels := set r } } }
  if new.isEmpty then s
  else
    let x := s.tenant t
    s.setTenant t { x with regions := new.foldl (fun rs n => insertNat n rs) x.regions, track := none }

/-- Named resources move from their old owner to a tenant, or to none; what leaves a tenant is to be scrubbed. -/
def State.moveResources (s : State) (to_ : Option Nat) (r : Resources) : State :=
  let old := s.ownersOf (to_.getD 16) r
  let lost := old.foldl (fun (x : Resources) n => x.join ((s.tenant n).own.meet r)) Resources.none
  let s := old.foldl (fun (s : State) n =>
    let own := (s.tenant n).own
    let s := if own.slices &&& r.slices == 0 then s else s.changeSlices n (own.slices &&& ~~~r.slices)
    let x := s.tenant n
    s.setTenant n { x with own := x.own.less r }) s
  let s : State := { s with pkg := { s.pkg with scrubCluster := s.pkg.scrubCluster ||| lost.clusters } }
  match to_ with
  | none => s
  | some t =>
    let own := (s.tenant t).own
    let s := if r.slices &&& ~~~own.slices == 0 then s else s.changeSlices t (own.slices ||| r.slices)
    let x := s.tenant t
    (s.setTenant t { x with own := x.own.join r }).giveRegions t

/-- A PARTITION waits for scrubs of what it names, for blocks on clusters that leave, and, where a tenant's slices change, for all its
blocks (R42, R55, R56). -/
def State.partitionHeld (s : State) (to_ : Option Nat) (r : Resources) : Bool :=
  let old := s.ownersOf (to_.getD 16) r
  r.clusters &&& s.pkg.scrubCluster != 0 || r.slices &&& s.pkg.scrubSlice != 0 ||
  s.blocks.any (fun b => b.place == .resident && r.clusters.getLsbD (clusterOf b.core) &&
    old.any fun n => (s.launch? b.lid).elim false fun l => l.src.fn == n) ||
  old.any (fun n => (s.tenant n).own.slices &&& r.slices != 0 && s.tenantResident n) ||
  to_.elim false fun t => r.slices &&& ~~~(s.tenant t).own.slices != 0 && s.tenantResident t

def execPartition (c : CmdSrc) (tenant : Nat) (res : Resources) (s : State) : Host.Outcome State Fault Refusal :=
  s.command c true opPartition fun s =>
    let to_ := if tenant < 16 then some tenant else none
    let old := s.ownersOf (to_.getD 16) res
    if !(decide (tenant < 16) || tenant == 0xFF) then .done s eBadCmd 0
    else if decide (1 < old.length) || old.any (fun n => s.carriesRegion n res.channels) then .done s eBusy 0
    else if s.partitionHeld to_ res then .wait
    else .done (s.moveResources to_ res) eOk 0

/-! ### The banks of a column (spec/01 R9, R14) -/

/-- Whether a position behind a channel holds a live bank: channel 4c + j serves layers 2j and 2j + 1 of column c, each of 128 positions, so
position p of the channel's 256 lies in layer 2j + p / 128; twenty positions of a layer hold none, and a failed bank is removed. -/
def State.liveBank (s : State) (ch p : Nat) : Bool :=
  let removed := 864 - (s.pkg.columns.getD (ch / 4) Column.reset).banks
  !((List.range 20).any fun i => Config.viaPosition i % 128 == p % 128) &&
  !((List.range removed).any fun n => Config.failingBank (ch / 4) n == (ch % 4, p))

/-- The bank of a column that is failing, once a failure is predicted: channel and position. -/
def State.failBank (s : State) (col : Nat) : Nat × Nat :=
  let f := Config.failingBank col (864 - (s.pkg.columns.getD col Column.reset).banks)
  (4 * col + f.1 % 4, f.2 % 256)

/-- The generation an access at an offset of a region uses: below the cursor the new one (R15). -/
def Region.genOf (r : Region) (off : Nat) : BitVec 4 :=
  match r.cursor with
  | some done => if off < done then r.gen else r.gen - 1
  | none => r.gen

/-- Where the 256-byte unit at an offset of a region stands (R14): a channel of its set, and the first live bank behind that channel from
the hash's place on. The generation that a repair gives excludes the failing bank. -/
def State.unitPlace (s : State) (r : Region) (off : Nat) : Nat × Nat :=
  let gen := r.genOf off
  let h := Config.bankHash gen.toNat ((r.num * 2 ^ 30 + off) / 256)
  let set := bitsOf r.channels
  let ch := set.getD (h.1 % set.length) 0
  let open_ (p : Nat) : Bool :=
    s.liveBank ch p && !(gen == r.gen && r.excluded == some (ch / 4) && s.failBank (ch / 4) == (ch, p))
  (ch, (((List.range 256).map fun i => (h.2 + i) % 256).find? open_).getD 0)

/-- Some unit of a region, of its 4,194,304, stands in the failing bank of a column. -/
def State.usesBank (s : State) (r : Region) (col : Nat) : Bool :=
  (List.range (1024 * 4096)).any fun u => s.unitPlace r (256 * u) == s.failBank col

/-! ### The discovery table (spec/01 R11, R12, R16) -/

/-- The header word: 24 column entries, layout version 1, and the regions in service. -/
def State.discoveryHeader (s : State) : DWord :=
  BitVec.ofNat 64 (24 * 2 ^ 40 + 1 * 2 ^ 32 + s.pkg.regionsInService % 2 ^ 32)

/-- The two words of a column's entry. -/
def Column.word0 (c : Column) (n : Nat) : DWord :=
  (BitVec.ofNat 16 n ++ BitVec.ofNat 8 8 ++ BitVec.ofNat 12 c.banks ++ BitVec.ofNat 12 c.spare ++ BitVec.ofNat 8 c.failed ++
    BitVec.ofNat 8 24)

def Column.word1 (c : Column) : DWord := BitVec.ofNat 32 c.mainMib ++ BitVec.ofNat 16 1024 ++ BitVec.ofNat 16 0

def Column.capacity (c : Column) : Column := { c with mainMib := (c.banks - c.spare) * 16 - 1024 }

/-- Rewrite a column's entry and raise the discovery-changed event where it changes. -/
def State.putColumn (s : State) (n : Nat) (c : Column) : State :=
  let old := s.pkg.columns.getD n Column.reset
  if old == c.capacity then s
  else { s with pkg := { s.pkg with columns := s.pkg.columns.set n c.capacity } }.packageEvent 0x10 (BitVec.ofNat 64 n)

/-- Channel ch belongs to column ch / 4 (R9); the columns of a channel set. -/
def setColumns (channels : BitVec 96) : List Nat :=
  (List.range 24).filter fun c => (List.range 4).any fun j => channels.getLsbD (4 * c + j)

def Region.onColumn (r : Region) (c : Nat) : Bool := (setColumns r.channels).contains c

def State.region? (s : State) (n : Nat) : Option Region := s.pkg.regions.find? fun r => r.num == n

def State.setRegion (s : State) (r : Region) : State :=
  { s with pkg := { s.pkg with regions := s.pkg.regions.map fun x => if x.num == r.num then r else x } }

/-- The 64 banks of a retired region, spread evenly over the channels of its set. -/
def banksOf (channels : BitVec 96) (col : Nat) : Nat :=
  let set := if channels == 0 then BitVec.allOnes 96 else channels
  let all := bitsOf set
  let share (i : Nat) : Nat := 64 / all.length + if i < 64 % all.length then 1 else 0
  all.zipIdx.foldl (fun n x => if x.1 / 4 == col then n + share x.2 else n) 0

/-- A region leaves service: its banks become spare (R16), and its tenant's tracking stops (R33). -/
def State.retireRegion (s : State) (r : Region) : State :=
  let s := s.setRegion { r with inService := false, cursor := none, excluded := none }
  let s : State := { s with pkg := { s.pkg with regionsInService := s.pkg.regionsInService - 1 } }
  let s := (List.range 24).foldl (fun (s : State) c =>
    let x := s.pkg.columns.getD c Column.reset
    s.putColumn c { x with spare := x.spare + banksOf r.channels c }) s
  match s.tenants.findIdx? fun t => t.regions.contains r.num with
  | none => s
  | some t =>
    let x := s.tenant t
    s.setTenant t { x with regions := x.regions.filter (· != r.num), track := none }

def execRegionretire (c : CmdSrc) (region : Nat) (s : State) : Host.Outcome State Fault Refusal :=
  s.command c true opRegionRetire fun s =>
    match s.region? region with
    | none => .done s eBadCmd 0
    | some r => if r.inService then .done (s.retireRegion r) eOk 0 else .done s eBadCmd 0

/-! ### Bank repair (spec/01 R15, R16) -/

/-- The lowest column of a channel set that has a spare bank, the failing one first. -/
def State.spareColumn (s : State) (channels : BitVec 96) (col : Nat) : Option Nat :=
  (col :: setColumns channels).find? fun c => decide (0 < (s.pkg.columns.getD c Column.reset).spare)

/-- The migration engine of a column's die is free: six columns lie on a die, and no region is moved from a bank of theirs. -/
def State.engineIdle (s : State) (col : Nat) : Bool :=
  !(s.pkg.regions.any fun r => r.cursor.isSome && (r.excluded.elim false fun c => c / 6 == col / 6))

/-- The channel set of the event 'repair needs space': its low 64 channels are the detail, the others stand in bits [63:32] of word 0.
DESIGN CHOICE: log 22. -/
def State.needsSpace (s : State) (channels : BitVec 96) : State :=
  s.packageEvent (0x11 + 2 ^ 32 * (channels.toNat / 2 ^ 64)) (channels.extractLsb' 0 64)

/-- RESTRIPE_START: a region with data in the failing bank begins to move, where its channel set has a spare bank; otherwise the
driver is asked for space. -/
def execRestripeStart (region column : Nat) (s : State) : Host.Outcome State Fault Refusal :=
  match s.region? region with
  | none => .next s
  | some r =>
    if !(r.inService && r.onColumn column && r.cursor.isNone && r.excluded.isNone && s.engineIdle column && s.usesBank r column) then .next s
    else
      match s.spareColumn r.channels column with
      | none => .next (s.needsSpace r.channels)
      | some _ => .next (s.setRegion { r with gen := r.gen + 1, cursor := some 0, excluded := some column })

/-- A region that uses the failing bank of a column and has not been re-striped. -/
def State.stillUses (s : State) (col : Nat) (r : Region) : Bool :=
  r.inService && r.onColumn col && !(r.excluded == some col && r.cursor.isNone) && (r.cursor.isSome || s.usesBank r col)

/-- The bank is removed once no region uses it (R15 step 6): a spare bank of the set takes its place. -/
def State.removeBank (s : State) (r : Region) (col : Nat) : State :=
  if s.pkg.regions.any (s.stillUses col) then s
  else
    let donor := (s.spareColumn r.channels col).getD col
    let x := s.pkg.columns.getD col Column.reset
    let x := { x with banks := x.banks - 1, failed := min 255 (x.failed + 1) }
    let s := if donor == col then s.putColumn col { x with spare := x.spare - 1 }
      else
        let y := s.pkg.columns.getD donor Column.reset
        (s.putColumn col x).putColumn donor { y with spare := y.spare - 1 }
    { s with pkg := { s.pkg with regions := s.pkg.regions.map fun y => if y.excluded == some col then { y with excluded := none } else y } }

/-- RESTRIPE_UNIT_MOVE: one 4 KiB unit moves; its lines that cannot be read are poisoned in their new place, in DRAM: a line that L2 holds
keeps its own value and mark. No byte changes. -/
def execRestripeUnitMove (region : Nat) (unreadable : List Nat) (s : State) : Host.Outcome State Fault Refusal :=
  match s.region? region with
  | none => .next s
  | some r =>
    match r.cursor, r.excluded with
    | some at_, some col =>
      let s := (unreadable.filter fun i => decide (i < 64)).foldl (fun (s : State) i => s.dramPoison (region * 2 ^ 30 + at_ + 64 * i) true) s
      let next := at_ + 4096
      if next < 2 ^ 30 then .next (s.setRegion { r with cursor := some next })
      else .next ((s.setRegion { r with cursor := none }).removeBank r col)
    | _, _ => .next s

/-! ### Heat and power (spec/17 R324, R345) -/

def State.channelOwner (s : State) (ch : Nat) : Option Nat := s.tenants.findIdx? fun t => t.own.channels.getLsbD ch

/-- Two tenants meet at a hot bank: the channel's and the cluster's. -/
def State.crossHot (s : State) (col ch : Nat) : Bool :=
  match s.channelOwner ch, s.clusterOwner col with
  | some a, some b => a != b
  | _, _ => false

def State.island (s : State) (n : Nat) : Island := s.pkg.islands.getD n Island.reset

def State.setIsland (s : State) (n : Nat) (x : Island) : State := { s with pkg := { s.pkg with islands := s.pkg.islands.set n x } }

def State.setHot (s : State) (col : Nat) (hot : List (Nat × Nat)) : State :=
  { s with pkg := { s.pkg with columns := s.pkg.columns.set col { s.pkg.columns.getD col Column.reset with hot := hot } } }

/-- BANK_OVERTEMP: a bank, of the 216 behind a channel, has passed 85 °C or has cooled to 83 °C. -/
def execBankOvertemp (channel bank : Nat) (hot : Bool) (s : State) : Host.Outcome State Fault Refusal :=
  let column := channel / 4
  let old := (s.pkg.columns.getD column Column.reset).hot
  if decide (24 ≤ column) || decide (216 ≤ bank) || old.contains (channel, bank) == hot then .next s
  else if hot then
    let s := s.setHot column ((channel, bank) :: old)
    let s := match s.channelOwner channel with
      | some t => s.tenantEvent t 0x02 (BitVec.ofNat 64 channel)
      | none => s
    if s.crossHot column channel then
      let s := s.setIsland column { s.island column with throttled := true }
      match s.clusterOwner column with
      | some t => .next (s.tenantEvent t 0x03 (BitVec.ofNat 64 column))
      | none => .next s
    else .next s
  else
    let rest := old.filter (· != (channel, bank))
    let s := s.setHot column rest
    .next (s.setIsland column { s.island column with throttled := rest.any fun x => s.crossHot column x.1 })

/-- One V/F step down or up, within the eight (R345). -/
def Island.shift (x : Island) (lower : Bool) : Island := { x with step := if lower then min 7 (x.step + 1) else x.step - 1 }

/-- THERMAL_THROTTLE_STEP: a throttled island goes down a step, one that is no longer throttled goes up. -/
def execThermalThrottleStep (island : Nat) (lower : Bool) (s : State) : Host.Outcome State Fault Refusal :=
  let x := s.island island
  if x.throttled == lower then .next (s.setIsland island (x.shift lower)) else .next s

/-- POWER_LIMIT_STEP: every island of the package; one that its heat throttles is not raised. -/
def execPowerLimitStep (lower : Bool) (s : State) : Host.Outcome State Fault Refusal :=
  .next { s with pkg := { s.pkg with islands := s.pkg.islands.map fun x => if !lower && x.throttled then x else x.shift lower } }

/-! ### Firmware, attestation, IDE keys (R325, R343, R344) -/

def imageOk (image : List Byte) : Bool := Config.firmwareSigned image && decide (Config.fusedMinimum ≤ Config.firmwareVersion image)

def execFwupdate (c : CmdSrc) (ptr len : DWord) (s : State) : Host.Outcome State Fault Refusal :=
  s.command c true opFwUpdate fun s =>
    let image := s.readRing ptr len.toNat
    if imageOk image then .done { s with pkg := { s.pkg with firmware := image } } eOk 0 else .done s eAuth 0

/-- The partition and IDE states as numbers, for their digests. -/
def State.partitionState (s : State) : List Nat :=
  s.tenants.flatMap fun t => [t.own.clusters.toNat, t.own.slices.toNat, t.own.channels.toNat, t.own.engines.toNat, t.own.ports.toNat]

def execAttest (c : CmdSrc) (nonce dst : DWord) (s : State) : Host.Outcome State Fault Refusal :=
  s.command c true opAttest fun s =>
    let report := Config.attestReport (s.readRing nonce 32) s.pkg.firmware s.partitionState (s.pkg.ideKeys.map (·.1))
    .done (s.writeRing dst report) eOk 0

/-- IDE_KEY_MANAGEMENT: a key of an IDE stream of the host link. -/
def execIdeKeyManagement (stream : Nat) (key : BitVec 256) (s : State) : Host.Outcome State Fault Refusal :=
  .next { s with pkg := { s.pkg with ideKeys := (stream, key) :: s.pkg.ideKeys.filter fun x => x.1 != stream } }

end Sys2Proof.Machine
end

