-- ==== Sys2Proof/Machine/Links.lean ====
section
/-!
DEFINITION. Pleip links (spec/18 R336 to R339, spec/21 R350 to R353): packets received and applied, acknowledgement and replay, lane loss
and retraining.
-/

namespace Sys2Proof.Machine

/-! ### The port's record (spec/21 R351) -/

/-- The tenant that owns a Pleip port. -/
def State.portOwner (s : State) (n : Nat) : Option Nat := s.tenants.findIdx? fun t => t.own.ports.getLsbD n

/-- The detail word of a link-state event. -/
def Port.detail (p : Port) (n : Nat) : DWord := BitVec.ofNat 64 (n + p.lanes.toNat * 2 ^ 16 + p.state.toNat * 2 ^ 32)

/-- A link-state event goes to the package function and to the port's owner (R338). -/
def State.linkEvent (s : State) (n : Nat) : State :=
  let d := (s.port n).detail n
  let s := s.packageEvent 0x04 d
  match s.portOwner n with
  | some t => s.tenantEvent t 0x04 d
  | none => s

/-- The two words of a port's link record. -/
def Port.word0 (p : Port) : DWord :=
  BitVec.ofNat 8 0 ++ p.far ++ p.lanes ++ BitVec.ofNat 28 0 ++ p.state

def Port.word1 (p : Port) : DWord := p.replays ++ p.retrains ++ BitVec.ofNat 16 0

def addSat {w : Nat} (x : BitVec w) : BitVec w := if x == BitVec.allOnes w then x else x + 1

/-- Up on some lanes. -/
def Port.up (p : Port) : Bool := p.state == 2 || p.state == 3 || p.state == 4

/-- The state of a port that is up on some lanes; none is down. -/
def stateOf (lanes : BitVec 16) : BitVec 4 :=
  match (bitsOf lanes).length with
  | 16 => 2
  | 8 => 3
  | 4 => 4
  | _ => 0

/-! ### The sender (R337) -/

/-- The packets of a replay buffer after the one of a number, and those up to it; none is released where no packet has the number. -/
def splitAfter (ack : BitVec 12) (buf : List SentPacket) : List SentPacket × List SentPacket :=
  match buf.findIdx? fun x => x.packet.seq == ack with
  | some i => (buf.take (i + 1), buf.drop (i + 1))
  | none => ([], buf)

/-- Packets are acknowledged: their writes have settled (spec/09 R163), copies and waves that waited for them go on (spec/03 R69, R71), and
held packets follow. -/
def State.release (s : State) (gone : List SentPacket) : State :=
  let ids := gone.filterMap (·.settles)
  let s : State := { s with unsettled := s.unsettled.filter fun u => u.owner == .loc || !ids.contains u.id }
  let s := (gone.filterMap (·.job)).foldl (fun s id => s.finishJob id) s
  s.endAcks.releaseHeld

/-- Packets up to a number leave the buffer. -/
def State.ackUpTo (s : State) (n : Nat) (ack : BitVec 12) : State :=
  let p := s.port n
  let (gone, rest) := splitAfter ack p.buffer
  (s.setPort n { p with acked := ack, buffer := rest }).release gone

/-- Send every unacknowledged packet again, as it was built, in order; one replay is counted. -/
def State.replay (s : State) (n : Nat) : State :=
  let p := s.port n
  let s := s.setPort n { p with replays := addSat p.replays }
  p.buffer.foldl (fun (s : State) x => s.emit (.packet n x.packet)) s

/-- PLEIP_ACK_RECEIVE. -/
def execPleipAckReceive (port : Nat) (ack : BitVec 12) (s : State) : Host.Outcome State Fault Refusal :=
  if (s.port port).up then .next (s.ackUpTo port ack) else .next s

/-- PLEIP_NAK_RECEIVE: the NAK's ACK releases, and the rest is sent again. -/
def execPleipNakReceive (port : Nat) (ack : BitVec 12) (s : State) : Host.Outcome State Fault Refusal :=
  if (s.port port).up then .next ((s.ackUpTo port ack).replay port) else .next s

/-- PLEIP_REPLAY_TIMEOUT: 20 µs without progress while packets are outstanding. -/
def execPleipReplayTimeout (port : Nat) (s : State) : Host.Outcome State Fault Refusal :=
  if (s.port port).up && !(s.port port).buffer.isEmpty then .next (s.replay port) else .next s

/-! ### The receiver (R336, R337, spec/21 R352) -/

/-- A packet of a type that is not sequenced: an acknowledge packet or a NAK. -/
def controlPacket (type : Nat) (ack : BitVec 12) : Packet :=
  let p : Packet := { type := BitVec.ofNat 8 type, seq := 0, ack := ack, nfl := 0, src := Config.deviceIndex, poison := 0, addr := 0,
                      lcv := [], ops := [], hcv := 0, lines := [] }
  { p with hcv := crc32c (packetHead p) }

/-- HCV and every LCV verify, and the payload has the flits the header counts. -/
def packetOk (p : Packet) : Bool :=
  p.hcv == crc32c (packetHead p) && decide (p.lines.length ≤ 32) && p.nfl.toNat == (p.lines.length + 3) / 4 &&
  p.lines.zipIdx.all fun x => p.lcv.getD x.2 0 == lineCheck x.1

/-- The packet is one that a port takes in turn. -/
def sequenced (p : Packet) : Bool := decide (1 ≤ p.type.toNat) && decide (p.type.toNat ≤ 5)

/-- The byte mask of payload line i: the masks of a partial first and last line stand in OPS. -/
def packetMask (p : Packet) (i : Nat) : ByteMask :=
  let ops := bytesNat p.ops
  let m := if i == 0 then ops / 2 ^ 16 % 2 ^ 64 else if i + 1 == p.lines.length then ops / 2 ^ 80 % 2 ^ 64 else 0
  if m == 0 then BitVec.allOnes 64 else BitVec.ofNat 64 m

/-- Poison bits of the payload lines: 20 in the header word, the rest in OPS. -/
def packetPoison (p : Packet) (i : Nat) : Bool :=
  if i < 20 then p.poison.getLsbD i else (bytesNat p.ops).testBit (i - 20)

/-- The owner of an address that a peer names: the port's tenant, of whose regions it must be (R13: the owner checks it; log 30). -/
def State.ownAddr (s : State) (port a : Nat) : Option Nat :=
  match s.portOwner port with
  | some t => if (s.tenant t).regions.contains (a / 2 ^ 30) && s.locOk a then some t else none
  | none => none

/-- One received line lands at its D: the masked bytes; a poisoned line stays poisoned (R39). -/
def State.ingress (s : State) (port a : Nat) (mask : ByteMask) (d : LineData) (poisoned : Bool) : State :=
  match s.ownAddr port a with
  | none => s
  | some t => s.writePhys t a mask d poisoned

/-- Send a sequenced answer on the port that asked, or hold it while the port's replay buffer holds 1,024 packets (R337). -/
def State.answer (s : State) (port : Nat) (p : Packet) : State :=
  let sp : SentPacket := { packet := p, job := none, lid := none, va := none }
  if decide ((s.port port).buffer.length < 1024) && !s.heldPackets.any (·.port == some port) then s.sendOn port sp
  else
    { s with heldPackets := s.heldPackets ++
        [{ tenant := (s.portOwner port).getD 16, peer := (s.port port).far.toNat, sent := sp, port := some port }] }

/-- A line that a peer reads: through its physical home (R25), verified; core writes that have not settled for the link path may be
overtaken (spec/09 R163). An address that is not one of the tenant's gives a free value (log 30). -/
def State.linkRead (s : State) (port a : Nat) : State × LineData × Bool :=
  match s.ownAddr port a with
  | none => let (d, s) := s.draw 512; (s, d, false)
  | some t =>
    let s := (s.physFill t a).verify a
    let (s, d) := s.readUnsettled 3 none .loc false a (memLine s.mem a)
    (s, d, s.poisoned a)

/-- A line that a peer answers with: this device's view of it, and whether it is poisoned (R39). -/
def State.farLine (s : State) (far a : Nat) (d : LineData) (poisoned : Bool) : State :=
  ({ s with peerMem := memPutLine s.peerMem (peerAddr far a) (BitVec.allOnes 64) d } : State).setFarPoison (.peer far) a poisoned

/-- What an accepted packet does. -/
def State.applyPacket (s : State) (port : Nat) (p : Packet) : State :=
  let a := p.addr.toNat
  let far := (s.port port).far.toNat
  match p.type.toNat with
  | 1 => p.lines.zipIdx.foldl (fun (s : State) x => s.ingress port (a + 64 * x.2) (packetMask p x.2) x.1 (packetPoison p x.2)) s
  | 2 =>
    let (s, d, bad) := s.linkRead port a
    s.answer port { writePacket a [d] 0 0 with type := 3, poison := if bad then 1 else 0 }
  | 3 => p.lines.zipIdx.foldl (fun (s : State) x => s.farLine far (a + 64 * x.2) x.1 (packetPoison p x.2)) s
  | 4 =>
    -- the operands have no layout in the manual: the line's new contents and the answer are free (log 20)
    let (d, s) := s.draw 512
    let (old, s) := s.draw 864
    let s := s.ingress port a (BitVec.allOnes 64) d (s.poisoned a)
    s.answer port { askPacket 0x05 a (natBytes 108 old.toNat) with src := Config.deviceIndex }
  | _ => s

/-- After a discard the receiver sends one NAK. -/
def State.discard (s : State) (port : Nat) : State :=
  let p := s.port port
  if p.nakSent then s
  else (s.setPort port { p with nakSent := true }).emit (.packet port (controlPacket 0x11 (p.expected - 1)))

/-- PLEIP_PACKET_RECEIVE: a packet with the expected number that verifies is applied, and the ACK of every verified header counts; any
other is discarded. While a link is down or retrains its flits are lost (R353). -/
def execPleipPacketReceive (port : Nat) (p : Packet) (s : State) : Host.Outcome State Fault Refusal :=
  if !(s.port port).up then .next s
  else if !packetOk p then .next (s.discard port)
  else if p.type == 0x10 then execPleipAckReceive port p.ack s
  else if p.type == 0x11 then execPleipNakReceive port p.ack s
  else
    let s := s.ackUpTo port p.ack
    if sequenced p && p.seq == (s.port port).expected then
      let s := s.applyPacket port p
      let x := s.port port
      .next (s.setPort port { x with expected := x.expected + 1, nakSent := false, ackDue := true })
    else .next (s.discard port)

/-- PLEIP_ACK_TIMER: with no other traffic for 256 link cycles an acknowledgement travels alone. -/
def execPleipAckTimer (port : Nat) (s : State) : Host.Outcome State Fault Refusal :=
  let p := s.port port
  if p.up && p.ackDue then .next ((s.setPort port { p with ackDue := false }).emit (.packet port (controlPacket 0x10 (p.expected - 1))))
  else .next s

/-! ### Lane loss and retraining (R338, spec/21 R353) -/

/-- The lanes left when one is lost: the other half, the other quarter of the half, or none. -/
def lanesAfter (lanes : BitVec 16) (lost : Nat) : BitVec 16 :=
  let half (h : Nat) : BitVec 16 := BitVec.ofNat 16 (0xFF * 2 ^ (8 * h))
  let quarter (q : Nat) : BitVec 16 := BitVec.ofNat 16 (0xF * 2 ^ (4 * q))
  match (bitsOf lanes).length with
  | 16 => half (1 - lost / 8)
  | 8 => lanes &&& ~~~(quarter (lost / 4))
  | _ => 0

/-- LANE_LOSS: the two ends retrain on the lanes left; without any, the link goes down. -/
def execLaneLoss (port lane : Nat) (s : State) : Host.Outcome State Fault Refusal :=
  let p := s.port port
  if p.state == 0 || !p.lanes.getLsbD lane then .next s
  else
    let lanes := lanesAfter p.lanes lane
    if lanes == 0 then .next ((s.setPort port { p with lanes := 0, state := 0, retrains := addSat p.retrains }).linkEvent port)
    else .next (s.setPort port { p with lanes := lanes, state := 1 })

/-- The end of training on some lanes: each end hands over the last number its receiver has accepted; the packets the peer has accepted
are released, the rest is replayed, and held accesses follow. -/
def State.trained (s : State) (port : Nat) (lanes : BitVec 16) (peerAck : BitVec 12) : State :=
  let p := s.port port
  let s := s.setPort port { p with lanes := lanes, state := stateOf lanes, retrains := addSat p.retrains, nakSent := false }
  if stateOf lanes == 0 then s.linkEvent port
  else
    let (gone, rest) := splitAfter peerAck p.buffer
    let s := s.setPort port { s.port port with acked := peerAck, buffer := rest }
    let s := (s.emit (.trainExchange port (p.expected - 1))).replay port
    (s.release gone).linkEvent port

/-- RETRAIN_COMPLETE. -/
def execRetrainComplete (port : Nat) (peerAck : BitVec 12) (s : State) : Host.Outcome State Fault Refusal :=
  if (s.port port).state == 1 then .next (s.trained port (s.port port).lanes peerAck) else .next s

/-- The widest set of lanes that a link runs on among those that lock: all, a half, a quarter. -/
def lockedLanes (locks : BitVec 16) : BitVec 16 :=
  let sets : List (BitVec 16) := [0xFFFF, 0x00FF, 0xFF00, 0x000F, 0x00F0, 0x0F00, 0xF000]
  (sets.find? fun m => m &&& locks == m).getD 0

/-- LINKRETRAIN: retrain on every lane that locks; training learns the far end. -/
def execLinkretrain (c : CmdSrc) (port : Nat) (locks : BitVec 16) (peerAck : BitVec 12) (s : State) : Host.Outcome State Fault Refusal :=
  s.command c true opLinkRetrain fun s =>
    if 8 ≤ port then .done s eBadCmd 0
    else
      let lanes := lockedLanes locks
      let s := if lanes == 0 then s else s.setPort port { s.port port with far := Config.farEnd port }
      .done (s.trained port lanes peerAck) eOk 0

end Sys2Proof.Machine
end

