-- ==== Sys2Proof/Machine/Migrate.lean ====
section
/-!
DEFINITION. Migration over Ultra Ethernet (spec/18 R340 to R342): pre-copy rounds, sealed messages received, and the restore of context
state from records. The layout of the 32-byte header and of the records' bodies is the model's (log 19).
-/

namespace Sys2Proof.Machine

/-! ### Messages (R341) -/

/-- The nonce: stream number, then counter. -/
def nonceOf (stream : BitVec 32) (counter : Nat) : List Byte := natBytes 4 stream.toNat ++ natBytes 8 counter

/-- The 32-byte header: stream, counter, round, kind, region ordinal, frame offset and length. -/
def headerOf (stream : BitVec 32) (counter round kind ordinal off len : Nat) : List Byte :=
  natBytes 4 stream.toNat ++ natBytes 8 counter ++ natBytes 4 round ++ natBytes 4 kind ++ natBytes 4 ordinal ++ natBytes 4 off ++
  natBytes 4 len

def sealMessage (key : BitVec 256) (stream : BitVec 32) (counter round kind ordinal off : Nat) (payload : List Byte) : UeMessage :=
  let aad := headerOf stream counter round kind ordinal off payload.length
  let (ct, tag) := gcmSeal (natBytes 32 key.toNat) (nonceOf stream counter) aad payload
  { stream := stream, counter := BitVec.ofNat 64 counter, aad := aad, sealed := ct, tag := tag }

/-! ### PRECOPY -/

/-- What a round is made with. -/
structure Round where
  t : Nat
  port : Nat
  peer : DWord
  key : BitVec 256
  stream : BitVec 32
  num : Nat

/-- The frames of a tenant: region ordinal and offset, in ascending order. -/
def State.frames (s : State) (t : Nat) : List (Nat × Nat) :=
  (List.range (s.tenant t).regions.length).flatMap fun n => (List.range 262144).map fun f => (n, 4096 * f)

/-- Whether the tenant's bitmap reports a frame. -/
def State.frameDirty (s : State) (t : Nat) (f : Nat × Nat) : Bool :=
  match (s.tenant t).track with
  | some (base, _) => bitmapGet s.mem base (f.1 * 262144 + f.2 / 4096)
  | none => false

/-- Clear a frame's dirty bit: a later write sets it again (R34). -/
def State.clearFrame (s : State) (t : Nat) (f : Nat × Nat) : State :=
  match (s.tenant t).track with
  | none => s
  | some (base, _) =>
    let b := f.1 * 262144 + f.2 / 4096
    let byte := memRead s.mem (base + b / 8) &&& ~~~((1 : Byte) <<< (b % 8 : Nat))
    (s.putBytes (base + b / 8) [byte]).unreport t fun x => x == b

def State.frameAddr (s : State) (t : Nat) (f : Nat × Nat) : Nat := (s.tenant t).regions.getD f.1 0 * 2 ^ 30 + f.2

/-- Send frames in order: each frame's bit is cleared, then the frame is read at D. A poisoned frame has no poison indicator to travel
with, and the transfer fails (R39). -/
def State.sendFrames (s : State) (r : Round) : List (Nat × Nat) → Nat → State × Nat × Bool
  | [], n => (s, n, false)
  | f :: fs, n =>
    let s := s.clearFrame r.t f
    let a := s.frameAddr r.t f
    if s.poisonIn a 4096 then (s, n, true)
    else
      let m := sealMessage r.key r.stream n r.num 0 f.1 f.2 (memBytes s.mem a 4096)
      (s.emit (.message r.port r.peer m)).sendFrames r fs (n + 1)

/-- Send records, up to 4 KiB in a message. -/
def State.sendRecords (s : State) (r : Round) (bs : List Byte) (n : Nat) : State :=
  ((List.range ((bs.length + 4095) / 4096)).foldl (fun (s : State) i =>
    s.emit (.message r.port r.peer (sealMessage r.key r.stream (n + i) r.num 1 0 0 ((bs.drop (4096 * i)).take 4096)))) s)

/-- PRECOPY: one round, kind 0 full or 1 dirty, then the records that its pointer names. -/
def execPrecopy (c : CmdSrc) (port : Nat) (peer : DWord) (stream : BitVec 32) (kind : Nat) (records len : DWord) (s : State) :
    Host.Outcome State Fault Refusal :=
  s.command c false opPreCopy fun s =>
    let t := s.tenant c.fn
    match t.key with
    | none => .done s eBadCmd 0
    | some key =>
      if decide (4 ≤ port) || !t.own.ports.getLsbD (8 + port) || decide (2 ≤ kind) || (kind == 1 && t.track.isNone) then .done s eBadCmd 0
      else if t.sent.any fun x => x.num == stream then .done s eReuse 0
      else
        let r : Round := { t := c.fn, port := port, peer := peer, key := key, stream := stream, num := t.round }
        let todo := if kind == 0 then s.frames c.fn else (s.frames c.fn).filter (s.frameDirty c.fn)
        let (s, n, failed) := s.sendFrames r todo 0
        let s := if failed || records == 0 then s else s.sendRecords r (s.readRing records len.toNat) n
        let x := s.tenant c.fn
        let s := s.setTenant c.fn { x with round := x.round + 1,
                                           sent := { num := stream, counter := n, seen := [], failed := failed, records := [] } :: x.sent }
        .done s (if failed then eUce else eOk) n

/-! ### UE_MESSAGE_RECEIVE -/

def Stream.fresh (n : BitVec 32) : Stream := { num := n, counter := 0, seen := [], failed := false, records := [] }

def streamOf (xs : List Stream) (n : BitVec 32) : Stream := (xs.find? fun x => x.num == n).getD (Stream.fresh n)

def putStream (xs : List Stream) (x : Stream) : List Stream := x :: xs.filter fun y => y.num != x.num

/-- A field of a header. -/
def headerField (aad : List Byte) (at_ n : Nat) : Nat := bytesNat ((aad.drop at_).take n)

/-- Bytes written from a line's start on, through the lines' physical homes. -/
def State.putPhys (s : State) (t a : Nat) (bs : List Byte) : State :=
  (List.range ((bs.length + 63) / 64)).foldl (fun (s : State) i =>
    let piece := (bs.drop (64 * i)).take 64
    s.writePhys t (a + 64 * i) (BitVec.ofNat 64 (2 ^ piece.length - 1)) (BitVec.ofNat 512 (bytesNat piece))) s

/-- A frame lands in the region of its ordinal, at D (R38). -/
def State.landFrame (s : State) (t ordinal off : Nat) (payload : List Byte) : State :=
  match (s.tenant t).regions[ordinal]? with
  | none => s
  | some r => if off + payload.length ≤ 2 ^ 30 then s.putPhys t (r * 2 ^ 30 + off) payload else s

/-- UE_MESSAGE_RECEIVE: a message whose tag fails or whose counter was seen is dropped and counted, and its stream has failed; otherwise
its frame lands, or its records wait for RESTORE. -/
def execUeMessageReceive (tenant port : Nat) (m : UeMessage) (s : State) : Host.Outcome State Fault Refusal :=
  let t := s.tenant tenant
  let x := streamOf t.received m.stream
  let counter := m.counter.toNat
  let drop := s.setTenant tenant { t with dropped := t.dropped + 1, received := putStream t.received { x with failed := true } }
  if decide (16 ≤ tenant) || !t.own.ports.getLsbD (8 + port) then .next s
  else
    match t.key.bind fun key => gcmOpen (natBytes 32 key.toNat) (nonceOf m.stream counter) m.aad m.sealed m.tag with
    | none => .next drop
    | some payload =>
      if x.seen.contains counter then .next drop
      else
        let x := { x with seen := counter :: x.seen, counter := max x.counter (counter + 1) }
        if headerField m.aad 16 4 == 0 then
          .next ((s.setTenant tenant { t with received := putStream t.received x }).landFrame tenant (headerField m.aad 20 4)
            (headerField m.aad 24 4) payload)
        else
          .next (s.setTenant tenant { t with received := putStream t.received { x with records := (counter, payload) :: x.records } })

/-! ### RESTORE (R342) -/

/-- A type-length-version record. -/
structure Tlv where
  type : Nat
  version : Nat
  req : Bool
  body : List Byte

/-- Cut a stream into records (R76's head, each record padded to a multiple of 8 bytes); none where one runs past the end or has a
reserved bit set. -/
def cutRecords : Nat → List Byte → Option (List Tlv)
  | 0, _ => some []
  | fuel + 1, bs =>
    if bs.isEmpty then some []
    else
      let h := bytesNat (bs.take 8)
      let n := h / 2 ^ 32
      let size := 8 + (n + 7) / 8 * 8
      if decide (bs.length < 8 + n) || h / 2 ^ 25 % 2 ^ 7 != 0 then none
      else (cutRecords fuel (bs.drop size)).map fun rs =>
        { type := h % 2 ^ 16, version := h / 2 ^ 16 % 2 ^ 8, req := h / 2 ^ 24 % 2 == 1, body := (bs.drop 8).take n } :: rs

def Tlv.known (r : Tlv) : Bool := decide (0x0101 ≤ r.type) && decide (r.type ≤ 0x0107) && decide (r.version ≤ 1)

/-- A local address of the sender at the destination: the region of the same ordinal. -/
def State.relocate (s : State) (t : Nat) (stream : List Byte) (a : Nat) : Option Nat :=
  ((s.tenant t).regions[Config.sourceOrdinal stream (a / 2 ^ 30)]?).map fun r => r * 2 ^ 30 + a % 2 ^ 30

/-- A page-table entry whose FRAME names local memory, rewritten. -/
def State.relocatePte (s : State) (t : Nat) (stream : List Byte) (e : DWord) : Option DWord :=
  if e.getLsbD 0 && e.extractLsb' 6 2 == 0 then
    (s.relocate t stream (pteFrame e)).map fun a =>
      (e &&& ~~~((BitVec.ofNat 64 (2 ^ 40 - 1)) <<< 12)) ||| BitVec.ofNat 64 (a / 4096 % 2 ^ 40 * 4096)
  else some e

def allSome {α : Type} : List (Option α) → Option (List α)
  | [] => some []
  | none :: _ => none
  | some x :: xs => (allSome xs).map (x :: ·)

/-- The pages of a page-table record with their entries rewritten: where each goes and its bytes. -/
def State.relocateTables (s : State) (t : Nat) (stream body : List Byte) : Option (List (Nat × List Byte)) :=
  allSome ((Config.recordTables body).map fun p =>
    (s.relocate t stream p.1).bind fun a =>
      (allSome ((List.range 512).map fun i => s.relocatePte t stream (BitVec.ofNat 64 (bytesNat ((p.2.drop (8 * i)).take 8))))).map
        fun es => (a, wordsBytes es))

/-- The launch, the block and the deck image that a block record stands for: symbolic, without a layout in the manual (log 19). -/
opaque restoredLaunch : List Byte → Option Launch

opaque restoredBlock : List Byte → Option Block

opaque restoredDeck : List Byte → List Byte

/-- The handler window of a wave of a block record (spec/17 R311). -/
opaque restoredWindow : List Byte → Nat → List Byte

/-- A descriptor record: a context whose pointers name the destination's regions. -/
def State.restoreDescriptor (s : State) (t : Nat) (stream body : List Byte) : Option (State × Ctx) :=
  let d := (List.range 16).map fun i => BitVec.ofNat 64 (bytesNat ((body.drop (8 * i)).take 8))
  let moved := allSome (d.zipIdx.map fun w =>
    if [1, 2, 3, 4, 6, 10].contains w.2 && w.1 != 0 then (s.relocate t stream w.1.toNat).map (BitVec.ofNat 64) else some w.1)
  match moved, s.relocate t stream (Config.recordPlace body) with
  | some d, some a =>
    let n := Config.recordContext body % 4096
    if (s.ctx? t n).isSome || !descOk d then none
    else
      let x := newCtx t n a d
      some ({ s with ctxs := x :: s.ctxs }.devPut a (wordsBytes d), x)
  | _, _ => none

/-- New windows for the waves of a block record that are in their handlers: taken from the pool, and written (spec/17 R311). -/
def State.restoreWindows (s : State) (t ctx : Nat) (body : List Byte) : List Wave → Nat → Option (State × List Wave)
  | [], _ => some (s, [])
  | w :: ws, i =>
    match w.frame with
    | none => (s.restoreWindows t ctx body ws (i + 1)).map fun x => (x.1, w :: x.2)
    | some f =>
      (s.takePool t ctx (windowSize w.regs.nv)).bind fun x =>
        let s := x.2.devPut x.1 ((restoredWindow body i).take (windowSize w.regs.nv))
        (s.restoreWindows t ctx body ws (i + 1)).map fun y => (y.1, { w with frame := some { f with window := x.1 } } :: y.2)

/-- A block record: the block waits off its core for a place, its deck and its waves' windows in the destination's pool, the deck's header
naming them; RESUMED is set as it returns. -/
def State.restoreBlock (s : State) (t : Nat) (x : Ctx) (body : List Byte) : Option State :=
  match restoredLaunch body, restoredBlock body with
  | some l, some b =>
    match s.takePool t x.num b.deckSize with
    | none => none
    | some (a, s) =>
      let old := s.launches.find? fun y => y.src.fn == t && y.src.q == l.src.q && y.src.seq == l.src.seq
      let s := s.tick
      let lid := old.elim s.stamp (·.lid)
      let l := { l with lid := lid, src := { l.src with fn := t }, ctx := x.num, state := .running }
      let s : State := if old.isSome then s else { s with launches := s.launches ++ [l] }
      (s.restoreWindows t x.num body b.waves 0).map fun y =>
        let b := { b with lid := lid, place := .away, deck := a, waves := y.2 }
        (({ y.1 with blocks := y.1.blocks ++ [b] } : State).devPut a ((restoredDeck body).take b.deckSize)).writeHeader b
  | _, _ => none

/-- The fields of QCTL (R327). -/
def qctlKnown (x : DWord) : DWord := x &&& 0xFFF0F001

/-- Queue registers of a queue-state record: number, QCTL, QBASE, QHEAD, QTAIL, CBASE and CHEAD; QCTL's reserved bits stay zero (spec/00
R4). -/
def State.restoreQueue (s : State) (t : Nat) (ns : List Nat) : State :=
  let w (i : Nat) : DWord := BitVec.ofNat 64 (ns.getD i 0)
  s.setCmdQueue t (ns.getD 0 0 % 64) { CmdQueue.reset with qctl := qctlKnown (w 1), qbase := w 2 &&& ~~~127, qhead := w 3, qtail := w 4, cbase := w 5 &&& ~~~31, chead := w 6 }

/-- Caps of one core after another, six numbers each. -/
def capsList : List Nat → List Caps
  | a :: b :: c :: d :: e :: f :: ns => { segs := a, slots := b, tricks := c, tags := d, banks := e, waves := f } :: capsList ns
  | _ => []

/-- The slice and the caps of a share record, six for each core; its cores are the destination's own (R342). -/
def shareFrom (x : Ctx) (ns : List Nat) : Ctx :=
  { x with slice := max 65536 (ns.getD 0 0 % 2 ^ 32), caps := capsList (ns.drop 1) }

/-- Install one known record; the records after a descriptor are its context's. -/
def State.restoreRecord (s : State) (t : Nat) (stream : List Byte) (cur : Option Nat) (r : Tlv) : Option (State × Option Nat) :=
  if r.type == 0x0101 then (s.restoreDescriptor t stream r.body).map fun x => (x.1, some x.2.num)
  else if r.type == 0x0105 then some (s.restoreQueue t (Config.recordNumbers r.type r.body), cur)
  else
    match cur.bind (s.ctx? t) with
    | none => none
    | some x =>
      if r.type == 0x0102 then some (s.devPut x.rbBase (r.body.take 4096), cur)
      else if r.type == 0x0103 then
        let s := s.devPut x.ttBase (r.body.take 16384)
        some (s.setCtx { x with table := s.tableOf x.ttBase }, cur)
      else if r.type == 0x0104 then
        (s.relocateTables t stream r.body).map fun ps => (ps.foldl (fun (s : State) p => s.devPut p.1 p.2) s, cur)
      else if r.type == 0x0106 then (s.restoreBlock t x r.body).map fun s => (s, cur)
      else some (s.setCtx (shareFrom x (Config.recordNumbers r.type r.body)), cur)

def State.restoreAll (s : State) (t : Nat) (stream : List Byte) : List Tlv → Option Nat → Option State
  | [], _ => some s
  | r :: rs, cur =>
    if r.known then (s.restoreRecord t stream cur r).bind fun x => x.1.restoreAll t stream rs x.2 else s.restoreAll t stream rs cur

/-- RESTORE: nothing is installed where a required record is unknown, or where the destination has too few regions. -/
def execRestore (c : CmdSrc) (ptr len : DWord) (s : State) : Host.Outcome State Fault Refusal :=
  s.command c false opRestore fun s =>
    let stream := s.readRing ptr len.toNat
    if (s.tenant c.fn).received.any (·.failed) then .done s eAuth 0
    else
      match cutRecords stream.length stream with
      | none => .done s eRestoreFail 0
      | some rs =>
        if rs.any (fun r => r.req && !r.known) || decide ((s.tenant c.fn).regions.length < Config.sourceRegions stream) then
          .done s eRestoreFail 0
        else
          match s.restoreAll c.fn stream rs none with
          | none => .done s eRestoreFail 0
          | some s => .done (s.settleTurn c.fn) eOk 0

end Sys2Proof.Machine
end

