-- ==== Sys2Proof/Machine/Host.lean ====
section
/-!
DEFINITION. What the host does to the device (spec/18 R325 to R328, R333; spec/09 R167, R169; spec/01 R12): register writes and reads, tail
writes, resets, and CXL.mem accesses.
-/

namespace Sys2Proof.Machine

/-! ### Tail writes (R328, spec/09 R167) -/

/-- How many entries a ring holds between its head and a tail. -/
def ringSpan (size head tail : Nat) : Nat := (tail + size - head % size) % size

/-- A tail outside the ring, or one that leaves fewer entries than are available already: in a ring the second is a move backwards past
the head (log 32). -/
def badTail (q : CmdQueue) (tail : DWord) : Bool :=
  decide (q.size ≤ tail.toNat) || decide (ringSpan q.size q.qhead.toNat tail.toNat < ringSpan q.size q.qhead.toNat q.qtail.toNat)

/-- The BADTAIL event of a queue. -/
def State.badTailEvent (s : State) (fn q : Nat) : State :=
  if fn == pkgFn then s.packageEvent 0x05 (BitVec.ofNat 64 q) else s.tenantEvent fn 0x05 (BitVec.ofNat 64 q)

/-- FREE is read again for the launches of a queue (R301). -/
def State.rereadQueue (s : State) (fn q : Nat) : State :=
  { s with launches := s.launches.map fun l => if l.src.fn == fn && l.src.q == q then { l with held := false } else l }

/-- A valid tail makes the entries up to it available, after an ACQ.S for the queue's context; the out-edge of a launch that the queue
holds is read again. -/
def State.writeTail (s : State) (fn q : Nat) (tail : DWord) : State :=
  let x := s.cmdQueue fn q
  if fn != pkgFn && (s.tenant fn).resetting then s
  else if badTail x tail then s.badTailEvent fn q
  else
    let s := (s.setCmdQueue fn q { x with qtail := tail }).rereadQueue fn q
    match s.ctx? fn x.ctx with
    | some c => s.acquireS c
    | none => s

/-- A queue that the function has: 64 of a tenant, one of the package function (R326). -/
def hasQueue (fn q : Nat) : Bool := (decide (fn < 16) && decide (q < 64)) || (fn == pkgFn && q == 0)

def execQtailWrite (fn q : Nat) (tail : DWord) (s : State) : Host.Outcome State Fault Refusal :=
  if hasQueue fn q then .next (s.writeTail fn q tail) else .next s

/-! ### Register writes (R326, R327, R332, R5) -/

/-- QCTL: reserved bits stay zero, and QLOG stands while the queue is enabled. -/
def qctlWrite (old val : DWord) : DWord :=
  let keep := qctlKnown val
  if old.getLsbD 0 then (keep &&& ~~~0xF000) ||| (old &&& 0xF000) else keep

/-- A write to a queue's registers, by offset within its block. -/
def State.writeQueueReg (s : State) (fn q r : Nat) (val : DWord) : State :=
  let x := s.cmdQueue fn q
  match r with
  | 0x00 => if x.enabled then s else s.setCmdQueue fn q { x with qbase := val &&& ~~~127 }
  | 0x08 => s.setCmdQueue fn q { x with qctl := qctlWrite x.qctl val }
  | 0x10 => s.writeTail fn q val
  | 0x20 => s.setCmdQueue fn q { x with cbase := val &&& ~~~31 }
  | 0x28 => s.setCmdQueue fn q { x with chead := val }
  | _ => s

/-- A write to a ring's registers: BASE (zero turns the ring off), LOG, HEAD; TAIL is read only. -/
def Ring.write (x : Ring) (r : Nat) (val : DWord) : Ring :=
  match r with
  | 0x00 => { x with base := val, enabled := val != 0 }
  | 0x08 => { x with log := min 12 (val.toNat % 16) }
  | 0x10 => { x with head := val }
  | _ => x

/-- A write to the fault ring (at 0xC000) or the event ring (at 0xC020) of a function (log 29). -/
def State.writeRingReg (s : State) (fn r : Nat) (val : DWord) : State :=
  if fn == pkgFn then
    if r < 0x20 then s else { s with pkg := { s.pkg with events := s.pkg.events.write (r - 0x20) val } }
  else
    let t := s.tenant fn
    if r < 0x20 then s.setTenant fn { t with faults := t.faults.write r val }
    else s.setTenant fn { t with events := t.events.write (r - 0x20) val }

/-- REGISTER_WRITE: a 64-bit write into a function's BAR0; read-only places ignore it. A write to an island's record clears its replay
counter (spec/17 R323, log 29). -/
def execRegisterWrite (fn : Nat) (off : Nat) (val : DWord) (s : State) : Host.Outcome State Fault Refusal :=
  if decide (17 ≤ fn) || off % 8 != 0 || decide (0x10000 ≤ off) then .next s
  else if 0xC000 ≤ off then (if off < 0xC040 then .next (s.writeRingReg fn (off - 0xC000) val) else .next s)
  else if 0x8000 ≤ off then
    let q := (off - 0x8000) / 64
    if hasQueue fn q then .next (s.writeQueueReg fn q (off % 64) val) else .next s
  else if fn == pkgFn && decide (0x3000 ≤ off) && decide (off < 0x3000 + 16 * 24) then
    let n := (off - 0x3000) / 16
    .next (s.setIsland n { s.island n with replays := 0 })
  else .next s

/-! ### Register reads (R326, R327, R332; spec/00 R4, R5) -/

/-- A queue's registers as they read: QTAIL is write only and reads zero. -/
def CmdQueue.read (q : CmdQueue) : Nat → DWord
  | 0x00 => q.qbase
  | 0x08 => q.qctl
  | 0x18 => q.qhead
  | 0x20 => q.cbase
  | 0x28 => q.chead
  | _ => 0

def Ring.read (x : Ring) : Nat → DWord
  | 0x00 => x.base
  | 0x08 => BitVec.ofNat 64 x.log
  | 0x10 => x.head
  | 0x18 => x.tail
  | _ => 0

/-- Word n of the identity record: part, stepping and firmware security version. DESIGN CHOICE (log 29): their places in it. -/
def State.identityWord (s : State) (n : Nat) : DWord :=
  if n == 0 then BitVec.ofNat 32 (Config.firmwareVersion s.pkg.firmware) ++ Config.stepping ++ Config.part else 0

/-- Word n of the partition status: scrub-busy bits (spec/02 R56), those of clusters in word 0 and of slices in words 1 and 2 (log 29). -/
def State.partitionWord (s : State) (n : Nat) : DWord :=
  match n with
  | 0 => s.pkg.scrubCluster.setWidth 64
  | 1 => s.pkg.scrubSlice.setWidth 64
  | 2 => (s.pkg.scrubSlice >>> 64).setWidth 64
  | _ => 0

/-- Word n of an island's record: its step, the throttled flag in bit 8 and the replay counter in [63:32] (log 29). -/
def Island.word (x : Island) (n : Nat) : DWord :=
  if n == 0 then x.replays ++ BitVec.ofNat 23 0 ++ BitVec.ofBool x.throttled ++ BitVec.ofNat 8 x.step else 0

/-- Word n of the discovery table: the header, a reserved word, then two words for each column. -/
def State.discoveryWord (s : State) (n : Nat) : DWord :=
  if n == 0 then s.discoveryHeader
  else if decide (2 ≤ n) && decide (n < 50) then
    let c := s.pkg.columns.getD ((n - 2) / 2) Column.reset
    if n % 2 == 0 then c.word0 ((n - 2) / 2) else c.word1
  else 0

/-- What only the package function has, below its queue. -/
def State.packageWord (s : State) (off : Nat) : DWord :=
  let n := off % 0x1000 / 8
  match off / 0x1000 with
  | 0 => s.identityWord n
  | 1 => s.discoveryWord n
  | 2 => s.partitionWord n
  | 3 => if n < 48 then (s.island (n / 2)).word (n % 2) else 0
  | 4 => if n < 16 then (if n % 2 == 0 then (s.port (n / 2)).word0 else (s.port (n / 2)).word1) else 0
  | _ => 0

/-- A function's ring registers; the package function has no fault queue. -/
def State.ringWord (s : State) (fn r : Nat) : DWord :=
  if r < 0x20 then (if fn == pkgFn then 0 else (s.tenant fn).faults.read r)
  else (if fn == pkgFn then s.pkg.events else (s.tenant fn).events).read (r - 0x20)

/-- A 64-bit read of a function's BAR0; reserved bits and places, and what is write only, read zero. -/
def State.registerRead (s : State) (fn off : Nat) : DWord :=
  if decide (17 ≤ fn) || off % 8 != 0 || decide (0xC040 ≤ off) then 0
  else if 0xC000 ≤ off then s.ringWord fn (off - 0xC000)
  else if 0x8000 ≤ off then
    if hasQueue fn ((off - 0x8000) / 64) then (s.cmdQueue fn ((off - 0x8000) / 64)).read (off % 64) else 0
  else if fn == pkgFn then s.packageWord off
  else 0

/-- The host reads a register: nothing changes but what it is told. -/
def State.hostRead (s : State) (fn off : Nat) : Host.Outcome State Fault Refusal :=
  .next (s.emit (.registerValue fn off (s.registerRead fn off)))

/-! ### Resets (R333, spec/01 R12) -/

/-- A launch of a tenant under reset ends with RESET, and its record is written. -/
def State.resetLaunch (s : State) (lid : Nat) : State :=
  match s.launch? lid with
  | none => s
  | some l =>
    let s := s.endLaunch l eReset
    ((s.freeShadow l).forget lid).complete l.src opLaunch eReset 0

def CmdQueue.disable (q : CmdQueue) : CmdQueue := { q with qctl := 0, busy := false }

/-- FUNCTION_LEVEL_RESET: launches end, then queues, contexts, key and rings are off, and the tenant's clusters and slices are to be
scrubbed; memory and ownership stay. -/
def execFunctionLevelReset (tenant : Nat) (s : State) : Host.Outcome State Fault Refusal :=
  if 16 ≤ tenant then .next s
  else
    let s := (s.launches.filter fun l => l.src.fn == tenant).foldl (fun (s : State) l => s.resetLaunch l.lid) s
    let s := s.flushTenant tenant
    let t := s.tenant tenant
    let s := s.setTenant tenant
      { t with queues := t.queues.map (·.disable), key := none, sent := [], received := [],
               faults := { t.faults with enabled := false }, events := { t.events with enabled := false }, resetting := true }
    let s : State :=
      { s with ctxs := s.ctxs.filter fun c => c.tenant != tenant, jobs := s.jobs.filter fun j => j.tenant != tenant,
               tlb := s.tlb.filter fun e => e.tenant != tenant, walkCache := s.walkCache.filter fun e => e.tenant != tenant,
               heldPackets := s.heldPackets.filter fun h => h.tenant != tenant,
               pkg := { s.pkg with scrubCluster := s.pkg.scrubCluster ||| t.own.clusters,
                                   scrubSlice := s.pkg.scrubSlice ||| t.own.slices } }
    .next (s.settleReset tenant)

/-- A column as self-test measures it (R12). -/
def ColumnMeasure.column (m : ColumnMeasure) : Column :=
  Column.capacity { banks := m.banks, spare := m.spare, failed := min 255 m.failed, mainMib := 0, hot := [] }

/-- PACKAGE_RESET: everything of the device is as after reset, with what self-test measures of its 24 columns. The host's and the peers'
memories stand, and the boot ROM starts the image it accepts (R343). -/
def execPackageReset (cols : List ColumnMeasure) (regions : Nat) (s : State) : Host.Outcome State Fault Refusal :=
  if cols.length != 24 then .next s
  else
    let p : Package :=
      { Package.reset with columns := cols.map ColumnMeasure.column, regionsInService := regions,
                           regions := (List.range regions).map (fun n =>
                             { num := n, inService := true, channels := 0, gen := 0, cursor := none, excluded := none }),
                           firmware := if imageOk s.pkg.firmware then s.pkg.firmware else [] }
    .next { State.reset with agenda := s.agenda, stamp := s.stamp, fresh := s.fresh, pkg := p, hostMem := s.hostMem, peerMem := s.peerMem,
                             farPoison := s.farPoison, out := s.out }

/-! ### CXL.mem (R325, spec/09 R169, spec/01 R25, R38) -/

/-- The physical address of a byte of a tenant's window, which covers its regions in ascending order (log 33). -/
def State.windowAddr (s : State) (t a : Nat) : Option Nat := ((s.tenant t).regions[a / 2 ^ 30]?).map fun r => r * 2 ^ 30 + a % 2 ^ 30

/-- The whole lines that n bytes from a touch, within one region. -/
def touched (a n : Nat) : List Nat := if n == 0 then [] else (List.range ((a % 64 + n + 63) / 64)).map fun i => a / 64 * 64 + 64 * i

/-- HOST_CXL_MEM_READ: the D value of lines that are verified as they leave, with poison where a line has it. -/
def execHostCxlMemRead (tenant : Nat) (addr : Nat) (len : Nat) (s : State) : Host.Outcome State Fault Refusal :=
  match s.windowAddr tenant addr with
  | none => .next s
  | some a =>
    if 2 ^ 30 < addr % 2 ^ 30 + len then .next s
    else
      let s := (touched a len).foldl (fun s x => (s.physFill tenant x).verify x) s
      .next (s.emit (.hostData tenant (memBytes s.mem a len) (s.poisonIn a len)))

/-- HOST_CXL_MEM_WRITE: bytes land at D, line by line, with new check values and dirty bits. -/
def execHostCxlMemWrite (tenant : Nat) (addr : Nat) (bytes : List Byte) (s : State) : Host.Outcome State Fault Refusal :=
  match s.windowAddr tenant addr with
  | none => .next s
  | some a =>
    if 2 ^ 30 < addr % 2 ^ 30 + bytes.length then .next s
    else
      let whole := bytesNat bytes * 2 ^ (8 * (a % 64))
      let ones := (2 ^ bytes.length - 1) * 2 ^ (a % 64)
      .next ((touched a bytes.length).zipIdx.foldl (fun (s : State) x =>
        s.writePhys tenant x.1 (BitVec.ofNat 64 (ones / 2 ^ (64 * x.2))) (BitVec.ofNat 512 (whole / 2 ^ (512 * x.2)))) s)

end Sys2Proof.Machine
end

