-- ==== Sys2Proof/Machine/Phasor.lean ====
section
/-!
DEFINITION. The phasor instructions (spec/06, spec/13 R238 to R242) over the values of Machine/Angle.lean.
-/

namespace Sys2Proof.Machine

/-- A phasor operation on one code, or on both P16 halves under .x2 (spec/06 R114). -/
def perPhasor (p : PTy) (x2 : Bool) (op : Nat → Nat → Nat) (a b : DWord) : DWord :=
  let n := p.bits
  let r := op (a.toNat % 2 ^ n) (b.toNat % 2 ^ n)
  if x2 then BitVec.ofNat 64 (r + 2 ^ 16 * op (a.toNat / 2 ^ 16 % 2 ^ 16) (b.toNat / 2 ^ 16 % 2 ^ 16)) else BitVec.ofNat 64 r

def execPmul (h : Hdr) (p : PTy) (x2 : Bool) (o : Ops2) (s : State) : Host.Outcome State Fault Refusal :=
  issue h (Ops2.info o 3 false false false) (fun c act =>
    .done c fun r => r.put (Ops2.dst o false) act fun l =>
      perPhasor p x2 (pmul p.bits) (Ops2.a o c false l) (Ops2.b o c false fimm l)) s

/-- PPOW: one signed 32-bit k for both elements. -/
def execPpow (h : Hdr) (p : PTy) (x2 : Bool) (o : Ops2) (s : State) : Host.Outcome State Fault Refusal :=
  issue h (Ops2.info o 3 false false false) (fun c act =>
    .done c fun r => r.put (Ops2.dst o false) act fun l =>
      perPhasor p x2 (fun a _ => ppow p.bits a ((Ops2.b o c false fimm l).extractLsb' 0 32).toInt) (Ops2.a o c false l) 0) s

def execPcmp (h : Hdr) (p : PTy) (cc : PCond) (pd : BitVec 3) (o : OpsC) (s : State) : Host.Outcome State Fault Refusal :=
  issue h (OpsC.info o 3 false pd) (fun c act =>
    .done c fun r => r.putPred pd (OpsC.uni o) act fun l =>
      PCond.holds cc (pcmp p.bits (OpsC.a o c false l).toNat (OpsC.b o c false fimm l).toNat)) s

def execPconj (h : Hdr) (p : PTy) (x2 : Bool) (d a : BitVec 12) (s : State) : Host.Outcome State Fault Refusal :=
  issue h { len := 8, lat := 3, ops := [rdV a false, wrV d false], lastA := regsOf a false } (fun c act =>
    .done c fun r => r.put (.v d false) act fun l => perPhasor p x2 (fun a _ => pconj p.bits a) (c.vec a false l) 0) s

def execPdef (h : Hdr) (p : PTy) (pd : BitVec 3) (a : BitVec 12) (s : State) : Host.Outcome State Fault Refusal :=
  issue h { len := 8, lat := 3, ops := [rdV a false, wrP pd], lastA := regsOf a false } (fun c act =>
    .done c fun r => r.putPred pd false act fun l => defined p.bits (c.vec a false l).toNat) s

def execPcvt (h : Hdr) (pm pn : PTy) (d a : BitVec 12) (s : State) : Host.Outcome State Fault Refusal :=
  issue h { len := 8, lat := 3, ops := [rdV a false, wrV d false], lastA := regsOf a false } (fun c act =>
    .done c fun r => r.putF (.v d false) act fun l =>
      let (y, fl) := pcvt pm.bits pn.bits (c.vec a false l).toNat
      (BitVec.ofNat 64 y, fl)) s

/-- PRED (spec/06 R122): the active lanes' codes reduced; angle in vd, coherence in v(d + 1). -/
def execPred (h : Hdr) (p : PTy) (d a : BitVec 12) (s : State) : Host.Outcome State Fault Refusal :=
  issue h { len := 8, ops := [rdV a false, wrV d true], lastA := regsOf a false } (fun c act =>
    let sums := (lanesOf act).foldl (fun (t : Int × Int × Nat) l =>
      let k := contribute p.bits (c.vec a false l).toNat
      (t.1 + k.1, t.2.1 + k.2.1, t.2.2 + k.2.2)) (0, 0, 0)
    let (angle, coh) := resultant p.bits sums.1 sums.2.1 sums.2.2
    .done c fun r => r.put (.v d true) act fun _ => BitVec.ofNat 64 (angle + 2 ^ 32 * coh)) s

/-- A phasor-to-float instruction with one result. -/
def phasor1 (h : Hdr) (md : Rm) (fz : Bool) (f : FTy) (p : PTy) (d a : BitVec 12) (fn : Nat) (val : Nat → Nat → FVal)
    (s : State) : Host.Outcome State Fault Refusal :=
  issue h { len := 12, ops := [rdV a false, wrV d false], lastA := regsOf a false } (fun c act =>
    .done c fun r => r.putF (.v d false) act fun l =>
      let (y, fl) := phasorFloat f p fn md fz val (c.vec a false l).toNat
      (BitVec.ofNat 64 y, fl)) s

def execPtof (h : Hdr) (md : Rm) (fz : Bool) (f : FTy) (p : PTy) (d a : BitVec 12) (s : State) := phasor1 h md fz f p d a 0 radOf s
def execPcos (h : Hdr) (md : Rm) (fz : Bool) (f : FTy) (p : PTy) (d a : BitVec 12) (s : State) := phasor1 h md fz f p d a 1 cosOf s
def execPsin (h : Hdr) (md : Rm) (fz : Bool) (f : FTy) (p : PTy) (d a : BitVec 12) (s : State) := phasor1 h md fz f p d a 2 sinOf s

/-- PVEC: cosine in vd, sine in v(d + 1), with function numbers of its own: from a P32 code the manual does not say that they are the
neighbours that PCOS and PSIN deliver (log 16). -/
def execPvec (h : Hdr) (md : Rm) (fz : Bool) (f : FTy) (p : PTy) (d a : BitVec 12) (s : State) :
    Host.Outcome State Fault Refusal :=
  issue h { len := 12, ops := [rdV a false, wrV d true], lastA := regsOf a false } (fun c act =>
    .done c fun r => r.putF (.v d true) act fun l =>
      let (x, f1) := phasorFloat f p 3 md fz cosOf (c.vec a false l).toNat
      let (y, f2) := phasorFloat f p 4 md fz sinOf (c.vec a false l).toNat
      (BitVec.ofNat 64 (x + 2 ^ 32 * y), f1 ||| f2)) s

def execPfromf (h : Hdr) (p : PTy) (f : FTy) (d a : BitVec 12) (s : State) : Host.Outcome State Fault Refusal :=
  issue h { len := 12, ops := [rdV a false, wrV d false], lastA := regsOf a false } (fun c act =>
    .done c fun r => r.putF (.v d false) act fun l =>
      let (y, fl) := pfromf p.bits ((fmtOf f).value ((c.vec a false l).toNat % 2 ^ ftyWidth f))
      (BitVec.ofNat 64 y, fl)) s

def execPatan (h : Hdr) (p : PTy) (f : FTy) (d y x : BitVec 12) (s : State) : Host.Outcome State Fault Refusal :=
  issue h { len := 12, ops := [rdV y false, rdV x false, wrV d false], lastA := regsOf y false, lastB := regsOf x false }
    (fun c act =>
      .done c fun r => r.putF (.v d false) act fun l =>
        let v (n : BitVec 12) : FVal := (fmtOf f).value ((c.vec n false l).toNat % 2 ^ ftyWidth f)
        let (z, fl) := patan p.bits (v y) (v x)
        (BitVec.ofNat 64 z, fl)) s

end Sys2Proof.Machine
end

