-- ==== Sys2Proof/Machine/Dispatch.lean ====
section
/-!
DEFINITION. The one match from an instruction, event or command to its meaning.
-/

namespace Sys2Proof.Machine

def exec (i : Instr) (s : State) : Host.Outcome State Fault Refusal :=
  match i with
  | .iadd h t sat o => Sys2Proof.Machine.execIadd h t sat o s
  | .isub h t sat o => Sys2Proof.Machine.execIsub h t sat o s
  | .imul h t o => Sys2Proof.Machine.execImul h t o s
  | .imulh h t o => Sys2Proof.Machine.execImulh h t o s
  | .imin h t o => Sys2Proof.Machine.execImin h t o s
  | .imax h t o => Sys2Proof.Machine.execImax h t o s
  | .and h t o => Sys2Proof.Machine.execAnd h t o s
  | .or h t o => Sys2Proof.Machine.execOr h t o s
  | .xor h t o => Sys2Proof.Machine.execXor h t o s
  | .shl h t o => Sys2Proof.Machine.execShl h t o s
  | .shr h t o => Sys2Proof.Machine.execShr h t o s
  | .sar h t o => Sys2Proof.Machine.execSar h t o s
  | .rot h t o => Sys2Proof.Machine.execRot h t o s
  | .icmp h cc t pd o => Sys2Proof.Machine.execIcmp h cc t pd o s
  | .ineg h t o => Sys2Proof.Machine.execIneg h t o s
  | .iabs h t o => Sys2Proof.Machine.execIabs h t o s
  | .not h t o => Sys2Proof.Machine.execNot h t o s
  | .popc h t o => Sys2Proof.Machine.execPopc h t o s
  | .clz h t o => Sys2Proof.Machine.execClz h t o s
  | .brev h t o => Sys2Proof.Machine.execBrev h t o s
  | .mov h t o => Sys2Proof.Machine.execMov h t o s
  | .cvti h t o => Sys2Proof.Machine.execCvti h t o s
  | .imad h t sat o => Sys2Proof.Machine.execImad h t sat o s
  | .bfi h t o => Sys2Proof.Machine.execBfi h t o s
  | .isel h t neg p o => Sys2Proof.Machine.execIsel h t neg p o s
  | .bfx h t o pos len => Sys2Proof.Machine.execBfx h t o pos len s
  | .lea h t o sh disp => Sys2Proof.Machine.execLea h t o sh disp s
  | .movi h t d imm => Sys2Proof.Machine.execMovi h t d imm s
  | .nop h => Sys2Proof.Machine.execNop h s
  | .nopl h => Sys2Proof.Machine.execNopl h s
  | .bra h disp => Sys2Proof.Machine.execBra h disp s
  | .brt h idx n1 disp => Sys2Proof.Machine.execBrt h idx n1 disp s
  | .meet h disp => Sys2Proof.Machine.execMeet h disp s
  | .exit h => Sys2Proof.Machine.execExit h s
  | .yield h => Sys2Proof.Machine.execYield h s
  | .trap h imm => Sys2Proof.Machine.execTrap h imm s
  | .bkpt h => Sys2Proof.Machine.execBkpt h s
  | .shfl h m d a b => Sys2Proof.Machine.execShfl h m d a b s
  | .lred h op t md d a => Sys2Proof.Machine.execLred h op t md d a s
  | .vote h m pd neg ps => Sys2Proof.Machine.execVote h m pd neg ps s
  | .ballot h d neg ps => Sys2Proof.Machine.execBallot h d neg ps s
  | .pset h op pd na pa nb pb => Sys2Proof.Machine.execPset h op pd na pa nb pb s
  | .fadd h f md fz x2 o => Sys2Proof.Machine.execFadd h f md fz x2 o s
  | .fsub h f md fz x2 o => Sys2Proof.Machine.execFsub h f md fz x2 o s
  | .fmul h f md fz x2 o => Sys2Proof.Machine.execFmul h f md fz x2 o s
  | .ffma h f md fz x2 o => Sys2Proof.Machine.execFfma h f md fz x2 o s
  | .fmin h f x2 o => Sys2Proof.Machine.execFmin h f x2 o s
  | .fmax h f x2 o => Sys2Proof.Machine.execFmax h f x2 o s
  | .fcmp h cc f pd o => Sys2Proof.Machine.execFcmp h cc f pd o s
  | .fsel h f neg p o => Sys2Proof.Machine.execFsel h f neg p o s
  | .frcp h f fz x2 o => Sys2Proof.Machine.execFrcp h f fz x2 o s
  | .frsq h f fz x2 o => Sys2Proof.Machine.execFrsq h f fz x2 o s
  | .fsqrt h f md fz x2 o => Sys2Proof.Machine.execFsqrt h f md fz x2 o s
  | .fexp2 h f fz x2 o => Sys2Proof.Machine.execFexp2 h f fz x2 o s
  | .flog2 h f fz x2 o => Sys2Proof.Machine.execFlog2 h f fz x2 o s
  | .fsin h f fz x2 o => Sys2Proof.Machine.execFsin h f fz x2 o s
  | .fcos h f fz x2 o => Sys2Proof.Machine.execFcos h f fz x2 o s
  | .frnd h f md fz x2 o => Sys2Proof.Machine.execFrnd h f md fz x2 o s
  | .cvtf h fd fs md fz o => Sys2Proof.Machine.execCvtf h fd fs md fz o s
  | .cvtfi h t fs md o => Sys2Proof.Machine.execCvtfi h t fs md o s
  | .cvtif h fd t md o => Sys2Proof.Machine.execCvtif h fd t md o s
  | .npack h md fz d a hn pos sc => Sys2Proof.Machine.execNpack h md fz d a hn pos sc s
  | .nunpk h d a hn pos sc => Sys2Proof.Machine.execNunpk h d a hn pos sc s
  | .pmul h p x2 o => Sys2Proof.Machine.execPmul h p x2 o s
  | .ppow h p x2 o => Sys2Proof.Machine.execPpow h p x2 o s
  | .pcmp h p cc pd o => Sys2Proof.Machine.execPcmp h p cc pd o s
  | .pconj h p x2 d a => Sys2Proof.Machine.execPconj h p x2 d a s
  | .pdef h p pd a => Sys2Proof.Machine.execPdef h p pd a s
  | .pcvt h pm pn d a => Sys2Proof.Machine.execPcvt h pm pn d a s
  | .pred h p d a => Sys2Proof.Machine.execPred h p d a s
  | .ptof h md fz f p d a => Sys2Proof.Machine.execPtof h md fz f p d a s
  | .pcos h md fz f p d a => Sys2Proof.Machine.execPcos h md fz f p d a s
  | .psin h md fz f p d a => Sys2Proof.Machine.execPsin h md fz f p d a s
  | .pvec h md fz f p d a => Sys2Proof.Machine.execPvec h md fz f p d a s
  | .pfromf h p f d a => Sys2Proof.Machine.execPfromf h p f d a s
  | .patan h p f d y x => Sys2Proof.Machine.execPatan h p f d y x s
  | .ld h t o => Sys2Proof.Machine.execLd h t o s
  | .st h t a data => Sys2Proof.Machine.execSt h t a data s
  | .ldb h t d off queue sym disp => Sys2Proof.Machine.execLdb h t d off queue sym disp s
  | .stb h t off queue sym disp data => Sys2Proof.Machine.execStb h t off queue sym disp data s
  | .atom h op lvl t d base b c disp => Sys2Proof.Machine.execAtom h op lvl t d base b c disp s
  | .waitv h ne lvl t d base src => Sys2Proof.Machine.execWaitv h ne lvl t d base src s
  | .commit h lvl => Sys2Proof.Machine.execCommit h lvl s
  | .commitX h lvl d => Sys2Proof.Machine.execCommitX h lvl d s
  | .abort h lvl => Sys2Proof.Machine.execAbort h lvl s
  | .acq h lvl => Sys2Proof.Machine.execAcq h lvl s
  | .fence h src dst => Sys2Proof.Machine.execFence h src dst s
  | .icinv h => Sys2Proof.Machine.execIcinv h s
  | .cpy h lvl d src n tag => Sys2Proof.Machine.execCpy h lvl d src n tag s
  | .cpytLd h buf hn so tag => Sys2Proof.Machine.execCpytLd h buf hn so tag s
  | .cpytSt h lvl buf hn so tag => Sys2Proof.Machine.execCpytSt h lvl buf hn so tag s
  | .cpyr h d src n tag => Sys2Proof.Machine.execCpyr h d src n tag s
  | .twany h tags => Sys2Proof.Machine.execTwany h tags s
  | .twall h tags => Sys2Proof.Machine.execTwall h tags s
  | .tfirst h d tags => Sys2Proof.Machine.execTfirst h d tags s
  | .tclr h tags => Sys2Proof.Machine.execTclr h tags s
  | .barv h d sym => Sys2Proof.Machine.execBarv h d sym s
  | .bard h sym => Sys2Proof.Machine.execBard h sym s
  | .barw h sym => Sys2Proof.Machine.execBarw h sym s
  | .bars h sym a => Sys2Proof.Machine.execBars h sym a s
  | .qpush h sym a => Sys2Proof.Machine.execQpush h sym a s
  | .qpop h d sym => Sys2Proof.Machine.execQpop h d sym s
  | .qtry h d sym => Sys2Proof.Machine.execQtry h d sym s
  | .qgrant h sym n => Sys2Proof.Machine.execQgrant h sym n s
  | .epush h d a b disp => Sys2Proof.Machine.execEpush h d a b disp s
  | .epop h d a disp => Sys2Proof.Machine.execEpop h d a disp s
  | .sign h k => Sys2Proof.Machine.execSign h k s
  | .mma h w2 o => Sys2Proof.Machine.execMma h w2 o s
  | .pmma h qn conj o => Sys2Proof.Machine.execPmma h qn conj o s
  | .acca h sym b cnt1 grp => Sys2Proof.Machine.execAcca h sym b cnt1 grp s
  | .accf h sym b cnt1 => Sys2Proof.Machine.execAccf h sym b cnt1 s
  | .accz h sym b cnt1 => Sys2Proof.Machine.execAccz h sym b cnt1 s
  | .accr h d sym b sw => Sys2Proof.Machine.execAccr h d sym b sw s
  | .accw h sym b sw a => Sys2Proof.Machine.execAccw h sym b sw a s
  | .drain h dst w2 md fz amx hn acc b tag => Sys2Proof.Machine.execDrain h dst w2 md fz amx hn acc b tag s
  | .pdrain h dst sn hn acc b tag => Sys2Proof.Machine.execPdrain h dst sn hn acc b tag s
  | .tdef h hn a => Sys2Proof.Machine.execTdef h hn a s
  | .tqry h d hn idx => Sys2Proof.Machine.execTqry h d hn idx s
  | .srr h d sr => Sys2Proof.Machine.execSrr h d sr s
  | .srw h sr b => Sys2Proof.Machine.execSrw h sr b s
  | .xrd h sp d n => Sys2Proof.Machine.execXrd h sp d n s
  | .xwr h sp n b => Sys2Proof.Machine.execXwr h sp n b s
  | .rtt h a => Sys2Proof.Machine.execRtt h a s
  | .rttBr h a => Sys2Proof.Machine.execRttBr h a s
  | .handlerEntry w => Sys2Proof.Machine.execHandlerEntry w s
  | .launch c hdr => Sys2Proof.Machine.execLaunch c hdr s
  | .launchBegin fn q => Sys2Proof.Machine.execLaunchBegin fn q s
  | .blockPlacement lid cores pipes => Sys2Proof.Machine.execBlockPlacement lid cores pipes s
  | .stockPromotion core pipe w => Sys2Proof.Machine.execStockPromotion core pipe w s
  | .waitvPoll w => Sys2Proof.Machine.execWaitvPoll w s
  | .regcacheFill w regs => Sys2Proof.Machine.execRegcacheFill w regs s
  | .lineFill core fn ctx ptr acc => Sys2Proof.Machine.execLineFill core fn ctx ptr acc s
  | .pageWalk fn ctx ptr => Sys2Proof.Machine.execPageWalk fn ctx ptr s
  | .forwardResponse w => Sys2Proof.Machine.execForwardResponse w s
  | .copyLineTransfer job => Sys2Proof.Machine.execCopyLineTransfer job s
  | .mmaExecute core => Sys2Proof.Machine.execMmaExecute core s
  | .drainExecute core => Sys2Proof.Machine.execDrainExecute core s
  | .pdrainExecute core => Sys2Proof.Machine.execPdrainExecute core s
  | .blockRetire b => Sys2Proof.Machine.execBlockRetire b s
  | .kernelBoundary lid => Sys2Proof.Machine.execKernelBoundary lid s
  | .launchComplete lid => Sys2Proof.Machine.execLaunchComplete lid s
  | .sliceEnd fn ctx => Sys2Proof.Machine.execSliceEnd fn ctx s
  | .graceExpiry b => Sys2Proof.Machine.execGraceExpiry b s
  | .blockReentry b cores pipes => Sys2Proof.Machine.execBlockReentry b cores pipes s
  | .blockMove b cores pipes => Sys2Proof.Machine.execBlockMove b cores pipes s
  | .rebindWindowExpiry b => Sys2Proof.Machine.execRebindWindowExpiry b s
  | .blockSwapOut b => Sys2Proof.Machine.execBlockSwapOut b s
  | .launchEnd lid => Sys2Proof.Machine.execLaunchEnd lid s
  | .debugHaltBkpt b => Sys2Proof.Machine.execDebugHaltBkpt b s
  | .launchRollback lid => Sys2Proof.Machine.execLaunchRollback lid s
  | .timingReplay g again => Sys2Proof.Machine.execTimingReplay g again s
  | .copy c dst src len => Sys2Proof.Machine.execCopy c dst src len s
  | .ctxcreate c ctx desc => Sys2Proof.Machine.execCtxcreate c ctx desc s
  | .ctxdestroy c ctx => Sys2Proof.Machine.execCtxdestroy c ctx s
  | .share c ctx coreSet caps poolBase poolSize slice => Sys2Proof.Machine.execShare c ctx coreSet caps poolBase poolSize slice s
  | .reginval c ctx region => Sys2Proof.Machine.execReginval c ctx region s
  | .pageinval c ctx va size => Sys2Proof.Machine.execPageinval c ctx va size s
  | .handleinval c ctx hn => Sys2Proof.Machine.execHandleinval c ctx hn s
  | .dirtyrc c first count dst => Sys2Proof.Machine.execDirtyrc c first count dst s
  | .faultresume c fseq block fq => Sys2Proof.Machine.execFaultresume c fseq block fq s
  | .faultfail c fseq block fq => Sys2Proof.Machine.execFaultfail c fseq block fq s
  | .debughalt c fseq block => Sys2Proof.Machine.execDebughalt c fseq block s
  | .debugwrite c fseq block off src len => Sys2Proof.Machine.execDebugwrite c fseq block off src len s
  | .debugresume c fseq block => Sys2Proof.Machine.execDebugresume c fseq block s
  | .keyset c ptr => Sys2Proof.Machine.execKeyset c ptr s
  | .precopy c port peer stream kind records len => Sys2Proof.Machine.execPrecopy c port peer stream kind records len s
  | .restore c ptr len => Sys2Proof.Machine.execRestore c ptr len s
  | .trackset c ptr size => Sys2Proof.Machine.execTrackset c ptr size s
  | .partition c tenant res => Sys2Proof.Machine.execPartition c tenant res s
  | .scrub u => Sys2Proof.Machine.execScrub u s
  | .l2OwnershipChange tenant slices => Sys2Proof.Machine.execL2OwnershipChange tenant slices s
  | .regionretire c region => Sys2Proof.Machine.execRegionretire c region s
  | .linkretrain c port locks peerAck => Sys2Proof.Machine.execLinkretrain c port locks peerAck s
  | .fwupdate c ptr len => Sys2Proof.Machine.execFwupdate c ptr len s
  | .attest c nonce dst => Sys2Proof.Machine.execAttest c nonce dst s
  | .qtailWrite fn q tail => Sys2Proof.Machine.execQtailWrite fn q tail s
  | .registerWrite fn off val => Sys2Proof.Machine.execRegisterWrite fn off val s
  | .functionLevelReset tenant => Sys2Proof.Machine.execFunctionLevelReset tenant s
  | .packageReset cols regions => Sys2Proof.Machine.execPackageReset cols regions s
  | .hostCxlMemRead tenant addr len => Sys2Proof.Machine.execHostCxlMemRead tenant addr len s
  | .hostCxlMemWrite tenant addr bytes => Sys2Proof.Machine.execHostCxlMemWrite tenant addr bytes s
  | .pleipPacketReceive port p => Sys2Proof.Machine.execPleipPacketReceive port p s
  | .pleipAckReceive port ack => Sys2Proof.Machine.execPleipAckReceive port ack s
  | .pleipNakReceive port ack => Sys2Proof.Machine.execPleipNakReceive port ack s
  | .pleipReplayTimeout port => Sys2Proof.Machine.execPleipReplayTimeout port s
  | .pleipAckTimer port => Sys2Proof.Machine.execPleipAckTimer port s
  | .laneLoss port lane => Sys2Proof.Machine.execLaneLoss port lane s
  | .retrainComplete port peerAck => Sys2Proof.Machine.execRetrainComplete port peerAck s
  | .ueMessageReceive tenant port m => Sys2Proof.Machine.execUeMessageReceive tenant port m s
  | .restripeStart region column => Sys2Proof.Machine.execRestripeStart region column s
  | .restripeUnitMove region unreadable => Sys2Proof.Machine.execRestripeUnitMove region unreadable s
  | .bankOvertemp channel bank hot => Sys2Proof.Machine.execBankOvertemp channel bank hot s
  | .thermalThrottleStep island lower => Sys2Proof.Machine.execThermalThrottleStep island lower s
  | .powerLimitStep lower => Sys2Proof.Machine.execPowerLimitStep lower s
  | .ideKeyManagement stream key => Sys2Proof.Machine.execIdeKeyManagement stream key s

end Sys2Proof.Machine
end

