-- ==== Sys2Proof/Machine/Fetch.lean ====
section
/-!
DEFINITION. Fetching and issuing (spec/09 R170, spec/11 R180, R192, spec/16 R296, R297): a group's next instruction is read through the
core's instruction cache, decoded and executed, and the pipe's hand is kept.
-/

namespace Sys2Proof.Machine

/-! ### Which group may issue -/

/-- A group of a wave may issue: nothing blocks the wave but a wait that this group's own instruction may try again (R297). -/
def Wave.mayIssue (w : Wave) (grp : Nat) : Bool :=
  match w.groups[grp]? with
  | none => false
  | some g =>
    !w.retired && g.lanes != 0 && match w.wait with
      | none => true
      | some .retry | some .phase => w.waiter == g.lanes
      | _ => false

/-- The context of an issue, with the wave's wait ended; none where the group does not issue. -/
def State.issuer (s : State) (ref : WaveRef) (grp : Nat) : Option Cx :=
  match s.cxAt { ref := ref, grp := grp, inst := 0 } with
  | none => none
  | some c =>
    if c.blk.runs && decide (ref.wave < c.blk.waves.length) && !c.wv.stock && c.wv.mayIssue grp then
      some (c.setWv { c.wv with wait := none })
    else none

/-! ### Fetching -/

/-- Bytes of the 32-byte unit that are left at a PC (R180). -/
def roomAt (pc : DWord) : Nat := 32 - pc.toNat % 32

/-- The bytes of an instruction at a PC as one number: 16 of them, zero past the end of the unit. -/
def instAt (d : LineData) (pc : DWord) : Nat := d.toNat / 2 ^ (8 * lineOff pc) % 2 ^ (8 * min 16 (roomAt pc))

/-- What a fetch comes to: the line's bytes, a trap, or nothing yet. -/
inductive Fetched where
  | bytes (c : Cx) (d : LineData)
  | trap (c : Cx) (t : TrapInfo)
  | held (s : State)

/-- A line of the core's instruction cache; it has passed its checks (spec/01 R19). -/
def Core.iline (k : Core) (t asid line : Nat) : Option CoreLine :=
  k.icache.find? fun l => l.tenant == t && l.asid == asid && l.line == line

/-- MEMFAULT of a fetch: every lane of the group, at the PC (spec/17 R307, R315). -/
def Cx.fetchTrap (c : Cx) (cause pa : Nat) : TrapInfo :=
  { laneTrap tMemFault cause (infoLine c.g.pc) c.g.lanes with offset := c.g.pc, paddr := BitVec.ofNat 64 pa }

/-- As the group fetches, the wave runs on only from lines at which a group of it stands (spec/01 R26). -/
def Cx.atLine (c : Cx) : Cx :=
  c.setWv { c.wv with runOn := c.wv.runOn.filter fun x => c.wv.groups.any fun g => lineNo g.pc == x.line }

/-- A line that the wave may execute without a fill: one of the core's instruction cache, or one it runs on from. -/
def Cx.ownLine (c : Cx) : Option CoreLine :=
  ((c.s.core c.core).iline c.ctx.tenant c.ctx.asid (lineNo c.g.pc)).or
    (c.wv.runOn.find? fun l => l.tenant == c.ctx.tenant && l.asid == c.ctx.asid && l.line == lineNo c.g.pc)

/-- Fetch the line at the group's PC: one it has, or at D; a fetch behind a fence on the core path waits for it. -/
def Cx.fetch (c : Cx) : Fetched :=
  let line := lineNo c.g.pc
  let c := c.atLine
  match c.ownLine with
  | some l => .bytes c l.data
  | none =>
    if c.fenced 0 then .held c.s
    else
      match c.s.fetchLine c.core c.ctx line with
      | (s, .ok d poisoned) =>
        if poisoned then .trap { c with s := s } (uceTrap 1 c.g.lanes) else .bytes { c with s := s } d
      | (s, .fail cause pa) => .trap { c with s := s } (c.fetchTrap cause pa)
      | (s, .away l) =>
        .held (Cx.close (Cx.setWv { c with s := s.requestLine c.ctx.tenant l }
          { c.wv with wait := some (.forward line false), waiter := c.g.lanes }))

/-! ### The hand (R297) -/

/-- A stock wave of a pipe that can issue, the one that has been ready longest. -/
def State.readyStock (s : State) (core pipe : Nat) : Option WaveRef :=
  let all := (s.residents core).flatMap fun b =>
    if b.runs then (b.waves.zipIdx.filter fun w => w.1.pipe == pipe && w.1.stock && !w.1.retired && !w.1.blocked).map fun w =>
      (w.1.readySince, WaveRef.mk b.lid b.rank w.2)
    else []
  match minList (all.map (·.1)) with
  | none => none
  | some n => (all.find? fun x => x.1 == n).map (·.2)

/-- Another hand wave of the pipe can issue. -/
def State.otherReady (s : State) (core pipe : Nat) (ref : WaveRef) : Bool :=
  (s.residents core).any fun b => b.runs && b.waves.zipIdx.any fun w =>
    w.1.pipe == pipe && !w.1.stock && !w.1.retired && !w.1.blocked && !(b.lid == ref.lid && b.rank == ref.rank && w.2 == ref.wave)

/-- A hand wave that has become blocked, if only by a miss in the register cache or in L1, that has retired or executed YIELD, or that has
issued with Y = 1 while no other hand wave is ready, changes places with a ready stock wave. -/
def State.rehand (s : State) (ref : WaveRef) (missed : Bool) : State :=
  match s.block? ref.lid ref.rank with
  | none => s
  | some b =>
    let w := b.wave ref.wave
    if w.blocked || w.retired || w.swap || missed || (w.yielded && !s.otherReady b.core w.pipe ref) then
      match s.readyStock b.core w.pipe with
      | some r => s.swapWaves r (some (b, ref.wave))
      | none => if w.swap then s.setBlock (b.setWave ref.wave { w with swap := false }) else s
    else s

/-! ### One issue -/

/-- The core's L1 has taken a line in: a load has missed. -/
def State.l1Missed (old new : State) (core : Nat) : Bool := (new.core core).l1.head? != (old.core core).l1.head?

/-- What follows an issue: the register cache and the hand are kept, and no group is selected. -/
def State.issuedBy (s : State) (ref : WaveRef) (missed : Bool) : State := { (s.rcKept ref).rehand ref missed with sel := none }

/-- The group selected for a decoded instruction, the wave's wait ended. -/
def Cx.select (c : Cx) (inst : Nat) : State := { c.close with sel := some { c.sel with inst := inst } }

/-- Decode and execute the bytes at the group's PC: a decode error is ILLOP (spec/11 R193). -/
def Cx.run (c : Cx) (d : LineData) : Host.Outcome State Fault Refusal :=
  let inst := instAt d c.g.pc
  match decodeAt (roomAt c.g.pc) inst with
  | .error e => .next ((Cx.takeTrap { c with sel := { c.sel with inst := inst } } (illop e.code)).close.issuedBy c.ref false)
  | .ok i =>
    match exec i (c.select inst) with
    | .next t => .next (t.issuedBy c.ref (State.l1Missed c.s t c.core))
    | .fault f => .fault f
    | .refused r => .refused r

/-- A group issues its next instruction (R296); a group that may not issue does nothing. -/
def State.issueGroup (s : State) (ref : WaveRef) (grp : Nat) : Host.Outcome State Fault Refusal :=
  match s.issuer ref grp with
  | none => .next s
  | some c =>
    match c.fetch with
    | .held s => .next s
    | .trap c t =>
      let (b, c) := c.draw 128
      .next ((Cx.takeTrap { c with sel := { c.sel with inst := b.toNat } } t).close.issuedBy ref false)
    | .bytes c d => c.run d

/-! ### A word where the next step fetches it (log 7) -/

/-- A launch of one thread. -/
def probeHdr : LaunchHdr := { w0 := 0xFFF240000000, w1 := 1, w2 := 0, w3 := 0, w4 := 0, w5 := 0, w6 := 0, w7 := 0 }

def probeCtx : Ctx :=
  { tenant := 0, num := 4096, desc := [], descAt := 0, table := [], hentry := 0, h1 := 0, cores := [0], caps := [coreCaps 0], poolBase := 0,
    poolSize := 0, slice := 65536, credit := 0, turn := true, spent := false, pool := [], shadow := [], hinted := [], sharing := none }

def probeKernel : Kernel :=
  { entry := 0, index := 0, nv := 4096, syms := [], sites := [], offsets := [0], usesCopy := false, handles := [], demand := coreCaps 0 }

def probeLaunch : Launch :=
  { lid := 0, src := { fn := 0, q := 0, seq := 0 }, hdr := probeHdr, ctx := 4096, state := .running, start := 0, nextUnit := 1,
    replay := false, replays := 0, snap := false, replayable := false, shadowDir := 0, shadowBitmap := 0, shadowMap := 0,
    shadowCount := 0, savedTable := 0, held := false }

def probeWave : Wave :=
  { Wave.default with present := 1, groups := [{ lanes := 1, pc := 0, last := 0 }], regs := RegCtx.fresh 4096 [] }

def probeBlock : Block :=
  { lid := 0, rank := 0, place := .resident, core := 0, waves := [probeWave], buf := [], bars := [], queues := [], tricks := [],
    tags := [], bound := [], barsite := 0xFFFF, deck := 0, deckSize := 0, segBase := 0, segCount := 0, bankBase := 0, bankCount := 0,
    stopWanted := false, moveWanted := false, window := false, stopped := false, stopSite := 0, faulted := false, halted := false,
    atBkpt := false, retiring := false }

/-- The machine with one resident wave whose only group stands at address 0, the line there in core 0's instruction cache, and that
group's issue first on the agenda. No command gives a context the number 4096, nor a launch the number 0. -/
def State.placeWord (s : State) (d : LineData) : State :=
  let k := s.core 0
  let s := s.setCore 0 { k with icache := { tenant := 0, asid := 0, line := 0, data := d } :: k.icache }
  { s with agenda := .issue { lid := 0, rank := 0, wave := 0 } 0 :: s.agenda, ctxs := probeCtx :: s.ctxs,
           kernels := probeKernel :: s.kernels, launches := probeLaunch :: s.launches, blocks := probeBlock :: s.blocks }

end Sys2Proof.Machine
end

