-- ==== Sys2Proof/Machine/Sched.lean ====
section
/-!
DEFINITION. What the device does of itself while nothing is on the agenda (log 1): the moves it could make, in one fixed order, and the
first of them that makes progress (spec/16 R293 to R302); and the reading of queue entries (spec/18 R328, R329, log 14).
-/

namespace Sys2Proof.Machine

/-! ### Queue entries (R328, R329) -/

/-- Operand word i of an entry. -/
def opd (ws : List DWord) (i : Nat) : DWord := ws.getD (2 + i) 0

def headerOfEntry (ws : List DWord) : LaunchHdr :=
  let w (i : Nat) : DWord := ws.getD (8 + i) 0
  { w0 := w 0, w1 := w 1, w2 := w 2, w3 := w 3, w4 := w 4, w5 := w 5, w6 := w 6, w7 := w 7 }

/-- Every n-th number of a list, from the first on. -/
def everyNth (n : Nat) (ns : List Nat) : List Nat := (List.range ((ns.length + n - 1) / n)).map fun i => ns.getD (n * i) 0

/-- SHARE's operands as numbers: context, slice length, deck pool base and size, then for each core its number and six caps. -/
def shareOf (c : CmdSrc) (ns : List Nat) : Instr :=
  let n (i : Nat) : Nat := ns.getD i 0
  let cores := everyNth 7 (ns.drop 4)
  .share c (n 0) cores (cores.zipIdx.flatMap fun k => capsList ((ns.drop (5 + 7 * k.2)).take 6)) (BitVec.ofNat 64 (n 2)) (BitVec.ofNat 64 (n 3))
    (n 1)

/-- PARTITION's operands as numbers: tenant, clusters, slices, channels, engines, ports; a bit beyond a bitmap is a reserved one. -/
def partitionOf (c : CmdSrc) (ns : List Nat) : Option Instr :=
  let n (i : Nat) : Nat := ns.getD i 0
  if decide (2 ^ 24 ≤ n 1) || decide (2 ^ 96 ≤ n 2) || decide (2 ^ 96 ≤ n 3) || decide (2 ^ 96 ≤ n 4) || decide (2 ^ 12 ≤ n 5) then none
  else
    some (.partition c (n 0) { clusters := BitVec.ofNat 24 (n 1), slices := BitVec.ofNat 96 (n 2), channels := BitVec.ofNat 96 (n 3),
                               engines := BitVec.ofNat 96 (n 4), ports := BitVec.ofNat 12 (n 5) })

/-- The numbers in words 2 to 7 of an entry (log 14); none where one of their reserved bits is set. -/
def wideOf (ws : List DWord) : Option (List Nat) := Config.wideOperands ((ws.drop 2).take 6)

/-- A command with how many operand words it uses. Which lanes lock as LINKRETRAIN trains, and what the peer has accepted, is not in
the entry: free values. -/
def commandOf (c : CmdSrc) (opc : Nat) (ws : List DWord) (locks : BitVec 16) (ack : BitVec 12) : Option (Instr × Nat) :=
  let a (i : Nat) : DWord := opd ws i
  let n (i : Nat) : Nat := (opd ws i).toNat
  if opc == opCopy then some (.copy c (a 0) (a 1) (a 2), 3)
  else if opc == opCtxCreate then some (.ctxcreate c (n 0) (a 1), 2)
  else if opc == opCtxDestroy then some (.ctxdestroy c (n 0), 1)
  else if opc == opShare then (wideOf ws).map fun ns => (shareOf c ns, 6)
  else if opc == opRegInval then (if n 1 < 256 then some (.reginval c (n 0) (BitVec.ofNat 8 (n 1)), 2) else none)
  else if opc == opPageInval then some (.pageinval c (n 0) (a 1) (a 2), 3)
  else if opc == opHandleInval then (if n 1 < 256 then some (.handleinval c (n 0) (BitVec.ofNat 8 (n 1)), 2) else none)
  else if opc == opDirtyRc then some (.dirtyrc c (a 0) (a 1) (a 2), 3)
  else if opc == opFaultResume then some (.faultresume c (a 0) (a 1) (n 2), 3)
  else if opc == opFaultFail then some (.faultfail c (a 0) (a 1) (n 2), 3)
  else if opc == opDebugHalt then some (.debughalt c (a 0) ⟨a 1, n 2⟩, 3)
  else if opc == opDebugWrite then some (.debugwrite c (a 0) ⟨a 1, n 2⟩ (a 3) (a 4) (a 5), 6)
  else if opc == opDebugResume then some (.debugresume c (a 0) ⟨a 1, n 2⟩, 3)
  else if opc == opKeySet then some (.keyset c (a 0), 1)
  else if opc == opPreCopy then (if n 2 < 2 ^ 32 then some (.precopy c (n 0) (a 1) (BitVec.ofNat 32 (n 2)) (n 3) (a 4) (a 5), 6) else none)
  else if opc == opRestore then some (.restore c (a 0) (a 1), 2)
  else if opc == opTrackSet then some (.trackset c (a 0) (a 1), 2)
  else if opc == opPartition then ((wideOf ws).bind (partitionOf c)).map fun i => (i, 6)
  else if opc == opRegionRetire then some (.regionretire c (n 0), 1)
  else if opc == opLinkRetrain then some (.linkretrain c (n 0) locks ack, 1)
  else if opc == opFwUpdate then some (.fwupdate c (a 0) (a 1), 2)
  else if opc == opAttest then some (.attest c (a 0) (a 1), 2)
  else none

/-- The 16 words of the entry at a queue's head. -/
def State.entryWords (s : State) (fn q : Nat) : List DWord :=
  let x := s.cmdQueue fn q
  let bs := s.readRing (BitVec.ofNat 64 (x.qbase.toNat + 128 * x.qhead.toNat)) 128
  (List.range 16).map fun i => BitVec.ofNat 64 (bytesNat ((bs.drop (8 * i)).take 8))

/-- What the command processor makes of the entry: its command, or a rejection with BADCMD where its opcode is unknown or a reserved
bit is set. -/
def State.queueMove (s : State) (fn q : Nat) : Move :=
  let ws := s.entryWords fn q
  let w0 := (ws.getD 0 0).toNat
  let opc := w0 % 256
  let c : CmdSrc := { fn := fn, q := q, seq := ws.getD 1 0 }
  if opc == opLaunch && w0 == opc && ((ws.drop 2).take 6).all (· == 0) then .event (.launch c (headerOfEntry ws))
  else
    match commandOf c opc ws (Config.freeBits 16 s.fresh) (Config.freeBits 12 s.fresh) with
    | some (i, n) => if w0 == opc && (ws.drop (2 + n)).all (· == 0) then .event i else .reject c opc
    | none => .reject c opc

/-- A rejected entry completes with BADCMD. -/
def State.rejectEntry (s : State) (c : CmdSrc) (opc : Nat) : Host.Outcome State Fault Refusal :=
  if (s.cmdQueue c.fn c.q).mayTake then .next ((s.take c).complete c opc eBadCmd 0) else .next s

/-- Queues whose head entry may be taken. -/
def State.queueMoves (s : State) : List Move :=
  ((List.range 17).flatMap fun fn => (List.range 64).map fun q => (fn, q)).filterMap fun x =>
    if (x.1 != pkgFn || x.2 == 0) && s.mayTakeLaunch x.1 x.2 then some (s.queueMove x.1 x.2) else none

/-! ### Waves (spec/16 R296) -/

def State.waveRefs (s : State) (p : Block → Wave → Bool) : List WaveRef :=
  s.blocks.flatMap fun b => (b.waves.zipIdx.filter fun w => p b w.1).map fun w => WaveRef.mk b.lid b.rank w.2

def State.blockRefs (s : State) (p : Block → Bool) : List BlockRef := (s.blocks.filter p).map fun b => BlockRef.mk b.lid b.rank

/-- When a wave last issued; one that has entered the hand since counts as never having issued. -/
def Wave.lastIssue (w : Wave) : Nat := if w.issuedAt < w.entered then 0 else w.issuedAt

/-- When a pipe last issued. -/
def State.pipeLast (s : State) (core pipe : Nat) : Nat := (s.pipeWaves core pipe).foldl (fun n w => max n w.issuedAt) 0

/-- An issue that could be made, with what it is chosen by: its pipe, and within the pipe the wave's yield hint and the stamps of the wave's
and the group's last issues. -/
structure Ready where
  ref : WaveRef
  grp : Nat
  pipeLast : Nat
  pipe : Nat
  yielded : Bool
  wave : Nat
  group : Nat

/-- The pipes, which issue side by side, take turns: the one that has gone longest without issuing first. -/
def Ready.before (a b : Ready) : Bool :=
  if a.pipeLast != b.pipeLast then decide (a.pipeLast < b.pipeLast)
  else if a.pipe != b.pipe then decide (a.pipe < b.pipe)
  else if a.yielded != b.yielded then b.yielded
  else if a.wave != b.wave then decide (a.wave < b.wave)
  else decide (a.group < b.group)

def insertReady (x : Ready) : List Ready → List Ready
  | [] => [x]
  | y :: ys => if x.before y then x :: y :: ys else y :: insertReady x ys

/-- The groups of hand waves that may issue, in the order of R296. -/
def State.ready (s : State) : List Ready :=
  let all := s.blocks.flatMap fun b =>
    if b.runs then b.waves.zipIdx.flatMap fun w =>
      if w.1.stock then []
      else ((List.range w.1.groups.length).filter w.1.mayIssue).map fun g =>
        { ref := WaveRef.mk b.lid b.rank w.2, grp := g, pipeLast := s.pipeLast b.core w.1.pipe, pipe := 4 * b.core + w.1.pipe,
          yielded := w.1.yielded, wave := w.1.lastIssue, group := (w.1.groups.getD g Group.default).last }
    else []
  all.foldr insertReady []

/-! ### The device's moves -/

def ev (f : Instr) : Move := .event f

/-- Traps and forwarded lines that wait for the device. -/
def State.trapMoves (s : State) : List Move :=
  (s.waveRefs fun _ w => w.wait == some .room).map (fun w => ev (.handlerEntry w)) ++
  (s.launches.map fun l => ev (.launchRollback l.lid)) ++
  (s.launches.map fun l => ev (.launchEnd l.lid)) ++
  (s.blockRefs fun b => s.faultDue b || (b.faulted && b.place == .resident)).map (fun b => ev (.blockSwapOut b)) ++
  (s.blockRefs fun b => b.hasFate .halt).map (fun b => ev (.debugHaltBkpt b)) ++
  (s.waveRefs fun _ w => match w.wait with
    | some (.forward _ _) => true
    | _ => false).map fun w => ev (.forwardResponse w)

/-- The heads of the matrix engines' queues, and copies. -/
def State.engineMoves (s : State) : List Move :=
  (s.cores.zipIdx.filterMap fun k => k.1.engine.head?.map fun o => match o.op with
    | .drain .. => ev (.drainExecute k.2)
    | .pdrain .. => ev (.pdrainExecute k.2)
    | _ => ev (.mmaExecute k.2)) ++
  s.jobs.map fun j => ev (.copyLineTransfer j.id)

/-- The pipes of a unit's blocks on its cores: one choice after another, each counting those made before it for the same core. -/
def State.unitPipes (s : State) (cores : List Nat) (waves : Nat) : List Nat :=
  (cores.foldl (fun (x : List (Nat × Nat)) k =>
    let given := (x.filter fun y => y.1 == k).map (·.2)
    x ++ (s.choosePipes k waves given).map fun p => (k, p)) []).map (·.2)

/-- Where a unit that returns or moves may go. -/
def State.returnTo (s : State) (b : Block) : Option (List Nat × List Nat) :=
  match s.launch? b.lid with
  | none => none
  | some l =>
    (s.ctx? l.src.fn l.ctx).bind fun c =>
      (s.chooseCores c l (s.blockNeed b) (s.unitOf b).length).map fun ks => (ks, s.unitPipes ks b.waves.length)

/-- Retirement, boundaries, records, beginnings, stops, returns and placements. -/
def State.launchMoves (s : State) : List Move :=
  (s.blockRefs Block.finished).map (fun b => ev (.blockRetire b)) ++
  (s.launches.filter fun l => s.atBoundary l).map (fun l => ev (.kernelBoundary l.lid)) ++
  (s.launches.filter fun l => s.completable l).map (fun l => ev (.launchComplete l.lid)) ++
  (s.launches.filter fun l => l.state == .taken && !l.held).map (fun l => ev (.launchBegin l.src.fn l.src.q)) ++
  (s.blockRefs fun b => b.stopWanted && b.place == .resident && (s.unitOf b).all (fun x => x.stopped || x.leaving || x.place != .resident)).map (fun b => ev (.graceExpiry b)) ++
  (s.blocks.filter fun b => s.mayMove b).map (fun b =>
    match s.unitLeaves (s.unitOf b) false with
    | some s1 => match s1.returnTo b with
      | some x => ev (.blockMove ⟨b.lid, b.rank⟩ x.1 x.2)
      | none => ev (.blockMove ⟨b.lid, b.rank⟩ [] [])
    | none => ev (.blockMove ⟨b.lid, b.rank⟩ [] [])) ++
  (s.blocks.filter fun b => s.canReturn b).filterMap (fun b =>
    (s.returnTo b).map fun x => ev (.blockReentry ⟨b.lid, b.rank⟩ x.1 x.2)) ++
  (s.launches.filter fun l => s.offered l).filterMap fun l =>
    match s.ctx? l.src.fn l.ctx, s.kernel? l.hdr.entry with
    | some c, some k => (s.chooseCores c l (needOf k l.hdr) l.hdr.gangSize).map fun ks =>
        ev (.blockPlacement l.lid ks (s.unitPipes ks l.hdr.waveCount))
    | _, _ => none

/-- Scrubs and regions that re-stripe. -/
def State.packageMoves (s : State) : List Move :=
  (bitsOf s.pkg.scrubCluster).map (fun c => ev (.scrub (.cluster c))) ++
  (bitsOf s.pkg.scrubSlice).map (fun n => ev (.scrub (.slice n))) ++
  (s.pkg.regions.filter (·.cursor.isSome)).map (fun r => ev (.restripeUnitMove r.num [])) ++
  (List.range 24).flatMap fun c =>
    if s.pkg.regions.any fun r => r.excluded == some c && r.cursor.isNone then
      (s.pkg.regions.filter (s.stillUses c)).map fun r => ev (.restripeStart r.num c)
    else []

/-- A move changes more than the counters of stamps and free values. -/
def State.differs (s t : State) : Bool := { t with stamp := s.stamp, fresh := s.fresh } != s

/-- A stock wave that waits to try its instruction again would not wait if it were in the hand. -/
def State.wouldAct (s : State) (ref : WaveRef) : Bool :=
  match s.block? ref.lid ref.rank with
  | none => false
  | some b =>
    let s := s.setBlock (b.setWave ref.wave { b.wave ref.wave with stock := false })
    (b.wave ref.wave).mayTry && (List.range (b.wave ref.wave).groups.length).any fun g =>
      match s.issueGroup ref g with
      | .next t => s.differs t
      | _ => true

/-- What time brings about: polls, slices, grace periods, windows, promotions and links. -/
def State.timeMoves (s : State) : List Move :=
  (s.waveRefs fun _ w => match w.wait with
    | some (.waitv ..) => true
    | _ => false).map (fun w => ev (.waitvPoll w)) ++
  (s.blockRefs fun b => b.moveWanted && b.window).map (fun b => ev (.rebindWindowExpiry b)) ++
  (s.blockRefs fun b => b.stopWanted && b.place == .resident).map (fun b => ev (.graceExpiry b)) ++
  (s.ctxs.filter fun c => c.turn && !c.spent).map (fun c => ev (.sliceEnd c.tenant c.num)) ++
  s.blocks.flatMap (fun b => (b.waves.zipIdx.filter fun w => w.1.stock && (!w.1.blocked || s.wouldAct ⟨b.lid, b.rank, w.2⟩)).map fun w =>
    ev (.stockPromotion b.core w.1.pipe ⟨b.lid, b.rank, w.2⟩)) ++
  (List.range 8).flatMap fun n =>
    [ev (.retrainComplete n (Config.freeBits 12 s.fresh)), ev (.pleipAckTimer n)]

def rotate {α : Type} (n : Nat) (l : List α) : List α := let k := n % l.length; l.drop k ++ l.take k

/-- Every move the device could make: its own work first, then issues, then what time brings about; every 64th move starts with the
last, so that none of it waits for ever. -/
def State.moves (s : State) : List Move :=
  let work := s.trapMoves ++ s.engineMoves ++ s.launchMoves ++ s.queueMoves ++ s.ready.map (fun r => .issue r.ref r.grp) ++ s.packageMoves
  let late := rotate (s.stamp / 64) s.timeMoves
  if s.stamp % 64 == 0 then late ++ work else work ++ late

/-- Stock waves that a move has made ready note when (R297, R298). -/
def State.noteReady (old new : State) : State :=
  let note (b : Block) : Block := { b with waves := b.waves.zipIdx.map fun (w : Wave × Nat) =>
    if w.1.stock && !w.1.blocked && (old.block? b.lid b.rank).elim false (fun o => (o.wave w.2).blocked) then
      { w.1 with readySince := new.stamp }
    else w.1 }
  if new.blocks.any fun b => b.waves.any (·.stock) then { new with blocks := new.blocks.map note } else new

/-- What a move does. -/
def State.perform (s : State) (m : Move) : Host.Outcome State Fault Refusal :=
  match m with
  | .issue ref grp => s.issueGroup ref grp
  | .event i => exec i { s with sel := none }
  | .reject c opc => s.rejectEntry c opc
  | .read fn off => s.hostRead fn off

/-- Carry a move out. -/
def State.act (s : State) (m : Move) : Host.Outcome State Fault Refusal :=
  match s.perform m with
  | .next t => .next (s.noteReady t)
  | o => o

/-- A move makes progress where it changes more than the counters. -/
def State.progress (s : State) (m : Move) : Bool :=
  match s.act m with
  | .next t => s.differs t
  | _ => true

/-- The device's next move: the first that makes progress. -/
def State.nextMove (s : State) : Option Move := s.moves.find? s.progress

end Sys2Proof.Machine
end

