-- ==== Sys2Proof/Machine/Step.lean ====
section
/-!
DEFINITION. One step of the machine: the next move of the agenda, or, with nothing on it, the device's own next move (log 1).
-/

namespace Sys2Proof.Machine

/-- One step. A machine with nothing to do stays as it is. -/
def step (s : State) : Host.Outcome State Fault Refusal :=
  match s.agenda with
  | m :: rest => { s with agenda := rest }.act m
  | [] =>
    match s.nextMove with
    | some m => s.tick.act m
    | none => .next s

/-- The instruction whose bits are w, where the next step fetches it (log 7). -/
def State.withFetchWord (s : State) (nbits w : Nat) : State := s.placeWord (BitVec.ofNat 512 (w % 2 ^ nbits))

end Sys2Proof.Machine
end

