-- ==== Sys2Proof/Safety.lean ====
section
/-!
DEFINITION. What counts as a sound state and what an instruction leaves alone, in the terms the statements use.
-/

namespace Sys2Proof.Machine

/-- The three memories are in canonical form: addresses rising, no entry equal to what an unlisted address reads as. -/
def State.memOk (s : State) : Prop := memWf s.mem = true ∧ memWf s.hostMem = true ∧ memWf s.peerMem = true

/-- The part has the cores, tenants, ports, columns and islands that the manual gives it (spec/00 R1, R2; spec/18 R325, R326). -/
def State.shapeOk (s : State) : Prop :=
  s.cores.length = 288 ∧ s.tenants.length = 16 ∧ s.ports.length = 8 ∧ s.pkg.columns.length = 24 ∧ s.pkg.islands.length = 24

/-- A step goes on. -/
def goesOn (s : State) : Prop := ∃ t, step s = .next t

/-- A wave by its name. -/
def State.wave (s : State) (r : WaveRef) : Wave := (s.block? r.lid r.rank).elim Wave.default (·.wave r.wave)

/-- The registers that a wave's instructions read and write. -/
def State.regs (s : State) (r : WaveRef) : RegCtx := (s.wave r).regs

/-! ### When an instruction runs -/

/-- The selected group can run the instruction (spec/17 R307): no check stops it, no operand has a result on its way, and some lane's
guard is true. -/
structure CanIssue (s : State) (c : Cx) (h : Hdr) (i : Info) : Prop where
  chosen : s.cx? = some c
  clear : ∀ o ∈ guardOpd h :: i.ops, c.hazards o = []
  pass : c.firstTrap h i = none
  live : c.guardMask h ≠ 0

/-! ### What an instruction leaves alone -/

/-- Every byte of the package's memory, of the host's and of the peers' reads as before. -/
def SameMemory (s u : State) : Prop :=
  ∀ a, memRead u.mem a = memRead s.mem a ∧ memRead u.hostMem a = memRead s.hostMem a ∧ memRead u.peerMem a = memRead s.peerMem a

/-- Everything but blocks, the order stamp, and the marks that register SRAM keeps of its use is as before: contexts, tenants, queues,
caches, scratch, accumulators, copies, links, interrupts. -/
def SameDevice (s u : State) : Prop :=
  u = { s with stamp := u.stamp, blocks := u.blocks, cores := u.cores } ∧
  u.cores.map (fun k => { k with regCache := [] }) = s.cores.map fun k => { k with regCache := [] }

/-- Every block but one is as before, and of that one everything but one wave. -/
def SameBlocks (s u : State) (r : WaveRef) : Prop :=
  (∀ l k, (l, k) ≠ (r.lid, r.rank) → u.block? l k = s.block? l k) ∧
  ∃ b b', s.block? r.lid r.rank = some b ∧ u.block? r.lid r.rank = some b' ∧ b' = { b with waves := b'.waves } ∧
    b'.waves.length = b.waves.length ∧ ∀ n, n ≠ r.wave → b'.wave n = b.wave n

/-- A wave keeps everything but its registers, its groups and meeting points, its results on their way, its yield hint, and what the
device notes of the issue (when it was, and whether registers had to be fetched for it, spec/16 R296, R297): its threads, its handler
frame and trap, its buffer, its waits and fences. -/
def SameWave (w w' : Wave) : Prop :=
  w' = { w with regs := w'.regs, groups := w'.groups, held := w'.held, mr := w'.mr, pend := w'.pend, yielded := w'.yielded,
                 issuedAt := w'.issuedAt, swap := w'.swap }

/-! ### What an instruction writes to the registers -/

/-- New values of an instruction: a lane of a vector register (none inside: unwritten), a scalar, a predicate, and flags raised in
fstat. Where there is no new value the old one stands. -/
structure RegEffect where
  lane : Nat → Nat → Option (Option Word) := fun _ _ => none
  scalar : Nat → Option DWord := fun _ => none
  pred : Nat → Option Mask := fun _ => none
  flags : BitVec 6 := 0

/-- Registers after an instruction whose active lanes are `act`: the new values, the last uses unwritten (spec/04 R93), and every
other lane, scalar, predicate and flag as before. -/
def RegEffect.Holds (e : RegEffect) (before after : RegCtx) (kills : List Nat) (act : Mask) : Prop :=
  after.nv = before.nv ∧ after.fstat = before.fstat ||| e.flags ∧
  (∀ n l, l < 128 → after.lane n l =
    if act.getLsbD l then (e.lane n l).getD (if kills.contains n then none else before.lane n l) else before.lane n l) ∧
  (∀ n, after.scalar n = (e.scalar n).getD (before.scalar n)) ∧
  (∀ n, after.pred n = (e.pred n).getD (before.pred n))

/-- A value per lane in a vector register or pair (R90), or one value, the lowest active lane's, in a scalar (spec/11 R185). -/
def RegEffect.dst (d : Dst) (act : Mask) (f : Nat → DWord) (flags : BitVec 6 := 0) : RegEffect :=
  match d with
  | .v n wide =>
    { lane := fun m l =>
        if m = n.toNat then some (some ((f l).setWidth 32))
        else if wide && m == n.toNat + 1 then some (some ((f l).extractLsb' 32 32)) else none
      flags := flags }
  | .s n => { scalar := fun m => if m = n.toNat then some (f (lowestLane act)) else none, flags := flags }

/-- A value per lane that may be unwritten, in a vector register or pair. -/
def RegEffect.tagged (n : BitVec 12) (wide : Bool) (f : Nat → Option Word × Option Word) : RegEffect :=
  { lane := fun m l =>
      if m = n.toNat then some (f l).1 else if wide && m == n.toNat + 1 then some (f l).2 else none }

/-- A truth value per active lane in a predicate, or the lowest active lane's in all lanes; a write to p7 is discarded. -/
def RegEffect.predicate (before : RegCtx) (p : BitVec 3) (uni : Bool) (act : Mask) (f : Nat → Bool) (flags : BitVec 6 := 0) : RegEffect :=
  { pred := fun m =>
      if m = p.toNat ∧ m ≠ 7 then
        some (if uni then (if f (lowestLane act) then BitVec.allOnes 128 else 0)
              else maskOf fun l => if act.getLsbD l then f l else (before.pred m).getLsbD l)
      else none
    flags := flags }

/-- Values with flags: those of all active lanes, or of the one uniform result, stand in fstat afterwards (spec/05 R108). -/
def RegEffect.flt (d : Dst) (act : Mask) (f : Nat → DWord × BitVec 6) : RegEffect :=
  .dst d act (fun l => (f l).1) (match d with
    | .v _ _ => laneFlags act fun l => (f l).2
    | .s _ => (f (lowestLane act)).2)

/-! ### Where threads go on -/

/-- A thread stands at a PC: in a group there, or held there by its meeting register (spec/12 R209, R211). -/
def Wave.stands (w : Wave) (l : Nat) (p : DWord) : Prop :=
  (∃ g ∈ w.groups, g.lanes.getLsbD l = true ∧ g.pc = p) ∨ (w.held.getLsbD l = true ∧ w.mrOf l = p)

/-- The threads of the group go on where `next` says, and every other thread of the wave stands where it stood. -/
def PcAre (c : Cx) (u : State) (next : Nat → DWord) : Prop :=
  (∀ l, l < 128 → c.g.lanes.getLsbD l = true → (u.wave c.ref).stands l (next l)) ∧
  (∀ l p, l < 128 → c.g.lanes.getLsbD l = false → c.wv.stands l p → (u.wave c.ref).stands l p)

/-! ### An instruction that works on registers alone -/

/-- The frame of an instruction that works on registers alone. -/
def RegsOnly (s u : State) (r : WaveRef) : Prop :=
  SameMemory s u ∧ SameDevice s u ∧ SameBlocks s u r ∧ SameWave (s.wave r) (u.wave r)

/-- The results on their way after it: its own (spec/11 R187, R188), then the earlier ones by what separation they still owe. -/
def PendAre (c : Cx) (h : Hdr) (i : Info) (u : State) : Prop :=
  (u.wave c.ref).pend =
    c.newPend h i (c.guardMask h) c.wv.regs ++ c.wv.pend.flatMap (Pending.age c.g.lanes (h.stall.toNat + 1))

/-- What the end of an instruction leaves in its wave: new register values, results on their way, the yield hint (spec/11 R190), and
where its threads go on. -/
def Ends (c : Cx) (h : Hdr) (i : Info) (e : RegEffect) (next : Nat → DWord) (u : State) : Prop :=
  e.Holds c.wv.regs (u.regs c.ref) (i.kills h) (c.guardMask h) ∧ PendAre c h i u ∧
    (u.wave c.ref).yielded = h.y ∧ PcAre c u next

/-- Where it can issue, the instruction completes, with these new values, its threads at the next instruction (spec/11 R179), and
nothing else changed. -/
def Gives (s : State) (k : Instr) (h : Hdr) (i : Info) (e : Cx → Mask → RegEffect) : Prop :=
  ∀ c, CanIssue s c h i →
    ∃ u, exec k s = .next u ∧ RegsOnly s u c.ref ∧ Ends c h i (e c (c.guardMask h)) (fun _ => ptrAdd c.g.pc i.len) u

/-! ### An instruction with effects beside its registers -/

/-- The instruction completes: `x` holds its effects on everything but its wave's registers and place, and these end with the new values
`e` at the next instruction. -/
def Completes (s : State) (k : Instr) (c : Cx) (h : Hdr) (i : Info) (x : Cx) (e : RegEffect) : Prop :=
  ∃ u, exec k s = .next u ∧ RegsOnly x.close u c.ref ∧ Ends c h i e (fun _ => ptrAdd c.g.pc i.len) u

/-- The instruction takes a trap and has no other effect but those kept in `v` (spec/17 R307, R310). -/
def Traps (s : State) (k : Instr) (c : Cx) (v : State) (t : TrapInfo) : Prop :=
  exec k s = .next (Cx.takeTrap { c with s := v } t).close

/-- The wave waits and tries the instruction again later (spec/16 R297): nothing but the wait changes beside `v`. -/
def Waits (s : State) (k : Instr) (c : Cx) (v : State) (w : Wait) : Prop :=
  exec k s = .next (Cx.setWv { c with s := v } { c.wv with wait := some w, waiter := c.g.lanes }).close

/-- Only clean copies, translations and free values differ: the lines that L1, the instruction caches, the column caches and L2 hold, and
the TLBs. -/
def CachesOnly (s v : State) : Prop :=
  v = { s with l2 := v.l2, tlb := v.tlb, fresh := v.fresh, cores := v.cores, deckLines := v.deckLines } ∧
  v.cores.map (fun k => { k with l1 := [], icache := [] }) = s.cores.map fun k => { k with l1 := [], icache := [] }

/-- The byte that a buffer holds of a line, if any (spec/08 R141). -/
def bufByte (b : List BufLine) (line i : Nat) : Option Byte :=
  match bufFind b line with
  | some x => if x.mask.getLsbD i then some (byteOf x.data i) else none
  | none => none

end Sys2Proof.Machine
end

