-- ==== Sys2Proof/Certificates/Slice0/Obligations.lean ====
section
/-!
DEFINITION. The statements for the provers: one proposition per entry of OBLIGATIONS.json, with the vocabulary they share.
-/

open Sys2Proof Sys2Proof.Machine

namespace Sys2Proof.Machine

/-! ### Integer instructions (spec/12) -/

/-- A two-source integer instruction: per active lane (a uniform form once), v of the words of a and b. `wb` tells whether b may be
a pair. -/
def TwoSource (s : State) (k : Instr) (h : Hdr) (t : ITy) (o : Ops2) (lat : Nat) (wb : Bool) (imm : BitVec 32 → DWord)
    (v : DWord → DWord → DWord) : Prop :=
  Gives s k h (Ops2.info o (intLat lat t) t.is64 wb t.is64) fun c act =>
    .dst (Ops2.dst o t.is64) act fun l => v (Ops2.a o c t.is64 l) (Ops2.b o c wb imm l)

/-- A two-source instruction on the integers that the operands are of type T: the result clamped under .sat, otherwise the value of
T with the same low w bits. -/
def OnIntegers (s : State) (k : Instr) (h : Hdr) (t : ITy) (o : Ops2) (lat : Nat) (sat : Bool) (x : Int → Int → Int) : Prop :=
  TwoSource s k h t o lat t.is64 t.imm fun a b =>
    t.result (if sat then max t.least (min t.greatest (x (t.read a) (t.read b))) else x (t.read a) (t.read b))

/-- A shift of the w-bit pattern of a by the 32-bit count b. -/
def Shifts (s : State) (k : Instr) (h : Hdr) (t : ITy) (o : Ops2) (x : Nat → Nat → Int) : Prop :=
  TwoSource s k h t o 3 false (·.setWidth 64) fun a b => t.result (x (a.toNat % 2 ^ t.width) (b.toNat % 2 ^ 32))

/-- A pattern read as a signed value of its width. -/
def signedOf (w p : Nat) : Int := if 2 ^ (w - 1) ≤ p then (p : Int) - 2 ^ w else p

/-- A unary instruction on the w-bit pattern. -/
def OneSource (s : State) (k : Instr) (h : Hdr) (t : ITy) (o : Ops1) (x : Nat → Int) : Prop :=
  Gives s k h (Ops1.info o (intLat 3 t) t.is64 t.is64 false) fun c act =>
    .dst (Ops1.dst o t.is64) act fun l => t.result (x ((Ops1.a o c t.is64 l).toNat % 2 ^ t.width))

end Sys2Proof.Machine

/-- IADD, ISUB, IMUL, IMULH, IMIN, IMAX, AND, OR and XOR complete with the results of R199, in every form. For every state in
which the selected group can issue the instruction, exec answers a next state: the destination holds, in each active lane
(uniform forms: once), the exact integer result clamped under .sat or else wrapped to the w-bit pattern, extended by the
signedness of T; last-use sources become unwritten; every other register, predicate, flag, special register, accumulator, queue
and byte of memory is as before, and the group goes on at the next instruction. (R199) -/
def Obligations.IntegerArithmeticResults : Prop :=
  ∀ s h t o,
    (∀ sat, OnIntegers s (.iadd h t sat o) h t o 3 sat fun a b => a + b) ∧
    (∀ sat, OnIntegers s (.isub h t sat o) h t o 3 sat fun a b => a - b) ∧
    OnIntegers s (.imul h t o) h t o 5 false (fun a b => a * b) ∧
    OnIntegers s (.imulh h t o) h t o 5 false (fun a b => a * b / 2 ^ t.width) ∧
    OnIntegers s (.imin h t o) h t o 3 false (fun a b => if a ≤ b then a else b) ∧
    OnIntegers s (.imax h t o) h t o 3 false (fun a b => if a ≤ b then b else a) ∧
    TwoSource s (.and h t o) h t o 3 t.is64 t.imm (fun a b => t.result (a &&& b).toNat) ∧
    TwoSource s (.or h t o) h t o 3 t.is64 t.imm (fun a b => t.result (a ||| b).toNat) ∧
    TwoSource s (.xor h t o) h t o 3 t.is64 t.imm (fun a b => t.result (a ^^^ b).toNat)

/-- SHL, SHR, SAR and ROT complete with the results of R200, at every count. The count is b read as an unsigned 32-bit value,
never a pair; below the width the pattern is shifted or rotated, and at or above it SHL and SHR give 0, SAR all ones for a
negative pattern and else 0, and ROT turns by the count modulo the width; SHR is unsigned and SAR signed whatever T says. exec
answers a next state with that result and the frame of a register instruction. (R200) -/
def Obligations.ShiftResults : Prop :=
  ∀ s h t o,
    Shifts s (.shl h t o) h t o (fun p c => if c < t.width then (p * 2 ^ c % 2 ^ t.width : Nat) else 0) ∧
    Shifts s (.shr h t o) h t o (fun p c => if c < t.width then (p / 2 ^ c : Nat) else 0) ∧
    Shifts s (.sar h t o) h t o (fun p c =>
      if c < t.width then signedOf t.width p / 2 ^ c else if signedOf t.width p < 0 then -1 else 0) ∧
    Shifts s (.rot h t o) h t o (fun p c =>
      ((p * 2 ^ (c % t.width) % 2 ^ t.width + p / 2 ^ (t.width - c % t.width) : Nat) : Int))

namespace Sys2Proof.Machine

/-- The condition of ICMP (R201). -/
def conditionOf (cc : ICond) (a b : Int) : Bool :=
  match cc with
  | .eq => decide (a = b)
  | .ne => decide (a ≠ b)
  | .lt => decide (a < b)
  | .le => decide (a ≤ b)
  | .gt => decide (a > b)
  | .ge => decide (a ≥ b)

/-- A comparison: per active lane, or once for every lane of the predicate; a write to p7 is discarded. -/
def Compares (s : State) (k : Instr) (h : Hdr) (lat : Nat) (wide : Bool) (imm : BitVec 32 → DWord) (pd : BitVec 3) (o : OpsC)
    (v : DWord → DWord → Bool) : Prop :=
  Gives s k h (OpsC.info o lat wide pd) fun c act =>
    .predicate c.wv.regs pd (OpsC.uni o) act fun l => v (OpsC.a o c wide l) (OpsC.b o c wide imm l)

end Sys2Proof.Machine

/-- ICMP completes and writes its predicate by the condition of R201, in every form, and a write to p7 is discarded. Forms V, S
and I write the active lanes of the predicate and keep the others; form U compares once and writes every lane; with destination
p7 nothing is written. Everything else is as before. (R201; R197; R90) -/
def Obligations.IntegerCompareWritesPredicate : Prop :=
  ∀ s h cc t pd o, Compares s (.icmp h cc t pd o) h (intLat 3 t) t.is64 t.imm pd o fun a b => conditionOf cc (t.read a) (t.read b)

/-- INEG, IABS, NOT, POPC, CLZ, BREV, MOV and CVTI complete with the results of R202 and R203. Bit by bit where the rule speaks
of bits: CLZ counts the zeros above the highest one, BREV moves bit i to bit w - 1 - i, POPC counts ones. MOV of a vector copies
the unwritten tags, and its width below 32 has no effect on a vector destination; a uniform MOV extends the low 32 bits by the
signedness of T. CVTI clamps or extends. exec answers a next state with the frame of a register instruction. (R202; R203) -/
def Obligations.IntegerUnaryResults : Prop :=
  ∀ s h t o,
    OneSource s (.ineg h t o) h t o (fun p => -(p : Int)) ∧
    OneSource s (.iabs h t o) h t o (fun p => if t.signed then (signedOf t.width p).natAbs else p) ∧
    OneSource s (.not h t o) h t o (fun p => 2 ^ t.width - 1 - p) ∧
    OneSource s (.popc h t o) h t o (fun p => ((List.range t.width).countP p.testBit : Nat)) ∧
    OneSource s (.clz h t o) h t o (fun p =>
      (((List.range t.width).find? fun n => p.testBit (t.width - 1 - n)).getD t.width : Nat)) ∧
    (∃ rev : Nat → Nat, (∀ p i, (rev p).testBit i = (decide (i < t.width) && p.testBit (t.width - 1 - i))) ∧
      OneSource s (.brev h t o) h t o (fun p => rev p)) ∧
    Gives s (.mov h t o) h (Ops1.info o (intLat 3 t) t.is64 t.is64 true) (fun c act =>
      match o with
      | .v d a => .tagged d t.is64 fun l => (c.rv.lane a.toNat l, c.rv.lane (a.toNat + 1) l)
      | .s d a => .dst (.v d t.is64) act fun l => c.scl a l
      | .u d a => .dst (.s d) act fun l =>
          if t.is64 then c.scl a l else if t.signed then ((c.scl a l).setWidth 32).signExtend 64 else ((c.scl a l).setWidth 32).setWidth 64) ∧
    Gives s (.cvti h t o) h (Ops1.info o (intLat 3 t) (t.width == 32) t.is64 false) (fun c act =>
      .dst (Ops1.dst o t.is64) act fun l =>
        let a := Ops1.a o c (t.width == 32) l
        if t.is64 then (if t.signed then (a.setWidth 32).signExtend 64 else (a.setWidth 32).setWidth 64)
        else t.result (t.clamp (if t.width = 32 then a.toInt else (a.setWidth 32).toInt)))

/-- IMAD, BFI and ISEL complete with the results of R205, vector and uniform. IMAD multiplies and adds exactly, then clamps or
wraps; BFI replaces bits pos to min(pos + len, w) - 1 of a by the low bits of b; ISEL takes a where the predicate, negated if
asked, is true in the lane (uniform: in the lowest active lane), copying values and unwritten tags. Frame of a register
instruction. (R204; R205) -/
def Obligations.MultiplyAddFieldAndSelectResults : Prop :=
  ∀ s h t,
    (∀ sat o, Gives s (.imad h t sat o) h (Ops3.info o (intLat 5 t) t.is64 t.is64) fun c act =>
      .dst (Ops3.dst o t.is64) act fun l =>
        let x := t.read (Ops3.a o c t.is64 l) * t.read (Ops3.b o c t.is64 l) + t.read (Ops3.c o c t.is64 t.imm l)
        t.result (if sat then max t.least (min t.greatest x) else x)) ∧
    (∀ o, ∃ field : Nat → Nat → Nat → Nat,
      (∀ a b k i, (field a b k).testBit i =
        (decide (i < t.width) && if k % 256 ≤ i ∧ i < min (k % 256 + k / 256 % 256) t.width then b.testBit (i - k % 256) else a.testBit i)) ∧
      Gives s (.bfi h t o) h (Ops3.info o (intLat 3 t) t.is64 false) fun c act =>
        .dst (Ops3.dst o t.is64) act fun l =>
          t.result (field (Ops3.a o c t.is64 l).toNat (Ops3.b o c t.is64 l).toNat (Ops3.c o c false (·.setWidth 64) l).toNat : Nat)) ∧
    (∀ neg p d a b, Gives s (.isel h t neg p (.vec d a b)) h (OpsSel.info (.vec d a b) (intLat 3 t) t.is64 p) fun c _ =>
      .tagged d t.is64 fun l => if (c.rv.pred p.toNat).getLsbD l != neg then c.selected a l else c.selected b l) ∧
    (∀ neg p d a b, Gives s (.isel h t neg p (.uni d a b)) h (OpsSel.info (.uni d a b) (intLat 3 t) t.is64 p) fun c act =>
      .dst (.s d) act fun l =>
        let x := if (c.rv.pred p.toNat).getLsbD l != neg then c.scl a l else c.scl b l
        if t.is64 then x else if t.signed then (x.setWidth 32).signExtend 64 else (x.setWidth 32).setWidth 64)

/-- BFX, LEA and MOVI complete with the results of R206 to R208. BFX extracts bits pos to min(pos + len, w) - 1, signed or
unsigned by T, and gives 0 for pos at or above w or len 0; LEA adds index x 2^sh + disp to the address field modulo 2^56 under
an unchanged region identifier; MOVI writes its immediate read as T. Frame of a register instruction. (R206; R207; R208; R17) -/
def Obligations.BitFieldPointerAndImmediateResults : Prop :=
  ∀ s h t,
    (∀ d a pos len, Gives s (.bfx h t (.v d a) pos len) h
        { len := 12, lat := intLat 3 t, ops := [rdV a t.is64, wrV d t.is64], lastA := regsOf a t.is64 } fun c act =>
      .dst (.v d t.is64) act fun l => t.result (bfxBits t (c.vec a t.is64 l).toNat pos.toNat len.toNat)) ∧
    (∀ d a pos len, Gives s (.bfx h t (.u d a) pos len) h
        { len := 12, lat := intLat 3 t, uni := true, ops := [rdS a 1, wrS d 1] } fun c act =>
      .dst (.s d) act fun l => t.result (bfxBits t (c.scl a l).toNat pos.toNat len.toNat)) ∧
    (∀ a pos len, bfxBits t a pos len =
      if t.width ≤ pos ∨ len = 0 then 0
      else
        let n := min (pos + len) t.width - pos
        let f := a % 2 ^ t.width / 2 ^ pos % 2 ^ n
        if t.signed then signedOf n f else f) ∧
    (∀ d base idx sh disp, Gives s (.lea h t (.vec d base idx) sh disp) h
        { len := 12, lat := intLat 3 t, ops := [vsOpd true false base, rdV idx t.is64, wrV d true], lastA := vsLast true base,
          lastB := regsOf idx t.is64 } fun c act =>
      .dst (.v d true) act fun l =>
        let p := c.vs base true l
        p.extractLsb' 56 8 ++ BitVec.ofInt 56 ((p.toNat % 2 ^ 56 : Nat) + (t.read (c.vec idx t.is64 l) * 2 ^ sh.toNat + disp.toInt))) ∧
    (∀ d base idx sh disp, Gives s (.lea h t (.uni d base idx) sh disp) h
        { len := 12, lat := intLat 3 t, uni := true, ops := [rdS base 1, rdS idx 1, wrS d 1] } fun c act =>
      .dst (.s d) act fun l =>
        let p := c.scl base l
        p.extractLsb' 56 8 ++ BitVec.ofInt 56 ((p.toNat % 2 ^ 56 : Nat) + (t.read (c.scl idx l) * 2 ^ sh.toNat + disp.toInt))) ∧
    (∀ d imm, Gives s (.movi h t d imm) h { len := 12, lat := intLat 3 t, uni := !d.isV, ops := [match d with
          | .v n => wrV n t.is64
          | .s n => wrS n 1] } fun _ act =>
      .dst (match d with
        | .v n => .v n t.is64
        | .s n => .s n) act fun _ => t.result (t.read (t.imm imm)))

/-- NOP, NOPL and YIELD complete, change no value, and YIELD acts as Y = 1. From every state in which the selected group can
issue them, exec answers a next state with every register, flag, special register, accumulator, queue, cache and byte of memory
as before; the group goes on past their 8, 12 and 8 bytes; after YIELD the yield hint is set whatever its own Y bit, after the
others it is their Y bit; a YIELD with an active lane also asks its pipe to swap the wave for a ready stock wave. (R214; R215;
R177) -/
def Obligations.NopsAndYieldChangeNoValue : Prop :=
  ∀ s h,
    Gives s (.nop h) h { len := 8 } (fun _ _ => {}) ∧
    Gives s (.nopl h) h { len := 12 } (fun _ _ => {}) ∧
    Gives s (.yield h) { h with y := true } { len := 8 } (fun _ _ => {}) ∧
    ∀ c u, CanIssue s c { h with y := true } { len := 8 } → exec (.yield h) s = .next u → (u.wave c.ref).swap = true

namespace Sys2Proof.Machine

/-! ### Control flow (spec/12) -/

/-- Where it can issue, the instruction writes no register, and its threads go on where `next` says. -/
def GoesTo (s : State) (k : Instr) (c : Cx) (h : Hdr) (i : Info) (next : Nat → DWord) : Prop :=
  ∃ u, exec k s = .next u ∧ RegsOnly s u c.ref ∧ Ends c h i {} next u

/-- The target of a displacement: the instruction's own PC plus it, modulo 2^56, under the PC's region identifier (R209). -/
def Cx.target (c : Cx) (disp : BitVec 32) : DWord :=
  c.g.pc.extractLsb' 56 8 ++ BitVec.ofInt 56 ((c.g.pc.toNat % 2 ^ 56 : Nat) + disp.toInt)

/-- The table index of a lane of BRT, an unsigned 32-bit value. -/
def Cx.tableIndexOf (c : Cx) (idx : VS) (l : Nat) : Nat := (c.vs idx false l).toNat % 2 ^ 32

end Sys2Proof.Machine

/-- BRA and BRT complete: each lane goes to its own target, and a misaligned target traps ALIGN. BRA: every active lane goes on
at the target, every other lane of the group at PC + 12. BRT with n = n1 + 1 blocks: an active lane with index below n goes on
at base + 64 x index, every other at PC + 16. No register, flag or byte of memory changes, and the other threads of the wave
stand where they stood. A target off a 64-byte block, of any lane that takes it, raises ALIGN in those lanes and has no other
effect. (R210; R212; R209; R180) -/
def Obligations.BranchesMoveTheActiveLanes : Prop :=
  ∀ s h disp c,
    (CanIssue s c h { len := 12 } →
      if (c.target disp).toNat % 64 = 0 then
        GoesTo s (.bra h disp) c h { len := 12 } fun l => if (c.guardMask h).getLsbD l then c.target disp else ptrAdd c.g.pc 12
      else Traps s (.bra h disp) c s (laneTrap tAlign 0 (infoLine (c.target disp)) (c.guardMask h))) ∧
    (∀ idx n1, CanIssue s c h { len := 16, ops := [vsOpd false false idx], lastA := vsLast false idx } →
      let takes (l : Nat) : Prop := (c.guardMask h).getLsbD l = true ∧ c.tableIndexOf idx l < n1.toNat + 1
      if (c.target disp).toNat % 64 = 0 ∨ ∀ l, l < 128 → ¬ takes l then
        ∃ next : Nat → DWord, (∀ l, l < 128 → (takes l → next l = ptrAdd (c.target disp) (64 * c.tableIndexOf idx l)) ∧
            (¬ takes l → next l = ptrAdd c.g.pc 16)) ∧
          GoesTo s (.brt h idx n1 disp) c h { len := 16, ops := [vsOpd false false idx], lastA := vsLast false idx } next
      else ∃ lanes : Mask, (∀ l, l < 128 → (lanes.getLsbD l = true ↔ takes l)) ∧
        Traps s (.brt h idx n1 disp) c s
          (laneTrap tAlign 0 (infoLine (ptrAdd (c.target disp) (64 * c.tableIndexOf idx (lowestLane lanes)))) lanes))

/-- MEET completes and sets the meeting register of the active lanes to its target. With an aligned target exec answers a next
state in which every active lane has the target in its meeting register, or has just been released and stands there; a lane
outside the active ones keeps its meeting register or has been released; the group goes on at PC + 12 and nothing else changes.
A misaligned target traps ALIGN in the active lanes. (R211; R209) -/
def Obligations.MeetSetsMeetingRegisters : Prop :=
  ∀ s h disp c, CanIssue s c h { len := 12 } →
    if (c.target disp).toNat % 64 = 0 then
      ∃ u, exec (.meet h disp) s = .next u ∧ RegsOnly s u c.ref ∧ Ends c h { len := 12 } {} (fun _ => ptrAdd c.g.pc 12) u ∧
        ∀ l, l < 128 →
          if (c.guardMask h).getLsbD l then
            (u.wave c.ref).mrOf l = c.target disp ∨ ((u.wave c.ref).mrOf l = mrNone ∧ (u.wave c.ref).stands l (c.target disp))
          else (u.wave c.ref).mrOf l = c.wv.mrOf l ∨ (u.wave c.ref).mrOf l = mrNone
    else Traps s (.meet h disp) c s (laneTrap tAlign 0 (infoLine (c.target disp)) (c.guardMask h))

/-- After the meeting condition is evaluated no thread runs at its meeting point and no complete meeting point is still held.
For every wave: after evaluation a thread in a group never stands at the PC in its meeting register; for no address X are all
living threads whose meeting register is X held there; no group is empty; and no thread has moved to another PC, no register,
buffer or thread state of the wave has changed. (R211) -/
def Obligations.MeetingPointsSettle : Prop :=
  ∀ w : Wave,
    (∀ g ∈ w.meet.groups, ∀ l, l < 128 → g.lanes.getLsbD l = true → g.pc ≠ mrNone → w.meet.mrOf l ≠ g.pc) ∧
    (∀ x, x ≠ mrNone → ∀ l, l < 128 → w.meet.alive.getLsbD l = true → w.meet.mrOf l = x →
      ∃ m, m < 128 ∧ w.meet.alive.getLsbD m = true ∧ w.meet.mrOf m = x ∧ w.meet.held.getLsbD m = false) ∧
    (∀ g ∈ w.meet.groups, g.lanes ≠ 0) ∧
    (∀ l p, l < 128 → w.stands l p → w.meet.stands l p) ∧
    w.meet = { w with groups := w.meet.groups, held := w.meet.held, mr := w.meet.mr }

/-- EXIT completes: the active threads exit and leave every bound barrier, and the others go on. exec always answers a next
state in which exactly the active threads of the wave are added to the exited ones. Where threads of the wave remain, no barrier
is bound and no handler runs, nothing else of the machine changes but where the group's other lanes go on. Where the wave's last
thread exits the wave retires: it holds no group, and of the block's buffer each byte that the wave's buffer held is the wave's
and every other one is as before. On every bound barrier each active thread's exit counts as arrive-and-drop: with no arrival
before, A and Q rise by one; after an arrival of the phase only Q does; a thread that has dropped changes nothing. Where that
completes the phase (and no arrival of it stood at a site), P rises by one, E falls by Q, and A, Q and the arrived bits are
cleared. (R213; R257; R259; R150) -/
def Obligations.ExitEndsThreads : Prop :=
  (∀ s h c, CanIssue s c h { len := 8 } →
    ∃ u, exec (.exit h) s = .next u ∧ (u.wave c.ref).exited = c.wv.exited ||| c.guardMask h ∧
      (c.blk.bars = [] → c.wv.frame = none → c.wv.alive &&& ~~~c.guardMask h ≠ 0 →
        SameMemory s u ∧ SameDevice s u ∧ SameBlocks s u c.ref ∧ u.regs c.ref = c.wv.regs ∧
        (u.wave c.ref).buf = c.wv.buf ∧
        ∀ l, l < 128 → c.g.lanes.getLsbD l = true → (c.guardMask h).getLsbD l = false → (u.wave c.ref).stands l (ptrAdd c.g.pc 8)) ∧
      (c.blk.bars = [] → c.wv.alive &&& ~~~c.guardMask h = 0 → c.wv.retired = false →
        (u.wave c.ref).groups = [] ∧ (u.wave c.ref).retired = true ∧ (u.wave c.ref).buf = [] ∧ SameMemory s u ∧
        ((c.wv.buf.map (·.line)).Nodup → ∃ b, u.block? c.ref.lid c.ref.rank = some b ∧ ∀ line i, i < 64 →
          bufByte b.buf line i = (bufByte c.wv.buf line i).or (bufByte c.blk.buf line i))) ∧
      (let left (k : BarState) : BarState := (lanesOf (c.guardMask h)).foldl (fun k l => k.exit (threadBit c.ref.wave l)) k
       (c.blk.bars.map (·.sym)).Nodup → (∀ k ∈ c.blk.bars, (left k).a = (left k).e → k.lastSite = none) →
        (u.block? c.ref.lid c.ref.rank).map (·.bars) = some (c.blk.bars.map fun k =>
          if (left k).a = (left k).e ∧ (left k).e ≠ 0 then
            { left k with p := k.p + 1, e := k.e - (left k).q, a := 0, q := 0, arrived := 0 }
          else left k))) ∧
  (∀ (b : BarState) (t : ThreadSet),
    b.exit t =
      if b.dropped &&& t ≠ 0 then b
      else if b.arrived &&& t ≠ 0 then { b with q := b.q + 1, dropped := b.dropped ||| t }
      else { b with a := b.a + 1, q := b.q + 1, dropped := b.dropped ||| t })

/-- TRAP and BKPT take a trap of their class with the instruction address, the active lanes, and IMM32 in INFO. Where some
lane's guard is true, exec answers a next state. If the context delivers the class and its deck pool has room for the window,
the wave is in its handler: its frame holds class, INFO, the PC of the instruction, its bytes, its lanes and the interrupted
registers and groups; the trapping lanes run at HENTRY with fresh registers and no meeting register; and (where no tenant tracks
its pages) the window's first 4 KiB in memory hold the frame page, every other byte as before: sr.trapc, sr.trappc, the
instruction, the mask, the handler's fstat and the interrupted one at their places, and zeros. Otherwise the wave stands still
with the trap to be taken up and memory is as before. Registers and every other wave are as before in both cases. (R216; R306;
R309; R310; R307; R311) -/
def Obligations.TrapAndBkptTakeTheirTrap : Prop :=
  ∀ s h c,
    (∀ imm, CanIssue s c h { len := 12 } →
      Traps s (.trap h imm) c s (laneTrap tTrap 0 (imm.setWidth 64) (c.guardMask h))) ∧
    (CanIssue s c h { len := 8 } → Traps s (.bkpt h) c s (laneTrap tBkpt 0 0 (c.guardMask h))) ∧
    (∀ (x : Cx) (t : TrapInfo), s.cx? = some x →
      let u := (x.takeTrap t).close
      let r : TrapRec := { info := t, pc := x.g.pc, inst := x.sel.inst, mask := x.g.lanes }
      SameBlocks s u x.ref ∧ u.cores = s.cores ∧ u.launches = s.launches ∧
      (x.delivers t.cls = false →
        u.wave x.ref = { x.wv with trap := some r, wait := some .traps } ∧ u.ctxs = s.ctxs ∧ SameMemory s u) ∧
      (x.delivers t.cls = true → ∀ a v, s.takePool x.ctx.tenant x.ctx.num (windowSize x.ctx.hnv) = some (a, v) →
        (u.wave x.ref).groups = [{ lanes := x.g.lanes, pc := x.ctx.hentry, last := 0 }] ∧
        (∀ l, (u.wave x.ref).mrOf l = mrNone) ∧ (u.wave x.ref).held = 0 ∧
        u.regs x.ref = RegCtx.fresh x.ctx.hnv [x.lch.hdr.args] ∧
        (let f : Frame := { trap := r, regs := x.wv.regs, groups := x.wv.groups.filter fun g => g.lanes &&& x.g.lanes == 0,
                            held := x.wv.held, mr := x.wv.mr, window := a }
         (u.wave x.ref).frame = some f ∧ u.hostMem = s.hostMem ∧ u.peerMem = s.peerMem ∧
          (memWf s.mem = true → (∀ t ∈ s.tenants, t.track = none) → ∀ y, memRead u.mem y =
            if a ≤ y ∧ y < a + 4096 then (framePage f (RegCtx.fresh x.ctx.hnv [x.lch.hdr.args])).getD (y - a) 0
            else memRead s.mem y))) ∧
      (x.delivers t.cls = true → s.takePool x.ctx.tenant x.ctx.num (windowSize x.ctx.hnv) = none →
        u.wave x.ref = { x.wv with trap := some r, wait := some .room } ∧ SameMemory s u)) ∧
    (∀ (f : Frame) (r : RegCtx) i, (framePage f r).length = 4096 ∧ (framePage f r).getD i 0 =
      if i < 8 then BitVec.ofNat 8 (f.trap.info.trapc.toNat / 2 ^ (8 * i))
      else if i < 0x10 then BitVec.ofNat 8 (f.trap.pc.toNat / 2 ^ (8 * (i - 8)))
      else if i < 0x20 then BitVec.ofNat 8 (f.trap.inst / 2 ^ (8 * (i - 0x10)))
      else if i < 0x30 then BitVec.ofNat 8 (f.trap.mask.toNat / 2 ^ (8 * (i - 0x20)))
      else if i < 0x34 then BitVec.ofNat 8 (r.fstat.toNat / 2 ^ (8 * (i - 0x30)))
      else if i < 0x38 then BitVec.ofNat 8 (f.regs.fstat.toNat / 2 ^ (8 * (i - 0x34)))
      else 0)

namespace Sys2Proof.Machine

/-- SHFL is 12 bytes long with an immediate, else 8 (R218). -/
def shflInfo (d a : BitVec 12) (b : VSI) : Info :=
  { len := (match b with
      | .i _ => 12
      | _ => 8)
    ops := rdRaw a false :: (vsiOpds false b ++ [wrV d false])
    lastA := regsOf a false
    lastB := vsiLast false b }

end Sys2Proof.Machine

/-- SHFL, LRED, VOTE, BALLOT and PSET complete with the results of R218 to R222 over the issuing group only. SHFL copies with
its tag the value of lane c mod W, l XOR (c mod W) or (l + c) mod W where that lane is in the group, else the lane's own; LRED
gives every active lane the log-step reduction in which inactive lanes stand for the identity; VOTE writes any, all or uniform
over the active lanes; BALLOT writes 128 bits, bit l set exactly when lane l is active with a true source; PSET combines two
predicates. Frame of a register instruction. (R217; R218; R219; R220; R221; R222; R108) -/
def Obligations.LaneOperationResults : Prop :=
  ∀ s h,
    (∀ m d a b, Gives s (.shfl h m d a b) h (shflInfo d a b) fun c _ =>
      .tagged d false fun l =>
        let k := (c.vsi b false (·.setWidth 64) l).setWidth 32
        let src := match m with
          | .idx => k.toNat % 128
          | .xor => l ^^^ (k.toNat % 128)
          | .rel => (((l : Int) + k.toInt) % 128).toNat
        (c.rv.lane a.toNat (if c.g.lanes.getLsbD src then src else l), none)) ∧
    (∀ op t md d a, Gives s (.lred h op t md d a) h
        { len := 12, ops := [rdV a (RedTy.width t == 64), wrV d (RedTy.width t == 64)], lastA := regsOf a (RedTy.width t == 64) }
        fun c act =>
      let first := (List.range 128).map fun l =>
        if act.getLsbD l then (c.vec a (RedTy.width t == 64) l).toNat % 2 ^ RedTy.width t else redIdentity op t
      let r := redSteps op t md [1, 2, 4, 8, 16, 32, 64] (first, 0)
      .dst (.v d (RedTy.width t == 64)) act (fun l => match t with
        | .int t => t.result (r.1.getD l 0 : Nat)
        | .flt _ => BitVec.ofNat 64 (r.1.getD l 0)) r.2) ∧
    (∀ m pd neg ps, Gives s (.vote h m pd neg ps) h { len := 8, ops := [rdP ps, wrP pd] } fun c act =>
      .predicate c.wv.regs pd false act fun _ =>
        let on (l : Nat) : Bool := (c.rv.pred ps.toNat).getLsbD l != neg
        let any := (List.range 128).any fun l => act.getLsbD l && on l
        let all := (List.range 128).all fun l => !act.getLsbD l || on l
        match m with
        | .any => any
        | .all => all
        | .uni => all || !any) ∧
    (∀ d neg ps, Gives s (.ballot h d neg ps) h { len := 8, ops := [rdP ps, wrS d 2], badReg := d == 255 } fun c act =>
      let m := maskOf fun l => act.getLsbD l && ((c.rv.pred ps.toNat).getLsbD l != neg)
      { scalar := fun n => if n = d.toNat + 1 then some (m.extractLsb' 64 64) else if n = d.toNat then some (m.extractLsb' 0 64) else none }) ∧
    (∀ op pd na pa nb pb, Gives s (.pset h op pd na pa nb pb) h { len := 8, lat := 3, ops := [rdP pa, rdP pb, wrP pd] } fun c act =>
      .predicate c.wv.regs pd false act fun l =>
        let x := (c.rv.pred pa.toNat).getLsbD l != na
        let y := (c.rv.pred pb.toNat).getLsbD l != nb
        match op with
        | .and => x && y
        | .or => x || y
        | .xor => x != y)

namespace Sys2Proof.Machine

/-! ### Floating point and phasors (spec/13) -/

/-- One element of 16 or 32 bits under its own rounding and flags, or both 16-bit halves under .x2 (spec/05 R98). -/
def eachElement (x2 : Bool) (op : Nat → Nat × Flags) : DWord × Flags :=
  if x2 then (BitVec.ofNat 64 ((op 0).1 + 2 ^ 16 * (op 1).1), (op 0).2 ||| (op 1).2)
  else (BitVec.ofNat 64 (op 0).1, (op 0).2)

/-- Element e of a source: the low 32 or 16 bits, or the upper half. -/
def element (f : FTy) (e : Nat) (x : DWord) : Nat := if e = 0 then x.toNat % 2 ^ ftyWidth f else x.toNat / 2 ^ 16 % 2 ^ 16

/-- A two-source float instruction: `op` of the exact values gives a value with flags, which is rounded, flushed and flagged; a
signalling NaN sets NV (R226). -/
def FloatTwo (s : State) (k : Instr) (h : Hdr) (f : FTy) (x2 : Bool) (o : Ops2) (op : Nat → Nat → Nat × Flags) : Prop :=
  Gives s k h (Ops2.info o 4 false false false) fun c act =>
    .flt (Ops2.dst o false) act fun l =>
      eachElement x2 fun e => op (element f e (Ops2.a o c false l)) (element f e (Ops2.b o c false (·.setWidth 64) l))

/-- R226 on two codes: the exact operation, one rounding, the flush, and the flags of each. -/
def computed (f : FTy) (md : Rm) (fz : Bool) (op : FVal → FVal → FVal × Flags) (a b : Nat) : Nat × Flags :=
  let x := (fmtOf f).value a
  let y := (fmtOf f).value b
  let r := (fmtOf f).flush fz ((fmtOf f).rnd md (op x y).1)
  (r.1, r.2 ||| (op x y).2 ||| if x.isSnan || y.isSnan then fNV else 0)

/-- minimumNumber or maximumNumber on codes (R228): a number wins over a NaN, -0 lies below +0, and only a signalling NaN flags. -/
def extremum (f : FTy) (most : Bool) (a b : Nat) : Nat × Flags :=
  let x := (fmtOf f).value a
  let y := (fmtOf f).value b
  (if x.isNan && y.isNan then (fmtOf f).nanCode else if x.isNan then b else if y.isNan then a
   else if (x.lt y || (!y.lt x && x.isNeg && !y.isNeg)) != most then a else b,
   if x.isSnan || y.isSnan then fNV else 0)

end Sys2Proof.Machine

/-- FADD, FSUB, FMUL, FFMA, FMIN and FMAX complete with the results and flags of R226 to R228, element by element. Each element
is computed exactly, rounded once in its mode, flushed under .fz, and its flags join those of the other elements and active
lanes in fstat (a uniform form: its one result). Inf - Inf and 0 x Inf give NaN with NV, a signalling NaN sets NV. FMIN and FMAX
take the other operand of a single NaN and order -0 below +0. Every other register, flag and byte of memory is as before. (R223;
R226; R227; R228; R108; R98) -/
def Obligations.FloatArithmeticResults : Prop :=
  ∀ s h f md fz x2,
    (∀ o, FloatTwo s (.fadd h f md fz x2 o) h f x2 o (computed f md fz fun x y => x.add md y)) ∧
    (∀ o, FloatTwo s (.fsub h f md fz x2 o) h f x2 o (computed f md fz fun x y => x.add md y.neg)) ∧
    (∀ o, FloatTwo s (.fmul h f md fz x2 o) h f x2 o (computed f md fz fun x y => x.mul y)) ∧
    (∀ o, FloatTwo s (.fmin h f x2 o) h f x2 o (extremum f false)) ∧
    (∀ o, FloatTwo s (.fmax h f x2 o) h f x2 o (extremum f true)) ∧
    (∀ o, Gives s (.ffma h f md fz x2 o) h (Ops3.info o 4 false false) fun c act =>
      .flt (Ops3.dst o false) act fun l => eachElement x2 fun e =>
        let v (x : DWord) : FVal := (fmtOf f).value (element f e x)
        let a := v (Ops3.a o c false l)
        let b := v (Ops3.b o c false l)
        let d := v (Ops3.c o c false (·.setWidth 64) l)
        let p := a.mul b
        let x := p.1.add md d
        let r := (fmtOf f).flush fz ((fmtOf f).rnd md x.1)
        (r.1, r.2 ||| p.2 ||| x.2 ||| if a.isSnan || b.isSnan || d.isSnan then fNV else 0))

/-- FCMP and FSEL complete with the results of R229 and R230. FCMP writes its predicate (form U: all lanes) where the condition
holds of the two values, unordered being true for .ne and .un only; it raises NV on a signalling NaN, and on any NaN under .lt,
.le, .gt and .ge. FSEL copies bits and unwritten tags of the chosen source, 16-bit types their low half with zero above, and
raises nothing. A write to p7 is discarded. (R229; R230; R197; R108) -/
def Obligations.FloatCompareAndSelectResults : Prop :=
  ∀ s h f,
    (∀ cc pd o, Gives s (.fcmp h cc f pd o) h (OpsC.info o 4 false pd) fun c act =>
      let x (l : Nat) : FVal := (fmtOf f).value (element f 0 (OpsC.a o c false l))
      let y (l : Nat) : FVal := (fmtOf f).value (element f 0 (OpsC.b o c false (·.setWidth 64) l))
      let un (l : Nat) : Bool := (x l).isNan || (y l).isNan
      let fl (l : Nat) : Flags :=
        if (x l).isSnan || (y l).isSnan || (un l && (cc == .lt || cc == .le || cc == .gt || cc == .ge)) then fNV else 0
      .predicate c.wv.regs pd (OpsC.uni o) act (fun l => match cc with
        | .eq => !un l && !(x l).lt (y l) && !(y l).lt (x l)
        | .ne => un l || (x l).lt (y l) || (y l).lt (x l)
        | .lt => !un l && (x l).lt (y l)
        | .le => !un l && !(y l).lt (x l)
        | .gt => !un l && (y l).lt (x l)
        | .ge => !un l && !(x l).lt (y l)
        | .un => un l) (if OpsC.uni o then fl (lowestLane act) else laneFlags act fl)) ∧
    (∀ neg p d a b, Gives s (.fsel h f neg p (.vec d a b)) h (OpsSel.info (.vec d a b) 4 false p) fun c _ =>
      .tagged d false fun l =>
        (((if (c.rv.pred p.toNat).getLsbD l != neg then c.selected a l else c.selected b l).1).map fun x =>
          if ftyWidth f = 32 then x else (x.setWidth 16).setWidth 32, none)) ∧
    (∀ neg p d a b, Gives s (.fsel h f neg p (.uni d a b)) h (OpsSel.info (.uni d a b) 4 false p) fun c act =>
      .dst (.s d) act fun l =>
        let x := if (c.rv.pred p.toNat).getLsbD l != neg then c.scl a l else c.scl b l
        if ftyWidth f = 32 then (x.setWidth 32).setWidth 64 else (x.setWidth 16).setWidth 64)

namespace Sys2Proof.Machine

/-- A unary float instruction, element by element. -/
def FloatOne (s : State) (k : Instr) (h : Hdr) (f : FTy) (lat : Nat) (x2 : Bool) (o : Ops1) (op : Nat → Nat × Flags) : Prop :=
  Gives s k h (Ops1.info o lat false false false) fun c act =>
    .flt (Ops1.dst o false) act fun l => eachElement x2 fun e => op (element f e (Ops1.a o c false l))

end Sys2Proof.Machine

/-- FRCP, FRSQ, FSQRT, FEXP2, FLOG2, FSIN, FCOS and FRND complete, element by element, with the functions of R232 and R233. Each
gives per element the function value that the model computes from the code alone (within one ulp the device may deliver either
neighbour: a free value, log 16), with its flags in fstat; FSQRT and FRND round in their mode; .fz changes nothing in FRND.
Frame of a register instruction. (R231; R232; R233; R108; R111) -/
def Obligations.FloatUnaryResults : Prop :=
  ∀ s h f x2 o,
    (∀ fz, FloatOne s (.frcp h f fz x2 o) h f 0 x2 o (ffun f .rcp fz)) ∧
    (∀ fz, FloatOne s (.frsq h f fz x2 o) h f 0 x2 o (ffun f .rsq fz)) ∧
    (∀ md fz, FloatOne s (.fsqrt h f md fz x2 o) h f 0 x2 o (fsqrt (fmtOf f) md fz)) ∧
    (∀ fz, FloatOne s (.fexp2 h f fz x2 o) h f 0 x2 o (ffun f .exp2 fz)) ∧
    (∀ fz, FloatOne s (.flog2 h f fz x2 o) h f 0 x2 o (ffun f .log2 fz)) ∧
    (∀ fz, FloatOne s (.fsin h f fz x2 o) h f 0 x2 o (ffun f .sin fz)) ∧
    (∀ fz, FloatOne s (.fcos h f fz x2 o) h f 0 x2 o (ffun f .cos fz)) ∧
    (∀ md fz, FloatOne s (.frnd h f md fz x2 o) h f 4 x2 o (frnd (fmtOf f) md))

/-- FRCP, FRSQ, FSQRT, FEXP2, FLOG2, FSIN and FCOS give the special results and flags of the table in R232, in every float type.
Zeros, infinities, NaNs and one: division by zero raises DZ, the square root of a negative number and the sine of an infinity
give the canonical NaN with NV, a quiet NaN the canonical NaN with no flag, a signalling NaN with NV. (R232; R106; R107) -/
def Obligations.FunctionsAtSpecialInputs : Prop :=
  ∀ f : FTy,
    let g := fmtOf f
    let pz := 0
    let nz := g.signed true 0
    let pi := g.infCode
    let ni := g.signed true g.infCode
    let nan := g.nanCode
    let one := (g.rnd .rn (.fin false 1 0 false)).1
    let two := (g.rnd .rn (.fin false 1 1 false)).1
    [pz, nz, pi, ni, one, nan, pi + 1].map (ffun f .rcp false) =
      [(pi, fDZ), (ni, fDZ), (pz, 0), (nz, 0), (one, 0), (nan, 0), (nan, fNV)] ∧
    [pz, nz, pi, ni, one, nan, pi + 1].map (ffun f .rsq false) =
      [(pi, fDZ), (ni, fDZ), (pz, 0), (nan, fNV), (one, 0), (nan, 0), (nan, fNV)] ∧
    [pz, nz, pi, ni, one, nan, pi + 1, g.signed true one].map (fsqrt g .rn false) =
      [(pz, 0), (nz, 0), (pi, 0), (nan, fNV), (one, 0), (nan, 0), (nan, fNV), (nan, fNV)] ∧
    [pz, nz, pi, ni, one, nan, pi + 1].map (ffun f .exp2 false) =
      [(one, 0), (one, 0), (pi, 0), (pz, 0), (two, 0), (nan, 0), (nan, fNV)] ∧
    [pz, nz, pi, ni, one, nan, pi + 1, g.signed true one].map (ffun f .log2 false) =
      [(ni, fDZ), (ni, fDZ), (pi, 0), (nan, fNV), (pz, 0), (nan, 0), (nan, fNV), (nan, fNV)] ∧
    [pz, nz, pi, ni, nan, pi + 1].map (ffun f .sin false) = [(pz, 0), (nz, 0), (nan, fNV), (nan, fNV), (nan, 0), (nan, fNV)] ∧
    [pz, nz, pi, ni, nan, pi + 1].map (ffun f .cos false) = [(one, 0), (one, 0), (nan, fNV), (nan, fNV), (nan, 0), (nan, fNV)]

/-- CVTF, CVTFI, CVTIF, NPACK and NUNPK complete with the results of R235 and R237. CVTF rounds the exact value to the
destination format in its mode, with NV for a signalling NaN; CVTFI rounds to an integer and clamps it with NV, a NaN giving 0
with NV; CVTIF rounds an exact integer; NPACK replaces the field at pos by the code of the scaled value and keeps the other
bits; NUNPK gives the scaled value of the field. Scale code 0x80 gives NaN with NSC. Frame of a register instruction. (R234;
R235; R236; R237; R108) -/
def Obligations.ConversionResults : Prop :=
  ∀ s h,
    (∀ fd fs md fz o, Gives s (.cvtf h fd fs md fz o) h (OpsCv.info o false false) fun c act =>
      .flt (OpsCv.dst o false) act fun l =>
        let x := (fmtOf fs).value (element fs 0 (OpsCv.a o c false l))
        let r := (fmtOf fd).flush fz ((fmtOf fd).rnd md x)
        (BitVec.ofNat 64 r.1, r.2 ||| if x.isSnan then fNV else 0)) ∧
    (∀ t fs md o, Gives s (.cvtfi h t fs md o) h (OpsCv.info o false t.is64) fun c act =>
      .flt (OpsCv.dst o t.is64) act fun l =>
        match (fmtOf fs).value (element fs 0 (OpsCv.a o c false l)) with
        | .nan _ => (t.result 0, fNV)
        | .inf neg => (t.result (if neg then t.least else t.greatest), fNV)
        | .fin neg m e st =>
          let n := (roundAt md neg m e st 0).1
          let x : Int := if neg then -n else n
          if x < t.least ∨ t.greatest < x then (t.result (max t.least (min t.greatest x)), fNV)
          else (t.result x, if (roundAt md neg m e st 0).2 then fNX else 0)) ∧
    (∀ fd t md o, Gives s (.cvtif h fd t md o) h (OpsCv.info o t.is64 false) fun c act =>
      .flt (OpsCv.dst o false) act fun l =>
        let x := t.read (OpsCv.a o c t.is64 l)
        let r := (fmtOf fd).rnd md (.fin (decide (x < 0)) x.natAbs 0 false)
        (BitVec.ofNat 64 r.1, r.2)) ∧
    (∀ md fz d a hn pos sc, Gives s (.npack h md fz d a hn pos sc) h
        { len := 16, ops := rdV a false :: (scaleOpds sc ++ [{ rdRaw d false with wr := true }]), lastA := regsOf a false,
          handle := narrowHandle hn } fun c act =>
      let f := entFloat (c.ctx.entry hn.toNat)
      .flt (.v d false) act fun l =>
        let k := npackCode f md fz (c.sigma sc l) (c.vec a false l).toNat
        (BitVec.ofNat 64 (setField ((c.rv.lane d.toNat l).getD 0).toNat pos.toNat f.width k.1), k.2)) ∧
    (∀ old pos w code i, (setField old pos w code).testBit i =
      (decide (i < 32) && if pos ≤ i ∧ i < pos + w then code.testBit (i - pos) else old.testBit i)) ∧
    (∀ d a hn pos sc, Gives s (.nunpk h d a hn pos sc) h
        { len := 16, ops := rdV a false :: (scaleOpds sc ++ [wrV d false]), lastA := regsOf a false,
          handle := narrowHandle hn } fun c act =>
      let f := entFloat (c.ctx.entry hn.toNat)
      .flt (.v d false) act fun l =>
        let code := (c.vec a false l).toNat / 2 ^ pos.toNat % 2 ^ f.width
        let r := if c.sigma sc l = -128 then (Fmt.f32.nanCode, fNSC) else Fmt.f32.rnd .rn ((f.value code).scale (c.sigma sc l))
        (BitVec.ofNat 64 r.1, r.2))

namespace Sys2Proof.Machine

/-- A vector phasor instruction with a result and flags. -/
def PhasorFlags (s : State) (k : Instr) (h : Hdr) (len : Nat) (d : BitVec 12) (wide : Bool) (a : BitVec 12) (v : Nat → DWord × Flags) : Prop :=
  Gives s k h { len := len, ops := [rdV a false, wrV d wide], lastA := regsOf a false } fun c act =>
    .flt (.v d wide) act fun l => v (c.vec a false l).toNat

/-- The sums of unit vectors over the active lanes (spec/06 R120, R122). -/
def resultantOf (p : PTy) (codes : List Nat) : Int × Int × Nat :=
  codes.foldl (fun t x =>
    if x % 2 ^ p.bits < 2 ^ (p.bits - 1) then
      (t.1 + (ptab (tableIndex p.bits x)).1, t.2.1 + (ptab (tableIndex p.bits x)).2, t.2.2 + 1)
    else t) (0, 0, 0)

end Sys2Proof.Machine

/-- PMUL, PPOW, PCONJ, PCMP, PDEF, PCVT and PRED complete with the results of R115 to R122. Angles add, multiply and negate
modulo the circle; an undefined operand gives the canonical undefined code; PCMP writes its predicate by the outcome of R116;
PCVT widens exactly and narrows to nearest with NX; PRED reduces the active lanes' unit vectors to an angle and a coherence.
Under .x2 both P16 halves are computed. Frame of a register instruction. (R238; R239; R240; R115; R116; R117; R122) -/
def Obligations.PhasorResults : Prop :=
  ∀ s h p,
    let defd (x : Nat) : Prop := x % 2 ^ p.bits < 2 ^ (p.bits - 1)
    let und : Nat := 2 ^ (p.bits - 1)
    let turn (x : Int) : Nat := (x % (2 ^ (p.bits - 1) : Int)).toNat
    let pair (x2 : Bool) (op : Nat → Nat → Nat) (a b : DWord) : DWord :=
      if x2 then BitVec.ofNat 64 (op (a.toNat % 2 ^ p.bits) (b.toNat % 2 ^ p.bits) +
        2 ^ 16 * op (a.toNat / 2 ^ 16 % 2 ^ 16) (b.toNat / 2 ^ 16 % 2 ^ 16))
      else BitVec.ofNat 64 (op (a.toNat % 2 ^ p.bits) (b.toNat % 2 ^ p.bits))
    (∀ x2 o, Gives s (.pmul h p x2 o) h (Ops2.info o 3 false false false) fun c act =>
      .dst (Ops2.dst o false) act fun l =>
        pair x2 (fun a b => if defd a ∧ defd b then turn (a + b) else und) (Ops2.a o c false l) (Ops2.b o c false (·.setWidth 64) l)) ∧
    (∀ x2 o, Gives s (.ppow h p x2 o) h (Ops2.info o 3 false false false) fun c act =>
      .dst (Ops2.dst o false) act fun l =>
        let k := ((Ops2.b o c false (·.setWidth 64) l).setWidth 32).toInt
        pair x2 (fun a _ => if defd a then turn (k * a) else und) (Ops2.a o c false l) 0) ∧
    (∀ x2 d a, Gives s (.pconj h p x2 d a) h { len := 8, lat := 3, ops := [rdV a false, wrV d false], lastA := regsOf a false } fun c act =>
      .dst (.v d false) act fun l => pair x2 (fun a _ => if defd a then turn (-a) else und) (c.vec a false l) 0) ∧
    (∀ cc pd o, Gives s (.pcmp h p cc pd o) h (OpsC.info o 3 false pd) fun c act =>
      .predicate c.wv.regs pd (OpsC.uni o) act fun l =>
        let a := (OpsC.a o c false l).toNat
        let b := (OpsC.b o c false (·.setWidth 64) l).toNat
        let d := turn ((b : Int) - a)
        let half : Nat := 2 ^ (p.bits - 2)
        let ok := decide (defd a) && decide (defd b)
        match cc with
        | .und => !ok
        | .eq => ok && d == 0
        | .lead => ok && d != 0 && decide (d < half)
        | .opp => ok && d == half
        | .lag => ok && decide (half < d)
        | .ne => ok && d != 0 && d != half) ∧
    (∀ pd a, Gives s (.pdef h p pd a) h { len := 8, lat := 3, ops := [rdV a false, wrP pd], lastA := regsOf a false } fun c act =>
      .predicate c.wv.regs pd false act fun l => decide (defd (c.vec a false l).toNat)) ∧
    (∀ pm d a, Gives s (.pcvt h pm p d a) h { len := 8, lat := 3, ops := [rdV a false, wrV d false], lastA := regsOf a false } fun c act =>
      .flt (.v d false) act fun l =>
        let x := (c.vec a false l).toNat
        if ¬ defd x then (BitVec.ofNat 64 (2 ^ (pm.bits - 1)), 0)
        else if p.bits ≤ pm.bits then (BitVec.ofNat 64 (x % 2 ^ (p.bits - 1) * 2 ^ (pm.bits - p.bits)), 0)
        else
          let k := p.bits - pm.bits
          let y := x % 2 ^ (p.bits - 1)
          let up := decide (2 ^ k < 2 * (y % 2 ^ k)) || (2 * (y % 2 ^ k) == 2 ^ k && y / 2 ^ k % 2 == 1)
          (BitVec.ofNat 64 ((if up then y / 2 ^ k + 1 else y / 2 ^ k) % 2 ^ (pm.bits - 1)), if y % 2 ^ k = 0 then 0 else fNX)) ∧
    (∀ d a, Gives s (.pred h p d a) h { len := 8, ops := [rdV a false, wrV d true], lastA := regsOf a false } fun c act =>
      let t := resultantOf p ((lanesOf act).map fun l => (c.vec a false l).toNat)
      let r := resultant p.bits t.1 t.2.1 t.2.2
      .dst (.v d true) act fun _ => BitVec.ofNat 64 (r.1 + 2 ^ 32 * r.2))

/-- PTOF, PCOS, PSIN, PVEC, PFROMF and PATAN complete with the results of R118 and R119. An undefined code gives the canonical
NaN with no flag; otherwise the angle, its cosine, its sine, or both, rounded to the float type (from P32 either neighbour: a
free value, log 16). PFROMF and PATAN give the nearest angle code, undefined for a NaN, for an infinity in PFROMF and for two
zeros in PATAN. Frame of a register instruction, with the flags in fstat. (R241; R242; R118; R119; R108) -/
def Obligations.PhasorFloatResults : Prop :=
  ∀ s h p f d a,
    let undef (x : Nat) : Prop := 2 ^ (p.bits - 1) ≤ x % 2 ^ p.bits
    (∀ md fz, PhasorFlags s (.ptof h md fz f p d a) h 12 d false a fun x =>
      if undef x then (BitVec.ofNat 64 (fmtOf f).nanCode, 0)
      else (BitVec.ofNat 64 (phasorFloat f p 0 md fz radOf x).1, (phasorFloat f p 0 md fz radOf x).2)) ∧
    (∀ md fz, PhasorFlags s (.pcos h md fz f p d a) h 12 d false a fun x =>
      if undef x then (BitVec.ofNat 64 (fmtOf f).nanCode, 0)
      else (BitVec.ofNat 64 (phasorFloat f p 1 md fz cosOf x).1, (phasorFloat f p 1 md fz cosOf x).2)) ∧
    (∀ md fz, PhasorFlags s (.psin h md fz f p d a) h 12 d false a fun x =>
      if undef x then (BitVec.ofNat 64 (fmtOf f).nanCode, 0)
      else (BitVec.ofNat 64 (phasorFloat f p 2 md fz sinOf x).1, (phasorFloat f p 2 md fz sinOf x).2)) ∧
    (∀ md fz, PhasorFlags s (.pvec h md fz f p d a) h 12 d true a fun x =>
      if undef x then (BitVec.ofNat 64 ((fmtOf f).nanCode + 2 ^ 32 * (fmtOf f).nanCode), 0)
      else (BitVec.ofNat 64 ((phasorFloat f p 3 md fz cosOf x).1 + 2 ^ 32 * (phasorFloat f p 4 md fz sinOf x).1),
        (phasorFloat f p 3 md fz cosOf x).2 ||| (phasorFloat f p 4 md fz sinOf x).2)) ∧
    PhasorFlags s (.pfromf h p f d a) h 12 d false a (fun x =>
      match (fmtOf f).value (x % 2 ^ ftyWidth f) with
      | .nan q => (BitVec.ofNat 64 (2 ^ (p.bits - 1)), if q then fNV else 0)
      | .inf _ => (BitVec.ofNat 64 (2 ^ (p.bits - 1)), fNV)
      | v => if v.isZero then (0, 0) else (BitVec.ofNat 64 (pfromf p.bits v).1, fNX)) ∧
    (∀ x, Gives s (.patan h p f d a x) h
        { len := 12, ops := [rdV a false, rdV x false, wrV d false], lastA := regsOf a false, lastB := regsOf x false } fun c act =>
      .flt (.v d false) act fun l =>
        let vy := (fmtOf f).value ((c.vec a false l).toNat % 2 ^ ftyWidth f)
        let vx := (fmtOf f).value ((c.vec x false l).toNat % 2 ^ ftyWidth f)
        if vy.isNan ∨ vx.isNan then (BitVec.ofNat 64 (2 ^ (p.bits - 1)), if vy.isSnan || vx.isSnan then fNV else 0)
        else if vy.isZero ∧ vx.isZero then (BitVec.ofNat 64 (2 ^ (p.bits - 1)), 0)
        else (BitVec.ofNat 64 (patan p.bits vy vx).1, (patan p.bits vy vx).2))

namespace Sys2Proof.Machine

/-! ### Memory accesses (spec/14) -/

/-- A number from n bytes, the lowest first (spec/00 R3). -/
def bytesLe (n : Nat) (f : Nat → Byte) : Nat := (List.range n).foldr (fun i acc => (f i).toNat + 256 * acc) 0

/-- The nearest buffered value of a byte, from the wave's buffer on (R143). -/
def Cx.nearest (c : Cx) (line i : Nat) : Option Byte :=
  (bufByte c.wv.buf line i).or ((bufByte c.blk.buf line i).or (c.gang?.bind fun g => bufByte g.buf line i))

/-- The value of a byte at D: memory for a local line, the copy in L2 for a forwarded one (R27, R41). -/
def Cx.atD (c : Cx) (line i : Nat) : Byte :=
  match c.s.l2? c.ctx.tenant c.ctx.asid line with
  | some l => if l.owner = .loc then memRead c.s.mem (l.addr + i) else byteOf l.data i
  | none => 0

/-- An element as the wave sees it: each byte at its nearest level. -/
def Cx.elemSeen (c : Cx) (p : DWord) (n : Nat) : Nat :=
  bytesLe n fun i => (c.nearest (lineNo p) (lineOff p + i)).getD (c.atD (lineNo p) (lineOff p + i))

/-- A line that can be read at once: it has passed its checks for RD (R19), it is neither poisoned nor at odds with its check value (R38,
R39), and a copy of it in the core's L1 is no older than D. -/
def Cx.readable (c : Cx) (line : Nat) : Prop :=
  ∃ l, c.s.l2? c.ctx.tenant c.ctx.asid line = some l ∧ l.rd = true ∧
    (if l.owner = .loc then c.s.poisoned l.addr = false ∧ c.s.mismatch l.addr = false
     else l.poisoned = false ∧ l.check = lineCheck l.data) ∧
    ∀ x ∈ (c.s.core c.core).l1, x.tenant = c.ctx.tenant → x.asid = c.ctx.asid → x.line = line →
      ∀ i, i < 64 → byteOf x.data i = c.atD line i

/-- No double word of the core's clean L1 lines or of the buffers that the wave reads has an uncorrectable error (R54), and no buffered
byte is poisoned, in place (R73) or in its shadow log (R319). -/
def Cx.sound (c : Cx) : Prop :=
  (∀ y ∈ (c.s.core c.core).l1, y.bad = 0) ∧
  ∀ b ∈ [c.wv.buf, c.blk.buf, c.gang?.elim [] (·.buf)], ∀ y ∈ b,
    y.bad = 0 ∧ y.poison = false ∧ (y.log = none ∨ y.saved = true ∨ c.s.anyPoison = false)

/-- The column cache of the core's cluster holds no deck line to be written back when a near copy takes its way (R43). -/
def Cx.columnFree (c : Cx) : Prop := ∀ x ∈ c.s.deckLines, x.cluster = clusterOf c.core → x.dirty = false

/-- An element that a load can read at once: it is aligned, and its bytes are buffered or its line is readable. -/
def Cx.loadable (c : Cx) (p : DWord) (n : Nat) : Prop :=
  p.toNat % n = 0 ∧ ((∀ i, i < n → (c.nearest (lineNo p) (lineOff p + i)).isSome = true) ∨ c.readable (lineNo p))

def ldVecInfo (t : ETy) (d : BitVec 12) (a : Addr) : Info :=
  { len := 12, ops := a.opds ++ [wrV d t.wide], lastA := vsLast true a.base, lastB := a.offLast }

def ldUniInfo (a : Addr) (d : BitVec 8) : Info := { len := 12, uni := true, ops := a.opds ++ [wrS d 1] }

def ldUniAddr (base : BitVec 8) (off : Option (BitVec 8)) (sh : BitVec 2) (disp : BitVec 24) : Addr :=
  { base := .s base, off := off.elim .none .s, sh := sh, disp := disp }

def ldbInfo (t : ETy) (d : BitVec 12) (off : VS) (queue : Bool) (sym : BitVec 8) : Info :=
  { len := 16, ops := [vsOpd false false off, wrV d t.wide], lastA := vsLast false off,
    syms := [(if queue then kQueue else kBuffer, sym.toNat, 0, 0)] }

/-- An element of a scratch symbol: aligned, inside the symbol's segments. -/
def Cx.scInside (c : Cx) (queue : Bool) (sym : BitVec 8) (o : Int) (n : Nat) : Prop :=
  o % (n : Int) = 0 ∧ 0 ≤ o ∧ o + n ≤ 1024 * c.segCount queue sym.toNat

/-- The place of byte b of a symbol: its segment, and the offset in it under the symbol's swizzle (spec/02 R50). -/
def Cx.scPlace (c : Cx) (queue : Bool) (sym : BitVec 8) (b : Nat) : Nat × Nat :=
  (c.segAt queue sym.toNat + b / 1024, swz (tagSwz (c.symTag queue sym.toNat)) (b % 1024))

/-- A write into scratch, of another wave and not yet ordered, at the byte that a place names. -/
def Unsettled.at_ (y : Unsettled) (core : Nat) (p : Nat × Nat) : Prop :=
  y.scratch = true ∧ y.owner = .loc ∧ y.loc = pieceNo core p.1 (p.2 / 64) ∧ y.mask.getLsbD (p.2 % 64) = true

/-- A byte of a scratch segment. -/
def Core.scByte (k : Core) (p : Nat × Nat) : Byte := BitVec.ofNat 8 (natByte (k.seg p.1).data p.2)

end Sys2Proof.Machine

/-- LD and LDB complete with the element each lane names, extended as its type says. LD where no FENCE holds the wave and every
active lane's element is aligned and its bytes are buffered or its line readable, with no error in the core's SRAM and no dirty
deck line in its column: exec answers a next state, the destination holds per active lane (uniform: once) the element made of
each byte's nearest value (wave, block, gang, D), extended by its type; memory, buffers and every other register are as before
and beside registers only the caches' clean copies and free values change. LDB inside its symbol and without an error: the bytes
under the symbol's swizzle, each the byte there or the one before another wave's STB that is not yet ordered. (R143; R244; R246;
R50; R243) -/
def Obligations.LoadResults : Prop :=
  ∀ s h t c, c.fenced 0 = false →
    (∀ d a, CanIssue s c h (ldVecInfo t d a) → c.sound → c.columnFree →
      (∀ l, l < 128 → (c.guardMask h).getLsbD l = true → c.loadable (c.addr a l) t.bytes) →
      ∃ v, CachesOnly (s.settlePath c.ref 0) v ∧
        Completes s (.ld h t (.vec d a)) c h (ldVecInfo t d a) { c with s := v }
          (.dst (.v d t.wide) (c.guardMask h) fun l => t.load (c.elemSeen (c.addr a l) t.bytes))) ∧
    (∀ d base off sh disp, let a := ldUniAddr base off sh disp
      CanIssue s c h (ldUniInfo a d) → c.sound → c.columnFree → c.loadable (c.addr a (lowestLane (c.guardMask h))) t.bytes →
      ∃ v, CachesOnly (s.settlePath c.ref 0) v ∧
        Completes s (.ld h t (.uni d base off sh disp)) c h (ldUniInfo a d) { c with s := v }
          (.dst (.s d) (c.guardMask h) fun l => t.load (c.elemSeen (c.addr a l) t.bytes))) ∧
    (∀ d off queue sym disp, CanIssue s c h (ldbInfo t d off queue sym) →
      (∀ l, l < 128 → (c.guardMask h).getLsbD l = true → c.scInside queue sym (c.scOff off disp l) t.bytes ∧
        ∀ i, i < t.bytes → (s.core c.core).badScratch.contains
          (let p := c.scPlace queue sym ((c.scOff off disp l).toNat + i); p.1 * 128 + p.2 / 8) = false) →
      ∃ (v : State) (val : Nat × Nat → Byte), v = { s.settlePath c.ref 0 with unsettled := v.unsettled, fresh := v.fresh } ∧
        (∀ p, p.2 < 1024 → val p = (s.core c.core).scByte p ∨
          ∃ y ∈ (s.settlePath c.ref 0).unsettled, y.hides 0 (some c.ref) = true ∧ y.at_ c.core p ∧ val p = byteOf y.old (p.2 % 64)) ∧
        Completes s (.ldb h t d off queue sym disp) c h (ldbInfo t d off queue sym) { c with s := v }
          (.dst (.v d t.wide) (c.guardMask h) fun l =>
            t.load (bytesLe t.bytes fun i => val (c.scPlace queue sym ((c.scOff off disp l).toNat + i)))))

namespace Sys2Proof.Machine

def stInfo (t : ETy) (a : Addr) (data : BitVec 12) : Info :=
  { len := 12, ops := a.opds ++ [rdRaw data t.wide], lastA := regsOf data t.wide, lastB := a.offLast }

def stbInfo (t : ETy) (off : VS) (queue : Bool) (sym : BitVec 8) (data : BitVec 12) : Info :=
  { len := 16, ops := [vsOpd false false off, rdRaw data t.wide], lastA := vsLast false off, lastB := regsOf data t.wide,
    syms := [(if queue then kQueue else kBuffer, sym.toNat, 0, 0)] }

/-- The byte that lanes store at a place, the highest lane's where several do (R245); `at_` tells which byte of its element, if any, a
lane stores there. -/
def lastStored (lanes : List Nat) (val : Nat → Nat) (at_ : Nat → Option Nat) : Option Byte :=
  lanes.foldl (fun b l => match at_ l with
    | some k => some (BitVec.ofNat 8 (val l / 2 ^ (8 * k)))
    | none => b) none

/-- Which byte of an n-byte element at p stands at byte i of a line. -/
def byteIn (p : DWord) (n line i : Nat) : Option Nat :=
  if lineNo p = line ∧ lineOff p ≤ i ∧ i < lineOff p + n then some (i - lineOff p) else none

def atomInfo (lvl : Level) (t : ETy) (d : BitVec 12) (base b : VS) (cmp : Option VS) : Info :=
  { len := 16
    ops := [vsOpd true false base, vsOpd t.wide false b] ++ (match cmp with
      | some x => [vsOpd t.wide false x]
      | none => []) ++ [wrV d t.wide]
    lastA := vsLast true base
    lastB := vsLast t.wide b
    lastC := cmp.elim [] (vsLast t.wide)
    level := some (lvl, true, false) }

def waitDisp : WaitSrc → Int
  | .reg _ disp => disp.toInt
  | .imm _ => 0

/-- Which byte of a lane's element stands at a place of scratch. -/
def Cx.scByteIn (c : Cx) (queue : Bool) (sym : BitVec 8) (o : Int) (n : Nat) (p : Nat × Nat) : Option Nat :=
  (List.range n).find? fun k => c.scPlace queue sym (o.toNat + k) == p

end Sys2Proof.Machine

/-- ST writes the wave buffer and nothing else, STB its symbol, the highest lane winning. ST with aligned elements on lines that
have passed their checks for W, and room for 128 lines in the shadow log, completes: each byte of the wave buffer is that of the
highest active lane storing there, or as before; memory is unchanged, and of everything else only clean copies in L1 and free
values. With all lanes in one new line and no place for it, it raises WBFULL. STB inside its symbol, on segments that no queued
matrix operation reads, completes: each byte of the core's scratch is the highest lane's or as before (where another wave's STB
there is not ordered before it, either value), and each segment's tag follows R51. (R245; R247; R141; R142; R51) -/
def Obligations.StoreResults : Prop :=
  ∀ s h t c,
    (∀ a data, CanIssue s c h (stInfo t a data) →
      (∀ l, l < 128 → (c.guardMask h).getLsbD l = true → (c.addr a l).toNat % t.bytes = 0 ∧
        ∃ x, s.l2? c.ctx.tenant c.ctx.asid (lineNo (c.addr a l)) = some x ∧ x.w = true) →
      (c.logged c.ref.wave + 128 ≤ 1024 →
        ∃ b v, CachesOnly s v ∧ v.l2 = s.l2 ∧ v.tlb = s.tlb ∧ v.deckLines = s.deckLines ∧
          Completes s (.st h t a data) c h (stInfo t a data) (Cx.setWv { c with s := v } { c.wv with buf := b }) {} ∧
          ∀ line i, i < 64 → bufByte b line i =
            (lastStored (lanesOf (c.guardMask h)) (fun l => (c.vec data t.wide l).toNat)
              fun l => byteIn (c.addr a l) t.bytes line i).or (bufByte c.wv.buf line i)) ∧
      (∀ line, (∀ l, l < 128 → (c.guardMask h).getLsbD l = true → lineNo (c.addr a l) = line) → bufFind c.wv.buf line = none →
        c.wavePlace line = none →
        Traps s (.st h t a data) c s (memTrap cWbFull (c.addr a (lowestLane (c.guardMask h))) 0 (c.guardMask h) 0xFFF))) ∧
    (∀ off queue sym disp data, CanIssue s c h (stbInfo t off queue sym data) → c.fenced 0 = false → c.core < s.cores.length →
      (∀ l, l < 128 → (c.guardMask h).getLsbD l = true → c.scInside queue sym (c.scOff off disp l) t.bytes ∧
        ∀ i, i < t.bytes → s.engineReads c.core (c.scPlace queue sym ((c.scOff off disp l).toNat + i)).1 = false) →
      let stored (p : Nat × Nat) : Option Byte :=
        lastStored (lanesOf (c.guardMask h)) (fun l => (c.vec data t.wide l).toNat) fun l => c.scByteIn queue sym (c.scOff off disp l) t.bytes p
      ∃ v, v = { s.settlePath c.ref 0 with cores := v.cores, unsettled := v.unsettled, stamp := v.stamp, fresh := v.fresh } ∧
        Completes s (.stb h t off queue sym disp data) c h (stbInfo t off queue sym data) { c with s := v } {} ∧
        (∀ n, n ≠ c.core → v.core n = s.core n) ∧
        v.core c.core = { s.core c.core with segs := (v.core c.core).segs, badScratch := (v.core c.core).badScratch } ∧
        (∀ p : Nat × Nat, p.2 < 1024 → (v.core c.core).scByte p = (stored p).getD ((s.core c.core).scByte p) ∨
          ((v.core c.core).scByte p = (s.core c.core).scByte p ∧
            ∃ y ∈ s.unsettled, y.races c.ref (pieceNo c.core p.1 (p.2 / 64)) = true ∧ y.mask.getLsbD (p.2 % 64) = true)) ∧
        (∀ g, ((v.core c.core).seg g).tag =
          if (List.range 1024).any fun o => (stored (g, o)).isSome then
            (if (List.range 1024).all fun o => (stored (g, o)).isSome then c.symTag queue sym.toNat
             else tagAfter ((s.core c.core).seg g).tag (c.symTag queue sym.toNat) false)
          else ((s.core c.core).seg g).tag))

/-- A misaligned element traps ALIGN in its lanes, and a scratch element outside its symbol MEMFAULT, with no other effect. LD
(vector and uniform), ST, ATOM and WAITV with an active lane whose pointer is no multiple of the element size trap ALIGN: the
lowest such lane's line in INFO, exactly those lanes in the mask. LDB and STB do so with its offset; where every lane is aligned
and some lies outside the symbol, they trap MEMFAULT with cause REGBOUND and the segment in INFO. Nothing else changes but that
writes a FENCE has ordered before the core's accesses count as settled. (R307; R244; R245; R246; R247; R250; R252; R306) -/
def Obligations.AccessTraps : Prop :=
  ∀ s h t c n, c.fenced 0 = false → n = ETy.bytes t →
    let v := s.settlePath c.ref 0
    let act := c.guardMask h
    let odd (ptr : Nat → DWord) (lanes : Mask) : Prop :=
      lanes ≠ 0 ∧ ∀ l, l < 128 → (lanes.getLsbD l = true ↔ act.getLsbD l = true ∧ (ptr l).toNat % n ≠ 0)
    (∀ d a lanes, CanIssue s c h (ldVecInfo t d a) → odd (c.addr a) lanes →
      Traps s (.ld h t (.vec d a)) c v (alignTrap (c.addr a (lowestLane lanes)) lanes)) ∧
    (∀ d base off sh disp, let a := ldUniAddr base off sh disp
      CanIssue s c h (ldUniInfo a d) → (c.addr a (lowestLane act)).toNat % n ≠ 0 →
      Traps s (.ld h t (.uni d base off sh disp)) c v (alignTrap (c.addr a (lowestLane act)) act)) ∧
    (∀ a data lanes, CanIssue s c h (stInfo t a data) → odd (c.addr a) lanes →
      Traps s (.st h t a data) c s (alignTrap (c.addr a (lowestLane lanes)) lanes)) ∧
    (∀ op lvl d base b cmp disp lanes, CanIssue s c h (atomInfo lvl t d base b cmp) → odd (c.based base disp.toInt) lanes →
      Traps s (.atom h op lvl t d base b cmp disp) c v (alignTrap (c.based base disp.toInt (lowestLane lanes)) lanes)) ∧
    (∀ ne lvl ty d base src lanes, t = .int ty → CanIssue s c h (waitvInfo ty lvl d base src) → odd (c.based base (waitDisp src)) lanes →
      Traps s (.waitv h ne lvl ty d base src) c v (alignTrap (c.based base (waitDisp src) (lowestLane lanes)) lanes)) ∧
    (∀ off queue sym disp d data lanes,
      let o := c.scOff off disp
      let sort := if queue then kQueue else kBuffer
      let where_ (t : TrapInfo) : TrapInfo :=
        { t with symKind := sort, sym := sym.toNat, offset := BitVec.ofInt 64 (o (lowestLane lanes)) }
      lanes ≠ 0 →
      ((∀ l, l < 128 → (lanes.getLsbD l = true ↔ act.getLsbD l = true ∧ o l % (n : Int) ≠ 0)) →
        (CanIssue s c h (ldbInfo t d off queue sym) → Traps s (.ldb h t d off queue sym disp) c v (where_ (laneTrap tAlign 0 0 lanes))) ∧
        (CanIssue s c h (stbInfo t off queue sym data) →
          Traps s (.stb h t off queue sym disp data) c v (where_ (laneTrap tAlign 0 0 lanes)))) ∧
      ((∀ l, l < 128 → act.getLsbD l = true → o l % (n : Int) = 0) →
       (∀ l, l < 128 → (lanes.getLsbD l = true ↔
          act.getLsbD l = true ∧ (o l < 0 ∨ 1024 * (c.segCount queue sym.toNat : Int) < o l + n))) →
        let t' := where_ (laneTrap tMemFault cRegBound (infoScratch ((o (lowestLane lanes)).toNat / 1024) queue sym.toNat 0 0) lanes)
        (CanIssue s c h (ldbInfo t d off queue sym) → Traps s (.ldb h t d off queue sym disp) c v { t' with vreg := d.toNat }) ∧
        (CanIssue s c h (stbInfo t off queue sym data) → Traps s (.stb h t off queue sym disp data) c v t')))

/-- A fill checks V, bounds, region permission, translation and page permission in that order, and one that fails changes no
memory. For a line that L2 holds with its checks for the access passed, a fill answers it unchanged. For any other line: V clear
fails with REGINVAL, a line outside BASE to LIMIT with REGBOUND, a missing permission bit with REGPERM, a failing translation
with its cause, a missing page permission with PAGEPERM, in this order. A fill that fails (where no tenant tracks its pages)
leaves everything as it was but what its walk read and displaced: TLB and walk-cache entries, lines of the caches, poison that
went with them, free values; a fill that succeeds leaves a line in L2 that has passed the checks for the access. (R18; R19; R30)
-/
def Obligations.FillChecks : Prop :=
  ∀ (s : State) c line acc resp,
    let w := s.boundsEntry c (ridOf line)
    let base := w.1.toNat / 64 % 2 ^ 50
    let limit := w.2.toNat / 64 % 2 ^ 50
    let out := lineVa line < base ∨ limit < lineVa line
    let may := grants (w.1.getLsbD 0) (w.1.getLsbD 1) (w.1.getLsbD 2) acc
    (∀ l, s.l2? c.tenant c.asid line = some l → grants l.rd l.w l.x acc = true → s.fill c line acc resp = (s, .ok l)) ∧
    ((∀ l, s.l2? c.tenant c.asid line = some l → grants l.rd l.w l.x acc = false) →
      (w.1.getLsbD 3 = false → s.fill c line acc resp = (s, .fail 4 0)) ∧
      (w.1.getLsbD 3 = true → out → s.fill c line acc resp = (s, .fail 5 0)) ∧
      (w.1.getLsbD 3 = true → ¬ out → may = false → s.fill c line acc resp = (s, .fail 6 0)) ∧
      (w.1.getLsbD 3 = true → ¬ out → may = true →
        (∀ cause, (s.translate c line).2 = .error cause → (s.fill c line acc resp).2 = .fail cause 0) ∧
        (∀ tr, (s.translate c line).2 = .ok tr → grants tr.rd tr.w tr.x acc = false →
          (s.fill c line acc resp).2 = .fail 3 tr.addr))) ∧
    (∀ v cause pa, s.fill c line acc resp = (v, .fail cause pa) → (∀ t ∈ s.tenants, t.track = none) →
      v = { s with tlb := v.tlb, walkCache := v.walkCache, l2 := v.l2, poison := v.poison, fresh := v.fresh, cores := v.cores } ∧
      v.cores.map (fun k => { k with l1 := [], icache := [] }) = s.cores.map fun k => { k with l1 := [], icache := [] }) ∧
    (∀ v l, s.fill c line acc resp = (v, .ok l) → v.l2? c.tenant c.asid line = some l ∧ grants l.rd l.w l.x acc = true)

namespace Sys2Proof.Machine

/-- The value of a byte as it is seen from a level on (R143, R151): the nearest buffered one, else the one at D. -/
def Cx.byteFrom (c : Cx) (lvl : Level) (line i : Nat) : Byte :=
  let gang := c.gang?.bind fun g => bufByte g.buf line i
  (match lvl with
    | .w => c.nearest line i
    | .b => (bufByte c.blk.buf line i).or gang
    | .g => gang
    | .d | .s => none).getD (c.atD line i)

/-- An element as it is seen from a level on. -/
def Cx.elemFrom (c : Cx) (lvl : Level) (p : DWord) (n : Nat) : Nat := bytesLe n fun i => c.byteFrom lvl (lineNo p) (lineOff p + i)

/-- A line of local memory that has passed its checks for RD and W, and is neither poisoned nor at odds with its check value. -/
def Cx.atomReady (c : Cx) (line : Nat) : Prop :=
  ∃ l, c.s.l2? c.ctx.tenant c.ctx.asid line = some l ∧ l.rd = true ∧ l.w = true ∧ l.owner = .loc ∧ c.s.poisoned l.addr = false ∧
    c.s.mismatch l.addr = false

/-- No tenant tracks its writes, and no running launch takes snapshots: a write at D changes the bytes it names alone. -/
def State.plainWrites (s : State) : Prop :=
  (∀ t ∈ s.tenants, t.track = none) ∧ ∀ l ∈ s.launches, l.snap = true → l.state ≠ .running

end Sys2Proof.Machine

/-- ATOM completes: the lanes act one after another in ascending order and each gets the value before its own operation. Where
no FENCE holds the wave, no write of it to a peer is unacknowledged and every active lane has an aligned element on a local line
that has passed its checks, with no error in the core's SRAM, exec answers a next state: the lanes have acted one after another,
the destination holds each lane's old value and fstat all their flags, and beside that only L1 copies are dropped. One lane's
operation reads the element from its level on; where it writes, the element's bytes become the new value there, at B in the
block's buffer, at D and S in memory, and every other byte stands. (R250; R251; R151; R307) -/
def Obligations.AtomResults : Prop :=
  (∀ s h op lvl t d base b cmp disp c, CanIssue s c h (atomInfo lvl t d base b cmp) → c.fenced 0 = false → c.sound → s.awaitsAck c.ref = false →
    let ptr := c.based base disp.toInt
    let n := t.bytes
    (∀ l, l < 128 → (c.guardMask h).getLsbD l = true → (ptr l).toNat % n = 0 ∧ c.atomReady (lineNo (ptr l))) →
    let val (o : VS) (l : Nat) : Nat := (c.vs o t.wide l).toNat % 2 ^ t.width
    let r := Cx.atomAll { c with s := s.settlePath c.ref 0 } lvl n ptr
      (fun l old => atomNew op t old (val b l) (cmp.elim 0 (val · l))) (lanesOf (c.guardMask h)) [] 0
    ∃ v, v = { r.1.s with cores := v.cores } ∧
      v.cores.map (fun k => { k with l1 := [] }) = r.1.s.cores.map (fun k => { k with l1 := [] }) ∧
      Completes s (.atom h op lvl t d base b cmp disp) c h (atomInfo lvl t d base b cmp) { r.1 with s := v }
        (.dst (.v d t.wide) (c.guardMask h) (fun l => BitVec.ofNat 64 (((r.2.1.find? fun y => y.1 == l).map (·.2)).getD 0)) r.2.2)) ∧
  (∀ (c : Cx) lvl p n f, c.s.memOk → c.s.plainWrites → c.atomReady (lineNo p) → n ∈ [1, 2, 4, 8] → p.toNat % n = 0 → lvl ∈ [.b, .d, .s] →
    let old := c.elemFrom lvl p n
    let r := c.atomStep (c.writer lvl false) p n f
    r.2 = (old, (f old).2) ∧
    (∀ line i, i < 64 → bufByte r.1.blk.buf line i =
      match (f old).1, byteIn p n line i with
      | some new, some k => if lvl = .b then some (BitVec.ofNat 8 (new / 2 ^ (8 * k))) else bufByte c.blk.buf line i
      | _, _ => bufByte c.blk.buf line i) ∧
    (∀ l, c.s.l2? c.ctx.tenant c.ctx.asid (lineNo p) = some l → ∀ a, memRead r.1.s.mem a =
      match (f old).1 with
      | some new =>
        if lvl ≠ .b ∧ l.addr + lineOff p ≤ a ∧ a < l.addr + lineOff p + n then BitVec.ofNat 8 (new / 2 ^ (8 * (a - (l.addr + lineOff p))))
        else memRead c.s.mem a
      | none => memRead c.s.mem a) ∧
    r.1.s.hostMem = c.s.hostMem ∧ r.1.s.peerMem = c.s.peerMem ∧ r.1.blk = { c.blk with buf := r.1.blk.buf } ∧ r.1.wv = c.wv)

/-- WAITV reads at its level: it completes where every active lane satisfies its condition, and otherwise waits for a poll at
priority 16. Where no FENCE holds the wave and every active lane's element is aligned and lies on a line that has passed its
check for RD and is not poisoned, with no error in the core's SRAM, each lane's value is that of its element from the level on,
at D and S never from L1. If all lanes satisfy the condition (equal, or unequal for .ne), exec answers a next state with the
values in the destination and nothing else changed; otherwise the wave waits with its priority at 16 and the values it saw.
(R252; R300; R143) -/
def Obligations.WaitvResults : Prop :=
  ∀ s h ne lvl ty d base src c, CanIssue s c h (waitvInfo ty lvl d base src) → c.fenced 0 = false → c.sound →
    let act := c.guardMask h
    let n := ty.width / 8
    let ptr := c.based base (waitDisp src)
    let got (l : Nat) : Nat := c.elemFrom lvl (ptr l) n
    let want (l : Nat) : Nat := (match src with
      | .reg b _ => c.vs b ty.is64 l
      | .imm m => ty.imm m).toNat % 2 ^ ty.width
    (∀ l, l < 128 → act.getLsbD l = true → (ptr l).toNat % n = 0 ∧
      ∃ x, s.l2? c.ctx.tenant c.ctx.asid (lineNo (ptr l)) = some x ∧ x.rd = true ∧
        (if x.owner = .loc then s.poisoned x.addr = false ∧ s.mismatch x.addr = false
         else x.poisoned = false ∧ x.check = lineCheck x.data)) →
    ((∀ l, l < 128 → act.getLsbD l = true → (got l = want l ↔ ne = false)) →
      Completes s (.waitv h ne lvl ty d base src) c h (waitvInfo ty lvl d base src) { c with s := s.settlePath c.ref 0 }
        (.dst (.v d ty.is64) act fun l => BitVec.ofNat 64 (got l))) ∧
    ((∃ l, l < 128 ∧ act.getLsbD l = true ∧ ¬ (got l = want l ↔ ne = false)) →
      Waits s (.waitv h ne lvl ty d base src) c (s.settlePath c.ref 0)
        (.waitv (.waitv h ne lvl ty d base src) c.sel.inst c.sel.grp 16 ((lanesOf act).map fun l => BitVec.ofNat 64 (got l)) none))

namespace Sys2Proof.Machine

def levelInfo (lvl : Level) : Info := { len := 8, level := some (lvl, true, false) }

def commitXInfo (d : BitVec 8) (lvl : Level) : Info := { len := 8, uni := true, ops := [wrS d 1], level := some (lvl, true, false) }

/-- What COMMIT.L has done to the buffers and to memory (R144): the buffers it drew from are empty, and each byte they held stands, the
nearest value first, at L. -/
def Cx.Published (c x : Cx) (lvl : Level) : Prop :=
  x.wv = { c.wv with buf := [] } ∧ x.blk = { c.blk with waves := x.blk.waves, buf := x.blk.buf } ∧
  (∀ n, n ≠ c.ref.wave → x.blk.wave n = c.blk.wave n) ∧ x.s.hostMem = c.s.hostMem ∧ x.s.peerMem = c.s.peerMem ∧
  match lvl with
  | .w => False
  | .b =>
    x.s.mem = c.s.mem ∧ x.s.gangs = c.s.gangs ∧
    ∀ line i, i < 64 → bufByte x.blk.buf line i = (bufByte c.wv.buf line i).or (bufByte c.blk.buf line i)
  | .g =>
    x.s.mem = c.s.mem ∧ x.blk.buf = [] ∧
    ∀ line i, i < 64 → (x.gang?.bind fun g => bufByte g.buf line i) = c.nearest line i
  | .d | .s =>
    x.blk.buf = [] ∧ (∀ g, x.gang? = some g → g.buf = []) ∧
    ∀ a, memRead x.s.mem a = match (c.commitSet .d).findSome? fun y => (c.s.l2? c.ctx.tenant c.ctx.asid y.line).bind fun l =>
        if l.addr ≤ a ∧ a < l.addr + 64 then c.nearest y.line (a - l.addr) else none with
      | some b => b
      | none => memRead c.s.mem a

/-- A set that COMMIT.D can publish at once: its lines have passed their checks for W, are local, and lie apart in memory. -/
def Cx.landable (c : Cx) : Prop :=
  (c.commitSet .d).Pairwise (fun x y => ∀ a b, c.s.l2? c.ctx.tenant c.ctx.asid x.line = some a →
    c.s.l2? c.ctx.tenant c.ctx.asid y.line = some b → a.addr + 64 ≤ b.addr ∨ b.addr + 64 ≤ a.addr) ∧
  ∀ x ∈ c.commitSet .d, ∃ l, c.s.l2? c.ctx.tenant c.ctx.asid x.line = some l ∧ l.w = true ∧ l.owner = .loc

/-- What COMMIT needs to complete: no error in the core's SRAM, one entry a line in each buffer, no write of the wave to a peer that is not
acknowledged (spec/09 R161), and of its level nothing at B, room at G (R141), a landable set at D and S. -/
def Cx.canPublish (c : Cx) (lvl : Level) : Prop :=
  c.sound ∧ (∀ b ∈ [c.wv.buf, c.blk.buf, c.gang?.elim [] (·.buf)], (b.map (·.line)).Nodup) ∧ c.s.awaitsAck c.ref = false ∧
  match lvl with
  | .w => False
  | .b => True
  | .g => (c.gang?).isSome ∧ c.columnFree ∧ (c.emptied .g).logged c.ref.wave + (c.commitSet .g).length ≤ 1024
  | .d | .s => c.landable ∧ c.s.memOk ∧ c.s.plainWrites

end Sys2Proof.Machine

/-- COMMIT completes and moves every buffered byte below its level to it; COMMIT.X does so, or reports its conflicts and changes
nothing. Where no FENCE holds the wave and the level can take the set, COMMIT.L answers a next state in which the buffers it
drew from are empty and each byte they held, the nearest value first, stands at L: in the block's or gang's buffer, or in
memory, every other byte as before. COMMIT.X.L does the same and writes 0 where no byte of the set conflicts, and otherwise
writes the number of conflicting bytes and leaves buffers and memory alone. A byte conflicts when a sibling wrote it at L after
the wave's window opened. (R144; R146; R248; R140) -/
def Obligations.CommitsPublish : Prop :=
  (∀ s h lvl c, c.fenced 0 = false → c.canPublish lvl →
    (CanIssue s c h (levelInfo lvl) →
      ∃ x, c.Published x lvl ∧ Completes s (.commit h lvl) c h (levelInfo lvl) x {}) ∧
    (∀ d, CanIssue s c h (commitXInfo d lvl) →
      let n := Cx.conflicts { c with s := s.settlePath c.ref 0 } lvl (c.commitSet lvl)
      let e : RegEffect := { scalar := fun m => if m = d.toNat then some (BitVec.ofNat 64 n) else none }
      (n = 0 → ∃ x, c.Published x lvl ∧ Completes s (.commitX h lvl d) c h (commitXInfo d lvl) x e) ∧
      (n ≠ 0 → Completes s (.commitX h lvl d) c h (commitXInfo d lvl) { c with s := s.settlePath c.ref 0 } e))) ∧
  (∀ (c : Cx) lvl set, c.conflicts lvl set ≠ 0 ↔
    ∃ y ∈ set, ∃ r ∈ c.s.wlog, c.window lvl < r.stamp ∧ c.sibling lvl r = true ∧
      r.onLine c.ctx.tenant c.ctx.asid y.line (if lvl == .d || lvl == .s then c.s.physOf c.ctx y.line else none) = true ∧
      r.mask &&& y.mask ≠ 0)

/-- ABORT drops its level, ACQ opens a window and drops stale copies, FENCE holds later operations, ICINV empties the
instruction cache. Each completes wherever it can issue. ABORT.W, .B and .G empty the wave's, block's or gang's buffer and
nothing else. ACQ.L sets its level's window to a new stamp; ACQ.D also drops the clean L1 lines of the address space, ACQ.S in
addition its forwarded lines in L2. After FENCE src, dst an operation of the wave on a path of dst is held while a copy or drain
of the wave of src is under way, or a write of it to another device of src is not acknowledged. ICINV drops the core's
instruction lines of the address space and the lines that the wave runs on from. Memory is as before in all four. (R147; R148;
R248; R164; R170; R249) -/
def Obligations.AbortAcquireFenceResults : Prop :=
  ∀ s h c,
    (∀ lvl, CanIssue s c h { len := 8, level := some (lvl, false, true) } →
      ∃ x, Completes s (.abort h lvl) c h { len := 8, level := some (lvl, false, true) } x {} ∧
        match lvl with
        | .w => x = c.setWv { c.wv with buf := [] }
        | .b => x = { c with blk := { c.blk with buf := [] } }
        | .g => ∃ v, v = { s with gangs := v.gangs } ∧ x = { c with s := v } ∧ ∀ g, x.gang? = some g → g.buf = []
        | .d | .s => False) ∧
    (∀ lvl, CanIssue s c h (levelInfo lvl) →
      ∃ v w, Completes s (.acq h lvl) c h (levelInfo lvl) (Cx.setWv { c with s := v } w) {} ∧
        v = { s with stamp := s.stamp + 1, cores := v.cores, l2 := v.l2 } ∧
        w = { c.wv with winB := if lvl = .b then s.stamp + 1 else c.wv.winB, winG := if lvl = .g then s.stamp + 1 else c.wv.winG,
                        winD := if lvl = .d then s.stamp + 1 else c.wv.winD, winS := if lvl = .s then s.stamp + 1 else c.wv.winS } ∧
        (lvl = .b ∨ lvl = .g → v.cores = s.cores) ∧ (lvl ≠ .s → v.l2 = s.l2) ∧
        (lvl = .d ∨ lvl = .s → c.core < s.cores.length →
          v.core c.core = { s.core c.core with l1 := (v.core c.core).l1 } ∧ (∀ n, n ≠ c.core → v.core n = s.core n) ∧
          ∀ y, y ∈ (v.core c.core).l1 ↔ y ∈ (s.core c.core).l1 ∧ ¬ (y.tenant = c.ctx.tenant ∧ y.asid = c.ctx.asid)) ∧
        (lvl = .s → ∀ y, y ∈ v.l2 ↔
          y ∈ s.l2 ∧ ¬ (y.tenant = c.ctx.tenant ∧ y.asid = c.ctx.asid ∧ y.phys = false ∧ y.owner ≠ .loc))) ∧
    (∀ src dst, CanIssue s c h { len := 8 } →
      ∃ v w, Completes s (.fence h src dst) c h { len := 8 } (Cx.setWv { c with s := v } w) {} ∧
        v = { s with unsettled := v.unsettled } ∧ w = { c.wv with fences := w.fences } ∧
        v.unsettled = (if src.getLsbD 0 then
          s.unsettled.map fun u => if u.wave = c.ref then { u with fenced := u.fenced ||| dst } else u else s.unsettled) ∧
        ∀ path, path < 4 →
          ((Cx.setWv { c with s := v } w).fenced path = true ↔
            c.fenced path = true ∨ (dst.getLsbD path = true ∧ ((∃ j ∈ c.fenceJobs src, s.underway j = true) ∨ ∃ n ∈ c.fenceWrites src, s.unacked n = true)))) ∧
    (CanIssue s c h { len := 8 } →
      ∃ v, Completes s (.icinv h) c h { len := 8 } (Cx.setWv { c with s := v } { c.wv with runOn := [] }) {} ∧ v = { s with cores := v.cores } ∧
        (c.core < s.cores.length → v.core c.core = { s.core c.core with icache := (v.core c.core).icache } ∧
          (∀ n, n ≠ c.core → v.core n = s.core n) ∧
          ∀ y, y ∈ (v.core c.core).icache ↔ y ∈ (s.core c.core).icache ∧ ¬ (y.tenant = c.ctx.tenant ∧ y.asid = c.ctx.asid)))

namespace Sys2Proof.Machine

/-! ### Copies, tags, barriers and queues (spec/14) -/

/-- The job that a copy instruction starts (R57, R58, R253): it follows the wave's earlier copies on its tag, and a CPYT.ld the queued
matrix operations that read the segments it writes (R171). -/
def Cx.jobOf (c : Cx) (kind : JobKind) (tag : Nat) : Job :=
  { id := c.s.stamp + 1, wave := some c.ref, cmd := none, ctx := c.ctx.num, tenant := c.ctx.tenant, pc := c.g.pc, core := c.core,
    pipe := c.wv.pipe, tag := tag, kind := kind, row := 0, stage := [],
    after := (c.s.jobs.filter fun j => decide (j.wave = some c.ref ∧ j.tag = tag ∧ j.kind.isDrain = false)).map (·.id) ++ c.readersOf kind
    engine := c.s.copyEngine c.ctx.tenant (clusterOf c.core) tag
    flagsTo := if c.wv.frame.isSome then .handler else .kernel
    stop := none, told := false }

/-- The block after one issue on a tag (R71): its count has risen and its ready bit is clear. -/
def TagIssued (b b' : Block) (tag : Nat) : Prop :=
  b' = { b with tags := b'.tags } ∧
  ∀ n, b'.tag? n = if n = tag then (b.tag? n).map fun t => { t with count := t.count + 1, ready := false } else b.tag? n

/-- The instruction starts a copy: with 255 issues on the tag it waits; otherwise it completes, the copy is in flight, and its tag has
counted it. -/
def StartsCopy (s : State) (k : Instr) (c : Cx) (h : Hdr) (i : Info) (v : State) (kind : JobKind) (tag : Nat) : Prop :=
  ((∃ t, c.blk.tag? tag = some t ∧ 255 ≤ t.count) → Waits s k c v .retry) ∧
  ((∀ t, c.blk.tag? tag = some t → t.count < 255) →
    ∃ b, TagIssued c.blk b tag ∧
      Completes s k c h i { c with s := { v with stamp := v.stamp + 1, jobs := v.jobs ++ [c.jobOf kind tag] }, blk := b } {})

def cpyInfo (d src : BitVec 8) (n : SI) (tag : BitVec 8) (lvl : Option Level) : Info :=
  { len := 16, ops := rdS d 1 :: rdS src 1 :: siOpds n, syms := [(kTag, tag.toNat, 0, 0)], level := lvl.map fun l => (l, true, false) }

/-- Two ranges of one region share a byte (R66). -/
def meets (dst src : DWord) (len : Nat) : Bool :=
  decide (dst.extractLsb' 56 8 = src.extractLsb' 56 8) &&
    (decide ((dst - src).toNat % 2 ^ 56 < len) || decide ((src - dst).toNat % 2 ^ 56 < len))

end Sys2Proof.Machine

/-- CPY, CPYR, CPYT.ld and CPYT.st complete by starting their copy and counting it on their tag. Where no FENCE holds the wave:
CPY and CPYR complete with a copy in flight from the source pointer to the destination pointer, of the low 40 bits of the
length; CPYT.ld and CPYT.st with the tile the handle's entry, the origin scalars and the segment name. The copy follows the
wave's earlier copies on its tag, a CPYT.ld also the queued matrix operations that read where it writes; its engine is one of
the cluster's four that the tenant owns, or else the next one up that it owns, wrapping after 95. The tag's count rises and its
ready bit clears; with 255 counted the wave waits. A scaled origin that is no multiple of 32 raises ALIGN, a tile past its
symbol REGBOUND. (R253; R254; R57; R58; R71; R66; R67; R171) -/
def Obligations.CopiesStart : Prop :=
  ∀ s h d src n tag c, c.fenced 1 = false →
    let l := lowestLane (c.guardMask h)
    let len := (c.si n (·.setWidth 64) l).toNat % 2 ^ 40
    let v := s.settlePath c.ref 1
    (∀ lvl, CanIssue s c h (cpyInfo d src n tag (some lvl)) →
      StartsCopy s (.cpy h lvl d src n tag) c h (cpyInfo d src n tag (some lvl)) v
        (.linear lvl (c.scl d l) (c.scl src l) len (meets (c.scl d l) (c.scl src l) len) false d.toNat src.toNat) tag.toNat) ∧
    (c.fenced 3 = false → CanIssue s c h (cpyInfo d src n tag none) →
      StartsCopy s (.cpyr h d src n tag) c h (cpyInfo d src n tag none) (v.settlePath c.ref 3)
        (.linear .d (c.scl d l) (c.scl src l) len (meets (c.scl d l) (c.scl src l) len) true d.toNat src.toNat) tag.toNat) ∧
    (let own := (s.tenant c.ctx.tenant).own.engines
     let first := 4 * clusterOf c.core
     let e := s.copyEngine c.ctx.tenant (clusterOf c.core) tag.toNat
     ((∃ i, i < 4 ∧ own.getLsbD (first + i) = true) → own.getLsbD e = true ∧ first ≤ e ∧ e < first + 4) ∧
     ((∀ i, i < 4 → own.getLsbD (first + i) = false) → ∀ k, k < 96 → own.getLsbD ((first + k) % 96) = true →
      (∀ j, j < k → own.getLsbD ((first + j) % 96) = false) → e = (first + k) % 96)) ∧
    (∀ (lvl : Option Level) (buf : SegRef16) hn so,
      let e := c.ctx.entry hn.toNat
      let need := if entValid e then (entRank e + 1) / 2 else 0
      let i := tileInfo buf so tag need (lvl.map fun l => (l, true, false)) (needs hn fun e => lvl.isNone || entWritable e)
      let k : Instr := match lvl with
        | none => .cpytLd h buf hn so tag
        | some lvl => .cpytSt h lvl buf hn so tag
      CanIssue s c h i →
      let origin := (List.range ((entRank e + 1) / 2)).map fun j => c.scl (so + BitVec.ofNat 8 j) l
      let x0 := (origin.headD 0).toNat % 2 ^ 32
      let seg := match buf.seg with
        | .imm n => n.toNat
        | .scl n => (c.scl n l).toNat % 2 ^ 16
      if entScm e = 1 ∧ x0 % 32 ≠ 0 then
        Traps s k c v (laneTrap tAlign 0 (BitVec.ofNat 64 (2 ^ 55 + 2 ^ 54 + hn.toNat * 2 ^ 32 + x0)) (c.guardMask h))
      else if c.segCount buf.queue buf.sym.toNat < seg + tileSegs e then
        Traps s k c v { laneTrap tMemFault cRegBound (infoScratch seg buf.queue buf.sym.toNat 0 0) (c.guardMask h) with
          symKind := if buf.queue then kQueue else kBuffer, sym := buf.sym.toNat, offset := BitVec.ofNat 64 (1024 * seg) }
      else StartsCopy s k c h i v (match lvl with
        | none => .tileLoad buf.sym.toNat buf.queue seg e hn.toNat origin
        | some lvl => .tileStore lvl buf.sym.toNat buf.queue seg e hn.toNat origin) tag.toNat)

/-- TWANY and TWALL complete when some, or all, listed tags are ready and wait until then; TFIRST finds the first; TCLR clears
ready bits. TWANY: some tag of the list is ready, TWALL: every one is; then exec answers a next state with nothing else changed,
otherwise the wave waits and tries again. TFIRST always completes with the position of the first ready tag in its list, or all
ones where none is. TCLR always completes with the listed tags' ready bits clear, their counts and every other tag as before.
(R256; R72; R71) -/
def Obligations.TagInstructionResults : Prop :=
  ∀ s h tags c,
    let i (ops : List Opd) : Info := { len := 16, uni := true, ops := ops, syms := (TagList.tags tags).map fun n => (kTag, n, 0, 0) }
    let ready (n : Nat) : Prop := ∃ t, c.blk.tag? n = some t ∧ t.ready = true
    (CanIssue s c h (i []) →
      ((∃ n ∈ TagList.tags tags, ready n) → Completes s (.twany h tags) c h (i []) c {}) ∧
      ((∀ n ∈ TagList.tags tags, ¬ ready n) → Waits s (.twany h tags) c s .retry) ∧
      ((∀ n ∈ TagList.tags tags, ready n) → Completes s (.twall h tags) c h (i []) c {}) ∧
      ((∃ n ∈ TagList.tags tags, ¬ ready n) → Waits s (.twall h tags) c s .retry) ∧
      ∃ b, Completes s (.tclr h tags) c h (i []) { c with blk := b } {} ∧ b = { c.blk with tags := b.tags } ∧
        ∀ n, b.tag? n = if n ∈ TagList.tags tags then (c.blk.tag? n).map fun t => { t with ready := false } else c.blk.tag? n) ∧
    (∀ d, CanIssue s c h (i [wrS d 1]) →
      ∃ x, Completes s (.tfirst h d tags) c h (i [wrS d 1]) c { scalar := fun m => if m = d.toNat then some x else none } ∧
        ((∀ n ∈ TagList.tags tags, ¬ ready n) → x = BitVec.allOnes 64) ∧
        ∀ j, j < (TagList.tags tags).length → ready ((TagList.tags tags).getD j 0) →
          (∀ k, k < j → ¬ ready ((TagList.tags tags).getD k 0)) → x = BitVec.ofNat 64 j)

namespace Sys2Proof.Machine

/-- Only the marks by which barrier phases and queue entries order scratch writes for other waves differ (spec/09 R166). -/
def MarksOnly (a b : List Unsettled) : Prop :=
  let bare (u : Unsettled) : Unsettled := { u with arrived := [], phased := [], seenBy := [] }
  b.map bare = a.map bare

/-- A block after something its waves may wait for has changed: those that wait to try again do so. -/
def Woken (b b' : Block) : Prop :=
  b'.waves.length = b.waves.length ∧
  ∀ n, b'.wave n = if (b.wave n).wait = some .retry ∨ (b.wave n).wait = some .phase then { b.wave n with wait := none } else b.wave n

end Sys2Proof.Machine

/-- BARV, BARD, BARW and BARS complete, arrive and wait as R258 to R260 say, and a full phase opens the next. Where no active
thread has arrived or dropped: BARV writes P and arrives, BARD drops, BARW arrives and waits on P; BARS waits on its token and
completes at once where P has moved on. An arrival raises A by the number of active lanes and marks them, a drop raises Q too.
Where A then differs from E, nothing else changes; where it equals E, outside a barrier site, the barrier is in phase P + 1 with
E less Q, A and Q zero and no thread marked, and no wave waits on an earlier phase. Besides, only the marks change by which
phases order scratch writes: where BARS passes, the wave sees what its block's waves wrote before a completed phase. A dropped
thread traps BARSTATE; an arrived one waits. (R257; R258; R259; R260; R261) -/
def Obligations.BarrierResults : Prop :=
  ∀ s h sym c b, c.blk.bar? (BitVec.toNat sym) = some b →
    let act := c.guardMask h
    let m := laneCount act
    let who : ThreadSet := threadsOf c.ref.wave act
    let i (ops : List Opd) : Info := barInfo ops sym
    let site := match c.site with
      | some n => some n
      | none => b.lastSite
    let now (drop : Bool) : BarState :=
      if drop then { b with a := b.a + m, q := b.q + m, dropped := b.dropped ||| who, lastSite := site }
      else { b with a := b.a + m, arrived := b.arrived ||| who, lastSite := site }
    -- the barrier and the waits after it, for a wave that then waits as `w` says
    let settled (drop : Bool) (w : Wave) (x : Cx) : Prop :=
      x.s = { s with unsettled := x.s.unsettled } ∧ MarksOnly s.unsettled x.s.unsettled ∧
      if b.a + m = b.e ∧ b.e ≠ 0 then
        x.blk.bar? sym.toNat = some { b with p := b.p + 1, e := (now drop).e - (now drop).q, a := 0, q := 0, arrived := 0,
                                             dropped := (now drop).dropped, lastSite := none } ∧
        (∀ n, n ≠ sym.toNat → x.blk.bar? n = c.blk.bar? n) ∧ (∀ n tok, (x.blk.wave n).wait = some (.barw sym.toNat tok) → tok = b.p + 1)
      else x = { c with s := x.s, blk := (c.blk.setBar (now drop)).setWave c.ref.wave w }
    let waiting : Wave := { c.wv with wait := some (.barw sym.toNat b.p) }
    (b.dropped &&& who = 0 → b.arrived &&& who = 0 → (site = none ∨ ¬ (b.a + m = b.e ∧ b.e ≠ 0)) →
      (∀ d, CanIssue s c h (i [wrS d 1]) → ∃ x, settled false c.wv x ∧
        Completes s (.barv h d sym) c h (i [wrS d 1]) x { scalar := fun k => if k = d.toNat then some (b.p.setWidth 64) else none }) ∧
      (CanIssue s c h (i []) →
        (∃ x, settled true c.wv x ∧ Completes s (.bard h sym) c h (i []) x {}) ∧
        (∃ x, settled false waiting x ∧ Completes s (.barw h sym) c h (i []) x {}))) ∧
    (∀ a, CanIssue s c h (i [rdS a 1]) →
      let token : BitVec 16 := (c.scl a (lowestLane act)).setWidth 16
      if token = b.p then
        Completes s (.bars h sym a) c h (i [rdS a 1]) (c.setWv { c.wv with wait := some (.barw sym.toNat token) }) {}
      else ∃ us, MarksOnly s.unsettled us ∧
        (∀ y ∈ us, y.inBlock c.blk = true → y.phased.contains sym.toNat = true → c.ref.wave ∈ y.seenBy) ∧
        Completes s (.bars h sym a) c h (i [rdS a 1]) { c with s := { s with unsettled := us } } {}) ∧
    (b.dropped &&& who ≠ 0 →
      ∃ lanes : Mask, (∀ l, l < 128 → (lanes.getLsbD l = true ↔ act.getLsbD l = true ∧ b.dropped &&& threadBit c.ref.wave l ≠ 0)) ∧
        (∀ d, CanIssue s c h (i [wrS d 1]) → Traps s (.barv h d sym) c s (laneTrap tIllop 0x0D 0 lanes)) ∧
        (CanIssue s c h (i []) → Traps s (.bard h sym) c s (laneTrap tIllop 0x0D 0 lanes) ∧
          Traps s (.barw h sym) c s (laneTrap tIllop 0x0D 0 lanes))) ∧
    (b.dropped &&& who = 0 → b.arrived &&& who ≠ 0 →
      (∀ d, CanIssue s c h (i [wrS d 1]) → Waits s (.barv h d sym) c s .retry) ∧
      (CanIssue s c h (i []) → Waits s (.bard h sym) c s .retry ∧ Waits s (.barw h sym) c s .phase))

/-- QPUSH, QPOP, QTRY and QGRANT complete as their queue allows, keep its order, and wait or trap QOVER otherwise. QPUSH with a
grant appends the value and takes one grant, without one it waits; QPOP removes and writes the oldest entry, of an empty queue
it waits; QTRY does the same and writes 0 beside it, or 0 and 1 for an empty queue, and never waits; the wave that takes an
entry sees what its pusher had written to the queue's segments before. QGRANT waits for the matrix operations that were queued
when it issued, traps QOVER where grants and entries would exceed the depth, and otherwise adds its grants. No other queue, and
nothing else but the waves that wait to try again, changes. (R262; R263; R264; R265) -/
def Obligations.QueueResults : Prop :=
  ∀ s h sym c q, c.blk.queue? (BitVec.toNat sym) = some q →
    let i (ops : List Opd) : Info := queueInfo ops sym
    let l := lowestLane (c.guardMask h)
    let pair (d : BitVec 8) (x y : DWord) : RegEffect :=
      { scalar := fun m => if m = d.toNat + 1 then some y else if m = d.toNat then some x else none }
    let now (k : Instr) (i : Info) (us : List Unsettled) (x : Cx) (q' : QueueState) (e : RegEffect) : Prop :=
      ∃ b, Completes s k c h i { x with s := { s with unsettled := us }, blk := b } e ∧
        b = { x.blk with queues := b.queues, waves := b.waves } ∧ Woken x.blk b ∧
        ∀ n, b.queue? n = if n = sym.toNat then some q' else c.blk.queue? n
    let first := c.core * 1536 + c.segAt true q.sym
    let taken : List Unsettled := match q.pushes.head? with
      | none => s.unsettled
      | some (w, at_) => s.unsettled.map fun y =>
        if y.inBlock c.blk = true ∧ y.wave.wave = w ∧ y.id ≤ at_ ∧ first ≤ y.loc / 16 ∧ y.loc / 16 < first + c.segCount true q.sym then
          { y with seenBy := c.ref.wave :: y.seenBy }
        else y
    (∀ a, CanIssue s c h (i [rdS a 1]) →
      (q.g = 0 → Waits s (.qpush h sym a) c s .retry) ∧
      (q.g ≠ 0 → now (.qpush h sym a) (i [rdS a 1]) s.unsettled c
        { q with g := q.g - 1, ring := q.ring ++ [c.scl a l], pushes := q.pushes ++ [(c.ref.wave, s.stamp + 1)] } {})) ∧
    (∀ d, CanIssue s c h (i [wrS d 1]) →
      (q.ring = [] → Waits s (.qpop h d sym) c s .retry) ∧
      (∀ x rest, q.ring = x :: rest →
        now (.qpop h d sym) (i [wrS d 1]) taken c { q with ring := rest, pushes := q.pushes.drop 1 } { scalar := fun m => if m = d.toNat then some x else none })) ∧
    (∀ d, CanIssue s c h { i [wrS d 2] with badReg := d == 255 } →
      (q.ring = [] → Completes s (.qtry h d sym) c h { i [wrS d 2] with badReg := d == 255 } c (pair d 0 1)) ∧
      (∀ x rest, q.ring = x :: rest →
        now (.qtry h d sym) { i [wrS d 2] with badReg := d == 255 } taken c { q with ring := rest, pushes := q.pushes.drop 1 } (pair d x 0))) ∧
    (∀ n, CanIssue s c h (i []) →
      let queued (k : Nat) : Prop :=
        ∃ o ∈ (s.core c.core).engine, o.id = k ∧ ((∃ a b c, o.op = .mma a b c) ∨ ∃ a b c d, o.op = .pmma a b c d)
      let busy : Prop := c.grantOps ≠ []
      (∀ k, k ∈ c.grantOps ↔ match c.wv.grant with
        | some g => if g.pc = c.g.pc then k ∈ g.ops ∧ s.underway k = true else queued k
        | none => queued k) ∧
      let g : Grant := { pc := c.g.pc, ops := c.grantOps, op := .qgrant h sym n, inst := c.sel.inst }
      (busy → exec (.qgrant h sym n) s = .next (c.setWv { c.wv with wait := some .retry, waiter := c.g.lanes, grant := some g }).close) ∧
      (¬ busy → c.depth sym.toNat < q.g + n.toNat + q.ring.length →
        Traps s (.qgrant h sym n) c s (laneTrap tIllop 0x0E 0 (c.guardMask h))) ∧
      (¬ busy → q.g + n.toNat + q.ring.length ≤ c.depth sym.toNat →
        now (.qgrant h sym n) (i []) s.unsettled (c.setWv { c.wv with grant := none }) { q with g := q.g + n.toNat } {}))

namespace Sys2Proof.Machine

/-- An edge descriptor that satisfies R269, as it stands in memory at an address: its slots, capacity, free count, pushes and pops. -/
def EdgeAt (m : List Host.Cell) (at_ : Nat) (slots : DWord) (cap free : Nat) (pushed popped : DWord) : Prop :=
  mem64 m at_ = slots ∧ slots.toNat % 8 = 0 ∧ mem64 m (at_ + 8) = BitVec.ofNat 64 cap ∧ 0 < cap ∧ cap < 2 ^ 24 ∧
  mem64 m (at_ + 16) = BitVec.ofNat 64 free ∧ free ≤ cap ∧ mem64 m (at_ + 24) = pushed ∧ mem64 m (at_ + 32) = popped ∧
  mem64 m (at_ + 40) = 0 ∧ mem64 m (at_ + 48) = 0 ∧ mem64 m (at_ + 56) = 0

/-- Double words of memory replaced, each at its address. -/
def Words (m m' : List Host.Cell) (ws : List (Nat × DWord)) : Prop :=
  ∀ a, memRead m' a = match ws.find? fun w => decide (w.1 ≤ a ∧ a < w.1 + 8) with
    | some w => BitVec.ofNat 8 (w.2.toNat / 2 ^ (8 * (a - w.1)))
    | none => memRead m a

/-- No launch whose out-edge is the descriptor of a pointer is held (R301). -/
def NoneHeldBy (s : State) (c : Ctx) (p : DWord) : Prop :=
  ∀ l ∈ s.launches, ∀ d, s.ctx? l.src.fn l.ctx = some d → s.placeOf d (lineNo l.hdr.outEdge) = s.placeOf c (lineNo p) → l.held = false

/-- The local address of a line that is ready for an atomic. -/
def Cx.AtomAt (c : Cx) (p : DWord) (a : Nat) : Prop :=
  ∃ l, c.s.l2? c.ctx.tenant c.ctx.asid (lineNo p) = some l ∧ l.rd = true ∧ l.w = true ∧ l.owner = .loc ∧ c.s.poisoned l.addr = false ∧
    c.s.mismatch l.addr = false ∧ a = l.addr + lineOff p

def epushInfo (d a b : BitVec 8) : Info := { len := 12, uni := true, ops := [rdS a 1, rdS b 1, wrS d 1] }
def epopInfo (d a : BitVec 8) : Info := { len := 12, uni := true, ops := [rdS a 1, wrS d 2], badReg := d == 255 }

end Sys2Proof.Machine

/-- EPUSH and EPOP complete on a sound descriptor: they move one entry through its ring, or report a full or an empty edge.
Where no FENCE holds the wave and descriptor and slot lie on local lines that have passed their checks: EPUSH with FREE above 0
writes the value to slot PUSHED mod CAP, takes one from FREE, adds one to PUSHED and writes 0, with FREE 0 it writes 1 alone;
EPOP with PUSHED unlike POPPED gives the value of slot POPPED mod CAP, adds one to FREE and POPPED and writes 0 beside it,
otherwise it writes 0 and 1 alone, and after either no launch is held by that descriptor. No other byte of memory changes. A
descriptor off a 64-byte line raises BADEDGE. (R267; R268; R269) -/
def Obligations.EdgeResults : Prop :=
  ∀ s h d a disp c, c.fenced 0 = false → s.plainWrites → s.memOk →
    let l := lowestLane (c.guardMask h)
    let p := ptrAdd (c.scl a l) (BitVec.toInt disp)
    let v := s.settlePath c.ref 0
    let pair (x y : DWord) : RegEffect := { scalar := fun m => if m = d.toNat + 1 then some y else if m = d.toNat then some x else none }
    let one (x : DWord) : RegEffect := { scalar := fun m => if m = d.toNat then some x else none }
    (p.toNat % 64 ≠ 0 →
      (∀ b, CanIssue s c h (epushInfo d a b) → Traps s (.epush h d a b disp) c v (memTrap 9 p 0 (c.guardMask h) 0xFFF)) ∧
      (CanIssue s c h (epopInfo d a) → Traps s (.epop h d a disp) c v (memTrap 9 p 0 (c.guardMask h) 0xFFF))) ∧
    (∀ at_ slots cap free pushed popped, p.toNat % 64 = 0 → c.AtomAt p at_ → EdgeAt s.mem at_ slots cap free pushed popped →
      (∀ b, CanIssue s c h (epushInfo d a b) →
        (free = 0 → Completes s (.epush h d a b disp) c h (epushInfo d a b) { c with s := v } (one 1)) ∧
        (∀ slot, free ≠ 0 → c.AtomAt (ptrAdd slots ((8 * (pushed.toNat % cap) : Nat) : Int)) slot → (slot + 8 ≤ at_ ∨ at_ + 64 ≤ slot) →
          ∃ x, Completes s (.epush h d a b disp) c h (epushInfo d a b) x (one 0) ∧ x.blk = c.blk ∧
            x.s.hostMem = s.hostMem ∧ x.s.peerMem = s.peerMem ∧
            Words s.mem x.s.mem [(slot, c.scl b l), (at_ + 16, BitVec.ofNat 64 (free - 1)), (at_ + 24, pushed + 1)])) ∧
      (CanIssue s c h (epopInfo d a) →
        (pushed = popped → ∃ x, Completes s (.epop h d a disp) c h (epopInfo d a) { c with s := x } (pair 0 1) ∧
          x = { v with launches := x.launches } ∧ NoneHeldBy x c.ctx p) ∧
        (∀ slot, pushed ≠ popped → c.AtomAt (ptrAdd slots ((8 * (popped.toNat % cap) : Nat) : Int)) slot →
          ∃ x, Completes s (.epop h d a disp) c h (epopInfo d a) x (pair (mem64 s.mem slot) 0) ∧ x.blk = c.blk ∧
            x.s.hostMem = s.hostMem ∧ x.s.peerMem = s.peerMem ∧ NoneHeldBy x.s c.ctx p ∧
            Words s.mem x.s.mem [(at_ + 16, BitVec.ofNat 64 (free + 1)), (at_ + 32, popped + 1)])))

namespace Sys2Proof.Machine

/-! ### The matrix engine and the accumulators (spec/15) -/

def signInfo (k : BitVec 8) : Info := { len := 16, syms := [(kTrick, k.toNat, 0, 0)] }

/-- The block with a trick's state replaced. -/
def TrickNow (b b' : Block) (k : Nat) (t : TrickState) : Prop :=
  b' = { b with tricks := b'.tricks, waves := b'.waves } ∧ ∀ n, b'.trick? n = if n = k then some t else b.trick? n

/-- Whose flags an operation of the wave raises: its handler's own while one runs, else the wave's (spec/17 R310). -/
def Cx.raisesFor (c : Cx) : FlagsTo := if c.wv.frame.isSome then .handler else .kernel

/-- Signing a trick (R128, R129): `op` is the operation that the instruction brings, none for SIGN; it is kept with the entries that its
handles name now (spec/03 R59). -/
def Signs (s : State) (k : Instr) (c : Cx) (h : Hdr) (i : Info) (sym : Nat) (op : Option Instr) : Prop :=
  ∀ t, c.blk.trick? sym = some t →
    let m := laneCount (c.guardMask h)
    let n := c.trickSize sym
    let who : ThreadSet := threadsOf c.ref.wave (c.guardMask h)
    let v := s.settlePath c.ref 2
    let last := match op with
      | some j => some (c.ref.wave, c.raisesFor, j)
      | none => t.op
    let ops := op.bind matOps?
    let t' : TrickState := { t with
      signed := t.signed ||| who, count := t.count + m, op := last, entryA := ops.elim t.entryA fun o => c.ctx.entry o.hA.toNat
      entryB := ops.elim t.entryB fun o => c.ctx.entry o.hB.toNat }
    (n < m → Traps s k c v (laneTrap tIllop 0x0C 0 (c.guardMask h))) ∧
    (m ≤ n → (t.signed &&& who ≠ 0 ∨ n < t.count + m) → Waits s k c v .retry) ∧
    (t.signed &&& who = 0 → t.count + m < n →
      ∃ b, b.waves = c.blk.waves ∧ TrickNow c.blk b sym t' ∧
        Completes s k c h i { c with s := v, blk := b } {}) ∧
    (t.signed &&& who = 0 → t.count + m = n →
      let fresh : TrickState := { t with signed := 0, count := 0, op := none, entryA := [], entryB := [] }
      match last with
      | none => ∃ b, Woken c.blk b ∧ TrickNow c.blk b sym fresh ∧ Completes s k c h i { c with s := v, blk := b } {}
      | some (wave, from_, j) =>
        match Cx.issueOp { c with s := v } t' j wave from_ (c.guardMask h) with
        | .error tr => Traps s k c v tr
        | .ok x => ∃ b, Woken c.blk b ∧ TrickNow c.blk b sym fresh ∧ Completes s k c h i { x with blk := b } {})

end Sys2Proof.Machine

/-- SIGN, MMA and PMMA sign their trick once per active lane, and the last signature of the set issues the round's operation.
Where no FENCE holds the wave: more lanes than the set traps SIGNOVER; a thread that has signed, or more signatures than are
missing, waits; fewer than missing complete and are counted, an MMA or PMMA leaving its operation with the trick; the last
completes, clears the trick and issues the last operation signed, if any. Issuing puts that one operation at the end of the
core's engine queue with the segments its operands name and the entries that its handles named as it signed, or raises the first
of the operands' range and SWIZZLE traps. (R128; R129; R271; R272; R273; R127; R274) -/
def Obligations.SigningIssuesTheRound : Prop :=
  (∀ s h c, c.fenced 2 = false →
    (∀ k, CanIssue s c h (signInfo k) → Signs s (.sign h k) c h (signInfo k) k.toNat none) ∧
    (∀ w2 o, let i := matInfo o (1 + Bool.toNat w2) mmaClass
      CanIssue s c h i → Signs s (.mma h w2 o) c h i o.k.toNat (some (.mma h w2 o))) ∧
    (∀ qn conj o, let i := matInfo o 2 pmmaClass
      CanIssue s c h i → Signs s (.pmma h qn conj o) c h i o.k.toNat (some (.pmma h qn conj o)))) ∧
  (∀ (c : Cx) t wave from_ j act o, ((∃ h w2, j = .mma h w2 o) ∨ ∃ h qn conj, j = .pmma h qn conj o) →
    let off (r : SegRef) : Nat := if r.scl then (c.signerScalar wave from_ r.seg (lowestLane act)).toNat % 2 ^ 16 else r.seg.toNat
    let inside (r : SegRef) (e : TEntry) : Prop := off r + tileSegs e ≤ c.segCount r.queue r.sym.toNat
    let tagged (r : SegRef) (e : TEntry) : Prop := ∀ i, i < tileSegs e →
      ((c.s.core c.core).seg (c.segAt r.queue r.sym.toNat + off r + i)).tag = if i < 6 then entTag e else 0
    let ea := t.entryA
    let eb := t.entryB
    (¬ inside o.a ea → ∃ tr, c.issueOp t j wave from_ act = .error tr ∧ tr.cls = 7 ∧ tr.cause = 5) ∧
    (inside o.a ea → ¬ inside o.b eb → ∃ tr, c.issueOp t j wave from_ act = .error tr ∧ tr.cls = 7 ∧ tr.cause = 5) ∧
    (inside o.a ea → inside o.b eb → ¬ (tagged o.a ea ∧ tagged o.b eb) → ∃ tr, c.issueOp t j wave from_ act = .error tr ∧ tr.cls = 6) ∧
    (inside o.a ea → inside o.b eb → tagged o.a ea → tagged o.b eb →
      ∃ x op, c.issueOp t j wave from_ act = .ok x ∧ op.op = j ∧ op.wave = c.ref ∧ op.flagsTo = c.raisesFor ∧ op.entryA = ea ∧ op.entryB = eb ∧
        op.segA = c.segAt o.a.queue o.a.sym.toNat + off o.a ∧ op.segB = c.segAt o.b.queue o.b.sym.toNat + off o.b ∧
        x = { c with s := x.s } ∧ x.s = { c.s with stamp := x.s.stamp, unsettled := x.s.unsettled, cores := x.s.cores } ∧
        (c.core < c.s.cores.length →
          x.s.core c.core = { c.s.core c.core with engine := (c.s.core c.core).engine ++ [op] } ∧
          ∀ n, n ≠ c.core → x.s.core n = c.s.core n)))

namespace Sys2Proof.Machine

/-- The banks of a core after an accumulator instruction: some replaced, everything else of the machine as before but the errors of
words it has written. -/
def BanksNow (s v : State) (core : Nat) (f : Nat → Bank) : Prop :=
  v = { s with cores := v.cores } ∧ (∀ n, n ≠ core → v.core n = s.core n) ∧
  v.core core = { s.core core with banks := (v.core core).banks, badAcc := (v.core core).badAcc } ∧
  ∀ n, ((v.core core).bank n).alloc = (f n).alloc ∧ ((v.core core).bank n).owner = (f n).owner ∧
    ∀ i, i < 512 → ((v.core core).bank n).word i = (f n).word i

/-- The wave with UNALLOC set where an unallocated bank was met (R132). -/
def Cx.metUnalloc (c : Cx) (on : Bool) : Wave := if on then { c.wv with status := c.wv.status ||| 1 } else c.wv

end Sys2Proof.Machine

/-- ACCA, ACCF, ACCZ, ACCR and ACCW complete once the engine queue is empty, and act on exactly the banks and words they name.
While the core's engine queue holds an operation they wait. Otherwise each completes: ACCA allocates its banks to the group with
words of zero, ACCF frees them, ACCZ zeroes the allocated ones, ACCR gives lane l word (s + l) mod 512 of its bank, zero where
the bank is not allocated, ACCW writes that word of an allocated bank from lane l. ACCZ, ACCR and ACCW set UNALLOC where they
meet an unallocated bank. Every other bank and word, and memory, is as before. ACCR of a word with a double-bit error traps UCE.
(R130; R131; R132; R276; R277) -/
def Obligations.AccumulatorResults : Prop :=
  ∀ s h sym b c, c.core < s.cores.length →
    let k := s.core c.core
    let first := c.bankAt (BitVec.toNat sym) + BitVec.toNat b
    let idle : Prop := k.engine = []
    let here (n cnt : Nat) : Prop := first ≤ n ∧ n < first + cnt
    (∀ cnt1 : BitVec 4, let cnt := cnt1.toNat + 1
      let i := accInfo sym b cnt []
      CanIssue s c h i →
      (∀ grp, (¬ idle → Waits s (.acca h sym b cnt1 grp) c s .retry) ∧
        (idle → ∃ v, BanksNow s v c.core (fun n =>
            if first ≤ n ∧ n < first + cnt then { alloc := true, owner := grp.toNat, words := [] } else k.bank n) ∧
          Completes s (.acca h sym b cnt1 grp) c h i { c with s := v } {})) ∧
      (¬ idle → Waits s (.accf h sym b cnt1) c s .retry) ∧
      (idle → ∃ v, BanksNow s v c.core (fun n =>
          if first ≤ n ∧ n < first + cnt then { k.bank n with alloc := false } else k.bank n) ∧
        Completes s (.accf h sym b cnt1) c h i { c with s := v } {}) ∧
      (¬ idle → Waits s (.accz h sym b cnt1) c s .retry) ∧
      (idle → ∃ v un, BanksNow s v c.core (fun n =>
          if first ≤ n ∧ n < first + cnt ∧ (k.bank n).alloc then { k.bank n with words := [] } else k.bank n) ∧
        (un = true ↔ ∃ n, here n cnt ∧ (k.bank n).alloc = false) ∧
        Completes s (.accz h sym b cnt1) c h i (Cx.setWv { c with s := v } (c.metUnalloc un)) {})) ∧
    (∀ sw, let word (l : Nat) : Nat := ((c.scl sw (lowestLane (c.guardMask h))).toNat + l) % 512
      (∀ d, let i := accInfo sym b 1 [rdS sw 1, wrV d false]
        CanIssue s c h i →
        (¬ idle → Waits s (.accr h d sym b sw) c s .retry) ∧
        (idle → ((k.bank first).alloc = true → ∀ l, l < 128 → (c.guardMask h).getLsbD l = true → first * 512 + word l ∉ k.badAcc) →
          Completes s (.accr h d sym b sw) c h i (c.setWv (c.metUnalloc (!(k.bank first).alloc)))
            (.dst (.v d false) (c.guardMask h) fun l => if (k.bank first).alloc then ((k.bank first).word (word l)).setWidth 64 else 0)) ∧
        (idle → (k.bank first).alloc = true → ∀ lanes : Mask, lanes ≠ 0 →
          (∀ l, l < 128 → (lanes.getLsbD l = true ↔ (c.guardMask h).getLsbD l = true ∧ first * 512 + word l ∈ k.badAcc)) →
          Traps s (.accr h d sym b sw) c s (laneTrap tUce 3 0 lanes))) ∧
      (∀ a, let i := { accInfo sym b 1 [rdS sw 1, rdRaw a false] with lastB := regsOf a false }
        CanIssue s c h i →
        (¬ idle → Waits s (.accw h sym b sw a) c s .retry) ∧
        (idle → ∃ v, v = { s with cores := v.cores } ∧ (∀ n, n ≠ c.core → v.core n = s.core n) ∧
          v.core c.core = { k with banks := (v.core c.core).banks, badAcc := (v.core c.core).badAcc } ∧
          (∀ n, n ≠ first → (v.core c.core).bank n = k.bank n) ∧ ((v.core c.core).bank first).alloc = (k.bank first).alloc ∧
          ((v.core c.core).bank first).owner = (k.bank first).owner ∧
          (∀ l, l < 128 → (k.bank first).alloc = true → (c.guardMask h).getLsbD l = true →
            ((v.core c.core).bank first).word (word l) = (c.vec a false l).setWidth 32) ∧
          (∀ j, ((k.bank first).alloc = false ∨ ∀ l, l < 128 → (c.guardMask h).getLsbD l = true → word l ≠ j) →
            ((v.core c.core).bank first).word j = (k.bank first).word j) ∧
          Completes s (.accw h sym b sw a) c h i (Cx.setWv { c with s := v } (c.metUnalloc (!(k.bank first).alloc))) {})))

/-- DRAIN and PDRAIN complete by entering the engine queue with their operands read, or trap on range or ownership. Where no
FENCE holds the wave: a destination tile past its symbol traps REGBOUND, otherwise an allocated bank of another group traps
BANDOWN naming the first one, otherwise 255 issues on the tag wait, otherwise exec answers a next state with the operation at
the end of the core's engine queue, its origin and its amax pointer or count read, and the tag counted. No register or byte of
memory changes. (R278; R279; R138; R135; R137; R71) -/
def Obligations.DrainsEnterTheQueue : Prop :=
  ∀ s h dst hn acc b tag (mode : BitVec 8 ⊕ (Bool × Rm × Bool × Option (Level × BitVec 8))) c, c.fenced 2 = false →
    c.core < s.cores.length →
    let k : Instr := match mode with
      | .inl sn => .pdrain h dst sn hn acc b tag
      | .inr (w2, md, fz, amx) => .drain h dst w2 md fz amx hn acc b tag
    let banks : Nat := match mode with
      | .inl _ => 2
      | .inr (w2, _, _, _) => 1 + w2.toNat
    let i : Info := match mode with
      | .inl sn => drainInfo dst hn acc b 2 tag [rdS sn 1] pdrainClass none s
      | .inr (w2, _, _, amx) => drainInfo dst hn acc b (1 + w2.toNat) tag (amx.elim [] fun a => [rdS a.2 1]) drainClass (amx.map (·.1)) s
    let l := lowestLane (c.guardMask h)
    let arg : DWord := match mode with
      | .inl sn => c.scl sn l
      | .inr (_, _, _, amx) => amx.elim 0 fun a => c.scl a.2 l
    let v := s.settlePath c.ref 2
    let e := c.ctx.entry hn.toNat
    let origin := match dst with
      | .mem _ so => (List.range ((entRank e + 1) / 2)).map fun j => c.scl (so + BitVec.ofNat 8 j) l
      | .sc _ _ _ => []
    let past : Prop := match dst with
      | .sc sym queue seg => c.segCount queue sym.toNat < seg.toNat + 6
      | .mem _ _ => False
    let foreign (n : Nat) : Prop :=
      ((s.core c.core).bank (c.bankAt acc.toNat + b.toNat + n)).alloc = true ∧
      ((s.core c.core).bank (c.bankAt acc.toNat + b.toNat + n)).owner ≠ c.waveGroup acc.toNat
    CanIssue s c h i →
      (past → ∃ t, t.cls = 7 ∧ t.cause = 5 ∧ t.lanes = c.guardMask h ∧ Traps s k c v t) ∧
      (∀ n, ¬ past → n < banks → foreign n → (∀ j, j < n → ¬ foreign j) →
        Traps s k c v { laneTrap tBandOwn 0 (BitVec.ofNat 64 ((b.toNat + n) * 2 ^ 16 + acc.toNat)) (c.guardMask h) with
          symKind := kAcc, sym := acc.toNat, offset := BitVec.ofNat 64 (2048 * (b.toNat + n)), punit := b.toNat + n }) ∧
      (¬ past → (∀ n, n < banks → ¬ foreign n) →
        ((∃ t, c.blk.tag? tag.toNat = some t ∧ 255 ≤ t.count) → Waits s k c v .retry) ∧
        ((∀ t, c.blk.tag? tag.toNat = some t → t.count < 255) →
          ∃ x op, Completes s k c h i x {} ∧ x = { c with s := x.s, blk := x.blk } ∧ TagIssued c.blk x.blk tag.toNat ∧
            x.s = { v with stamp := s.stamp + 1, cores := x.s.cores } ∧ (∀ n, n ≠ c.core → x.s.core n = s.core n) ∧
            x.s.core c.core = { s.core c.core with engine := (s.core c.core).engine ++ [op] } ∧
            op.op = k ∧ op.wave = c.ref ∧ op.pc = c.g.pc ∧ op.origin = origin ∧ op.arg = arg ∧ op.flagsTo = c.raisesFor ∧ op.entryA = e))

namespace Sys2Proof.Machine

/-! ### The tensor table, special registers and the trap frame (spec/15) -/

def tdefInfo (a : BitVec 8) : Info := { len := 16, uni := true, ops := [rdS a 8], badReg := decide (248 < a.toNat) }

def srrInfo (d : VS) (sr : BitVec 8) : Info :=
  { len := 8, ops := srrOpds d ((srWidth sr).getD .w32), badSr := (srWidth sr).isNone
    badReg := (match d with
      | .s n => (srWidth sr).getD .w32 == .mask && n == 255
      | .v _ => false) }

def srwInfo (sr b : BitVec 8) : Info := { len := 8, uni := true, ops := [rdS b 1], badSr := sr != 0x07 && sr != 0x08 }

end Sys2Proof.Machine

/-- TDEF writes one entry whole, in the loaded table and in memory; TQRY reads a word of an entry or its validity. Where no
FENCE holds the wave, TDEF answers a next state in which entry h of the context's table is the eight scalars from s(a) on, every
other entry as before, and the 64 bytes of memory at TTBASE + 64 h hold the same eight words; every other byte of memory is as
before where writes are neither tracked nor snapshotted. TQRY completes with word i of the entry, or for i = 8 with 1 where the
entry is valid and 0 where it is not. (R59; R63; R280; R281) -/
def Obligations.TensorTableResults : Prop :=
  ∀ s h hn c,
    (∀ a, CanIssue s c h (tdefInfo a) → c.fenced 0 = false → s.memOk → s.plainWrites →
      let e := (List.range 8).map fun i => c.scl (a + BitVec.ofNat 8 i) (lowestLane (c.guardMask h))
      let at_ := c.ctx.ttBase + 64 * BitVec.toNat hn
      ∃ x, Completes s (.tdef h hn a) c h (tdefInfo a) x {} ∧ x = { c with s := x.s } ∧
        (∀ n, (x.s.ctx? c.ctx.tenant c.ctx.num).map (·.entry n) =
          (s.ctx? c.ctx.tenant c.ctx.num).map fun y => if n = hn.toNat then e else y.entry n) ∧
        x.s.hostMem = s.hostMem ∧ x.s.peerMem = s.peerMem ∧
        Words s.mem x.s.mem ((List.range 8).map fun i => (at_ + 8 * i, e.getD i 0))) ∧
    (∀ d (i : BitVec 4), CanIssue s c h { len := 16, uni := true, ops := [wrS d 1] } →
      Completes s (.tqry h d hn i) c h { len := 16, uni := true, ops := [wrS d 1] } c
        { scalar := fun m => if m = d.toNat then some
            (if i.toNat < 8 then (c.ctx.entry hn.toNat).getD i.toNat 0 else if entValid (c.ctx.entry hn.toNat) then 1 else 0)
          else none })

/-- SRR completes with the value of the special register, SRW with the write R96 and R108 allow. SRR of each register of R95
answers a next state with its value per lane, or the lowest lane's in a scalar: work identifier, lane, W, wave, core, cycle
counter, tag bits, status, fstat, and in a handler the trap registers, zero outside one. Only sr.cycle changes other state: the
core's counter has risen by a free amount. SRR sr.status waits for the wave's drains. SRW clears the written bits of UNALLOC,
REBOUND and RESUMED in status, and sets fstat's six flags. (R95; R96; R282; R283; R284; R108) -/
def Obligations.SpecialRegisterResults : Prop :=
  ∀ s h c,
    (∀ d sr, CanIssue s c h (srrInfo d sr) →
      let f (n l : Nat) : DWord := match n with
        | 0x00 => c.lch.hdr.wid c.blk.rank (128 * c.ref.wave + l)
        | 0x01 => BitVec.ofNat 64 l
        | 0x02 => 128
        | 0x03 => BitVec.ofNat 64 c.ref.wave
        | 0x04 => BitVec.ofNat 64 c.core
        | 0x06 => c.tagWord
        | 0x07 => c.wv.status
        | 0x08 => c.wv.regs.fstat.setWidth 64
        | 0x16 => if (c.wv.frame.elim 0 fun f => f.trap.mask).getLsbD l then 1 else 0
        | n => c.wv.frame.elim 0 fun f => match n with
          | 0x10 => f.trap.info.trapc
          | 0x11 => f.trap.pc
          | n => BitVec.ofNat 64 (f.trap.inst / 2 ^ (32 * (n - 0x12)) % 2 ^ 32)
      let e (v : Nat → DWord) : RegEffect := match d with
        | .s n =>
          if sr = 0x16 then
            { scalar := fun m => if m = n.toNat + 1 then some ((c.wv.frame.elim 0 fun f => f.trap.mask).extractLsb' 64 64)
                                 else if m = n.toNat then some ((c.wv.frame.elim 0 fun f => f.trap.mask).extractLsb' 0 64) else none }
          else .dst (.s n) (c.guardMask h) v
        | .v n => .dst (.v n ((srWidth sr).getD .w32 == .w64)) (c.guardMask h) v
      (sr ≠ 0x05 → sr ≠ 0x07 ∨ c.drains = false → Completes s (.srr h d sr) c h (srrInfo d sr) c (e (f sr.toNat))) ∧
      (sr = 0x07 → c.drains = true → Waits s (.srr h d sr) c s .retry) ∧
      (sr = 0x05 → c.core < s.cores.length → ∃ v, v = { s with fresh := s.fresh + 1, cores := v.cores } ∧
        (∀ n, n ≠ c.core → v.core n = s.core n) ∧
        v.core c.core = { s.core c.core with cycle := (s.core c.core).cycle + BitVec.ofNat 64 (Config.freeNat s.fresh) } ∧
        Completes s (.srr h d sr) c h (srrInfo d sr) { c with s := v } (e fun _ => (v.core c.core).cycle))) ∧
    (∀ sr b, CanIssue s c h (srwInfo sr b) →
      let x := c.scl b (lowestLane (c.guardMask h))
      (sr = 0x07 → Completes s (.srw h sr b) c h (srwInfo sr b) (c.setWv { c.wv with status := c.wv.status &&& ~~~(x &&& 7) }) {}) ∧
      (sr = 0x08 → ∃ u, exec (.srw h sr b) s = .next u ∧ RegsOnly s u c.ref ∧ (u.regs c.ref).fstat = x.extractLsb' 0 6 ∧
        PcAre c u (fun _ => ptrAdd c.g.pc 8) ∧ (∀ n l, (u.regs c.ref).lane n l = c.wv.regs.lane n l) ∧
        (∀ n, (u.regs c.ref).scalar n = c.wv.regs.scalar n) ∧ ∀ n, (u.regs c.ref).pred n = c.wv.regs.pred n))

namespace Sys2Proof.Machine

def xrdInfo (sp : XSpace) (d : BitVec 12) (n : XNum) : Info := { len := 12, ops := xnumOpds n ++ xrdOpds sp d }

def xwrInfo (sp : XSpace) (n : XNum) (b : BitVec 12) : Info :=
  { len := 12, ops := xnumOpds n ++ xwrOpds sp b
    lastB := (match sp with
      | .v => regsOf b false
      | .v64 => regsOf b true
      | _ => []) }

def rttInfo (a : BitVec 8) : Info := { len := 8, uni := true, ops := [rdS a 1] }

/-- The wave after its handler returns (R287): the interrupted registers, held threads and meeting registers, the other groups, and the
trapping lanes that have not exited as one group at a PC. -/
def Cx.returned (c : Cx) (f : Frame) (pc : DWord) (stamp : Nat) : Wave :=
  Wave.meet { c.wv with frame := none, regs := f.regs, held := f.held, mr := f.mr, pend := []
                        groups := f.groups ++ [{ lanes := f.trap.mask &&& c.wv.alive, pc := pc, last := stamp }] }

end Sys2Proof.Machine

/-- XRD, XWR and RTT complete in a handler and act on the interrupted state; outside a handler they trap NOFRAME. In a handler
XRD gives the interrupted register of the number, with its unwritten tags, a lane, scalar or predicate beyond the register files
reading as unwritten or zero; XWR writes it, an out-of-range number discarded; RTT ends the handler: the window returns to the
pool, registers and groups are the interrupted ones, and the trapping lanes go on at sr.trappc plus 4 times bits [4:2] of the
scalar, RTT.br at a target, which is ALIGN off a 64-byte block; the flags of operations that the handler issued and that run on
go to nobody. Outside a handler all four trap NOFRAME in the active lanes. (R285; R286; R287; R310; R311) -/
def Obligations.TrapFrameResults : Prop :=
  ∀ s h c,
    let num (n : XNum) : Nat := match n with
      | .imm k => k.toNat
      | .scl a => (c.scl a (lowestLane (c.guardMask h))).toNat % 4096
    (c.wv.frame = none →
      let t := laneTrap tIllop 0x0F 0 (c.guardMask h)
      (∀ sp d n, CanIssue s c h (xrdInfo sp d n) → Traps s (.xrd h sp d n) c s t) ∧
      (∀ sp n b, CanIssue s c h (xwrInfo sp n b) → Traps s (.xwr h sp n b) c s t) ∧
      (∀ a, CanIssue s c h (rttInfo a) → Traps s (.rtt h a) c s t ∧ Traps s (.rttBr h a) c s t)) ∧
    (∀ f, c.wv.frame = some f →
      (∀ d n, CanIssue s c h (xrdInfo .v d n) → c.regWorn (c.guardMask h) false [num n] = 0 →
        c.regsSick false (c.absent false [num n]) = false → Completes s (.xrd h .v d n) c h (xrdInfo .v d n) c
        (.tagged d false fun l => (if num n < f.regs.nv then f.regs.lane (num n) l else none, none))) ∧
      (∀ d n, CanIssue s c h (xrdInfo .v64 d n) → c.regWorn (c.guardMask h) false [num n / 2 * 2, num n / 2 * 2 + 1] = 0 →
        c.regsSick false (c.absent false [num n / 2 * 2, num n / 2 * 2 + 1]) = false →
        Completes s (.xrd h .v64 d n) c h (xrdInfo .v64 d n) c
        (.tagged d true fun l =>
          let k := num n / 2 * 2
          if k + 1 < f.regs.nv then (f.regs.lane k l, f.regs.lane (k + 1) l) else (none, none))) ∧
      (∀ d n, CanIssue s c h (xrdInfo .s d n) → Completes s (.xrd h .s d n) c h (xrdInfo .s d n) c
        { scalar := fun m => if m = d.toNat % 256 then some (if num n < 256 then f.regs.scalar (num n) else 0) else none }) ∧
      (∀ d n, CanIssue s c h (xrdInfo .p d n) → Completes s (.xrd h .p d n) c h (xrdInfo .p d n) c
        (.predicate c.wv.regs (d.extractLsb' 0 3) false (c.guardMask h) fun l =>
          if num n < 8 then (f.regs.pred (num n)).getLsbD l else false)) ∧
      (∀ sp n b, CanIssue s c h (xwrInfo sp n b) → ∃ r, Completes s (.xwr h sp n b) c h (xwrInfo sp n b)
          (c.setWv { c.wv with frame := some { f with regs := r } }) {} ∧
        let e : RegEffect := match sp with
          | .v => if num n < f.regs.nv then
              { lane := fun m l => if m = num n then some (c.wv.regs.lane b.toNat l) else none } else {}
          | .v64 =>
            let k := num n / 2 * 2
            if k + 1 < f.regs.nv then
              { lane := fun m l => if m = k then some (c.wv.regs.lane b.toNat l)
                                   else if m = k + 1 then some (c.wv.regs.lane (b.toNat + 1) l) else none } else {}
          | .s => if num n < 256 then
              { scalar := fun m => if m = num n then some (c.scl (b.extractLsb' 0 8) (lowestLane (c.guardMask h))) else none } else {}
          | .p => if num n < 7 then
              { pred := fun m => if m = num n then some ((f.regs.pred m &&& ~~~(c.guardMask h)) |||
                  (c.wv.regs.pred (b.extractLsb' 0 3).toNat &&& c.guardMask h)) else none } else {}
        e.Holds f.regs r [] (c.guardMask h)) ∧
      (∀ a, CanIssue s c h (rttInfo a) →
        let left (x : FlagsTo) : FlagsTo := if x = .handler then .nobody else x
        let ends (k : Instr) (pc : DWord) : Prop := ∃ u b b', exec k s = .next u ∧
          u.wave c.ref = { c.returned f pc (s.stamp + 1) with issuedAt := s.stamp + 1, yielded := h.y } ∧ SameMemory s u ∧
          (∀ l r, (l, r) ≠ (c.ref.lid, c.ref.rank) → u.block? l r = s.block? l r) ∧
          s.block? c.ref.lid c.ref.rank = some b ∧ u.block? c.ref.lid c.ref.rank = some b' ∧
          b' = { b with waves := b'.waves, tricks := b'.tricks } ∧ b'.waves.length = b.waves.length ∧
          (∀ n, n ≠ c.ref.wave → b'.wave n = b.wave n) ∧
          b'.tricks = b.tricks.map (fun t => { t with op := t.op.map fun y => if y.1 = c.ref.wave then (y.1, left y.2.1, y.2.2) else y }) ∧
          u = { s with stamp := s.stamp + 1, blocks := u.blocks, ctxs := u.ctxs, cores := u.cores, jobs := u.jobs } ∧
          u.jobs = s.jobs.map (fun j => if j.wave = some c.ref then { j with flagsTo := left j.flagsTo } else j) ∧
          u.cores = s.cores.map (fun k => { k with engine := k.engine.map fun o =>
            if o.wave = c.ref then { o with flagsTo := left o.flagsTo } else o }) ∧
          u.ctxs = s.ctxs.map fun x => if x.tenant = c.ctx.tenant ∧ x.num = c.ctx.num then
            { c.ctx with pool := c.ctx.pool.filter fun r => r.1 != f.window } else x
        let n := ((c.scl a (lowestLane (c.guardMask h))).extractLsb' 2 3).toNat
        let target := c.scl a (lowestLane (c.guardMask h))
        ends (.rtt h a) (ptrAdd f.trap.pc ((4 * n : Nat) : Int)) ∧
        (target.toNat % 64 = 0 → ends (.rttBr h a) target) ∧
        (target.toNat % 64 ≠ 0 → Traps s (.rttBr h a) c s (laneTrap tAlign 0 (infoLine target) (c.guardMask h)))))

namespace Sys2Proof.Machine

/-! ### Rules of every instruction (spec/17, spec/04) -/

/-- The meaning of every instruction of the ISA is an issue: checks, guard, a body. -/
def Issues (s : State) (h : Hdr) (i : Info) (body : Cx → Mask → Res) (u : State) : Prop := issue h i body s = .next u

/-- No check at decode stops the instruction. -/
def Cx.decodes (c : Cx) (i : Info) : Prop :=
  i.badReg = false ∧ (∀ o ∈ i.ops, o.kind = .v → o.num + o.n ≤ c.wv.regs.nv ∧ (o.n = 2 → o.num % 2 = 0)) ∧ i.badSr = false ∧
  (∀ y ∈ i.syms, c.symOk y.1 y.2.1 y.2.2.1 y.2.2.2 = true) ∧ c.levelBad i.level = false ∧
  c.levelBad i.level2 = false ∧ i.handle c = none

end Sys2Proof.Machine

/-- Checks stop an instruction in the order of R307, a trapping one has no other effect, and one without an active lane only
goes on. For every instruction, whatever its body does: with the checking scoreboard on, the first failing check of BADREG,
BADSR, BADSYM, BADLEVEL and BADHANDLE is the trap; then a pending guard traps STALLCHK in all lanes of the group; then, with an
active lane, a pending operand does so in the active ones; then, where the launch checks it, an unwritten source of arithmetic
traps UNINIT. With all checks passed and no guard true the next state differs only in the group's place and what is pending.
(R193; R307; R189; R94; R182) -/
def Obligations.TrapsComeInOrder : Prop :=
  ∀ (s : State) (h : Hdr) (i : Info) (body : Cx → Mask → Res) (c : Cx), s.cx? = some c → c.lch.hdr.scb = true →
    let act := c.guardMask h
    let traps (t : TrapInfo) : Prop := Issues s h i body (c.takeTrap t).close
    let regs : Prop := i.badReg = false ∧ ∀ o ∈ i.ops, o.kind = .v → o.num + o.n ≤ c.wv.regs.nv ∧ (o.n = 2 → o.num % 2 = 0)
    let syms : Prop := ∀ y ∈ i.syms, c.symOk y.1 y.2.1 y.2.2.1 y.2.2.2 = true
    (¬ regs → traps (plainTrap 1 0x08 0)) ∧
    (regs → i.badSr = true → traps (plainTrap 1 0x09 0)) ∧
    (regs → i.badSr = false → ¬ syms → traps (plainTrap 1 0x0A 0)) ∧
    (regs → i.badSr = false → syms → (c.levelBad i.level = true ∨ c.levelBad i.level2 = true) → traps (plainTrap 1 0x0B 0)) ∧
    (∀ n, regs → i.badSr = false → syms → c.levelBad i.level = false → c.levelBad i.level2 = false → i.handle c = some n → traps (plainTrap 5 0 n)) ∧
    (c.decodes i → c.hazards (guardOpd h) ≠ [] → ∃ t, t.cls = 4 ∧ t.lanes = c.g.lanes ∧ traps t) ∧
    (c.decodes i → c.hazards (guardOpd h) = [] → act ≠ 0 → (∃ o ∈ i.ops, c.hazards o ≠ []) →
      ∃ t, t.cls = 4 ∧ t.lanes = act ∧ traps t) ∧
    (c.decodes i → c.hazards (guardOpd h) = [] → act ≠ 0 → (∀ o ∈ i.ops, c.hazards o = []) → c.lch.hdr.unw = true →
      ∀ o ∈ i.ops, o.arith = true → ∀ l, l < 128 → act.getLsbD l = true → (∃ n ∈ o.regs, c.wv.regs.lane n l = none) →
      ∃ t, t.cls = 3 ∧ t.lanes ≠ 0 ∧ t.lanes &&& ~~~act = 0 ∧ traps t) ∧
    (c.decodes i → c.hazards (guardOpd h) = [] → act = 0 → ∃ u, Issues s h i body u ∧ RegsOnly s u c.ref ∧ u.regs c.ref = c.wv.regs ∧
      PcAre c u fun _ => ptrAdd c.g.pc i.len)

/-- With the checking scoreboard off, a register with a result on its way reads, lane by lane, as that result or as a value
before it. For every instruction: a lane of a vector register is read as it stands, or, where a pending result covers the lane
and still owes separation, as the value before that result; likewise each lane of a predicate; a scalar reads in each lane as it
stands or as the value before a pending result. With the scoreboard on, or with nothing pending, every register reads as it
stands. (R187; R188; R189) -/
def Obligations.StallHazardsReadOldOrNew : Prop :=
  ∀ (s : State) (c : Cx) (h : Hdr) (i : Info), s.cx? = some c →
    let v := c.look h i
    (∀ n l, l < 128 → v.rv.lane n l = c.wv.regs.lane n l ∨
      ∃ e ∈ c.wv.pend, e.kind = .v ∧ e.num = n ∧ 0 < e.left ∧ e.lanes.getLsbD l = true ∧ v.rv.lane n l = e.oldRow.getD l none) ∧
    (∀ n l, n < 8 → l < 128 → (v.rv.pred n).getLsbD l = (c.wv.regs.pred n).getLsbD l ∨
      ∃ e ∈ c.wv.pend, e.kind = .p ∧ e.num = n ∧ 0 < e.left ∧ e.lanes.getLsbD l = true ∧ (v.rv.pred n).getLsbD l = e.oldBits.getLsbD l) ∧
    (∀ n l, l < 128 → v.scl n l = c.wv.regs.scalar n.toNat ∨
      ∃ e ∈ c.wv.pend, e.kind = .s ∧ e.num = n.toNat ∧ 0 < e.left ∧ e.lanes.getLsbD l = true ∧ v.scl n l = e.oldBits.setWidth 64) ∧
    (c.lch.hdr.scb = true ∨ (∀ e ∈ c.wv.pend, e.left = 0) → v = c)

/-- A step whose move is the issue of a group runs exec of the instruction that the bytes at its PC decode to, and then keeps
the hand. When the first move of the agenda is the issue of a group that may issue, the line at its PC stands in the core's
instruction cache, or among those that the wave runs on from after a PAGEINVAL, and its bytes decode to i, then step is exec of
i at the state with that group selected, its wait ended and the move taken; after the instruction no group is selected, the
register cache and the pipe's hand are kept, and waves that have become ready in the stock are noted. When the first move is an
event, step is exec of it, and that note. (R296; R170; R180; R26) -/
def Obligations.StepRunsDecodedInstruction : Prop :=
  (∀ (s : State) (ref : WaveRef) (grp : Nat) (rest : List Move) (c : Cx) (l : CoreLine) (i : Instr),
    s.agenda = .issue ref grp :: rest → State.issuer { s with agenda := rest } ref grp = some c →
    c.atLine.ownLine = some l →
    decodeAt (32 - c.g.pc.toNat % 32) (l.data.toNat / 2 ^ (8 * lineOff c.g.pc) % 2 ^ (8 * min 16 (32 - c.g.pc.toNat % 32))) = .ok i →
    let sel : Sel :=
      { ref := ref, grp := grp, inst := l.data.toNat / 2 ^ (8 * lineOff c.g.pc) % 2 ^ (8 * min 16 (32 - c.g.pc.toNat % 32)) }
    ∀ t, exec i { c.atLine.close with sel := some sel } = .next t →
      step s = .next (State.noteReady { s with agenda := rest } (t.issuedBy ref (State.l1Missed s t c.core)))) ∧
  (∀ (s : State) (i : Instr) (rest : List Move), s.agenda = .event i :: rest →
    match exec i { s with agenda := rest, sel := none } with
    | .next t => step s = .next (State.noteReady { s with agenda := rest } t)
    | o => step s = o)

/-- After package reset nothing runs, every core is clean with its cycle counter at 0, and every port is down. State.reset has
no context, kernel, launch, block, job or cached line and nothing to send, memory lists nothing and is in canonical form; each
of the 288 cores has its cycle counter at 0, no engine operation and nothing in its caches; each of the 8 ports has far end
0xFF, no lanes, state 0 and both counters 0; the discovery table reports 24 columns of 864 banks and 12,800 MiB and 300 regions
in service, as on a part without failures (log 6). (R6; R12; R351) -/
def Obligations.ResetLeavesTheSpecState : Prop :=
  State.reset.memOk ∧ State.reset.shapeOk ∧ State.reset.ctxs = [] ∧ State.reset.kernels = [] ∧ State.reset.launches = [] ∧
  State.reset.blocks = [] ∧ State.reset.jobs = [] ∧ State.reset.l2 = [] ∧ State.reset.tlb = [] ∧ State.reset.mem = [] ∧
  State.reset.walkCache = [] ∧ State.reset.deckLines = [] ∧ State.reset.poison = [] ∧ State.reset.checks = [] ∧
  State.reset.heldPackets = [] ∧ State.reset.out = [] ∧
  (∀ k ∈ State.reset.cores, k.cycle = 0 ∧ k.engine = [] ∧ k.l1 = [] ∧ k.icache = [] ∧ k.regCache = []) ∧
  (∀ p ∈ State.reset.ports, p.far = 0xFF ∧ p.lanes = 0 ∧ p.state = 0 ∧ p.replays = 0 ∧ p.retrains = 0) ∧
  (∀ c ∈ State.reset.pkg.columns, c.banks = 864 ∧ c.spare = 0 ∧ c.failed = 0 ∧ c.mainMib = 12800) ∧
  State.reset.pkg.regionsInService = 300 ∧ step State.reset = .next State.reset

/-- The encodings that the manual works out decode to their instructions, and a reserved one is refused. The bytes that the
manual writes out for IADD (form S, and form I guarded, with a last use, .sat and the yield hint), FFMA, FADD.x2, PCMP, PCOS,
ICMP, LRED, SHFL, BRA, COMMIT.X, XRD, RTT, CPYR, FENCE and TWALL decode to exactly those instructions with those operands; a
word of zeros with a reserved length is refused. (R182; R184; R186; R209; R218; R282; R285; R253; R164) -/
def Obligations.WorkedEncodingsDecode : Prop :=
  let p7 : Hdr := { gn := false, gp := 7, stall := 0, y := false, da := false, db := false, dc := false }
  decode 32 [0x04, 0x10, 0x0E, 0x05, 0x50, 0x00, 0x02, 0x60] = .ok (.iadd { p7 with stall := 1 } .n32 false (.s 5 5 2)) ∧
  decode 32 [0x09, 0x20, 0x33, 0x07, 0x30, 0x00, 0x00, 0xA0, 0xFB, 0xFF, 0xFF, 0xFF] =
    .ok (.iadd { p7 with gn := true, gp := 1, stall := 2, y := true, da := true } .i32 true (.i 7 3 (-5))) ∧
  decode 32 [0xA2, 0x46, 0x35, 0x0C, 0xA0, 0x00, 0x0B, 0xC0, 0, 0, 0, 0, 0, 0, 0, 0] =
    .ok (.ffma { p7 with gn := true, gp := 2, stall := 4, y := true, da := true } .f32 .rn false false (.vec 12 (.v 10) (.v 11) (.v 12))) ∧
  decode 32 [0x20, 0x04, 0x0E, 0x04, 0x20, 0x00, 0x03, 0x80] = .ok (.fadd p7 .bf16 .rn false true (.v 4 2 3)) ∧
  decode 32 [0x70, 0x07, 0x0E, 0x09, 0x20, 0x00, 0x03, 0x00] = .ok (.pcmp p7 .p16 .lead 1 (.v 2 3)) ∧
  decode 32 [0xA5, 0x07, 0x0E, 0x06, 0x50, 0x00, 0x00, 0x00, 0x21, 0x00, 0x00, 0x00] = .ok (.pcos p7 .rn false .bf16 .p16 6 5) ∧
  decode 32 [0xD9, 0x00, 0x0E, 0x11, 0x10, 0x00, 0x00, 0x60, 0x08, 0x00, 0x00, 0x00] = .ok (.icmp p7 .lt .n32 1 (.i 1 8)) ∧
  decode 32 [0x51, 0x02, 0x02, 0x12, 0x00, 0x01, 0x00, 0x20, 0x06, 0x00, 0x00, 0x00] =
    .ok (.lred { p7 with gp := 1 } .max (.int .n32) .rn 18 16) ∧
  decode 32 [0x49, 0x02, 0x28, 0x15, 0x30, 0x01, 0x00, 0x00, 0x04, 0x00, 0x00, 0x00] =
    .ok (.shfl { p7 with gp := 4, da := true } .idx 21 19 (.i 4)) ∧
  decode 32 [0x09, 0x02, 0x0E, 0x00, 0x00, 0x00, 0x00, 0x00, 0xE0, 0xFF, 0xFF, 0xFF] = .ok (.bra p7 (-32)) ∧
  decode 32 [0x44, 0x08, 0x10, 0x0E, 0x00, 0x00, 0x00, 0x10] = .ok (.commitX { p7 with gp := 0, gn := true } .b 14) ∧
  decode 32 [0x11, 0x0E, 0x0E, 0x04, 0x30, 0x00, 0x00, 0x40, 0x00, 0x00, 0x00, 0x00] = .ok (.xrd p7 .v 4 (.scl 3)) ∧
  decode 32 [0x20, 0x0E, 0x0E, 0x00, 0x30, 0x00, 0x00, 0x00] = .ok (.rtt p7 3) ∧
  decode 32 [0x0E, 0x0A, 0x0E, 0x06, 0x40, 0x00, 0x05, 0x00, 0, 0, 0, 0, 0, 0, 0, 0] = .ok (.cpyr p7 6 4 (.s 5) 0) ∧
  decode 32 [0xE0, 0x08, 0x0E, 0x21, 0x00, 0x00, 0x00, 0x00] = .ok (.fence p7 1 2) ∧
  decode 32 [0x26, 0x0A, 0x0E, 0x00, 0, 0, 0, 0, 0, 0, 0, 0, 0, 0, 0, 0] = .ok (.twall p7 { n1 := 0, slots := 0 }) ∧
  (decode 32 [0x07, 0x10, 0x0E, 0x05, 0x50, 0x00, 0x02, 0x60]).isOk = false

/-- Decoding the encoded bytes of any well-formed instruction of the ISA gives that instruction back, with every operand at
every value. For every well-formed instruction: its encoding is 8, 12 or 16 bytes (none for the events and commands, which no
instruction stream holds), and wherever those bytes fit the rest of their 32-byte unit, decoding them, whatever bytes follow,
gives the instruction back. No field of any operand, type, mode, guard, stall count or last-use bit is dropped. (R179; R181;
R182; R183; R184; R185; R186) -/
def Obligations.DecodeOfEncodeIsTheInstruction : Prop :=
  ∀ (i : Instr) (room : Nat) (after : List Byte), i.wf = true → encode i ≠ [] →
    (encode i).length ∈ [8, 12, 16] ∧ ((encode i).length ≤ room → decode room (encode i ++ after) = .ok i)

/-- Every step keeps the three memories in canonical form: addresses rising, and no entry equal to what an unlisted address
reads as. From every state, reachable or not, in which the package's memory, the host's and the peers' are in canonical form,
whatever step does (an instruction of any group, an event, a queue command, a rejected entry), if it answers a next state the
three memories are in canonical form there. So equal contents are equal data, and reading a byte after a write gives the byte
written. The form is the model's own (log 2); what the writes are, the cited rules say. (R33; R144; R145; R316) -/
def Obligations.StepKeepsMemoryCanonical : Prop :=
  ∀ s t : State, s.memOk → step s = .next t → t.memOk

namespace Sys2Proof.Machine

/-! ### Queue commands (spec/18) -/

/-- A command with its source, whether it is a package command, and its opcode (R329). -/
def commandIn : Instr → Option (CmdSrc × Bool × Nat)
  | .copy c .. => some (c, false, 0x02)
  | .ctxcreate c .. => some (c, false, 0x03)
  | .ctxdestroy c .. => some (c, false, 0x04)
  | .share c .. => some (c, false, 0x05)
  | .reginval c .. => some (c, false, 0x06)
  | .pageinval c .. => some (c, false, 0x07)
  | .handleinval c .. => some (c, false, 0x08)
  | .dirtyrc c .. => some (c, false, 0x09)
  | .faultresume c .. => some (c, false, 0x0A)
  | .faultfail c .. => some (c, false, 0x0B)
  | .debughalt c .. => some (c, false, 0x0C)
  | .debugwrite c .. => some (c, false, 0x0D)
  | .debugresume c .. => some (c, false, 0x0E)
  | .keyset c .. => some (c, false, 0x10)
  | .precopy c .. => some (c, false, 0x11)
  | .restore c .. => some (c, false, 0x12)
  | .trackset c .. => some (c, false, 0x13)
  | .partition c .. => some (c, true, 0x40)
  | .regionretire c .. => some (c, true, 0x41)
  | .linkretrain c .. => some (c, true, 0x42)
  | .fwupdate c .. => some (c, true, 0x43)
  | .attest c .. => some (c, true, 0x44)
  | _ => none

/-- A tenant's command that may be taken, and one of the package function. -/
def TenantTakes (s : State) (c : CmdSrc) : Prop := (s.cmdQueue c.fn c.q).mayTake = true ∧ c.fn ≠ 16

def PackageTakes (s : State) (c : CmdSrc) : Prop := (s.cmdQueue c.fn c.q).mayTake = true ∧ c.fn = 16

/-- The command completes with an error code and a result, and with `v` for its effect. -/
def Finishes (s : State) (k : Instr) (c : CmdSrc) (opc err result : Nat) (v : State) : Prop :=
  exec k s = .next (v.complete c opc err result)

/-- No tenant's dirty bitmap holds the byte at an address. -/
def State.noBitmap (s : State) (a : Nat) : Prop :=
  ∀ t ∈ s.tenants, ∀ base size, t.track = some (base, size) → a < base ∨ base + size ≤ a

/-- A line of L2 without its sharer bits and its poison. -/
def L2Line.bare (l : L2Line) : L2Line := { l with sharers := 0, poisoned := false }

/-- Bytes written into local memory: no other byte changes but in dirty bitmaps; of the lines that L2 holds only near copies go, and no line
becomes poisoned but one whose check value does not hold (R38, R44). -/
def BytesPut (v u : State) (a : Nat) (bs : List Byte) : Prop :=
  u = { v with mem := u.mem, poison := u.poison, checks := u.checks, l2 := u.l2 } ∧
  u.l2.map L2Line.bare = v.l2.map L2Line.bare ∧
  (∀ x, u.poisoned x = true → v.poisoned x = true ∨ v.mismatch x = true) ∧
  (∀ i, i < bs.length → memRead u.mem (a + i) = bs.getD i 0) ∧
  (∀ x, (x < a ∨ a + bs.length ≤ x) → v.noBitmap x → memRead u.mem x = memRead v.mem x)

/-- Bytes written through a ring pointer, to host memory or to local memory (R327; log 21). -/
def RingPut (v u : State) (p : DWord) (bs : List Byte) : Prop :=
  if Config.ringInHost p = true then
    u = { v with hostMem := u.hostMem } ∧ (∀ i, i < bs.length → memRead u.hostMem (p.toNat + i) = bs.getD i 0) ∧
    (∀ x, (x < p.toNat ∨ p.toNat + bs.length ≤ x) → memRead u.hostMem x = memRead v.hostMem x)
  else BytesPut v u (p.toNat % 2 ^ 52) bs

/-- Only a tenant's queues, or the package's, differ, and of those only one. -/
def OneQueue (s t : State) (fn q : Nat) : Prop :=
  t = { s with pkg := { s.pkg with queue := t.pkg.queue }, tenants := t.tenants } ∧
  (∀ n, t.tenant n = { s.tenant n with queues := (t.tenant n).queues }) ∧
  ∀ f n, ¬(f = fn ∧ (f = 16 ∨ n = q)) → t.cmdQueue f n = s.cmdQueue f n

end Sys2Proof.Machine

/-- A command is taken from its queue's head, and completes with its record, the completion tail moved on and its MSI-X sent.
For all 22 commands but LAUNCH: where the queue is off, is empty or carries out a command, nothing happens; a tenant command in
the package queue, or a package command in a tenant's, completes with BADCMD and has no other effect. Taking an entry moves the
head on and holds the queue, and changes nothing else. Completing writes SEQ, opcode and error, result and 0 at CBASE + 32 x
completion tail, moves that tail on modulo the ring, and sends vector q of the function (0 for the package's); nothing else
changes but dirty bitmaps. (R328; R329; R330; R362; R332) -/
def Obligations.CommandsCompleteWithRecords : Prop :=
  (∀ k c pkg opc, commandIn k = some (c, pkg, opc) → ∀ s,
    let q := s.cmdQueue c.fn c.q
    ((q.qctl.getLsbD 0 = false ∨ q.busy = true ∨ q.qhead = q.qtail) → exec k s = .next s) ∧
    (q.qctl.getLsbD 0 = true → q.busy = false → q.qhead ≠ q.qtail → ¬ (c.fn = 16 ↔ pkg = true) → Finishes s k c opc 1 0 (s.take c))) ∧
  (∀ (s : State) (c : CmdSrc), (s.cmdQueue c.fn c.q).mayTake = true →
    let q := s.cmdQueue c.fn c.q
    (s.take c).cmdQueue c.fn c.q = { q with qhead := BitVec.ofNat 64 ((q.qhead.toNat + 1) % q.size), busy := true } ∧
      OneQueue s (s.take c) c.fn c.q) ∧
  (∀ (s : State) (c : CmdSrc) (opc err result : Nat), s.memOk →
    (c.fn = 16 ∨ (c.fn < s.tenants.length ∧ c.q < (s.tenant c.fn).queues.length)) →
    let q := s.cmdQueue c.fn c.q
    let t := s.complete c opc err result
    let words : List DWord := [c.seq, BitVec.ofNat 64 (opc * 2 ^ 16 + err), BitVec.ofNat 64 result, 0]
    ∃ (bytes : List Byte) (r w : State), bytes.length = 32 ∧
      (∀ i j, i < 4 → j < 8 → bytes.getD (8 * i + j) 0 = (words.getD i 0).extractLsb' (8 * j) 8) ∧
      RingPut s r (BitVec.ofNat 64 (q.cbase.toNat + 32 * q.ctail.toNat)) bytes ∧ OneQueue r w c.fn c.q ∧
      (∃ b, w.cmdQueue c.fn c.q = { q with ctail := BitVec.ofNat 64 ((q.ctail.toNat + 1) % q.size), busy := b } ∧
        (b = true ↔ ∃ l ∈ s.launches, l.src.fn = c.fn ∧ l.src.q = c.q)) ∧
      t = { w with out := w.out ++ [.msix (if c.fn = 16 then 0 else c.fn + 1) (if c.fn = 16 then 0 else c.q)] })

namespace Sys2Proof.Machine

/-- No resident block of a context is on a core outside its share or beyond its caps, and none is marked to move (R87). -/
def State.nothingToMove (s : State) (x : Ctx) : Prop :=
  s.outOfShare x = [] ∧ ∀ b ∈ s.blocks, s.ofCtx x.tenant x.num b = true → b.moveWanted = false

end Sys2Proof.Machine

/-- CTXCREATE, CTXDESTROY, SHARE and KEYSET complete with what R331, R84 and R340 give them. CTXCREATE loads the 16 descriptor
words; a number or ASID in use, a number from 4096, a misaligned pointer or a reserved bit is BADCMD. A new context has an empty
share and no ranges taken. CTXDESTROY removes an idle context; one with a launch, a COPY or a SHARE under way is BUSY (the
model's choice, log 14). SHARE sets cores, caps, pool and slice; it completes at once where no block must move, and otherwise
marks those that must. Slices below 65,536 or not in 32 bits, cores from 288, and caps that are not one for each core are
BADCMD. KEYSET loads 32 key bytes, and no stream has been used under it. (R331; R329; R84; R340; R87; R356) -/
def Obligations.ContextCommandResults : Prop :=
  ∀ s c, TenantTakes s c →
    let v := s.take c
    (∀ ctx (desc : DWord),
      let k : Instr := .ctxcreate c ctx desc
      let d (i : Nat) : DWord := mem64 s.mem (desc.toNat + 8 * i)
      let good : Prop := ctx < 4096 ∧ s.ctx? c.fn ctx = none ∧ (∀ y ∈ s.ctxs, y.tenant = c.fn → y.asid ≠ (d 0).toNat % 2 ^ 16) ∧
        desc.toNat % 128 = 0 ∧ (d 0).toNat < 2 ^ 16 ∧ (d 5).toNat < 2 ^ 16 ∧ ∀ i, 12 ≤ i → i < 16 → d i = 0
      (¬ good → Finishes s k c 0x03 1 0 v) ∧
      (good → ∃ x, Finishes s k c 0x03 0 0 { v with ctxs := x :: v.ctxs } ∧ x.tenant = c.fn ∧ x.num = ctx ∧ x.descAt = desc.toNat ∧
        (∀ i, i < 16 → x.word i = d i) ∧ x.hentry = d 8 ∧ x.h1 = d 9 ∧ x.poolBase = (d 6).toNat ∧ x.poolSize = (d 7).toNat ∧
        x.cores = [] ∧ x.pool = [] ∧ x.shadow = [] ∧ x.table = [] ∧ x.turn = false ∧ x.sharing = none)) ∧
    (∀ ctx,
      let k : Instr := .ctxdestroy c ctx
      let busy (x : Ctx) : Prop := (∃ l ∈ s.launches, l.src.fn = c.fn ∧ l.ctx = ctx) ∨ (∃ j ∈ s.jobs, j.tenant = c.fn ∧ j.ctx = ctx) ∨
        x.sharing ≠ none
      (s.ctx? c.fn ctx = none → Finishes s k c 0x04 1 0 v) ∧
      (∀ x, s.ctx? c.fn ctx = some x → busy x → Finishes s k c 0x04 9 0 v) ∧
      (∀ x, s.ctx? c.fn ctx = some x → ¬ busy x →
        ∃ w : State, w = { v with ctxs := w.ctxs } ∧ (∀ y, y ∈ w.ctxs ↔ y ∈ v.ctxs ∧ ¬ (y.tenant = c.fn ∧ y.num = ctx)) ∧
          Finishes s k c 0x04 0 0 (w.settleTurn c.fn))) ∧
    (∀ ctx (cores : List Nat) caps (base size : DWord) slice,
      let k : Instr := .share c ctx cores caps base size slice
      let good : Prop := 65536 ≤ slice ∧ slice < 2 ^ 32 ∧ (∀ n ∈ cores, n < 288) ∧ caps.length = cores.length
      (s.ctx? c.fn ctx = none → Finishes s k c 0x05 1 0 v) ∧
      (∀ x, s.ctx? c.fn ctx = some x →
        let y : Ctx := { x with cores := cores, caps := caps, poolBase := base.toNat, poolSize := size.toNat, slice := slice }
        let w := v.setCtx { y with sharing := some c }
        (¬ good → Finishes s k c 0x05 1 0 v) ∧
        (good → x.sharing ≠ none → exec k s = .next s) ∧
        (good → x.sharing = none → w.nothingToMove y →
          exec k s = .next (((v.setCtx { y with sharing := none }).complete c 0x05 0 0).settleTurn c.fn)) ∧
        (good → x.sharing = none → ¬ w.nothingToMove y → ∃ u z, exec k s = .next u ∧ u.ctx? c.fn ctx = some z ∧
          z = { y with sharing := some c, turn := z.turn, spent := z.spent, credit := z.credit, burst := z.burst } ∧
          ∀ b ∈ w.outOfShare y, ∃ b', u.block? b.lid b.rank = some b' ∧ b'.moveWanted = true))) ∧
    (∀ ptr : DWord, ∃ key : BitVec 256, (∀ i, i < 32 → key.extractLsb' (8 * i) 8 = (s.readRing ptr 32).getD i 0) ∧
      Finishes s (.keyset c ptr) c 0x10 0 0
        (v.setTenant c.fn { v.tenant c.fn with key := some key, sent := [], received := [] }))

namespace Sys2Proof.Machine

/-- Lines of an address space that satisfy p leave L2, the L1s and the instruction caches; dirty local ones are written back, with their
poison, which sets their frames' dirty bits; nothing else changes (R20, R26, R33, R39). -/
def LinesGone (v u : State) (t asid : Nat) (p : Nat → Prop) : Prop :=
  u = { v with l2 := u.l2, cores := u.cores, mem := u.mem, poison := u.poison, checks := u.checks } ∧
  (∀ stays : L2Line → Bool, (∀ l, stays l = true ↔ ¬ (l.phys = false ∧ l.tenant = t ∧ l.asid = asid ∧ p l.line)) →
    u.l2.map L2Line.bare = (v.l2.filter stays).map L2Line.bare) ∧
  u.cores.map (fun k => { k with l1 := [], icache := [] }) = v.cores.map (fun k => { k with l1 := [], icache := [] }) ∧
  (∀ n l, l ∈ (u.core n).l1 ↔ l ∈ (v.core n).l1 ∧ ¬ (l.tenant = t ∧ l.asid = asid ∧ p l.line)) ∧
  (∀ n l, l ∈ (u.core n).icache ↔ l ∈ (v.core n).icache ∧ ¬ (l.tenant = t ∧ l.asid = asid ∧ p l.line)) ∧
  (∀ a, v.noBitmap a → memRead u.mem a = memRead v.mem a) ∧
  (∀ l ∈ v.l2, l.phys = false → l.tenant = t → l.asid = asid → p l.line → l.dirty = true → l.owner = .loc → ∀ n base size b, v.regionTenant l.addr = some n →
    (v.tenant n).track = some (base, size) → v.frameBit n l.addr = some b → b / 8 < size → bitmapGet u.mem base b = true)

end Sys2Proof.Machine

/-- REGINVAL, PAGEINVAL, HANDLEINVAL, DIRTYRC and TRACKSET complete with what R20, R26, R281 and R34 give them. A context that
does not exist is BADCMD. REGINVAL drops every cached line of a region of the context's address space; PAGEINVAL of a page of 4
KiB, 64 KiB, 2 MiB or 1 GiB drops the translations that meet it, the address space's entries of the walk cache and the page's
lines, lets waves, copies and launches ask again that wait for its lines, and leaves each wave the instruction lines of the page
at which its groups stand; another size is BADCMD. HANDLEINVAL clears V of the handle in the loaded table and in memory, and no
other bit (where writes are neither tracked nor snapshotted). DIRTYRC returns bitmap words and clears them, so that later writes
to their frames set the bits again; TRACKSET sets or clears the bitmap's place; both refuse what does not fit. (R20; R26; R281;
R33; R34; R339) -/
def Obligations.InvalidationAndTrackingResults : Prop :=
  ∀ s c, TenantTakes s c → s.memOk →
    let v := s.take c
    (∀ n rid, (s.ctx? c.fn n = none → Finishes s (.reginval c n rid) c 0x06 1 0 v) ∧
      (∀ x, s.ctx? c.fn n = some x → ∃ u, LinesGone v u x.tenant x.asid (fun line => line / 2 ^ 50 % 256 = BitVec.toNat rid) ∧
        Finishes s (.reginval c n rid) c 0x06 0 0 u)) ∧
    (∀ n (va size : DWord),
      let k : Instr := .pageinval c n va size
      let sizeOk : Prop := size.toNat ∈ [2 ^ 12, 2 ^ 16, 2 ^ 21, 2 ^ 30]
      let a := va.toNat % 2 ^ 56
      let page := a / size.toNat
      let here (line : Nat) : Prop := 64 * (line % 2 ^ 50) / size.toNat = page
      (s.ctx? c.fn n = none ∨ ¬ sizeOk → Finishes s k c 0x07 1 0 v) ∧
      (∀ x, s.ctx? c.fn n = some x → sizeOk → ∃ (t u : State) (runs : Block → Wave → List CoreLine),
        t = { v with tlb := t.tlb, walkCache := t.walkCache, blocks := t.blocks } ∧
        (∀ e, e ∈ t.walkCache ↔ e ∈ v.walkCache ∧ ¬ (e.tenant = x.tenant ∧ e.asid = x.asid)) ∧
        t.blocks = (v.blocks.map fun b => { b with waves := b.waves.map fun w => { w with runOn := runs b w ++ w.runOn } }) ∧
        (∀ b w y, y ∈ runs b w ↔ y ∈ (v.core b.core).icache ∧ y.tenant = x.tenant ∧ y.asid = x.asid ∧ here y.line ∧
          ∃ g ∈ w.groups, lineNo g.pc = y.line) ∧
        (∀ e, e ∈ t.tlb ↔ e ∈ v.tlb ∧ ¬ (e.tenant = x.tenant ∧ e.asid = x.asid ∧ e.base < (page + 1) * size.toNat ∧
          page * size.toNat < e.base + 2 ^ e.log)) ∧
        LinesGone t u x.tenant x.asid here ∧ Finishes s k c 0x07 0 0 (u.freePage x a size.toNat) ∧
        (u.heldPackets = [] → u.jobs = [] → (∀ p ∈ u.ports, p.state = 0 → p.buffer = []) →
          let freed (b : Block) (n : Nat) (wv : Wave) : Wave :=
            let asks (line : Nat) : Bool := u.ofCtx x.tenant x.num b && decide (64 * (line % 2 ^ 50) / size.toNat = page)
            match wv.wait with
            | some (.forward line _) => if asks line then { wv with wait := none } else wv
            | some (.link line) => if asks line then { wv with wait := none } else wv
            | some (.waitv op inst grp prio last (some line)) =>
              if asks line then { wv with wait := some (.waitv op inst grp prio last none) } else wv
            | some .acks => if u.awaitsAck { lid := b.lid, rank := b.rank, wave := n } = true then wv else { wv with wait := none }
            | _ => wv
          u.freePage x a size.toNat = { u with
            blocks := u.blocks.map (fun b => { b with waves := b.waves.zipIdx.map fun y => freed b y.2 y.1 })
            launches := u.launches.map fun l => if l.src.fn = x.tenant ∧ l.ctx = x.num then
              { l with asked := l.asked.filter fun n => decide (64 * (n % 2 ^ 50) / size.toNat ≠ page) } else l }))) ∧
    (∀ n hn, (s.ctx? c.fn n = none → Finishes s (.handleinval c n hn) c 0x08 1 0 v) ∧
      (∀ x, s.ctx? c.fn n = some x → s.plainWrites → ∃ (u : State) (y : Ctx), Finishes s (.handleinval c n hn) c 0x08 0 0 u ∧ u.ctx? c.fn n = some y ∧
        y = { x with table := y.table } ∧
        (∀ i w, entW (y.table.getD i []) w =
          if i = BitVec.toNat hn ∧ w = 0 then ((entW (x.table.getD i []) 0).extractLsb' 0 63).setWidth 64 else entW (x.table.getD i []) w) ∧
        (∀ i, i < 64 → memRead u.mem (x.ttBase + 64 * hn.toNat + i) =
          if i = 7 then memRead s.mem (x.ttBase + 64 * hn.toNat + i) &&& 0x7F else memRead s.mem (x.ttBase + 64 * hn.toNat + i)) ∧
        (∀ a, (a < x.ttBase + 64 * hn.toNat ∨ x.ttBase + 64 * hn.toNat + 64 ≤ a) → memRead u.mem a = memRead s.mem a) ∧
        u.hostMem = s.hostMem ∧ u.blocks = s.blocks ∧ u.jobs = s.jobs)) ∧
    (∀ first count dst : DWord,
      let k : Instr := .dirtyrc c first count dst
      ((s.tenant c.fn).track = none → Finishes s k c 0x09 1 0 v) ∧
      (∀ base size, (s.tenant c.fn).track = some (base, size) →
        (size / 8 < first.toNat + count.toNat → Finishes s k c 0x09 1 0 v) ∧
        (first.toNat + count.toNat ≤ size / 8 → ∃ (w u : State) (bits : List Byte),
          w = { v with mem := w.mem, l2 := w.l2, checks := w.checks, poison := w.poison } ∧
          (∀ a, memRead w.mem a = if base + 8 * first.toNat ≤ a ∧ a < base + 8 * (first.toNat + count.toNat) then 0 else memRead s.mem a) ∧
          w.l2.map (fun l => { l.bare with reported := false }) = s.l2.map (fun l => { l.bare with reported := false }) ∧
          (∀ l ∈ w.l2, l.owner = .loc → ∀ b, s.frameBit c.fn l.addr = some b → 64 * first.toNat ≤ b →
            b < 64 * (first.toNat + count.toNat) → l.reported = false) ∧
          bits.length = 8 * count.toNat ∧ (∀ i, i < bits.length → bits.getD i 0 = memRead s.mem (base + 8 * first.toNat + i)) ∧
          RingPut w u dst bits ∧ Finishes s k c 0x09 0 count.toNat u))) ∧
    (∀ ptr size : DWord,
      let k : Instr := .trackset c ptr size
      let set (v : State) (x : Option (Nat × Nat)) : State := v.setTenant c.fn { v.tenant c.fn with track := x }
      (ptr = 0 → Finishes s k c 0x13 0 0 (set v none)) ∧
      (ptr ≠ 0 → (ptr.toNat % 4096 ≠ 0 ∨ size.toNat < 32768 * (s.tenant c.fn).regions.length) → Finishes s k c 0x13 1 0 v) ∧
      (ptr ≠ 0 → ptr.toNat % 4096 = 0 → 32768 * (s.tenant c.fn).regions.length ≤ size.toNat → ∃ l2,
        Finishes s k c 0x13 0 0 { set v (some (ptr.toNat, size.toNat)) with l2 := l2 } ∧
        l2.map (fun l => { l with reported := false }) = s.l2.map (fun l => { l with reported := false }) ∧
        (∀ l ∈ l2, l.owner = .loc → (∃ b, s.frameBit c.fn l.addr = some b) → l.reported = false)))

namespace Sys2Proof.Machine

/-- A block with its new contents; every other block is as before. -/
def BlockNow (v u : State) (b : Block) : Prop :=
  (∀ l r, u.block? l r = if l = b.lid ∧ r = b.rank then some b else v.block? l r) ∧ u = { v with blocks := u.blocks, jobs := u.jobs }

/-- A launch has ended with an error (R314): its blocks, gangs, copies and engine operations are gone, every L1 is empty, and L2 holds the
lines it held. -/
def LaunchEnded (v u : State) (l : Launch) (err : Nat) : Prop :=
  u.launches = v.launches.map (fun x => if x.lid = l.lid then { l with state := .ended err } else x) ∧
  (∀ b, b ∈ u.blocks ↔ b ∈ v.blocks ∧ b.lid ≠ l.lid) ∧ (∀ g, g ∈ u.gangs ↔ g ∈ v.gangs ∧ g.lid ≠ l.lid) ∧
  (∀ j, j ∈ u.jobs ↔ j ∈ v.jobs ∧ ∀ w, j.wave = some w → w.lid ≠ l.lid) ∧
  (∀ n, (u.core n).l1 = [] ∧ ∀ o, o ∈ (u.core n).engine ↔ o ∈ (v.core n).engine ∧ o.wave.lid ≠ l.lid) ∧
  (∀ n, (u.core n).segs = (v.core n).segs ∧ (u.core n).banks = (v.core n).banks) ∧
  u.l2.map L2Line.bare = v.l2.map L2Line.bare ∧ u.peerMem = v.peerMem

end Sys2Proof.Machine

/-- FAULTRESUME, FAULTFAIL, DEBUGHALT, DEBUGWRITE and DEBUGRESUME serve what they name, and BADCMD where nothing is in the state
they need. A COPY stopped on a fault goes on where it stopped, or completes with ERROR 0x17. A block swapped out on a fault may
return (a retired one's copies go on), or its launch ends with 0x17. DEBUGHALT halts a block off its core at once and a resident
one with its deck written; where a copy holds it the block issues nothing more and the command waits. DEBUGWRITE puts bytes into
a halted block's deck, within it; what the deck's header and shadow logs then hold, the block holds. DEBUGRESUME takes the
registers of waves outside a handler from the deck, ends the halt, and lets a group go on whose BKPT had halted the block.
Blocks are named by queue, SEQ and rank. What names nothing completes with BADCMD. (R316; R318; R362; R363; R314; R357) -/
def Obligations.FaultServiceAndDebugResults : Prop :=
  ∀ s c, TenantTakes s c → s.memOk →
    let v := s.take c
    (∀ (seq blk : DWord) q,
      let k : Instr := .faultresume c seq blk q
      let kf : Instr := .faultfail c seq blk q
      let copy := s.stoppedCopy c.fn q seq blk
      let named := s.namedBlock c.fn q seq blk fun _ b => b.faulted && b.place != .resident
      (copy = none → named = none → Finishes s k c 0x0A 1 0 v ∧ Finishes s kf c 0x0B 1 0 v) ∧
      (∀ j, copy = some j → Finishes s k c 0x0A 0 0 (v.setJob { j with stop := none, told := false }) ∧
        ∀ src, j.cmd = some src → ∃ w : State, w = { v with jobs := w.jobs } ∧ (∀ x, x ∈ w.jobs ↔ x ∈ v.jobs ∧ x.id ≠ j.id) ∧
          Finishes s kf c 0x0B 0 0 (w.complete src 0x02 0x17 0)) ∧
      (∀ l b, copy = none → named = some (l, b) →
        (∃ w : State, BlockNow v w { b with faulted := false } ∧ Finishes s k c 0x0A 0 0 (w.settleTurn c.fn) ∧
          (b.place ≠ .retired → w.jobs = v.jobs) ∧
          (b.place = .retired → w.jobs = v.jobs.map fun j => if j.ofBlock b then { j with stop := none, told := false } else j)) ∧
        ∃ u : State, LaunchEnded v u l 0x17 ∧ Finishes s kf c 0x0B 0 0 u)) ∧
    (∀ (seq blk : DWord) q,
      let k : Instr := .debughalt c seq ⟨blk, q⟩
      let named := s.namedBlock c.fn q seq blk fun l b => l.state == .running && b.place != .retired && !b.halted
      (named = none → Finishes s k c 0x0C 1 0 v) ∧
      (∀ l b, named = some (l, b) → b.place ≠ .resident → ∃ w : State, BlockNow v w { b with halted := true } ∧ w.jobs = v.jobs ∧
        Finishes s k c 0x0C 0 0 w) ∧
      (∀ l b, named = some (l, b) → b.place = .resident →
        (v.haltBlock b = none → ∃ w : State, BlockNow s w { b with leaving := true } ∧ w.jobs = s.jobs ∧ exec k s = .next w) ∧
        (∀ w, v.haltBlock b = some w → Finishes s k c 0x0C 0 0 w ∧ ∃ b', w.block? b.lid b.rank = some b' ∧ b'.halted = true ∧ b'.leaving = false ∧
          ∀ x ∈ b'.waves, x.pend = []))) ∧
    (∀ (seq blk off src len : DWord) q,
      let k : Instr := .debugwrite c seq ⟨blk, q⟩ off src len
      let named := s.namedBlock c.fn q seq blk fun _ b => b.halted
      (named = none → Finishes s k c 0x0D 1 0 v) ∧
      (∀ l b, named = some (l, b) →
        (b.deckSize < off.toNat + len.toNat → Finishes s k c 0x0D 1 0 v) ∧
        (off.toNat + len.toNat ≤ b.deckSize → ∃ (w u : State) (b' : Block),
          BytesPut ((v.writeHeader b).writeLogs b l.hdr.nv) w (b.deck + off.toNat)
            (State.readRing ((v.writeHeader b).writeLogs b l.hdr.nv) src len.toNat) ∧
          u = { w with blocks := u.blocks, gangs := u.gangs } ∧ u.block? b.lid b.rank = some b' ∧ b'.halted = true ∧
          b'.waves.map (fun y => { y with buf := [] }) = b.waves.map (fun y => { y with buf := [] }) ∧
          b'.buf = b.buf.map (fun y => match y.log with
            | some (rank, wave) => if rank = b.rank ∧ y.saved = false then { y with data := memLine w.mem (logLineAt b l.hdr.nv wave y.slot) } else y
            | none => y) ∧
          Finishes s k c 0x0D 0 0 u))) ∧
    (∀ (seq blk : DWord) q,
      let k : Instr := .debugresume c seq ⟨blk, q⟩
      let named := s.namedBlock c.fn q seq blk fun _ b => b.halted
      (named = none → Finishes s k c 0x0E 1 0 v) ∧
      (∀ l b, named = some (l, b) → ∃ (w : State) (b' : Block), Finishes s k c 0x0E 0 0 (w.settleTurn c.fn) ∧ w.block? b.lid b.rank = some b' ∧
        b'.halted = false ∧ b'.atBkpt = false ∧ b'.place = b.place ∧ b'.waves.length = b.waves.length ∧
        ∀ n, n < b.waves.length →
          let nv := (s.launch? b.lid).elim 0 (·.hdr.nv)
          let a := b.deck + 4096 + n * waveStride nv
          let r := (b'.wave n).regs
          (b.atBkpt = true → (b'.wave n).fate ≠ some .halt) ∧
          (b.atBkpt = false → v.deckSick b = false → (b'.wave n).fate = (b.wave n).fate) ∧
          ((b.wave n).frame = none →
            (∀ i, i < 256 → r.scalar i = mem64 s.mem (a + 0x800 + 8 * i)) ∧
            (∀ p, p < 7 → r.pred p = BitVec.ofNat 128 (memNat s.mem (a + 0x1000 + 16 * p) 16)) ∧
            ∀ m i, m < nv → i < 128 → r.lane m i =
              if (memNat s.mem (a + 0x2000 + 512 * nv + 16 * m) 16).testBit i then none
              else some (BitVec.ofNat 32 (memNat s.mem (a + 0x2000 + 512 * m + 4 * i) 4)))))

namespace Sys2Proof.Machine

/-- The frame of a tenant's region is sent as it stands at D, its dirty bit cleared first; a poisoned frame ends the round (R341, R34,
R39). -/
def FramesGo (r : Round) : State → List (Nat × Nat) → Nat → State → Nat → Bool → Prop
  | s, [], n, u, m, failed => u = s ∧ m = n ∧ failed = false
  | s, f :: fs, n, u, m, failed =>
    let w := s.clearFrame r.t f
    let a := s.frameAddr r.t f
    if w.poisonIn a 4096 then u = w ∧ m = n ∧ failed = true
    else FramesGo r { w with out := w.out ++ [.message r.port r.peer
      (sealMessage r.key r.stream n r.num 0 f.1 f.2 (memBytes w.mem a 4096))] } fs (n + 1) u m failed

end Sys2Proof.Machine

/-- COPY, PRECOPY and RESTORE do what R362, R341 and R342 say, and a received message lands its frame or is dropped and counted.
COPY without a context, or of a length beyond 40 bits, is BADCMD and without an engine NOCOPYENG; else a linear copy at D
begins, done at once where empty. PRECOPY needs a key, an owned port, a kind 0 or 1 and, for 1, tracking; a used stream is
REUSE; it sends all frames or the dirty ones in ascending order, each bit cleared before the frame is read, then the records;
its result counts the frames, and poison is UCE. RESTORE is AUTH after a failed stream, RESTOREFAIL with nothing installed (with
fewer regions than the source's, too), or installs every known record. A message whose tag fails or whose counter was seen is
dropped and counted; else its frame lands at D. (R362; R57; R341; R340; R342; R38) -/
def Obligations.CopyAndMigrationResults : Prop :=
  (∀ s c, TenantTakes s c →
    let v := s.take c
    let t := s.tenant c.fn
    (∀ dst src len : DWord,
      let k : Instr := .copy c dst src len
      let x := (s.cmdQueue c.fn c.q).ctx
      let n := len.toNat
      ((s.ctx? c.fn x = none ∨ 2 ^ 40 ≤ n) → Finishes s k c 0x02 1 0 v) ∧
      (s.ctx? c.fn x ≠ none → n < 2 ^ 40 → t.own.engines = 0 → Finishes s k c 0x02 4 0 v) ∧
      (s.ctx? c.fn x ≠ none → n < 2 ^ 40 → t.own.engines ≠ 0 → ∃ (j : Job) (w : State), j.id = s.stamp + 1 ∧ j.cmd = some c ∧ j.wave = none ∧ j.tenant = c.fn ∧ j.ctx = x ∧
        j.row = 0 ∧ j.stop = none ∧ j.after = [] ∧ j.kind = .linear .d dst src n (meets dst src n) false 0 0 ∧
        w = { v with stamp := s.stamp + 1, jobs := s.jobs ++ [j] } ∧
        (w.job? j.id = some j → 0 < n → exec k s = .next w) ∧
        (w.job? j.id = some j → n = 0 → w.outstanding j.id = false → ∃ z : State, z = { w with jobs := z.jobs } ∧
          (∀ y, y ∈ z.jobs ↔ y ∈ w.jobs ∧ y.id ≠ j.id) ∧ exec k s = .next (z.complete c 0x02 0 0)))) ∧
    (∀ port (peer : DWord) stream kind (recs len : DWord),
      let k : Instr := .precopy c port peer stream kind recs len
      let bad : Prop := t.key = none ∨ 4 ≤ port ∨ t.own.ports.getLsbD (8 + port) = false ∨ 2 ≤ kind ∨ (kind = 1 ∧ t.track = none)
      let used : Prop := ∃ x ∈ t.sent, x.num = stream
      (bad → Finishes s k c 0x11 1 0 v) ∧ (¬ bad → used → Finishes s k c 0x11 0xC 0 v) ∧
      (∀ key, t.key = some key → ¬ bad → ¬ used →
        let r : Round := { t := c.fn, port := port, peer := peer, key := key, stream := stream, num := t.round }
        let todo := if kind = 0 then s.frames c.fn else (s.frames c.fn).filter (s.frameDirty c.fn)
        ∃ (u : State) (n : Nat) (failed : Bool) (z : State), FramesGo r v todo 0 u n failed ∧
          z = (if failed || recs == 0 then u else u.sendRecords r (u.readRing recs len.toNat) n) ∧
          Finishes s k c 0x11 (if failed then 6 else 0) n (z.setTenant c.fn
            { z.tenant c.fn with round := (z.tenant c.fn).round + 1,
                                 sent := { num := stream, counter := n, seen := [], failed := failed, records := [] } :: (z.tenant c.fn).sent })) ∧
      (∀ f, f ∈ s.frames c.fn ↔ f.1 < t.regions.length ∧ f.2 % 4096 = 0 ∧ f.2 < 2 ^ 30)) ∧
    (∀ ptr len : DWord,
      let k : Instr := .restore c ptr len
      let bs := s.readRing ptr len.toNat
      let known (r : Tlv) : Prop := 0x101 ≤ r.type ∧ r.type ≤ 0x107 ∧ r.version ≤ 1
      ((∃ x ∈ t.received, x.failed = true) → Finishes s k c 0x12 0xB 0 v) ∧
      ((∀ x ∈ t.received, x.failed = false) →
        (cutRecords bs.length bs = none → Finishes s k c 0x12 0xA 0 v) ∧
        (∀ rs, cutRecords bs.length bs = some rs →
          ((∃ r ∈ rs, r.req = true ∧ ¬ known r) ∨ t.regions.length < Config.sourceRegions bs → Finishes s k c 0x12 0xA 0 v) ∧
          ((∀ r ∈ rs, r.req = true → known r) → Config.sourceRegions bs ≤ t.regions.length →
            (v.restoreAll c.fn bs rs none = none → Finishes s k c 0x12 0xA 0 v) ∧
            (∀ u, v.restoreAll c.fn bs rs none = some u → Finishes s k c 0x12 0 0 (u.settleTurn c.fn)))) ∧
        (∀ (u : State) r rs cur, ¬ known r → u.restoreAll c.fn bs (r :: rs) cur = u.restoreAll c.fn bs rs cur)))) ∧
  (∀ s tenant port (m : UeMessage), tenant < 16 → (s.tenant tenant).own.ports.getLsbD (8 + port) = true →
    let k : Instr := .ueMessageReceive tenant port m
    let t := s.tenant tenant
    let x := streamOf t.received m.stream
    let n := m.counter.toNat
    let opened := t.key.bind fun key => gcmOpen (natBytes 32 key.toNat) (nonceOf m.stream n) m.aad m.sealed m.tag
    let field (i : Nat) : Nat := bytesLe 4 fun j => m.aad.getD (i + j) 0
    let got : State := s.setTenant tenant
      { t with received := putStream t.received { x with seen := n :: x.seen, counter := max x.counter (n + 1) } }
    ((opened = none ∨ n ∈ x.seen) → exec k s = .next (s.setTenant tenant
      { t with dropped := t.dropped + 1, received := putStream t.received { x with failed := true } })) ∧
    (∀ payload, opened = some payload → n ∉ x.seen → m.aad.length = 32 → field 16 = 0 →
      (∀ r, t.regions[field 20]? = some r → field 24 + payload.length ≤ 2 ^ 30 →
        exec k s = .next (got.putPhys tenant (r * 2 ^ 30 + field 24) payload) ∧
        (s.memOk → s.plainWrites → (r * 2 ^ 30 + field 24) % 64 = 0 → ∀ a,
          memRead (got.putPhys tenant (r * 2 ^ 30 + field 24) payload).mem a =
            if r * 2 ^ 30 + field 24 ≤ a ∧ a < r * 2 ^ 30 + field 24 + payload.length then payload.getD (a - (r * 2 ^ 30 + field 24)) 0
            else memRead s.mem a)) ∧
      ((t.regions[field 20]? = none ∨ 2 ^ 30 < field 24 + payload.length) → exec k s = .next got)) ∧
    (∀ payload, opened = some payload → n ∉ x.seen → m.aad.length = 32 → field 16 ≠ 0 → 
      let y : Stream := { x with seen := n :: x.seen, counter := max x.counter (n + 1), records := (n, payload) :: x.records }
      exec k s = .next (s.setTenant tenant { t with received := putStream t.received y })))

namespace Sys2Proof.Machine

/-- Ownership after PARTITION: the tenant gains what is named, every other loses it (R334). -/
def ownAfter (heir : Option Nat) (r : Resources) (n : Nat) (own : Resources) : Resources :=
  if heir = some n then
    { clusters := own.clusters ||| r.clusters, slices := own.slices ||| r.slices, channels := own.channels ||| r.channels,
      engines := own.engines ||| r.engines, ports := own.ports ||| r.ports }
  else
    { clusters := own.clusters &&& ~~~r.clusters, slices := own.slices &&& ~~~r.slices, channels := own.channels &&& ~~~r.channels,
      engines := own.engines &&& ~~~r.engines, ports := own.ports &&& ~~~r.ports }

def State.column (s : State) (n : Nat) : Column := s.pkg.columns.getD n Column.reset

end Sys2Proof.Machine

/-- PARTITION, REGIONRETIRE, LINKRETRAIN, FWUPDATE, ATTEST and IDE key management have the effects of R334, R16, R338, R343 and
R344. PARTITION to no tenant below 16 nor 0xFF is BADCMD; with two owners, or a leaving channel that carries a region in
service, BUSY; while blocks or scrubs hold it, it waits; otherwise ownership moves, what tenants lose is to be scrubbed, and a
tenant whose slices change has no line left in L2. REGIONRETIRE of a region in service takes it out and makes its 64 banks
spare. LINKRETRAIN trains a port below 8 on the widest set of lanes that lock. FWUPDATE installs a signed image of the minimum
version, else AUTH. ATTEST writes its report. An IDE key replaces its stream's. (R334; R55; R56; R16; R338; R343; R344; R42) -/
def Obligations.PackageCommandResults : Prop :=
  (∀ s c, PackageTakes s c →
    let v := s.take c
    (∀ (tenant : Nat) (r : Resources),
      let k : Instr := .partition c tenant r
      let heir := if tenant < 16 then some tenant else none
      let owners := (List.range 16).filter fun n => n != heir.getD 16 && Resources.meet (s.tenant n).own r != Resources.none
      let named : Prop := tenant < 16 ∨ tenant = 0xFF
      let busy : Prop := 1 < owners.length ∨ ∃ n ∈ owners, ∃ m ∈ (s.tenant n).regions, ∃ x ∈ s.pkg.regions, x.num = m ∧ x.inService = true ∧
        x.channels &&& ((s.tenant n).own.channels &&& r.channels) ≠ 0
      (¬ named → Finishes s k c 0x40 1 0 v) ∧ (named → busy → Finishes s k c 0x40 9 0 v) ∧
      (named → ¬ busy → s.partitionHeld heir r = true → exec k s = .next s) ∧
      (named → ¬ busy → s.partitionHeld heir r = false → 16 ≤ s.tenants.length → ∃ u : State, Finishes s k c 0x40 0 0 u ∧
        (∀ n, n < 16 → (u.tenant n).own = ownAfter heir r n (s.tenant n).own) ∧
        (∀ i, u.pkg.scrubCluster.getLsbD i = true ↔ s.pkg.scrubCluster.getLsbD i = true ∨ ∃ n, n < 16 ∧ heir ≠ some n ∧
          (s.tenant n).own.clusters.getLsbD i = true ∧ r.clusters.getLsbD i = true) ∧
        (∀ i, u.pkg.scrubSlice.getLsbD i = true ↔ s.pkg.scrubSlice.getLsbD i = true ∨ ∃ n, n < 16 ∧ heir ≠ some n ∧
          (s.tenant n).own.slices.getLsbD i = true ∧ r.slices.getLsbD i = true) ∧
        (∀ n, n < 16 → (u.tenant n).own.slices ≠ (s.tenant n).own.slices → ∀ l ∈ u.l2, l.tenant ≠ n) ∧
        (∀ l ∈ u.l2, ∃ y ∈ s.l2, y.bare = l.bare) ∧ u.hostMem = s.hostMem ∧ (s.memOk → ∀ a, s.noBitmap a → memRead u.mem a = memRead s.mem a))) ∧
    (∀ region,
      let k : Instr := .regionretire c region
      let r? := s.pkg.regions.find? fun x => x.num == region
      ((∀ r, r? = some r → r.inService = false) → Finishes s k c 0x41 1 0 v) ∧
      (∀ r, r? = some r → r.inService = true → s.pkg.columns.length = 24 → ∃ u : State, Finishes s k c 0x41 0 0 u ∧
        u.pkg.regions = s.pkg.regions.map (fun x => if x.num = region then { r with inService := false, cursor := none, excluded := none } else x) ∧
        u.pkg.regionsInService = s.pkg.regionsInService - 1 ∧
        (∃ give : Nat → Nat, ((List.range 24).map give).sum = 64 ∧
          (∀ i, i < 24 → give i ≠ 0 → r.channels = 0 ∨ ∃ j, j < 4 ∧ r.channels.getLsbD (4 * i + j) = true) ∧
          ∀ i, i < 24 → u.column i = Column.capacity { s.column i with spare := (s.column i).spare + give i }) ∧
        (∀ n, s.tenants.findIdx? (fun t => t.regions.contains region) = some n →
          (u.tenant n).track = none ∧ (u.tenant n).regions = (s.tenant n).regions.filter (· != region)) ∧
        u.mem = s.mem)) ∧
    (∀ (port : Nat) (locks : BitVec 16) (ack : BitVec 12),
      let k : Instr := .linkretrain c port locks ack
      (8 ≤ port → Finishes s k c 0x42 1 0 v) ∧
      (port < 8 → ∃ lanes : BitVec 16, lanes ∈ [0xFFFF, 0x00FF, 0xFF00, 0x000F, 0x00F0, 0x0F00, 0xF000, 0] ∧ lanes &&& locks = lanes ∧
        (∀ m : BitVec 16, m ∈ [0xFFFF, 0x00FF, 0xFF00, 0x000F, 0x00F0, 0x0F00, 0xF000] → m &&& locks = m →
          (bitsOf m).length ≤ (bitsOf lanes).length) ∧
        let w : State := if lanes = 0 then v else v.setPort port { v.port port with far := Config.farEnd port }
        Finishes s k c 0x42 0 0 (w.trained port lanes ack))) ∧
    (∀ ptr len : DWord,
      let image := s.readRing ptr len.toNat
      let ok : Prop := Config.firmwareSigned image = true ∧ Config.fusedMinimum ≤ Config.firmwareVersion image
      (ok → Finishes s (.fwupdate c ptr len) c 0x43 0 0 { v with pkg := { v.pkg with firmware := image } }) ∧
      (¬ ok → Finishes s (.fwupdate c ptr len) c 0x43 0xB 0 v)) ∧
    (∀ nonce dst : DWord, s.memOk → ∃ u, RingPut v u dst (Config.attestReport (s.readRing nonce 32) s.pkg.firmware
        (s.tenants.flatMap fun t => [t.own.clusters.toNat, t.own.slices.toNat, t.own.channels.toNat, t.own.engines.toNat, t.own.ports.toNat])
        (s.pkg.ideKeys.map (·.1))) ∧
      Finishes s (.attest c nonce dst) c 0x44 0 0 u)) ∧
  (∀ s stream key, ∃ ks, exec (.ideKeyManagement stream key) s = .next { s with pkg := { s.pkg with ideKeys := ks } } ∧
    ∀ n, (ks.find? fun x => x.1 == n) = if n = stream then some (stream, key) else s.pkg.ideKeys.find? fun x => x.1 == n)

namespace Sys2Proof.Machine

/-! ### Launches and blocks (spec/16) -/

/-- The launch ends with an error before it has run; `t` holds what went before. -/
def EndsUnbegun (s : State) (k : Instr) (l : Launch) (t : State) (err : Nat) : Prop :=
  exec k s = .next { t with launches := t.launches.map fun x => if x.lid = l.lid then { l with state := .ended err } else x }

/-- The launch begins (R293): it runs, its context's handler words and tensor table are those in memory, and no clean forwarded line of
the context is left in L2, nor a line of its address space in an L1. -/
def Begins (s : State) (k : Instr) (l : Launch) (c : Ctx) : Prop :=
  ∃ u m x, exec k s = .next u ∧ u.launch? l.lid = some m ∧ m.state = .running ∧ m.start = s.stamp + 1 ∧ m.nextUnit = 0 ∧ m.hdr = l.hdr ∧
    u.ctx? l.src.fn l.ctx = some x ∧ x.hentry = mem64 s.mem (c.descAt + 64) ∧ x.h1 = mem64 s.mem (c.descAt + 72) ∧
    (∀ h i, h < 256 → i < 8 → entW (x.table.getD h []) i = mem64 s.mem (c.ttBase + 64 * h + 8 * i)) ∧
    (∀ y ∈ u.l2, y.tenant = c.tenant → y.asid = c.asid → y.phys = false → y.owner = .loc) ∧
    (∀ n, ∀ y ∈ (u.core n).l1, ¬ (y.tenant = c.tenant ∧ y.asid = c.asid)) ∧ u.blocks = s.blocks ∧ (l.snap = false → u.mem = s.mem)

end Sys2Proof.Machine

/-- A launch is taken, checked in the order of R291, held or begun by its out-edge, passes its boundary and completes with its
record. LAUNCH is taken where its queue is enabled, not empty, and free or holding only launches past their boundary; in the
package queue it is BADCMD. LAUNCH_BEGIN gives the oldest one that has not begun BADCMD without a context, BADHDR for an unknown
entry, a bad header or bad handler words, NOFIT, NOCOPYENG, and BADEDGE for a misaligned or unconfigured out-edge; fewer free
slots than needed hold it, until FREE is read again; otherwise it begins, unless a slice of its tenant is being scrubbed.
KERNEL_BOUNDARY comes when all its units are placed and retired, and empties every L1. LAUNCH_COMPLETE writes the record once
all it started has settled, in queue order. (R293; R290; R291; R301; R309; R168; R59; R150) -/
def Obligations.LaunchesBeginAndComplete : Prop :=
  (∀ (s : State) c hdr,
    let k : Instr := .launch c hdr
    let q := s.cmdQueue c.fn c.q
    let mine (l : Launch) : Prop := l.src.fn = c.fn ∧ l.src.q = c.q
    let past (l : Launch) : Prop := l.state = .boundary ∨ ∃ e, l.state = .ended e
    let may : Prop := q.qctl.getLsbD 0 = true ∧ q.qhead ≠ q.qtail ∧
      (q.busy = false ∨ ((∃ l ∈ s.launches, mine l) ∧ ∀ l ∈ s.launches, mine l → past l))
    (¬ may → exec k s = .next s) ∧ (may → c.fn = 16 → Finishes s k c 0x01 1 0 (s.take c)) ∧
    (may → c.fn ≠ 16 → ∃ l, exec k s = .next { s.take c with stamp := s.stamp + 1, launches := s.launches ++ [l] } ∧
      l.lid = s.stamp + 1 ∧ l.src = c ∧ l.hdr = hdr ∧ l.ctx = (q.qctl.extractLsb' 20 12).toNat ∧ l.state = .taken ∧ l.replay = false ∧
      l.replays = 0 ∧ l.held = false ∧ l.snap = hdr.w0.getLsbD 3)) ∧
  (∀ (s : State) fn q,
    let k : Instr := .launchBegin fn q
    (s.nextLaunch fn q = none → exec k s = .next s) ∧ (∀ l, s.nextLaunch fn q = some l → s.launch? l.lid = some l →
      let own := (s.tenant l.src.fn).own
      ((l.held = true ∨ own.slices &&& s.pkg.scrubSlice ≠ 0) → exec k s = .next s) ∧
      (l.held = false → own.slices &&& s.pkg.scrubSlice = 0 → (s.ctx? l.src.fn l.ctx = none → EndsUnbegun s k l s 1) ∧
      ∀ c, s.ctx? l.src.fn l.ctx = some c →
        let words : Prop := handlerOk (mem64 s.mem (c.descAt + 64)) (mem64 s.mem (c.descAt + 72)) = true
        (s.kernel? l.hdr.entry = none → EndsUnbegun s k l s 2) ∧
        (∀ x, s.kernel? l.hdr.entry = some x →
          let hdr : Prop := l.hdr.ok x.nv = true ∧ words
          let fits : Prop := launchFits x l.hdr = true ∧ own.clusters ≠ 0 ∧ own.slices ≠ 0 ∧ own.channels ≠ 0
          let engine : Prop := x.usesCopy = true → own.engines ≠ 0
          let e := l.hdr.outEdge
          let taken := s.acquireS c
          (¬ hdr → EndsUnbegun s k l s 2) ∧ (hdr → ¬ fits → EndsUnbegun s k l s 3) ∧ (hdr → fits → ¬ engine → EndsUnbegun s k l s 4) ∧
          (hdr → fits → engine → (e = 0 → Begins s k l c) ∧ (e ≠ 0 → e.toNat % 64 ≠ 0 → EndsUnbegun s k l taken 5) ∧
            (e ≠ 0 → e.toNat % 64 = 0 → ∀ y, s.l2? c.tenant c.asid (lineNo e) = some y → y.rd = true → y.w = true → y.owner = .loc →
              s.mismatch y.addr = false →
              match edgeOf (memLine s.mem y.addr) with
              | none => EndsUnbegun s k l taken 5
              | some g => if g.free < l.hdr.need then exec k s = .next { s with
                  launches := s.launches.map fun x => if x.lid = l.lid then { l with held := true } else x }
                else Begins s k l c)))))) ∧
  (∀ (s : State) lid l, s.launch? lid = some l →
    let k : Instr := .kernelBoundary lid
    let at_ : Prop := l.state = .running ∧ l.nextUnit = l.hdr.blockCount / l.hdr.gangSize ∧ ∀ b ∈ s.blocks, b.lid = lid → b.place = .retired
    (¬ at_ → exec k s = .next s) ∧
    (at_ → exec k s = .next (State.settleTurn { s with
      launches := s.launches.map (fun x => if x.lid = lid then { l with state := .boundary } else x),
      cores := s.cores.map fun n => { n with l1 := [] } } l.src.fn))) ∧
  (∀ (s : State) lid l, s.launch? lid = some l →
    let k : Instr := .launchComplete lid
    let settled : Prop := (∀ j ∈ s.jobs, ∀ w, j.wave = some w → w.lid ≠ lid) ∧ (∀ n ∈ s.cores, ∀ o ∈ n.engine, o.wave.lid ≠ lid) ∧
      (∀ p ∈ s.ports, ∀ x ∈ p.buffer, x.lid ≠ some lid) ∧ ∀ h ∈ s.heldPackets, h.sent.lid ≠ some lid
    let first : Prop := ∃ x, (s.launches.find? fun y => y.src.fn == l.src.fn && y.src.q == l.src.q) = some x ∧ x.lid = lid
    ((l.state = .taken ∨ l.state = .running ∨ ¬ settled ∨ ¬ first) → exec k s = .next s) ∧
    (∀ e, ((l.state = .boundary ∧ e = 0) ∨ l.state = .ended e) → settled → first → ∃ w : State,
      exec k s = .next ((w.complete l.src 0x01 e 0).settleTurn l.src.fn) ∧
      w = { s with launches := s.launches.filter (fun x => x.lid != lid), blocks := s.blocks.filter (fun b => b.lid != lid),
                   gangs := s.gangs.filter (fun g => g.lid != lid), unsettled := s.unsettled.filter (fun y => y.wave.lid != lid),
                   ctxs := w.ctxs, mem := w.mem, poison := w.poison, checks := w.checks, l2 := w.l2 } ∧ w.l2.map L2Line.bare = s.l2.map L2Line.bare ∧
      (l.shadowMap = 0 → w.ctxs = s.ctxs ∧ w.mem = s.mem ∧ w.poison = s.poison ∧ w.checks = s.checks ∧ w.l2 = s.l2)))

namespace Sys2Proof.Machine

/-- The blocks of a unit stand on some of the named cores, the mark set in sr.status of every wave (R87, R305). -/
def Stand (u : State) (unit : List Block) (cores : List Nat) (mark : Nat) : Prop :=
  ∀ b ∈ unit, ∃ y, u.block? b.lid b.rank = some y ∧ y.place = .resident ∧ y.core ∈ cores ∧
    ∀ n, n < y.waves.length → (y.wave n).status.getLsbD mark = true

/-- A core of a context's share on which no block stands, and nothing of which is being scrubbed, has the units of a demand (R84 to R86,
R56). -/
def State.roomAt (s : State) (c : Ctx) (need : Caps) (core : Nat) : Prop :=
  core ∈ c.cores ∧ (s.tenant c.tenant).own.clusters.getLsbD (core / 12) = true ∧ s.pkg.scrubCluster.getLsbD (core / 12) = false ∧
  (s.tenant c.tenant).own.slices &&& s.pkg.scrubSlice = 0 ∧ need.le (c.capsOf core) = true ∧ need.le (coreCaps 12) = true ∧
  ∀ x ∈ s.blocks, x.place = .resident → x.core ≠ core

/-- Pipes of an empty core for so many waves: 32 at the most for each of the four (R295). -/
def PipesFit (waves : Nat) (pipes : List Nat) : Prop :=
  pipes.length = waves ∧ (∀ p ∈ pipes, p < 4) ∧ ∀ p, (pipes.filter (· == p)).length ≤ 32

/-- Nothing that a block has issued is under way: no copy, no matrix operation, no QGRANT, no FENCE and no acknowledgement (R89). -/
def State.quiet (s : State) (b : Block) : Prop :=
  s.jobs = [] ∧ (s.core b.core).engine = [] ∧ ∀ w ∈ b.waves, w.grant = none ∧ w.fences = [] ∧ w.wait ≠ some .acks

/-- A line of an address space that L2 holds readable, its check value right, and not poisoned. -/
def State.readable (s : State) (c : Ctx) (line : Nat) : Prop :=
  ∃ y, s.l2? c.tenant c.asid line = some y ∧ y.rd = true ∧
    (y.owner = .loc → s.poisoned y.addr = false ∧ s.mismatch y.addr = false) ∧
    (y.owner ≠ .loc → y.poisoned = false ∧ y.check = lineCheck y.data)

end Sys2Proof.Machine

/-- Units are placed, retire, stop at a slice's end, leave, return with RESUMED and move with REBOUND, and turns and the hand
pass on. BLOCK_PLACEMENT of an offered unit that fits makes its blocks: waves at the entry, registers unwritten, predicates
false, on cores of the share in one cluster; a lone block goes to any empty core of the share. BLOCK_RETIRE publishes at D,
empties the buffers and frees the deck. SLICE_END ends a slice of a burst where others have work; with the last one the blocks
are asked to stop, those of GRACE 0 at once. A unit leaves at GRACE_EXPIRY, no fault pending and no move under way, or is held
until it can; it returns at BLOCK_REENTRY in its context's turn and moves at BLOCK_MOVE; a window expires for a whole unit.
STOCK_PROMOTION exchanges a ready stock wave with the hand wave that entered first. The turn passes to the next context in
ascending number that has work, for one slice more than its credit. (R294; R90; R292; R302; R303; R304; R305; R87; R298; R355;
R89; R146) -/
def Obligations.BlocksArePlacedAndMoved : Prop :=
  (∀ (s : State) lid (cores pipes : List Nat) l c x, s.launch? lid = some l → s.ctx? l.src.fn l.ctx = some c → s.kernel? l.hdr.entry = some x →
    let k : Instr := .blockPlacement lid cores pipes
    let offered : Prop := l.state = .running ∧ l.nextUnit < l.hdr.blockCount / l.hdr.gangSize ∧
      (∀ b ∈ s.blocks, b.lid = lid → s.canReturn b = false) ∧ c.turn = true ∧ c.spent = false
    let args : Prop := ∀ line ∈ argLines l.hdr.args, s.readable c line
    (¬ offered → exec k s = .next s) ∧ (args → s.placeUnit l x c cores pipes = none → exec k s = .next s) ∧
    (∀ u, offered → args → s.placeUnit l x c cores pipes = some u →
      exec k s = .next u ∧ cores.length = l.hdr.gangSize ∧ (∀ n ∈ cores, n ∈ c.cores ∧ n / 12 = cores.headD 0 / 12) ∧
      u.launch? lid = some { l with nextUnit := l.nextUnit + 1 } ∧
      ((∀ i, i < l.hdr.gangSize → s.block? lid (l.nextUnit * l.hdr.gangSize + i) = none) → ∀ i, i < l.hdr.gangSize →
        ∃ b ∈ u.blocks, b.lid = lid ∧ b.rank = l.nextUnit * l.hdr.gangSize + i ∧ b.place = .resident ∧ some b.core = cores[i]? ∧
          b.waves.length = l.hdr.waveCount ∧ b.barsite = 0xFFFF ∧ b.buf = [] ∧ ∀ n, n < l.hdr.waveCount →
          let w := b.wave n
          (∀ t, t < 128 → w.present.getLsbD t = decide (128 * n + t < l.hdr.threads)) ∧ w.exited = 0 ∧ w.held = 0 ∧ w.buf = [] ∧
          w.groups = [{ lanes := w.present, pc := l.hdr.entry, last := 0 }] ∧ w.regs.nv = l.hdr.nv ∧ w.regs.fstat = 0 ∧
          (∀ r t, w.regs.lane r t = none) ∧ (∀ p, p < 7 → w.regs.pred p = 0) ∧ (∀ r, 32 ≤ r → w.regs.scalar r = 0) ∧
          w.winD = l.start ∧ w.winS = l.start ∧ w.status = if l.replay then 8 else 0)) ∧
    (∀ core, offered → args → cores = [core] → l.hdr.gangSize = 1 → s.roomAt c (needOf x l.hdr) core → PipesFit l.hdr.waveCount pipes →
      c.pool = [] → (deckBytes l.hdr.nv l.hdr.waveCount x.demand.segs x.demand.banks + 4095) / 4096 * 4096 ≤ c.poolSize →
      s.block? lid l.nextUnit = none → ∃ u b, exec k s = .next u ∧ u.block? lid l.nextUnit = some b ∧ b.place = .resident ∧ b.core = core)) ∧
  (∀ (s : State) (b : BlockRef) blk, s.block? b.lid b.rank = some blk →
    let k : Instr := .blockRetire b
    let done : Prop := blk.place = .resident ∧ blk.faulted = false ∧ blk.halted = false ∧ ∀ w ∈ blk.waves, w.retired = true
    (¬ done → exec k s = .next s) ∧
    (∀ c, done → (∀ o ∈ (s.core blk.core).engine, ¬ (o.wave.lid = blk.lid ∧ o.wave.rank = blk.rank)) →
      (∀ j ∈ s.jobs, j.ofBlock blk = false) → s.cxOf ⟨b.lid, b.rank, 0⟩ = some c → c.canPublish .d →
      ∃ (x : Cx) (u : State), c.Published x .d ∧
        exec k s = .next ((u.settleShare c.ctx.tenant c.ctx.num).settleTurn c.ctx.tenant) ∧ u.mem = x.s.mem ∧
        u.block? b.lid b.rank = some { x.blk with place := .retired, buf := [], retiring := false, stopWanted := false, moveWanted := false,
                                                  window := false } ∧
        ∀ y, u.ctx? c.lch.src.fn c.lch.ctx = some y → ∀ r ∈ y.pool, r.1 ≠ blk.deck)) ∧
  (∀ (s : State) fn n c, s.ctx? fn n = some c →
    let ends : Prop := c.turn = true ∧ c.spent = false ∧ ∃ x ∈ s.ctxs, x.tenant = c.tenant ∧ x.num ≠ c.num ∧ s.hasWork x = true
    (¬ ends → exec (.sliceEnd fn n) s = .next s) ∧
    (ends → 1 < c.burst → exec (.sliceEnd fn n) s = .next (s.setCtx { c with burst := c.burst - 1 })) ∧
    let stop (b : Block) : Block := if s.ofCtx fn n b = true ∧ b.place = .resident then { b with stopWanted := true } else b
    (ends → c.burst ≤ 1 → exec (.sliceEnd fn n) s =
      .next (((State.setCtx { s with blocks := s.blocks.map stop } { c with spent := true, burst := 0 }).noGrace fn n).settleTurn fn)) ∧
    let now (b : Block) : Prop := s.ofCtx fn n b = true ∧ b.place = .resident ∧ ∃ l, s.launch? b.lid = some l ∧ l.hdr.grace = 0
    ((∀ b ∈ s.blocks, ¬ now b) → s.noGrace fn n = s) ∧
    (∀ b, s.blocks = [b] → now b → b.trapPending = false → b.moveWanted = false → s.noGrace fn n = s.leaveOrWait [b] false)) ∧
  (∀ (s : State) (b : BlockRef) blk l, s.block? b.lid b.rank = some blk → s.launch? b.lid = some l →
    let unit := s.unitOf blk
    let still : Prop := ∀ x ∈ unit, x.trapPending = false
    let gone (u : State) : Prop := ∀ x ∈ unit, x.place = .resident → ∃ y, u.block? x.lid x.rank = some y ∧ y.place = .away ∧
      y.leaving = false ∧ y.moveWanted = false ∧ ∀ w ∈ y.waves, w.pend = []
    let leaves : Prop := blk.place = .resident ∧ blk.stopWanted = true ∧ still ∧ ∀ x ∈ unit, x.moveWanted = false
    (∀ soft u, s.unitLeaves unit soft = some u → gone u ∧ s.leaveOrWait unit soft = u) ∧
    (∀ soft, s.unitLeaves unit soft = none → ∃ v, s.leaveOrWait unit soft = v ∧ v = { s with blocks := v.blocks } ∧
      ∀ x ∈ unit, ∀ y, s.block? x.lid x.rank = some y → y.place = .resident → v.block? x.lid x.rank = some { y with leaving := true }) ∧
    (∀ soft, l.hdr.hasGang = false → s.quiet blk → (s.ctx? l.src.fn l.ctx).isSome = true → (s.kernel? l.hdr.entry).isSome = true →
      ∃ u, s.unitLeaves unit soft = some u) ∧
    (¬ leaves → exec (.graceExpiry b) s = .next s) ∧
    (leaves → exec (.graceExpiry b) s = .next ((s.leaveOrWait unit true).settleTurn l.src.fn)) ∧
    (∀ c (cores pipes : List Nat), s.ctx? l.src.fn l.ctx = some c →
      let may : Prop := s.canReturn blk = true ∧ c.turn = true ∧ c.spent = false
      ((¬ may ∨ s.unitReturns unit cores pipes 4 = none) → exec (.blockReentry b cores pipes) s = .next s) ∧
      (∀ u, may → s.unitReturns unit cores pipes 4 = some u → exec (.blockReentry b cores pipes) s = .next u ∧ Stand u unit cores 2) ∧
      (∀ core, may → l.hdr.hasGang = false → cores = [core] → s.roomAt c (s.blockNeed blk) core → PipesFit blk.waves.length pipes →
        ∃ u, exec (.blockReentry b cores pipes) s = .next u ∧ Stand u [blk] [core] 2)) ∧
    (∀ (cores pipes : List Nat),
      let k : Instr := .blockMove b cores pipes
      let may : Prop := blk.place = .resident ∧ (∃ x ∈ unit, x.moveWanted = true) ∧ (∀ x ∈ unit, x.stopped = true ∨ x.window = false) ∧ still
      ((¬ may ∨ s.unitLeaves unit false = none) → exec k s = .next s) ∧
      (∀ v c w, may → s.unitLeaves unit false = some v → v.ctx? l.src.fn l.ctx = some c → cores ≠ [] →
        v.unitReturns (v.again unit) cores pipes 2 = some w → ∃ u, exec k s = .next u ∧ Stand u unit cores 1) ∧
      (∀ v c, may → s.unitLeaves unit false = some v → v.ctx? l.src.fn l.ctx = some c → cores = [] →
        v.chooseCores c l (s.blockNeed blk) (v.again unit).length = none →
        exec k s = .next ((v.settleShare c.tenant c.num).settleTurn c.tenant)) ∧
      (∀ c core, may → s.quiet blk → l.hdr.hasGang = false → s.ctx? l.src.fn l.ctx = some c → (s.kernel? l.hdr.entry).isSome = true →
        cores = [core] → s.roomAt c (s.blockNeed blk) core → PipesFit blk.waves.length pipes →
        ∃ u, exec k s = .next u ∧ Stand u [blk] [core] 1)) ∧
    (∃ u, exec (.rebindWindowExpiry b) s = .next u ∧ u = { s with blocks := u.blocks } ∧
      (∀ x ∈ unit, (u.block? x.lid x.rank) = (s.block? x.lid x.rank).map fun y => { y with window := false }) ∧
      ∀ i r, (∀ x ∈ unit, ¬ (x.lid = i ∧ x.rank = r)) → u.block? i r = s.block? i r)) ∧
  (∀ (s : State) core pipe (w : WaveRef) b, s.block? w.lid w.rank = some b →
    let v := b.wave w.wave
    let may : Prop := b.core = core ∧ b.runs = true ∧ v.stock = true ∧ v.pipe = pipe ∧ (v.blocked = false ∨ v.mayTry = true) ∧ v.retired = false
    (¬ may → exec (.stockPromotion core pipe w) s = .next s) ∧
    (may →
      ∃ u, exec (.stockPromotion core pipe w) s = .next u ∧ (u.wave w).stock = false ∧ (u.wave w).entered = s.stamp + 1 ∧
        ∀ x n, s.oldestHand core pipe = some (x, n) → s.block? x.lid x.rank = some x → (u.wave ⟨x.lid, x.rank, n⟩).stock = true)) ∧
  (∀ (s : State) t h x, s.ctxs.find? (fun c => c.tenant == t && c.turn) = some h → s.resident h = false → (h.spent = true ∨ s.hasWork h = false) →
    (s.turnOrder t (some h.num)).find? s.hasWork = some x → x.num ≠ h.num →
    ∃ y z, (s.settleTurn t).ctx? t x.num = some y ∧ y = { x with turn := true, spent := false, burst := 1 + x.credit, credit := 0 } ∧
      (s.settleTurn t).ctx? t h.num = some z ∧ z.turn = false)

namespace Sys2Proof.Machine

/-! ### Traps, errors and their service (spec/17) -/

/-- Only what writing a fault record touches differs: host memory, the tenants' rings and interrupts sent (R315, R332). -/
def RecordOnly (s v : State) : Prop :=
  v = { s with hostMem := v.hostMem, tenants := v.tenants, out := v.out } ∧
  ∀ n, v.tenant n = { s.tenant n with faults := (v.tenant n).faults }

/-- A wave waits with an undelivered trap of a class and cause. -/
def Wave.trapped (w : Wave) (cls cause : Nat) : Prop :=
  ∃ r, w.trap = some r ∧ w.wait = some .traps ∧ r.info.cls = cls ∧ r.info.cause = cause

end Sys2Proof.Machine

/-- An undelivered trap leads to what R313 gives its class, with a record laid out as R315 says; handlers start, launches end or
replay. HANDLER_ENTRY starts a waiting handler where the pool has room, its frame page in the window. An undelivered trap swaps
the block out (MEMFAULT but WBFULL), halts it (BKPT), rolls the launch back (an uncorrectable error), or ends the launch with
TRAPINTRAP in a handler, WBFULL, or 0x10 + class. Each field of the record stands at its bits. BLOCK_SWAP_OUT, LAUNCH_END,
DEBUG_HALT_BKPT and LAUNCH_ROLLBACK do so, each completing where a wave has such a trap; what holds a block holds it still. A
replayable launch starts again with REPLAY and its saved pages restored, their poison with them; any other fails with UCE.
TIMING_REPLAY takes two cycles and counts, saturating; a second flag is UCE with cause 4. (R310; R313; R314; R315; R316; R318;
R320; R323) -/
def Obligations.TrapsAreServed : Prop :=
  (∀ (s : State) w c r, s.cxOf w = some c → c.wv.trap = some r → c.wv.wait = some .room →
    let k : Instr := .handlerEntry w
    (c.blk.runs = false → exec k s = .next s) ∧
    let size := windowSize c.ctx.hnv
    let enters (a : Nat) : Prop := ∃ u f, exec k s = .next u ∧
      (u.wave w).frame = some f ∧ f.trap = r ∧ f.regs = c.wv.regs ∧ f.held = c.wv.held ∧ f.mr = c.wv.mr ∧ f.window = a ∧
      f.groups = c.wv.groups.filter (fun g => g.lanes &&& r.mask == 0) ∧
      (u.wave w).groups = [{ lanes := r.mask, pc := c.ctx.hentry, last := 0 }] ∧ (u.wave w).wait = none ∧ (u.wave w).trap = none ∧
      (u.wave w).held = 0 ∧ (∀ l, (u.wave w).mrOf l = BitVec.allOnes 64) ∧ (u.regs w).nv = c.ctx.hnv ∧ (u.regs w).scalar 0 = c.lch.hdr.args ∧
      (∀ n l, (u.regs w).lane n l = none) ∧ u.hostMem = s.hostMem ∧ u.peerMem = s.peerMem ∧
      (memWf s.mem = true → (∀ t ∈ s.tenants, t.track = none) → ∀ y, memRead u.mem y =
        if a ≤ y ∧ y < a + 4096 then (framePage f (u.regs w)).getD (y - a) 0 else memRead s.mem y)
    (∀ a v, c.blk.runs = true → s.takePool c.ctx.tenant c.ctx.num size = some (a, v) → enters a) ∧
    (c.blk.runs = true → c.ctx.pool = [] → (size + 4095) / 4096 * 4096 ≤ c.ctx.poolSize → enters c.ctx.poolBase) ∧
    (c.blk.runs = true → s.takePool c.ctx.tenant c.ctx.num size = none → ∃ u, exec k s = .next u ∧ u.wave w = c.wv ∧ SameMemory s u)) ∧
  (∀ inHandler (t : TrapInfo), trapFate inHandler t =
    if t.cls = 0xB then .roll else if inHandler then .fail 7 else if t.cls = 7 then (if t.cause = 8 then .fail 8 else .swap)
    else if t.cls = 9 then .halt else .fail (0x10 + t.cls)) ∧
  (∀ x l b wave pipe inH idx (t : TrapInfo) lost, t.cls < 16 → t.cause < 16 → l.src.q < 64 → x.index < 2 ^ 16 → idx < 2 ^ 32 →
    b.barsite < 2 ^ 16 → wave < 256 → t.lane < 256 → t.vreg < 2 ^ 12 → t.symKind < 16 → t.sym < 256 → pipe < 4 → b.core < 512 →
    let ws := faultWords x l b wave pipe inH idx t lost
    let field (i lo n : Nat) : Nat := ((ws.getD i 0).extractLsb' lo n).toNat
    ws.length = 16 ∧ field 0 56 8 = 0 ∧ field 0 55 1 = 1 ∧ field 0 54 1 = lost.toNat ∧ field 0 53 1 = inH.toNat ∧ field 0 52 1 = l.replay.toNat ∧
    field 0 48 4 = 0 ∧ field 0 40 8 = 1 ∧ field 0 36 4 = t.cls ∧ field 0 32 4 = t.cause ∧ field 0 22 10 = 0 ∧ field 0 16 6 = l.src.q ∧
    field 0 0 16 = x.index ∧ ws.getD 1 0 = l.src.seq ∧ field 2 32 32 = idx ∧ field 2 16 16 = 0 ∧ field 2 0 16 = b.barsite ∧
    ws.getD 3 0 = BitVec.ofNat 64 b.rank ∧ field 4 56 8 = 0 ∧ field 4 48 8 = wave ∧ field 4 40 8 = t.lane ∧ field 4 28 12 = t.vreg ∧
    field 4 24 4 = t.symKind ∧ field 4 16 8 = t.sym ∧ field 4 0 16 = 0 ∧ ws.getD 5 0 = t.offset ∧ ws.getD 6 0 = t.lanes.extractLsb' 0 64 ∧
    ws.getD 7 0 = t.lanes.extractLsb' 64 64 ∧ field 8 43 21 = (if t.symKind < 6 then b.unitOf x t.symKind t.sym + t.punit else 0) / 2 ^ 11 % 2 ^ 21 ∧
    field 8 32 11 = (if t.symKind < 6 then b.unitOf x t.symKind t.sym + t.punit else 0) % 2 ^ 11 ∧ field 8 12 20 = 0 ∧ field 8 10 2 = pipe ∧ field 8 9 1 = 0 ∧ field 8 0 9 = b.core ∧ ws.getD 9 0 = t.paddr ∧
    ws.getD 10 0 = t.trapc ∧ ∀ i, 11 ≤ i → ws.getD i 0 = 0) ∧
  (∀ (s : State) (b : BlockRef) blk l, s.block? b.lid b.rank = some blk → s.launch? b.lid = some l →
    let k : Instr := .blockSwapOut b
    let due : Prop := blk.hasFate .swap = true ∨ (∃ j ∈ s.jobs, j.ofBlock blk = true ∧ j.told = false ∧ j.stop.isSome = true) ∨
      (blk.faulted = true ∧ blk.place = .resident)
    (¬ due → exec k s = .next s) ∧
    (due → ∃ v y, RecordOnly { s with jobs := v.jobs, blocks := v.blocks } v ∧ v.block? b.lid b.rank = some y ∧
      y = { blk with faulted := true, waves := y.waves } ∧ (∀ w ∈ y.waves, w.fate ≠ some .swap) ∧
      (∀ j ∈ v.jobs, j.ofBlock blk = true → j.stop.isSome = true → j.told = true) ∧
      (blk.place ≠ .resident → exec k s = .next v) ∧
      (blk.place = .resident → exec k s =
        .next (((v.leaveOrWait (v.unitOf y) false).settleShare l.src.fn l.ctx).settleTurn l.src.fn))) ∧
    (due → blk.place = .resident → l.hdr.hasGang = false → s.quiet blk → (s.ctx? l.src.fn l.ctx).isSome = true →
      (s.kernel? l.hdr.entry).isSome = true →
      ∃ u y, exec k s = .next u ∧ u.block? b.lid b.rank = some y ∧ y.place = .away ∧ y.faulted = true)) ∧
  (∀ (s : State) lid l, s.launch? lid = some l →
    (s.failing lid = none → exec (.launchEnd lid) s = .next s) ∧
    (∀ b w r e, s.failing lid = some (b, w, r, e) → ∃ v u, RecordOnly s v ∧ LaunchEnded v u l e ∧ exec (.launchEnd lid) s = .next u) ∧
    (∀ b ∈ s.blocks, b.lid = lid → ∀ w ∈ b.waves, ∀ r, w.trap = some r → w.wait = some .traps → r.info.cls ≠ 0xB →
      (w.frame = none → r.info.cls ≠ 9 ∧ (r.info.cls = 7 → r.info.cause = 8)) →
      ∃ u e, exec (.launchEnd lid) s = .next u ∧ u.launch? lid = some { l with state := .ended e } ∧ (∀ y ∈ u.blocks, y.lid ≠ lid)) ∧
    (s.sick lid = none → exec (.launchRollback lid) s = .next s) ∧
    (∀ b ∈ s.blocks, b.lid = lid → ∀ w ∈ b.waves, w.trapped 0xB ((w.trap.map (·.info.cause)).getD 0) →
      ∃ u m, exec (.launchRollback lid) s = .next u ∧ u.launch? lid = some m ∧ (m.state = .taken ∨ m.state = .ended 6) ∧
        ∀ y ∈ u.blocks, y.lid ≠ lid) ∧
    (∀ x, s.sick lid = some x → ∃ v, RecordOnly s v ∧
      ((l.snap = false ∨ l.replayable = false ∨ 2 ≤ l.replays) → ∃ u, LaunchEnded v u l 6 ∧ exec (.launchRollback lid) s = .next u) ∧
      (l.snap = true → l.replayable = true → l.replays < 2 → ∃ u, exec (.launchRollback lid) s = .next u ∧
        u.launch? lid = some { l with state := .taken, replay := true, replays := l.replays + 1, nextUnit := 0, shadowCount := 0,
                                      mapUnits := [] } ∧
        (∀ y ∈ u.blocks, y.lid ≠ lid) ∧ ∀ c, s.ctx? l.src.fn l.ctx = some c → ∀ n, ∀ y ∈ (u.core n).l1,
          ¬ (y.tenant = c.tenant ∧ y.asid = c.asid)))) ∧
  (∀ (s : State) l page frame bit, s.memOk → (∀ t ∈ s.tenants, t.track = none) → s.shadowPages l = [(frame, page)] →
    s.frameBit l.src.fn frame = some bit → bitmapGet s.mem l.shadowBitmap bit = true →
    let bits := max 4096 (s.bitmapBytes l.src.fn)
    ∀ a, frame ≤ a → a < frame + 4096 → (a < l.shadowBitmap ∨ l.shadowBitmap + bits ≤ a) → (a < l.shadowDir + 16 ∨ l.shadowDir + 24 ≤ a) →
      (∀ c, s.ctx? l.src.fn l.ctx = some c → a < c.ttBase ∨ c.ttBase + 16384 ≤ a) →
      memRead (s.restorePages l).mem a = memRead s.mem (page + (a - frame)) ∧
      (s.poisonIn (page + (a - frame) / 64 * 64) 64 = true → (s.restorePages l).poisoned a = true)) ∧
  (∀ (s : State) (b : BlockRef) blk, s.block? b.lid b.rank = some blk →
    let k : Instr := .debugHaltBkpt b
    let due : Prop := blk.hasFate .halt = true ∧ blk.atBkpt = false
    let here : Prop := due ∧ blk.halted = false ∧ blk.place = .resident
    ((¬ due ∨ (blk.halted = false ∧ blk.place ≠ .resident)) → exec k s = .next s) ∧
    (due → blk.halted = true → ∃ u, exec k s = .next u ∧ RecordOnly { s with blocks := u.blocks } u ∧
      u.block? b.lid b.rank = some { blk with atBkpt := true }) ∧
    (here → s.haltBlock blk = none → exec k s = .next (s.setBlock { blk with leaving := true })) ∧
    (∀ v y, here → s.haltBlock blk = some v → v.block? b.lid b.rank = some y → ∃ u, exec k s = .next u ∧
      u.block? b.lid b.rank = some { y with atBkpt := true } ∧ y.halted = true ∧ u.mem = v.mem) ∧
    (here → s.quiet blk → (s.launch? b.lid).isSome = true → ∃ u y, exec k s = .next u ∧ u.block? b.lid b.rank = some y ∧
      y.halted = true ∧ y.atBkpt = true ∧ y.place = .resident)) ∧
  (∀ (s : State) (w : WaveRef) grp again b, s.block? w.lid w.rank = some b →
    let k : Instr := .timingReplay ⟨w, grp⟩ again
    let n := b.core / 12
    let count (x : BitVec 32) : BitVec 32 := if x = BitVec.allOnes 32 then x else x + 1
    (b.place ≠ .resident → exec k s = .next s) ∧
    (b.place = .resident → b.core < s.cores.length → n < s.pkg.islands.length → w.wave < b.waves.length → ∃ v u, exec k s = .next u ∧
      v = { s with cores := v.cores, pkg := { s.pkg with islands := v.pkg.islands } } ∧
      v.core b.core = { s.core b.core with cycle := (s.core b.core).cycle + 2 } ∧ (∀ m, m ≠ b.core → v.core m = s.core m) ∧
      v.island n = { s.island n with replays := count (s.island n).replays } ∧ (∀ m, m ≠ n → v.island m = s.island m) ∧
      (again = false → u = v) ∧ (again = true → u = { v with blocks := u.blocks } ∧ (u.wave w).trapped 0xB 4 ∧
        (u.wave w).trap.map (·.pc) = some ((b.wave w.wave).groups.getD grp Group.default).pc)))

namespace Sys2Proof.Machine

/-! ### Fills, polls and arrivals (spec/01, spec/02, spec/04, spec/16) -/

/-- Only what caches, translations and walks hold differs, and clean lines they replace: with no dirty deck line to be written back, no
byte of memory but in dirty bitmaps (R19, R25, R33, R43). -/
def ArrivalOnly (s u : State) : Prop :=
  u = { s with l2 := u.l2, tlb := u.tlb, walkCache := u.walkCache, fresh := u.fresh, cores := u.cores, deckLines := u.deckLines,
               mem := u.mem, poison := u.poison, checks := u.checks } ∧
  u.cores.map (fun k => { k with l1 := [], icache := [] }) = s.cores.map (fun k => { k with l1 := [], icache := [] }) ∧
  (s.memOk → (∀ x ∈ s.deckLines, x.dirty = false) → ∀ a, s.noBitmap a → memRead u.mem a = memRead s.mem a)

/-- The context in which a waiting wave polls again: its wait ended and nothing on its way. -/
def Cx.polling (c : Cx) : Cx := { c.setWv { c.wv with wait := none, pend := [] } with rv := c.wv.regs }

end Sys2Proof.Machine

/-- LINE_FILL, PAGE_WALK, FORWARD_RESPONSE, WAITV_POLL and REGCACHE_FILL bring what was missing and change no value. A LINE_FILL
changes what caches and walks hold alone: a read leaves the line's D bytes in the core's L1, a fetch in its instruction cache; a
line that fails its region check enters neither. PAGE_WALK adds the page's translation, and a failed walk none. FORWARD_RESPONSE
ends the wait where the owner can be reached; a poll polls again. WAITV_POLL completes WAITV where every lane satisfies its
condition; otherwise the priority halves, to 1 at the least, where every lane read what it read before, and is 16 where not.
REGCACHE_FILL makes registers resident; while each set of the cache has room no memory changes. (R19; R25; R24; R300; R252; R27;
R92; R45) -/
def Obligations.ArrivalsAndPolls : Prop :=
  (∀ (s : State) core fn n (ptr : DWord) acc c, s.ctx? fn n = some c →
    let k : Instr := .lineFill core fn n ptr acc
    let line := lineNo ptr
    let mine (y : CoreLine) : Prop := y.tenant = c.tenant ∧ y.asid = c.asid ∧ y.line = line
    ∃ u, exec k s = .next u ∧ ArrivalOnly s u ∧
      (∀ cause, s.l2? c.tenant c.asid line = none → s.regionCheck c line acc = some cause → (∀ y ∈ (s.core core).l1, ¬ mine y) →
        u = { s with fresh := u.fresh }) ∧
      (∀ l, s.l2? c.tenant c.asid line = some l → l.owner = .loc → s.poisoned l.addr = false → s.mismatch l.addr = false →
        core < s.cores.length → (∀ b ∈ s.blocks, b.core = core → b.place = .resident → b.bufferLines = []) →
        (acc = .read → l.rd = true → ∃ y ∈ (u.core core).l1, mine y ∧ (y.data = memLine s.mem l.addr ∨ y ∈ (s.core core).l1)) ∧
        (acc = .fetch → l.x = true → ∃ y ∈ (u.core core).icache, mine y ∧ y.data = memLine s.mem l.addr) ∧
        (acc = .write → l.w = true → u = s) ∧ (acc = .atomic → l.rd = true → l.w = true → u = s))) ∧
  (∀ (s : State) fn n (ptr : DWord) c, s.ctx? fn n = some c →
    let k : Instr := .pageWalk fn n ptr
    let va := 64 * (lineNo ptr % 2 ^ 50)
    let chan := s.tlbOf c.tenant (s.home c.tenant c.asid (lineNo ptr))
    let v := s.walked c va
    (∀ e, s.tlb? c.tenant c.asid chan va = some e → exec k s = .next s) ∧ ArrivalOnly s v ∧ v.tlb = s.tlb ∧
    (∀ cause, s.tlb? c.tenant c.asid chan va = none → s.walk c va = .error cause → exec k s = .next v) ∧
    (∀ tr log, s.tlb? c.tenant c.asid chan va = none → s.walk c va = .ok (tr, log) →
      ∃ e : TlbEntry, exec k s = .next { v with tlb := e :: s.tlb } ∧ e.tenant = c.tenant ∧ e.asid = c.asid ∧ e.chan = chan ∧ e.log = log ∧
        e.base = va / 2 ^ log * 2 ^ log ∧ e.tr = { tr with addr := tr.addr - va % 2 ^ log })) ∧
  (∀ (s : State) w c x line atomic, s.cxOf w = some c → c.wv.wait = some x → x.asks = some (line, atomic) →
    let k : Instr := .forwardResponse w
    (s.reachable c.ctx line = false → exec k s = .next s) ∧
    (s.reachable c.ctx line = true → ∃ u, exec k s = .next u ∧ u.wave w = { c.wv with wait := x.come } ∧
      u.peerMem = s.peerMem ∧ u.launches = s.launches ∧ (x = .forward line atomic → (u.wave w).wait = none) ∧
      (∀ op inst grp prio last, x = .waitv op inst grp prio last (some line) → (u.wave w).wait = some (.waitv op inst grp prio last none)) ∧
      (x = .link line → u = { s with blocks := u.blocks }))) ∧
  (∀ (s : State) w (c : Cx) h ne lvl ty d base src inst grp prio last,
    let op : Instr := .waitv h ne lvl ty d base src
    let k : Instr := .waitvPoll w
    let i := waitvInfo ty lvl d base src
    let x := c.polling
    s.cxAt { ref := w, grp := grp, inst := inst } = some c → c.wv.wait = some (.waitv op inst grp prio last none) → c.blk.runs = true →
    grp < c.wv.groups.length → x.firstTrap h i = none → x.guardMask h ≠ 0 → x.fenced 0 = false → x.sound →
    let act := x.guardMask h
    let n := ty.width / 8
    let ptr := x.based base (waitDisp src)
    let got (l : Nat) : Nat := x.elemFrom lvl (ptr l) n
    let want (l : Nat) : Nat := (match src with
      | .reg b _ => x.vs b ty.is64 l
      | .imm m => ty.imm m).toNat % 2 ^ ty.width
    let vals := (lanesOf act).map fun l => BitVec.ofNat 64 (got l)
    (∀ l, l < 128 → act.getLsbD l = true → (ptr l).toNat % n = 0 ∧
      ∃ y, s.l2? c.ctx.tenant c.ctx.asid (lineNo (ptr l)) = some y ∧ y.rd = true ∧
        (if y.owner = .loc then s.poisoned y.addr = false ∧ s.mismatch y.addr = false
         else y.poisoned = false ∧ y.check = lineCheck y.data)) →
    ((∀ l, l < 128 → act.getLsbD l = true → (got l = want l ↔ ne = false)) →
      Completes s k x h i { x with s := s.settlePath w 0 } (.dst (.v d ty.is64) act fun l => BitVec.ofNat 64 (got l))) ∧
    ((∃ l, l < 128 ∧ act.getLsbD l = true ∧ ¬ (got l = want l ↔ ne = false)) →
      Waits s k x (s.settlePath w 0) (.waitv op inst grp (if vals = last then max 1 (prio / 2) else 16) vals none))) ∧
  (∀ (s : State) (w : WaveRef) (regs : List Nat) b, s.block? w.lid w.rank = some b →
    let k : Instr := .regcacheFill w regs
    (b.place ≠ .resident → exec k s = .next s) ∧
    (b.place = .resident → b.core < s.cores.length →
      (∀ set, ((s.core b.core).regCache.filter (·.set == set)).length + regs.length ≤ 16) → (∀ x ∈ s.deckLines, x.dirty = false) →
      ∃ u, exec k s = .next u ∧ u = { s with stamp := s.stamp + 1, cores := u.cores, blocks := u.blocks, deckLines := u.deckLines, l2 := u.l2,
                                             fresh := u.fresh } ∧ u.regs w = s.regs w ∧
        (∀ y ∈ (s.core b.core).regCache, y ∈ (u.core b.core).regCache) ∧ u.core b.core = { s.core b.core with regCache := (u.core b.core).regCache } ∧
        ∀ n ∈ regs, n < (s.regs w).nv → ∃ y ∈ (u.core b.core).regCache, y.lid = w.lid ∧ y.rank = w.rank ∧ y.wave = w.wave ∧ y.reg = n ∧
          y.window = (s.wave w).frame.isSome))

namespace Sys2Proof.Machine

/-! ### Engines (spec/03, spec/07, spec/15) -/

/-- A row of element codes of w bits each, the first lowest. -/
def packRow (w cols : Nat) (y : Nat → Nat) : Nat := (List.range cols).foldr (fun j acc => y j + 2 ^ w * acc) 0

/-- A drain has left the queue and its job is ready: rows of `cols` codes in `stage`, or the six segments it covers written whole (R135,
R279). -/
def DrainReady (s v : State) (core : Nat) (op : EngOp) (rest : List EngOp) (c : Cx) (dst : DrainDst) (hn tag : BitVec 8) (cols : Nat)
    (y : Nat → Nat → Nat) (fl : Flags) (amx : Option (Level × DWord × Nat)) (amax : Nat) (j : Job) : Prop :=
  let w := entWidth op.entryA
  (v.core core).engine = rest ∧ v.mem = s.mem ∧ v.jobs = s.jobs ∧ j.id = op.id ∧ j.wave = some op.wave ∧ j.cmd = none ∧ j.tag = tag.toNat ∧
  j.row = 0 ∧ j.stop = none ∧ j.after = [] ∧ j.flagsTo = op.flagsTo ∧
  match dst with
  | .mem lvl _ => j.kind = .drain lvl op.entryA hn.toNat op.origin cols fl amx amax ∧
      j.stage = (List.range 32).map fun i => packRow w cols (y i)
  | .sc sym queue seg => j.kind = .drain .d op.entryA hn.toNat op.origin cols fl amx amax ∧ j.stage = [] ∧
      let t := c.symTag queue sym.toNat
      let tile := tileMake (tagPl t) w fun i el => if el < cols then packRow w cols (y i) / 2 ^ (w * el) % 2 ^ w else 0
      ∀ i, i < 6 → ((v.core core).seg (c.segAt queue sym.toNat + seg.toNat + i)).tag = t ∧
        ∀ o, o < 1024 → natByte ((v.core core).seg (c.segAt queue sym.toNat + seg.toNat + i)).data (swz (tagSwz t) o) = natByte (tileSeg tile i) o

end Sys2Proof.Machine

/-- A copy moves a line or writes a segment and completes on its tag; MMA, PMMA, DRAIN and PDRAIN at the head of the queue give
their results. A copy that is stopped or follows another under way does nothing; else it takes one step: a linear copy at D
writes the next destination line's bytes; a tile load writes the next segment. A finished job with nothing unacknowledged leaves
and counts on its tag. MMA's words become the group sums of R110 over old words; PMMA adds its sums to 64-bit words; words of
unallocated banks stand and UNALLOC is set; flags merge. A drain rounds its words, packs them for memory or scratch, and takes
its amax, NaN skipped. An error in operands or banks is UCE. (R65; R71; R110; R133; R134; R135; R136; R137; R279) -/
def Obligations.EnginesDoTheirWork : Prop :=
  (∀ (s : State) id,
    let k : Instr := .copyLineTransfer id
    (s.job? id = none → exec k s = .next s) ∧
    (∀ j c, s.job? id = some j → s.ctx? j.tenant j.ctx = some c →
      ((j.stop.isSome = true ∨ ∃ n ∈ j.after, s.underway n = true) → exec k s = .next s) ∧
      (j.stop = none → (∀ n ∈ j.after, s.underway n = false) →
        exec k s = .next ((s.stepJob j c).finishJob id) ∧
        (∀ dst src len dsc ssc l, j.kind = .linear .d dst src len false false dsc ssc → j.row < spanLines dst len → 0 < len → s.memOk →
          s.plainWrites → s.unsettled = [] → j.asked = none → j.srcLines = [] → (∀ w, j.wave = some w → ∃ x, s.cxOf w = some x ∧ x.ctx = c) →
          let p := if j.row = 0 then dst else linePtr (lineNo (ptrAdd dst (64 * j.row : Nat)))
          let a := 64 * j.row - lineOff dst
          let b := min len (64 * (j.row + 1) - lineOff dst)
          s.l2? c.tenant c.asid (lineNo p) = some l → l.w = true → l.owner = .loc →
          (∀ i, a ≤ i → i < b → ∃ y, s.l2? c.tenant c.asid (lineNo (ptrAdd src (i : Nat))) = some y ∧ y.rd = true ∧ y.owner = .loc ∧
            s.poisoned y.addr = false ∧ s.mismatch y.addr = false) →
          let u := s.stepJob j c
          (∃ ls, u.job? id = some { j with row := j.row + 1, srcLines := ls }) ∧ u.hostMem = s.hostMem ∧ u.peerMem = s.peerMem ∧
          ∀ at_, memRead u.mem at_ =
            if l.addr + lineOff p ≤ at_ ∧ at_ < l.addr + lineOff p + (b - a) then
              let q := ptrAdd src (a + (at_ - (l.addr + lineOff p)) : Nat)
              memRead s.mem (((s.l2? c.tenant c.asid (lineNo q)).elim 0 (·.addr)) + lineOff q)
            else memRead s.mem at_) ∧
        (∀ sym queue seg e h o x, j.kind = .tileLoad sym queue seg e h o → j.wave.bind s.cxOf = some x → x.blk.place = .resident →
          32 + scaleRows e ≤ j.row → j.row < 32 + scaleRows e + tileSegs e → x.core < s.cores.length →
          let u := s.stepJob j c
          let i := j.row - (32 + scaleRows e)
          let t : BitVec 4 := if i < 6 then entTag e else 0
          let g := (u.core x.core).seg (x.segAt queue sym + seg + i)
          u.job? id = some { j with row := j.row + 1, srcLines := [] } ∧ g.tag = t ∧
            ∀ o, o < 1024 → natByte g.data (swz (tagSwz t) o) = natByte (stagedSeg e j.stage i) o)))) ∧
  (∀ (s : State) id j, s.job? id = some j →
    ((j.stop.isSome = true ∨ j.row < j.total ∨ s.outstanding id = true) → s.finishJob id = s) ∧
    (∀ w b, j.stop = none → j.total ≤ j.row → s.outstanding id = false → j.wave = some w → j.kind.isDrain = false →
      ((∃ lvl sym queue seg e h o, j.kind = .tileStore lvl sym queue seg e h o) → j.stage ≠ []) → s.block? w.lid w.rank = some b →
      ∃ b', Woken { b with tags := b'.tags } b' ∧ (s.finishJob id).block? w.lid w.rank = some b' ∧
        (b'.tag? j.tag) = (b.tag? j.tag).map (fun t => { t with count := t.count - 1, ready := t.ready || decide (t.count ≤ 1) }) ∧
        ∀ y, y ∈ (s.finishJob id).jobs ↔ y ∈ s.jobs ∧ y.id ≠ id) ∧
    (∀ w lvl e h o cols fl amx amax, j.stop = none → j.total ≤ j.row → s.outstanding id = false → j.wave = some w →
      j.kind = .drain lvl e h o cols fl amx amax → s.finishJob id =
        (State.report { s with jobs := s.jobs.filter (·.id != id) } w fl false j.flagsTo).completeTag w j.tag)) ∧
  (∀ (w : Wave) fl,
    (w.frame = none → w.report fl false .kernel = { w with regs := { w.regs with fstat := w.regs.fstat ||| fl } } ∧
      w.report fl false .handler = w) ∧
    (∀ f, w.frame = some f → w.report fl false .kernel = { w with frame := some { f with regs := { f.regs with fstat := f.regs.fstat ||| fl } } } ∧
      w.report fl false .handler = { w with regs := { w.regs with fstat := w.regs.fstat ||| fl } })) ∧
  (∀ (s : State) core op rest c, (s.core core).engine = op :: rest → core < s.cores.length → s.cxOf op.wave = some c →
    op.wave.wave < c.blk.waves.length →
    let k : Instr := .mmaExecute core
    let old := s.core core
    let K := tileK (entWidth op.entryA)
    let sick (first n : Nat) : Prop := ∃ w ∈ old.badAcc, first ≤ w / 512 ∧ w / 512 < first + n ∧ (old.bank (w / 512)).alloc = true
    let bank (first i : Nat) : Bank := old.bank (first + i)
    (∀ h w2 o v a b bad, op.op = .mma h w2 o → s.readOperands core op 0 (16 * (1 + Bool.toNat w2)) = (v, a, b, bad) →
      let n := 1 + Bool.toNat w2
      let first := c.bankAt (BitVec.toNat o.acc) + o.bank.toNat
      let cols := 16 * n
      let sum (i j : Nat) := sumGroups (K / 16) (((expandRows op.entryA a 32).getD i []).zip ((expandRows op.entryB b cols).getD j []))
        ((old.read (first + j / 16) (16 * i + j % 16)).toNat, 0)
      ((bad = true ∨ sick first n) → ∃ u, exec k s = .next u ∧ (u.core core).engine = rest ∧ (u.core core).banks = old.banks ∧
        (u.wave op.wave).trapped 0xB (if bad then 2 else 3)) ∧
      (bad = false → ¬ sick first n → ∃ u, exec k s = .next u ∧ (u.core core).engine = rest ∧
        (∀ i j, i < 32 → j < cols → (bank first (j / 16)).alloc = true →
          ((u.core core).bank (first + j / 16)).word (16 * i + j % 16) = BitVec.ofNat 32 (sum i j).1) ∧
        (∀ m, (m < first ∨ first + n ≤ m ∨ (old.bank m).alloc = false) → (u.core core).bank m = old.bank m) ∧
        ((∃ i, i < n ∧ (bank first i).alloc = false) → (u.wave op.wave).status.getLsbD 0 = true) ∧
        (((op.flagsTo = .kernel ∧ c.wv.frame = none) ∨ (op.flagsTo = .handler ∧ c.wv.frame.isSome = true)) →
          ∀ i j, i < 32 → j < cols → (sum i j).2 &&& ~~~(u.regs op.wave).fstat = 0) ∧
        (op.flagsTo = .kernel → ∀ f, c.wv.frame = some f → ∃ f', (u.wave op.wave).frame = some f' ∧ (u.regs op.wave).fstat = c.wv.regs.fstat ∧
          ∀ i j, i < 32 → j < cols → (sum i j).2 &&& ~~~f'.regs.fstat = 0) ∧ u.mem = s.mem)) ∧
    (∀ h qn conj o v a b bad, op.op = .pmma h qn conj o →
      s.readOperands core op (8 * BitVec.toNat qn) (8 * BitVec.toNat qn + 8) = (v, a, b, bad) →
      let first := c.bankAt (BitVec.toNat o.acc) + o.bank.toNat
      let w := entWidth op.entryA
      ((bad = true ∨ sick first 2) → ∃ u, exec k s = .next u ∧ (u.core core).engine = rest ∧ (u.core core).banks = old.banks ∧
        (u.wave op.wave).trapped 0xB (if bad then 2 else 3)) ∧
      (bad = false → ¬ sick first 2 → ∃ u, exec k s = .next u ∧ (u.core core).engine = rest ∧
        (∀ i j, i < 32 → j < 8 →
          let x := pmmaSum w conj (a.getD i 0) (b.getD (8 * BitVec.toNat qn + j) 0)
          ((bank first 0).alloc = true → (u.core core).sum first i j = old.sum first i j + BitVec.ofInt 64 x.1) ∧
          ((bank first 1).alloc = true → (u.core core).sum (first + 1) i j = old.sum (first + 1) i j + BitVec.ofInt 64 x.2)) ∧
        (∀ m, (m < first ∨ first + 2 ≤ m ∨ (old.bank m).alloc = false) → (u.core core).bank m = old.bank m) ∧
        ((∃ i, i < 2 ∧ (bank first i).alloc = false) → (u.wave op.wave).status.getLsbD 0 = true) ∧ u.mem = s.mem)) ∧
    (∀ h dst w2 md fz amx hn acc b tag, op.op = .drain h dst w2 md fz amx hn acc b tag →
      let n := 1 + Bool.toNat w2
      let cols := 16 * n
      let first := c.bankAt (BitVec.toNat acc) + BitVec.toNat b
      let f := entFloat op.entryA
      let code (i j : Nat) : Nat := (old.read (first + j / 16) (16 * i + j % 16)).toNat
      let y (i j : Nat) : Nat × Flags :=
        f.flush fz (if entCls op.entryA = 2 then (code i j, 0)
          else ((f.rnd md (Fmt.f32.value (code i j))).1, (f.rnd md (Fmt.f32.value (code i j))).2 ||| snan [Fmt.f32.value (code i j)]))
      let seen (i : Nat) : Nat := drainCols dst op.entryA op.origin cols i
      (sick first n → ∃ u, exec (.drainExecute core) s = .next u ∧ (u.core core).engine = rest ∧ (u.wave op.wave).trapped 0xB 3) ∧
      (¬ sick first n → ∃ v j fl amax, exec (.drainExecute core) s = .next (State.runJob { v with jobs := v.jobs ++ [j] } op.id (j.total + 1)) ∧
        DrainReady s v core op rest c dst hn tag cols (fun i j => (y i j).1) fl (amx.map fun m => (m.1, op.arg, m.2.toNat)) amax j ∧
        (∀ i j, i < 32 → j < cols → (y i j).2 &&& ~~~fl = 0) ∧
        (∀ i j, i < 32 → j < seen i → code i j % 2 ^ 31 ≤ 0x7F800000 → code i j % 2 ^ 31 ≤ amax) ∧
        (amax = 0 ∨ ∃ i j, i < 32 ∧ j < seen i ∧ code i j % 2 ^ 31 = amax ∧ amax ≤ 0x7F800000))) ∧
    (∀ h dst sn hn acc b tag, op.op = .pdrain h dst sn hn acc b tag →
      let first := c.bankAt (BitVec.toNat acc) + BitVec.toNat b
      let y (i j : Nat) : Nat :=
        let r := resultant 16 (old.sum first i j).toInt (old.sum (first + 1) i j).toInt (op.arg.toNat % 2 ^ 32)
        r.2 * 65536 + r.1
      (sick first 2 → ∃ u, exec (.pdrainExecute core) s = .next u ∧ (u.core core).engine = rest ∧ (u.wave op.wave).trapped 0xB 3) ∧
      (¬ sick first 2 → entWidth op.entryA = 32 → ∃ v j,
        exec (.pdrainExecute core) s = .next (State.runJob { v with jobs := v.jobs ++ [j] } op.id (j.total + 1)) ∧
        DrainReady s v core op rest c dst hn tag 8 y 0 none 0 j)))

namespace Sys2Proof.Machine

/-! ### The host (spec/18) -/

/-- A queue that a function has (R326). -/
def HasQueue (fn q : Nat) : Prop := (fn < 16 ∧ q < 64) ∨ (fn = 16 ∧ q = 0)

/-- The state holds such a queue. -/
def State.holdsQueue (s : State) (fn q : Nat) : Prop := fn = 16 ∨ (fn < s.tenants.length ∧ q < (s.tenant fn).queues.length)

/-- A write to a ring's register: BASE (zero turns the ring off), LOG or HEAD (R332; log 29). -/
def ringWritten (x : Ring) (r : Nat) (val : DWord) : Ring :=
  if r = 0 then { x with base := val, enabled := val != 0 } else if r = 8 then { x with log := min 12 (val.toNat % 16) }
  else if r = 16 then { x with head := val } else x

end Sys2Proof.Machine

/-- Tail and register writes and reads, resets and CXL.mem accesses do what spec/18 and R169 say. A tail outside the ring or
behind the available entries raises BADTAIL and changes no queue; another stands, after an ACQ.S for the queue's context, and
the out-edges of its held launches are read again; a tenant under reset ignores it. QBASE and QLOG are ignored while the queue
is on, reserved bits stay 0, other places are ignored (offsets of rings: log 29). A register reads what it holds, QTAIL and
reserved places zero; the discovery table and the link records stand word for word as R12 and R351 lay them out. A
function-level reset ends launches with RESET, clears queues, contexts, key and rings, flushes L2 and marks clusters and slices
for scrubbing; memory stays. A package reset leaves the reset state with the measured columns. A CXL.mem read returns D bytes
with poison; a write lands at D, drops virtual copies, sets dirty bits and clears poison of whole lines. The window covers the
tenant's regions in ascending order (the model's choice, log 33). (R328; R167; R326; R327; R5; R333; R12; R169; R25; R33; R351;
R39) -/
def Obligations.HostAccessResults : Prop :=
  (∀ (s : State) (fn q : Nat) (tail : DWord),
    let k : Instr := .qtailWrite fn q tail
    let x := s.cmdQueue fn q
    let held (p : DWord) : Nat := (p.toNat + x.size - x.qhead.toNat % x.size) % x.size
    let taken : Prop := HasQueue fn q ∧ (fn < 16 → (s.tenant fn).resetting = false)
    let bad : Prop := x.size ≤ tail.toNat ∨ held tail < held x.qtail
    (¬ taken → exec k s = .next s) ∧
    (taken → bad → exec k s = .next (if fn = 16 then s.packageEvent 5 (BitVec.ofNat 64 q) else s.tenantEvent fn 5 (BitVec.ofNat 64 q))) ∧
    (taken → ¬ bad → s.holdsQueue fn q → ∃ v u, OneQueue s v fn q ∧ v.cmdQueue fn q = { x with qtail := tail } ∧ exec k s = .next u ∧
      u = { v with l2 := u.l2, cores := u.cores,
                   launches := s.launches.map fun l => if l.src.fn = fn ∧ l.src.q = q then { l with held := false } else l } ∧
      u.cores.map (fun k => { k with l1 := [] }) = v.cores.map (fun k => { k with l1 := [] }) ∧
      let of (t asid : Nat) : Prop := ∃ c, s.ctx? fn (x.qctl.toNat / 2 ^ 20 % 2 ^ 12) = some c ∧ t = c.tenant ∧ asid = c.asid
      (∀ l, l ∈ u.l2 ↔ l ∈ v.l2 ∧ ¬ (of l.tenant l.asid ∧ l.phys = false ∧ l.owner ≠ .loc)) ∧
      ∀ i l, l ∈ (u.core i).l1 ↔ l ∈ (v.core i).l1 ∧ ¬ of l.tenant l.asid)) ∧
  (∀ (s : State) (fn off : Nat) (val : DWord),
    let k : Instr := .registerWrite fn off val
    let q := (off - 0x8000) / 64
    let x := s.cmdQueue fn q
    let on := x.qctl.getLsbD 0
    let t := s.tenant fn
    let island := (off - 0x3000) / 16
    ((17 ≤ fn ∨ off % 8 ≠ 0 ∨ 0x10000 ≤ off) → exec k s = .next s) ∧
    (fn < 17 → off % 8 = 0 →
      (off < 0x8000 → (fn < 16 ∨ off < 0x3000 ∨ 0x3180 ≤ off) → exec k s = .next s) ∧
      (fn = 16 → 0x3000 ≤ off → off < 0x3180 → exec k s = .next (s.setIsland island { s.island island with replays := 0 })) ∧
      (0x8000 ≤ off → off < 0xC000 → ¬ HasQueue fn q → exec k s = .next s) ∧
      (0x8000 ≤ off → off < 0xC000 → HasQueue fn q → s.holdsQueue fn q →
        (off % 64 = 0x10 → exec k s = exec (.qtailWrite fn q val) s) ∧
        (off % 64 ∈ [0x18, 0x30, 0x38] → exec k s = .next s) ∧
        (off % 64 ∈ [0, 8, 0x20, 0x28] → ∃ u, exec k s = .next u ∧ OneQueue s u fn q ∧ u.cmdQueue fn q =
          if off % 64 = 0 then (if on then x else { x with qbase := val &&& ~~~0x7F })
          else if off % 64 = 8 then
            { x with qctl := if on then (val &&& 0xFFF00001) ||| (x.qctl &&& 0xF000) else val &&& 0xFFF0F001 }
          else if off % 64 = 0x20 then { x with cbase := val &&& ~~~0x1F } else { x with chead := val })) ∧
      (0xC040 ≤ off → exec k s = .next s) ∧
      (0xC000 ≤ off → off < 0xC020 → exec k s =
        .next (if fn = 16 then s else s.setTenant fn { t with faults := ringWritten t.faults (off - 0xC000) val })) ∧
      (0xC020 ≤ off → off < 0xC040 → exec k s = .next (
        if fn = 16 then { s with pkg := { s.pkg with events := ringWritten s.pkg.events (off - 0xC020) val } }
        else s.setTenant fn { t with events := ringWritten t.events (off - 0xC020) val })))) ∧
  (∀ (s : State) (fn : Nat),
    let r (off : Nat) : DWord := s.registerRead fn off
    (∀ off, s.hostRead fn off = .next { s with out := s.out ++ [.registerValue fn off (r off)] }) ∧
    (∀ q, HasQueue fn q →
      let x := s.cmdQueue fn q
      let at_ := 0x8000 + 64 * q
      r at_ = x.qbase ∧ r (at_ + 8) = x.qctl ∧ r (at_ + 0x10) = 0 ∧ r (at_ + 0x18) = x.qhead ∧ r (at_ + 0x20) = x.cbase ∧
        r (at_ + 0x28) = x.chead ∧ r (at_ + 0x30) = 0 ∧ r (at_ + 0x38) = 0) ∧
    (fn = 16 → s.pkg.regionsInService < 2 ^ 32 →
      let field (off lo n : Nat) : Nat := ((r off).extractLsb' lo n).toNat
      field 0x1000 40 24 = 24 ∧ field 0x1000 32 8 = 1 ∧ field 0x1000 0 32 = s.pkg.regionsInService ∧ r 0x1008 = 0 ∧
      (∀ n, n < 24 → let c := s.pkg.columns.getD n Column.reset
        let at_ := 0x1010 + 16 * n
        field at_ 48 16 = n ∧ field at_ 40 8 = 8 ∧ field at_ 28 12 = c.banks % 2 ^ 12 ∧ field at_ 16 12 = c.spare % 2 ^ 12 ∧
          field at_ 8 8 = c.failed % 2 ^ 8 ∧ field at_ 0 8 = 24 ∧ field (at_ + 8) 32 32 = c.mainMib % 2 ^ 32 ∧
          field (at_ + 8) 16 16 = 1024 ∧ field (at_ + 8) 0 16 = 0) ∧
      (∀ n, n < 8 → let p := s.port n
        let at_ := 0x4000 + 16 * n
        field at_ 56 8 = 0 ∧ field at_ 48 8 = p.far.toNat ∧ field at_ 32 16 = p.lanes.toNat ∧ field at_ 4 28 = 0 ∧
          field at_ 0 4 = p.state.toNat ∧ field (at_ + 8) 32 32 = p.replays.toNat ∧ field (at_ + 8) 16 16 = p.retrains.toNat ∧
          field (at_ + 8) 0 16 = 0)) ∧
    (fn < 16 → ∀ off, off < 0x8000 → r off = 0)) ∧
  (∀ (s : State) (t : Nat),
    let k : Instr := .functionLevelReset t
    let x := s.tenant t
    (16 ≤ t → exec k s = .next s) ∧
    (t < 16 → t < s.tenants.length → ∃ u, exec k s = .next u ∧
      (∀ l ∈ u.launches, l.src.fn ≠ t) ∧ (∀ c ∈ u.ctxs, c.tenant ≠ t) ∧ (∀ j ∈ u.jobs, j.tenant ≠ t) ∧
      (∀ h ∈ u.heldPackets, h.tenant ≠ t) ∧ (∀ l ∈ u.l2, l.tenant ≠ t) ∧ (∀ e ∈ u.tlb, e.tenant ≠ t) ∧ (∀ e ∈ u.walkCache, e.tenant ≠ t) ∧
      (∀ q ∈ (u.tenant t).queues, q.qctl = 0 ∧ q.busy = false) ∧ (u.tenant t).key = none ∧ (u.tenant t).sent = [] ∧
      (u.tenant t).received = [] ∧ (u.tenant t).faults.enabled = false ∧ (u.tenant t).events.enabled = false ∧
      (u.tenant t).own = x.own ∧ (u.tenant t).regions = x.regions ∧
      ((u.tenant t).resetting = true ↔ x.own.clusters ≠ 0 ∨ x.own.slices ≠ 0) ∧
      u.pkg.scrubCluster = s.pkg.scrubCluster ||| x.own.clusters ∧ u.pkg.scrubSlice = s.pkg.scrubSlice ||| x.own.slices ∧
      u.peerMem = s.peerMem ∧
      ((∀ l ∈ s.launches, l.src.fn ≠ t) → u.launches = s.launches ∧ u.blocks = s.blocks ∧ u.hostMem = s.hostMem ∧
        (s.memOk → ∀ a, s.noBitmap a → memRead u.mem a = memRead s.mem a)) ∧
      (∀ l, s.launches.filter (fun l => l.src.fn == t) = [l] → s.launch? l.lid = some l → ∃ v w : State, LaunchEnded s v l 0xD ∧
        w = { v with launches := v.launches.filter (fun x => x.lid != l.lid), unsettled := w.unsettled, ctxs := w.ctxs, mem := w.mem, poison := w.poison,
                     checks := w.checks, l2 := w.l2 } ∧
        u.hostMem = (w.complete l.src 0x01 0xD 0).hostMem ∧ u.out = (w.complete l.src 0x01 0xD 0).out))) ∧
  (∀ (s : State) (cols : List ColumnMeasure) (regions : Nat),
    let k : Instr := .packageReset cols regions
    (cols.length ≠ 24 → exec k s = .next s) ∧
    (cols.length = 24 → ∃ u, exec k s = .next u ∧
      u = { State.reset with agenda := s.agenda, stamp := s.stamp, fresh := s.fresh, pkg := u.pkg, hostMem := s.hostMem,
                             peerMem := s.peerMem, farPoison := s.farPoison, out := s.out } ∧
      u.pkg = { Package.reset with columns := u.pkg.columns, regions := u.pkg.regions, regionsInService := regions,
                                   firmware := u.pkg.firmware } ∧
      (∀ i m, cols[i]? = some m → u.column i =
        { banks := m.banks, spare := m.spare, failed := min 255 m.failed, mainMib := (m.banks - m.spare) * 16 - 1024, hot := [] }) ∧
      (∀ i, u.pkg.regions[i]? = if i < regions then
        some { num := i, inService := true, channels := 0, gen := 0, cursor := none, excluded := none } else none) ∧
      let ok : Prop := Config.firmwareSigned s.pkg.firmware = true ∧ Config.fusedMinimum ≤ Config.firmwareVersion s.pkg.firmware
      (ok → u.pkg.firmware = s.pkg.firmware) ∧ (¬ ok → u.pkg.firmware = []))) ∧
  (∀ (s : State) (t addr n : Nat) (bytes : List Byte),
    let kr : Instr := .hostCxlMemRead t addr n
    let kw : Instr := .hostCxlMemWrite t addr bytes
    let rs := (s.tenant t).regions
    ((rs.length ≤ addr / 2 ^ 30 ∨ 2 ^ 30 < addr % 2 ^ 30 + n) → exec kr s = .next s) ∧
    ((rs.length ≤ addr / 2 ^ 30 ∨ 2 ^ 30 < addr % 2 ^ 30 + bytes.length) → exec kw s = .next s) ∧
    (∀ r, rs[addr / 2 ^ 30]? = some r → addr % 2 ^ 30 + n ≤ 2 ^ 30 →
      let a := r * 2 ^ 30 + addr % 2 ^ 30
      ∃ (u : State) (got : List Byte) (bad : Bool), exec kr s = .next u ∧
        u = { s with l2 := u.l2, cores := u.cores, mem := u.mem, poison := u.poison, checks := u.checks, fresh := u.fresh,
                     out := s.out ++ [.hostData t got bad] } ∧ got.length = n ∧
        (s.memOk → ∀ x, s.noBitmap x → memRead u.mem x = memRead s.mem x) ∧
        (s.memOk → ∀ i, i < n → s.noBitmap (a + i) → got.getD i 0 = memRead s.mem (a + i)) ∧
        ((∀ l ∈ s.l2, l.owner ≠ .loc) → (bad = true ↔ ∃ i, i < n ∧ (s.poisoned (a + i) = true ∨ s.mismatch (a + i) = true))) ∧
        ((∀ l ∈ s.l2, l.phys = false) → s.l2.length + n < 20 →
          ∀ i, i < n → (∃ l ∈ u.l2, l.phys = true ∧ l.owner = .loc ∧ l.addr = (a + i) / 64 * 64) ∧
            ∀ l ∈ u.l2, l.owner = .loc → l.addr = (a + i) / 64 * 64 → l.phys = true)) ∧
    (∀ r, rs[addr / 2 ^ 30]? = some r → addr % 2 ^ 30 + bytes.length ≤ 2 ^ 30 → s.memOk → (∀ l ∈ s.launches, l.snap = true → l.state ≠ .running) →
      let a := r * 2 ^ 30 + addr % 2 ^ 30
      let n := bytes.length
      ∃ u, exec kw s = .next u ∧
        u = { s with mem := u.mem, poison := u.poison, checks := u.checks, l2 := u.l2, cores := u.cores, stamp := u.stamp, fresh := u.fresh,
                     wlog := u.wlog, unsettled := u.unsettled } ∧
        (∀ i, i < n → s.noBitmap (a + i) → memRead u.mem (a + i) = bytes.getD i 0) ∧
        (∀ x, (x < a ∨ a + n ≤ x) → s.noBitmap x → memRead u.mem x = memRead s.mem x) ∧
        ((∀ l ∈ s.l2, l.owner ≠ .loc) → s.checks = [] →
          ∀ x, u.poisoned x = true ↔ s.poisoned x = true ∧ ¬ (a ≤ x / 64 * 64 ∧ x / 64 * 64 + 64 ≤ a + n)) ∧
        ((∀ l ∈ s.l2, l.phys = false) →
          (∀ i l, i < n → l ∈ u.l2 → l.owner = .loc → l.addr = (a + i) / 64 * 64 → l.phys = true ∧ l.dirty = true) ∧
          ∀ i m base size b, i < n → s.regionTenant (a + i) = some m → (s.tenant m).track = some (base, size) →
            s.frameBit m (a + i) = some b → b / 8 < size → (base + b / 8 < a ∨ a + n ≤ base + b / 8) → bitmapGet u.mem base b = true)))

namespace Sys2Proof.Machine

/-! ### Links (spec/18, spec/21) -/

/-- What a port of this many lanes is: 2 on sixteen, 3 on eight, 4 on four, otherwise 0, down (R351). -/
def portStateOf (lanes : BitVec 16) : BitVec 4 :=
  let n := (bitsOf lanes).length
  if n = 16 then 2 else if n = 8 then 3 else if n = 4 then 4 else 0

/-- One more, saturating. -/
def oneMore {w : Nat} (x : BitVec w) : BitVec w := if x = BitVec.allOnes w then x else x + 1

/-- The packets of a buffer up to the first of a number, and the rest; none comes first where no packet has the number. -/
def CutAt (ack : BitVec 12) (buffer gone rest : List SentPacket) : Prop :=
  buffer = gone ++ rest ∧
    ((gone = [] ∧ ∀ x ∈ buffer, x.packet.seq ≠ ack) ∨
      ∃ g x, gone = g ++ [x] ∧ x.packet.seq = ack ∧ ∀ y ∈ g, y.packet.seq ≠ ack)

/-- The writes of these packets have settled (spec/09 R163); copies that waited for them complete where nothing else holds them, waves that
await acknowledgements go on, then held packets go (R69, R71, R339). -/
def State.released (s : State) (gone : List SentPacket) : State :=
  let ids := gone.filterMap (·.settles)
  let v : State := { s with unsettled := s.unsettled.filter fun u => u.owner == .loc || !ids.contains u.id }
  (((gone.filterMap (·.job)).foldl (fun (s : State) id => s.finishJob id) v).endAcks).releaseHeld

/-- A port's packets up to a number are acknowledged. -/
def Acked (s u : State) (n : Nat) (ack : BitVec 12) : Prop :=
  ∃ gone rest, CutAt ack (s.port n).buffer gone rest ∧ u = (s.setPort n { s.port n with acked := ack, buffer := rest }).released gone

/-- Every packet of the replay buffer is sent again as it was built; one replay is counted. -/
def Replayed (s u : State) (n : Nat) : Prop :=
  let p := s.port n
  u = { s.setPort n { p with replays := oneMore p.replays } with out := s.out ++ p.buffer.map fun x => .packet n x.packet }

/-- A control packet leaves: an acknowledgement (0x10) or a NAK (0x11) of the last packet accepted. -/
def Controls (s u : State) (n type : Nat) : Prop :=
  ∃ pk : Packet, pk.type = BitVec.ofNat 8 type ∧ pk.ack = (s.port n).expected - 1 ∧ pk.lines = [] ∧ pk.hcv = crc32c (packetHead pk) ∧
    u = { s with out := s.out ++ [.packet n pk] }

/-- A discard: one NAK until a packet is accepted again. -/
def Discards (s u : State) (n : Nat) : Prop :=
  if (s.port n).nakSent = true then u = s else Controls (s.setPort n { s.port n with nakSent := true }) u n 0x11

/-- A packet is numbered, enters the replay buffer, and goes out at once unless the port retrains. -/
def Sent (s u : State) (n : Nat) (sp : SentPacket) : Prop :=
  let p := s.port n
  ∃ q : Packet, q = { sp.packet with seq := p.nextSeq, ack := p.expected - 1, nfl := BitVec.ofNat 4 ((q.lines.length + 3) / 4), hcv := q.hcv } ∧
    q.hcv = crc32c (packetHead q) ∧
    u = { s.setPort n { p with nextSeq := p.nextSeq + 1, buffer := p.buffer ++ [{ sp with packet := q }], ackDue := false } with
          out := if p.state = 1 then s.out else s.out ++ [.packet n q] }

/-- An answer leaves on the port that was asked, or is held there behind others or while its buffer holds 1,024 packets (R337, R339). -/
def Answers (s u : State) (n : Nat) (sp : SentPacket) : Prop :=
  let room : Prop := (s.port n).buffer.length < 1024 ∧ ∀ h ∈ s.heldPackets, h.port ≠ some n
  (room → Sent s u n sp) ∧
  (¬ room → u = { s with heldPackets := s.heldPackets ++
    [{ tenant := (s.portOwner n).getD 16, peer := (s.port n).far.toNat, sent := sp, port := some n }] })

/-- A link-state event with port, lanes and state goes to the package function and to the port's owner (R338, R332). -/
def LinkTold (s u : State) (n : Nat) : Prop :=
  let p := s.port n
  let d := BitVec.ofNat 64 (n + p.lanes.toNat * 2 ^ 16 + p.state.toNat * 2 ^ 32)
  u = (s.tenants.findIdx? fun t => t.own.ports.getLsbD n).elim (s.packageEvent 4 d) fun t => (s.packageEvent 4 d).tenantEvent t 4 d

/-- An address that a port's peer may name: it lies in a region in service of the port's owner (R13; log 30). -/
def State.mayName (s : State) (n a : Nat) : Prop :=
  ∃ t, s.portOwner n = some t ∧ a / 2 ^ 30 ∈ (s.tenant t).regions ∧ ∃ r ∈ s.pkg.regions, r.inService = true ∧ r.num = a / 2 ^ 30

/-- Lines land at their D from an address on, under masks; no other byte changes but in dirty bitmaps (R169, R33, R39). -/
def Lands (v w : State) (a : Nat) (lines : List LineData) (mask : Nat → ByteMask) (bad : Nat → Bool) : Prop :=
  w = { v with mem := w.mem, poison := w.poison, checks := w.checks, l2 := w.l2, cores := w.cores, stamp := w.stamp, fresh := w.fresh,
               wlog := w.wlog, unsettled := w.unsettled } ∧
  (∀ i b, i < lines.length → b < 64 → v.noBitmap (a + 64 * i + b) →
    memRead w.mem (a + 64 * i + b) = if (mask i).getLsbD b then byteOf (lines.getD i 0) b else memRead v.mem (a + 64 * i + b)) ∧
  (∀ x, (x < a ∨ a + 64 * lines.length ≤ x) → v.noBitmap x → memRead w.mem x = memRead v.mem x) ∧
  (a % 64 = 0 → (∀ l ∈ v.l2, l.owner ≠ .loc) → v.checks = [] → ∀ i, i < lines.length →
    (w.poisoned (a + 64 * i) = true ↔ bad i = true ∨ (v.poisoned (a + 64 * i) = true ∧ mask i ≠ BitVec.allOnes 64)))

end Sys2Proof.Machine

/-- Pleip packets are taken in order, acknowledged, replayed and answered, and lane loss and retraining act as R337, R338 and
R353 say. A link that is down or retrains takes nothing. A packet that fails its checks, or is out of order, is discarded with
one NAK. An acknowledgement releases the packets up to its number; a NAK also replays the rest as built; a timeout replays. An
accepted write lands under its byte masks with its poison; a read request is answered with the line and its poison, its answer
enters peer memory, and an atomic leaves a free line and free operands (the manual gives no layout, log 20). Addresses outside
the port owner's regions change nothing (the model's reading, log 30). Losing a lane retrains on what is left, or takes the link
down with an event. Retraining ends with release, replay and event. (R336; R337; R338; R339; R350; R352; R353; R13; R27) -/
def Obligations.LinkResults : Prop :=
  (∀ (s : State) (n : Nat),
    let p := s.port n
    let up : Prop := p.state = 2 ∨ p.state = 3 ∨ p.state = 4
    (∀ ack, (¬ up → exec (.pleipAckReceive n ack) s = .next s ∧ exec (.pleipNakReceive n ack) s = .next s) ∧
      (up → ∃ v w, Acked s v n ack ∧ exec (.pleipAckReceive n ack) s = .next v ∧ Replayed v w n ∧
        exec (.pleipNakReceive n ack) s = .next w)) ∧
    ((¬ up ∨ p.buffer = []) → exec (.pleipReplayTimeout n) s = .next s) ∧
    (up → p.buffer ≠ [] → ∃ u, Replayed s u n ∧ exec (.pleipReplayTimeout n) s = .next u) ∧
    ((¬ up ∨ p.ackDue = false) → exec (.pleipAckTimer n) s = .next s) ∧
    (up → p.ackDue = true → n < s.ports.length →
      ∃ u, Controls (s.setPort n { p with ackDue := false }) u n 0x10 ∧ exec (.pleipAckTimer n) s = .next u) ∧
    (∀ pk : Packet,
      let k : Instr := .pleipPacketReceive n pk
      let good : Prop := pk.hcv = crc32c (packetHead pk) ∧ pk.lines.length ≤ 32 ∧ pk.nfl.toNat = (pk.lines.length + 3) / 4 ∧
        ∀ i d, pk.lines[i]? = some d → pk.lcv.getD i 0 = crc32c (lineBytes d)
      let inTurn (v : State) : Prop := 1 ≤ pk.type.toNat ∧ pk.type.toNat ≤ 5 ∧ pk.seq = (v.port n).expected
      (¬ up → exec k s = .next s) ∧ (up → n < s.ports.length →
        (¬ good → ∃ u, Discards s u n ∧ exec k s = .next u) ∧
        (good → pk.type = 0x10 → exec k s = exec (.pleipAckReceive n pk.ack) s) ∧
        (good → pk.type = 0x11 → exec k s = exec (.pleipNakReceive n pk.ack) s) ∧
        (good → pk.type ≠ 0x10 → pk.type ≠ 0x11 → ∃ v, Acked s v n pk.ack ∧
          (¬ inTurn v → ∃ u, Discards v u n ∧ exec k s = .next u) ∧
          (inTurn v → ∃ w, w = v.applyPacket n pk ∧
            exec k s = .next (w.setPort n { w.port n with expected := (w.port n).expected + 1, nakSent := false, ackDue := true })))))) ∧
  (∀ (v : State) (n : Nat) (pk : Packet), v.memOk → (∀ l ∈ v.launches, l.snap = true → l.state ≠ .running) →
    let a := pk.addr.toNat
    let w := v.applyPacket n pk
    let here := v.mayName n a
    let ops := bytesNat pk.ops
    (pk.type = 1 → a % 2 ^ 30 + 64 * pk.lines.length ≤ 2 ^ 30 → (¬ here → w = v) ∧ (here → Lands v w a pk.lines
      (fun i => let m := if i = 0 then ops / 2 ^ 16 % 2 ^ 64 else if i + 1 = pk.lines.length then ops / 2 ^ 80 % 2 ^ 64 else 0
                if m = 0 then BitVec.allOnes 64 else BitVec.ofNat 64 m)
      (fun i => if i < 20 then pk.poison.getLsbD i else ops.testBit (i - 20)))) ∧
    (pk.type = 2 → ∃ (d : LineData) (q : Packet) (x : State), q.type = 3 ∧ q.addr = pk.addr ∧ q.lines = [d] ∧
      q.lcv = [crc32c (lineBytes d)] ∧ (q.poison = 0 ∨ q.poison = 1) ∧ Answers x w n { packet := q, job := none, lid := none, va := none } ∧
      (¬ here → x = { v with fresh := v.fresh + 1 } ∧ q.poison = 0) ∧
      (here → (∀ t ∈ v.tenants, t.track = none) →
        x = { v with l2 := x.l2, cores := x.cores, poison := x.poison, checks := x.checks, fresh := x.fresh, unsettled := x.unsettled } ∧
        (v.unsettled = [] → d = memLine v.mem a) ∧
        ((∀ l ∈ v.l2, l.owner ≠ .loc) → (q.poison = 1 ↔ v.poisoned a = true ∨ v.mismatch a = true)))) ∧
    (pk.type = 3 → w = { v with peerMem := w.peerMem, farPoison := w.farPoison } ∧
      (∀ i b, i < pk.lines.length → b < 64 →
        memRead w.peerMem ((v.port n).far.toNat * 2 ^ 56 + (a + 64 * i) + b) = byteOf (pk.lines.getD i 0) b) ∧
      (∀ x, (x < (v.port n).far.toNat * 2 ^ 56 + a ∨ (v.port n).far.toNat * 2 ^ 56 + a + 64 * pk.lines.length ≤ x) →
        memRead w.peerMem x = memRead v.peerMem x) ∧
      ∀ i, i < pk.lines.length → (w.farPoisoned (.peer (v.port n).far.toNat) (a + 64 * i) = true ↔
        (if i < 20 then pk.poison.getLsbD i else ops.testBit (i - 20)) = true)) ∧
    (pk.type = 4 → ∃ (d : LineData) (q : Packet) (x : State), q.type = 5 ∧ q.addr = pk.addr ∧ q.lines = [] ∧
      (¬ here → x = { v with fresh := x.fresh }) ∧
      (here → Lands v x a [d] (fun _ => BitVec.allOnes 64) (fun _ => v.poisoned a)) ∧
      Answers x w n { packet := q, job := none, lid := none, va := none }) ∧
    (pk.type = 5 → w = v)) ∧
  (∀ (s : State) (n lane : Nat),
    let k : Instr := .laneLoss n lane
    let p := s.port n
    let count := (bitsOf p.lanes).length
    ((p.state = 0 ∨ p.lanes.getLsbD lane = false) → exec k s = .next s) ∧
    (p.state ≠ 0 → p.lanes.getLsbD lane = true → ∃ left : BitVec 16,
      (count = 16 → left = if lane < 8 then 0xFF00 else 0x00FF) ∧
      (count = 8 → ∀ i, i < 16 → (left.getLsbD i = true ↔ p.lanes.getLsbD i = true ∧ i / 4 ≠ lane / 4)) ∧
      (count ≠ 16 → count ≠ 8 → left = 0) ∧
      (left ≠ 0 → exec k s = .next (s.setPort n { p with lanes := left, state := 1 })) ∧
      (left = 0 → ∃ u, LinkTold (s.setPort n { p with lanes := 0, state := 0, retrains := oneMore p.retrains }) u n ∧
        exec k s = .next u))) ∧
  (∀ (s : State) (n : Nat) (ack : BitVec 12),
    ((s.port n).state ≠ 1 → exec (.retrainComplete n ack) s = .next s) ∧
    ((s.port n).state = 1 → exec (.retrainComplete n ack) s = .next (s.trained n (s.port n).lanes ack)) ∧
    ∀ lanes, n < s.ports.length →
      let p := s.port n
      let x : Port := { p with lanes := lanes, state := portStateOf lanes, retrains := oneMore p.retrains, nakSent := false }
      (portStateOf lanes = 0 → LinkTold (s.setPort n x) (s.trained n lanes ack) n) ∧
      (portStateOf lanes ≠ 0 → ∃ gone rest v, CutAt ack p.buffer gone rest ∧
        Replayed { s.setPort n { x with acked := ack, buffer := rest } with out := s.out ++ [.trainExchange n (p.expected - 1)] } v n ∧ LinkTold (v.released gone) (s.trained n lanes ack) n)) ∧
  (∀ (s : State) (t p : Nat),
    (∀ n, s.portTo t p = some n ↔ n < 8 ∧ ((s.tenant t).own.ports.getLsbD n = true ∧ (s.port n).far.toNat = p ∧ (s.port n).state ≠ 0) ∧
      ∀ m, m < n → ¬ ((s.tenant t).own.ports.getLsbD m = true ∧ (s.port m).far.toNat = p ∧ (s.port m).state ≠ 0)) ∧
    (s.portFor t p none = s.portTo t p ∧ ∀ m, s.portFor t p (some m) =
      if (s.tenant t).own.ports.getLsbD m = true ∧ (s.port m).far.toNat = p ∧ (s.port m).state ≠ 0 then some m else s.portTo t p) ∧
    (s.heldPackets = [] → s.releaseHeld = s) ∧
    (∀ h, s.heldPackets = [h] → h.tenant = t → h.peer = p →
      let held (port : Option Nat) : State := { s with heldPackets := [{ h with port := port }] }
      (s.portFor t p h.port = none → s.releaseHeld = held none) ∧
      (∀ n, s.portFor t p h.port = some n → 1024 ≤ (s.port n).buffer.length → s.releaseHeld = held (some n)) ∧
      (∀ n, s.portFor t p h.port = some n → (s.port n).buffer.length < 1024 → Sent { s with heldPackets := [] } s.releaseHeld n h.sent))) ∧
  (∀ (s : State) l r b, s.block? l r = some b → ∃ y, s.endAcks.block? l r = some y ∧ y = { b with waves := y.waves } ∧
    ∀ n, y.wave n = if (b.wave n).wait = some .acks ∧ s.awaitsAck ⟨l, r, n⟩ = false then { b.wave n with wait := none } else b.wave n)

namespace Sys2Proof.Machine

/-! ### Events, scrubs, repair, heat and power -/

/-- A record enters a ring of host memory (R332): nothing where the ring is off; a full ring drops it and is marked, and the next record
carries the mark. -/
def RingTakes (s v : State) (r r' : Ring) (size : Nat) (record : Bool → List DWord) : Prop :=
  let n := 2 ^ (r.log + 4)
  let full : Prop := (r.tail.toNat + 1) % n = r.head.toNat % n
  let ws := record r.lost
  let at_ := r.base.toNat + size * r.tail.toNat
  (r.enabled = false → v = s ∧ r' = r) ∧
  (r.enabled = true → full → v = s ∧ r' = { r with lost := true }) ∧
  (r.enabled = true → ¬ full → v = { s with hostMem := v.hostMem } ∧
    r' = { r with tail := BitVec.ofNat 64 ((r.tail.toNat + 1) % n), lost := false } ∧
    (∀ i j, i < ws.length → j < 8 → memRead v.hostMem (at_ + 8 * i + j) = (ws.getD i 0).extractLsb' (8 * j) 8) ∧
    ∀ x, (x < at_ ∨ at_ + 8 * ws.length ≤ x) → memRead v.hostMem x = memRead s.hostMem x)

def sentIf (s : State) (on : Bool) (fn vector : Nat) : State := if on then { s with out := s.out ++ [.msix fn vector] } else s

/-- Nothing of a tenant's clusters and slices is still to be scrubbed. -/
def State.scrubbed (u : State) (n : Nat) : Prop :=
  (u.tenant n).own.clusters &&& u.pkg.scrubCluster = 0 ∧ (u.tenant n).own.slices &&& u.pkg.scrubSlice = 0

/-- A scrub has changed only whether tenants are under reset: the unit's owner, where it was, is so until everything of it is scrubbed. -/
def ResetSettles (s u : State) (owner : Option Nat) : Prop :=
  (∀ n, u.tenant n = { s.tenant n with resetting := (u.tenant n).resetting }) ∧
  ∀ n, (u.tenant n).resetting = true ↔ (s.tenant n).resetting = true ∧ (owner = some n → n < s.tenants.length → ¬ u.scrubbed n)

/-- A bank over 85 °C meets a cluster of another tenant (R324). -/
def State.hotAcross (s : State) (column channel : Nat) : Prop :=
  ∃ a b, (s.tenants.findIdx? fun t => t.own.channels.getLsbD channel) = some a ∧
    (s.tenants.findIdx? fun t => t.own.clusters.getLsbD column) = some b ∧ a ≠ b

end Sys2Proof.Machine

/-- Event and fault records enter their rings, and scrubs, slice changes, re-striping, heat and power act as their rules say. A
record enters an enabled ring with the LOST mark of a dropped one; vectors 65 (event), 64 (fault) and 1 (package) are sent.
SCRUB clears a waiting cluster's cores and column cache or a slice, and ends its owner's reset when nothing is left. A slice
change waits while the tenant has a resident block or others own the slices, and flushes L2. A region begins to move where its
set has a spare bank, otherwise an event asks for space; a unit moves 4 KiB and poisons unreadable lines; at its end the bank is
removed once no region uses it. A hot bank raises events and throttles an island of another tenant; steps go down or up within
eight. (R332; R317; R56; R55; R42; R333; R15; R16; R324; R345) -/
def Obligations.PackageEventResults : Prop :=
  (∀ (s : State) (t type : Nat) (detail : DWord), s.memOk → t < s.tenants.length →
    let record (lost : Bool) : List DWord := [BitVec.ofNat 64 (type + if lost then 256 else 0), detail]
    let r := (s.tenant t).events
    (∃ v r', RingTakes s v r r' 16 record ∧ s.tenantEvent t type detail =
      sentIf (v.setTenant t { s.tenant t with events := r' }) r.enabled (t + 1) 65) ∧
    (∃ v r', RingTakes s v s.pkg.events r' 16 record ∧ s.packageEvent type detail =
      sentIf { v with pkg := { s.pkg with events := r' } } s.pkg.events.enabled 0 1) ∧
    (∀ words : Bool → List DWord, ∃ v r', RingTakes s v (s.tenant t).faults r' 128 words ∧ s.writeFault t words =
      sentIf (v.setTenant t { s.tenant t with faults := r' })
        ((s.tenant t).faults.enabled && !(((s.tenant t).faults.tail.toNat + 1) % 2 ^ ((s.tenant t).faults.log + 4) ==
          (s.tenant t).faults.head.toNat % 2 ^ ((s.tenant t).faults.log + 4))) (t + 1) 64)) ∧
  (∀ (s : State) (n : Nat),
    let kc : Instr := .scrub (.cluster n)
    let ks : Instr := .scrub (.slice n)
    let held : Prop := s.pkg.scrubCluster.getLsbD n = false ∨ ∃ b ∈ s.blocks, b.place = .resident ∧ b.core / 12 = n
    (held → exec kc s = .next s) ∧
    (¬ held → ∃ u, exec kc s = .next u ∧
      u = { s with cores := u.cores, l2 := u.l2, tenants := u.tenants, deckLines := u.deckLines, mem := u.mem, poison := u.poison, checks := u.checks,
                   pkg := { s.pkg with scrubCluster := u.pkg.scrubCluster } } ∧
      (∀ x, x ∈ u.deckLines ↔ x ∈ s.deckLines ∧ x.cluster ≠ n) ∧
      ((∀ x ∈ s.deckLines, x.cluster = n → x.dirty = false) → u.mem = s.mem ∧ u.poison = s.poison ∧ u.checks = s.checks) ∧
      u.cores.length = s.cores.length ∧
      (∀ i, i < s.cores.length → u.core i = if i / 12 = n then { Core.reset with cycle := (s.core i).cycle } else s.core i) ∧
      (∀ i, u.pkg.scrubCluster.getLsbD i = true ↔ s.pkg.scrubCluster.getLsbD i = true ∧ i ≠ n) ∧
      u.l2.map L2Line.bare = s.l2.map L2Line.bare ∧
      (∀ l ∈ u.l2, l.sharers.getLsbD n = false) ∧ ResetSettles s u (s.tenants.findIdx? fun t => t.own.clusters.getLsbD n)) ∧
    (s.pkg.scrubSlice.getLsbD n = false → exec ks s = .next s) ∧
    (s.pkg.scrubSlice.getLsbD n = true → ∃ u, exec ks s = .next u ∧
      u = { s with tenants := u.tenants, pkg := { s.pkg with scrubSlice := u.pkg.scrubSlice } } ∧
      (∀ i, u.pkg.scrubSlice.getLsbD i = true ↔ s.pkg.scrubSlice.getLsbD i = true ∧ i ≠ n) ∧
      ResetSettles s u (s.tenants.findIdx? fun t => t.own.slices.getLsbD n))) ∧
  (∀ (s : State) (t : Nat) (slices : BitVec 96),
    let k : Instr := .l2OwnershipChange t slices
    let x := s.tenant t
    let held : Prop := 16 ≤ t ∨ (∃ b ∈ s.blocks, b.place = .resident ∧ ∃ l, s.launch? b.lid = some l ∧ l.src.fn = t) ∨
      (∃ n, n ≠ t ∧ (s.tenant n).own.slices &&& slices ≠ 0) ∨ slices &&& s.pkg.scrubSlice ≠ 0
    (held → exec k s = .next s) ∧
    (¬ held → ∃ u, exec k s = .next u ∧
      u = { s.setTenant t { x with own := { x.own with slices := slices } } with
            mem := u.mem, poison := u.poison, checks := u.checks, l2 := u.l2, pkg := { s.pkg with scrubSlice := s.pkg.scrubSlice ||| (x.own.slices &&& ~~~slices) } } ∧
      u.l2.map L2Line.bare = (s.l2.filter fun l => l.tenant != t).map L2Line.bare ∧ (s.memOk → ∀ a, s.noBitmap a → memRead u.mem a = memRead s.mem a))) ∧
  (∀ (s : State) (region col : Nat) (bad : List Nat),
    let k : Instr := .restripeStart region col
    let km : Instr := .restripeUnitMove region bad
    let r? := s.pkg.regions.find? fun x => x.num == region
    let on (r : Region) (i : Nat) : Prop := i < 24 ∧ ∃ j, j < 4 ∧ r.channels.getLsbD (4 * i + j) = true
    let put (r : Region) : List Region := s.pkg.regions.map fun x => if x.num = r.num then r else x
    (r? = none → exec k s = .next s ∧ exec km s = .next s) ∧
    (∀ r, r? = some r →
      let may : Prop := r.inService = true ∧ on r col ∧ r.cursor = none ∧ r.excluded = none ∧ s.usesBank r col = true ∧
        ∀ x ∈ s.pkg.regions, x.cursor.isSome = true → ∀ c, x.excluded = some c → c / 6 ≠ col / 6
      let spare : Prop := ∃ i, (i = col ∨ on r i) ∧ 0 < (s.column i).spare
      (¬ may → exec k s = .next s) ∧
      (may → ¬ spare → exec k s =
        .next (s.packageEvent (0x11 + 2 ^ 32 * (r.channels.toNat / 2 ^ 64)) (r.channels.extractLsb' 0 64))) ∧
      (may → spare → exec k s =
        .next { s with pkg := { s.pkg with regions := put { r with gen := r.gen + 1, cursor := some 0, excluded := some col } } }) ∧
      ((r.cursor = none ∨ r.excluded = none) → exec km s = .next s) ∧
      (∀ a c, r.cursor = some a → r.excluded = some c → ∃ v : State,
        let next := if a + 4096 < 2 ^ 30 then some (a + 4096) else none
        v = { s with poison := v.poison, pkg := { s.pkg with regions := put { r with cursor := next } } } ∧
        (∀ x, x ∈ v.poison ↔ x ∈ s.poison ∨ ∃ i ∈ bad, i < 64 ∧ x = (region * 2 ^ 30 + a + 64 * i) / 64) ∧
        let uses : Prop := ∃ x ∈ v.pkg.regions, x.inService = true ∧ on x c ∧
          ¬ (x.excluded = some c ∧ x.cursor = none) ∧ (x.cursor.isSome = true ∨ v.usesBank x c = true)
        ((a + 4096 < 2 ^ 30 ∨ uses) → exec km s = .next v) ∧
        (2 ^ 30 ≤ a + 4096 → ¬ uses → s.pkg.columns.length = 24 → c < 24 → ∃ u d, exec km s = .next u ∧
          u = { v with hostMem := u.hostMem, out := u.out, pkg := { v.pkg with events := u.pkg.events, columns := u.pkg.columns, regions := u.pkg.regions } } ∧
          u.pkg.regions = v.pkg.regions.map (fun y => if y.excluded = some c then { y with excluded := none } else y) ∧
          (d = c ∨ on r d) ∧ (0 < (s.column c).spare → d = c) ∧ ((∃ i, (i = c ∨ on r i) ∧ 0 < (s.column i).spare) → 0 < (s.column d).spare) ∧
          let took (i : Nat) : Column := Column.capacity { s.column i with
            banks := if i = c then (s.column i).banks - 1 else (s.column i).banks
            failed := if i = c then min 255 ((s.column i).failed + 1) else (s.column i).failed
            spare := if i = d then (s.column i).spare - 1 else (s.column i).spare }
          (∀ i, i < 24 → (i = c ∨ i = d) → u.column i = took i) ∧ ∀ i, i < 24 → i ≠ c → i ≠ d → u.column i = s.column i))) ∧
  (∀ (s : State) (ch bank : Nat) (hot : Bool),
    let k : Instr := .bankOvertemp ch bank hot
    let col := ch / 4
    let old := (s.column col).hot
    let put (hs : List (Nat × Nat)) : State := { s with pkg := { s.pkg with columns := s.pkg.columns.set col { s.column col with hot := hs } } }
    let effect : Prop := ch < 96 ∧ bank < 216 ∧ ((ch, bank) ∈ old ↔ hot = false)
    (¬ effect → exec k s = .next s) ∧
    (effect → hot = true → ∃ w, w = ((s.tenants.findIdx? fun t => t.own.channels.getLsbD ch).elim (put ((ch, bank) :: old)) fun t =>
        (put ((ch, bank) :: old)).tenantEvent t 2 (BitVec.ofNat 64 ch)) ∧
      (¬ s.hotAcross col ch → exec k s = .next w) ∧
      (∀ b, s.hotAcross col ch → (s.tenants.findIdx? fun t => t.own.clusters.getLsbD col) = some b →
        exec k s = .next ((w.setIsland col { s.island col with throttled := true }).tenantEvent b 3 (BitVec.ofNat 64 col)))) ∧
    (effect → hot = false → ∃ on, (on = true ↔ ∃ h ∈ old, h ≠ (ch, bank) ∧ s.hotAcross col h.1) ∧
      exec k s = .next ((put (old.filter (· != (ch, bank)))).setIsland col { s.island col with throttled := on }))) ∧
  (∀ (s : State) (n : Nat) (lower : Bool),
    let shift (x : Island) : Island := { x with step := if lower then min 7 (x.step + 1) else x.step - 1 }
    exec (.thermalThrottleStep n lower) s =
      .next (if (s.island n).throttled = lower then s.setIsland n (shift (s.island n)) else s) ∧
    exec (.powerLimitStep lower) s = .next { s with pkg := { s.pkg with
      islands := s.pkg.islands.map fun x => if lower = false ∧ x.throttled = true then x else shift x } }))
end

