-- ==== Sys2Proof/Laws/Registers.lean ====
section
/-!
SUPPORT. The laws of registers: what each named write leaves in each lane, scalar and predicate, and which effect it has.
-/

namespace Sys2Proof.Machine

set_option linter.all false
set_option Elab.async false

/-! ### Lists by index and lane masks -/

theorem setAt_getD {α : Type} (d x : α) (n m : Nat) (l : List α) :
    (setAt d n x l).getD m d = if m = n then x else l.getD m d := by
  induction n generalizing m l with
  | zero => cases l <;> cases m <;> simp [setAt]
  | succ n ih =>
    cases l <;> cases m <;> simp [setAt]
    · exact (List.getD_eq_getElem?_getD ..).symm.trans ((ih _ _).trans (by simp))
    · exact (List.getD_eq_getElem?_getD ..).symm.trans ((ih _ _).trans (by simp))

theorem laneBit_getLsbD (i l : Nat) (h : l < 128) : (laneBit i).getLsbD l = decide (l = i) := by
  simp only [laneBit, BitVec.getLsbD_shiftLeft, h]
  by_cases e : l = i
  · simp [e]
  · rcases Nat.lt_or_gt_of_ne e with g | g
    · simp [e, g]
    · have : l - i ≠ 0 := by omega
      simp [e, this]

theorem maskOf_fold (p : Nat → Bool) (l : Nat) (h : l < 128) (xs : List Nat) (m : Mask) :
    (xs.foldl (fun m l => if p l then m ||| laneBit l else m) m).getLsbD l = (m.getLsbD l || (xs.contains l && p l)) := by
  induction xs generalizing m with
  | nil => simp
  | cons x xs ih =>
    rw [List.foldl_cons, ih]
    by_cases hx : l = x
    · subst hx
      cases p l <;> simp [laneBit_getLsbD _ _ h]
    · by_cases hp : p x = true <;> simp [hp, laneBit_getLsbD _ _ h, hx]

@[simp] theorem maskOf_getLsbD (p : Nat → Bool) (l : Nat) (h : l < 128) : (maskOf p).getLsbD l = p l := by
  rw [maskOf, maskOf_fold _ _ h]
  simp [h]

theorem mask_ext {a b : Mask} (h : ∀ l, l < 128 → a.getLsbD l = b.getLsbD l) : a = b := BitVec.eq_of_getLsbD_eq h

/-! ### The writes -/

theorem rowSet_getD (m : Mask) (f : Nat → Option Word) (r : Row) (l : Nat) (h : l < 128) :
    (rowSet m f r).getD l none = if m.getLsbD l then f l else r.getD l none := by
  simp [rowSet, List.getD, h]

theorem RegCtx.setRow_lane (r : RegCtx) (n : Nat) (m : Mask) (f : Nat → Option Word) (k l : Nat) (h : l < 128) :
    (r.setRow n m f).lane k l = if k = n ∧ m.getLsbD l then f l else r.lane k l := by
  simp only [lane, row, setRow, setAt_getD]
  by_cases e : k = n
  · simp only [e, true_and, if_true]; exact rowSet_getD m f _ l h
  · simp [e]

@[simp] theorem RegCtx.setRow_nv (r : RegCtx) (n m f) : (r.setRow n m f).nv = r.nv := rfl
@[simp] theorem RegCtx.setRow_scalars (r : RegCtx) (n m f) : (r.setRow n m f).scalars = r.scalars := rfl
@[simp] theorem RegCtx.setRow_preds (r : RegCtx) (n m f) : (r.setRow n m f).preds = r.preds := rfl
@[simp] theorem RegCtx.setRow_fstat (r : RegCtx) (n m f) : (r.setRow n m f).fstat = r.fstat := rfl
@[simp] theorem RegCtx.setRow_scalar (r : RegCtx) (n m f k) : (r.setRow n m f).scalar k = r.scalar k := rfl
@[simp] theorem RegCtx.setRow_pred (r : RegCtx) (n m f k) : (r.setRow n m f).pred k = r.pred k := rfl

@[simp] theorem RegCtx.setPair_nv (r : RegCtx) (n m f) : (r.setPair n m f).nv = r.nv := rfl
@[simp] theorem RegCtx.setPair_fstat (r : RegCtx) (n m f) : (r.setPair n m f).fstat = r.fstat := rfl
@[simp] theorem RegCtx.setPair_scalar (r : RegCtx) (n m f k) : (r.setPair n m f).scalar k = r.scalar k := rfl
@[simp] theorem RegCtx.setPair_pred (r : RegCtx) (n m f k) : (r.setPair n m f).pred k = r.pred k := rfl

theorem RegCtx.setPair_lane (r : RegCtx) (n : Nat) (m : Mask) (f : Nat → Option Word × Option Word) (k l : Nat) (h : l < 128) :
    (r.setPair n m f).lane k l =
      if k = n ∧ m.getLsbD l then (f l).1 else if k = n + 1 ∧ m.getLsbD l then (f l).2 else r.lane k l := by
  simp only [setPair, setRow_lane _ _ _ _ _ _ h]
  by_cases e : k = n
  · have : ¬ k = n + 1 := by omega
    simp [e]
  · simp [e]

@[simp] theorem RegCtx.setScalar_nv (r : RegCtx) (n x) : (r.setScalar n x).nv = r.nv := by unfold setScalar; split <;> rfl
@[simp] theorem RegCtx.setScalar_fstat (r : RegCtx) (n x) : (r.setScalar n x).fstat = r.fstat := by unfold setScalar; split <;> rfl
@[simp] theorem RegCtx.setScalar_lane (r : RegCtx) (n x k l) : (r.setScalar n x).lane k l = r.lane k l := by unfold setScalar; split <;> rfl
@[simp] theorem RegCtx.setScalar_pred (r : RegCtx) (n x k) : (r.setScalar n x).pred k = r.pred k := by unfold setScalar; split <;> rfl

theorem RegCtx.setScalar_scalar (r : RegCtx) (n : Nat) (x : DWord) (k : Nat) (h : n < 256) :
    (r.setScalar n x).scalar k = if k = n then x else r.scalar k := by
  simp only [setScalar, h, if_true, scalar, setAt_getD]

@[simp] theorem RegCtx.setPred_nv (r : RegCtx) (n m v) : (r.setPred n m v).nv = r.nv := by unfold setPred; split <;> rfl
@[simp] theorem RegCtx.setPred_fstat (r : RegCtx) (n m v) : (r.setPred n m v).fstat = r.fstat := by unfold setPred; split <;> rfl
@[simp] theorem RegCtx.setPred_lane (r : RegCtx) (n m v k l) : (r.setPred n m v).lane k l = r.lane k l := by unfold setPred; split <;> rfl
@[simp] theorem RegCtx.setPred_scalar (r : RegCtx) (n m v k) : (r.setPred n m v).scalar k = r.scalar k := by unfold setPred; split <;> rfl

theorem RegCtx.setPred_pred (r : RegCtx) (n : Nat) (m v : Mask) (k : Nat) (h : n < 8) :
    (r.setPred n m v).pred k = if k = n ∧ k ≠ 7 then (r.pred n &&& ~~~m) ||| (v &&& m) else r.pred k := by
  by_cases h7 : n = 7
  · subst h7
    have : ¬ (k = 7 ∧ k ≠ 7) := by omega
    simp [setPred, this]
  · have hn : n < 7 := by omega
    by_cases e : k = n
    · subst e; simp [setPred, hn, pred, h7, setAt_getD, -List.getD_eq_getElem?_getD]
    · by_cases k7 : k = 7
      · simp [pred, k7]
      · simp [setPred, hn, pred, k7, setAt_getD, e, -List.getD_eq_getElem?_getD]

/-! ### Last uses -/

@[simp] theorem RegCtx.kill_nv (r : RegCtx) (n m) : (r.kill n m).nv = r.nv := rfl
@[simp] theorem RegCtx.kill_fstat (r : RegCtx) (n m) : (r.kill n m).fstat = r.fstat := rfl
@[simp] theorem RegCtx.kill_scalar (r : RegCtx) (n m k) : (r.kill n m).scalar k = r.scalar k := rfl
@[simp] theorem RegCtx.kill_pred (r : RegCtx) (n m k) : (r.kill n m).pred k = r.pred k := rfl

/-- Registers with some marked dead in some lanes. -/
def RegCtx.killAll (r : RegCtx) (ns : List Nat) (m : Mask) : RegCtx := ns.foldl (fun r n => r.kill n m) r

@[simp] theorem RegCtx.killAll_nv (r : RegCtx) (ns m) : (r.killAll ns m).nv = r.nv := by
  induction ns generalizing r with
  | nil => rfl
  | cons n ns ih => exact (ih _).trans rfl
@[simp] theorem RegCtx.killAll_fstat (r : RegCtx) (ns m) : (r.killAll ns m).fstat = r.fstat := by
  induction ns generalizing r with
  | nil => rfl
  | cons n ns ih => exact (ih _).trans rfl
@[simp] theorem RegCtx.killAll_scalar (r : RegCtx) (ns m k) : (r.killAll ns m).scalar k = r.scalar k := by
  induction ns generalizing r with
  | nil => rfl
  | cons n ns ih => exact (ih _).trans rfl
@[simp] theorem RegCtx.killAll_pred (r : RegCtx) (ns m k) : (r.killAll ns m).pred k = r.pred k := by
  induction ns generalizing r with
  | nil => rfl
  | cons n ns ih => exact (ih _).trans rfl

theorem RegCtx.killAll_lane (r : RegCtx) (ns : List Nat) (m : Mask) (k l : Nat) (h : l < 128) :
    (r.killAll ns m).lane k l = if ns.contains k && m.getLsbD l then none else r.lane k l := by
  induction ns generalizing r with
  | nil => simp [killAll]
  | cons n ns ih =>
    have : r.killAll (n :: ns) m = (r.kill n m).killAll ns m := rfl
    rw [this, ih, kill, setRow_lane _ _ _ _ _ _ h]
    by_cases e : k = n <;> by_cases g : m.getLsbD l = true <;> simp [e, g]

/-! ### Effects -/

theorem RegEffect.holds_none (r : RegCtx) (ns : List Nat) (act : Mask) : RegEffect.Holds {} r (r.killAll ns act) ns act := by
  refine ⟨by simp, by simp, fun n l h => ?_, fun n => by simp, fun n => by simp⟩
  rw [RegCtx.killAll_lane _ _ _ _ _ h]
  by_cases g : act.getLsbD l = true <;> simp [g]

/-- Flags raised after an effect. -/
theorem RegEffect.Holds.orFlags {e : RegEffect} {b a : RegCtx} {ns : List Nat} {act : Mask} (h : e.Holds b a ns act) (f : BitVec 6) :
    RegEffect.Holds { e with flags := e.flags ||| f } b { a with fstat := a.fstat ||| f } ns act := by
  obtain ⟨h1, h2, h3, h4, h5⟩ := h
  refine ⟨h1, ?_, h3, h4, h5⟩
  show a.fstat ||| f = b.fstat ||| (e.flags ||| f)
  rw [h2, BitVec.or_assoc]

theorem RegCtx.put_holds (r : RegCtx) (ns : List Nat) (act : Mask) (d : Dst) (f : Nat → DWord) :
    (RegEffect.dst d act f).Holds r ((r.killAll ns act).put d act f) ns act := by
  cases d with
  | v n wide =>
    cases wide with
    | false =>
      refine ⟨by simp [put], by simp [put, RegEffect.dst], fun m l h => ?_, fun m => by simp [put, RegEffect.dst], fun m => by simp [put, RegEffect.dst]⟩
      simp only [put, setRow_lane _ _ _ _ _ _ h, killAll_lane _ _ _ _ _ h, RegEffect.dst]
      by_cases e : m = n.toNat <;> by_cases g : act.getLsbD l = true <;> simp [e, g]
    | true =>
      refine ⟨by simp [put], by simp [put, RegEffect.dst], fun m l h => ?_, fun m => by simp [put, RegEffect.dst], fun m => by simp [put, RegEffect.dst]⟩
      simp only [put, setPair_lane _ _ _ _ _ _ h, killAll_lane _ _ _ _ _ h, RegEffect.dst]
      by_cases e : m = n.toNat <;> by_cases e' : m = n.toNat + 1 <;> by_cases g : act.getLsbD l = true <;> simp [e, e', g]
  | s n =>
    refine ⟨by simp [put], by simp [put, RegEffect.dst], fun m l h => ?_, fun m => ?_, fun m => by simp [put, RegEffect.dst]⟩
    · simp only [put, setScalar_lane, killAll_lane _ _ _ _ _ h, RegEffect.dst]
      by_cases g : act.getLsbD l = true <;> simp [g]
    · simp only [put, setScalar_scalar _ _ _ _ n.isLt, RegEffect.dst, killAll_scalar]
      by_cases e : m = n.toNat <;> simp [e]

theorem RegCtx.putTagged_holds (r : RegCtx) (ns : List Nat) (act : Mask) (n : BitVec 12) (wide : Bool)
    (f : Nat → Option Word × Option Word) :
    (RegEffect.tagged n wide f).Holds r ((r.killAll ns act).putTagged n wide act f) ns act := by
  cases wide with
  | false =>
    refine ⟨by simp [putTagged], by simp [putTagged, RegEffect.tagged], fun m l h => ?_, fun m => by simp [putTagged, RegEffect.tagged], fun m => by simp [putTagged, RegEffect.tagged]⟩
    simp only [putTagged, Bool.false_eq_true, if_false, setRow_lane _ _ _ _ _ _ h, killAll_lane _ _ _ _ _ h, RegEffect.tagged]
    by_cases e : m = n.toNat <;> by_cases g : act.getLsbD l = true <;> simp [e, g]
  | true =>
    refine ⟨by simp [putTagged], by simp [putTagged, RegEffect.tagged], fun m l h => ?_, fun m => by simp [putTagged, RegEffect.tagged], fun m => by simp [putTagged, RegEffect.tagged]⟩
    simp only [putTagged, if_true, setPair_lane _ _ _ _ _ _ h, killAll_lane _ _ _ _ _ h, RegEffect.tagged]
    by_cases e : m = n.toNat <;> by_cases e' : m = n.toNat + 1 <;> by_cases g : act.getLsbD l = true <;> simp [e, e', g]

theorem RegCtx.putPred_holds (r : RegCtx) (ns : List Nat) (act : Mask) (p : BitVec 3) (uni : Bool) (f : Nat → Bool) :
    (RegEffect.predicate r p uni act f).Holds r ((r.killAll ns act).putPred p uni act f) ns act := by
  refine ⟨by unfold putPred; split <;> simp, by unfold putPred; split <;> simp [RegEffect.predicate], fun m l h => ?_,
    fun m => by unfold putPred; split <;> simp [RegEffect.predicate], fun m => ?_⟩
  · have : ((r.killAll ns act).putPred p uni act f).lane m l = (r.killAll ns act).lane m l := by unfold putPred; split <;> simp
    rw [this, killAll_lane _ _ _ _ _ h]
    by_cases g : act.getLsbD l = true <;> simp [RegEffect.predicate, g]
  · have hp : p.toNat < 8 := p.isLt
    cases uni with
    | true =>
      simp only [putPred, if_true, setPred_pred _ _ _ _ _ hp, RegEffect.predicate, killAll_pred]
      by_cases e : m = p.toNat ∧ m ≠ 7
      · rw [if_pos e, if_pos e]
        apply mask_ext; intro l hl
        by_cases g : f (lowestLane act) = true <;> simp [g]
      · rw [if_neg e, if_neg e]; rfl
    | false =>
      simp only [putPred, Bool.false_eq_true, if_false, setPred_pred _ _ _ _ _ hp, RegEffect.predicate, killAll_pred]
      by_cases e : m = p.toNat ∧ m ≠ 7
      · rw [if_pos e, if_pos e]
        apply mask_ext; intro l hl
        rw [e.1, Option.getD_some, maskOf_getLsbD _ _ hl, BitVec.getLsbD_or, BitVec.getLsbD_and, BitVec.getLsbD_and, maskOf_getLsbD _ _ hl, BitVec.getLsbD_not]
        simp only [hl, decide_true, Bool.true_and]
        cases act.getLsbD l <;> simp
      · rw [if_neg e, if_neg e]; rfl

theorem RegEffect.Holds.flags_or {e : RegEffect} {b a : RegCtx} {ns : List Nat} {act : Mask} (h : e.Holds b a ns act) (h0 : e.flags = 0)
    (f : BitVec 6) : RegEffect.Holds { e with flags := f } b (a.orFlags f) ns act := by
  have := h.orFlags f
  rw [h0, show (0 : BitVec 6) ||| f = f from BitVec.zero_or] at this
  exact this

theorem RegCtx.putF_holds (r : RegCtx) (ns : List Nat) (act : Mask) (d : Dst) (f : Nat → DWord × BitVec 6) :
    (RegEffect.flt d act f).Holds r ((r.killAll ns act).putF d act f) ns act := by
  have h := put_holds r ns act d fun l => (f l).1
  cases d with
  | v n w => exact h.flags_or rfl _
  | s n => exact h.flags_or rfl _

theorem RegCtx.putPredFlags_holds (r : RegCtx) (ns : List Nat) (act : Mask) (p : BitVec 3) (uni : Bool) (f : Nat → Bool) (fl : BitVec 6) :
    (RegEffect.predicate r p uni act f fl).Holds r (((r.killAll ns act).putPred p uni act f).orFlags fl) ns act :=
  (putPred_holds r ns act p uni f).flags_or rfl fl

end Sys2Proof.Machine
end

