-- ==== Sys2Proof/Laws/State.lean ====
section
/-!
SUPPORT. What each named update of the state leaves in each field: one rfl lemma per field and update.
-/

namespace Sys2Proof.Machine

set_option linter.all false
set_option Elab.async false

@[simp] theorem State.setBlock_agenda (s : State) (b : Block) : (s.setBlock b).agenda = s.agenda := rfl
@[simp] theorem State.setBlock_sel (s : State) (b : Block) : (s.setBlock b).sel = s.sel := rfl
@[simp] theorem State.setBlock_stamp (s : State) (b : Block) : (s.setBlock b).stamp = s.stamp := rfl
@[simp] theorem State.setBlock_fresh (s : State) (b : Block) : (s.setBlock b).fresh = s.fresh := rfl
@[simp] theorem State.setBlock_pkg (s : State) (b : Block) : (s.setBlock b).pkg = s.pkg := rfl
@[simp] theorem State.setBlock_tenants (s : State) (b : Block) : (s.setBlock b).tenants = s.tenants := rfl
@[simp] theorem State.setBlock_ctxs (s : State) (b : Block) : (s.setBlock b).ctxs = s.ctxs := rfl
@[simp] theorem State.setBlock_kernels (s : State) (b : Block) : (s.setBlock b).kernels = s.kernels := rfl
@[simp] theorem State.setBlock_launches (s : State) (b : Block) : (s.setBlock b).launches = s.launches := rfl
@[simp] theorem State.setBlock_blocks (s : State) (b : Block) : (s.setBlock b).blocks = s.blocks.map fun x => if x.lid == b.lid && x.rank == b.rank then b else x := rfl
@[simp] theorem State.setBlock_gangs (s : State) (b : Block) : (s.setBlock b).gangs = s.gangs := rfl
@[simp] theorem State.setBlock_cores (s : State) (b : Block) : (s.setBlock b).cores = s.cores := rfl
@[simp] theorem State.setBlock_mem (s : State) (b : Block) : (s.setBlock b).mem = s.mem := rfl
@[simp] theorem State.setBlock_hostMem (s : State) (b : Block) : (s.setBlock b).hostMem = s.hostMem := rfl
@[simp] theorem State.setBlock_peerMem (s : State) (b : Block) : (s.setBlock b).peerMem = s.peerMem := rfl
@[simp] theorem State.setBlock_poison (s : State) (b : Block) : (s.setBlock b).poison = s.poison := rfl
@[simp] theorem State.setBlock_farPoison (s : State) (b : Block) : (s.setBlock b).farPoison = s.farPoison := rfl
@[simp] theorem State.setBlock_checks (s : State) (b : Block) : (s.setBlock b).checks = s.checks := rfl
@[simp] theorem State.setBlock_l2 (s : State) (b : Block) : (s.setBlock b).l2 = s.l2 := rfl
@[simp] theorem State.setBlock_deckLines (s : State) (b : Block) : (s.setBlock b).deckLines = s.deckLines := rfl
@[simp] theorem State.setBlock_tlb (s : State) (b : Block) : (s.setBlock b).tlb = s.tlb := rfl
@[simp] theorem State.setBlock_walkCache (s : State) (b : Block) : (s.setBlock b).walkCache = s.walkCache := rfl
@[simp] theorem State.setBlock_jobs (s : State) (b : Block) : (s.setBlock b).jobs = s.jobs := rfl
@[simp] theorem State.setBlock_unsettled (s : State) (b : Block) : (s.setBlock b).unsettled = s.unsettled := rfl
@[simp] theorem State.setBlock_wlog (s : State) (b : Block) : (s.setBlock b).wlog = s.wlog := rfl
@[simp] theorem State.setBlock_ports (s : State) (b : Block) : (s.setBlock b).ports = s.ports := rfl
@[simp] theorem State.setBlock_heldPackets (s : State) (b : Block) : (s.setBlock b).heldPackets = s.heldPackets := rfl
@[simp] theorem State.setBlock_out (s : State) (b : Block) : (s.setBlock b).out = s.out := rfl

@[simp] theorem State.setLaunch_agenda (s : State) (l : Launch) : (s.setLaunch l).agenda = s.agenda := rfl
@[simp] theorem State.setLaunch_sel (s : State) (l : Launch) : (s.setLaunch l).sel = s.sel := rfl
@[simp] theorem State.setLaunch_stamp (s : State) (l : Launch) : (s.setLaunch l).stamp = s.stamp := rfl
@[simp] theorem State.setLaunch_fresh (s : State) (l : Launch) : (s.setLaunch l).fresh = s.fresh := rfl
@[simp] theorem State.setLaunch_pkg (s : State) (l : Launch) : (s.setLaunch l).pkg = s.pkg := rfl
@[simp] theorem State.setLaunch_tenants (s : State) (l : Launch) : (s.setLaunch l).tenants = s.tenants := rfl
@[simp] theorem State.setLaunch_ctxs (s : State) (l : Launch) : (s.setLaunch l).ctxs = s.ctxs := rfl
@[simp] theorem State.setLaunch_kernels (s : State) (l : Launch) : (s.setLaunch l).kernels = s.kernels := rfl
@[simp] theorem State.setLaunch_launches (s : State) (l : Launch) : (s.setLaunch l).launches = s.launches.map fun x => if x.lid == l.lid then l else x := rfl
@[simp] theorem State.setLaunch_blocks (s : State) (l : Launch) : (s.setLaunch l).blocks = s.blocks := rfl
@[simp] theorem State.setLaunch_gangs (s : State) (l : Launch) : (s.setLaunch l).gangs = s.gangs := rfl
@[simp] theorem State.setLaunch_cores (s : State) (l : Launch) : (s.setLaunch l).cores = s.cores := rfl
@[simp] theorem State.setLaunch_mem (s : State) (l : Launch) : (s.setLaunch l).mem = s.mem := rfl
@[simp] theorem State.setLaunch_hostMem (s : State) (l : Launch) : (s.setLaunch l).hostMem = s.hostMem := rfl
@[simp] theorem State.setLaunch_peerMem (s : State) (l : Launch) : (s.setLaunch l).peerMem = s.peerMem := rfl
@[simp] theorem State.setLaunch_poison (s : State) (l : Launch) : (s.setLaunch l).poison = s.poison := rfl
@[simp] theorem State.setLaunch_farPoison (s : State) (l : Launch) : (s.setLaunch l).farPoison = s.farPoison := rfl
@[simp] theorem State.setLaunch_checks (s : State) (l : Launch) : (s.setLaunch l).checks = s.checks := rfl
@[simp] theorem State.setLaunch_l2 (s : State) (l : Launch) : (s.setLaunch l).l2 = s.l2 := rfl
@[simp] theorem State.setLaunch_deckLines (s : State) (l : Launch) : (s.setLaunch l).deckLines = s.deckLines := rfl
@[simp] theorem State.setLaunch_tlb (s : State) (l : Launch) : (s.setLaunch l).tlb = s.tlb := rfl
@[simp] theorem State.setLaunch_walkCache (s : State) (l : Launch) : (s.setLaunch l).walkCache = s.walkCache := rfl
@[simp] theorem State.setLaunch_jobs (s : State) (l : Launch) : (s.setLaunch l).jobs = s.jobs := rfl
@[simp] theorem State.setLaunch_unsettled (s : State) (l : Launch) : (s.setLaunch l).unsettled = s.unsettled := rfl
@[simp] theorem State.setLaunch_wlog (s : State) (l : Launch) : (s.setLaunch l).wlog = s.wlog := rfl
@[simp] theorem State.setLaunch_ports (s : State) (l : Launch) : (s.setLaunch l).ports = s.ports := rfl
@[simp] theorem State.setLaunch_heldPackets (s : State) (l : Launch) : (s.setLaunch l).heldPackets = s.heldPackets := rfl
@[simp] theorem State.setLaunch_out (s : State) (l : Launch) : (s.setLaunch l).out = s.out := rfl

@[simp] theorem State.setCtx_agenda (s : State) (c : Ctx) : (s.setCtx c).agenda = s.agenda := rfl
@[simp] theorem State.setCtx_sel (s : State) (c : Ctx) : (s.setCtx c).sel = s.sel := rfl
@[simp] theorem State.setCtx_stamp (s : State) (c : Ctx) : (s.setCtx c).stamp = s.stamp := rfl
@[simp] theorem State.setCtx_fresh (s : State) (c : Ctx) : (s.setCtx c).fresh = s.fresh := rfl
@[simp] theorem State.setCtx_pkg (s : State) (c : Ctx) : (s.setCtx c).pkg = s.pkg := rfl
@[simp] theorem State.setCtx_tenants (s : State) (c : Ctx) : (s.setCtx c).tenants = s.tenants := rfl
@[simp] theorem State.setCtx_ctxs (s : State) (c : Ctx) : (s.setCtx c).ctxs = s.ctxs.map fun x => if x.tenant == c.tenant && x.num == c.num then c else x := rfl
@[simp] theorem State.setCtx_kernels (s : State) (c : Ctx) : (s.setCtx c).kernels = s.kernels := rfl
@[simp] theorem State.setCtx_launches (s : State) (c : Ctx) : (s.setCtx c).launches = s.launches := rfl
@[simp] theorem State.setCtx_blocks (s : State) (c : Ctx) : (s.setCtx c).blocks = s.blocks := rfl
@[simp] theorem State.setCtx_gangs (s : State) (c : Ctx) : (s.setCtx c).gangs = s.gangs := rfl
@[simp] theorem State.setCtx_cores (s : State) (c : Ctx) : (s.setCtx c).cores = s.cores := rfl
@[simp] theorem State.setCtx_mem (s : State) (c : Ctx) : (s.setCtx c).mem = s.mem := rfl
@[simp] theorem State.setCtx_hostMem (s : State) (c : Ctx) : (s.setCtx c).hostMem = s.hostMem := rfl
@[simp] theorem State.setCtx_peerMem (s : State) (c : Ctx) : (s.setCtx c).peerMem = s.peerMem := rfl
@[simp] theorem State.setCtx_poison (s : State) (c : Ctx) : (s.setCtx c).poison = s.poison := rfl
@[simp] theorem State.setCtx_farPoison (s : State) (c : Ctx) : (s.setCtx c).farPoison = s.farPoison := rfl
@[simp] theorem State.setCtx_checks (s : State) (c : Ctx) : (s.setCtx c).checks = s.checks := rfl
@[simp] theorem State.setCtx_l2 (s : State) (c : Ctx) : (s.setCtx c).l2 = s.l2 := rfl
@[simp] theorem State.setCtx_deckLines (s : State) (c : Ctx) : (s.setCtx c).deckLines = s.deckLines := rfl
@[simp] theorem State.setCtx_tlb (s : State) (c : Ctx) : (s.setCtx c).tlb = s.tlb := rfl
@[simp] theorem State.setCtx_walkCache (s : State) (c : Ctx) : (s.setCtx c).walkCache = s.walkCache := rfl
@[simp] theorem State.setCtx_jobs (s : State) (c : Ctx) : (s.setCtx c).jobs = s.jobs := rfl
@[simp] theorem State.setCtx_unsettled (s : State) (c : Ctx) : (s.setCtx c).unsettled = s.unsettled := rfl
@[simp] theorem State.setCtx_wlog (s : State) (c : Ctx) : (s.setCtx c).wlog = s.wlog := rfl
@[simp] theorem State.setCtx_ports (s : State) (c : Ctx) : (s.setCtx c).ports = s.ports := rfl
@[simp] theorem State.setCtx_heldPackets (s : State) (c : Ctx) : (s.setCtx c).heldPackets = s.heldPackets := rfl
@[simp] theorem State.setCtx_out (s : State) (c : Ctx) : (s.setCtx c).out = s.out := rfl

@[simp] theorem State.setGang_agenda (s : State) (g : Gang) : (s.setGang g).agenda = s.agenda := rfl
@[simp] theorem State.setGang_sel (s : State) (g : Gang) : (s.setGang g).sel = s.sel := rfl
@[simp] theorem State.setGang_stamp (s : State) (g : Gang) : (s.setGang g).stamp = s.stamp := rfl
@[simp] theorem State.setGang_fresh (s : State) (g : Gang) : (s.setGang g).fresh = s.fresh := rfl
@[simp] theorem State.setGang_pkg (s : State) (g : Gang) : (s.setGang g).pkg = s.pkg := rfl
@[simp] theorem State.setGang_tenants (s : State) (g : Gang) : (s.setGang g).tenants = s.tenants := rfl
@[simp] theorem State.setGang_ctxs (s : State) (g : Gang) : (s.setGang g).ctxs = s.ctxs := rfl
@[simp] theorem State.setGang_kernels (s : State) (g : Gang) : (s.setGang g).kernels = s.kernels := rfl
@[simp] theorem State.setGang_launches (s : State) (g : Gang) : (s.setGang g).launches = s.launches := rfl
@[simp] theorem State.setGang_blocks (s : State) (g : Gang) : (s.setGang g).blocks = s.blocks := rfl
@[simp] theorem State.setGang_gangs (s : State) (g : Gang) : (s.setGang g).gangs = s.gangs.map fun x => if x.lid == g.lid && x.num == g.num then g else x := rfl
@[simp] theorem State.setGang_cores (s : State) (g : Gang) : (s.setGang g).cores = s.cores := rfl
@[simp] theorem State.setGang_mem (s : State) (g : Gang) : (s.setGang g).mem = s.mem := rfl
@[simp] theorem State.setGang_hostMem (s : State) (g : Gang) : (s.setGang g).hostMem = s.hostMem := rfl
@[simp] theorem State.setGang_peerMem (s : State) (g : Gang) : (s.setGang g).peerMem = s.peerMem := rfl
@[simp] theorem State.setGang_poison (s : State) (g : Gang) : (s.setGang g).poison = s.poison := rfl
@[simp] theorem State.setGang_farPoison (s : State) (g : Gang) : (s.setGang g).farPoison = s.farPoison := rfl
@[simp] theorem State.setGang_checks (s : State) (g : Gang) : (s.setGang g).checks = s.checks := rfl
@[simp] theorem State.setGang_l2 (s : State) (g : Gang) : (s.setGang g).l2 = s.l2 := rfl
@[simp] theorem State.setGang_deckLines (s : State) (g : Gang) : (s.setGang g).deckLines = s.deckLines := rfl
@[simp] theorem State.setGang_tlb (s : State) (g : Gang) : (s.setGang g).tlb = s.tlb := rfl
@[simp] theorem State.setGang_walkCache (s : State) (g : Gang) : (s.setGang g).walkCache = s.walkCache := rfl
@[simp] theorem State.setGang_jobs (s : State) (g : Gang) : (s.setGang g).jobs = s.jobs := rfl
@[simp] theorem State.setGang_unsettled (s : State) (g : Gang) : (s.setGang g).unsettled = s.unsettled := rfl
@[simp] theorem State.setGang_wlog (s : State) (g : Gang) : (s.setGang g).wlog = s.wlog := rfl
@[simp] theorem State.setGang_ports (s : State) (g : Gang) : (s.setGang g).ports = s.ports := rfl
@[simp] theorem State.setGang_heldPackets (s : State) (g : Gang) : (s.setGang g).heldPackets = s.heldPackets := rfl
@[simp] theorem State.setGang_out (s : State) (g : Gang) : (s.setGang g).out = s.out := rfl

@[simp] theorem State.setCore_agenda (s : State) (n : Nat) (c : Core) : (s.setCore n c).agenda = s.agenda := rfl
@[simp] theorem State.setCore_sel (s : State) (n : Nat) (c : Core) : (s.setCore n c).sel = s.sel := rfl
@[simp] theorem State.setCore_stamp (s : State) (n : Nat) (c : Core) : (s.setCore n c).stamp = s.stamp := rfl
@[simp] theorem State.setCore_fresh (s : State) (n : Nat) (c : Core) : (s.setCore n c).fresh = s.fresh := rfl
@[simp] theorem State.setCore_pkg (s : State) (n : Nat) (c : Core) : (s.setCore n c).pkg = s.pkg := rfl
@[simp] theorem State.setCore_tenants (s : State) (n : Nat) (c : Core) : (s.setCore n c).tenants = s.tenants := rfl
@[simp] theorem State.setCore_ctxs (s : State) (n : Nat) (c : Core) : (s.setCore n c).ctxs = s.ctxs := rfl
@[simp] theorem State.setCore_kernels (s : State) (n : Nat) (c : Core) : (s.setCore n c).kernels = s.kernels := rfl
@[simp] theorem State.setCore_launches (s : State) (n : Nat) (c : Core) : (s.setCore n c).launches = s.launches := rfl
@[simp] theorem State.setCore_blocks (s : State) (n : Nat) (c : Core) : (s.setCore n c).blocks = s.blocks := rfl
@[simp] theorem State.setCore_gangs (s : State) (n : Nat) (c : Core) : (s.setCore n c).gangs = s.gangs := rfl
@[simp] theorem State.setCore_cores (s : State) (n : Nat) (c : Core) : (s.setCore n c).cores = s.cores.set n c := rfl
@[simp] theorem State.setCore_mem (s : State) (n : Nat) (c : Core) : (s.setCore n c).mem = s.mem := rfl
@[simp] theorem State.setCore_hostMem (s : State) (n : Nat) (c : Core) : (s.setCore n c).hostMem = s.hostMem := rfl
@[simp] theorem State.setCore_peerMem (s : State) (n : Nat) (c : Core) : (s.setCore n c).peerMem = s.peerMem := rfl
@[simp] theorem State.setCore_poison (s : State) (n : Nat) (c : Core) : (s.setCore n c).poison = s.poison := rfl
@[simp] theorem State.setCore_farPoison (s : State) (n : Nat) (c : Core) : (s.setCore n c).farPoison = s.farPoison := rfl
@[simp] theorem State.setCore_checks (s : State) (n : Nat) (c : Core) : (s.setCore n c).checks = s.checks := rfl
@[simp] theorem State.setCore_l2 (s : State) (n : Nat) (c : Core) : (s.setCore n c).l2 = s.l2 := rfl
@[simp] theorem State.setCore_deckLines (s : State) (n : Nat) (c : Core) : (s.setCore n c).deckLines = s.deckLines := rfl
@[simp] theorem State.setCore_tlb (s : State) (n : Nat) (c : Core) : (s.setCore n c).tlb = s.tlb := rfl
@[simp] theorem State.setCore_walkCache (s : State) (n : Nat) (c : Core) : (s.setCore n c).walkCache = s.walkCache := rfl
@[simp] theorem State.setCore_jobs (s : State) (n : Nat) (c : Core) : (s.setCore n c).jobs = s.jobs := rfl
@[simp] theorem State.setCore_unsettled (s : State) (n : Nat) (c : Core) : (s.setCore n c).unsettled = s.unsettled := rfl
@[simp] theorem State.setCore_wlog (s : State) (n : Nat) (c : Core) : (s.setCore n c).wlog = s.wlog := rfl
@[simp] theorem State.setCore_ports (s : State) (n : Nat) (c : Core) : (s.setCore n c).ports = s.ports := rfl
@[simp] theorem State.setCore_heldPackets (s : State) (n : Nat) (c : Core) : (s.setCore n c).heldPackets = s.heldPackets := rfl
@[simp] theorem State.setCore_out (s : State) (n : Nat) (c : Core) : (s.setCore n c).out = s.out := rfl

@[simp] theorem State.setTenant_agenda (s : State) (t : Nat) (x : Tenant) : (s.setTenant t x).agenda = s.agenda := rfl
@[simp] theorem State.setTenant_sel (s : State) (t : Nat) (x : Tenant) : (s.setTenant t x).sel = s.sel := rfl
@[simp] theorem State.setTenant_stamp (s : State) (t : Nat) (x : Tenant) : (s.setTenant t x).stamp = s.stamp := rfl
@[simp] theorem State.setTenant_fresh (s : State) (t : Nat) (x : Tenant) : (s.setTenant t x).fresh = s.fresh := rfl
@[simp] theorem State.setTenant_pkg (s : State) (t : Nat) (x : Tenant) : (s.setTenant t x).pkg = s.pkg := rfl
@[simp] theorem State.setTenant_tenants (s : State) (t : Nat) (x : Tenant) : (s.setTenant t x).tenants = s.tenants.set t x := rfl
@[simp] theorem State.setTenant_ctxs (s : State) (t : Nat) (x : Tenant) : (s.setTenant t x).ctxs = s.ctxs := rfl
@[simp] theorem State.setTenant_kernels (s : State) (t : Nat) (x : Tenant) : (s.setTenant t x).kernels = s.kernels := rfl
@[simp] theorem State.setTenant_launches (s : State) (t : Nat) (x : Tenant) : (s.setTenant t x).launches = s.launches := rfl
@[simp] theorem State.setTenant_blocks (s : State) (t : Nat) (x : Tenant) : (s.setTenant t x).blocks = s.blocks := rfl
@[simp] theorem State.setTenant_gangs (s : State) (t : Nat) (x : Tenant) : (s.setTenant t x).gangs = s.gangs := rfl
@[simp] theorem State.setTenant_cores (s : State) (t : Nat) (x : Tenant) : (s.setTenant t x).cores = s.cores := rfl
@[simp] theorem State.setTenant_mem (s : State) (t : Nat) (x : Tenant) : (s.setTenant t x).mem = s.mem := rfl
@[simp] theorem State.setTenant_hostMem (s : State) (t : Nat) (x : Tenant) : (s.setTenant t x).hostMem = s.hostMem := rfl
@[simp] theorem State.setTenant_peerMem (s : State) (t : Nat) (x : Tenant) : (s.setTenant t x).peerMem = s.peerMem := rfl
@[simp] theorem State.setTenant_poison (s : State) (t : Nat) (x : Tenant) : (s.setTenant t x).poison = s.poison := rfl
@[simp] theorem State.setTenant_farPoison (s : State) (t : Nat) (x : Tenant) : (s.setTenant t x).farPoison = s.farPoison := rfl
@[simp] theorem State.setTenant_checks (s : State) (t : Nat) (x : Tenant) : (s.setTenant t x).checks = s.checks := rfl
@[simp] theorem State.setTenant_l2 (s : State) (t : Nat) (x : Tenant) : (s.setTenant t x).l2 = s.l2 := rfl
@[simp] theorem State.setTenant_deckLines (s : State) (t : Nat) (x : Tenant) : (s.setTenant t x).deckLines = s.deckLines := rfl
@[simp] theorem State.setTenant_tlb (s : State) (t : Nat) (x : Tenant) : (s.setTenant t x).tlb = s.tlb := rfl
@[simp] theorem State.setTenant_walkCache (s : State) (t : Nat) (x : Tenant) : (s.setTenant t x).walkCache = s.walkCache := rfl
@[simp] theorem State.setTenant_jobs (s : State) (t : Nat) (x : Tenant) : (s.setTenant t x).jobs = s.jobs := rfl
@[simp] theorem State.setTenant_unsettled (s : State) (t : Nat) (x : Tenant) : (s.setTenant t x).unsettled = s.unsettled := rfl
@[simp] theorem State.setTenant_wlog (s : State) (t : Nat) (x : Tenant) : (s.setTenant t x).wlog = s.wlog := rfl
@[simp] theorem State.setTenant_ports (s : State) (t : Nat) (x : Tenant) : (s.setTenant t x).ports = s.ports := rfl
@[simp] theorem State.setTenant_heldPackets (s : State) (t : Nat) (x : Tenant) : (s.setTenant t x).heldPackets = s.heldPackets := rfl
@[simp] theorem State.setTenant_out (s : State) (t : Nat) (x : Tenant) : (s.setTenant t x).out = s.out := rfl

@[simp] theorem State.setPort_agenda (s : State) (n : Nat) (p : Port) : (s.setPort n p).agenda = s.agenda := rfl
@[simp] theorem State.setPort_sel (s : State) (n : Nat) (p : Port) : (s.setPort n p).sel = s.sel := rfl
@[simp] theorem State.setPort_stamp (s : State) (n : Nat) (p : Port) : (s.setPort n p).stamp = s.stamp := rfl
@[simp] theorem State.setPort_fresh (s : State) (n : Nat) (p : Port) : (s.setPort n p).fresh = s.fresh := rfl
@[simp] theorem State.setPort_pkg (s : State) (n : Nat) (p : Port) : (s.setPort n p).pkg = s.pkg := rfl
@[simp] theorem State.setPort_tenants (s : State) (n : Nat) (p : Port) : (s.setPort n p).tenants = s.tenants := rfl
@[simp] theorem State.setPort_ctxs (s : State) (n : Nat) (p : Port) : (s.setPort n p).ctxs = s.ctxs := rfl
@[simp] theorem State.setPort_kernels (s : State) (n : Nat) (p : Port) : (s.setPort n p).kernels = s.kernels := rfl
@[simp] theorem State.setPort_launches (s : State) (n : Nat) (p : Port) : (s.setPort n p).launches = s.launches := rfl
@[simp] theorem State.setPort_blocks (s : State) (n : Nat) (p : Port) : (s.setPort n p).blocks = s.blocks := rfl
@[simp] theorem State.setPort_gangs (s : State) (n : Nat) (p : Port) : (s.setPort n p).gangs = s.gangs := rfl
@[simp] theorem State.setPort_cores (s : State) (n : Nat) (p : Port) : (s.setPort n p).cores = s.cores := rfl
@[simp] theorem State.setPort_mem (s : State) (n : Nat) (p : Port) : (s.setPort n p).mem = s.mem := rfl
@[simp] theorem State.setPort_hostMem (s : State) (n : Nat) (p : Port) : (s.setPort n p).hostMem = s.hostMem := rfl
@[simp] theorem State.setPort_peerMem (s : State) (n : Nat) (p : Port) : (s.setPort n p).peerMem = s.peerMem := rfl
@[simp] theorem State.setPort_poison (s : State) (n : Nat) (p : Port) : (s.setPort n p).poison = s.poison := rfl
@[simp] theorem State.setPort_farPoison (s : State) (n : Nat) (p : Port) : (s.setPort n p).farPoison = s.farPoison := rfl
@[simp] theorem State.setPort_checks (s : State) (n : Nat) (p : Port) : (s.setPort n p).checks = s.checks := rfl
@[simp] theorem State.setPort_l2 (s : State) (n : Nat) (p : Port) : (s.setPort n p).l2 = s.l2 := rfl
@[simp] theorem State.setPort_deckLines (s : State) (n : Nat) (p : Port) : (s.setPort n p).deckLines = s.deckLines := rfl
@[simp] theorem State.setPort_tlb (s : State) (n : Nat) (p : Port) : (s.setPort n p).tlb = s.tlb := rfl
@[simp] theorem State.setPort_walkCache (s : State) (n : Nat) (p : Port) : (s.setPort n p).walkCache = s.walkCache := rfl
@[simp] theorem State.setPort_jobs (s : State) (n : Nat) (p : Port) : (s.setPort n p).jobs = s.jobs := rfl
@[simp] theorem State.setPort_unsettled (s : State) (n : Nat) (p : Port) : (s.setPort n p).unsettled = s.unsettled := rfl
@[simp] theorem State.setPort_wlog (s : State) (n : Nat) (p : Port) : (s.setPort n p).wlog = s.wlog := rfl
@[simp] theorem State.setPort_ports (s : State) (n : Nat) (p : Port) : (s.setPort n p).ports = s.ports.set n p := rfl
@[simp] theorem State.setPort_heldPackets (s : State) (n : Nat) (p : Port) : (s.setPort n p).heldPackets = s.heldPackets := rfl
@[simp] theorem State.setPort_out (s : State) (n : Nat) (p : Port) : (s.setPort n p).out = s.out := rfl

@[simp] theorem State.setJob_agenda (s : State) (j : Job) : (s.setJob j).agenda = s.agenda := rfl
@[simp] theorem State.setJob_sel (s : State) (j : Job) : (s.setJob j).sel = s.sel := rfl
@[simp] theorem State.setJob_stamp (s : State) (j : Job) : (s.setJob j).stamp = s.stamp := rfl
@[simp] theorem State.setJob_fresh (s : State) (j : Job) : (s.setJob j).fresh = s.fresh := rfl
@[simp] theorem State.setJob_pkg (s : State) (j : Job) : (s.setJob j).pkg = s.pkg := rfl
@[simp] theorem State.setJob_tenants (s : State) (j : Job) : (s.setJob j).tenants = s.tenants := rfl
@[simp] theorem State.setJob_ctxs (s : State) (j : Job) : (s.setJob j).ctxs = s.ctxs := rfl
@[simp] theorem State.setJob_kernels (s : State) (j : Job) : (s.setJob j).kernels = s.kernels := rfl
@[simp] theorem State.setJob_launches (s : State) (j : Job) : (s.setJob j).launches = s.launches := rfl
@[simp] theorem State.setJob_blocks (s : State) (j : Job) : (s.setJob j).blocks = s.blocks := rfl
@[simp] theorem State.setJob_gangs (s : State) (j : Job) : (s.setJob j).gangs = s.gangs := rfl
@[simp] theorem State.setJob_cores (s : State) (j : Job) : (s.setJob j).cores = s.cores := rfl
@[simp] theorem State.setJob_mem (s : State) (j : Job) : (s.setJob j).mem = s.mem := rfl
@[simp] theorem State.setJob_hostMem (s : State) (j : Job) : (s.setJob j).hostMem = s.hostMem := rfl
@[simp] theorem State.setJob_peerMem (s : State) (j : Job) : (s.setJob j).peerMem = s.peerMem := rfl
@[simp] theorem State.setJob_poison (s : State) (j : Job) : (s.setJob j).poison = s.poison := rfl
@[simp] theorem State.setJob_farPoison (s : State) (j : Job) : (s.setJob j).farPoison = s.farPoison := rfl
@[simp] theorem State.setJob_checks (s : State) (j : Job) : (s.setJob j).checks = s.checks := rfl
@[simp] theorem State.setJob_l2 (s : State) (j : Job) : (s.setJob j).l2 = s.l2 := rfl
@[simp] theorem State.setJob_deckLines (s : State) (j : Job) : (s.setJob j).deckLines = s.deckLines := rfl
@[simp] theorem State.setJob_tlb (s : State) (j : Job) : (s.setJob j).tlb = s.tlb := rfl
@[simp] theorem State.setJob_walkCache (s : State) (j : Job) : (s.setJob j).walkCache = s.walkCache := rfl
@[simp] theorem State.setJob_jobs (s : State) (j : Job) : (s.setJob j).jobs = s.jobs.map fun x => if x.id == j.id then j else x := rfl
@[simp] theorem State.setJob_unsettled (s : State) (j : Job) : (s.setJob j).unsettled = s.unsettled := rfl
@[simp] theorem State.setJob_wlog (s : State) (j : Job) : (s.setJob j).wlog = s.wlog := rfl
@[simp] theorem State.setJob_ports (s : State) (j : Job) : (s.setJob j).ports = s.ports := rfl
@[simp] theorem State.setJob_heldPackets (s : State) (j : Job) : (s.setJob j).heldPackets = s.heldPackets := rfl
@[simp] theorem State.setJob_out (s : State) (j : Job) : (s.setJob j).out = s.out := rfl

@[simp] theorem State.setL2_agenda (s : State) (l : L2Line) : (s.setL2 l).agenda = s.agenda := rfl
@[simp] theorem State.setL2_sel (s : State) (l : L2Line) : (s.setL2 l).sel = s.sel := rfl
@[simp] theorem State.setL2_stamp (s : State) (l : L2Line) : (s.setL2 l).stamp = s.stamp := rfl
@[simp] theorem State.setL2_fresh (s : State) (l : L2Line) : (s.setL2 l).fresh = s.fresh := rfl
@[simp] theorem State.setL2_pkg (s : State) (l : L2Line) : (s.setL2 l).pkg = s.pkg := rfl
@[simp] theorem State.setL2_tenants (s : State) (l : L2Line) : (s.setL2 l).tenants = s.tenants := rfl
@[simp] theorem State.setL2_ctxs (s : State) (l : L2Line) : (s.setL2 l).ctxs = s.ctxs := rfl
@[simp] theorem State.setL2_kernels (s : State) (l : L2Line) : (s.setL2 l).kernels = s.kernels := rfl
@[simp] theorem State.setL2_launches (s : State) (l : L2Line) : (s.setL2 l).launches = s.launches := rfl
@[simp] theorem State.setL2_blocks (s : State) (l : L2Line) : (s.setL2 l).blocks = s.blocks := rfl
@[simp] theorem State.setL2_gangs (s : State) (l : L2Line) : (s.setL2 l).gangs = s.gangs := rfl
@[simp] theorem State.setL2_cores (s : State) (l : L2Line) : (s.setL2 l).cores = s.cores := rfl
@[simp] theorem State.setL2_mem (s : State) (l : L2Line) : (s.setL2 l).mem = s.mem := rfl
@[simp] theorem State.setL2_hostMem (s : State) (l : L2Line) : (s.setL2 l).hostMem = s.hostMem := rfl
@[simp] theorem State.setL2_peerMem (s : State) (l : L2Line) : (s.setL2 l).peerMem = s.peerMem := rfl
@[simp] theorem State.setL2_poison (s : State) (l : L2Line) : (s.setL2 l).poison = s.poison := rfl
@[simp] theorem State.setL2_farPoison (s : State) (l : L2Line) : (s.setL2 l).farPoison = s.farPoison := rfl
@[simp] theorem State.setL2_checks (s : State) (l : L2Line) : (s.setL2 l).checks = s.checks := rfl
@[simp] theorem State.setL2_l2 (s : State) (l : L2Line) : (s.setL2 l).l2 = s.l2.map fun x => if x.phys == l.phys && x.tenant == l.tenant && x.asid == l.asid && x.line == l.line then l else x := rfl
@[simp] theorem State.setL2_tlb (s : State) (l : L2Line) : (s.setL2 l).tlb = s.tlb := rfl
@[simp] theorem State.setL2_walkCache (s : State) (l : L2Line) : (s.setL2 l).walkCache = s.walkCache := rfl
@[simp] theorem State.setL2_jobs (s : State) (l : L2Line) : (s.setL2 l).jobs = s.jobs := rfl
@[simp] theorem State.setL2_unsettled (s : State) (l : L2Line) : (s.setL2 l).unsettled = s.unsettled := rfl
@[simp] theorem State.setL2_wlog (s : State) (l : L2Line) : (s.setL2 l).wlog = s.wlog := rfl
@[simp] theorem State.setL2_ports (s : State) (l : L2Line) : (s.setL2 l).ports = s.ports := rfl
@[simp] theorem State.setL2_heldPackets (s : State) (l : L2Line) : (s.setL2 l).heldPackets = s.heldPackets := rfl
@[simp] theorem State.setL2_out (s : State) (l : L2Line) : (s.setL2 l).out = s.out := rfl

@[simp] theorem State.emit_agenda (s : State) (e : OutEvent) : (s.emit e).agenda = s.agenda := rfl
@[simp] theorem State.emit_sel (s : State) (e : OutEvent) : (s.emit e).sel = s.sel := rfl
@[simp] theorem State.emit_stamp (s : State) (e : OutEvent) : (s.emit e).stamp = s.stamp := rfl
@[simp] theorem State.emit_fresh (s : State) (e : OutEvent) : (s.emit e).fresh = s.fresh := rfl
@[simp] theorem State.emit_pkg (s : State) (e : OutEvent) : (s.emit e).pkg = s.pkg := rfl
@[simp] theorem State.emit_tenants (s : State) (e : OutEvent) : (s.emit e).tenants = s.tenants := rfl
@[simp] theorem State.emit_ctxs (s : State) (e : OutEvent) : (s.emit e).ctxs = s.ctxs := rfl
@[simp] theorem State.emit_kernels (s : State) (e : OutEvent) : (s.emit e).kernels = s.kernels := rfl
@[simp] theorem State.emit_launches (s : State) (e : OutEvent) : (s.emit e).launches = s.launches := rfl
@[simp] theorem State.emit_blocks (s : State) (e : OutEvent) : (s.emit e).blocks = s.blocks := rfl
@[simp] theorem State.emit_gangs (s : State) (e : OutEvent) : (s.emit e).gangs = s.gangs := rfl
@[simp] theorem State.emit_cores (s : State) (e : OutEvent) : (s.emit e).cores = s.cores := rfl
@[simp] theorem State.emit_mem (s : State) (e : OutEvent) : (s.emit e).mem = s.mem := rfl
@[simp] theorem State.emit_hostMem (s : State) (e : OutEvent) : (s.emit e).hostMem = s.hostMem := rfl
@[simp] theorem State.emit_peerMem (s : State) (e : OutEvent) : (s.emit e).peerMem = s.peerMem := rfl
@[simp] theorem State.emit_poison (s : State) (e : OutEvent) : (s.emit e).poison = s.poison := rfl
@[simp] theorem State.emit_farPoison (s : State) (e : OutEvent) : (s.emit e).farPoison = s.farPoison := rfl
@[simp] theorem State.emit_checks (s : State) (e : OutEvent) : (s.emit e).checks = s.checks := rfl
@[simp] theorem State.emit_l2 (s : State) (e : OutEvent) : (s.emit e).l2 = s.l2 := rfl
@[simp] theorem State.emit_deckLines (s : State) (e : OutEvent) : (s.emit e).deckLines = s.deckLines := rfl
@[simp] theorem State.emit_tlb (s : State) (e : OutEvent) : (s.emit e).tlb = s.tlb := rfl
@[simp] theorem State.emit_walkCache (s : State) (e : OutEvent) : (s.emit e).walkCache = s.walkCache := rfl
@[simp] theorem State.emit_jobs (s : State) (e : OutEvent) : (s.emit e).jobs = s.jobs := rfl
@[simp] theorem State.emit_unsettled (s : State) (e : OutEvent) : (s.emit e).unsettled = s.unsettled := rfl
@[simp] theorem State.emit_wlog (s : State) (e : OutEvent) : (s.emit e).wlog = s.wlog := rfl
@[simp] theorem State.emit_ports (s : State) (e : OutEvent) : (s.emit e).ports = s.ports := rfl
@[simp] theorem State.emit_heldPackets (s : State) (e : OutEvent) : (s.emit e).heldPackets = s.heldPackets := rfl
@[simp] theorem State.emit_out (s : State) (e : OutEvent) : (s.emit e).out = s.out ++ [e] := rfl

@[simp] theorem State.tick_agenda (s : State) : s.tick.agenda = s.agenda := rfl
@[simp] theorem State.tick_sel (s : State) : s.tick.sel = s.sel := rfl
@[simp] theorem State.tick_stamp (s : State) : s.tick.stamp = s.stamp + 1 := rfl
@[simp] theorem State.tick_fresh (s : State) : s.tick.fresh = s.fresh := rfl
@[simp] theorem State.tick_pkg (s : State) : s.tick.pkg = s.pkg := rfl
@[simp] theorem State.tick_tenants (s : State) : s.tick.tenants = s.tenants := rfl
@[simp] theorem State.tick_ctxs (s : State) : s.tick.ctxs = s.ctxs := rfl
@[simp] theorem State.tick_kernels (s : State) : s.tick.kernels = s.kernels := rfl
@[simp] theorem State.tick_launches (s : State) : s.tick.launches = s.launches := rfl
@[simp] theorem State.tick_blocks (s : State) : s.tick.blocks = s.blocks := rfl
@[simp] theorem State.tick_gangs (s : State) : s.tick.gangs = s.gangs := rfl
@[simp] theorem State.tick_cores (s : State) : s.tick.cores = s.cores := rfl
@[simp] theorem State.tick_mem (s : State) : s.tick.mem = s.mem := rfl
@[simp] theorem State.tick_hostMem (s : State) : s.tick.hostMem = s.hostMem := rfl
@[simp] theorem State.tick_peerMem (s : State) : s.tick.peerMem = s.peerMem := rfl
@[simp] theorem State.tick_poison (s : State) : s.tick.poison = s.poison := rfl
@[simp] theorem State.tick_l2 (s : State) : s.tick.l2 = s.l2 := rfl
@[simp] theorem State.tick_tlb (s : State) : s.tick.tlb = s.tlb := rfl
@[simp] theorem State.tick_jobs (s : State) : s.tick.jobs = s.jobs := rfl
@[simp] theorem State.tick_unsettled (s : State) : s.tick.unsettled = s.unsettled := rfl
@[simp] theorem State.tick_wlog (s : State) : s.tick.wlog = s.wlog := rfl
@[simp] theorem State.tick_ports (s : State) : s.tick.ports = s.ports := rfl
@[simp] theorem State.tick_heldPackets (s : State) : s.tick.heldPackets = s.heldPackets := rfl
@[simp] theorem State.tick_out (s : State) : s.tick.out = s.out := rfl

@[simp] theorem State.draw_agenda (s : State) (w : Nat) : (s.draw w).2.agenda = s.agenda := rfl
@[simp] theorem State.drawNat_agenda (s : State) : s.drawNat.2.agenda = s.agenda := rfl
@[simp] theorem State.draw_sel (s : State) (w : Nat) : (s.draw w).2.sel = s.sel := rfl
@[simp] theorem State.drawNat_sel (s : State) : s.drawNat.2.sel = s.sel := rfl
@[simp] theorem State.draw_stamp (s : State) (w : Nat) : (s.draw w).2.stamp = s.stamp := rfl
@[simp] theorem State.drawNat_stamp (s : State) : s.drawNat.2.stamp = s.stamp := rfl
@[simp] theorem State.draw_fresh (s : State) (w : Nat) : (s.draw w).2.fresh = s.fresh + 1 := rfl
@[simp] theorem State.drawNat_fresh (s : State) : s.drawNat.2.fresh = s.fresh + 1 := rfl
@[simp] theorem State.draw_pkg (s : State) (w : Nat) : (s.draw w).2.pkg = s.pkg := rfl
@[simp] theorem State.drawNat_pkg (s : State) : s.drawNat.2.pkg = s.pkg := rfl
@[simp] theorem State.draw_tenants (s : State) (w : Nat) : (s.draw w).2.tenants = s.tenants := rfl
@[simp] theorem State.drawNat_tenants (s : State) : s.drawNat.2.tenants = s.tenants := rfl
@[simp] theorem State.draw_ctxs (s : State) (w : Nat) : (s.draw w).2.ctxs = s.ctxs := rfl
@[simp] theorem State.drawNat_ctxs (s : State) : s.drawNat.2.ctxs = s.ctxs := rfl
@[simp] theorem State.draw_kernels (s : State) (w : Nat) : (s.draw w).2.kernels = s.kernels := rfl
@[simp] theorem State.drawNat_kernels (s : State) : s.drawNat.2.kernels = s.kernels := rfl
@[simp] theorem State.draw_launches (s : State) (w : Nat) : (s.draw w).2.launches = s.launches := rfl
@[simp] theorem State.drawNat_launches (s : State) : s.drawNat.2.launches = s.launches := rfl
@[simp] theorem State.draw_blocks (s : State) (w : Nat) : (s.draw w).2.blocks = s.blocks := rfl
@[simp] theorem State.drawNat_blocks (s : State) : s.drawNat.2.blocks = s.blocks := rfl
@[simp] theorem State.draw_gangs (s : State) (w : Nat) : (s.draw w).2.gangs = s.gangs := rfl
@[simp] theorem State.drawNat_gangs (s : State) : s.drawNat.2.gangs = s.gangs := rfl
@[simp] theorem State.draw_cores (s : State) (w : Nat) : (s.draw w).2.cores = s.cores := rfl
@[simp] theorem State.drawNat_cores (s : State) : s.drawNat.2.cores = s.cores := rfl
@[simp] theorem State.draw_mem (s : State) (w : Nat) : (s.draw w).2.mem = s.mem := rfl
@[simp] theorem State.drawNat_mem (s : State) : s.drawNat.2.mem = s.mem := rfl
@[simp] theorem State.draw_hostMem (s : State) (w : Nat) : (s.draw w).2.hostMem = s.hostMem := rfl
@[simp] theorem State.drawNat_hostMem (s : State) : s.drawNat.2.hostMem = s.hostMem := rfl
@[simp] theorem State.draw_peerMem (s : State) (w : Nat) : (s.draw w).2.peerMem = s.peerMem := rfl
@[simp] theorem State.drawNat_peerMem (s : State) : s.drawNat.2.peerMem = s.peerMem := rfl
@[simp] theorem State.draw_poison (s : State) (w : Nat) : (s.draw w).2.poison = s.poison := rfl
@[simp] theorem State.drawNat_poison (s : State) : s.drawNat.2.poison = s.poison := rfl
@[simp] theorem State.draw_l2 (s : State) (w : Nat) : (s.draw w).2.l2 = s.l2 := rfl
@[simp] theorem State.drawNat_l2 (s : State) : s.drawNat.2.l2 = s.l2 := rfl
@[simp] theorem State.draw_tlb (s : State) (w : Nat) : (s.draw w).2.tlb = s.tlb := rfl
@[simp] theorem State.drawNat_tlb (s : State) : s.drawNat.2.tlb = s.tlb := rfl
@[simp] theorem State.draw_jobs (s : State) (w : Nat) : (s.draw w).2.jobs = s.jobs := rfl
@[simp] theorem State.drawNat_jobs (s : State) : s.drawNat.2.jobs = s.jobs := rfl
@[simp] theorem State.draw_unsettled (s : State) (w : Nat) : (s.draw w).2.unsettled = s.unsettled := rfl
@[simp] theorem State.drawNat_unsettled (s : State) : s.drawNat.2.unsettled = s.unsettled := rfl
@[simp] theorem State.draw_wlog (s : State) (w : Nat) : (s.draw w).2.wlog = s.wlog := rfl
@[simp] theorem State.drawNat_wlog (s : State) : s.drawNat.2.wlog = s.wlog := rfl
@[simp] theorem State.draw_ports (s : State) (w : Nat) : (s.draw w).2.ports = s.ports := rfl
@[simp] theorem State.drawNat_ports (s : State) : s.drawNat.2.ports = s.ports := rfl
@[simp] theorem State.draw_heldPackets (s : State) (w : Nat) : (s.draw w).2.heldPackets = s.heldPackets := rfl
@[simp] theorem State.drawNat_heldPackets (s : State) : s.drawNat.2.heldPackets = s.heldPackets := rfl
@[simp] theorem State.draw_out (s : State) (w : Nat) : (s.draw w).2.out = s.out := rfl
@[simp] theorem State.drawNat_out (s : State) : s.drawNat.2.out = s.out := rfl

@[simp] theorem Block.setWave_lid (b : Block) (n : Nat) (w : Wave) : (b.setWave n w).lid = b.lid := rfl
@[simp] theorem Block.setWave_rank (b : Block) (n : Nat) (w : Wave) : (b.setWave n w).rank = b.rank := rfl
@[simp] theorem Block.setWave_place (b : Block) (n : Nat) (w : Wave) : (b.setWave n w).place = b.place := rfl
@[simp] theorem Block.setWave_core (b : Block) (n : Nat) (w : Wave) : (b.setWave n w).core = b.core := rfl
@[simp] theorem Block.setWave_buf (b : Block) (n : Nat) (w : Wave) : (b.setWave n w).buf = b.buf := rfl
@[simp] theorem Block.setWave_bars (b : Block) (n : Nat) (w : Wave) : (b.setWave n w).bars = b.bars := rfl
@[simp] theorem Block.setWave_queues (b : Block) (n : Nat) (w : Wave) : (b.setWave n w).queues = b.queues := rfl
@[simp] theorem Block.setWave_tricks (b : Block) (n : Nat) (w : Wave) : (b.setWave n w).tricks = b.tricks := rfl
@[simp] theorem Block.setWave_tags (b : Block) (n : Nat) (w : Wave) : (b.setWave n w).tags = b.tags := rfl
@[simp] theorem Block.setWave_bound (b : Block) (n : Nat) (w : Wave) : (b.setWave n w).bound = b.bound := rfl
@[simp] theorem Block.setWave_barsite (b : Block) (n : Nat) (w : Wave) : (b.setWave n w).barsite = b.barsite := rfl
@[simp] theorem Block.setWave_deck (b : Block) (n : Nat) (w : Wave) : (b.setWave n w).deck = b.deck := rfl
@[simp] theorem Block.setWave_deckSize (b : Block) (n : Nat) (w : Wave) : (b.setWave n w).deckSize = b.deckSize := rfl
@[simp] theorem Block.setWave_segBase (b : Block) (n : Nat) (w : Wave) : (b.setWave n w).segBase = b.segBase := rfl
@[simp] theorem Block.setWave_segCount (b : Block) (n : Nat) (w : Wave) : (b.setWave n w).segCount = b.segCount := rfl
@[simp] theorem Block.setWave_bankBase (b : Block) (n : Nat) (w : Wave) : (b.setWave n w).bankBase = b.bankBase := rfl
@[simp] theorem Block.setWave_bankCount (b : Block) (n : Nat) (w : Wave) : (b.setWave n w).bankCount = b.bankCount := rfl
@[simp] theorem Block.setWave_stopWanted (b : Block) (n : Nat) (w : Wave) : (b.setWave n w).stopWanted = b.stopWanted := rfl
@[simp] theorem Block.setWave_moveWanted (b : Block) (n : Nat) (w : Wave) : (b.setWave n w).moveWanted = b.moveWanted := rfl
@[simp] theorem Block.setWave_window (b : Block) (n : Nat) (w : Wave) : (b.setWave n w).window = b.window := rfl
@[simp] theorem Block.setWave_stopped (b : Block) (n : Nat) (w : Wave) : (b.setWave n w).stopped = b.stopped := rfl
@[simp] theorem Block.setWave_stopSite (b : Block) (n : Nat) (w : Wave) : (b.setWave n w).stopSite = b.stopSite := rfl
@[simp] theorem Block.setWave_faulted (b : Block) (n : Nat) (w : Wave) : (b.setWave n w).faulted = b.faulted := rfl
@[simp] theorem Block.setWave_halted (b : Block) (n : Nat) (w : Wave) : (b.setWave n w).halted = b.halted := rfl
@[simp] theorem Block.setWave_atBkpt (b : Block) (n : Nat) (w : Wave) : (b.setWave n w).atBkpt = b.atBkpt := rfl
@[simp] theorem Block.setWave_retiring (b : Block) (n : Nat) (w : Wave) : (b.setWave n w).retiring = b.retiring := rfl
@[simp] theorem Block.setWave_waves (b : Block) (n : Nat) (w : Wave) : (b.setWave n w).waves = b.waves.set n w := rfl
@[simp] theorem Cx.setWv_s (c : Cx) (w : Wave) : (c.setWv w).s = c.s := rfl
@[simp] theorem Cx.setWv_sel (c : Cx) (w : Wave) : (c.setWv w).sel = c.sel := rfl
@[simp] theorem Cx.setWv_lch (c : Cx) (w : Wave) : (c.setWv w).lch = c.lch := rfl
@[simp] theorem Cx.setWv_krn (c : Cx) (w : Wave) : (c.setWv w).krn = c.krn := rfl
@[simp] theorem Cx.setWv_ctx (c : Cx) (w : Wave) : (c.setWv w).ctx = c.ctx := rfl
@[simp] theorem Cx.setWv_rv (c : Cx) (w : Wave) : (c.setWv w).rv = c.rv := rfl
@[simp] theorem Cx.setWv_alts (c : Cx) (w : Wave) : (c.setWv w).alts = c.alts := rfl
@[simp] theorem Cx.setWv_blk (c : Cx) (w : Wave) : (c.setWv w).blk = c.blk.setWave c.sel.ref.wave w := rfl

end Sys2Proof.Machine
end

