-- ==== Sys2Proof/Laws/Issue.lean ====
section
/-!
SUPPORT. The laws of issue: what the selected context is, that a ready instruction runs its body, and what the end of an instruction
changes.
-/

namespace Sys2Proof.Machine

set_option linter.all false
set_option Elab.async false

/-! ### Blocks and waves by name -/

theorem State.block?_name {s : State} {l k : Nat} {b : Block} (h : s.block? l k = some b) : b.lid = l ∧ b.rank = k := by
  have := List.find?_some h
  simpa using this

theorem find_map_same (bs : List Block) (b : Block) (h : (bs.find? fun x => x.lid == b.lid && x.rank == b.rank).isSome) :
    ((bs.map fun x => if x.lid == b.lid && x.rank == b.rank then b else x).find? fun x => x.lid == b.lid && x.rank == b.rank) = some b := by
  induction bs with
  | nil => simp at h
  | cons x bs ih =>
    rw [List.map_cons]
    cases e : (x.lid == b.lid && x.rank == b.rank) with
    | true => simp
    | false =>
      rw [List.find?_cons, e] at h
      rw [List.find?_cons]
      simp only [Bool.false_eq_true, if_false, e]
      exact ih h

theorem find_map_other (bs : List Block) (b : Block) (l k : Nat) (h : (l, k) ≠ (b.lid, b.rank)) :
    ((bs.map fun x => if x.lid == b.lid && x.rank == b.rank then b else x).find? fun x => x.lid == l && x.rank == k) =
      bs.find? fun x => x.lid == l && x.rank == k := by
  induction bs with
  | nil => rfl
  | cons x bs ih =>
    rw [List.map_cons, List.find?_cons, List.find?_cons, ih]
    cases e : (x.lid == b.lid && x.rank == b.rank) with
    | false => simp
    | true =>
      simp only [Bool.and_eq_true, beq_iff_eq] at e
      have hb : (b.lid == l && b.rank == k) = false := by
        rw [Bool.eq_false_iff]; intro hc
        simp only [Bool.and_eq_true, beq_iff_eq] at hc
        exact h (by rw [hc.1, hc.2])
      have hx : (x.lid == l && x.rank == k) = false := by rw [e.1, e.2]; exact hb
      simp [hb, hx]

/-- A block put in place is the one found there. -/
theorem State.block?_setBlock_same {s : State} {b x : Block} (h : s.block? b.lid b.rank = some x) :
    (s.setBlock b).block? b.lid b.rank = some b := by
  simp only [State.block?, State.setBlock_blocks]
  exact find_map_same s.blocks b (by rw [show (List.find? _ s.blocks) = _ from h]; rfl)

/-- Every other block is as before. -/
theorem State.block?_setBlock_other {s : State} {b : Block} {l k : Nat} (h : (l, k) ≠ (b.lid, b.rank)) :
    (s.setBlock b).block? l k = s.block? l k := by
  simp only [State.block?, State.setBlock_blocks]
  exact find_map_other s.blocks b l k h

theorem Block.wave_setWave_same {b : Block} {n : Nat} {w : Wave} (h : n < b.waves.length) : (b.setWave n w).wave n = w := by
  simp [Block.wave, Block.setWave, h]

theorem Block.wave_setWave_other {b : Block} {n m : Nat} {w : Wave} (h : m ≠ n) : (b.setWave n w).wave m = b.wave m := by
  simp [Block.wave, Block.setWave, Ne.symm h]

@[simp] theorem Block.setWave_setWave (b : Block) (n : Nat) (v w : Wave) : (b.setWave n v).setWave n w = b.setWave n w := by
  simp [Block.setWave]

@[simp] theorem Block.setWave_length (b : Block) (n : Nat) (w : Wave) : (b.setWave n w).waves.length = b.waves.length := by
  simp [Block.setWave]

theorem setWave_blk (c : Cx) (w : Wave) : (c.setWv w).blk = c.blk.setWave c.sel.ref.wave w := rfl

/-! ### The selected context -/

/-- What the context of an issue is. -/
structure Chosen (s : State) (c : Cx) : Prop where
  state : c.s = s
  sel : s.sel = some c.sel
  regs : c.rv = c.wv.regs
  alts : c.alts = []
  block : s.block? c.ref.lid c.ref.rank = some c.blk
  lid : c.blk.lid = c.ref.lid
  rank : c.blk.rank = c.ref.rank
  launch : s.launch? c.ref.lid = some c.lch
  kernel : s.kernel? c.lch.hdr.entry = some c.krn
  ctx : s.ctx? c.lch.src.fn c.lch.ctx = some c.ctx
  wave : c.ref.wave < c.blk.waves.length
  grp : c.sel.grp < c.wv.groups.length

theorem cxAt_eq {s : State} {sel : Sel} {c : Cx} (h : s.cxAt sel = some c) :
    c.s = s ∧ c.sel = sel ∧ c.rv = c.wv.regs ∧ c.alts = [] ∧ s.block? sel.ref.lid sel.ref.rank = some c.blk ∧
      s.launch? sel.ref.lid = some c.lch ∧ s.kernel? c.lch.hdr.entry = some c.krn ∧ s.ctx? c.lch.src.fn c.lch.ctx = some c.ctx := by
  unfold State.cxAt at h
  split at h
  · next b l hb hl =>
    split at h
    · next k x hk hx =>
      cases h
      exact ⟨rfl, rfl, rfl, rfl, hb, hl, hk, hx⟩
    · cases h
  · cases h

theorem chosen {s : State} {c : Cx} (h : s.cx? = some c) : Chosen s c := by
  unfold State.cx? at h
  split at h
  · cases h
  · next sel hs =>
    split at h
    · cases h
    · next c' hc =>
      split at h
      · next hw =>
        cases h
        obtain ⟨h1, h2, h3, h4, h5, h6, h7, h8⟩ := cxAt_eq hc
        subst h2
        simp only [Bool.and_eq_true, decide_eq_true_eq] at hw
        exact ⟨h1, hs, h3, h4, h5, (State.block?_name h5).1, (State.block?_name h5).2, h6, h7, h8, hw.1, hw.2⟩
      · cases h

theorem Chosen.wv_eq {s : State} {c : Cx} (h : Chosen s c) : s.wave c.ref = c.wv := by
  simp only [State.wave, h.block]; rfl

theorem Chosen.regs_eq {s : State} {c : Cx} (h : Chosen s c) : s.regs c.ref = c.wv.regs := by
  simp only [State.regs, h.wv_eq]

/-! ### Reading without hazards -/

theorem hazards_one {c : Cx} {o : Opd} {n : Nat} (h : c.hazards o = []) (hn : n ∈ o.regs) : c.hazards { o with num := n, n := 1 } = [] := by
  simp only [Cx.hazards, List.filter_eq_nil_iff] at h ⊢
  intro e he hc
  apply h e he
  simp only [Bool.and_eq_true] at hc ⊢
  obtain ⟨⟨⟨⟨h1, h2⟩, h3⟩, h4⟩, h5⟩ := hc
  refine ⟨⟨⟨⟨h1, h2⟩, h3⟩, ?_⟩, h5⟩
  have : Opd.regs { o with num := n, n := 1 } = [n] := by simp [Opd.regs]
  rw [this] at h4
  have hen : e.num = n := by simpa using h4
  simpa [hen] using hn

theorem foldl_same {α β : Type} {f : α → β → α} {x : α} (l : List β) (h : ∀ b ∈ l, f x b = x) : l.foldl f x = x := by
  induction l with
  | nil => rfl
  | cons b l ih =>
    rw [List.foldl_cons, h b (by simp)]
    exact ih fun y hy => h y (by simp [hy])

theorem view_clear {c : Cx} {ops : List Opd} (h : ∀ o ∈ ops, c.hazards o = []) : c.view ops = c :=
  foldl_same _ fun o ho => foldl_same _ fun n hn => by rw [hazards_one (h o ho) hn]; rfl

/-- Where no operand has a result on its way, the instruction reads the registers as they are. -/
theorem look_clear {c : Cx} {h : Hdr} {i : Info} (hc : ∀ o ∈ guardOpd h :: i.ops, c.hazards o = []) : c.look h i = c := by
  unfold Cx.look
  split
  · rfl
  · apply view_clear
    intro o ho
    apply hc
    simp only [List.mem_cons, List.mem_filter] at ho ⊢
    rcases ho with rfl | ho
    · exact .inl rfl
    · exact .inr ho.1

/-- A ready instruction runs its body. -/
theorem issue_ready {s : State} {c : Cx} {h : Hdr} {i : Info} (r : CanIssue s c h i) (body : Cx → Mask → Res) :
    issue h i body s = .next (match body c (c.guardMask h) with
      | .done x w => x.finish h i (c.guardMask h) w none
      | .go x w gs => x.finish h i (c.guardMask h) w (some gs)
      | .left x | .stay x => x
      | .trap s t => Cx.takeTrap { c with s := s } t
      | .wait s k => Cx.setWv { c with s := s } { c.wv with wait := some k, waiter := c.g.lanes }).close := by
  have hl : (c.guardMask h == 0) = false := by simpa using r.live
  simp only [issue, r.chosen, Cx.issued, look_clear r.clear, r.pass, hl, Bool.false_eq_true, if_false] <;>
  rfl

/-! ### The end of an instruction -/

/-- Meeting points change a wave's groups, held threads and meeting registers, and nothing else. -/
def SameButGroups (w w' : Wave) : Prop := w' = { w with groups := w'.groups, held := w'.held, mr := w'.mr }

theorem SameButGroups.trans {a b c : Wave} (h : SameButGroups a b) (k : SameButGroups b c) : SameButGroups a c := by
  unfold SameButGroups at *
  rw [k, h]

theorem arrive_same (w : Wave) : SameButGroups w w.arrive := rfl

theorem releaseAt_same (w : Wave) (x : DWord) : SameButGroups w (w.releaseAt x) := by
  unfold Wave.releaseAt
  dsimp only
  split <;> rfl

theorem meet_same (w : Wave) : SameButGroups w w.meet := by
  have hf (xs : List DWord) (v : Wave) : SameButGroups v (xs.foldl (fun w x => w.releaseAt x) v) := by
    induction xs generalizing v with
    | nil => rfl
    | cons x xs ih => exact (releaseAt_same v x).trans (ih _)
  exact ((arrive_same w).trans (hf _ _)).trans rfl

/-- Writes that end in their own places. -/
theorem keepPending_clear {c : Cx} {i : Info} {before after : RegCtx} (h : ∀ o ∈ i.ops, c.hazards o = []) :
    c.keepPending i before after = (c, after) := by
  unfold Cx.keepPending
  have : (i.ops.filter (·.wr)).flatMap c.hazards = [] := by
    rw [List.flatMap_eq_nil_iff]
    exact fun o ho => h o (List.mem_filter.mp ho).1
  rw [this, List.foldl_nil, ite_self]

/-- The wave after an instruction that goes on at groups `gs`. -/
def Cx.ended (x : Cx) (h : Hdr) (i : Info) (act : Mask) (w : RegCtx → RegCtx) (gs : List Group) : Wave :=
  let v := x.wv
  Wave.meet { v with regs := w (v.regs.killAll (i.kills h) act), yielded := h.y, issuedAt := x.s.stamp + 1,
                     swap := v.swap || !(x.fetches act i).isEmpty,
                     pend := x.newPend h i act v.regs ++ v.pend.flatMap (Pending.age x.g.lanes (h.stall.toNat + 1)),
                     groups := v.groups.take x.sel.grp ++ gs ++ v.groups.drop (x.sel.grp + 1) }

/-- The groups that a group becomes. -/
def Cx.next (x : Cx) (i : Info) : Option (List Group) → List Group
  | none => [{ x.g with pc := ptrAdd x.g.pc i.len, last := x.s.stamp + 1 }]
  | some gs => gs.map fun g => { g with last := x.s.stamp + 1 }

theorem finish_eq {x : Cx} {h : Hdr} {i : Info} {act : Mask} {w : RegCtx → RegCtx} {gs : Option (List Group)}
    (hw : x.ref.wave < x.blk.waves.length) (hc : ∀ o ∈ i.ops, x.hazards o = []) :
    x.finish h i act w gs =
      { x with s := x.s.tick.touchRegs x.core x.ref x.inHandler i.ops act, blk := x.blk.setWave x.ref.wave (x.ended h i act w (x.next i gs)) } := by
  have hk : ∀ (y : Cx) b a, y.blk = x.blk → y.sel = x.sel → y.keepPending i b a = (y, a) := by
    intro y b a h1 h2
    apply keepPending_clear
    intro o ho
    simpa only [Cx.hazards, Cx.wv, Cx.g, h1, h2] using hc o ho
  unfold Cx.finish
  dsimp only
  rw [hk { x with s := x.s.tick.touchRegs x.core x.ref x.inHandler i.ops act } _ _ rfl rfl]
  cases gs with
  | none =>
    simp only [Cx.advance, Cx.setGroups, Cx.setWv, Cx.wv, Cx.g, Cx.ended, Cx.next, Cx.ref] at hw ⊢
    simp only [Block.wave_setWave_same hw, Block.setWave_setWave]
    rfl
  | some gs =>
    simp only [Cx.setGroups, Cx.setWv, Cx.wv, Cx.g, Cx.ended, Cx.next, Cx.ref] at hw ⊢
    simp only [Block.wave_setWave_same hw, Block.setWave_setWave]
    rfl

/-- The use of registers changes marks of register SRAM only. -/
theorem touchRegs_device (s : State) (n : Nat) (r : WaveRef) (b : Bool) (ops : List Opd) (act : Mask) :
    s.touchRegs n r b ops act = { s with cores := (s.touchRegs n r b ops act).cores } ∧
      (s.touchRegs n r b ops act).cores.map (fun k => { k with regCache := [] }) = s.cores.map fun k => { k with regCache := [] } := by
  refine ⟨rfl, ?_⟩
  simp only [State.touchRegs, State.setCore]
  apply List.ext_getElem (by simp)
  intro j h1 h2
  simp only [List.getElem_map, List.getElem_set]
  split
  · next e =>
    subst e
    simp only [List.length_map, List.length_set] at h1
    have : s.core n = s.cores[n] := by simp [State.core, h1]
    simp only [this]
  · rfl

/-- What the end of an instruction changes of the state with its effects in place. -/
theorem finish_regsOnly {x : Cx} {h : Hdr} {i : Info} {act : Mask} {w : RegCtx → RegCtx} {gs : Option (List Group)}
    (hb : (x.s.block? x.ref.lid x.ref.rank).isSome) (hl : x.blk.lid = x.ref.lid) (hr : x.blk.rank = x.ref.rank)
    (hw : x.ref.wave < x.blk.waves.length) (hc : ∀ o ∈ i.ops, x.hazards o = []) :
    RegsOnly x.close (x.finish h i act w gs).close x.ref ∧
      (x.finish h i act w gs).close.wave x.ref = x.ended h i act w (x.next i gs) := by
  obtain ⟨b, hb⟩ := Option.isSome_iff_exists.mp hb
  rw [finish_eq hw hc]
  generalize ht : x.s.tick.touchRegs x.core x.ref x.inHandler i.ops act = t
  generalize hv : x.ended h i act w (x.next i gs) = v
  have hd := touchRegs_device x.s.tick x.core x.ref x.inHandler i.ops act
  rw [ht] at hd
  have h1 : x.close.block? x.ref.lid x.ref.rank = some x.blk := by
    rw [← hl, ← hr]; exact State.block?_setBlock_same (by rw [hl, hr]; exact hb)
  have htb : ∀ l k, t.block? l k = x.s.block? l k := by
    intro l k; rw [hd.1]; rfl
  have h2 : (t.setBlock (x.blk.setWave x.ref.wave v)).block? x.ref.lid x.ref.rank = some (x.blk.setWave x.ref.wave v) := by
    have e1 : (x.blk.setWave x.ref.wave v).lid = x.ref.lid := hl
    have e2 : (x.blk.setWave x.ref.wave v).rank = x.ref.rank := hr
    rw [← e1, ← e2]; exact State.block?_setBlock_same (by rw [e1, e2, htb]; exact hb)
  have hw1 : x.close.wave x.ref = x.blk.wave x.ref.wave := by simp only [State.wave, h1]; rfl
  have hw2 : (t.setBlock (x.blk.setWave x.ref.wave v)).wave x.ref = v := by
    simp only [State.wave, h2]; exact Block.wave_setWave_same hw
  refine ⟨⟨?_, ?_, ?_, ?_⟩, hw2⟩
  · intro a; rw [Cx.close, hd.1]; exact ⟨rfl, rfl, rfl⟩
  · refine ⟨?_, ?_⟩
    · rw [Cx.close, Cx.close, hd.1]; rfl
    · exact hd.2
  · refine ⟨fun l k hn => ?_, x.blk, x.blk.setWave x.ref.wave v, h1, h2, rfl, by simp, fun n hn => Block.wave_setWave_other hn⟩
    rw [Cx.close, State.block?_setBlock_other (by rw [show (x.blk.setWave x.ref.wave v).lid = _ from hl, show (x.blk.setWave x.ref.wave v).rank = _ from hr]; exact hn), htb,
      Cx.close, State.block?_setBlock_other (by rw [hl, hr]; exact hn)]
  · show SameWave (x.close.wave x.ref) ((t.setBlock (x.blk.setWave x.ref.wave v)).wave x.ref)
    rw [hw1, hw2]
    have hm : ∃ w0, SameButGroups w0 v ∧ SameWave x.wv w0 := by
      rw [← hv]; exact ⟨_, meet_same _, rfl⟩
    obtain ⟨w0, hm, hs⟩ := hm
    unfold SameWave at hs ⊢
    unfold SameButGroups at hm
    rw [hm, hs]
    rfl

/-- Putting the selected block back unchanged changes no block. -/
theorem close_block? {s : State} {c : Cx} (hc : Chosen s c) (l k : Nat) : c.close.block? l k = s.block? l k := by
  rw [Cx.close, hc.state]
  by_cases e : (l, k) = (c.blk.lid, c.blk.rank)
  · cases e
    rw [State.block?_setBlock_same (by rw [hc.lid, hc.rank]; exact hc.block), hc.lid, hc.rank, hc.block]
  · exact State.block?_setBlock_other e

theorem close_wave {s : State} {c : Cx} (hc : Chosen s c) (r : WaveRef) : c.close.wave r = s.wave r := by
  simp only [State.wave, close_block? hc]

theorem RegsOnly.of_close {s u : State} {c : Cx} {r : WaveRef} (hc : Chosen s c) (h : RegsOnly c.close u r) : RegsOnly s u r := by
  obtain ⟨h1, h2, h3, h4⟩ := h
  have hs := hc.state
  refine ⟨?_, ⟨?_, ?_⟩, ⟨?_, ?_⟩, ?_⟩
  · intro a; have := h1 a; rwa [Cx.close, hs] at this
  · have := h2.1; rw [Cx.close, hs] at this; exact this
  · have := h2.2; rwa [Cx.close, hs] at this
  · intro l k hn; rw [h3.1 l k hn, close_block? hc]
  · obtain ⟨b, b', e1, e2, e3⟩ := h3.2
    rw [close_block? hc] at e1
    exact ⟨b, b', e1, e2, e3⟩
  · rwa [close_wave hc] at h4

/-- The end of an instruction in the state as a whole: registers and results on their way as its effect says, the rest as its
body left it. -/
theorem finish_done {s : State} {c : Cx} {h : Hdr} {i : Info} (r : CanIssue s c h i) (w : RegCtx → RegCtx) (gs : Option (List Group)) :
    let u := (c.finish h i (c.guardMask h) w gs).close
    RegsOnly s u c.ref ∧ u.wave c.ref = c.ended h i (c.guardMask h) w (c.next i gs) ∧ PendAre c h i u ∧
      (u.wave c.ref).yielded = h.y ∧ u.regs c.ref = w (c.wv.regs.killAll (i.kills h) (c.guardMask h)) := by
  have hc := chosen r.chosen
  have hf := finish_regsOnly (x := c) (h := h) (i := i) (act := c.guardMask h) (w := w) (gs := gs)
    (by rw [hc.state, hc.block]; rfl) hc.lid hc.rank hc.wave fun o ho => r.clear o (by simp [ho])
  have hm := meet_same { c.wv with regs := w (c.wv.regs.killAll (i.kills h) (c.guardMask h)), yielded := h.y, issuedAt := c.s.stamp + 1,
                                   swap := c.wv.swap || !(c.fetches (c.guardMask h) i).isEmpty,
                                   pend := c.newPend h i (c.guardMask h) c.wv.regs ++ c.wv.pend.flatMap (Pending.age c.g.lanes (h.stall.toNat + 1)),
                                   groups := c.wv.groups.take c.sel.grp ++ c.next i gs ++ c.wv.groups.drop (c.sel.grp + 1) }
  refine ⟨hf.1.of_close hc, hf.2, ?_, ?_, ?_⟩
  · simp only [PendAre, hf.2, Cx.ended]
    rw [hm]
  · simp only [hf.2, Cx.ended]
    rw [hm]
  · simp only [State.regs, hf.2, Cx.ended]
    rw [hm]

/-! ### Where threads stand -/

theorem arrive_stands {w : Wave} {l : Nat} {p : DWord} (hl : l < 128) (h : w.stands l p) : w.arrive.stands l p := by
  have hh : ∀ (gs : List Group) (m : Mask), m.getLsbD l = true →
      (gs.foldl (fun m g => m ||| maskOf fun l => g.lanes.getLsbD l && w.mrOf l == g.pc && g.pc != mrNone) m).getLsbD l = true := by
    intro gs
    induction gs with
    | nil => exact fun m hm => hm
    | cons g gs ih => exact fun m hm => ih _ (by simp [hm])
  have hg : ∀ (gs : List Group) (m : Mask) (g : Group), g ∈ gs → (g.lanes.getLsbD l && w.mrOf l == g.pc && g.pc != mrNone) = true →
      (gs.foldl (fun m g => m ||| maskOf fun l => g.lanes.getLsbD l && w.mrOf l == g.pc && g.pc != mrNone) m).getLsbD l = true := by
    intro gs
    induction gs with
    | nil => intro m g hg; cases hg
    | cons x gs ih =>
      intro m g hg he
      rw [List.foldl_cons]
      rcases List.mem_cons.mp hg with rfl | hg
      · exact hh gs _ (by rw [BitVec.getLsbD_or, maskOf_getLsbD _ _ hl, he, Bool.or_true])
      · exact ih _ g hg he
  rcases h with ⟨g, hm, h1, h2⟩ | ⟨h1, h2⟩
  · by_cases he : (g.lanes.getLsbD l && w.mrOf l == g.pc && g.pc != mrNone) = true
    · right
      refine ⟨hg w.groups w.held g hm he, ?_⟩
      simp only [Bool.and_eq_true, beq_iff_eq] at he
      exact he.1.2.trans h2
    · left
      refine ⟨_, List.mem_map_of_mem hm, ?_, h2⟩
      rw [Bool.not_eq_true] at he
      simp only [BitVec.getLsbD_and, BitVec.getLsbD_not, hl, decide_true, Bool.true_and]
      rw [maskOf_getLsbD _ _ hl, he, h1]
      rfl
  · exact .inr ⟨hh w.groups w.held h1, h2⟩

theorem setAt_fold_mr (ls : List Nat) (mr : List DWord) (l : Nat) (h : l ∉ ls) :
    (ls.foldl (fun m l => setAt mrNone l mrNone m) mr).getD l mrNone = mr.getD l mrNone := by
  induction ls generalizing mr with
  | nil => rfl
  | cons x ls ih =>
    rw [List.foldl_cons, ih _ (fun hx => h (by simp [hx])), setAt_getD, if_neg (fun e => h (by simp [e]))]

theorem mem_lanesOf {m : Mask} {l : Nat} : l ∈ lanesOf m ↔ l < 128 ∧ m.getLsbD l = true := by
  simp [lanesOf]

theorem releaseAt_stands {w : Wave} {x : DWord} {l : Nat} {p : DWord} (hl : l < 128) (h : w.stands l p) : (w.releaseAt x).stands l p := by
  unfold Wave.releaseAt
  dsimp only
  generalize hW : (maskOf fun l => w.alive.getLsbD l && w.mrOf l == x) = W
  split
  · by_cases hw : W.getLsbD l = true
    · rcases h with ⟨g, hm, h1, h2⟩ | ⟨h1, h2⟩
      · exact .inl ⟨g, List.mem_append_left _ hm, h1, h2⟩
      · refine .inl ⟨_, List.mem_append_right _ (List.mem_singleton.mpr rfl), hw, ?_⟩
        rw [← hW, maskOf_getLsbD _ _ hl] at hw
        simp only [Bool.and_eq_true, beq_iff_eq] at hw
        exact hw.2.symm.trans h2
    · rcases h with ⟨g, hm, h1, h2⟩ | ⟨h1, h2⟩
      · exact .inl ⟨g, List.mem_append_left _ hm, h1, h2⟩
      · right
        refine ⟨?_, ?_⟩
        · rw [Bool.not_eq_true] at hw
          simp only [BitVec.getLsbD_and, BitVec.getLsbD_not, hl, decide_true, Bool.true_and]
          rw [h1, hw]; rfl
        · rw [Wave.mrOf, setAt_fold_mr _ _ _ (fun hx => hw (mem_lanesOf.mp hx).2)]
          exact h2
  · exact h

/-- Meeting points move no thread to another PC. -/
theorem meet_stands {w : Wave} {l : Nat} {p : DWord} (hl : l < 128) (h : w.stands l p) : w.meet.stands l p := by
  have hf (xs : List DWord) (v : Wave) (hv : v.stands l p) : (xs.foldl (fun w x => w.releaseAt x) v).stands l p := by
    induction xs generalizing v with
    | nil => exact hv
    | cons x xs ih => exact ih _ (releaseAt_stands hl hv)
  have h2 := hf ((lanesOf w.arrive.held).map w.arrive.mrOf) _ (arrive_stands hl h)
  unfold Wave.meet
  dsimp only
  rcases h2 with ⟨g, hm, h1, h2⟩ | h2
  · refine .inl ⟨g, List.mem_filter.mpr ⟨hm, ?_⟩, h1, h2⟩
    rw [bne_iff_ne]
    intro e
    rw [e] at h1
    simp at h1
  · exact .inr h2

/-- Where the threads of an issuing wave stand after its end. -/
theorem ended_stands {x : Cx} {h : Hdr} {i : Info} {act : Mask} {w : RegCtx → RegCtx} {gs : List Group} {next : Nat → DWord}
    (hg : x.sel.grp < x.wv.groups.length)
    (hn : ∀ l, l < 128 → x.g.lanes.getLsbD l = true → ∃ g ∈ gs, g.lanes.getLsbD l = true ∧ g.pc = next l) :
    (∀ l, l < 128 → x.g.lanes.getLsbD l = true → (x.ended h i act w gs).stands l (next l)) ∧
    (∀ l p, l < 128 → x.g.lanes.getLsbD l = false → x.wv.stands l p → (x.ended h i act w gs).stands l p) := by
  refine ⟨fun l hl hx => meet_stands hl ?_, fun l p hl hx hs => meet_stands hl ?_⟩
  · obtain ⟨g, hm, h1, h2⟩ := hn l hl hx
    exact .inl ⟨g, by simp [hm], h1, h2⟩
  · rcases hs with ⟨g, hm, h1, h2⟩ | hs
    · refine .inl ⟨g, ?_, h1, h2⟩
      have hne : g ≠ x.g := by intro e; rw [e, hx] at h1; cases h1
      have hx2 : x.wv.groups = x.wv.groups.take x.sel.grp ++ x.g :: x.wv.groups.drop (x.sel.grp + 1) := by
        have e : x.g = x.wv.groups[x.sel.grp] := by simp [Cx.g, hg]
        rw [e, List.getElem_cons_drop, List.take_append_drop]
      rw [hx2] at hm
      simp only [List.mem_append, List.mem_cons] at hm ⊢
      rcases hm with hm | rfl | hm
      · exact .inl (.inl hm)
      · exact absurd rfl hne
      · exact .inr hm
    · exact .inr hs

/-- A ready instruction whose body works on registers alone. -/
theorem issue_regs {s : State} {c : Cx} {h : Hdr} {i : Info} (r : CanIssue s c h i) {body : Cx → Mask → Res} {w : RegCtx → RegCtx}
    {e : RegEffect} (hb : body c (c.guardMask h) = .done c w)
    (he : e.Holds c.wv.regs (w (c.wv.regs.killAll (i.kills h) (c.guardMask h))) (i.kills h) (c.guardMask h)) :
    ∃ u, issue h i body s = .next u ∧ RegsOnly s u c.ref ∧ Ends c h i e (fun _ => ptrAdd c.g.pc i.len) u := by
  obtain ⟨h1, h2, h3, hy, h4⟩ := finish_done r w none
  refine ⟨_, by rw [issue_ready r, hb], h1, by rw [h4]; exact he, h3, hy, ?_⟩
  unfold PcAre
  rw [h2]
  exact ended_stands (chosen r.chosen).grp fun l _ hx => ⟨_, List.mem_singleton.mpr rfl, hx, rfl⟩

/-- The same for a value per lane in one destination. -/
theorem issue_put {s : State} {c : Cx} {h : Hdr} {i : Info} (r : CanIssue s c h i) {body : Cx → Mask → Res} {d : Dst} {f g : Nat → DWord}
    (hb : body c (c.guardMask h) = .done c fun r => r.put d (c.guardMask h) f) (hf : ∀ l, f l = g l) :
    ∃ u, issue h i body s = .next u ∧ RegsOnly s u c.ref ∧
      Ends c h i (.dst d (c.guardMask h) g) (fun _ => ptrAdd c.g.pc i.len) u := by
  cases funext hf
  exact issue_regs r hb (RegCtx.put_holds _ _ _ _ _)

/-- The same for values that carry their unwritten tags. -/
theorem issue_putTagged {s : State} {c : Cx} {h : Hdr} {i : Info} (r : CanIssue s c h i) {body : Cx → Mask → Res} {n : BitVec 12}
    {wide : Bool} {f g : Nat → Option Word × Option Word}
    (hb : body c (c.guardMask h) = .done c fun r => r.putTagged n wide (c.guardMask h) f) (hf : ∀ l, f l = g l) :
    ∃ u, issue h i body s = .next u ∧ RegsOnly s u c.ref ∧
      Ends c h i (.tagged n wide g) (fun _ => ptrAdd c.g.pc i.len) u := by
  cases funext hf
  exact issue_regs r hb (RegCtx.putTagged_holds _ _ _ _ _ _)

/-- The same for a predicate. -/
theorem issue_putPred {s : State} {c : Cx} {h : Hdr} {i : Info} (r : CanIssue s c h i) {body : Cx → Mask → Res} {p : BitVec 3}
    {uni : Bool} {f g : Nat → Bool}
    (hb : body c (c.guardMask h) = .done c fun r => r.putPred p uni (c.guardMask h) f) (hf : ∀ l, f l = g l) :
    ∃ u, issue h i body s = .next u ∧ RegsOnly s u c.ref ∧
      Ends c h i (.predicate c.wv.regs p uni (c.guardMask h) g) (fun _ => ptrAdd c.g.pc i.len) u := by
  cases funext hf
  exact issue_regs r hb (RegCtx.putPred_holds _ _ _ _ _ _)

/-- The same for values with floating-point flags. -/
theorem issue_putF {s : State} {c : Cx} {h : Hdr} {i : Info} (r : CanIssue s c h i) {body : Cx → Mask → Res} {d : Dst}
    {f g : Nat → DWord × BitVec 6}
    (hb : body c (c.guardMask h) = .done c fun r => r.putF d (c.guardMask h) f) (hf : ∀ l, f l = g l) :
    ∃ u, issue h i body s = .next u ∧ RegsOnly s u c.ref ∧
      Ends c h i (.flt d (c.guardMask h) g) (fun _ => ptrAdd c.g.pc i.len) u := by
  cases funext hf
  exact issue_regs r hb (RegCtx.putF_holds _ _ _ _ _)

/-- The same for an instruction that writes nothing. -/
theorem issue_nothing {s : State} {c : Cx} {h : Hdr} {i : Info} (r : CanIssue s c h i) {body : Cx → Mask → Res}
    (hb : body c (c.guardMask h) = .done c id) :
    ∃ u, issue h i body s = .next u ∧ RegsOnly s u c.ref ∧ Ends c h i {} (fun _ => ptrAdd c.g.pc i.len) u :=
  issue_regs r hb (RegEffect.holds_none _ _ _)

/-- A ready instruction that goes on at groups of its own. -/
theorem issue_go {s : State} {c : Cx} {h : Hdr} {i : Info} (r : CanIssue s c h i) {body : Cx → Mask → Res} {w : RegCtx → RegCtx}
    {gs : List Group} {e : RegEffect} {next : Nat → DWord} (hb : body c (c.guardMask h) = .go c w gs)
    (he : e.Holds c.wv.regs (w (c.wv.regs.killAll (i.kills h) (c.guardMask h))) (i.kills h) (c.guardMask h))
    (hn : ∀ l, l < 128 → c.g.lanes.getLsbD l = true → ∃ g ∈ gs, g.lanes.getLsbD l = true ∧ g.pc = next l) :
    ∃ u, issue h i body s = .next u ∧ RegsOnly s u c.ref ∧ Ends c h i e next u := by
  obtain ⟨h1, h2, h3, hy, h4⟩ := finish_done r w (some gs)
  refine ⟨_, by rw [issue_ready r, hb], h1, by rw [h4]; exact he, h3, hy, ?_⟩
  unfold PcAre
  rw [h2]
  refine ended_stands (chosen r.chosen).grp fun l hl hx => ?_
  obtain ⟨g, hm, g1, g2⟩ := hn l hl hx
  exact ⟨_, List.mem_map_of_mem hm, g1, g2⟩

/-! ### Effects beside the registers -/

/-- What an instruction's other effects leave of its wave: registers, groups, held threads, meeting registers and results on their
way stand. -/
structure Kept (c x : Cx) : Prop where
  sel : x.sel = c.sel
  block : (x.s.block? c.ref.lid c.ref.rank).isSome
  lid : x.blk.lid = c.ref.lid
  rank : x.blk.rank = c.ref.rank
  waves : c.ref.wave < x.blk.waves.length
  regs : x.wv.regs = c.wv.regs
  groups : x.wv.groups = c.wv.groups
  held : x.wv.held = c.wv.held
  mr : x.wv.mr = c.wv.mr
  pend : x.wv.pend = c.wv.pend

/-- Effects on the state alone. -/
theorem Kept.ofState {s : State} {c : Cx} (hc : Chosen s c) {v : State} (hv : v.blocks = s.blocks) : Kept c { c with s := v } :=
  { sel := rfl, block := by
      show (v.block? _ _).isSome
      rw [State.block?, hv]; exact Option.isSome_iff_exists.mpr ⟨_, hc.block⟩
    lid := hc.lid, rank := hc.rank, waves := hc.wave, regs := rfl, groups := rfl, held := rfl, mr := rfl, pend := rfl }

/-- The end of an instruction with effects beside its registers. -/
theorem finish_kept {s : State} {c x : Cx} {h : Hdr} {i : Info} (r : CanIssue s c h i) (k : Kept c x) {w : RegCtx → RegCtx} {e : RegEffect}
    (he : e.Holds c.wv.regs (w (c.wv.regs.killAll (i.kills h) (c.guardMask h))) (i.kills h) (c.guardMask h)) :
    let u := (x.finish h i (c.guardMask h) w none).close
    RegsOnly x.close u c.ref ∧ Ends c h i e (fun _ => ptrAdd c.g.pc i.len) u := by
  have hr : x.ref = c.ref := by simp only [Cx.ref, k.sel]
  have hg : x.g = c.g := by simp only [Cx.g, k.groups, k.sel]
  have hz : ∀ o ∈ i.ops, x.hazards o = [] := by
    intro o ho
    have := r.clear o (by simp [ho])
    simpa only [Cx.hazards, k.pend, hg] using this
  have hf := finish_regsOnly (x := x) (h := h) (i := i) (act := c.guardMask h) (w := w) (gs := none)
    (by rw [hr]; exact k.block) (by rw [hr]; exact k.lid) (by rw [hr]; exact k.rank) (by rw [hr]; exact k.waves) hz
  rw [hr] at hf
  have hm := meet_same { x.wv with regs := w (x.wv.regs.killAll (i.kills h) (c.guardMask h)), yielded := h.y, issuedAt := x.s.stamp + 1,
                                   swap := x.wv.swap || !(x.fetches (c.guardMask h) i).isEmpty,
                                   pend := x.newPend h i (c.guardMask h) x.wv.regs ++ x.wv.pend.flatMap (Pending.age x.g.lanes (h.stall.toNat + 1)),
                                   groups := x.wv.groups.take x.sel.grp ++ x.next i none ++ x.wv.groups.drop (x.sel.grp + 1) }
  refine ⟨hf.1, ?_, ?_, ?_, ?_⟩
  · simp only [State.regs, hf.2, Cx.ended]
    rw [hm]
    rw [← k.regs] at he ⊢
    exact he
  · simp only [PendAre, hf.2, Cx.ended]
    rw [hm]
    simp only [Cx.newPend, k.pend, hg, k.regs]
  · simp only [hf.2, Cx.ended]
    rw [hm]
  · unfold PcAre
    rw [hf.2]
    have hs : x.sel.grp < x.wv.groups.length := by rw [k.sel, k.groups]; exact (chosen r.chosen).grp
    have := ended_stands (x := x) (h := h) (i := i) (act := c.guardMask h) (w := w) (gs := x.next i none) (next := fun _ => ptrAdd c.g.pc i.len) hs
      fun l _ hx => ⟨_, List.mem_singleton.mpr rfl, hx, by rw [hg]⟩
    rw [hg] at this
    refine ⟨this.1, fun l p hl hn hst => this.2 l p hl hn ?_⟩
    simpa only [Wave.stands, Wave.mrOf, k.groups, k.held, k.mr] using hst

/-- A ready instruction whose body has effects beside its registers. -/
theorem issue_completes {s : State} {c x : Cx} {h : Hdr} {i : Info} {k : Instr} (r : CanIssue s c h i) {body : Cx → Mask → Res}
    {w : RegCtx → RegCtx} {e : RegEffect} (hx : exec k s = issue h i body s) (hb : body c (c.guardMask h) = .done x w) (hk : Kept c x)
    (he : e.Holds c.wv.regs (w (c.wv.regs.killAll (i.kills h) (c.guardMask h))) (i.kills h) (c.guardMask h)) :
    Completes s k c h i x e := by
  obtain ⟨h1, h2⟩ := finish_kept r hk he
  exact ⟨_, by rw [hx, issue_ready r, hb], h1, h2⟩

/-- A ready instruction that traps. -/
theorem issue_traps {s : State} {c : Cx} {h : Hdr} {i : Info} {k : Instr} (r : CanIssue s c h i) {body : Cx → Mask → Res} {v : State}
    {t : TrapInfo} (hx : exec k s = issue h i body s) (hb : body c (c.guardMask h) = .trap v t) : Traps s k c v t := by
  rw [Traps, hx, issue_ready r, hb]

/-- A ready instruction that waits. -/
theorem issue_waits {s : State} {c : Cx} {h : Hdr} {i : Info} {k : Instr} (r : CanIssue s c h i) {body : Cx → Mask → Res} {v : State}
    {w : Wait} (hx : exec k s = issue h i body s) (hb : body c (c.guardMask h) = .wait v w) : Waits s k c v w := by
  rw [Waits, hx, issue_ready r, hb]

end Sys2Proof.Machine
end

