-- ==== Sys2Proof/Laws/Memory.lean ====
section
/-!
SUPPORT. The laws of memory: a read after a write, and that every operation over cells keeps the canonical form.
-/

namespace Sys2Proof.Machine

set_option linter.all false
set_option Elab.async false

/-! ### Reading what was written -/

theorem memRead_above {m : List Host.Cell} {x a : Nat} (h : memAbove x m = true) (w : memWf m = true) (le : a ≤ x) :
    memRead m a = Config.unlistedByte := by
  induction m generalizing x with
  | nil => rfl
  | cons p m ih =>
    obtain ⟨y, b⟩ := p
    simp only [memAbove, decide_eq_true_eq] at h
    simp only [memWf, Bool.and_eq_true] at w
    have hne : a ≠ y := by omega
    simp only [memRead, hne, if_false]
    exact ih w.1.2 w.2 (by omega)

theorem memRead_write_same (m : List Host.Cell) (a : Nat) (b : Byte) (w : memWf m = true) :
    memRead (memWrite m a b) a = b := by
  induction m with
  | nil => simp only [memWrite]; split <;> simp_all [memRead]
  | cons p m ih =>
    obtain ⟨x, y⟩ := p
    simp only [memWf, Bool.and_eq_true] at w
    simp only [memWrite]
    by_cases h1 : a < x
    · have hne : a ≠ x := by omega
      simp only [h1, if_true]
      split
      · next hb => simp only [memRead, hne, if_false, memRead_above w.1.2 w.2 (Nat.le_of_lt h1), hb]
      · simp [memRead]
    · by_cases h2 : a = x
      · subst h2
        simp only [Nat.lt_irrefl, if_false, if_true]
        split
        · next hb => rw [memRead_above w.1.2 w.2 (Nat.le_refl _), hb]
        · simp [memRead]
      · simp only [h1, if_false, h2, memRead]
        exact ih w.2

theorem memRead_write_other (m : List Host.Cell) {a c : Nat} (b : Byte) (w : memWf m = true) (h : c ≠ a) :
    memRead (memWrite m a b) c = memRead m c := by
  induction m with
  | nil => simp only [memWrite]; split <;> simp [memRead, h]
  | cons p m ih =>
    obtain ⟨x, y⟩ := p
    simp only [memWf, Bool.and_eq_true] at w
    simp only [memWrite]
    by_cases h1 : a < x
    · simp only [h1, if_true]
      split <;> simp [memRead, h]
    · by_cases h2 : a = x
      · subst h2
        simp only [Nat.lt_irrefl, if_false, if_true]
        split <;> simp [memRead, h]
      · simp only [h1, if_false, h2, memRead]
        split
        · rfl
        · exact ih w.2

/-! ### The canonical form -/

theorem memAbove_mono {m : List Host.Cell} {x y : Nat} (h : memAbove y m = true) (le : x ≤ y) : memAbove x m = true := by
  cases m with
  | nil => rfl
  | cons p m => simp only [memAbove, decide_eq_true_eq] at h ⊢; omega

theorem memAbove_write {m : List Host.Cell} {x a : Nat} (b : Byte) (h : memAbove x m = true) (w : memWf m = true) (lt : x < a) :
    memAbove x (memWrite m a b) = true := by
  cases m with
  | nil => simp only [memWrite]; split <;> simp [memAbove, lt]
  | cons p m =>
    obtain ⟨y, c⟩ := p
    simp only [memAbove, decide_eq_true_eq] at h
    simp only [memWf, Bool.and_eq_true] at w
    simp only [memWrite]
    split
    · split <;> simp [memAbove, lt, h]
    · split
      · split
        · exact memAbove_mono w.1.2 (by omega)
        · simp [memAbove, lt]
      · simp [memAbove, h]

/-- A write keeps the canonical form. -/
theorem memWf_write (m : List Host.Cell) (a : Nat) (b : Byte) (w : memWf m = true) : memWf (memWrite m a b) = true := by
  induction m with
  | nil => simp only [memWrite]; split <;> simp_all [memWf, memAbove]
  | cons p m ih =>
    obtain ⟨x, y⟩ := p
    have w' := w
    simp only [memWf, Bool.and_eq_true] at w
    simp only [memWrite]
    by_cases h1 : a < x
    · simp only [h1, if_true]
      split
      · exact w'
      · simp_all [memWf, memAbove]
    · by_cases h2 : a = x
      · subst h2
        simp only [Nat.lt_irrefl, if_false, if_true]
        split
        · exact w.2
        · simp_all [memWf]
      · simp only [h1, if_false, h2, memWf, Bool.and_eq_true]
        exact ⟨⟨w.1.1, memAbove_write b w.1.2 w.2 (by omega)⟩, ih w.2⟩

theorem memWf_put (m : List Host.Cell) (a v n : Nat) (w : memWf m = true) : memWf (memPut m a v n) = true := by
  induction n generalizing m a v with
  | zero => exact w
  | succ n ih => exact ih _ _ _ (memWf_write m a _ w)

theorem memWf_putBytes (m : List Host.Cell) (a : Nat) (bs : List Byte) (w : memWf m = true) :
    memWf (memPutBytes m a bs) = true := by
  induction bs generalizing m a with
  | nil => exact w
  | cons b bs ih => exact ih _ _ (memWf_write m a b w)

theorem memWf_copy (m : List Host.Cell) (dst src n : Nat) (w : memWf m = true) : memWf (memCopy m dst src n) = true := by
  induction n generalizing m dst src with
  | zero => exact w
  | succ n ih => exact ih _ _ _ (memWf_write m _ _ w)

/-- A property that every step of a left fold keeps holds of its result. -/
theorem foldl_keeps {α β : Type} (P : α → Prop) (f : α → β → α) (h : ∀ a b, P a → P (f a b)) (l : List β) (a : α) (p : P a) :
    P (l.foldl f a) := by
  induction l generalizing a with
  | nil => exact p
  | cons x l ih => exact ih _ (h a x p)

theorem memWf_putLine (m : List Host.Cell) (a : Nat) (mask : ByteMask) (d : LineData) (w : memWf m = true) :
    memWf (memPutLine m a mask d) = true := by
  unfold memPutLine
  refine foldl_keeps (fun m => memWf m = true) _ (fun m i h => ?_) _ _ w
  split
  · exact memWf_write _ _ _ h
  · exact h

/-! ### Ranges -/

theorem memRead_putBytes_outside (m : List Host.Cell) (a : Nat) (bs : List Byte) (c : Nat) (w : memWf m = true)
    (h : c < a ∨ a + bs.length ≤ c) : memRead (memPutBytes m a bs) c = memRead m c := by
  induction bs generalizing m a with
  | nil => rfl
  | cons b bs ih =>
    simp only [List.length_cons] at h
    rw [memPutBytes, ih _ _ (memWf_write m a b w) (by omega), memRead_write_other m b w (by omega)]

theorem memRead_putBytes_inside (m : List Host.Cell) (a : Nat) (bs : List Byte) (i : Nat) (w : memWf m = true)
    (h : i < bs.length) : memRead (memPutBytes m a bs) (a + i) = bs[i] := by
  induction bs generalizing m a i with
  | nil => simp at h
  | cons b bs ih =>
    cases i with
    | zero =>
      rw [memPutBytes, memRead_putBytes_outside _ _ _ _ (memWf_write m a b w) (by omega), Nat.add_zero, memRead_write_same m a b w]
      rfl
    | succ i =>
      have := ih (memWrite m a b) (a + 1) i (memWf_write m a b w) (by simpa using h)
      rw [memPutBytes, show a + (i + 1) = a + 1 + i by omega, this]
      rfl

/-- The memory at reset has the canonical form. -/
theorem reset_memOk : State.reset.memOk := ⟨rfl, rfl, rfl⟩

end Sys2Proof.Machine
end

