-- ==== Sys2Proof/Laws/Mems.lean ====
section
/-!
SUPPORT. The three memories of a state as one value, the canonical form of all three, and the folds and answers that carry states.
-/

set_option linter.all false
set_option Elab.async false

namespace Sys2Proof.Machine

/-- The three memories of a state. -/
def State.mems (s : State) : List Host.Cell × List Host.Cell × List Host.Cell := (s.mem, s.hostMem, s.peerMem)

/-- Each of three memories has the canonical form. -/
def memsOk (m : List Host.Cell × List Host.Cell × List Host.Cell) : Prop := memWf m.1 = true ∧ memWf m.2.1 = true ∧ memWf m.2.2 = true

/-- The memories of a state written out. -/
theorem mk_mems (a b c d e f g h i j k l m n o p q r t u v w x y z a1 b1 c1) :
    (State.mk a b c d e f g h i j k l m n o p q r t u v w x y z a1 b1 c1).mems = (m, n, o) := rfl

theorem mems_fold (s : State) : (s.mem, s.hostMem, s.peerMem) = s.mems := rfl

theorem memsOk_iff (s : State) : memsOk s.mems = (memWf s.mem = true ∧ memWf s.hostMem = true ∧ memWf s.peerMem = true) := rfl

/-- A fold whose every step leaves the memories alone. -/
theorem foldl_mems {β : Type} {f : State → β → State} (h : ∀ s b, (f s b).mems = s.mems) (l : List β) (s : State) :
    (l.foldl f s).mems = s.mems := by
  induction l generalizing s with
  | nil => rfl
  | cons x l ih => exact (ih _).trans (h s x)

theorem foldl_mems1 {β γ : Type} {f : State × γ → β → State × γ} (h : ∀ x b, (f x b).1.mems = x.1.mems) (l : List β) (x : State × γ) :
    (l.foldl f x).1.mems = x.1.mems := by
  induction l generalizing x with
  | nil => rfl
  | cons y l ih => exact (ih _).trans (h x y)

theorem foldl_cx {β : Type} {f : Cx → β → Cx} (h : ∀ c b, (f c b).s.mems = c.s.mems) (l : List β) (c : Cx) :
    (l.foldl f c).s.mems = c.s.mems := by
  induction l generalizing c with
  | nil => rfl
  | cons x l ih => exact (ih _).trans (h c x)

theorem foldl_cx1 {β γ : Type} {f : Cx × γ → β → Cx × γ} (h : ∀ x b, (f x b).1.s.mems = x.1.s.mems) (l : List β) (x : Cx × γ) :
    (l.foldl f x).1.s.mems = x.1.s.mems := by
  induction l generalizing x with
  | nil => rfl
  | cons y l ih => exact (ih _).trans (h x y)

/-- A fold whose every step keeps a property keeps it. -/
theorem foldl_all {α β : Type} {P : α → Prop} {f : α → β → α} (h : ∀ s b, P s → P (f s b)) (l : List β) (s : α) (hs : P s) :
    P (l.foldl f s) := by
  induction l generalizing s with
  | nil => exact hs
  | cons x l ih => exact ih _ (h s x hs)

/-- A fold whose every step keeps the canonical form. -/
theorem foldl_ok {β : Type} {f : State → β → State} (h : ∀ s b, memsOk s.mems → memsOk (f s b).mems) (l : List β) (s : State)
    (hm : memsOk s.mems) : memsOk (l.foldl f s).mems := foldl_all (P := fun s => memsOk s.mems) h l s hm

theorem foldl_ok1 {β γ : Type} {f : State × γ → β → State × γ} (h : ∀ x b, memsOk x.1.mems → memsOk (f x b).1.mems) (l : List β)
    (x : State × γ) (hm : memsOk x.1.mems) : memsOk (l.foldl f x).1.mems := foldl_all (P := fun x => memsOk x.1.mems) h l x hm

theorem foldl_okc {β : Type} {f : Cx → β → Cx} (h : ∀ c b, memsOk c.s.mems → memsOk (f c b).s.mems) (l : List β) (c : Cx)
    (hm : memsOk c.s.mems) : memsOk (l.foldl f c).s.mems := foldl_all (P := fun c => memsOk c.s.mems) h l c hm

/-- The states of a meaning's answer satisfy P. -/
def Res.All (P : State → Prop) : Res → Prop
  | .done c _ | .go c _ _ | .left c | .stay c => P c.s
  | .trap s _ | .wait s _ => P s

/-- A fold that may fail and otherwise keeps the canonical form. -/
theorem foldl_opt {α β : Type} {P : α → Prop} {f : Option α → β → Option α} (h0 : ∀ b, f none b = none)
    (h : ∀ s b u, P s → f (some s) b = some u → P u) (l : List β) (s u : α) (hs : P s) (e : l.foldl f (some s) = some u) : P u := by
  have hn : ∀ l : List β, l.foldl f none = none := fun l => by
    induction l with
    | nil => rfl
    | cons x l ih => rw [List.foldl_cons, h0, ih]
  induction l generalizing s with
  | nil => cases e; exact hs
  | cons x l ih =>
    rw [List.foldl_cons] at e
    cases hx : f (some s) x with
    | none => rw [hx, hn] at e; cases e
    | some v => rw [hx] at e; exact ih _ (h _ _ _ hs hx) e

/-- The states of a command's end satisfy P. -/
def CmdEnd.All (P : State → Prop) : CmdEnd → Prop
  | .wait => True
  | .hold f => ∀ s, P s → P (f s)
  | .later s => P s
  | .done s _ _ => P s

theorem getD_ok {o : Option State} {s : State} (h : ∀ u, o = some u → memsOk u.mems) (hm : memsOk s.mems) : memsOk (o.getD s).mems := by
  cases o with
  | none => exact hm
  | some u => exact h u rfl

/-- The states of a publication's answer satisfy P. -/
def PubResult.All (P : State → Prop) : PubResult → Prop
  | .ok c | .conflict c _ => P c.s
  | .fault s _ => P s

/-- The states of an edge test's answer satisfy P. -/
def EdgeTest.All (P : State → Prop) : EdgeTest → Prop
  | .go s | .held s | .away s | .bad s => P s

/-- The states of a fetch's answer satisfy P. -/
def Fetched.All (P : State → Prop) : Fetched → Prop
  | .bytes c _ | .trap c _ => P c.s
  | .held s => P s

end Sys2Proof.Machine
end

