-- ==== Sys2Proof/Laws/Kept1.lean ====
section
/-!
SUPPORT. What every function of the machine does to the three memories, part 1: it leaves them as they are (`_mems`), or keeps their canonical form (`_keeps`); callees come before their callers.
-/

set_option linter.all false
set_option Elab.async false

namespace Sys2Proof.Machine

theorem State.tick_mems (s : State) :
    (State.tick s).mems = s.mems := by
  rfl

theorem State.setBlock_mems (s : State) (b : Block) :
    (State.setBlock s b).mems = s.mems := by
  unfold State.setBlock
  repeat' split
  all_goals grind [= mk_mems, = mems_fold]

theorem Cx.close_mems (c : Cx) :
    (Cx.close c).mems = c.s.mems := by
  unfold Cx.close
  repeat' split
  all_goals grind [= mk_mems, = mems_fold, = State.setBlock_mems]

theorem Cx.select_mems (c : Cx) (inst : Nat) :
    (Cx.select c inst).mems = c.s.mems := by
  unfold Cx.select
  repeat' split
  all_goals grind [= mk_mems, = mems_fold, = Cx.close_mems]

theorem execIdeKeyManagement_mems (stream : Nat) (key : BitVec 256) (s : State) {u : State} (e : execIdeKeyManagement stream key s = .next u) :
    u.mems = s.mems := by
  unfold execIdeKeyManagement at e
  (repeat' split at e) <;> grind [= mk_mems, = mems_fold]

theorem execPowerLimitStep_mems (lower : Bool) (s : State) {u : State} (e : execPowerLimitStep lower s = .next u) :
    u.mems = s.mems := by
  unfold execPowerLimitStep at e
  (repeat' split at e) <;> grind [= mk_mems, = mems_fold]

theorem State.setIsland_mems (s : State) (n : Nat) (x : Island) :
    (State.setIsland s n x).mems = s.mems := by
  unfold State.setIsland
  repeat' split
  all_goals grind [= mk_mems, = mems_fold]

theorem execThermalThrottleStep_mems (island : Nat) (lower : Bool) (s : State) {u : State} (e : execThermalThrottleStep island lower s = .next u) :
    u.mems = s.mems := by
  unfold execThermalThrottleStep at e
  (repeat' split at e) <;> grind [= mk_mems, = mems_fold, = State.setIsland_mems]

theorem State.emit_mems (s : State) (e : OutEvent) :
    (State.emit s e).mems = s.mems := by
  rfl

theorem State.setTenant_mems (s : State) (t : Nat) (x : Tenant) :
    (State.setTenant s t x).mems = s.mems := by
  unfold State.setTenant
  repeat' split
  all_goals grind [= mk_mems, = mems_fold]

theorem State.ringPut_keeps (s : State) (r : Ring) (size : Nat) (rec : Bool → List DWord) (hm : memsOk s.mems) :
    memsOk (State.ringPut s r size rec).1.mems := by
  unfold State.ringPut
  (repeat' (first | split | with_reducible refine foldl_ok (fun _ _ _ => ?_) _ _ ?_ | dsimp only)) <;> grind [= mk_mems, = mems_fold, memWf_putBytes, = memsOk_iff]

grind_pattern State.ringPut_keeps => State.ringPut s r size rec

theorem State.tenantEvent_keeps (s : State) (t : Nat) (type : Nat) (detail : DWord) (hm : memsOk s.mems) :
    memsOk (State.tenantEvent s t type detail).mems := by
  unfold State.tenantEvent
  (repeat' (first | split | with_reducible refine foldl_ok (fun _ _ _ => ?_) _ _ ?_ | dsimp only)) <;> grind [= mk_mems, = mems_fold, = State.setTenant_mems, = State.emit_mems]

grind_pattern State.tenantEvent_keeps => State.tenantEvent s t type detail

theorem State.setHot_mems (s : State) (col : Nat) (hot : List (Nat × Nat)) :
    (State.setHot s col hot).mems = s.mems := by
  unfold State.setHot
  repeat' split
  all_goals grind [= mk_mems, = mems_fold]

theorem execBankOvertemp_keeps (channel : Nat) (bank : Nat) (hot : Bool) (s : State) {u : State} (hm : memsOk s.mems) (e : execBankOvertemp channel bank hot s = .next u) :
    memsOk u.mems := by
  unfold execBankOvertemp at e
  (repeat' split at e) <;> grind [= mk_mems, = mems_fold, = State.setHot_mems, = State.setIsland_mems]

theorem State.packageEvent_keeps (s : State) (type : Nat) (detail : DWord) (hm : memsOk s.mems) :
    memsOk (State.packageEvent s type detail).mems := by
  unfold State.packageEvent
  (repeat' (first | split | with_reducible refine foldl_ok (fun _ _ _ => ?_) _ _ ?_ | dsimp only)) <;> grind [= mk_mems, = mems_fold, = State.emit_mems]

grind_pattern State.packageEvent_keeps => State.packageEvent s type detail

theorem State.putColumn_keeps (s : State) (n : Nat) (c : Column) (hm : memsOk s.mems) :
    memsOk (State.putColumn s n c).mems := by
  unfold State.putColumn
  (repeat' (first | split | with_reducible refine foldl_ok (fun _ _ _ => ?_) _ _ ?_ | dsimp only)) <;> grind [= mk_mems, = mems_fold]

grind_pattern State.putColumn_keeps => State.putColumn s n c

theorem State.removeBank_keeps (s : State) (r : Region) (col : Nat) (hm : memsOk s.mems) :
    memsOk (State.removeBank s r col).mems := by
  unfold State.removeBank
  (repeat' (first | split | with_reducible refine foldl_ok (fun _ _ _ => ?_) _ _ ?_ | dsimp only)) <;> grind [= mk_mems, = mems_fold]

grind_pattern State.removeBank_keeps => State.removeBank s r col

theorem State.setRegion_mems (s : State) (r : Region) :
    (State.setRegion s r).mems = s.mems := by
  unfold State.setRegion
  repeat' split
  all_goals grind [= mk_mems, = mems_fold]

theorem State.dramPoison_mems (s : State) (addr : Nat) (on : Bool) :
    (State.dramPoison s addr on).mems = s.mems := by
  unfold State.dramPoison
  repeat' split
  all_goals grind [= mk_mems, = mems_fold]

theorem execRestripeUnitMove_keeps (region : Nat) (unreadable : List Nat) (s : State) {u : State} (hm : memsOk s.mems) (e : execRestripeUnitMove region unreadable s = .next u) :
    memsOk u.mems := by
  unfold execRestripeUnitMove at e
  split at e
  · grind
  · split at e
    · next r at_ col _ _ =>
      dsimp only at e
      have h := foldl_mems (fun (s : State) i => State.dramPoison_mems s (region * 2 ^ 30 + at_ + 64 * i) true) (unreadable.filter fun i => decide (i < 64)) s
      revert e h
      generalize List.foldl _ s _ = s1
      intro e h
      split at e <;> grind [= State.setRegion_mems]
    · grind

theorem State.needsSpace_keeps (s : State) (channels : BitVec 96) (hm : memsOk s.mems) :
    memsOk (State.needsSpace s channels).mems := by
  unfold State.needsSpace
  (repeat' (first | split | with_reducible refine foldl_ok (fun _ _ _ => ?_) _ _ ?_ | dsimp only)) <;> grind [= mk_mems, = mems_fold]

grind_pattern State.needsSpace_keeps => State.needsSpace s channels

theorem execRestripeStart_keeps (region : Nat) (column : Nat) (s : State) {u : State} (hm : memsOk s.mems) (e : execRestripeStart region column s = .next u) :
    memsOk u.mems := by
  unfold execRestripeStart at e
  (repeat' split at e) <;> grind [= mk_mems, = mems_fold, = State.setRegion_mems]

theorem State.setPoison_mems (s : State) (addr : Nat) (on : Bool) :
    (State.setPoison s addr on).mems = s.mems := by
  unfold State.setPoison
  split
  · rfl
  · exact State.dramPoison_mems _ _ _

theorem State.verify_mems (s : State) (addr : Nat) :
    (State.verify s addr).mems = s.mems := by
  unfold State.verify
  repeat' split
  all_goals grind [= mk_mems, = mems_fold, = State.setPoison_mems]

theorem State.mergeMem_keeps (s : State) (addr : Nat) (mask : ByteMask) (d : LineData) (poison : Bool) (hm : memsOk s.mems) :
    memsOk (State.mergeMem s addr mask d poison).mems := by
  unfold State.mergeMem
  have h : ∀ t : State, t.mems = s.mems → memsOk (State.mems { t with mem := memPutLine t.mem addr mask d, checks := t.checks.filter fun x => x.1 != addr / 64 }) := by
    intro t ht
    rw [← ht] at hm
    exact ⟨memWf_putLine _ _ _ _ hm.1, hm.2⟩
  dsimp only
  refine h _ ?_
  split
  · exact State.setPoison_mems _ _ _
  · split
    · rw [State.setPoison_mems, State.verify_mems]
    · exact State.verify_mems _ _

grind_pattern State.mergeMem_keeps => State.mergeMem s addr mask d poison

theorem State.settleAt_mems (s : State) (scratch : Bool) (loc : Nat) (mask : ByteMask) :
    (State.settleAt s scratch loc mask).mems = s.mems := by
  unfold State.settleAt
  repeat' split
  all_goals grind [= mk_mems, = mems_fold]

theorem State.setL2_mems (s : State) (l : L2Line) :
    (State.setL2 s l).mems = s.mems := by
  unfold State.setL2
  repeat' split
  all_goals grind [= mk_mems, = mems_fold]

theorem State.putBytes_keeps (s : State) (addr : Nat) (bs : List Byte) (hm : memsOk s.mems) :
    memsOk (State.putBytes s addr bs).mems := by
  unfold State.putBytes
  dsimp only
  generalize hs : List.foldl _ s _ = t
  have ht : t.mems = s.mems := by rw [← hs]; exact foldl_mems (fun s n => State.verify_mems _ _) _ _
  rw [← ht] at hm
  exact ⟨memWf_putBytes _ _ _ hm.1, hm.2⟩

grind_pattern State.putBytes_keeps => State.putBytes s addr bs

theorem State.markDirty_keeps (s : State) (addr : Nat) (hm : memsOk s.mems) :
    memsOk (State.markDirty s addr).mems := by
  unfold State.markDirty
  (repeat' (first | split | with_reducible refine foldl_ok (fun _ _ _ => ?_) _ _ ?_ | dsimp only)) <;> grind [= mk_mems, = mems_fold]

grind_pattern State.markDirty_keeps => State.markDirty s addr

theorem State.dirtyLine_keeps (s : State) (l : L2Line) (hm : memsOk s.mems) :
    memsOk (State.dirtyLine s l).mems := by
  unfold State.dirtyLine
  (repeat' (first | split | with_reducible refine foldl_ok (fun _ _ _ => ?_) _ _ ?_ | dsimp only)) <;> grind [= mk_mems, = mems_fold, = State.setL2_mems]

grind_pattern State.dirtyLine_keeps => State.dirtyLine s l

theorem State.setCtx_mems (s : State) (c : Ctx) :
    (State.setCtx s c).mems = s.mems := by
  unfold State.setCtx
  repeat' split
  all_goals grind [= mk_mems, = mems_fold]

theorem State.setLaunch_mems (s : State) (l : Launch) :
    (State.setLaunch s l).mems = s.mems := by
  unfold State.setLaunch
  repeat' split
  all_goals grind [= mk_mems, = mems_fold]

theorem State.devPut_keeps (s : State) (addr : Nat) (bs : List Byte) (hm : memsOk s.mems) :
    memsOk (State.devPut s addr bs).mems := by
  unfold State.devPut
  exact State.putBytes_keeps _ _ _ (foldl_ok (fun s f h => State.markDirty_keeps s f h) _ _ hm)

grind_pattern State.devPut_keeps => State.devPut s addr bs

theorem State.copyPage_keeps (s : State) (dst : Nat) (src : Nat) (hm : memsOk s.mems) :
    memsOk (State.copyPage s dst src).mems := by
  unfold State.copyPage
  (repeat' (first | split | with_reducible refine foldl_ok (fun _ _ _ => ?_) _ _ ?_ | dsimp only)) <;> grind [= mk_mems, = mems_fold, = State.setPoison_mems]

grind_pattern State.copyPage_keeps => State.copyPage s dst src

theorem State.shadowPage_keeps (s : State) (c : Ctx) (l : Launch) (taken : List (Nat × Nat)) (units : List Nat) (page : Nat) (addr : Nat) (b : Nat) (hm : memsOk s.mems) :
    memsOk (State.shadowPage s c l taken units page addr b).mems := by
  unfold State.shadowPage
  (repeat' (first | split | with_reducible refine foldl_ok (fun _ _ _ => ?_) _ _ ?_ | dsimp only)) <;> grind [= mk_mems, = mems_fold, = State.setLaunch_mems, = State.setCtx_mems]

grind_pattern State.shadowPage_keeps => State.shadowPage s c l taken units page addr b

theorem State.snapshot_keeps (s : State) (lid : Nat) (addr : Nat) (hm : memsOk s.mems) :
    memsOk (State.snapshot s lid addr).mems := by
  unfold State.snapshot
  (repeat' (first | split | with_reducible refine foldl_ok (fun _ _ _ => ?_) _ _ ?_ | dsimp only)) <;> grind [= mk_mems, = mems_fold, = State.setLaunch_mems]

grind_pattern State.snapshot_keeps => State.snapshot s lid addr

theorem State.beforeWrite_keeps (s : State) (lid : Option Nat) (addr : Nat) (hm : memsOk s.mems) :
    memsOk (State.beforeWrite s lid addr).mems := by
  unfold State.beforeWrite
  (repeat' (first | split | with_reducible refine foldl_ok (fun _ _ _ => ?_) _ _ ?_ | dsimp only)) <;> grind [= mk_mems, = mems_fold]

grind_pattern State.beforeWrite_keeps => State.beforeWrite s lid addr

theorem State.leaveL2_keeps (s : State) (p : L2Line → Bool) (hm : memsOk s.mems) :
    memsOk (State.leaveL2 s p).mems := by
  unfold State.leaveL2
  (repeat' (first | split | refine foldl_ok (fun _ _ _ => ?_) _ _ ?_ | dsimp only)) <;> grind [= mk_mems, = mems_fold, = State.dramPoison_mems]

grind_pattern State.leaveL2_keeps => State.leaveL2 s p

theorem State.dropAliases_keeps (s : State) (new : L2Line) (hm : memsOk s.mems) :
    memsOk (State.dropAliases s new).mems := by
  unfold State.dropAliases
  (repeat' (first | split | with_reducible refine foldl_ok (fun _ _ _ => ?_) _ _ ?_ | dsimp only)) <;> grind [= mk_mems, = mems_fold]

grind_pattern State.dropAliases_keeps => State.dropAliases s new

theorem State.drawNat_mems (s : State) :
    (State.drawNat s).2.mems = s.mems := by
  unfold State.drawNat
  repeat' split
  all_goals grind [= mk_mems, = mems_fold]

theorem State.l2Room_keeps (s : State) (new : L2Line) (hm : memsOk s.mems) :
    memsOk (State.l2Room s new).mems := by
  unfold State.l2Room
  (repeat' (first | split | with_reducible refine foldl_ok (fun _ _ _ => ?_) _ _ ?_ | dsimp only)) <;> grind [= mk_mems, = mems_fold, = State.drawNat_mems]

grind_pattern State.l2Room_keeps => State.l2Room s new

theorem State.hold_keeps (s : State) (l : L2Line) (hm : memsOk s.mems) :
    memsOk (State.hold s l).1.mems := by
  unfold State.hold
  (repeat' (first | split | with_reducible refine foldl_ok (fun _ _ _ => ?_) _ _ ?_ | dsimp only)) <;> grind [= mk_mems, = mems_fold, = State.verify_mems]

grind_pattern State.hold_keeps => State.hold s l

theorem State.physFill_keeps (s : State) (t : Nat) (addr : Nat) (hm : memsOk s.mems) :
    memsOk (State.physFill s t addr).mems := by
  unfold State.physFill
  (repeat' (first | split | with_reducible refine foldl_ok (fun _ _ _ => ?_) _ _ ?_ | dsimp only)) <;> grind [= mk_mems, = mems_fold]

grind_pattern State.physFill_keeps => State.physFill s t addr

theorem State.writePhys_keeps (s : State) (t : Nat) (addr : Nat) (mask : ByteMask) (d : LineData) (poison : Bool) (hm : memsOk s.mems) :
    memsOk (State.writePhys s t addr mask d poison).mems := by
  unfold State.writePhys
  (repeat' (first | split | with_reducible refine foldl_ok (fun _ _ _ => ?_) _ _ ?_ | dsimp only)) <;> grind [= mk_mems, = mems_fold, = State.settleAt_mems, = State.tick_mems]

grind_pattern State.writePhys_keeps => State.writePhys s t addr mask d poison

theorem State.putPhys_keeps (s : State) (t : Nat) (a : Nat) (bs : List Byte) (hm : memsOk s.mems) :
    memsOk (State.putPhys s t a bs).mems := by
  unfold State.putPhys
  (repeat' (first | split | with_reducible refine foldl_ok (fun _ _ _ => ?_) _ _ ?_ | dsimp only)) <;> grind [= mk_mems, = mems_fold]

grind_pattern State.putPhys_keeps => State.putPhys s t a bs

theorem State.landFrame_keeps (s : State) (t : Nat) (ordinal : Nat) (off : Nat) (payload : List Byte) (hm : memsOk s.mems) :
    memsOk (State.landFrame s t ordinal off payload).mems := by
  unfold State.landFrame
  (repeat' (first | split | with_reducible refine foldl_ok (fun _ _ _ => ?_) _ _ ?_ | dsimp only)) <;> grind [= mk_mems, = mems_fold]

grind_pattern State.landFrame_keeps => State.landFrame s t ordinal off payload

theorem execUeMessageReceive_keeps (tenant : Nat) (port : Nat) (m : UeMessage) (s : State) {u : State} (hm : memsOk s.mems) (e : execUeMessageReceive tenant port m s = .next u) :
    memsOk u.mems := by
  unfold execUeMessageReceive at e
  (repeat' split at e) <;> grind [= mk_mems, = mems_fold, = State.setTenant_mems]

theorem State.endAcks_mems (s : State) :
    (State.endAcks s).mems = s.mems := by
  unfold State.endAcks
  repeat' split
  all_goals grind [= mk_mems, = mems_fold]

theorem State.setPort_mems (s : State) (n : Nat) (p : Port) :
    (State.setPort s n p).mems = s.mems := by
  unfold State.setPort
  repeat' split
  all_goals grind [= mk_mems, = mems_fold]

theorem State.sendOn_mems (s : State) (n : Nat) (sp : SentPacket) :
    (State.sendOn s n sp).mems = s.mems := by
  unfold State.sendOn
  repeat' split
  all_goals grind [= mk_mems, = mems_fold, = State.setPort_mems, = State.emit_mems]

theorem State.sendPeer_mems (s : State) (t : Nat) (p : Nat) (sp : SentPacket) (via : Option Nat) :
    (State.sendPeer s t p sp via).mems = s.mems := by
  unfold State.sendPeer
  repeat' split
  all_goals grind [= mk_mems, = mems_fold, = State.sendOn_mems]

theorem State.releaseHeld_mems (s : State) :
    (State.releaseHeld s).mems = s.mems := by
  unfold State.releaseHeld
  exact (foldl_mems (fun s h => State.sendPeer_mems _ _ _ _ _) _ _).trans rfl

theorem State.setCmdQueue_mems (s : State) (fn : Nat) (q : Nat) (x : CmdQueue) :
    (State.setCmdQueue s fn q x).mems = s.mems := by
  unfold State.setCmdQueue
  repeat' split
  all_goals grind [= mk_mems, = mems_fold, = State.setTenant_mems]

theorem State.writeRing_keeps (s : State) (p : DWord) (bs : List Byte) (hm : memsOk s.mems) :
    memsOk (State.writeRing s p bs).mems := by
  unfold State.writeRing
  (repeat' (first | split | with_reducible refine foldl_ok (fun _ _ _ => ?_) _ _ ?_ | dsimp only)) <;> grind [= mk_mems, = mems_fold, memWf_putBytes, = memsOk_iff]

grind_pattern State.writeRing_keeps => State.writeRing s p bs

theorem State.complete_keeps (s : State) (c : CmdSrc) (opc : Nat) (err : Nat) (result : Nat) (hm : memsOk s.mems) :
    memsOk (State.complete s c opc err result).mems := by
  unfold State.complete
  (repeat' (first | split | with_reducible refine foldl_ok (fun _ _ _ => ?_) _ _ ?_ | dsimp only)) <;> grind [= mk_mems, = mems_fold, = State.setCmdQueue_mems, = State.emit_mems]

grind_pattern State.complete_keeps => State.complete s c opc err result

theorem State.writeHeader_keeps (s : State) (b : Block) (hm : memsOk s.mems) :
    memsOk (State.writeHeader s b).mems := by
  unfold State.writeHeader
  (repeat' (first | split | with_reducible refine foldl_ok (fun _ _ _ => ?_) _ _ ?_ | dsimp only)) <;> grind [= mk_mems, = mems_fold]

grind_pattern State.writeHeader_keeps => State.writeHeader s b

theorem State.completeTag_keeps (s : State) (w : WaveRef) (tag : Nat) (hm : memsOk s.mems) :
    memsOk (State.completeTag s w tag).mems := by
  unfold State.completeTag
  (repeat' (first | split | with_reducible refine foldl_ok (fun _ _ _ => ?_) _ _ ?_ | dsimp only)) <;> grind [= mk_mems, = mems_fold, = State.setBlock_mems]

grind_pattern State.completeTag_keeps => State.completeTag s w tag

theorem State.report_mems (s : State) (r : WaveRef) (fl : BitVec 6) (unalloc : Bool) (f : FlagsTo) :
    (State.report s r fl unalloc f).mems = s.mems := by
  unfold State.report
  repeat' split
  all_goals grind [= mk_mems, = mems_fold, = State.setBlock_mems]

theorem State.finishJob_keeps (s : State) (id : Nat) (hm : memsOk s.mems) :
    memsOk (State.finishJob s id).mems := by
  unfold State.finishJob
  (repeat' (first | split | with_reducible refine foldl_ok (fun _ _ _ => ?_) _ _ ?_ | dsimp only)) <;> grind [= mk_mems, = mems_fold, = State.report_mems]

grind_pattern State.finishJob_keeps => State.finishJob s id

theorem State.release_keeps (s : State) (gone : List SentPacket) (hm : memsOk s.mems) :
    memsOk (State.release s gone).mems := by
  unfold State.release
  dsimp only
  rw [State.releaseHeld_mems, State.endAcks_mems]
  exact foldl_ok (fun s i h => State.finishJob_keeps _ _ h) _ _ hm

grind_pattern State.release_keeps => State.release s gone

theorem State.replay_mems (s : State) (n : Nat) :
    (State.replay s n).mems = s.mems := by
  unfold State.replay
  exact (foldl_mems (fun s h => State.emit_mems _ _) _ _).trans rfl

theorem State.linkEvent_keeps (s : State) (n : Nat) (hm : memsOk s.mems) :
    memsOk (State.linkEvent s n).mems := by
  unfold State.linkEvent
  (repeat' (first | split | with_reducible refine foldl_ok (fun _ _ _ => ?_) _ _ ?_ | dsimp only)) <;> grind [= mk_mems, = mems_fold]

grind_pattern State.linkEvent_keeps => State.linkEvent s n

theorem State.trained_keeps (s : State) (port : Nat) (lanes : BitVec 16) (peerAck : BitVec 12) (hm : memsOk s.mems) :
    memsOk (State.trained s port lanes peerAck).mems := by
  unfold State.trained
  (repeat' (first | split | with_reducible refine foldl_ok (fun _ _ _ => ?_) _ _ ?_ | dsimp only)) <;> grind [= mk_mems, = mems_fold, = State.setPort_mems, = State.replay_mems, = State.emit_mems]

grind_pattern State.trained_keeps => State.trained s port lanes peerAck

theorem execRetrainComplete_keeps (port : Nat) (peerAck : BitVec 12) (s : State) {u : State} (hm : memsOk s.mems) (e : execRetrainComplete port peerAck s = .next u) :
    memsOk u.mems := by
  unfold execRetrainComplete at e
  (repeat' split at e) <;> grind [= mk_mems, = mems_fold]

theorem execLaneLoss_keeps (port : Nat) (lane : Nat) (s : State) {u : State} (hm : memsOk s.mems) (e : execLaneLoss port lane s = .next u) :
    memsOk u.mems := by
  unfold execLaneLoss at e
  (repeat' split at e) <;> grind [= mk_mems, = mems_fold, = State.setPort_mems]

theorem execPleipAckTimer_mems (port : Nat) (s : State) {u : State} (e : execPleipAckTimer port s = .next u) :
    u.mems = s.mems := by
  unfold execPleipAckTimer at e
  (repeat' split at e) <;> grind [= mk_mems, = mems_fold, = State.emit_mems, = State.setPort_mems]

theorem execPleipReplayTimeout_mems (port : Nat) (s : State) {u : State} (e : execPleipReplayTimeout port s = .next u) :
    u.mems = s.mems := by
  unfold execPleipReplayTimeout at e
  (repeat' split at e) <;> grind [= mk_mems, = mems_fold, = State.replay_mems]

theorem State.ackUpTo_keeps (s : State) (n : Nat) (ack : BitVec 12) (hm : memsOk s.mems) :
    memsOk (State.ackUpTo s n ack).mems := by
  unfold State.ackUpTo
  (repeat' (first | split | with_reducible refine foldl_ok (fun _ _ _ => ?_) _ _ ?_ | dsimp only)) <;> grind [= mk_mems, = mems_fold, = State.setPort_mems]

grind_pattern State.ackUpTo_keeps => State.ackUpTo s n ack

theorem execPleipNakReceive_keeps (port : Nat) (ack : BitVec 12) (s : State) {u : State} (hm : memsOk s.mems) (e : execPleipNakReceive port ack s = .next u) :
    memsOk u.mems := by
  unfold execPleipNakReceive at e
  (repeat' split at e) <;> grind [= mk_mems, = mems_fold, = State.replay_mems]

theorem execPleipAckReceive_keeps (port : Nat) (ack : BitVec 12) (s : State) {u : State} (hm : memsOk s.mems) (e : execPleipAckReceive port ack s = .next u) :
    memsOk u.mems := by
  unfold execPleipAckReceive at e
  (repeat' split at e) <;> grind [= mk_mems, = mems_fold]

theorem State.draw_mems (s : State) (w : Nat) :
    (State.draw s w).2.mems = s.mems := by
  unfold State.draw
  repeat' split
  all_goals grind [= mk_mems, = mems_fold]

theorem State.setFarPoison_mems (s : State) (o : Owner) (addr : Nat) (on : Bool) :
    (State.setFarPoison s o addr on).mems = s.mems := by
  unfold State.setFarPoison
  repeat' split
  all_goals grind [= mk_mems, = mems_fold]

theorem State.farLine_keeps (s : State) (far : Nat) (a : Nat) (d : LineData) (poisoned : Bool) (hm : memsOk s.mems) :
    memsOk (State.farLine s far a d poisoned).mems := by
  unfold State.farLine
  (repeat' (first | split | with_reducible refine foldl_ok (fun _ _ _ => ?_) _ _ ?_ | dsimp only)) <;> grind [= mk_mems, = mems_fold, = State.setFarPoison_mems, memWf_putLine, = memsOk_iff]

grind_pattern State.farLine_keeps => State.farLine s far a d poisoned

theorem State.answer_mems (s : State) (port : Nat) (p : Packet) :
    (State.answer s port p).mems = s.mems := by
  unfold State.answer
  repeat' split
  all_goals grind [= mk_mems, = mems_fold, = State.sendOn_mems]

theorem State.readUnsettled_mems (s : State) (path : Nat) (me : Option WaveRef) (o : Owner) (scratch : Bool) (loc : Nat) (d : LineData) :
    (State.readUnsettled s path me o scratch loc d).1.mems = s.mems := by
  unfold State.readUnsettled
  refine foldl_mems1 (fun x u => ?_) _ (s, d)
  exact State.draw_mems x.1 64

theorem State.linkRead_keeps (s : State) (port : Nat) (a : Nat) (hm : memsOk s.mems) :
    memsOk (State.linkRead s port a).1.mems := by
  unfold State.linkRead
  (repeat' (first | split | with_reducible refine foldl_ok (fun _ _ _ => ?_) _ _ ?_ | dsimp only)) <;> grind [= mk_mems, = mems_fold, = State.draw_mems, = State.verify_mems, = State.readUnsettled_mems]

grind_pattern State.linkRead_keeps => State.linkRead s port a

theorem State.ingress_keeps (s : State) (port : Nat) (a : Nat) (mask : ByteMask) (d : LineData) (poisoned : Bool) (hm : memsOk s.mems) :
    memsOk (State.ingress s port a mask d poisoned).mems := by
  unfold State.ingress
  (repeat' (first | split | with_reducible refine foldl_ok (fun _ _ _ => ?_) _ _ ?_ | dsimp only)) <;> grind [= mk_mems, = mems_fold]

grind_pattern State.ingress_keeps => State.ingress s port a mask d poisoned

theorem State.applyPacket_keeps (s : State) (port : Nat) (p : Packet) (hm : memsOk s.mems) :
    memsOk (State.applyPacket s port p).mems := by
  unfold State.applyPacket
  (repeat' (first | split | with_reducible refine foldl_ok (fun _ _ _ => ?_) _ _ ?_ | dsimp only)) <;> grind [= mk_mems, = mems_fold, = State.answer_mems, = State.draw_mems]

grind_pattern State.applyPacket_keeps => State.applyPacket s port p

theorem State.discard_mems (s : State) (port : Nat) :
    (State.discard s port).mems = s.mems := by
  unfold State.discard
  repeat' split
  all_goals grind [= mk_mems, = mems_fold, = State.emit_mems, = State.setPort_mems]

theorem execPleipPacketReceive_keeps (port : Nat) (p : Packet) (s : State) {u : State} (hm : memsOk s.mems) (e : execPleipPacketReceive port p s = .next u) :
    memsOk u.mems := by
  unfold execPleipPacketReceive at e
  (repeat' split at e) <;> grind [= mk_mems, = mems_fold, = State.discard_mems, → execPleipAckReceive_keeps, → execPleipNakReceive_keeps, = State.setPort_mems]

theorem execHostCxlMemWrite_keeps (tenant : Nat) (addr : Nat) (bytes : List Byte) (s : State) {u : State} (hm : memsOk s.mems) (e : execHostCxlMemWrite tenant addr bytes s = .next u) :
    memsOk u.mems := by
  unfold execHostCxlMemWrite at e
  (repeat' (first | split at e | dsimp only at e))
  · grind
  · grind
  · cases e
    exact foldl_ok (fun s x h => State.writePhys_keeps _ _ _ _ _ _ h) _ _ hm

theorem execHostCxlMemRead_keeps (tenant : Nat) (addr : Nat) (len : Nat) (s : State) {u : State} (hm : memsOk s.mems) (e : execHostCxlMemRead tenant addr len s = .next u) :
    memsOk u.mems := by
  unfold execHostCxlMemRead at e
  (repeat' (first | split at e | dsimp only at e))
  · grind
  · grind
  · cases e
    rw [State.emit_mems]
    exact foldl_ok (fun s x h => by rw [State.verify_mems]; exact State.physFill_keeps _ _ _ h) _ _ hm

theorem execPackageReset_keeps (cols : List ColumnMeasure) (regions : Nat) (s : State) {u : State} (hm : memsOk s.mems) (e : execPackageReset cols regions s = .next u) :
    memsOk u.mems := by
  unfold execPackageReset at e
  split at e
  · grind
  · cases e; exact ⟨rfl, hm.2⟩

theorem State.settleReset_mems (s : State) (t : Nat) :
    (State.settleReset s t).mems = s.mems := by
  unfold State.settleReset
  repeat' split
  all_goals grind [= mk_mems, = mems_fold, = State.setTenant_mems]

theorem State.flushTenant_keeps (s : State) (t : Nat) (hm : memsOk s.mems) :
    memsOk (State.flushTenant s t).mems := by
  unfold State.flushTenant
  (repeat' (first | split | with_reducible refine foldl_ok (fun _ _ _ => ?_) _ _ ?_ | dsimp only)) <;> grind [= mk_mems, = mems_fold]

grind_pattern State.flushTenant_keeps => State.flushTenant s t

theorem State.freeShadow_keeps (s : State) (l : Launch) (hm : memsOk s.mems) :
    memsOk (State.freeShadow s l).mems := by
  unfold State.freeShadow
  (repeat' (first | split | with_reducible refine foldl_ok (fun _ _ _ => ?_) _ _ ?_ | dsimp only)) <;> grind [= mk_mems, = mems_fold, = State.setCtx_mems]

grind_pattern State.freeShadow_keeps => State.freeShadow s l

theorem State.forget_mems (s : State) (lid : Nat) :
    (State.forget s lid).mems = s.mems := by
  unfold State.forget
  repeat' split
  all_goals grind [= mk_mems, = mems_fold]

theorem State.freePool_mems (s : State) (t : Nat) (num : Nat) (a : Nat) :
    (State.freePool s t num a).mems = s.mems := by
  unfold State.freePool
  repeat' split
  all_goals grind [= mk_mems, = mems_fold, = State.setCtx_mems]

theorem State.setCore_mems (s : State) (n : Nat) (c : Core) :
    (State.setCore s n c).mems = s.mems := by
  unfold State.setCore
  repeat' split
  all_goals grind [= mk_mems, = mems_fold]

theorem State.dropDecks_mems (s : State) (b : Block) :
    (State.dropDecks s b).mems = s.mems := by
  unfold State.dropDecks
  repeat' split
  all_goals grind [= mk_mems, = mems_fold]

theorem State.freeBlock_mems (s : State) (b : Block) :
    (State.freeBlock s b).mems = s.mems := by
  unfold State.freeBlock
  have h : ∀ (t : State) (a : State), t.mems = a.mems → ∀ (n : Nat) (k : Core), (t.setCore n k).mems = a.mems := fun t a h n k => by rw [State.setCore_mems, h]
  dsimp only
  refine h _ _ ?_ _ _
  split
  · refine (foldl_mems (fun s w => ?_) _ _).trans ?_
    · split
      · exact State.freePool_mems _ _ _ _
      · rfl
    · rw [State.freePool_mems]; exact State.dropDecks_mems _ _
  · exact State.dropDecks_mems _ _

theorem State.stopLaunch_mems (s : State) (l : Launch) :
    (State.stopLaunch s l).mems = s.mems := by
  unfold State.stopLaunch
  dsimp only
  rw [mk_mems, mems_fold, foldl_mems (fun s g => State.freePool_mems _ _ _ _), foldl_mems (fun s b => State.freeBlock_mems _ _)]

theorem State.dropAllL1_mems (s : State) :
    (State.dropAllL1 s).mems = s.mems := by
  unfold State.dropAllL1
  repeat' split
  all_goals grind [= mk_mems, = mems_fold]

theorem State.settleShare_keeps (s : State) (t : Nat) (n : Nat) (hm : memsOk s.mems) :
    memsOk (State.settleShare s t n).mems := by
  unfold State.settleShare
  (repeat' (first | split | with_reducible refine foldl_ok (fun _ _ _ => ?_) _ _ ?_ | dsimp only)) <;> grind [= mk_mems, = mems_fold, = State.setCtx_mems]

grind_pattern State.settleShare_keeps => State.settleShare s t n

theorem State.passTurn_mems (s : State) (x1 : List Ctx) :
    (State.passTurn s x1).mems = s.mems := by
  induction x1 generalizing s with
  | nil => rfl
  | cons c cs ih =>
    unfold State.passTurn
    split
    · rfl
    · rw [ih, State.setCtx_mems]

theorem State.settleTurn_mems (s : State) (t : Nat) :
    (State.settleTurn s t).mems = s.mems := by
  unfold State.settleTurn
  repeat' split
  all_goals grind [= mk_mems, = mems_fold, = State.passTurn_mems, = State.setCtx_mems]

theorem State.endLaunch_keeps (s : State) (l : Launch) (err : Nat) (hm : memsOk s.mems) :
    memsOk (State.endLaunch s l err).mems := by
  unfold State.endLaunch
  (repeat' (first | split | with_reducible refine foldl_ok (fun _ _ _ => ?_) _ _ ?_ | dsimp only)) <;> grind [= mk_mems, = mems_fold, = State.settleTurn_mems, = State.dropAllL1_mems, = State.setLaunch_mems, = State.stopLaunch_mems]

grind_pattern State.endLaunch_keeps => State.endLaunch s l err

theorem State.resetLaunch_keeps (s : State) (lid : Nat) (hm : memsOk s.mems) :
    memsOk (State.resetLaunch s lid).mems := by
  unfold State.resetLaunch
  (repeat' (first | split | with_reducible refine foldl_ok (fun _ _ _ => ?_) _ _ ?_ | dsimp only)) <;> grind [= mk_mems, = mems_fold, = State.forget_mems]

grind_pattern State.resetLaunch_keeps => State.resetLaunch s lid

theorem execFunctionLevelReset_keeps (tenant : Nat) (s : State) {u : State} (hm : memsOk s.mems) (e : execFunctionLevelReset tenant s = .next u) :
    memsOk u.mems := by
  unfold execFunctionLevelReset at e
  split at e
  · grind
  · cases e
    rw [State.settleReset_mems, mk_mems, mems_fold, State.setTenant_mems]
    exact State.flushTenant_keeps _ _ (foldl_ok (fun s l h => State.resetLaunch_keeps _ _ h) _ _ hm)

theorem State.dropAsidL1_mems (s : State) (t : Nat) (asid : Nat) :
    (State.dropAsidL1 s t asid).mems = s.mems := by
  unfold State.dropAsidL1
  repeat' split
  all_goals grind [= mk_mems, = mems_fold]

theorem State.acquireS_mems (s : State) (c : Ctx) :
    (State.acquireS s c).mems = s.mems := by
  unfold State.acquireS
  exact State.dropAsidL1_mems s c.tenant c.asid

theorem State.rereadQueue_mems (s : State) (fn : Nat) (q : Nat) :
    (State.rereadQueue s fn q).mems = s.mems := by
  unfold State.rereadQueue
  repeat' split
  all_goals grind [= mk_mems, = mems_fold]

theorem State.badTailEvent_keeps (s : State) (fn : Nat) (q : Nat) (hm : memsOk s.mems) :
    memsOk (State.badTailEvent s fn q).mems := by
  unfold State.badTailEvent
  (repeat' (first | split | with_reducible refine foldl_ok (fun _ _ _ => ?_) _ _ ?_ | dsimp only)) <;> grind [= mk_mems, = mems_fold]

grind_pattern State.badTailEvent_keeps => State.badTailEvent s fn q

theorem State.writeTail_keeps (s : State) (fn : Nat) (q : Nat) (tail : DWord) (hm : memsOk s.mems) :
    memsOk (State.writeTail s fn q tail).mems := by
  unfold State.writeTail
  (repeat' (first | split | with_reducible refine foldl_ok (fun _ _ _ => ?_) _ _ ?_ | dsimp only)) <;> grind [= mk_mems, = mems_fold, = State.rereadQueue_mems, = State.setCmdQueue_mems, = State.acquireS_mems]

grind_pattern State.writeTail_keeps => State.writeTail s fn q tail

theorem State.writeQueueReg_keeps (s : State) (fn : Nat) (q : Nat) (r : Nat) (val : DWord) (hm : memsOk s.mems) :
    memsOk (State.writeQueueReg s fn q r val).mems := by
  unfold State.writeQueueReg
  (repeat' (first | split | with_reducible refine foldl_ok (fun _ _ _ => ?_) _ _ ?_ | dsimp only)) <;> grind [= mk_mems, = mems_fold, = State.setCmdQueue_mems]

grind_pattern State.writeQueueReg_keeps => State.writeQueueReg s fn q r val

theorem State.writeRingReg_mems (s : State) (fn : Nat) (r : Nat) (val : DWord) :
    (State.writeRingReg s fn r val).mems = s.mems := by
  unfold State.writeRingReg
  repeat' split
  all_goals grind [= mk_mems, = mems_fold, = State.setTenant_mems]

theorem execRegisterWrite_keeps (fn : Nat) (off : Nat) (val : DWord) (s : State) {u : State} (hm : memsOk s.mems) (e : execRegisterWrite fn off val s = .next u) :
    memsOk u.mems := by
  unfold execRegisterWrite at e
  (repeat' split at e) <;> grind [= mk_mems, = mems_fold, = State.writeRingReg_mems, = State.setIsland_mems]

theorem execQtailWrite_keeps (fn : Nat) (q : Nat) (tail : DWord) (s : State) {u : State} (hm : memsOk s.mems) (e : execQtailWrite fn q tail s = .next u) :
    memsOk u.mems := by
  unfold execQtailWrite at e
  (repeat' split at e) <;> grind [= mk_mems, = mems_fold]

theorem State.take_mems (s : State) (c : CmdSrc) :
    (State.take s c).mems = s.mems := by
  unfold State.take
  repeat' split
  all_goals grind [= mk_mems, = mems_fold, = State.setCmdQueue_mems]

theorem State.command_keeps (s : State) (c : CmdSrc) (pkg : Bool) (opc : Nat) (f : State → CmdEnd) {u : State} (hm : memsOk s.mems)
    (hf : ∀ t, memsOk t.mems → (f t).All fun v => memsOk v.mems) (e : State.command s c pkg opc f = .next u) :
    memsOk u.mems := by
  unfold State.command at e
  split at e
  · grind
  · split at e
    · cases e; exact State.complete_keeps _ _ _ _ _ (by rw [State.take_mems]; exact hm)
    · have h := hf (s.take c) (by rw [State.take_mems]; exact hm)
      split at e
      · grind
      · next hd => cases e; rw [hd] at h; exact h s hm
      · next hd => cases e; rw [hd] at h; exact h
      · next hd => cases e; rw [hd] at h; exact State.complete_keeps _ _ _ _ _ h

theorem execAttest_keeps (c : CmdSrc) (nonce : DWord) (dst : DWord) (s : State) {u : State} (hm : memsOk s.mems) (e : execAttest c nonce dst s = .next u) :
    memsOk u.mems := by
  unfold execAttest at e
  refine State.command_keeps _ _ _ _ _ hm (fun t ht => ?_) e
  clear e hm
  (repeat' (first | split | dsimp only | with_reducible refine foldl_ok (fun _ _ _ => ?_) _ _ ?_)) <;> grind [CmdEnd.All, = mk_mems, = mems_fold]

theorem execFwupdate_keeps (c : CmdSrc) (ptr : DWord) (len : DWord) (s : State) {u : State} (hm : memsOk s.mems) (e : execFwupdate c ptr len s = .next u) :
    memsOk u.mems := by
  unfold execFwupdate at e
  refine State.command_keeps _ _ _ _ _ hm (fun t ht => ?_) e
  clear e hm
  (repeat' (first | split | dsimp only | with_reducible refine foldl_ok (fun _ _ _ => ?_) _ _ ?_)) <;> grind [CmdEnd.All, = mk_mems, = mems_fold]

theorem execLinkretrain_keeps (c : CmdSrc) (port : Nat) (locks : BitVec 16) (peerAck : BitVec 12) (s : State) {u : State} (hm : memsOk s.mems) (e : execLinkretrain c port locks peerAck s = .next u) :
    memsOk u.mems := by
  unfold execLinkretrain at e
  refine State.command_keeps _ _ _ _ _ hm (fun t ht => ?_) e
  clear e hm
  (repeat' (first | split | dsimp only | with_reducible refine foldl_ok (fun _ _ _ => ?_) _ _ ?_)) <;> grind [CmdEnd.All, = mk_mems, = mems_fold, = State.setPort_mems]

theorem State.retireRegion_keeps (s : State) (r : Region) (hm : memsOk s.mems) :
    memsOk (State.retireRegion s r).mems := by
  unfold State.retireRegion
  dsimp only
  generalize hs : List.foldl _ _ (List.range 24) = s1
  have h1 : memsOk s1.mems := by
    rw [← hs]
    refine foldl_ok (fun s c h => State.putColumn_keeps _ _ _ h) _ _ ?_
    exact hm
  split
  · exact h1
  · rw [State.setTenant_mems]; exact h1

grind_pattern State.retireRegion_keeps => State.retireRegion s r

theorem execRegionretire_keeps (c : CmdSrc) (region : Nat) (s : State) {u : State} (hm : memsOk s.mems) (e : execRegionretire c region s = .next u) :
    memsOk u.mems := by
  unfold execRegionretire at e
  refine State.command_keeps _ _ _ _ _ hm (fun t ht => ?_) e
  clear e hm
  (repeat' (first | split | dsimp only | with_reducible refine foldl_ok (fun _ _ _ => ?_) _ _ ?_)) <;> grind [CmdEnd.All, = mk_mems, = mems_fold]

theorem State.changeSlices_keeps (s : State) (t : Nat) (slices : BitVec 96) (hm : memsOk s.mems) :
    memsOk (State.changeSlices s t slices).mems := by
  unfold State.changeSlices
  (repeat' (first | split | with_reducible refine foldl_ok (fun _ _ _ => ?_) _ _ ?_ | dsimp only)) <;> grind [= mk_mems, = mems_fold, = State.setTenant_mems]

grind_pattern State.changeSlices_keeps => State.changeSlices s t slices

theorem execL2OwnershipChange_keeps (tenant : Nat) (slices : BitVec 96) (s : State) {u : State} (hm : memsOk s.mems) (e : execL2OwnershipChange tenant slices s = .next u) :
    memsOk u.mems := by
  unfold execL2OwnershipChange at e
  (repeat' split at e) <;> grind [= mk_mems, = mems_fold]

theorem State.scrubSlice_mems (s : State) (n : Nat) :
    (State.scrubSlice s n).mems = s.mems := by
  unfold State.scrubSlice
  repeat' split
  all_goals grind [= mk_mems, = mems_fold, = State.settleReset_mems]

theorem State.dropDeckLine_keeps (s : State) (x : DeckLine) (hm : memsOk s.mems) :
    memsOk (State.dropDeckLine s x).mems := by
  unfold State.dropDeckLine
  (repeat' (first | split | with_reducible refine foldl_ok (fun _ _ _ => ?_) _ _ ?_ | dsimp only)) <;> grind [= mk_mems, = mems_fold]

grind_pattern State.dropDeckLine_keeps => State.dropDeckLine s x

theorem State.scrubCluster_keeps (s : State) (c : Nat) (hm : memsOk s.mems) :
    memsOk (State.scrubCluster s c).mems := by
  unfold State.scrubCluster
  dsimp only
  generalize hs : List.foldl _ s _ = t
  have ht : memsOk t.mems := by rw [← hs]; exact foldl_ok (fun s x h => State.dropDeckLine_keeps _ _ h) _ _ hm
  split
  · rw [State.settleReset_mems]; exact ht
  · exact ht

grind_pattern State.scrubCluster_keeps => State.scrubCluster s c

theorem execScrub_keeps (u : ScrubUnit) (s : State) {v : State} (hm : memsOk s.mems) (e : execScrub u s = .next v) :
    memsOk v.mems := by
  unfold execScrub at e
  (repeat' split at e) <;> grind [= mk_mems, = mems_fold, = State.scrubSlice_mems]

theorem State.giveRegions_mems (s : State) (t : Nat) :
    (State.giveRegions s t).mems = s.mems := by
  unfold State.giveRegions
  repeat' split
  all_goals grind [= mk_mems, = mems_fold, = State.setTenant_mems]

theorem State.moveResources_keeps (s : State) (to_ : Option Nat) (r : Resources) (hm : memsOk s.mems) :
    memsOk (State.moveResources s to_ r).mems := by
  unfold State.moveResources
  dsimp only
  have h : ∀ l (s : State), memsOk s.mems → memsOk (List.foldl (fun (s : State) n =>
      (if (s.tenant n).own.slices &&& r.slices == 0 then s else s.changeSlices n ((s.tenant n).own.slices &&& ~~~r.slices)).setTenant n
        { (if (s.tenant n).own.slices &&& r.slices == 0 then s else s.changeSlices n ((s.tenant n).own.slices &&& ~~~r.slices)).tenant n with
            own := ((if (s.tenant n).own.slices &&& r.slices == 0 then s else s.changeSlices n ((s.tenant n).own.slices &&& ~~~r.slices)).tenant n).own.less r }) s l).mems := by
    intro l s hs
    refine foldl_ok (fun s n h => ?_) _ _ hs
    rw [State.setTenant_mems]
    split
    · exact h
    · exact State.changeSlices_keeps _ _ _ h
  split
  · exact h _ _ hm
  · rw [State.giveRegions_mems, State.setTenant_mems]
    split
    · exact h _ _ hm
    · exact State.changeSlices_keeps _ _ _ (h _ _ hm)

grind_pattern State.moveResources_keeps => State.moveResources s to_ r

theorem execPartition_keeps (c : CmdSrc) (tenant : Nat) (res : Resources) (s : State) {u : State} (hm : memsOk s.mems) (e : execPartition c tenant res s = .next u) :
    memsOk u.mems := by
  unfold execPartition at e
  refine State.command_keeps _ _ _ _ _ hm (fun t ht => ?_) e
  clear e hm
  (repeat' (first | split | dsimp only | with_reducible refine foldl_ok (fun _ _ _ => ?_) _ _ ?_)) <;> grind [CmdEnd.All, = mk_mems, = mems_fold]

theorem State.unreport_mems (s : State) (t : Nat) (p : Nat → Bool) :
    (State.unreport s t p).mems = s.mems := by
  unfold State.unreport
  repeat' split
  all_goals grind [= mk_mems, = mems_fold]

theorem execTrackset_keeps (c : CmdSrc) (ptr : DWord) (size : DWord) (s : State) {u : State} (hm : memsOk s.mems) (e : execTrackset c ptr size s = .next u) :
    memsOk u.mems := by
  unfold execTrackset at e
  refine State.command_keeps _ _ _ _ _ hm (fun t ht => ?_) e
  clear e hm
  (repeat' (first | split | dsimp only | with_reducible refine foldl_ok (fun _ _ _ => ?_) _ _ ?_)) <;> grind [CmdEnd.All, = mk_mems, = mems_fold, = State.setTenant_mems, = State.unreport_mems]

theorem State.takePool_mems (s : State) (t : Nat) (num : Nat) (n : Nat) {u : Nat × State} (e : State.takePool s t num n = some u) :
    u.2.mems = s.mems := by
  unfold State.takePool at e
  (repeat' split at e) <;> grind [= mk_mems, = mems_fold, = State.setCtx_mems]

theorem State.restoreWindows_keeps (s : State) (t : Nat) (ctx : Nat) (body : List Byte) (x1 : List Wave) (x2 : Nat) {u : State × List Wave} (hm : memsOk s.mems) (e : State.restoreWindows s t ctx body x1 x2 = some u) :
    memsOk u.1.mems := by
  induction x1 generalizing s x2 u with
  | nil => unfold State.restoreWindows at e; cases e; exact hm
  | cons w ws ih =>
    unfold State.restoreWindows at e
    split at e
    · rw [Option.map_eq_some_iff] at e
      obtain ⟨x, hx, e⟩ := e
      rw [← e]
      exact ih (u := x) _ _ hm hx
    · rw [Option.bind_eq_some_iff] at e
      obtain ⟨x, hx, e⟩ := e
      rw [Option.map_eq_some_iff] at e
      obtain ⟨y, hy, e⟩ := e
      rw [← e]
      exact ih (u := y) _ _ (State.devPut_keeps _ _ _ (by rw [State.takePool_mems _ _ _ _ hx]; exact hm)) hy

theorem State.restoreBlock_keeps (s : State) (t : Nat) (x : Ctx) (body : List Byte) {u : State} (hm : memsOk s.mems) (e : State.restoreBlock s t x body = some u) :
    memsOk u.mems := by
  unfold State.restoreBlock at e
  split at e
  · split at e
    · grind
    · next l b _ _ a s1 hp =>
      have h1 := State.takePool_mems _ _ _ _ hp
      dsimp only at h1
      rw [Option.map_eq_some_iff] at e
      obtain ⟨y, hy, rfl⟩ := e
      refine State.writeHeader_keeps _ _ (State.devPut_keeps _ _ _ ?_)
      refine State.restoreWindows_keeps (e := hy) (hm := ?_) ..
      have h2 : memsOk s1.tick.mems := by rw [State.tick_mems, h1]; exact hm
      split
      · exact h2
      · exact h2
  · grind

theorem State.restoreQueue_mems (s : State) (t : Nat) (ns : List Nat) :
    (State.restoreQueue s t ns).mems = s.mems := by
  unfold State.restoreQueue
  repeat' split
  all_goals grind [= mk_mems, = mems_fold, = State.setCmdQueue_mems]

theorem State.restoreDescriptor_keeps (s : State) (t : Nat) (stream : List Byte) (body : List Byte) {u : State × Ctx} (hm : memsOk s.mems) (e : State.restoreDescriptor s t stream body = some u) :
    memsOk u.1.mems := by
  unfold State.restoreDescriptor at e
  (repeat' split at e) <;> grind [= mk_mems, = mems_fold]

theorem State.restoreRecord_keeps (s : State) (t : Nat) (stream : List Byte) (cur : Option Nat) (r : Tlv) {u : State × Option Nat} (hm : memsOk s.mems) (e : State.restoreRecord s t stream cur r = some u) :
    memsOk u.1.mems := by
  unfold State.restoreRecord at e
  split at e
  · rw [Option.map_eq_some_iff] at e
    obtain ⟨x, hx, rfl⟩ := e
    exact State.restoreDescriptor_keeps (e := hx) (hm := hm) ..
  · split at e
    · cases e; have h := State.restoreQueue_mems s t (Config.recordNumbers r.type r.body); exact h.symm ▸ hm
    · split at e
      · grind
      · split at e
        · cases e; exact State.devPut_keeps _ _ _ hm
        · split at e
          · cases e; rw [State.setCtx_mems]; exact State.devPut_keeps _ _ _ hm
          · split at e
            · rw [Option.map_eq_some_iff] at e
              obtain ⟨ps, hx, rfl⟩ := e
              exact foldl_ok (fun s p h => State.devPut_keeps _ _ _ h) _ _ hm
            · split at e
              · rw [Option.map_eq_some_iff] at e
                obtain ⟨v, hx, rfl⟩ := e
                exact State.restoreBlock_keeps (e := hx) (hm := hm) ..
              · cases e; rw [State.setCtx_mems]; exact hm

theorem State.restoreAll_keeps (s : State) (t : Nat) (stream : List Byte) (x1 : List Tlv) (x2 : Option Nat) {u : State} (hm : memsOk s.mems) (e : State.restoreAll s t stream x1 x2 = some u) :
    memsOk u.mems := by
  induction x1 generalizing s x2 with
  | nil => unfold State.restoreAll at e; cases e; exact hm
  | cons r rs ih =>
    unfold State.restoreAll at e
    split at e
    · rw [Option.bind_eq_some_iff] at e
      obtain ⟨x, hx, e⟩ := e
      exact ih _ _ (State.restoreRecord_keeps (e := hx) (hm := hm) ..) e
    · exact ih _ _ hm e

theorem execRestore_keeps (c : CmdSrc) (ptr : DWord) (len : DWord) (s : State) {u : State} (hm : memsOk s.mems) (e : execRestore c ptr len s = .next u) :
    memsOk u.mems := by
  unfold execRestore at e
  refine State.command_keeps _ _ _ _ _ hm (fun t ht => ?_) e
  clear e hm
  (repeat' (first | split | dsimp only | with_reducible refine foldl_ok (fun _ _ _ => ?_) _ _ ?_)) <;> grind [CmdEnd.All, = mk_mems, = mems_fold, → State.restoreAll_keeps, = State.settleTurn_mems]

theorem State.sendRecords_mems (s : State) (r : Round) (bs : List Byte) (n : Nat) :
    (State.sendRecords s r bs n).mems = s.mems := by
  unfold State.sendRecords
  exact foldl_mems (fun s i => State.emit_mems _ _) _ _

theorem State.clearFrame_keeps (s : State) (t : Nat) (f : Nat × Nat) (hm : memsOk s.mems) :
    memsOk (State.clearFrame s t f).mems := by
  unfold State.clearFrame
  (repeat' (first | split | with_reducible refine foldl_ok (fun _ _ _ => ?_) _ _ ?_ | dsimp only)) <;> grind [= mk_mems, = mems_fold, = State.unreport_mems]

grind_pattern State.clearFrame_keeps => State.clearFrame s t f

theorem State.sendFrames_keeps (s : State) (r : Round) (x1 : List (Nat × Nat)) (x2 : Nat) (hm : memsOk s.mems) :
    memsOk (State.sendFrames s r x1 x2).1.mems := by
  induction x1 generalizing s x2 with
  | nil => exact hm
  | cons f fs ih =>
    unfold State.sendFrames
    dsimp only
    split
    · exact State.clearFrame_keeps _ _ _ hm
    · exact ih _ _ (by rw [State.emit_mems]; exact State.clearFrame_keeps _ _ _ hm)

grind_pattern State.sendFrames_keeps => State.sendFrames s r x1 x2

theorem execPrecopy_keeps (c : CmdSrc) (port : Nat) (peer : DWord) (stream : BitVec 32) (kind : Nat) (records : DWord) (len : DWord) (s : State) {u : State} (hm : memsOk s.mems) (e : execPrecopy c port peer stream kind records len s = .next u) :
    memsOk u.mems := by
  unfold execPrecopy at e
  refine State.command_keeps _ _ _ _ _ hm (fun t ht => ?_) e
  clear e hm
  (repeat' (first | split | dsimp only | with_reducible refine foldl_ok (fun _ _ _ => ?_) _ _ ?_)) <;> grind [CmdEnd.All, = mk_mems, = mems_fold, = State.sendRecords_mems, = State.setTenant_mems]

theorem execKeyset_keeps (c : CmdSrc) (ptr : DWord) (s : State) {u : State} (hm : memsOk s.mems) (e : execKeyset c ptr s = .next u) :
    memsOk u.mems := by
  unfold execKeyset at e
  refine State.command_keeps _ _ _ _ _ hm (fun t ht => ?_) e
  clear e hm
  (repeat' (first | split | dsimp only | with_reducible refine foldl_ok (fun _ _ _ => ?_) _ _ ?_)) <;> grind [CmdEnd.All, = mk_mems, = mems_fold, = State.setTenant_mems]

theorem State.uceWave_mems (s : State) (w : WaveRef) (cause : Nat) (pc : DWord) :
    (State.uceWave s w cause pc).mems = s.mems := by
  unfold State.uceWave
  repeat' split
  all_goals grind [= mk_mems, = mems_fold, = State.setBlock_mems]

theorem State.uceBlock_mems (s : State) (b : Block) (cause : Option Nat) :
    (State.uceBlock s b cause).mems = s.mems := by
  unfold State.uceBlock
  repeat' split
  all_goals grind [= mk_mems, = mems_fold, = State.uceWave_mems]

theorem State.loadDeck_mems (s : State) (b : Block) (nv : Nat) :
    (State.loadDeck s b nv).mems = s.mems := by
  unfold State.loadDeck
  dsimp only
  rw [State.uceBlock_mems, State.setBlock_mems, State.setCore_mems]

theorem State.releaseBlock_keeps (s : State) (b : Block) (hm : memsOk s.mems) :
    memsOk (State.releaseBlock s b).mems := by
  unfold State.releaseBlock
  (repeat' (first | split | with_reducible refine foldl_ok (fun _ _ _ => ?_) _ _ ?_ | dsimp only)) <;> grind [= mk_mems, = mems_fold, = State.loadDeck_mems, = State.setBlock_mems]

grind_pattern State.releaseBlock_keeps => State.releaseBlock s b

theorem execDebugresume_keeps (c : CmdSrc) (fseq : DWord) (block : BlockName) (s : State) {u : State} (hm : memsOk s.mems) (e : execDebugresume c fseq block s = .next u) :
    memsOk u.mems := by
  unfold execDebugresume at e
  refine State.command_keeps _ _ _ _ _ hm (fun t ht => ?_) e
  clear e hm
  (repeat' (first | split | dsimp only | with_reducible refine foldl_ok (fun _ _ _ => ?_) _ _ ?_)) <;> grind [CmdEnd.All, = mk_mems, = mems_fold, = State.settleTurn_mems]

theorem State.setGang_mems (s : State) (g : Gang) :
    (State.setGang s g).mems = s.mems := by
  unfold State.setGang
  repeat' split
  all_goals grind [= mk_mems, = mems_fold]

theorem State.writeLogs_keeps (s : State) (b : Block) (nv : Nat) (hm : memsOk s.mems) :
    memsOk (State.writeLogs s b nv).mems := by
  unfold State.writeLogs
  (repeat' (first | split | with_reducible refine foldl_ok (fun _ _ _ => ?_) _ _ ?_ | dsimp only)) <;> grind [= mk_mems, = mems_fold]

grind_pattern State.writeLogs_keeps => State.writeLogs s b nv

theorem State.writeDeckBytes_keeps (s : State) (b : Block) (nv : Nat) (at_ : Nat) (bs : List Byte) (hm : memsOk s.mems) :
    memsOk (State.writeDeckBytes s b nv at_ bs).mems := by
  unfold State.writeDeckBytes
  (repeat' (first | split | with_reducible refine foldl_ok (fun _ _ _ => ?_) _ _ ?_ | dsimp only)) <;> grind [= mk_mems, = mems_fold, = State.setGang_mems, = State.setBlock_mems]

grind_pattern State.writeDeckBytes_keeps => State.writeDeckBytes s b nv at_ bs

theorem execDebugwrite_keeps (c : CmdSrc) (fseq : DWord) (block : BlockName) (off : DWord) (src : DWord) (len : DWord) (s : State) {u : State} (hm : memsOk s.mems) (e : execDebugwrite c fseq block off src len s = .next u) :
    memsOk u.mems := by
  unfold execDebugwrite at e
  refine State.command_keeps _ _ _ _ _ hm (fun t ht => ?_) e
  clear e hm
  (repeat' (first | split | dsimp only | with_reducible refine foldl_ok (fun _ _ _ => ?_) _ _ ?_)) <;> grind [CmdEnd.All, = mk_mems, = mems_fold]

theorem State.holdBlock_mems (lid : Nat) (rank : Nat) (s : State) :
    (State.holdBlock lid rank s).mems = s.mems := by
  unfold State.holdBlock
  repeat' split
  all_goals grind [= mk_mems, = mems_fold, = State.setBlock_mems]

theorem State.writeDeck_keeps (s : State) (b : Block) (nv : Nat) (hm : memsOk s.mems) :
    memsOk (State.writeDeck s b nv).mems := by
  unfold State.writeDeck
  dsimp only
  rw [State.uceBlock_mems]
  refine State.devPut_keeps _ _ _ (State.writeLogs_keeps _ _ _ (State.writeHeader_keeps _ _ ?_))
  refine foldl_ok (fun s w h => ?_) _ _ (by rw [State.dropDecks_mems]; exact hm)
  split
  · exact State.devPut_keeps _ _ _ (State.devPut_keeps _ _ _ h)
  · exact State.devPut_keeps _ _ _ h

grind_pattern State.writeDeck_keeps => State.writeDeck s b nv

theorem State.setJob_mems (s : State) (j : Job) :
    (State.setJob s j).mems = s.mems := by
  unfold State.setJob
  repeat' split
  all_goals grind [= mk_mems, = mems_fold]

theorem State.writeFault_keeps (s : State) (t : Nat) (words : Bool → List DWord) (hm : memsOk s.mems) :
    memsOk (State.writeFault s t words).mems := by
  unfold State.writeFault
  (repeat' (first | split | with_reducible refine foldl_ok (fun _ _ _ => ?_) _ _ ?_ | dsimp only)) <;> grind [= mk_mems, = mems_fold, = State.setTenant_mems, = State.emit_mems]

grind_pattern State.writeFault_keeps => State.writeFault s t words

theorem State.raiseUce_keeps (s : State) (j : Job) (cause : Nat) (hm : memsOk s.mems) :
    memsOk (State.raiseUce s j cause).mems := by
  unfold State.raiseUce
  (repeat' (first | split | with_reducible refine foldl_ok (fun _ _ _ => ?_) _ _ ?_ | dsimp only)) <;> grind [= mk_mems, = mems_fold, = State.uceWave_mems]

grind_pattern State.raiseUce_keeps => State.raiseUce s j cause

theorem State.uceIf_keeps (s : State) (j : Job) (cause : Nat) (on : Bool) (hm : memsOk s.mems) :
    memsOk (State.uceIf s j cause on).mems := by
  unfold State.uceIf
  (repeat' (first | split | with_reducible refine foldl_ok (fun _ _ _ => ?_) _ _ ?_ | dsimp only)) <;> grind [= mk_mems, = mems_fold]

grind_pattern State.uceIf_keeps => State.uceIf s j cause on

theorem State.readSeg_mems (s : State) (path : Nat) (me : Option WaveRef) (core : Nat) (seg : Nat) :
    (State.readSeg s path me core seg).1.mems = s.mems := by
  unfold State.readSeg
  dsimp only
  split
  · refine foldl_mems1 (fun x p => ?_) _ (s, 0)
    dsimp only
    exact State.readUnsettled_mems x.1 path me .loc true _ _
  · rfl

theorem State.readTile_mems (s : State) (path : Nat) (me : Option WaveRef) (core : Nat) (seg : Nat) (n : Nat) (sw : Nat) (uses : Nat → Bool) :
    (State.readTile s path me core seg n sw uses).1.mems = s.mems := by
  unfold State.readTile
  refine foldl_mems1 (fun x p => ?_) _ (s, 0, false)
  exact State.readSeg_mems _ _ _ _ _

theorem State.stageTile_mems (s : State) (x : Cx) (seg : Nat) (e : TEntry) :
    (State.stageTile s x seg e).1.mems = s.mems := by
  simp only [State.stageTile]
  (repeat' split) <;> grind [= State.readTile_mems]

theorem State.cxAt_mems (s : State) (sel : Sel) {u : Cx} (e : State.cxAt s sel = some u) :
    u.s.mems = s.mems := by
  unfold State.cxAt at e
  (repeat' split at e) <;> grind [= mk_mems, = mems_fold]

theorem State.cxOf_mems (s : State) (w : WaveRef) {u : Cx} (e : State.cxOf s w = some u) :
    u.s.mems = s.mems := by
  unfold State.cxOf at e
  (repeat' split at e) <;> grind [= mk_mems, = mems_fold, → State.cxAt_mems]

theorem State.stageStore_keeps (s : State) (j : Job) (hm : memsOk s.mems) :
    memsOk (State.stageStore s j).1.mems := by
  unfold State.stageStore
  (repeat' (first | split | with_reducible refine foldl_ok (fun _ _ _ => ?_) _ _ ?_ | dsimp only)) <;> grind [= mk_mems, = mems_fold, → State.cxOf_mems, = State.stageTile_mems, = State.setJob_mems]

grind_pattern State.stageStore_keeps => State.stageStore s j

theorem State.dropL1_mems (s : State) (cores : List Nat) (t : Nat) (asid : Nat) (line : Nat) :
    (State.dropL1 s cores t asid line).mems = s.mems := by
  unfold State.dropL1
  repeat' split
  all_goals grind [= mk_mems, = mems_fold]

theorem State.noReplay_mems (s : State) (lid : Nat) :
    (State.noReplay s lid).mems = s.mems := by
  unfold State.noReplay
  repeat' split
  all_goals grind [= mk_mems, = mems_fold, = State.setLaunch_mems]

theorem State.walked_keeps (s : State) (c : Ctx) (va : Nat) (hm : memsOk s.mems) :
    memsOk (State.walked s c va).mems := by
  unfold State.walked
  (repeat' (first | split | refine foldl_ok (fun _ _ _ => ?_) _ _ ?_ | dsimp only)) <;> grind [= mk_mems, = mems_fold]

grind_pattern State.walked_keeps => State.walked s c va

theorem State.translate_keeps (s : State) (c : Ctx) (line : Nat) (hm : memsOk s.mems) :
    memsOk (State.translate s c line).1.mems := by
  unfold State.translate
  (repeat' (first | split | with_reducible refine foldl_ok (fun _ _ _ => ?_) _ _ ?_ | dsimp only)) <;> grind [= mk_mems, = mems_fold]

grind_pattern State.translate_keeps => State.translate s c line

theorem State.unsettleFar_mems (s : State) (ref : Option WaveRef) (l : L2Line) (mask : ByteMask) :
    (State.unsettleFar s ref l mask).mems = s.mems := by
  unfold State.unsettleFar
  repeat' split
  all_goals grind [= mk_mems, = mems_fold, = State.tick_mems]

theorem State.countForward_keeps (s : State) (c : Ctx) (line : Nat) (hm : memsOk s.mems) :
    memsOk (State.countForward s c line).mems := by
  unfold State.countForward
  generalize (s.ctx? c.tenant c.num).getD c = c
  have h : ∀ (x : Ctx) at_ bs, memsOk ((s.devPut at_ bs).setCtx x).mems := fun x at_ bs => by
    rw [State.setCtx_mems]; exact State.devPut_keeps s at_ bs hm
  dsimp only
  split
  · exact hm
  · split
    · exact hm
    · generalize (if memNat s.mem _ 2 == 0 then _ else _ : List (Nat × Nat)) = hs
      split
      · exact State.tenantEvent_keeps _ _ _ _ (h _ _ _)
      · exact h _ _ _

grind_pattern State.countForward_keeps => State.countForward s c line

theorem State.writeFarPoison_mems (s : State) (l : L2Line) (mask : ByteMask) (on : Bool) :
    (State.writeFarPoison s l mask on).mems = s.mems := by
  unfold State.writeFarPoison
  repeat' split
  all_goals grind [= mk_mems, = mems_fold, = State.setFarPoison_mems]

theorem State.writeCopy_mems (s : State) (l : L2Line) (mask : ByteMask) (d : LineData) (on : Bool) :
    (State.writeCopy s l mask d on).mems = s.mems := by
  unfold State.writeCopy
  repeat' split
  all_goals grind [= mk_mems, = mems_fold, = State.setL2_mems]

theorem State.logWrite_mems (s : State) (c : Ctx) (w : Writer) (line : Nat) (phys : Option Nat) (mask : ByteMask) :
    (State.logWrite s c w line phys mask).mems = s.mems := by
  unfold State.logWrite
  repeat' split
  all_goals grind [= mk_mems, = mems_fold, = State.tick_mems]

theorem State.writeLine_keeps (s : State) (c : Ctx) (w : Writer) (l : L2Line) (mask : ByteMask) (d : LineData) (hm : memsOk s.mems) :
    memsOk (State.writeLine s c w l mask d).mems := by
  have hn : ∀ t : State, memsOk t.mems → memsOk ((match w.lid with | some lid => t.noReplay lid | none => t : State)).mems := by
    intro t ht; split
    · rw [State.noReplay_mems]; exact ht
    · exact ht
  unfold State.writeLine
  cases ho : l.owner with
  | loc =>
    dsimp only
    rw [State.logWrite_mems]
    exact State.mergeMem_keeps _ _ _ _ _ (State.dirtyLine_keeps _ _ (State.beforeWrite_keeps _ _ _ hm))
  | host =>
    dsimp only
    rw [State.logWrite_mems]
    refine State.countForward_keeps _ _ _ ?_
    rw [State.emit_mems]
    refine hn _ ?_
    rw [State.writeCopy_mems, State.writeFarPoison_mems]
    exact ⟨hm.1, memWf_putLine _ l.addr mask d hm.2.1, hm.2.2⟩
  | peer p =>
    dsimp only
    rw [State.logWrite_mems]
    refine State.countForward_keeps _ _ _ ?_
    rw [State.sendPeer_mems]
    refine hn _ ?_
    rw [State.writeCopy_mems, State.writeFarPoison_mems]
    have h := hm
    rw [← State.unsettleFar_mems s w.ref? l mask] at h
    exact ⟨h.1, h.2.1, memWf_putLine _ (peerAddr p l.addr) mask d h.2.2⟩

grind_pattern State.writeLine_keeps => State.writeLine s c w l mask d

end Sys2Proof.Machine
end

