-- ==== Sys2Proof/Laws/Kept2.lean ====
section
/-!
SUPPORT. What every function of the machine does to the three memories, part 2.
-/

set_option linter.all false
set_option Elab.async false

namespace Sys2Proof.Machine

theorem State.fill_keeps (s : State) (c : Ctx) (line : Nat) (acc : Access) (resp : Bool) (hm : memsOk s.mems) :
    memsOk (State.fill s c line acc resp).1.mems := by
  unfold State.fill
  (repeat' (first | split | with_reducible refine foldl_ok (fun _ _ _ => ?_) _ _ ?_ | dsimp only)) <;> grind [= mk_mems, = mems_fold, = State.setL2_mems, = State.readUnsettled_mems]

grind_pattern State.fill_keeps => State.fill s c line acc resp

theorem State.ensure_keeps (s : State) (c : Ctx) (line : Nat) (acc : Access) (hm : memsOk s.mems) :
    memsOk (State.ensure s c line acc).1.mems := by
  unfold State.ensure
  (repeat' (first | split | with_reducible refine foldl_ok (fun _ _ _ => ?_) _ _ ?_ | dsimp only)) <;> grind [= mk_mems, = mems_fold]

grind_pattern State.ensure_keeps => State.ensure s c line acc

theorem State.writeD_keeps (s : State) (c : Ctx) (w : Writer) (line : Nat) (mask : ByteMask) (d : LineData) (hm : memsOk s.mems) :
    memsOk (State.writeD s c w line mask d).1.mems := by
  unfold State.writeD
  (repeat' (first | split | with_reducible refine foldl_ok (fun _ _ _ => ?_) _ _ ?_ | dsimp only)) <;> grind [= mk_mems, = mems_fold]

grind_pattern State.writeD_keeps => State.writeD s c w line mask d

theorem Cx.setGangBuf_mems (c : Cx) (f : List BufLine → List BufLine) :
    (Cx.setGangBuf c f).s.mems = c.s.mems := by
  unfold Cx.setGangBuf
  repeat' split
  all_goals grind [= mk_mems, = mems_fold, = State.setGang_mems]

theorem State.colMake_keeps (s : State) (cluster : Nat) (set : Nat) (hm : memsOk s.mems) :
    memsOk (State.colMake s cluster set).mems := by
  unfold State.colMake
  (repeat' (first | split | with_reducible refine foldl_ok (fun _ _ _ => ?_) _ _ ?_ | dsimp only)) <;> grind [= mk_mems, = mems_fold, = State.drawNat_mems, = State.setL2_mems]

grind_pattern State.colMake_keeps => State.colMake s cluster set

theorem Cx.gangMake_keeps (c : Cx) (line : Nat) (log : Option (Nat × Nat)) (hm : memsOk c.s.mems) :
    memsOk (Cx.gangMake c line log).s.mems := by
  unfold Cx.gangMake
  (repeat' (first | split | with_reducible refine foldl_ok (fun _ _ _ => ?_) _ _ ?_ | dsimp only)) <;> grind [= mk_mems, = mems_fold]

grind_pattern Cx.gangMake_keeps => Cx.gangMake c line log

theorem State.l1Make_mems (s : State) (core : Nat) (asid : Nat) (line : Nat) (bs : List Block) :
    (State.l1Make s core asid line bs).mems = s.mems := by
  unfold State.l1Make
  repeat' split
  all_goals grind [= mk_mems, = mems_fold, = State.drawNat_mems, = State.setCore_mems]

theorem Cx.l1Make_mems (c : Cx) (line : Nat) (log : Option (Nat × Nat)) :
    (Cx.l1Make c line log).s.mems = c.s.mems := by
  unfold Cx.l1Make
  repeat' split
  all_goals grind [= mk_mems, = mems_fold, = State.l1Make_mems]

theorem Cx.writeAt_keeps (c : Cx) (lvl : Level) (w : Writer) (line : Nat) (mask : ByteMask) (d : LineData) (hm : memsOk c.s.mems) :
    memsOk (Cx.writeAt c lvl w line mask d).1.s.mems := by
  unfold Cx.writeAt
  cases lvl
  all_goals (try dsimp only)
  · rw [State.logWrite_mems]
    split
    · exact hm
    · rw [Cx.l1Make_mems]; exact hm
  · rw [State.logWrite_mems]
    split
    · exact hm
    · rw [Cx.l1Make_mems]; exact hm
  · rw [State.logWrite_mems, Cx.setGangBuf_mems]
    split
    · exact hm
    · exact Cx.gangMake_keeps _ _ _ hm
  · have h := State.writeD_keeps c.s c.ctx w line mask d hm
    have hs : ∀ t : State, memsOk t.mems → memsOk (if (Level.d == Level.s) = true then t.noReplay c.lch.lid else t).mems := by
      intro t ht
      split
      · rw [State.noReplay_mems]; exact ht
      · exact ht
    (try dsimp only)
    refine hs _ ?_
    split
    · rw [State.settleAt_mems]; exact h
    · exact h
  · have h := State.writeD_keeps c.s c.ctx w line mask d hm
    have hs : ∀ t : State, memsOk t.mems → memsOk (if (Level.s == Level.s) = true then t.noReplay c.lch.lid else t).mems := by
      intro t ht
      split
      · rw [State.noReplay_mems]; exact ht
      · exact ht
    (try dsimp only)
    refine hs _ ?_
    split
    · rw [State.settleAt_mems]; exact h
    · exact h

grind_pattern Cx.writeAt_keeps => Cx.writeAt c lvl w line mask d

theorem State.ownerAtom_keeps (s : State) (c : Ctx) (w : Writer) (l : L2Line) (mask : ByteMask) (new : Option LineData) (hm : memsOk s.mems) :
    memsOk (State.ownerAtom s c w l mask new).mems := by
  have hk : ∀ (t : State) (new : Option LineData), memsOk t.mems → memsOk ((match new, w.lid with
      | none, _ => t.countForward c l.line
      | some _, some lid => ((t.countForward c l.line).noReplay lid).logWrite c w l.line none mask
      | some _, none => (t.countForward c l.line).logWrite c w l.line none mask : State)).mems := by
    intro t new ht
    have h := State.countForward_keeps t c l.line ht
    split
    · exact h
    · rw [State.logWrite_mems, State.noReplay_mems]; exact h
    · rw [State.logWrite_mems]; exact h
  have hw := fun d => State.writeCopy_mems s l mask d false
  unfold State.ownerAtom
  dsimp only
  refine hk _ new ?_
  cases new with
  | none =>
    dsimp only
    cases l.owner
    · exact hm
    · exact hm
    · dsimp only; rw [State.sendPeer_mems]; exact hm
  | some d =>
    have h := hm
    rw [← hw d] at h
    dsimp only
    cases l.owner
    · exact h
    · dsimp only; rw [State.emit_mems]; exact ⟨h.1, memWf_putLine _ _ _ _ h.2.1, h.2.2⟩
    · dsimp only; rw [State.sendPeer_mems]; exact ⟨h.1, h.2.1, memWf_putLine _ _ _ _ h.2.2⟩

grind_pattern State.ownerAtom_keeps => State.ownerAtom s c w l mask new

theorem Cx.lineReady_keeps (c : Cx) (line : Nat) (acc : Access) (hm : memsOk c.s.mems) :
    memsOk (Cx.lineReady c line acc).1.s.mems := by
  unfold Cx.lineReady
  (repeat' (first | split | with_reducible refine foldl_ok (fun _ _ _ => ?_) _ _ ?_ | dsimp only)) <;> grind [= mk_mems, = mems_fold]

grind_pattern Cx.lineReady_keeps => Cx.lineReady c line acc

theorem Cx.atomStep_keeps (c : Cx) (w : Writer) (p : DWord) (n : Nat) (f : Nat → Option Nat × Flags) (hm : memsOk c.s.mems) :
    memsOk (Cx.atomStep c w p n f).1.s.mems := by
  unfold Cx.atomStep
  (repeat' (first | split | with_reducible refine foldl_ok (fun _ _ _ => ?_) _ _ ?_ | dsimp only)) <;> grind [= mk_mems, = mems_fold]

grind_pattern Cx.atomStep_keeps => Cx.atomStep c w p n f

theorem State.requestLine_mems (s : State) (t : Nat) (l : L2Line) :
    (State.requestLine s t l).mems = s.mems := by
  unfold State.requestLine
  repeat' split
  all_goals grind [= mk_mems, = mems_fold, = State.sendPeer_mems]

theorem State.askOwner_mems (s : State) (j : Job) (c : Ctx) (l : L2Line) :
    (State.askOwner s j c l).mems = s.mems := by
  unfold State.askOwner
  repeat' split
  all_goals grind [= mk_mems, = mems_fold, = State.setJob_mems, = State.requestLine_mems]

theorem State.stopJob_keeps (s : State) (j : Job) (t : TrapInfo) (hm : memsOk s.mems) :
    memsOk (State.stopJob s j t).mems := by
  unfold State.stopJob
  (repeat' (first | split | with_reducible refine foldl_ok (fun _ _ _ => ?_) _ _ ?_ | dsimp only)) <;> grind [= mk_mems, = mems_fold, = State.setJob_mems]

grind_pattern State.stopJob_keeps => State.stopJob s j t

theorem State.atomLines_keeps (s : State) (c : Ctx) (buffered : Bool) (able : Bool) (x1 : List (Nat × ByteMask)) (x2 : Got) (hm : memsOk s.mems) :
    memsOk (State.atomLines s c buffered able x1 x2).1.mems := by
  induction x1 generalizing s x2 with
  | nil => exact hm
  | cons p rest ih =>
    obtain ⟨line, m⟩ := p
    unfold State.atomLines
    have h := State.fill_keeps s c line .atomic false hm
    split <;> (next he => rw [he] at h; exact ih _ _ h)

grind_pattern State.atomLines_keeps => State.atomLines s c buffered able x1 x2

theorem State.mergeAmax_keeps (s : State) (j : Job) (lvl : Level) (ptr : DWord) (sc : Nat) (amax : Nat) (hm : memsOk s.mems) :
    memsOk (State.mergeAmax s j lvl ptr sc amax).mems := by
  unfold State.mergeAmax
  (repeat' (first | split | with_reducible refine foldl_ok (fun _ _ _ => ?_) _ _ ?_ | dsimp only)) <;> grind [= mk_mems, = mems_fold, → State.cxOf_mems, = State.setJob_mems, = State.askOwner_mems, = State.dropL1_mems, = Cx.close_mems]

grind_pattern State.mergeAmax_keeps => State.mergeAmax s j lvl ptr sc amax

theorem State.land_keeps (s : State) (j : Job) (c : Ctx) (lvl : Level) (line : Nat) (mask : ByteMask) (d : LineData) (poison : Bool) (hm : memsOk s.mems) :
    memsOk (State.land s j c lvl line mask d poison).1.mems := by
  unfold State.land
  have hf := State.ensure_keeps s c line .write hm
  split
  · next h => rw [h] at hf; exact hf
  · next s1 _ _ h =>
    rw [h] at hf
    split
    · next x hx =>
      obtain ⟨v, _, hv⟩ := Option.bind_eq_some_iff.mp hx
      dsimp only
      rw [Cx.close_mems]
      exact Cx.writeAt_keeps _ _ _ _ _ _ (by rw [State.cxOf_mems _ _ hv]; exact hf)
    · have hw := State.writeD_keeps s1 c { j.writer lvl with poison := poison } line mask d hf
      dsimp only
      split
      · dsimp only; rw [State.settleAt_mems]; exact hw
      · exact hw

grind_pattern State.land_keeps => State.land s j c lvl line mask d poison

theorem State.stepLine_keeps (s : State) (j : Job) (c : Ctx) (lvl : Level) (handle : Nat) (x : Nat × List Piece) (hm : memsOk s.mems) :
    memsOk (State.stepLine s j c lvl handle x).mems := by
  unfold State.stepLine
  (repeat' (first | split | with_reducible refine foldl_ok (fun _ _ _ => ?_) _ _ ?_ | dsimp only)) <;> grind [= mk_mems, = mems_fold, = State.askOwner_mems, = State.setJob_mems]

grind_pattern State.stepLine_keeps => State.stepLine s j c lvl handle x

theorem State.putSeg_mems (s : State) (core : Nat) (seg : Nat) (bytes : List (Nat × Nat)) (tag : BitVec 4) :
    (State.putSeg s core seg bytes tag).mems = s.mems := by
  unfold State.putSeg
  repeat' split
  all_goals grind [= mk_mems, = mems_fold, = State.setCore_mems]

theorem State.putWhole_mems (s : State) (core : Nat) (seg : Nat) (data : Nat) (tag : BitVec 4) :
    (State.putWhole s core seg data tag).mems = s.mems := by
  unfold State.putWhole
  exact (foldl_mems (fun s p => State.settleAt_mems _ _ _ _) _ _).trans (State.putSeg_mems _ _ _ _ _)

theorem State.putFirst_mems (s : State) (core : Nat) (seg : Nat) (data : Nat) (n : Nat) (tag : BitVec 4) :
    (State.putFirst s core seg data n tag).mems = s.mems := by
  unfold State.putFirst
  exact (foldl_mems (fun s p => State.settleAt_mems _ _ _ _) _ _).trans (State.putSeg_mems _ _ _ _ _)

theorem State.putLoaded_mems (s : State) (core : Nat) (first : Nat) (e : TEntry) (stage : List Nat) (n : Nat) :
    (State.putLoaded s core first e stage n).mems = s.mems := by
  unfold State.putLoaded
  have hi : ∀ (a b c : State) (p q : Prop) [Decidable p] [Decidable q] (m : List Host.Cell × List Host.Cell × List Host.Cell), a.mems = m → b.mems = m → c.mems = m →
      (if p then a else if q then b else c).mems = m := by
    intro a b c p q _ _ m ha hb hc
    split
    · exact ha
    · split
      · exact hb
      · exact hc
  exact foldl_mems (fun s i => hi _ _ _ _ _ _ (State.putWhole_mems _ _ _ _ _) (State.putFirst_mems _ _ _ _ _ _) rfl) _ _

theorem State.readD_keeps (s : State) (c : Ctx) (line : Nat) (acc : Access) (resp : Bool) (hm : memsOk s.mems) :
    memsOk (State.readD s c line acc resp).1.mems := by
  unfold State.readD
  (repeat' (first | split | with_reducible refine foldl_ok (fun _ _ _ => ?_) _ _ ?_ | dsimp only)) <;> grind [= mk_mems, = mems_fold, = State.verify_mems, = State.setL2_mems]

grind_pattern State.readD_keeps => State.readD s c line acc resp

theorem State.readPath_keeps (s : State) (me : Option WaveRef) (c : Ctx) (line : Nat) (here : Bool) (hm : memsOk s.mems) :
    memsOk (State.readPath s me c line here).1.mems := by
  unfold State.readPath
  (repeat' (first | split | with_reducible refine foldl_ok (fun _ _ _ => ?_) _ _ ?_ | dsimp only)) <;> grind [= mk_mems, = mems_fold, = State.readUnsettled_mems]

grind_pattern State.readPath_keeps => State.readPath s me c line here

theorem State.readSrc_keeps (s : State) (j : Job) (c : Ctx) (line : Nat) (hm : memsOk s.mems) :
    memsOk (State.readSrc s j c line).1.mems := by
  unfold State.readSrc
  (repeat' (first | split | with_reducible refine foldl_ok (fun _ _ _ => ?_) _ _ ?_ | dsimp only)) <;> grind [= mk_mems, = mems_fold]

grind_pattern State.readSrc_keeps => State.readSrc s j c line

theorem State.readSpan_keeps (s : State) (j : Job) (c : Ctx) (x1 : Nat) (x2 : DWord) (x3 : Nat) (x4 : List Nat) (hm : memsOk s.mems) :
    memsOk (State.readSpan s j c x1 x2 x3 x4).1.mems := by
  induction x1 generalizing s j x2 x3 x4 with
  | zero => exact hm
  | succ n ih =>
    unfold State.readSpan
    split
    · exact hm
    · dsimp only
      have h := State.readSrc_keeps s j c (lineNo x2) hm
      split <;> (next he => rw [he] at h; first | exact h | exact ih _ _ _ _ _ h)

grind_pattern State.readSpan_keeps => State.readSpan s j c x1 x2 x3 x4

theorem State.readBytes_keeps (s : State) (j : Job) (c : Ctx) (p : DWord) (n : Nat) (hm : memsOk s.mems) :
    memsOk (State.readBytes s j c p n).1.mems := by
  unfold State.readBytes
  (repeat' (first | split | with_reducible refine foldl_ok (fun _ _ _ => ?_) _ _ ?_ | dsimp only)) <;> grind [= mk_mems, = mems_fold]

grind_pattern State.readBytes_keeps => State.readBytes s j c p n

theorem State.readScales_keeps (s : State) (j : Job) (c : Ctx) (e : TEntry) (o : List Nat) (i : Nat) (hm : memsOk s.mems) :
    memsOk (State.readScales s j c e o i).1.mems := by
  unfold State.readScales
  (repeat' (first | split | with_reducible refine foldl_ok (fun _ _ _ => ?_) _ _ ?_ | dsimp only)) <;> grind [= mk_mems, = mems_fold]

grind_pattern State.readScales_keeps => State.readScales s j c e o i

theorem State.readRow_keeps (s : State) (j : Job) (c : Ctx) (e : TEntry) (o : List Nat) (i : Nat) (hm : memsOk s.mems) :
    memsOk (State.readRow s j c e o i).1.mems := by
  unfold State.readRow
  (repeat' (first | split | with_reducible refine foldl_ok (fun _ _ _ => ?_) _ _ ?_ | dsimp only)) <;> grind [= mk_mems, = mems_fold]

grind_pattern State.readRow_keeps => State.readRow s j c e o i

theorem State.stepLoad_keeps (s : State) (j : Job) (c : Ctx) (x : Cx) (sym : Nat) (queue : Bool) (seg : Nat) (e : TEntry) (handle : Nat) (origin : List DWord) (hm : memsOk s.mems) :
    memsOk (State.stepLoad s j c x sym queue seg e handle origin).mems := by
  unfold State.stepLoad
  (repeat' (first | split | with_reducible refine foldl_ok (fun _ _ _ => ?_) _ _ ?_ | dsimp only)) <;> grind [= mk_mems, = mems_fold, = State.putLoaded_mems, = State.askOwner_mems, = State.setJob_mems, = State.putWhole_mems]

grind_pattern State.stepLoad_keeps => State.stepLoad s j c x sym queue seg e handle origin

theorem State.landLinear_keeps (s : State) (j : Job) (c : Ctx) (lvl : Level) (p : DWord) (bs : List Nat) (dstSc : Nat) (hm : memsOk s.mems) :
    memsOk (State.landLinear s j c lvl p bs dstSc).mems := by
  unfold State.landLinear
  (repeat' (first | split | with_reducible refine foldl_ok (fun _ _ _ => ?_) _ _ ?_ | dsimp only)) <;> grind [= mk_mems, = mems_fold, = State.setJob_mems]

grind_pattern State.landLinear_keeps => State.landLinear s j c lvl p bs dstSc

theorem State.checkSpan_keeps (s : State) (c : Ctx) (x1 : Nat) (x2 : DWord) (hm : memsOk s.mems) :
    memsOk (State.checkSpan s c x1 x2).1.mems := by
  induction x1 generalizing s x2 with
  | zero => exact hm
  | succ n ih =>
    unfold State.checkSpan
    have h := State.ensure_keeps s c (lineNo x2) .write hm
    split
    · next he => rw [he] at h; exact h
    · next he => rw [he] at h; exact ih _ _ h

grind_pattern State.checkSpan_keeps => State.checkSpan s c x1 x2

theorem State.stageOverlap_keeps (s : State) (j : Job) (c : Ctx) (dst : DWord) (src : DWord) (len : Nat) (dstSc : Nat) (srcSc : Nat) (hm : memsOk s.mems) :
    memsOk (State.stageOverlap s j c dst src len dstSc srcSc).mems := by
  unfold State.stageOverlap
  (repeat' (first | split | with_reducible refine foldl_ok (fun _ _ _ => ?_) _ _ ?_ | dsimp only)) <;> grind [= mk_mems, = mems_fold, = State.askOwner_mems, = State.setJob_mems]

grind_pattern State.stageOverlap_keeps => State.stageOverlap s j c dst src len dstSc srcSc

theorem State.readPieces_keeps (s : State) (j : Job) (c : Ctx) (dst : DWord) (src : DWord) (len : Nat) (dstSc : Nat) (srcSc : Nat) (x1 : Nat) (x2 : Nat) (x3 : List (ByteMask × LineData × Bool)) (hm : memsOk s.mems) :
    memsOk (State.readPieces s j c dst src len dstSc srcSc x1 x2 x3).1.mems := by
  induction x1 generalizing s j x2 x3 with
  | zero => exact hm
  | succ n ih =>
    unfold State.readPieces
    have h := State.ensure_keeps s c (lineNo (destAt dst x2)) .write hm
    split
    · next he => rw [he] at h; exact h
    · next s1 _ _ he =>
      rw [he] at h
      dsimp only
      have hr := State.readBytes_keeps s1 j c (ptrAdd src ((linearPiece dst len x2).1 : Nat)) ((linearPiece dst len x2).2 - (linearPiece dst len x2).1) h
      split <;> (next he => rw [he] at hr; first | exact hr | exact ih _ _ _ _ hr)

grind_pattern State.readPieces_keeps => State.readPieces s j c dst src len dstSc srcSc x1 x2 x3

theorem State.sendLines_keeps (s : State) (j : Job) (c : Ctx) (p : Nat) (addr : Nat) (line : Nat) (ls : List (ByteMask × LineData × Bool)) (hm : memsOk s.mems) :
    memsOk (State.sendLines s j c p addr line ls).mems := by
  have hp : ∀ (f : State → (ByteMask × LineData × Bool) × Nat → State) l (s : State), (∀ s x, memsOk s.mems → memsOk (f s x).mems) →
      memsOk s.mems → memsOk (State.mems (match j.wave with | some w => (List.foldl f s l).noReplay w.lid | none => List.foldl f s l)) := by
    intro f l s hf hs
    have h := foldl_ok hf l s hs
    split
    · rw [State.noReplay_mems]; exact h
    · exact h
  unfold State.sendLines
  (try dsimp only)
  split
  · exact hm
  · have h := hp (fun (s : State) x => if (x.1.1 == BitVec.allOnes 64 || x.1.2.2) = true then
        State.setFarPoison { s with peerMem := memPutLine s.peerMem (peerAddr p (addr + 64 * x.2)) x.1.1 x.1.2.1 } (.peer p) (addr + 64 * x.2) x.1.2.2
      else { s with peerMem := memPutLine s.peerMem (peerAddr p (addr + 64 * x.2)) x.1.1 x.1.2.1 }) ls.zipIdx s (fun s x h => by
      have h' : memsOk (State.mems { s with peerMem := memPutLine s.peerMem (peerAddr p (addr + 64 * x.2)) x.1.1 x.1.2.1 }) :=
        ⟨h.1, h.2.1, memWf_putLine _ _ _ _ h.2.2⟩
      (try dsimp only)
      split
      · rw [State.setFarPoison_mems]; exact h'
      · exact h') hm
    have hq : ∀ (t : State) x o, memsOk t.mems → memsOk (t.sendPeer c.tenant p x o).mems := fun t x o ht => by
      rw [State.sendPeer_mems t c.tenant p x o]; exact ht
    cases hw : j.wave with
    | none => rw [hw] at h; exact hq _ _ _ h
    | some w => rw [hw] at h; exact hq _ _ _ h

grind_pattern State.sendLines_keeps => State.sendLines s j c p addr line ls

theorem State.sendRemote_keeps (s : State) (j : Job) (c : Ctx) (p : Nat) (addr : Nat) (dst : DWord) (src : DWord) (len : Nat) (dstSc : Nat) (srcSc : Nat) (hm : memsOk s.mems) :
    memsOk (State.sendRemote s j c p addr dst src len dstSc srcSc).mems := by
  unfold State.sendRemote
  (repeat' (first | split | with_reducible refine foldl_ok (fun _ _ _ => ?_) _ _ ?_ | dsimp only)) <;> grind [= mk_mems, = mems_fold, = State.askOwner_mems, = State.setJob_mems]

grind_pattern State.sendRemote_keeps => State.sendRemote s j c p addr dst src len dstSc srcSc

theorem State.stepLinear_keeps (s : State) (j : Job) (c : Ctx) (lvl : Level) (dst : DWord) (src : DWord) (len : Nat) (overlap : Bool) (remote : Bool) (dstSc : Nat) (srcSc : Nat) (hm : memsOk s.mems) :
    memsOk (State.stepLinear s j c lvl dst src len overlap remote dstSc srcSc).mems := by
  unfold State.stepLinear
  (repeat' (first | split | with_reducible refine foldl_ok (fun _ _ _ => ?_) _ _ ?_ | dsimp only)) <;> grind [= mk_mems, = mems_fold, = State.askOwner_mems]

grind_pattern State.stepLinear_keeps => State.stepLinear s j c lvl dst src len overlap remote dstSc srcSc

theorem State.stepJob_keeps (s : State) (j : Job) (c : Ctx) (hm : memsOk s.mems) :
    memsOk (State.stepJob s j c).mems := by
  unfold State.stepJob
  (repeat' (first | split | with_reducible refine foldl_ok (fun _ _ _ => ?_) _ _ ?_ | dsimp only)) <;> grind [= mk_mems, = mems_fold, → State.cxOf_mems]

grind_pattern State.stepJob_keeps => State.stepJob s j c

theorem State.transfer_keeps (s : State) (id : Nat) (hm : memsOk s.mems) :
    memsOk (State.transfer s id).mems := by
  unfold State.transfer
  (repeat' (first | split | with_reducible refine foldl_ok (fun _ _ _ => ?_) _ _ ?_ | dsimp only)) <;> grind [= mk_mems, = mems_fold]

grind_pattern State.transfer_keeps => State.transfer s id

theorem State.runJob_keeps (s : State) (id : Nat) (x1 : Nat) (hm : memsOk s.mems) :
    memsOk (State.runJob s id x1).mems := by
  induction x1 generalizing s with
  | zero => exact State.finishJob_keeps _ _ hm
  | succ n ih =>
    unfold State.runJob
    split
    · exact hm
    · split
      · exact State.finishJob_keeps _ _ hm
      · exact ih _ (State.transfer_keeps _ _ hm)

grind_pattern State.runJob_keeps => State.runJob s id x1

theorem State.finishCopies_keeps (s : State) (b : Block) (hm : memsOk s.mems) :
    memsOk (State.finishCopies s b).mems := by
  unfold State.finishCopies
  (repeat' (first | split | with_reducible refine foldl_ok (fun _ _ _ => ?_) _ _ ?_ | dsimp only)) <;> grind [= mk_mems, = mems_fold]

grind_pattern State.finishCopies_keeps => State.finishCopies s b

theorem Cx.putQueue_mems (c : Cx) (q : QueueState) :
    (Cx.putQueue c q).s.mems = c.s.mems := by
  unfold Cx.putQueue
  repeat' split
  all_goals grind [= mk_mems, = mems_fold]

theorem Cx.setWv_mems (c : Cx) (w : Wave) :
    (Cx.setWv c w).s.mems = c.s.mems := by
  unfold Cx.setWv
  repeat' split
  all_goals grind [= mk_mems, = mems_fold]

theorem Cx.onQueue_keeps (c : Cx) (sym : Nat) (k : QueueState → Res) (hm : memsOk c.s.mems) (hk : ∀ x, (k x).All fun u => memsOk u.mems) :
    (c.onQueue sym k).All fun u => memsOk u.mems := by
  unfold Cx.onQueue
  cases c.blk.queue? sym with
  | none => exact hm
  | some x => exact hk x

theorem Cx.setGroups_mems (c : Cx) (gs : List Group) :
    (Cx.setGroups c gs).s.mems = c.s.mems := by
  unfold Cx.setGroups
  repeat' split
  all_goals grind [= mk_mems, = mems_fold, = Cx.setWv_mems]

theorem Cx.advance_mems (c : Cx) (n : Nat) :
    (Cx.advance c n).s.mems = c.s.mems := by
  unfold Cx.advance
  repeat' split
  all_goals grind [= mk_mems, = mems_fold, = Cx.setGroups_mems]

theorem Cx.draw_mems (c : Cx) (w : Nat) :
    (Cx.draw c w).2.s.mems = c.s.mems := by
  unfold Cx.draw
  repeat' split
  all_goals grind [= mk_mems, = mems_fold, = State.draw_mems]

theorem Cx.keepOne_mems (before : RegCtx) (x : Cx × RegCtx) (e : Pending) :
    (Cx.keepOne before x e).1.s.mems = x.1.s.mems := by
  simp only [Cx.keepOne]
  split <;> rfl

theorem Cx.keepPending_mems (c : Cx) (i : Info) (before : RegCtx) (after : RegCtx) :
    (Cx.keepPending c i before after).1.s.mems = c.s.mems := by
  unfold Cx.keepPending
  have hk : ∀ (c : Cx) (b r : RegCtx) (l : List Pending), (List.foldl (Cx.keepOne b) (c, r) l).1.s.mems = c.s.mems :=
    fun c b r l => foldl_cx1 (fun x e => Cx.keepOne_mems b x e) l (c, r)
  split
  · rfl
  · exact hk _ _ _ _

theorem State.touchRegs_mems (s : State) (core : Nat) (w : WaveRef) (inHandler : Bool) (ops : List Opd) (act : Mask) :
    (State.touchRegs s core w inHandler ops act).mems = s.mems := by
  unfold State.touchRegs
  repeat' split
  all_goals grind [= mk_mems, = mems_fold, = State.setCore_mems]

theorem Cx.finish_mems (c : Cx) (h : Hdr) (i : Info) (act : Mask) (w : RegCtx → RegCtx) (gs : Option (List Group)) :
    (Cx.finish c h i act w gs).s.mems = c.s.mems := by
  unfold Cx.finish
  dsimp only
  split
  · rw [Cx.advance_mems, Cx.setWv_mems, Cx.keepPending_mems, State.touchRegs_mems, State.tick_mems]
  · rw [Cx.setGroups_mems, Cx.setWv_mems, Cx.keepPending_mems, State.touchRegs_mems, State.tick_mems]

theorem Cx.enterHandler_keeps (c : Cx) (r : TrapRec) (hm : memsOk c.s.mems) :
    memsOk (Cx.enterHandler c r).s.mems := by
  unfold Cx.enterHandler
  (repeat' (first | split | with_reducible refine foldl_ok (fun _ _ _ => ?_) _ _ ?_ | dsimp only)) <;> grind [= mk_mems, = mems_fold, → State.takePool_mems, = Cx.setWv_mems]

grind_pattern Cx.enterHandler_keeps => Cx.enterHandler c r

theorem Cx.takeTrap_keeps (c : Cx) (t : TrapInfo) (hm : memsOk c.s.mems) :
    memsOk (Cx.takeTrap c t).s.mems := by
  unfold Cx.takeTrap
  (repeat' (first | split | with_reducible refine foldl_ok (fun _ _ _ => ?_) _ _ ?_ | dsimp only)) <;> grind [= mk_mems, = mems_fold, = Cx.setWv_mems]

grind_pattern Cx.takeTrap_keeps => Cx.takeTrap c t

theorem Cx.viewOne_mems (x : Cx × Mask) (e : Pending) :
    (Cx.viewOne x e).1.s.mems = x.1.s.mems := by
  simp only [Cx.viewOne]
  split <;> rfl

theorem Cx.view_mems (c : Cx) (ops : List Opd) :
    (Cx.view c ops).s.mems = c.s.mems := by
  unfold Cx.view
  refine foldl_cx (fun c o => foldl_cx (fun c n => ?_) _ _) _ _
  exact foldl_cx1 (fun x e => Cx.viewOne_mems x e) _ (c, _)

theorem Cx.look_mems (c : Cx) (h : Hdr) (i : Info) :
    (Cx.look c h i).s.mems = c.s.mems := by
  unfold Cx.look
  repeat' split
  all_goals grind [= mk_mems, = mems_fold, = Cx.view_mems]

theorem Cx.issued_keeps (c : Cx) (h : Hdr) (i : Info) (body : Cx → Mask → Res) (hm : memsOk c.s.mems)
    (hb : ∀ c act, memsOk c.s.mems → (body c act).All fun u => memsOk u.mems) :
    memsOk (c.issued h i body).s.mems := by
  unfold Cx.issued
  have hv : memsOk (c.look h i).s.mems := by rw [Cx.look_mems]; exact hm
  dsimp only
  split
  · exact Cx.takeTrap_keeps _ _ hv
  · split
    · rw [Cx.finish_mems]; exact hv
    · have hr := hb (c.look h i) ((c.look h i).guardMask h) hv
      split <;> (next he => rw [he] at hr; first
        | (rw [Cx.finish_mems]; exact hr)
        | exact hr
        | exact Cx.takeTrap_keeps _ _ hr
        | (rw [Cx.setWv_mems]; exact hr))

theorem State.cx?_mems (s : State) {u : Cx} (e : State.cx? s = some u) :
    u.s.mems = s.mems := by
  unfold State.cx? at e
  (repeat' split at e) <;> grind [= mk_mems, = mems_fold, → State.cxAt_mems]

theorem issue_keeps {h : Hdr} {i : Info} {body : Cx → Mask → Res} {s u : State} (hm : memsOk s.mems)
    (hb : ∀ c act, memsOk c.s.mems → (body c act).All fun u => memsOk u.mems) (e : issue h i body s = .next u) :
    memsOk u.mems := by
  unfold issue at e
  split at e
  · cases e
  · next c hc =>
    cases e
    rw [Cx.close_mems]
    exact Cx.issued_keeps _ _ _ _ (by rw [State.cx?_mems _ hc]; exact hm) hb

theorem execQgrant_keeps (h : Hdr) (sym : BitVec 8) (n : BitVec 5) (s : State) {u : State} (hm : memsOk s.mems) (e : execQgrant h sym n s = .next u) :
    memsOk u.mems := by
  unfold execQgrant at e
  (try dsimp only at e)
  (repeat' split at e) <;> refine issue_keeps hm (fun c act hc => ?_) e
  all_goals
    clear e hm
    (repeat' (first | assumption | with_reducible refine onPath_keeps _ _ _ _ (by assumption) (fun c hc => ?_) | with_reducible refine Cx.readLanes_keeps _ _ _ _ _ _ _ _ (by assumption) (fun c g hc => ?_) | with_reducible refine Cx.edge_keeps _ _ _ _ (by assumption) (fun c d hc => ?_) | with_reducible refine Cx.edgeLine_keeps _ _ _ _ (by assumption) (fun c d hc => ?_) | with_reducible refine onFrame_keeps _ _ _ (by assumption) (fun f => ?_) | with_reducible refine onEngine_keeps _ _ _ (by assumption) ?_ | with_reducible refine Cx.onQueue_keeps _ _ _ (by assumption) (fun x => ?_) | with_reducible refine Cx.arrival_keeps _ _ _ _ _ (by assumption) (fun b t => ?_) | with_reducible refine Cx.awaitLine_keeps _ _ _ ?_ | with_reducible exact tileBody_keeps _ _ _ _ _ _ _ hc | with_reducible exact copyBody_keeps _ _ _ _ _ _ _ _ hc | with_reducible exact drainBody_keeps _ _ _ _ _ _ _ _ _ _ hc | with_reducible refine waitvPoll_keeps _ _ _ _ _ _ _ _ _ _ ?_ | split | dsimp only))
  all_goals (try grind [= mk_mems, = mems_fold, = Cx.setWv_mems, = Cx.putQueue_mems, Res.All])

theorem State.popEngine_mems (s : State) (core : Nat) :
    (State.popEngine s core).mems = s.mems := by
  unfold State.popEngine
  repeat' split
  all_goals grind [= mk_mems, = mems_fold, = State.setCore_mems]

theorem State.readOperands_mems (s : State) (core : Nat) (op : EngOp) (lo : Nat) (hi : Nat) :
    (State.readOperands s core op lo hi).1.mems = s.mems := by
  unfold State.readOperands
  repeat' split
  all_goals grind [= mk_mems, = mems_fold, = State.readTile_mems]

theorem execMmaExecute_mems (core : Nat) (s : State) {u : State} (e : execMmaExecute core s = .next u) :
    u.mems = s.mems := by
  unfold execMmaExecute at e
  (repeat' split at e) <;> grind [= mk_mems, = mems_fold, = State.readOperands_mems, = State.popEngine_mems, = State.uceWave_mems, = State.report_mems, = State.setCore_mems]

theorem State.startDrain_keeps (s : State) (core : Nat) (op : EngOp) (c : Cx) (dst : DrainDst) (hn : BitVec 8) (tag : BitVec 8) (cols : Nat) (rows : List Nat) (fl : Flags) (amx : Option (Level × DWord × Nat)) (amax : Nat) (hm : memsOk s.mems) :
    memsOk (State.startDrain s core op c dst hn tag cols rows fl amx amax).mems := by
  unfold State.startDrain
  dsimp only
  refine State.runJob_keeps _ _ _ ?_
  rw [mk_mems, mems_fold]
  split
  · exact hm
  · dsimp only
    rw [foldl_mems (fun s i => State.putWhole_mems s _ _ _ _)]
    exact hm

grind_pattern State.startDrain_keeps => State.startDrain s core op c dst hn tag cols rows fl amx amax

theorem execPdrainExecute_keeps (core : Nat) (s : State) {u : State} (hm : memsOk s.mems) (e : execPdrainExecute core s = .next u) :
    memsOk u.mems := by
  unfold execPdrainExecute at e
  (repeat' split at e) <;> grind [= mk_mems, = mems_fold, → State.cxOf_mems, = State.popEngine_mems, = State.uceWave_mems, = State.report_mems]

theorem execDrainExecute_keeps (core : Nat) (s : State) {u : State} (hm : memsOk s.mems) (e : execDrainExecute core s = .next u) :
    memsOk u.mems := by
  unfold execDrainExecute at e
  (repeat' split at e) <;> grind [= mk_mems, = mems_fold, → State.cxOf_mems, = State.popEngine_mems, = State.uceWave_mems, = State.report_mems]

theorem State.engineStep_keeps (s : State) (core : Nat) (hm : memsOk s.mems) :
    memsOk (State.engineStep s core).mems := by
  unfold State.engineStep
  (repeat' (first | split | with_reducible refine foldl_ok (fun _ _ _ => ?_) _ _ ?_ | dsimp only)) <;> grind [= mk_mems, = mems_fold, → execDrainExecute_keeps, → execPdrainExecute_keeps, → execMmaExecute_mems]

grind_pattern State.engineStep_keeps => State.engineStep s core

theorem State.runOps_keeps (s : State) (core : Nat) (ops : List Nat) (x1 : Nat) (hm : memsOk s.mems) :
    memsOk (State.runOps s core ops x1).mems := by
  induction x1 generalizing s with
  | zero => exact hm
  | succ n ih =>
    unfold State.runOps
    split
    · exact ih _ (State.engineStep_keeps _ _ hm)
    · exact hm

grind_pattern State.runOps_keeps => State.runOps s core ops x1

theorem State.finishGrant_keeps (s : State) (b : Block) (wave : Nat) (hm : memsOk s.mems) :
    memsOk (State.finishGrant s b wave).mems := by
  unfold State.finishGrant
  dsimp only
  split
  · next g _ _ =>
    have h1 := State.runOps_keeps s b.core g.ops ((s.core b.core).engine.length) hm
    split
    · split
      · next t he => refine (execQgrant_keeps _ _ _ _ ?_ he : memsOk t.mems); exact h1
      · exact h1
    · exact h1
  · exact hm

grind_pattern State.finishGrant_keeps => State.finishGrant s b wave

theorem State.finishGrants_keeps (s : State) (b : Block) (hm : memsOk s.mems) :
    memsOk (State.finishGrants s b).mems := by
  unfold State.finishGrants
  (repeat' (first | split | with_reducible refine foldl_ok (fun _ _ _ => ?_) _ _ ?_ | dsimp only)) <;> grind [= mk_mems, = mems_fold]

grind_pattern State.finishGrants_keeps => State.finishGrants s b

theorem State.finishEngine_keeps (s : State) (b : Block) (x1 : Nat) (hm : memsOk s.mems) :
    memsOk (State.finishEngine s b x1).mems := by
  induction x1 generalizing s with
  | zero => exact hm
  | succ n ih =>
    unfold State.finishEngine
    split
    · exact ih _ (State.engineStep_keeps _ _ hm)
    · exact hm

grind_pattern State.finishEngine_keeps => State.finishEngine s b x1

theorem State.haltBlock_keeps (s : State) (b : Block) {u : State} (hm : memsOk s.mems) (e : State.haltBlock s b = some u) :
    memsOk u.mems := by
  unfold State.haltBlock at e
  (repeat' split at e) <;> grind [= mk_mems, = mems_fold, = State.setBlock_mems]

theorem execDebughalt_keeps (c : CmdSrc) (fseq : DWord) (block : BlockName) (s : State) {u : State} (hm : memsOk s.mems) (e : execDebughalt c fseq block s = .next u) :
    memsOk u.mems := by
  unfold execDebughalt at e
  refine State.command_keeps _ _ _ _ _ hm (fun t ht => ?_) e
  clear e hm
  (repeat' (first | split | dsimp only | with_reducible refine foldl_ok (fun _ _ _ => ?_) _ _ ?_)) <;> grind [CmdEnd.All, = mk_mems, = mems_fold, → State.haltBlock_keeps, = State.holdBlock_mems, = State.setBlock_mems]

theorem State.failCopy_keeps (s : State) (j : Job) (hm : memsOk s.mems) :
    memsOk (State.failCopy s j).mems := by
  unfold State.failCopy
  (repeat' (first | split | with_reducible refine foldl_ok (fun _ _ _ => ?_) _ _ ?_ | dsimp only)) <;> grind [= mk_mems, = mems_fold]

grind_pattern State.failCopy_keeps => State.failCopy s j

theorem execFaultfail_keeps (c : CmdSrc) (fseq : DWord) (block : DWord) (fq : Nat) (s : State) {u : State} (hm : memsOk s.mems) (e : execFaultfail c fseq block fq s = .next u) :
    memsOk u.mems := by
  unfold execFaultfail at e
  refine State.command_keeps _ _ _ _ _ hm (fun t ht => ?_) e
  clear e hm
  (repeat' (first | split | dsimp only | with_reducible refine foldl_ok (fun _ _ _ => ?_) _ _ ?_)) <;> grind [CmdEnd.All, = mk_mems, = mems_fold]

theorem State.resumeBlock_mems (s : State) (b : Block) :
    (State.resumeBlock s b).mems = s.mems := by
  unfold State.resumeBlock
  repeat' split
  all_goals grind [= mk_mems, = mems_fold, = State.setBlock_mems]

theorem execFaultresume_keeps (c : CmdSrc) (fseq : DWord) (block : DWord) (fq : Nat) (s : State) {u : State} (hm : memsOk s.mems) (e : execFaultresume c fseq block fq s = .next u) :
    memsOk u.mems := by
  unfold execFaultresume at e
  refine State.command_keeps _ _ _ _ _ hm (fun t ht => ?_) e
  clear e hm
  (repeat' (first | split | dsimp only | with_reducible refine foldl_ok (fun _ _ _ => ?_) _ _ ?_)) <;> grind [CmdEnd.All, = mk_mems, = mems_fold, = State.setJob_mems, = State.settleTurn_mems, = State.resumeBlock_mems]

theorem State.takeDirty_keeps (s : State) (t : Nat) (base : Nat) (first : Nat) (count : Nat) (hm : memsOk s.mems) :
    memsOk (State.takeDirty s t base first count).1.mems := by
  unfold State.takeDirty
  (repeat' (first | split | with_reducible refine foldl_ok (fun _ _ _ => ?_) _ _ ?_ | dsimp only)) <;> grind [= mk_mems, = mems_fold, = State.unreport_mems]

grind_pattern State.takeDirty_keeps => State.takeDirty s t base first count

theorem execDirtyrc_keeps (c : CmdSrc) (first : DWord) (count : DWord) (dst : DWord) (s : State) {u : State} (hm : memsOk s.mems) (e : execDirtyrc c first count dst s = .next u) :
    memsOk u.mems := by
  unfold execDirtyrc at e
  refine State.command_keeps _ _ _ _ _ hm (fun t ht => ?_) e
  clear e hm
  (repeat' (first | split | dsimp only | with_reducible refine foldl_ok (fun _ _ _ => ?_) _ _ ?_)) <;> grind [CmdEnd.All, = mk_mems, = mems_fold]

theorem State.clearHandle_keeps (s : State) (x : Ctx) (n : Nat) (hm : memsOk s.mems) :
    memsOk (State.clearHandle s x n).mems := by
  unfold State.clearHandle
  (repeat' (first | split | with_reducible refine foldl_ok (fun _ _ _ => ?_) _ _ ?_ | dsimp only)) <;> grind [= mk_mems, = mems_fold, = State.setCtx_mems]

grind_pattern State.clearHandle_keeps => State.clearHandle s x n

theorem execHandleinval_keeps (c : CmdSrc) (ctx : Nat) (hn : BitVec 8) (s : State) {u : State} (hm : memsOk s.mems) (e : execHandleinval c ctx hn s = .next u) :
    memsOk u.mems := by
  unfold execHandleinval at e
  refine State.command_keeps _ _ _ _ _ hm (fun t ht => ?_) e
  clear e hm
  (repeat' (first | split | dsimp only | with_reducible refine foldl_ok (fun _ _ _ => ?_) _ _ ?_)) <;> grind [CmdEnd.All, = mk_mems, = mems_fold]

theorem State.runOnFrom_mems (s : State) (t : Nat) (asid : Nat) (p : Nat → Bool) :
    (State.runOnFrom s t asid p).mems = s.mems := by
  unfold State.runOnFrom
  repeat' split
  all_goals grind [= mk_mems, = mems_fold]

theorem State.dropLines_keeps (s : State) (t : Nat) (asid : Nat) (p : Nat → Bool) (hm : memsOk s.mems) :
    memsOk (State.dropLines s t asid p).mems := by
  unfold State.dropLines
  (repeat' (first | split | with_reducible refine foldl_ok (fun _ _ _ => ?_) _ _ ?_ | dsimp only)) <;> grind [= mk_mems, = mems_fold]

grind_pattern State.dropLines_keeps => State.dropLines s t asid p

theorem State.reroute_keeps (s : State) (x : Ctx) (line : Nat) (h : HeldPacket) (hm : memsOk s.mems) :
    memsOk (State.reroute s x line h).mems := by
  unfold State.reroute
  (repeat' (first | split | with_reducible refine foldl_ok (fun _ _ _ => ?_) _ _ ?_ | dsimp only)) <;> grind [= mk_mems, = mems_fold]

grind_pattern State.reroute_keeps => State.reroute s x line h

theorem State.takeDead_mems (s : State) (x : Ctx) (va : Nat) (size : Nat) :
    (State.takeDead s x va size).1.mems = s.mems := by
  unfold State.takeDead
  exact foldl_mems (fun s n => State.setPort_mems _ _ _) _ _

theorem State.freePage_keeps (s : State) (x : Ctx) (va : Nat) (size : Nat) (hm : memsOk s.mems) :
    memsOk (State.freePage s x va size).mems := by
  unfold State.freePage
  (repeat' (first | split | refine foldl_ok (fun _ _ _ => ?_) _ _ ?_ | dsimp only)) <;> grind [= mk_mems, = mems_fold, = State.takeDead_mems, = State.endAcks_mems]

grind_pattern State.freePage_keeps => State.freePage s x va size

theorem execPageinval_keeps (c : CmdSrc) (ctx : Nat) (va : DWord) (size : DWord) (s : State) {u : State} (hm : memsOk s.mems) (e : execPageinval c ctx va size s = .next u) :
    memsOk u.mems := by
  unfold execPageinval at e
  refine State.command_keeps _ _ _ _ _ hm (fun t ht => ?_) e
  clear e hm
  (repeat' (first | split | dsimp only | with_reducible refine foldl_ok (fun _ _ _ => ?_) _ _ ?_)) <;> grind [CmdEnd.All, = mk_mems, = mems_fold, = State.runOnFrom_mems]

theorem execReginval_keeps (c : CmdSrc) (ctx : Nat) (region : BitVec 8) (s : State) {u : State} (hm : memsOk s.mems) (e : execReginval c ctx region s = .next u) :
    memsOk u.mems := by
  unfold execReginval at e
  refine State.command_keeps _ _ _ _ _ hm (fun t ht => ?_) e
  clear e hm
  (repeat' (first | split | dsimp only | with_reducible refine foldl_ok (fun _ _ _ => ?_) _ _ ?_)) <;> grind [CmdEnd.All, = mk_mems, = mems_fold]

theorem State.markMove_mems (s : State) (b : Block) :
    (State.markMove s b).mems = s.mems := by
  unfold State.markMove
  refine foldl_mems (fun s x => ?_) _ _
  split
  · split <;> rfl
  · rfl

theorem State.setShare_keeps (s : State) (c : CmdSrc) (x : Ctx) (hm : memsOk s.mems) :
    memsOk (State.setShare s c x).mems := by
  unfold State.setShare
  dsimp only
  rw [State.settleTurn_mems]
  refine State.settleShare_keeps _ _ _ ?_
  rw [foldl_mems (fun s b => State.markMove_mems _ _), State.setCtx_mems]
  exact hm

grind_pattern State.setShare_keeps => State.setShare s c x

theorem execShare_keeps (c : CmdSrc) (ctx : Nat) (coreSet : List Nat) (caps : List Caps) (poolBase : DWord) (poolSize : DWord) (slice : Nat) (s : State) {u : State} (hm : memsOk s.mems) (e : execShare c ctx coreSet caps poolBase poolSize slice s = .next u) :
    memsOk u.mems := by
  unfold execShare at e
  refine State.command_keeps _ _ _ _ _ hm (fun t ht => ?_) e
  clear e hm
  (repeat' (first | split | dsimp only | with_reducible refine foldl_ok (fun _ _ _ => ?_) _ _ ?_)) <;> grind [CmdEnd.All, = mk_mems, = mems_fold]

theorem execCtxdestroy_keeps (c : CmdSrc) (ctx : Nat) (s : State) {u : State} (hm : memsOk s.mems) (e : execCtxdestroy c ctx s = .next u) :
    memsOk u.mems := by
  unfold execCtxdestroy at e
  refine State.command_keeps _ _ _ _ _ hm (fun t ht => ?_) e
  clear e hm
  (repeat' (first | split | dsimp only | with_reducible refine foldl_ok (fun _ _ _ => ?_) _ _ ?_)) <;> grind [CmdEnd.All, = mk_mems, = mems_fold, = State.settleTurn_mems]

theorem execCtxcreate_keeps (c : CmdSrc) (ctx : Nat) (desc : DWord) (s : State) {u : State} (hm : memsOk s.mems) (e : execCtxcreate c ctx desc s = .next u) :
    memsOk u.mems := by
  unfold execCtxcreate at e
  refine State.command_keeps _ _ _ _ _ hm (fun t ht => ?_) e
  clear e hm
  (repeat' (first | split | dsimp only | with_reducible refine foldl_ok (fun _ _ _ => ?_) _ _ ?_)) <;> grind [CmdEnd.All, = mk_mems, = mems_fold]

theorem State.copyJob_keeps (s : State) (c : CmdSrc) (ctx : Nat) (dst : DWord) (src : DWord) (len : DWord) (hm : memsOk s.mems) :
    memsOk (State.copyJob s c ctx dst src len).mems := by
  unfold State.copyJob
  (repeat' (first | split | with_reducible refine foldl_ok (fun _ _ _ => ?_) _ _ ?_ | dsimp only)) <;> grind [= mk_mems, = mems_fold, = State.tick_mems]

grind_pattern State.copyJob_keeps => State.copyJob s c ctx dst src len

theorem execCopy_keeps (c : CmdSrc) (dst : DWord) (src : DWord) (len : DWord) (s : State) {u : State} (hm : memsOk s.mems) (e : execCopy c dst src len s = .next u) :
    memsOk u.mems := by
  unfold execCopy at e
  refine State.command_keeps _ _ _ _ _ hm (fun t ht => ?_) e
  clear e hm
  (repeat' (first | split | dsimp only | with_reducible refine foldl_ok (fun _ _ _ => ?_) _ _ ?_)) <;> grind [CmdEnd.All, = mk_mems, = mems_fold]

theorem execTimingReplay_mems (g : GroupRef) (again : Bool) (s : State) {u : State} (e : execTimingReplay g again s = .next u) :
    u.mems = s.mems := by
  unfold execTimingReplay at e
  (repeat' split at e) <;> grind [= mk_mems, = mems_fold, = State.setCore_mems, = State.uceWave_mems]

theorem State.restorePages_keeps (s : State) (l : Launch) (hm : memsOk s.mems) :
    memsOk (State.restorePages s l).mems := by
  unfold State.restorePages
  dsimp only
  generalize hs : List.foldl _ s (s.shadowPages l) = s1
  have h1 : memsOk s1.mems := by
    rw [← hs]
    refine foldl_ok (fun s p h => ?_) _ _ hm
    split
    · split
      · exact State.copyPage_keeps _ _ _ h
      · exact h
    · exact h
  generalize max 4096 (s1.bitmapBytes _) = n
  split
  · exact State.devPut_keeps _ _ _ (State.devPut_keeps _ _ _ h1)
  · rw [State.setCtx_mems]
    exact State.devPut_keeps _ _ _ (State.devPut_keeps _ _ _ (State.devPut_keeps _ _ _ h1))

grind_pattern State.restorePages_keeps => State.restorePages s l

theorem State.recordTrap_keeps (s : State) (b : Block) (wave : Nat) (r : TrapRec) (hm : memsOk s.mems) :
    memsOk (State.recordTrap s b wave r).mems := by
  unfold State.recordTrap
  (repeat' (first | split | with_reducible refine foldl_ok (fun _ _ _ => ?_) _ _ ?_ | dsimp only)) <;> grind [= mk_mems, = mems_fold]

grind_pattern State.recordTrap_keeps => State.recordTrap s b wave r

theorem execLaunchRollback_keeps (lid : Nat) (s : State) {u : State} (hm : memsOk s.mems) (e : execLaunchRollback lid s = .next u) :
    memsOk u.mems := by
  unfold execLaunchRollback at e
  (repeat' split at e) <;> grind [= mk_mems, = mems_fold, = State.stopLaunch_mems, = State.dropAsidL1_mems, = State.setLaunch_mems, = State.settleTurn_mems]

theorem State.recordFates_keeps (s : State) (b : Block) (f : Fate) (hm : memsOk s.mems) :
    memsOk (State.recordFates s b f).mems := by
  unfold State.recordFates
  (repeat' (first | split | with_reducible refine foldl_ok (fun _ _ _ => ?_) _ _ ?_ | dsimp only)) <;> grind [= mk_mems, = mems_fold]

grind_pattern State.recordFates_keeps => State.recordFates s b f

theorem State.atBkpt_keeps (s : State) (b : BlockRef) (hm : memsOk s.mems) :
    memsOk (State.atBkpt s b).mems := by
  unfold State.atBkpt
  (repeat' (first | split | with_reducible refine foldl_ok (fun _ _ _ => ?_) _ _ ?_ | dsimp only)) <;> grind [= mk_mems, = mems_fold, = State.setBlock_mems]

grind_pattern State.atBkpt_keeps => State.atBkpt s b

theorem execDebugHaltBkpt_keeps (b : BlockRef) (s : State) {u : State} (hm : memsOk s.mems) (e : execDebugHaltBkpt b s = .next u) :
    memsOk u.mems := by
  unfold execDebugHaltBkpt at e
  (repeat' split at e) <;> grind [= mk_mems, = mems_fold, → State.haltBlock_keeps, = State.setBlock_mems]

theorem execLaunchEnd_keeps (lid : Nat) (s : State) {u : State} (hm : memsOk s.mems) (e : execLaunchEnd lid s = .next u) :
    memsOk u.mems := by
  unfold execLaunchEnd at e
  (repeat' split at e) <;> grind [= mk_mems, = mems_fold]

theorem State.gangLeaves_keeps (s : State) (c : Ctx) (b : Block) (unit : List Block) {u : State} (hm : memsOk s.mems) (e : State.gangLeaves s c b unit = some u) :
    memsOk u.mems := by
  unfold State.gangLeaves at e
  split at e
  · grind
  · split at e
    · grind
    · next g _ =>
      revert e
      generalize logGang g unit = g
      intro e
      dsimp only at e
      split at e
      · cases e; rw [State.setGang_mems]; exact hm
      · rw [Option.map_eq_some_iff] at e
        obtain ⟨⟨a, t⟩, ht, rfl⟩ := e
        have := State.takePool_mems _ _ _ _ ht
        refine foldl_ok (fun s x h => State.writeHeader_keeps _ _ h) _ _ ?_
        exact State.devPut_keeps _ _ _ (by rw [State.setGang_mems]; exact this ▸ hm)

theorem State.blockLeaves_keeps (s : State) (b : Block) (nv : Nat) (hm : memsOk s.mems) :
    memsOk (State.blockLeaves s b nv).mems := by
  unfold State.blockLeaves
  (repeat' (first | split | with_reducible refine foldl_ok (fun _ _ _ => ?_) _ _ ?_ | dsimp only)) <;> grind [= mk_mems, = mems_fold, = State.setBlock_mems, = State.setCore_mems]

grind_pattern State.blockLeaves_keeps => State.blockLeaves s b nv

theorem State.forgetScratch_mems (s : State) (b : Block) (k : Kernel) :
    (State.forgetScratch s b k).mems = s.mems := by
  unfold State.forgetScratch
  repeat' split
  all_goals grind [= mk_mems, = mems_fold, = State.setCore_mems]

theorem State.unitLeaves_keeps (s : State) (unit : List Block) (soft : Bool) {u : State} (hm : memsOk s.mems) (e : State.unitLeaves s unit soft = some u) :
    memsOk u.mems := by
  unfold State.unitLeaves at e
  split at e
  · grind
  · split at e
    · grind
    · split at e
      · dsimp only at e
        split at e
        · grind
        · skip
          revert e
          generalize hg : (List.foldl (fun s b => if (soft && b.stopped) = true then State.forgetScratch s b _ else s) _ _ : State) = s2
          intro e
          have h2 : memsOk s2.mems := by
            rw [← hg]
            refine foldl_ok (fun s b hs => ?_) _ _ (foldl_ok (fun s b hs => State.finishCopies_keeps s b hs) _ _ (foldl_ok (fun s b hs => State.finishGrants_keeps s b hs) _ _ (foldl_ok (fun s b hs => State.finishEngine_keeps s b _ hs) _ _ hm)))
            split
            · rw [State.forgetScratch_mems]; exact hs
            · exact hs
          split at e
          · grind
          · rw [Option.map_eq_some_iff] at e
            obtain ⟨t, ht, rfl⟩ := e
            exact foldl_ok (fun s b hs => State.blockLeaves_keeps s b _ hs) _ _ (State.gangLeaves_keeps _ _ _ _ h2 ht)
      · grind

theorem State.leaveOrWait_keeps (s : State) (unit : List Block) (soft : Bool) (hm : memsOk s.mems) :
    memsOk (State.leaveOrWait s unit soft).mems := by
  unfold State.leaveOrWait
  (repeat' (first | split | with_reducible refine foldl_ok (fun _ _ _ => ?_) _ _ ?_ | dsimp only)) <;> grind [= mk_mems, = mems_fold, → State.unitLeaves_keeps, = State.setBlock_mems]

grind_pattern State.leaveOrWait_keeps => State.leaveOrWait s unit soft

theorem State.recordJob_keeps (s : State) (b : Block) (j : Job) (t : TrapInfo) (hm : memsOk s.mems) :
    memsOk (State.recordJob s b j t).mems := by
  unfold State.recordJob
  (repeat' (first | split | with_reducible refine foldl_ok (fun _ _ _ => ?_) _ _ ?_ | dsimp only)) <;> grind [= mk_mems, = mems_fold]

grind_pattern State.recordJob_keeps => State.recordJob s b j t

theorem State.recordJobs_keeps (s : State) (b : Block) (hm : memsOk s.mems) :
    memsOk (State.recordJobs s b).mems := by
  unfold State.recordJobs
  (repeat' (first | split | with_reducible refine foldl_ok (fun _ _ _ => ?_) _ _ ?_ | dsimp only)) <;> grind [= mk_mems, = mems_fold, = State.setJob_mems]

grind_pattern State.recordJobs_keeps => State.recordJobs s b

theorem execBlockSwapOut_keeps (b : BlockRef) (s : State) {u : State} (hm : memsOk s.mems) (e : execBlockSwapOut b s = .next u) :
    memsOk u.mems := by
  unfold execBlockSwapOut at e
  (repeat' split at e) <;> grind [= mk_mems, = mems_fold, = State.setBlock_mems, = State.settleTurn_mems]

theorem execRebindWindowExpiry_mems (b : BlockRef) (s : State) {u : State} (e : execRebindWindowExpiry b s = .next u) :
    u.mems = s.mems := by
  unfold execRebindWindowExpiry at e
  split at e
  · grind
  · cases e
    refine foldl_mems (fun s x => ?_) _ _
    split <;> rfl

theorem State.dropIcache_mems (s : State) (core : Nat) (t : Nat) (asid : Nat) :
    (State.dropIcache s core t asid).mems = s.mems := by
  unfold State.dropIcache
  repeat' split
  all_goals grind [= mk_mems, = mems_fold, = State.setCore_mems]

theorem State.makeWays_mems (s : State) (b : Block) :
    (State.makeWays s b).mems = s.mems := by
  unfold State.makeWays
  exact foldl_mems (fun s l => State.l1Make_mems _ _ _ _ _) _ _

theorem State.seat_mems (s : State) (c : Ctx) (need : Caps) (core : Nat) {u : State × Nat × Nat} (e : State.seat s c need core = some u) :
    u.1.mems = s.mems := by
  unfold State.seat at e
  (repeat' split at e) <;> grind [= mk_mems, = mems_fold, = State.setCore_mems]

theorem State.seatBlock_mems (s : State) (b : Block) (c : Ctx) (core : Nat) (pipes : List Nat) (mark : DWord) (nv : Nat) {u : State} (e : State.seatBlock s b c core pipes mark nv = some u) :
    u.mems = s.mems := by
  unfold State.seatBlock at e
  split at e
  · grind
  · next s1 a bank hs =>
    have h1 := State.seat_mems _ _ _ _ hs
    dsimp only at e
    split at e
    · grind
    · injection e with e
      rw [← e, mk_mems, mems_fold, State.loadDeck_mems, State.makeWays_mems, State.setBlock_mems, State.tick_mems]
      exact h1

theorem State.gangReturns_keeps (s : State) (c : Ctx) (b : Block) (core : Nat) (hm : memsOk s.mems) :
    memsOk (State.gangReturns s c b core).mems := by
  unfold State.gangReturns
  (repeat' (first | split | with_reducible refine foldl_ok (fun _ _ _ => ?_) _ _ ?_ | dsimp only)) <;> grind [= mk_mems, = mems_fold, = State.freePool_mems, = State.setGang_mems]

grind_pattern State.gangReturns_keeps => State.gangReturns s c b core

theorem State.unitReturns_keeps (s : State) (unit : List Block) (cores : List Nat) (pipes : List Nat) (mark : DWord) {u : State} (hm : memsOk s.mems) (e : State.unitReturns s unit cores pipes mark = some u) :
    memsOk u.mems := by
  unfold State.unitReturns at e
  split at e
  · grind
  · split at e
    · grind
    · split at e
      · grind
      · split at e
        · grind
        · dsimp only at e
          refine foldl_opt (P := fun s => memsOk s.mems) (fun b => rfl) (fun s b u hs he => ?_) _ _ _ (State.gangReturns_keeps _ _ _ _ hm) e
          rw [Option.bind_some] at he
          split at he
          · rw [State.seatBlock_mems _ _ _ _ _ _ _ he]; exact hs
          · grind

theorem execBlockMove_keeps (b : BlockRef) (cores : List Nat) (pipes : List Nat) (s : State) {u : State} (hm : memsOk s.mems) (e : execBlockMove b cores pipes s = .next u) :
    memsOk u.mems := by
  unfold execBlockMove at e
  split at e
  · split at e
    · grind
    · split at e
      · grind
      · next s1 hl =>
        have h1 := State.unitLeaves_keeps _ _ _ hm hl
        split at e
        · grind
        · dsimp only at e
          split at e
          · split at e
            · grind
            · cases e
              rw [State.settleTurn_mems]
              exact State.settleShare_keeps _ _ _ h1
          · split at e
            · grind
            · next s2 hr =>
              cases e
              refine State.settleShare_keeps _ _ _ ?_
              rw [foldl_mems (fun s k => State.dropIcache_mems _ _ _ _)]
              exact State.unitReturns_keeps _ _ _ _ _ h1 hr
  · grind

theorem execBlockReentry_keeps (b : BlockRef) (cores : List Nat) (pipes : List Nat) (s : State) {u : State} (hm : memsOk s.mems) (e : execBlockReentry b cores pipes s = .next u) :
    memsOk u.mems := by
  unfold execBlockReentry at e
  split at e
  · dsimp only at e
    split at e
    · cases e
      exact getD_ok (fun u hu => State.unitReturns_keeps _ _ _ _ _ hm hu) hm
    · grind
  · grind

theorem execGraceExpiry_keeps (b : BlockRef) (s : State) {u : State} (hm : memsOk s.mems) (e : execGraceExpiry b s = .next u) :
    memsOk u.mems := by
  unfold execGraceExpiry at e
  (repeat' split at e) <;> grind [= mk_mems, = mems_fold, = State.settleTurn_mems]

theorem State.noGrace_keeps (s : State) (fn : Nat) (ctx : Nat) (hm : memsOk s.mems) :
    memsOk (State.noGrace s fn ctx).mems := by
  unfold State.noGrace
  (repeat' (first | split | with_reducible refine foldl_ok (fun _ _ _ => ?_) _ _ ?_ | dsimp only)) <;> grind [= mk_mems, = mems_fold]

grind_pattern State.noGrace_keeps => State.noGrace s fn ctx

theorem execSliceEnd_keeps (fn : Nat) (ctx : Nat) (s : State) {u : State} (hm : memsOk s.mems) (e : execSliceEnd fn ctx s = .next u) :
    memsOk u.mems := by
  unfold execSliceEnd at e
  (repeat' split at e) <;> grind [= mk_mems, = mems_fold, = State.setCtx_mems, = State.settleTurn_mems]

theorem execLaunchComplete_keeps (lid : Nat) (s : State) {u : State} (hm : memsOk s.mems) (e : execLaunchComplete lid s = .next u) :
    memsOk u.mems := by
  unfold execLaunchComplete at e
  (repeat' split at e) <;> grind [= mk_mems, = mems_fold, = State.settleTurn_mems, = State.forget_mems]

theorem execKernelBoundary_mems (lid : Nat) (s : State) {u : State} (e : execKernelBoundary lid s = .next u) :
    u.mems = s.mems := by
  unfold execKernelBoundary at e
  (repeat' split at e) <;> grind [= mk_mems, = mems_fold, = State.settleTurn_mems, = State.dropAllL1_mems, = State.setLaunch_mems]

theorem State.retireFault_keeps (s : State) (b : Block) (t : TrapInfo) (hm : memsOk s.mems) :
    memsOk (State.retireFault s b t).mems := by
  unfold State.retireFault
  (repeat' (first | split | with_reducible refine foldl_ok (fun _ _ _ => ?_) _ _ ?_ | dsimp only)) <;> grind [= mk_mems, = mems_fold]

grind_pattern State.retireFault_keeps => State.retireFault s b t

theorem Cx.publishD_keeps (c : Cx) (lvl : Level) (set : List SetLine) (hm : memsOk c.s.mems) :
    memsOk (Cx.publishD c lvl set).s.mems := by
  unfold Cx.publishD
  refine foldl_okc (fun c x h => ?_) _ _ hm
  have hw := State.writeD_keeps c.s c.ctx { c.writer lvl false with poison := x.poison } x.line x.mask x.data h
  dsimp only
  rw [State.dropL1_mems]
  have hs : ∀ t : State, memsOk t.mems → memsOk (if lvl == .s then t.noReplay c.lch.lid else t).mems := by
    intro t ht
    split
    · rw [State.noReplay_mems]; exact ht
    · exact ht
  refine hs _ ?_
  split
  · exact hw
  · exact hw

grind_pattern Cx.publishD_keeps => Cx.publishD c lvl set

theorem Cx.publishG_keeps (c : Cx) (set : List SetLine) {u : Cx} (hm : memsOk c.s.mems) (e : Cx.publishG c set = some u) :
    memsOk u.s.mems := by
  unfold Cx.publishG at e
  refine foldl_opt (P := fun c => memsOk c.s.mems) (fun b => rfl) (fun c b u hs he => ?_) _ _ _ hm e
  dsimp only at he
  split at he
  · grind
  · injection he with he
    rw [← he, State.logWrite_mems, Cx.setGangBuf_mems]
    split
    · exact hs
    · exact Cx.gangMake_keeps _ _ _ hs

theorem Cx.putBlock_mems (c : Cx) (x : SetLine) (log : Option (Nat × Nat)) :
    (Cx.putBlock c x log).s.mems = c.s.mems := by
  unfold Cx.putBlock
  repeat' split
  all_goals grind [= mk_mems, = mems_fold, = State.logWrite_mems]

theorem Cx.publishB_mems (c : Cx) (set : List SetLine) :
    (Cx.publishB c set).s.mems = c.s.mems := by
  unfold Cx.publishB
  refine (foldl_cx (fun c x => ?_) _ _).trans (foldl_cx (fun c x => Cx.putBlock_mems _ _ _) _ _)
  rw [Cx.putBlock_mems]
  split
  · rfl
  · exact Cx.l1Make_mems _ _ _

theorem Cx.emptied_mems (c : Cx) (lvl : Level) :
    (Cx.emptied c lvl).s.mems = c.s.mems := by
  unfold Cx.emptied
  repeat' split
  all_goals grind [= mk_mems, = mems_fold, = Cx.setWv_mems, = Cx.setGangBuf_mems]

theorem State.checkSet_keeps (s : State) (c : Ctx) (x1 : List SetLine) (hm : memsOk s.mems) :
    memsOk (State.checkSet s c x1).1.mems := by
  induction x1 generalizing s with
  | nil => exact hm
  | cons x xs ih =>
    unfold State.checkSet
    have h := State.ensure_keeps s c x.line .write hm
    split
    · next he => rw [he] at h; exact h
    · next he => rw [he] at h; exact ih _ h

grind_pattern State.checkSet_keeps => State.checkSet s c x1

theorem Cx.publish_keeps (c : Cx) (lvl : Level) (x : Bool) (act : Mask) (hm : memsOk c.s.mems) :
    (Cx.publish c lvl x act).All fun u => memsOk u.mems := by
  unfold Cx.publish
  dsimp only
  generalize hr : (if (lvl == .d || lvl == .s) = true then c.s.checkSet c.ctx (c.commitSet lvl) else (c.s, none)) = r
  have h1 : memsOk r.1.mems := by
    rw [← hr]
    split
    · exact State.checkSet_keeps _ _ _ hm
    · exact hm
  generalize hc : Cx.mk r.1 _ _ _ _ _ _ _ = c1
  have h2 : memsOk c1.s.mems := by rw [← hc]; exact h1
  have he : memsOk (c1.emptied lvl).s.mems := by rw [Cx.emptied_mems]; exact h2
  cases r.2 with
  | some x => exact h1
  | none =>
    dsimp only
    cases c1.setBad lvl with
    | some x => exact h1
    | none =>
      dsimp only
      generalize (if x = true then _ else _ : Nat) = n
      split
      · exact h2
      · cases lvl
        · exact h2
        · show memsOk ((c1.emptied .b).publishB _).s.mems
          rw [Cx.publishB_mems]; exact he
        · show PubResult.All _ (match (c1.emptied .g).publishG _ with | some e => _ | none => _)
          split
          · next hg => exact Cx.publishG_keeps _ _ he hg
          · exact h1
        · exact Cx.publishD_keeps _ _ _ he
        · exact Cx.publishD_keeps _ _ _ he

theorem execBlockRetire_keeps (b : BlockRef) (s : State) {u : State} (hm : memsOk s.mems) (e : execBlockRetire b s = .next u) :
    memsOk u.mems := by
  unfold execBlockRetire at e
  split at e
  · grind
  · next blk _ =>
    split at e
    · grind
    · dsimp only at e
      have h1 := State.finishCopies_keeps _ blk (State.finishEngine_keeps s blk ((s.core blk.core).engine.length) hm)
      revert e h1
      generalize (s.finishEngine blk ((s.core blk.core).engine.length)).finishCopies blk = s1
      intro e h1
      split at e
      · grind
      · split at e
        · grind
        · next c hc =>
          have hp := Cx.publish_keeps c .d false 0 (by rw [State.cxOf_mems _ _ hc]; exact h1)
          split at e
          · next h =>
            rw [h] at hp; cases e
            rw [State.settleTurn_mems]
            exact State.settleShare_keeps _ _ _ (by rw [State.freeBlock_mems, State.setBlock_mems, Cx.close_mems]; exact hp)
          · next h =>
            rw [h] at hp; cases e
            rw [State.settleTurn_mems]
            exact State.settleShare_keeps _ _ _ (by rw [State.freeBlock_mems, State.setBlock_mems, Cx.close_mems]; exact hp)
          · next h =>
            rw [h] at hp
            split at e
            · cases e; rw [State.uceBlock_mems]; exact hp
            · cases e; rw [State.setBlock_mems]; exact State.retireFault_keeps _ _ _ hp

theorem execCopyLineTransfer_keeps (job : Nat) (s : State) {u : State} (hm : memsOk s.mems) (e : execCopyLineTransfer job s = .next u) :
    memsOk u.mems := by
  unfold execCopyLineTransfer at e
  (repeat' split at e) <;> grind [= mk_mems, = mems_fold]

theorem execForwardResponse_keeps (w : WaveRef) (s : State) {u : State} (hm : memsOk s.mems) (e : execForwardResponse w s = .next u) :
    memsOk u.mems := by
  unfold execForwardResponse at e
  (repeat' split at e) <;> grind [= mk_mems, = mems_fold, → State.cxOf_mems, = State.setBlock_mems]

theorem execPageWalk_keeps (fn : Nat) (ctx : Nat) (ptr : DWord) (s : State) {u : State} (hm : memsOk s.mems) (e : execPageWalk fn ctx ptr s = .next u) :
    memsOk u.mems := by
  unfold execPageWalk at e
  (repeat' split at e) <;> grind [= mk_mems, = mems_fold]

theorem State.evictL2_keeps (s : State) (hm : memsOk s.mems) :
    memsOk (State.evictL2 s).mems := by
  unfold State.evictL2
  (repeat' (first | split | with_reducible refine foldl_ok (fun _ _ _ => ?_) _ _ ?_ | dsimp only)) <;> grind [= mk_mems, = mems_fold, = State.drawNat_mems]

grind_pattern State.evictL2_keeps => State.evictL2 s

theorem State.evictI_mems (s : State) (core : Nat) :
    (State.evictI s core).mems = s.mems := by
  unfold State.evictI
  repeat' split
  all_goals grind [= mk_mems, = mems_fold, = State.drawNat_mems, = State.setCore_mems]

theorem State.fetchLine_keeps (s : State) (core : Nat) (c : Ctx) (line : Nat) (hm : memsOk s.mems) :
    memsOk (State.fetchLine s core c line).1.mems := by
  unfold State.fetchLine
  (repeat' (first | split | with_reducible refine foldl_ok (fun _ _ _ => ?_) _ _ ?_ | dsimp only)) <;> grind [= mk_mems, = mems_fold, = State.evictI_mems, = State.setCore_mems]

grind_pattern State.fetchLine_keeps => State.fetchLine s core c line

theorem State.nearCopy_keeps (s : State) (cluster : Nat) (l : L2Line) (hm : memsOk s.mems) :
    memsOk (State.nearCopy s cluster l).mems := by
  unfold State.nearCopy
  (repeat' (first | split | with_reducible refine foldl_ok (fun _ _ _ => ?_) _ _ ?_ | dsimp only)) <;> grind [= mk_mems, = mems_fold, = State.setL2_mems]

grind_pattern State.nearCopy_keeps => State.nearCopy s cluster l

theorem State.evictL1_mems (s : State) (core : Nat) :
    (State.evictL1 s core).mems = s.mems := by
  unfold State.evictL1
  repeat' split
  all_goals grind [= mk_mems, = mems_fold, = State.drawNat_mems, = State.setCore_mems]

theorem State.keepL1_mems (s : State) (core : Nat) (x : CoreLine) :
    (State.keepL1 s core x).mems = s.mems := by
  unfold State.keepL1
  repeat' split
  all_goals grind [= mk_mems, = mems_fold, = State.evictL1_mems, = State.setCore_mems, = State.l1Make_mems]

theorem State.readCore_keeps (s : State) (core : Nat) (c : Ctx) (line : Nat) (hm : memsOk s.mems) :
    memsOk (State.readCore s core c line).1.mems := by
  unfold State.readCore
  (repeat' (first | split | with_reducible refine foldl_ok (fun _ _ _ => ?_) _ _ ?_ | dsimp only)) <;> grind [= mk_mems, = mems_fold, = State.draw_mems, = State.keepL1_mems]

grind_pattern State.readCore_keeps => State.readCore s core c line

theorem execLineFill_keeps (core : Nat) (fn : Nat) (ctx : Nat) (ptr : DWord) (acc : Access) (s : State) {u : State} (hm : memsOk s.mems) (e : execLineFill core fn ctx ptr acc s = .next u) :
    memsOk u.mems := by
  unfold execLineFill at e
  (repeat' split at e) <;> grind [= mk_mems, = mems_fold]

theorem State.keepDeck_keeps (s : State) (x : DeckLine) (hm : memsOk s.mems) :
    memsOk (State.keepDeck s x).mems := by
  unfold State.keepDeck
  (repeat' (first | split | with_reducible refine foldl_ok (fun _ _ _ => ?_) _ _ ?_ | dsimp only)) <;> grind [= mk_mems, = mems_fold]

grind_pattern State.keepDeck_keeps => State.keepDeck s x

theorem State.toDeck_keeps (s : State) (b : Block) (addr : Nat) (bs : List Byte) (dirty : Bool) (hm : memsOk s.mems) :
    memsOk (State.toDeck s b addr bs dirty).mems := by
  unfold State.toDeck
  (repeat' (first | split | with_reducible refine foldl_ok (fun _ _ _ => ?_) _ _ ?_ | dsimp only)) <;> grind [= mk_mems, = mems_fold]

grind_pattern State.toDeck_keeps => State.toDeck s b addr bs dirty

theorem State.rcEvict_keeps (s : State) (core : Nat) (x : RcLine) (hm : memsOk s.mems) :
    memsOk (State.rcEvict s core x).mems := by
  unfold State.rcEvict
  dsimp only
  rw [State.setCore_mems]
  split
  · split
    · exact State.toDeck_keeps _ _ _ _ _ (foldl_ok (fun s i h => State.toDeck_keeps _ _ _ _ _ h) _ _ hm)
    · exact hm
  · exact hm

grind_pattern State.rcEvict_keeps => State.rcEvict s core x

theorem State.rcTrimSet_keeps (s : State) (core : Nat) (set : Nat) (x1 : Nat) (hm : memsOk s.mems) :
    memsOk (State.rcTrimSet s core set x1).mems := by
  induction x1 generalizing s with
  | zero => exact hm
  | succ n ih =>
    unfold State.rcTrimSet
    dsimp only
    split
    · exact hm
    · split
      · exact ih _ (State.rcEvict_keeps _ _ _ hm)
      · exact hm

grind_pattern State.rcTrimSet_keeps => State.rcTrimSet s core set x1

theorem State.rcFill_keeps (s : State) (core : Nat) (x : RcLine) (hm : memsOk s.mems) :
    memsOk (State.rcFill s core x).mems := by
  unfold State.rcFill
  (repeat' (first | split | with_reducible refine foldl_ok (fun _ _ _ => ?_) _ _ ?_ | dsimp only)) <;> grind [= mk_mems, = mems_fold, = State.setCore_mems, = State.uceWave_mems]

grind_pattern State.rcFill_keeps => State.rcFill s core x

theorem execRegcacheFill_keeps (w : WaveRef) (regs : List Nat) (s : State) {u : State} (hm : memsOk s.mems) (e : execRegcacheFill w regs s = .next u) :
    memsOk u.mems := by
  unfold execRegcacheFill at e
  split at e
  · grind
  · split at e
    · grind
    · cases e
      exact foldl_ok (fun s n h => State.rcFill_keeps _ _ _ h) _ _ (by rw [State.tick_mems]; exact hm)

theorem Cx.awaitLine_keeps (c : Cx) (l : L2Line) (atomic : Bool) (hm : memsOk c.s.mems) :
    (c.awaitLine l atomic).All fun u => memsOk u.mems := by
  unfold Cx.awaitLine
  (repeat' split) <;> first
    | exact hm
    | (rw [Res.All, State.requestLine_mems]; exact hm)

theorem Cx.readLines_keeps (c : Cx) (lvl : Level) (viaL1 : Bool) (x1 : List (Nat × ByteMask)) (x2 : Got) (hm : memsOk c.s.mems) :
    memsOk (Cx.readLines c lvl viaL1 x1 x2).1.s.mems := by
  induction x1 generalizing c x2 with
  | nil => exact hm
  | cons p rest ih =>
    obtain ⟨line, need⟩ := p
    unfold Cx.readLines
    dsimp only
    split
    · exact ih _ _ hm
    · refine ih _ _ ?_
      split
      · exact State.readCore_keeps _ _ _ _ hm
      · exact State.readD_keeps _ _ _ _ _ hm

grind_pattern Cx.readLines_keeps => Cx.readLines c lvl viaL1 x1 x2

theorem Cx.readLanes_keeps (c : Cx) (lvl : Level) (viaL1 : Bool) (act : Mask) (ptr : Nat → DWord) (n vreg : Nat) (k : Cx → Got → Res) (hm : memsOk c.s.mems) (hk : ∀ c g, memsOk c.s.mems → (k c g).All fun u => memsOk u.mems) :
    (c.readLanes lvl viaL1 act ptr n vreg k).All fun u => memsOk u.mems := by
  unfold Cx.readLanes
  have hr := Cx.readLines_keeps c lvl viaL1 (lineNeeds ptr n (lanesOf act) []) [] hm
  cases misaligned act ptr n with
  | some t => exact hm
  | none =>
    dsimp only
    revert hr
    generalize c.readLines lvl viaL1 (lineNeeds ptr n (lanesOf act) []) [] = r
    intro hr
    cases r.2.fault act ptr vreg with
    | some t => exact hr
    | none =>
      dsimp only
      cases r.2.away with
      | some l => exact Cx.awaitLine_keeps _ _ _ hr
      | none =>
        dsimp only
        split
        · exact hr
        · split
          · exact hr
          · exact hk _ _ hr

theorem waitvPoll_keeps (i : Instr) (ne : Bool) (lvl : Level) (t : ITy) (d : BitVec 12) (base : VS) (src : WaitSrc)
    (prior : Option (Nat × List DWord)) (c : Cx) (act : Mask) (hm : memsOk c.s.mems) :
    (waitvPoll i ne lvl t d base src prior c act).All fun u => memsOk u.mems := by
  have hr : ∀ r : Res, (r.All fun u => memsOk u.mems) → (Res.All (fun u => memsOk u.mems) (match r, prior with
      | .wait s (.forward line _), some (p, last) => .wait s (.waitv i c.sel.inst c.sel.grp p last (some line))
      | .wait s .retry, some (p, last) => .wait s (.waitv i c.sel.inst c.sel.grp p last none)
      | r, _ => r)) := by
    intro r h
    split <;> exact h
  unfold waitvPoll
  refine hr _ (Cx.readLanes_keeps _ _ _ _ _ _ _ _ hm (fun c g hc => ?_))
  (repeat' (first | split | dsimp only)) <;> exact hc

theorem State.settlePath_mems (s : State) (w : WaveRef) (path : Nat) :
    (State.settlePath s w path).mems = s.mems := by
  unfold State.settlePath
  repeat' split
  all_goals grind [= mk_mems, = mems_fold]

theorem onPath_keeps (path : Nat) (body : Cx → Mask → Res) (c : Cx) (act : Mask) (hm : memsOk c.s.mems) (hk : ∀ c, memsOk c.s.mems → (body c act).All fun u => memsOk u.mems) :
    (onPath path body c act).All fun u => memsOk u.mems := by
  unfold onPath
  split
  · exact hm
  · exact hk _ (by rw [State.settlePath_mems]; exact hm)

theorem execWaitvPoll_keeps (w : WaveRef) (s : State) {u : State} (hm : memsOk s.mems) (e : execWaitvPoll w s = .next u) :
    memsOk u.mems := by
  unfold execWaitvPoll at e
  split at e
  · split at e
    · split at e
      · cases e
        rw [Cx.close_mems]
        refine Cx.issued_keeps _ _ _ _ ?_ (fun c act h => ?_)
        · rw [show ∀ (c : Cx) (r : RegCtx), ({ c with rv := r } : Cx).s = c.s from fun _ _ => rfl, Cx.setWv_mems, State.cxAt_mems _ _ (by assumption)]
          exact hm
        · exact onPath_keeps _ _ _ _ h (fun c h => waitvPoll_keeps _ _ _ _ _ _ _ _ _ _ h)
      · grind
    · grind
  · grind

theorem State.swapWaves_mems (s : State) (w : WaveRef) (out : Option (Block × Nat)) :
    (State.swapWaves s w out).mems = s.mems := by
  unfold State.swapWaves
  repeat' split
  all_goals grind [= mk_mems, = mems_fold, = State.tick_mems, = State.setBlock_mems]

theorem execStockPromotion_mems (core : Nat) (pipe : Nat) (w : WaveRef) (s : State) {u : State} (e : execStockPromotion core pipe w s = .next u) :
    u.mems = s.mems := by
  unfold execStockPromotion at e
  (repeat' split at e) <;> grind [= mk_mems, = mems_fold, = State.swapWaves_mems]

theorem State.freshUnits_mems (s : State) (core : Nat) (first : Nat) (count : Nat) (banks : Bool) :
    (State.freshUnits s core first count banks).mems = s.mems := by
  unfold State.freshUnits
  refine foldl_mems (fun s i => ?_) _ _
  dsimp only
  (repeat' split) <;> grind [= State.setCore_mems, = State.draw_mems]

theorem State.readArgs_keeps (s : State) (c : Ctx) (p : DWord) (hm : memsOk s.mems) :
    memsOk (State.readArgs s c p).1.mems := by
  unfold State.readArgs
  exact foldl_ok1 (fun x line h => by
    have hr := State.readD_keeps x.1 c line .read true h
    split
    · next he => rw [he] at hr; exact hr
    · next he => rw [he] at hr; dsimp only; rw [State.draw_mems]; exact hr) _ _ hm

grind_pattern State.readArgs_keeps => State.readArgs s c p

theorem State.placeNew_keeps (s : State) (l : Launch) (k : Kernel) (c : Ctx) (rank : Nat) (core : Nat) (pipes : List Nat) {u : State} (hm : memsOk s.mems) (e : State.placeNew s l k c rank core pipes = some u) :
    memsOk u.mems := by
  unfold State.placeNew at e
  dsimp only at e
  split at e
  · grind
  · next s1 _ _ h1 =>
    split at e
    · grind
    · next s2 h2 =>
      have ha := State.seat_mems _ _ _ _ h1
      have hb := State.takePool_mems _ _ _ _ h2
      have hr := State.readArgs_keeps s2 c l.hdr.args (by rw [hb, ha]; exact hm)
      dsimp only at e ha hb
      split at e
      · grind
      · injection e with e
        rw [← e]
        have hf : ∀ (s : State) b, State.mems { s with blocks := b } = s.mems := fun s b => rfl
        split
        · rw [State.uceWave_mems, hf, State.freshUnits_mems, State.freshUnits_mems, State.tick_mems]; exact hr
        · rw [hf, State.freshUnits_mems, State.freshUnits_mems, State.tick_mems]; exact hr

theorem State.placeUnit_keeps (s : State) (l : Launch) (k : Kernel) (c : Ctx) (cores : List Nat) (pipes : List Nat) {u : State} (hm : memsOk s.mems) (e : State.placeUnit s l k c cores pipes = some u) :
    memsOk u.mems := by
  unfold State.placeUnit at e
  dsimp only at e
  split at e
  · grind
  · rw [Option.map_eq_some_iff] at e
    obtain ⟨v, hv, rfl⟩ := e
    have h := foldl_opt (P := fun s => memsOk s.mems) (fun b => rfl) (fun s b u hs he => by
      rw [Option.bind_some] at he
      split at he
      · exact State.placeNew_keeps _ _ _ _ _ _ _ hs he
      · grind) _ _ _ hm hv
    split
    · exact h
    · exact h

theorem State.bringLine_keeps (s : State) (l : Launch) (c : Ctx) (line : Nat) (acc : Access) (hm : memsOk s.mems) :
    memsOk (State.bringLine s l c line acc).1.mems := by
  unfold State.bringLine
  (repeat' (first | split | with_reducible refine foldl_ok (fun _ _ _ => ?_) _ _ ?_ | dsimp only)) <;> grind [= mk_mems, = mems_fold, = State.setLaunch_mems, = State.requestLine_mems]

grind_pattern State.bringLine_keeps => State.bringLine s l c line acc

theorem State.bringLines_keeps (s : State) (l : Launch) (c : Ctx) (acc : Access) (lines : List Nat) (hm : memsOk s.mems) :
    memsOk (State.bringLines s l c acc lines).1.mems := by
  unfold State.bringLines
  refine foldl_ok1 (fun x line h => ?_) _ (s, true) hm
  exact State.bringLine_keeps _ _ _ _ _ h

grind_pattern State.bringLines_keeps => State.bringLines s l c acc lines

theorem execBlockPlacement_keeps (lid : Nat) (cores : List Nat) (pipes : List Nat) (s : State) {u : State} (hm : memsOk s.mems) (e : execBlockPlacement lid cores pipes s = .next u) :
    memsOk u.mems := by
  unfold execBlockPlacement at e
  split at e
  · grind
  · next l _ =>
    split at e
    · split at e
      · grind
      · next c k _ _ _ =>
        have h := State.bringLines_keeps s l c .read (argLines l.hdr.args) hm
        dsimp only at e
        split at e
        · cases e
          exact getD_ok (fun u hu => State.placeUnit_keeps _ _ _ _ _ _ h hu) hm
        · cases e; exact h
    · grind

theorem State.takeShadow_mems (s : State) (t : Nat) (n : Nat) (size : Nat) {u : Nat × State} (e : State.takeShadow s t n size = some u) :
    u.2.mems = s.mems := by
  unfold State.takeShadow at e
  split at e
  · grind
  · rw [Option.map_eq_some_iff] at e
    obtain ⟨v, hv, rfl⟩ := e
    rfl

theorem State.carve_keeps (s : State) (l : Launch) (hm : memsOk s.mems) :
    memsOk (State.carve s l).mems := by
  unfold State.carve
  dsimp only
  split
  · next s1 c hg _ =>
    have h1 : memsOk s1.mems := by
      obtain ⟨x, hx, hg⟩ := Option.bind_eq_some_iff.mp hg
      obtain ⟨y, hy, hg⟩ := Option.bind_eq_some_iff.mp hg
      obtain ⟨z, hz, hg⟩ := Option.map_eq_some_iff.mp hg
      have a := State.takeShadow_mems _ _ _ _ hx
      have b := State.takeShadow_mems _ _ _ _ hy
      have d := State.takeShadow_mems _ _ _ _ hz
      cases hg
      rw [d, b, a]; exact hm
    rw [State.setLaunch_mems]
    exact State.devPut_keeps _ _ _ (State.devPut_keeps _ _ _ (State.devPut_keeps _ _ _ h1))
  · rw [State.setLaunch_mems]; exact hm

grind_pattern State.carve_keeps => State.carve s l

end Sys2Proof.Machine
end

