-- ==== Sys2Proof/Laws/Kept3.lean ====
section
/-!
SUPPORT. What every function of the machine does to the three memories, part 3.
-/

set_option linter.all false
set_option Elab.async false

namespace Sys2Proof.Machine

theorem State.beginLaunch_keeps (s : State) (l : Launch) (c : Ctx) (hm : memsOk s.mems) :
    memsOk (State.beginLaunch s l c).mems := by
  unfold State.beginLaunch
  (repeat' (first | split | with_reducible refine foldl_ok (fun _ _ _ => ?_) _ _ ?_ | dsimp only)) <;> grind [= mk_mems, = mems_fold, = State.tick_mems, = State.setCtx_mems, = State.setLaunch_mems]

grind_pattern State.beginLaunch_keeps => State.beginLaunch s l c

theorem State.edgeTest_keeps (s : State) (c : Ctx) (l : Launch) (hm : memsOk s.mems) :
    (State.edgeTest s c l).All fun u => memsOk u.mems := by
  unfold State.edgeTest
  (repeat' (first | split | with_reducible refine foldl_ok (fun _ _ _ => ?_) _ _ ?_ | dsimp only)) <;> grind [= mk_mems, = mems_fold, EdgeTest.All]

theorem State.tryBegin_keeps (s : State) (l : Launch) {u : State} (hm : memsOk s.mems) (e : State.tryBegin s l = some u) :
    memsOk u.mems := by
  unfold State.tryBegin at e
  split at e
  · grind
  · split at e
    · grind [= State.setLaunch_mems]
    · split at e
      · grind
      · next c _ =>
        have h := State.edgeTest_keeps (s.acquireS c) c l (by rw [State.acquireS_mems]; exact hm)
        split at e <;> (next hd => rw [hd] at h; cases e; first
          | (rw [State.setLaunch_mems]; first | exact h | exact hm)
          | exact h
          | (rw [State.settleTurn_mems]; exact State.beginLaunch_keeps _ _ _ h))

theorem execLaunchBegin_keeps (fn : Nat) (q : Nat) (s : State) {u : State} (hm : memsOk s.mems) (e : execLaunchBegin fn q s = .next u) :
    memsOk u.mems := by
  unfold execLaunchBegin at e
  split at e
  · next u hu =>
    cases e
    obtain ⟨l, _, hl⟩ := Option.bind_eq_some_iff.mp hu
    exact State.tryBegin_keeps _ _ hm hl
  · grind

theorem execLaunch_keeps (c : CmdSrc) (hdr : LaunchHdr) (s : State) {u : State} (hm : memsOk s.mems) (e : execLaunch c hdr s = .next u) :
    memsOk u.mems := by
  unfold execLaunch at e
  (repeat' split at e) <;> grind [= mk_mems, = mems_fold, = State.take_mems, = State.tick_mems]

theorem execHandlerEntry_keeps (w : WaveRef) (s : State) {u : State} (hm : memsOk s.mems) (e : execHandlerEntry w s = .next u) :
    memsOk u.mems := by
  unfold execHandlerEntry at e
  (repeat' split at e) <;> grind [= mk_mems, = mems_fold, → State.cxOf_mems, = Cx.close_mems]

theorem State.leaveFlags_mems (s : State) (w : WaveRef) :
    (State.leaveFlags s w).mems = s.mems := by
  unfold State.leaveFlags
  repeat' split
  all_goals grind [= mk_mems, = mems_fold]

theorem Cx.leaveHandler_mems (c : Cx) (pc : DWord) :
    (Cx.leaveHandler c pc).s.mems = c.s.mems := by
  unfold Cx.leaveHandler
  split
  · rfl
  · dsimp only
    rw [Cx.setWv_mems, State.leaveFlags_mems, State.freePool_mems]

theorem Cx.counted_mems (c : Cx) (h : Hdr) :
    (Cx.counted c h).s.mems = c.s.mems := by
  unfold Cx.counted
  repeat' split
  all_goals grind [= mk_mems, = mems_fold, = Cx.setWv_mems]

theorem onFrame_keeps (body : Cx → Mask → Frame → Res) (c : Cx) (act : Mask) (hm : memsOk c.s.mems) (hk : ∀ f, (body c act f).All fun u => memsOk u.mems) :
    (onFrame body c act).All fun u => memsOk u.mems := by
  unfold onFrame
  split
  · exact hm
  · exact hk _

theorem execRttBr_keeps (h : Hdr) (a : BitVec 8) (s : State) {u : State} (hm : memsOk s.mems) (e : execRttBr h a s = .next u) :
    memsOk u.mems := by
  unfold execRttBr at e
  (try dsimp only at e)
  (repeat' split at e) <;> refine issue_keeps hm (fun c act hc => ?_) e
  all_goals
    clear e hm
    (repeat' (first | assumption | with_reducible refine onPath_keeps _ _ _ _ (by assumption) (fun c hc => ?_) | with_reducible refine Cx.readLanes_keeps _ _ _ _ _ _ _ _ (by assumption) (fun c g hc => ?_) | with_reducible refine Cx.edge_keeps _ _ _ _ (by assumption) (fun c d hc => ?_) | with_reducible refine Cx.edgeLine_keeps _ _ _ _ (by assumption) (fun c d hc => ?_) | with_reducible refine onFrame_keeps _ _ _ (by assumption) (fun f => ?_) | with_reducible refine onEngine_keeps _ _ _ (by assumption) ?_ | with_reducible refine Cx.onQueue_keeps _ _ _ (by assumption) (fun x => ?_) | with_reducible refine Cx.arrival_keeps _ _ _ _ _ (by assumption) (fun b t => ?_) | with_reducible refine Cx.awaitLine_keeps _ _ _ ?_ | with_reducible exact tileBody_keeps _ _ _ _ _ _ _ hc | with_reducible exact copyBody_keeps _ _ _ _ _ _ _ _ hc | with_reducible exact drainBody_keeps _ _ _ _ _ _ _ _ _ _ hc | with_reducible refine waitvPoll_keeps _ _ _ _ _ _ _ _ _ _ ?_ | split | dsimp only))
  all_goals (try grind [= mk_mems, = mems_fold, = Cx.counted_mems, = Cx.leaveHandler_mems, = State.tick_mems, Res.All])

theorem execRtt_keeps (h : Hdr) (a : BitVec 8) (s : State) {u : State} (hm : memsOk s.mems) (e : execRtt h a s = .next u) :
    memsOk u.mems := by
  unfold execRtt at e
  (try dsimp only at e)
  (repeat' split at e) <;> refine issue_keeps hm (fun c act hc => ?_) e
  all_goals
    clear e hm
    (repeat' (first | assumption | with_reducible refine onPath_keeps _ _ _ _ (by assumption) (fun c hc => ?_) | with_reducible refine Cx.readLanes_keeps _ _ _ _ _ _ _ _ (by assumption) (fun c g hc => ?_) | with_reducible refine Cx.edge_keeps _ _ _ _ (by assumption) (fun c d hc => ?_) | with_reducible refine Cx.edgeLine_keeps _ _ _ _ (by assumption) (fun c d hc => ?_) | with_reducible refine onFrame_keeps _ _ _ (by assumption) (fun f => ?_) | with_reducible refine onEngine_keeps _ _ _ (by assumption) ?_ | with_reducible refine Cx.onQueue_keeps _ _ _ (by assumption) (fun x => ?_) | with_reducible refine Cx.arrival_keeps _ _ _ _ _ (by assumption) (fun b t => ?_) | with_reducible refine Cx.awaitLine_keeps _ _ _ ?_ | with_reducible exact tileBody_keeps _ _ _ _ _ _ _ hc | with_reducible exact copyBody_keeps _ _ _ _ _ _ _ _ hc | with_reducible exact drainBody_keeps _ _ _ _ _ _ _ _ _ _ hc | with_reducible refine waitvPoll_keeps _ _ _ _ _ _ _ _ _ _ ?_ | split | dsimp only))
  all_goals (try grind [= mk_mems, = mems_fold, = Cx.counted_mems, = Cx.leaveHandler_mems, = State.tick_mems, Res.All])

theorem execXwr_keeps (h : Hdr) (sp : XSpace) (n : XNum) (b : BitVec 12) (s : State) {u : State} (hm : memsOk s.mems) (e : execXwr h sp n b s = .next u) :
    memsOk u.mems := by
  unfold execXwr at e
  (try dsimp only at e)
  (repeat' split at e) <;> refine issue_keeps hm (fun c act hc => ?_) e
  all_goals
    clear e hm
    (repeat' (first | assumption | with_reducible refine onPath_keeps _ _ _ _ (by assumption) (fun c hc => ?_) | with_reducible refine Cx.readLanes_keeps _ _ _ _ _ _ _ _ (by assumption) (fun c g hc => ?_) | with_reducible refine Cx.edge_keeps _ _ _ _ (by assumption) (fun c d hc => ?_) | with_reducible refine Cx.edgeLine_keeps _ _ _ _ (by assumption) (fun c d hc => ?_) | with_reducible refine onFrame_keeps _ _ _ (by assumption) (fun f => ?_) | with_reducible refine onEngine_keeps _ _ _ (by assumption) ?_ | with_reducible refine Cx.onQueue_keeps _ _ _ (by assumption) (fun x => ?_) | with_reducible refine Cx.arrival_keeps _ _ _ _ _ (by assumption) (fun b t => ?_) | with_reducible refine Cx.awaitLine_keeps _ _ _ ?_ | with_reducible exact tileBody_keeps _ _ _ _ _ _ _ hc | with_reducible exact copyBody_keeps _ _ _ _ _ _ _ _ hc | with_reducible exact drainBody_keeps _ _ _ _ _ _ _ _ _ _ hc | with_reducible refine waitvPoll_keeps _ _ _ _ _ _ _ _ _ _ ?_ | split | dsimp only))
  all_goals (try grind [= mk_mems, = mems_fold, = Cx.setWv_mems, Res.All])

theorem execXrd_keeps (h : Hdr) (sp : XSpace) (d : BitVec 12) (n : XNum) (s : State) {u : State} (hm : memsOk s.mems) (e : execXrd h sp d n s = .next u) :
    memsOk u.mems := by
  unfold execXrd at e
  (try dsimp only at e)
  (repeat' split at e) <;> refine issue_keeps hm (fun c act hc => ?_) e
  all_goals
    clear e hm
    (repeat' (first | assumption | with_reducible refine onPath_keeps _ _ _ _ (by assumption) (fun c hc => ?_) | with_reducible refine Cx.readLanes_keeps _ _ _ _ _ _ _ _ (by assumption) (fun c g hc => ?_) | with_reducible refine Cx.edge_keeps _ _ _ _ (by assumption) (fun c d hc => ?_) | with_reducible refine Cx.edgeLine_keeps _ _ _ _ (by assumption) (fun c d hc => ?_) | with_reducible refine onFrame_keeps _ _ _ (by assumption) (fun f => ?_) | with_reducible refine onEngine_keeps _ _ _ (by assumption) ?_ | with_reducible refine Cx.onQueue_keeps _ _ _ (by assumption) (fun x => ?_) | with_reducible refine Cx.arrival_keeps _ _ _ _ _ (by assumption) (fun b t => ?_) | with_reducible refine Cx.awaitLine_keeps _ _ _ ?_ | with_reducible exact tileBody_keeps _ _ _ _ _ _ _ hc | with_reducible exact copyBody_keeps _ _ _ _ _ _ _ _ hc | with_reducible exact drainBody_keeps _ _ _ _ _ _ _ _ _ _ hc | with_reducible refine waitvPoll_keeps _ _ _ _ _ _ _ _ _ _ ?_ | split | dsimp only))
  all_goals (try grind [= mk_mems, = mems_fold, Res.All])

theorem execSrw_keeps (h : Hdr) (sr : BitVec 8) (b : BitVec 8) (s : State) {u : State} (hm : memsOk s.mems) (e : execSrw h sr b s = .next u) :
    memsOk u.mems := by
  unfold execSrw at e
  (try dsimp only at e)
  (repeat' split at e) <;> refine issue_keeps hm (fun c act hc => ?_) e
  all_goals
    clear e hm
    (repeat' (first | assumption | with_reducible refine onPath_keeps _ _ _ _ (by assumption) (fun c hc => ?_) | with_reducible refine Cx.readLanes_keeps _ _ _ _ _ _ _ _ (by assumption) (fun c g hc => ?_) | with_reducible refine Cx.edge_keeps _ _ _ _ (by assumption) (fun c d hc => ?_) | with_reducible refine Cx.edgeLine_keeps _ _ _ _ (by assumption) (fun c d hc => ?_) | with_reducible refine onFrame_keeps _ _ _ (by assumption) (fun f => ?_) | with_reducible refine onEngine_keeps _ _ _ (by assumption) ?_ | with_reducible refine Cx.onQueue_keeps _ _ _ (by assumption) (fun x => ?_) | with_reducible refine Cx.arrival_keeps _ _ _ _ _ (by assumption) (fun b t => ?_) | with_reducible refine Cx.awaitLine_keeps _ _ _ ?_ | with_reducible exact tileBody_keeps _ _ _ _ _ _ _ hc | with_reducible exact copyBody_keeps _ _ _ _ _ _ _ _ hc | with_reducible exact drainBody_keeps _ _ _ _ _ _ _ _ _ _ hc | with_reducible refine waitvPoll_keeps _ _ _ _ _ _ _ _ _ _ ?_ | split | dsimp only))
  all_goals (try grind [= mk_mems, = mems_fold, = Cx.setWv_mems, Res.All])

theorem Cx.passTime_mems (c : Cx) :
    (Cx.passTime c).s.mems = c.s.mems := by
  unfold Cx.passTime
  repeat' split
  all_goals grind [= mk_mems, = mems_fold, = State.drawNat_mems, = State.setCore_mems]

theorem execSrr_keeps (h : Hdr) (d : VS) (sr : BitVec 8) (s : State) {u : State} (hm : memsOk s.mems) (e : execSrr h d sr s = .next u) :
    memsOk u.mems := by
  unfold execSrr at e
  (try dsimp only at e)
  (repeat' split at e) <;> refine issue_keeps hm (fun c act hc => ?_) e
  all_goals
    clear e hm
    (repeat' (first | assumption | with_reducible refine onPath_keeps _ _ _ _ (by assumption) (fun c hc => ?_) | with_reducible refine Cx.readLanes_keeps _ _ _ _ _ _ _ _ (by assumption) (fun c g hc => ?_) | with_reducible refine Cx.edge_keeps _ _ _ _ (by assumption) (fun c d hc => ?_) | with_reducible refine Cx.edgeLine_keeps _ _ _ _ (by assumption) (fun c d hc => ?_) | with_reducible refine onFrame_keeps _ _ _ (by assumption) (fun f => ?_) | with_reducible refine onEngine_keeps _ _ _ (by assumption) ?_ | with_reducible refine Cx.onQueue_keeps _ _ _ (by assumption) (fun x => ?_) | with_reducible refine Cx.arrival_keeps _ _ _ _ _ (by assumption) (fun b t => ?_) | with_reducible refine Cx.awaitLine_keeps _ _ _ ?_ | with_reducible exact tileBody_keeps _ _ _ _ _ _ _ hc | with_reducible exact copyBody_keeps _ _ _ _ _ _ _ _ hc | with_reducible exact drainBody_keeps _ _ _ _ _ _ _ _ _ _ hc | with_reducible refine waitvPoll_keeps _ _ _ _ _ _ _ _ _ _ ?_ | split | dsimp only))
  all_goals (try grind [= mk_mems, = mems_fold, = Cx.passTime_mems, Res.All])

theorem execTqry_keeps (h : Hdr) (d : BitVec 8) (hn : BitVec 8) (i : BitVec 4) (s : State) {u : State} (hm : memsOk s.mems) (e : execTqry h d hn i s = .next u) :
    memsOk u.mems := by
  unfold execTqry at e
  (try dsimp only at e)
  (repeat' split at e) <;> refine issue_keeps hm (fun c act hc => ?_) e
  all_goals
    clear e hm
    (repeat' (first | assumption | with_reducible refine onPath_keeps _ _ _ _ (by assumption) (fun c hc => ?_) | with_reducible refine Cx.readLanes_keeps _ _ _ _ _ _ _ _ (by assumption) (fun c g hc => ?_) | with_reducible refine Cx.edge_keeps _ _ _ _ (by assumption) (fun c d hc => ?_) | with_reducible refine Cx.edgeLine_keeps _ _ _ _ (by assumption) (fun c d hc => ?_) | with_reducible refine onFrame_keeps _ _ _ (by assumption) (fun f => ?_) | with_reducible refine onEngine_keeps _ _ _ (by assumption) ?_ | with_reducible refine Cx.onQueue_keeps _ _ _ (by assumption) (fun x => ?_) | with_reducible refine Cx.arrival_keeps _ _ _ _ _ (by assumption) (fun b t => ?_) | with_reducible refine Cx.awaitLine_keeps _ _ _ ?_ | with_reducible exact tileBody_keeps _ _ _ _ _ _ _ hc | with_reducible exact copyBody_keeps _ _ _ _ _ _ _ _ hc | with_reducible exact drainBody_keeps _ _ _ _ _ _ _ _ _ _ hc | with_reducible refine waitvPoll_keeps _ _ _ _ _ _ _ _ _ _ ?_ | split | dsimp only))
  all_goals (try grind [= mk_mems, = mems_fold, Res.All])

theorem State.putEntry_keeps (s : State) (c : Ctx) (n : Nat) (e : TEntry) (hm : memsOk s.mems) :
    memsOk (State.putEntry s c n e).mems := by
  unfold State.putEntry
  (repeat' (first | split | with_reducible refine foldl_ok (fun _ _ _ => ?_) _ _ ?_ | dsimp only)) <;> grind [= mk_mems, = mems_fold, = State.setCtx_mems]

grind_pattern State.putEntry_keeps => State.putEntry s c n e

theorem execTdef_keeps (h : Hdr) (hn : BitVec 8) (a : BitVec 8) (s : State) {u : State} (hm : memsOk s.mems) (e : execTdef h hn a s = .next u) :
    memsOk u.mems := by
  unfold execTdef at e
  refine issue_keeps hm (fun c act hc => ?_) e
  exact onPath_keeps _ _ _ _ hc (fun c hc => State.putEntry_keeps _ _ _ _ hc)

theorem drainBody_keeps (i : Instr) (dst : DrainDst) (hn : BitVec 8) (acc : BitVec 8) (b : BitVec 10) (banks : Nat) (tag : BitVec 8)
    (arg : Cx → Nat → DWord) (c : Cx) (act : Mask) (hm : memsOk c.s.mems) :
    (drainBody i dst hn acc b banks tag arg c act).All fun u => memsOk u.mems := by
  unfold drainBody
  dsimp only
  (repeat' split) <;> first | exact hm | (rw [Res.All, State.setCore_mems, State.tick_mems]; exact hm)

theorem execPdrain_keeps (h : Hdr) (dst : DrainDst) (sn : BitVec 8) (hn : BitVec 8) (acc : BitVec 8) (b : BitVec 10) (tag : BitVec 8) (s : State) {u : State} (hm : memsOk s.mems) (e : execPdrain h dst sn hn acc b tag s = .next u) :
    memsOk u.mems := by
  unfold execPdrain at e
  (try dsimp only at e)
  (repeat' split at e) <;> refine issue_keeps hm (fun c act hc => ?_) e
  all_goals
    clear e hm
    (repeat' (first | assumption | with_reducible refine onPath_keeps _ _ _ _ (by assumption) (fun c hc => ?_) | with_reducible refine Cx.readLanes_keeps _ _ _ _ _ _ _ _ (by assumption) (fun c g hc => ?_) | with_reducible refine Cx.edge_keeps _ _ _ _ (by assumption) (fun c d hc => ?_) | with_reducible refine Cx.edgeLine_keeps _ _ _ _ (by assumption) (fun c d hc => ?_) | with_reducible refine onFrame_keeps _ _ _ (by assumption) (fun f => ?_) | with_reducible refine onEngine_keeps _ _ _ (by assumption) ?_ | with_reducible refine Cx.onQueue_keeps _ _ _ (by assumption) (fun x => ?_) | with_reducible refine Cx.arrival_keeps _ _ _ _ _ (by assumption) (fun b t => ?_) | with_reducible refine Cx.awaitLine_keeps _ _ _ ?_ | with_reducible exact tileBody_keeps _ _ _ _ _ _ _ hc | with_reducible exact copyBody_keeps _ _ _ _ _ _ _ _ hc | with_reducible exact drainBody_keeps _ _ _ _ _ _ _ _ _ _ hc | with_reducible refine waitvPoll_keeps _ _ _ _ _ _ _ _ _ _ ?_ | split | dsimp only))
  all_goals (try grind [= mk_mems, = mems_fold])

theorem execDrain_keeps (h : Hdr) (dst : DrainDst) (w2 : Bool) (md : Rm) (fz : Bool) (amx : Option (Level × BitVec 8)) (hn : BitVec 8) (acc : BitVec 8) (b : BitVec 10) (tag : BitVec 8) (s : State) {u : State} (hm : memsOk s.mems) (e : execDrain h dst w2 md fz amx hn acc b tag s = .next u) :
    memsOk u.mems := by
  unfold execDrain at e
  (try dsimp only at e)
  (repeat' split at e) <;> refine issue_keeps hm (fun c act hc => ?_) e
  all_goals
    clear e hm
    (repeat' (first | assumption | with_reducible refine onPath_keeps _ _ _ _ (by assumption) (fun c hc => ?_) | with_reducible refine Cx.readLanes_keeps _ _ _ _ _ _ _ _ (by assumption) (fun c g hc => ?_) | with_reducible refine Cx.edge_keeps _ _ _ _ (by assumption) (fun c d hc => ?_) | with_reducible refine Cx.edgeLine_keeps _ _ _ _ (by assumption) (fun c d hc => ?_) | with_reducible refine onFrame_keeps _ _ _ (by assumption) (fun f => ?_) | with_reducible refine onEngine_keeps _ _ _ (by assumption) ?_ | with_reducible refine Cx.onQueue_keeps _ _ _ (by assumption) (fun x => ?_) | with_reducible refine Cx.arrival_keeps _ _ _ _ _ (by assumption) (fun b t => ?_) | with_reducible refine Cx.awaitLine_keeps _ _ _ ?_ | with_reducible exact tileBody_keeps _ _ _ _ _ _ _ hc | with_reducible exact copyBody_keeps _ _ _ _ _ _ _ _ hc | with_reducible exact drainBody_keeps _ _ _ _ _ _ _ _ _ _ hc | with_reducible refine waitvPoll_keeps _ _ _ _ _ _ _ _ _ _ ?_ | split | dsimp only))
  all_goals (try grind [= mk_mems, = mems_fold])

theorem Cx.putAcc_mems (c : Cx) (k : Core) (unalloc : Bool) :
    (Cx.putAcc c k unalloc).s.mems = c.s.mems := by
  unfold Cx.putAcc
  repeat' split
  all_goals grind [= mk_mems, = mems_fold, = State.setCore_mems, = Cx.setWv_mems]

theorem onEngine_keeps (body : Cx → Mask → Res) (c : Cx) (act : Mask) (hm : memsOk c.s.mems) (hk : (body c act).All fun u => memsOk u.mems) :
    (onEngine body c act).All fun u => memsOk u.mems := by
  unfold onEngine
  split
  · exact hk
  · exact hm

theorem execAccw_keeps (h : Hdr) (sym : BitVec 8) (b : BitVec 10) (sw : BitVec 8) (a : BitVec 12) (s : State) {u : State} (hm : memsOk s.mems) (e : execAccw h sym b sw a s = .next u) :
    memsOk u.mems := by
  unfold execAccw at e
  (try dsimp only at e)
  (repeat' split at e) <;> refine issue_keeps hm (fun c act hc => ?_) e
  all_goals
    clear e hm
    (repeat' (first | assumption | with_reducible refine onPath_keeps _ _ _ _ (by assumption) (fun c hc => ?_) | with_reducible refine Cx.readLanes_keeps _ _ _ _ _ _ _ _ (by assumption) (fun c g hc => ?_) | with_reducible refine Cx.edge_keeps _ _ _ _ (by assumption) (fun c d hc => ?_) | with_reducible refine Cx.edgeLine_keeps _ _ _ _ (by assumption) (fun c d hc => ?_) | with_reducible refine onFrame_keeps _ _ _ (by assumption) (fun f => ?_) | with_reducible refine onEngine_keeps _ _ _ (by assumption) ?_ | with_reducible refine Cx.onQueue_keeps _ _ _ (by assumption) (fun x => ?_) | with_reducible refine Cx.arrival_keeps _ _ _ _ _ (by assumption) (fun b t => ?_) | with_reducible refine Cx.awaitLine_keeps _ _ _ ?_ | with_reducible exact tileBody_keeps _ _ _ _ _ _ _ hc | with_reducible exact copyBody_keeps _ _ _ _ _ _ _ _ hc | with_reducible exact drainBody_keeps _ _ _ _ _ _ _ _ _ _ hc | with_reducible refine waitvPoll_keeps _ _ _ _ _ _ _ _ _ _ ?_ | split | dsimp only))
  all_goals (try grind [= mk_mems, = mems_fold, = Cx.putAcc_mems, Res.All])

theorem execAccr_keeps (h : Hdr) (d : BitVec 12) (sym : BitVec 8) (b : BitVec 10) (sw : BitVec 8) (s : State) {u : State} (hm : memsOk s.mems) (e : execAccr h d sym b sw s = .next u) :
    memsOk u.mems := by
  unfold execAccr at e
  (try dsimp only at e)
  (repeat' split at e) <;> refine issue_keeps hm (fun c act hc => ?_) e
  all_goals
    clear e hm
    (repeat' (first | assumption | with_reducible refine onPath_keeps _ _ _ _ (by assumption) (fun c hc => ?_) | with_reducible refine Cx.readLanes_keeps _ _ _ _ _ _ _ _ (by assumption) (fun c g hc => ?_) | with_reducible refine Cx.edge_keeps _ _ _ _ (by assumption) (fun c d hc => ?_) | with_reducible refine Cx.edgeLine_keeps _ _ _ _ (by assumption) (fun c d hc => ?_) | with_reducible refine onFrame_keeps _ _ _ (by assumption) (fun f => ?_) | with_reducible refine onEngine_keeps _ _ _ (by assumption) ?_ | with_reducible refine Cx.onQueue_keeps _ _ _ (by assumption) (fun x => ?_) | with_reducible refine Cx.arrival_keeps _ _ _ _ _ (by assumption) (fun b t => ?_) | with_reducible refine Cx.awaitLine_keeps _ _ _ ?_ | with_reducible exact tileBody_keeps _ _ _ _ _ _ _ hc | with_reducible exact copyBody_keeps _ _ _ _ _ _ _ _ hc | with_reducible exact drainBody_keeps _ _ _ _ _ _ _ _ _ _ hc | with_reducible refine waitvPoll_keeps _ _ _ _ _ _ _ _ _ _ ?_ | split | dsimp only))
  all_goals (try grind [= mk_mems, = mems_fold, = Cx.putAcc_mems, Res.All])

theorem execAccz_keeps (h : Hdr) (sym : BitVec 8) (b : BitVec 10) (cnt1 : BitVec 4) (s : State) {u : State} (hm : memsOk s.mems) (e : execAccz h sym b cnt1 s = .next u) :
    memsOk u.mems := by
  unfold execAccz at e
  (try dsimp only at e)
  (repeat' split at e) <;> refine issue_keeps hm (fun c act hc => ?_) e
  all_goals
    clear e hm
    (repeat' (first | assumption | with_reducible refine onPath_keeps _ _ _ _ (by assumption) (fun c hc => ?_) | with_reducible refine Cx.readLanes_keeps _ _ _ _ _ _ _ _ (by assumption) (fun c g hc => ?_) | with_reducible refine Cx.edge_keeps _ _ _ _ (by assumption) (fun c d hc => ?_) | with_reducible refine Cx.edgeLine_keeps _ _ _ _ (by assumption) (fun c d hc => ?_) | with_reducible refine onFrame_keeps _ _ _ (by assumption) (fun f => ?_) | with_reducible refine onEngine_keeps _ _ _ (by assumption) ?_ | with_reducible refine Cx.onQueue_keeps _ _ _ (by assumption) (fun x => ?_) | with_reducible refine Cx.arrival_keeps _ _ _ _ _ (by assumption) (fun b t => ?_) | with_reducible refine Cx.awaitLine_keeps _ _ _ ?_ | with_reducible exact tileBody_keeps _ _ _ _ _ _ _ hc | with_reducible exact copyBody_keeps _ _ _ _ _ _ _ _ hc | with_reducible exact drainBody_keeps _ _ _ _ _ _ _ _ _ _ hc | with_reducible refine waitvPoll_keeps _ _ _ _ _ _ _ _ _ _ ?_ | split | dsimp only))
  all_goals (try grind [= mk_mems, = mems_fold, = Cx.putAcc_mems, Res.All])

theorem execAccf_keeps (h : Hdr) (sym : BitVec 8) (b : BitVec 10) (cnt1 : BitVec 4) (s : State) {u : State} (hm : memsOk s.mems) (e : execAccf h sym b cnt1 s = .next u) :
    memsOk u.mems := by
  unfold execAccf at e
  (try dsimp only at e)
  (repeat' split at e) <;> refine issue_keeps hm (fun c act hc => ?_) e
  all_goals
    clear e hm
    (repeat' (first | assumption | with_reducible refine onPath_keeps _ _ _ _ (by assumption) (fun c hc => ?_) | with_reducible refine Cx.readLanes_keeps _ _ _ _ _ _ _ _ (by assumption) (fun c g hc => ?_) | with_reducible refine Cx.edge_keeps _ _ _ _ (by assumption) (fun c d hc => ?_) | with_reducible refine Cx.edgeLine_keeps _ _ _ _ (by assumption) (fun c d hc => ?_) | with_reducible refine onFrame_keeps _ _ _ (by assumption) (fun f => ?_) | with_reducible refine onEngine_keeps _ _ _ (by assumption) ?_ | with_reducible refine Cx.onQueue_keeps _ _ _ (by assumption) (fun x => ?_) | with_reducible refine Cx.arrival_keeps _ _ _ _ _ (by assumption) (fun b t => ?_) | with_reducible refine Cx.awaitLine_keeps _ _ _ ?_ | with_reducible exact tileBody_keeps _ _ _ _ _ _ _ hc | with_reducible exact copyBody_keeps _ _ _ _ _ _ _ _ hc | with_reducible exact drainBody_keeps _ _ _ _ _ _ _ _ _ _ hc | with_reducible refine waitvPoll_keeps _ _ _ _ _ _ _ _ _ _ ?_ | split | dsimp only))
  all_goals (try grind [= mk_mems, = mems_fold, = Cx.putAcc_mems, Res.All])

theorem execAcca_keeps (h : Hdr) (sym : BitVec 8) (b : BitVec 10) (cnt1 : BitVec 4) (grp : BitVec 4) (s : State) {u : State} (hm : memsOk s.mems) (e : execAcca h sym b cnt1 grp s = .next u) :
    memsOk u.mems := by
  unfold execAcca at e
  (try dsimp only at e)
  (repeat' split at e) <;> refine issue_keeps hm (fun c act hc => ?_) e
  all_goals
    clear e hm
    (repeat' (first | assumption | with_reducible refine onPath_keeps _ _ _ _ (by assumption) (fun c hc => ?_) | with_reducible refine Cx.readLanes_keeps _ _ _ _ _ _ _ _ (by assumption) (fun c g hc => ?_) | with_reducible refine Cx.edge_keeps _ _ _ _ (by assumption) (fun c d hc => ?_) | with_reducible refine Cx.edgeLine_keeps _ _ _ _ (by assumption) (fun c d hc => ?_) | with_reducible refine onFrame_keeps _ _ _ (by assumption) (fun f => ?_) | with_reducible refine onEngine_keeps _ _ _ (by assumption) ?_ | with_reducible refine Cx.onQueue_keeps _ _ _ (by assumption) (fun x => ?_) | with_reducible refine Cx.arrival_keeps _ _ _ _ _ (by assumption) (fun b t => ?_) | with_reducible refine Cx.awaitLine_keeps _ _ _ ?_ | with_reducible exact tileBody_keeps _ _ _ _ _ _ _ hc | with_reducible exact copyBody_keeps _ _ _ _ _ _ _ _ hc | with_reducible exact drainBody_keeps _ _ _ _ _ _ _ _ _ _ hc | with_reducible refine waitvPoll_keeps _ _ _ _ _ _ _ _ _ _ ?_ | split | dsimp only))
  all_goals (try grind [= mk_mems, = mems_fold, = Cx.putAcc_mems, Res.All])

theorem Cx.issueOp_mems (c : Cx) (t : TrickState) (i : Instr) (wave : Nat) (from_ : FlagsTo) (act : Mask) {v : Cx} (e : c.issueOp t i wave from_ act = .ok v) :
    v.s.mems = c.s.mems := by
  unfold Cx.issueOp at e
  split at e
  · grind
  · dsimp only at e
    split at e
    · grind
    · cases e
      rfl

theorem Cx.signTrick_keeps (c : Cx) (sym : Nat) (op : Option Instr) (act : Mask) (hm : memsOk c.s.mems) :
    (c.signTrick sym op act).All fun u => memsOk u.mems := by
  unfold Cx.signTrick
  dsimp only
  (repeat' split) <;> grind [Res.All, → Cx.issueOp_mems]

theorem execPmma_keeps (h : Hdr) (qn : BitVec 2) (conj : Bool) (o : MatOps) (s : State) {u : State} (hm : memsOk s.mems) (e : execPmma h qn conj o s = .next u) :
    memsOk u.mems := by
  unfold execPmma at e
  (try dsimp only at e)
  (repeat' split at e) <;> refine issue_keeps hm (fun c act hc => ?_) e
  all_goals
    clear e hm
    (repeat' (first | assumption | with_reducible refine onPath_keeps _ _ _ _ (by assumption) (fun c hc => ?_) | with_reducible refine Cx.readLanes_keeps _ _ _ _ _ _ _ _ (by assumption) (fun c g hc => ?_) | with_reducible refine Cx.edge_keeps _ _ _ _ (by assumption) (fun c d hc => ?_) | with_reducible refine Cx.edgeLine_keeps _ _ _ _ (by assumption) (fun c d hc => ?_) | with_reducible refine onFrame_keeps _ _ _ (by assumption) (fun f => ?_) | with_reducible refine onEngine_keeps _ _ _ (by assumption) ?_ | with_reducible refine Cx.onQueue_keeps _ _ _ (by assumption) (fun x => ?_) | with_reducible refine Cx.arrival_keeps _ _ _ _ _ (by assumption) (fun b t => ?_) | with_reducible refine Cx.awaitLine_keeps _ _ _ ?_ | with_reducible exact tileBody_keeps _ _ _ _ _ _ _ hc | with_reducible exact copyBody_keeps _ _ _ _ _ _ _ _ hc | with_reducible exact drainBody_keeps _ _ _ _ _ _ _ _ _ _ hc | with_reducible refine waitvPoll_keeps _ _ _ _ _ _ _ _ _ _ ?_ | split | dsimp only))
  all_goals (try grind [= mk_mems, = mems_fold, Cx.signTrick_keeps])

theorem execMma_keeps (h : Hdr) (w2 : Bool) (o : MatOps) (s : State) {u : State} (hm : memsOk s.mems) (e : execMma h w2 o s = .next u) :
    memsOk u.mems := by
  unfold execMma at e
  (try dsimp only at e)
  (repeat' split at e) <;> refine issue_keeps hm (fun c act hc => ?_) e
  all_goals
    clear e hm
    (repeat' (first | assumption | with_reducible refine onPath_keeps _ _ _ _ (by assumption) (fun c hc => ?_) | with_reducible refine Cx.readLanes_keeps _ _ _ _ _ _ _ _ (by assumption) (fun c g hc => ?_) | with_reducible refine Cx.edge_keeps _ _ _ _ (by assumption) (fun c d hc => ?_) | with_reducible refine Cx.edgeLine_keeps _ _ _ _ (by assumption) (fun c d hc => ?_) | with_reducible refine onFrame_keeps _ _ _ (by assumption) (fun f => ?_) | with_reducible refine onEngine_keeps _ _ _ (by assumption) ?_ | with_reducible refine Cx.onQueue_keeps _ _ _ (by assumption) (fun x => ?_) | with_reducible refine Cx.arrival_keeps _ _ _ _ _ (by assumption) (fun b t => ?_) | with_reducible refine Cx.awaitLine_keeps _ _ _ ?_ | with_reducible exact tileBody_keeps _ _ _ _ _ _ _ hc | with_reducible exact copyBody_keeps _ _ _ _ _ _ _ _ hc | with_reducible exact drainBody_keeps _ _ _ _ _ _ _ _ _ _ hc | with_reducible refine waitvPoll_keeps _ _ _ _ _ _ _ _ _ _ ?_ | split | dsimp only))
  all_goals (try grind [= mk_mems, = mems_fold, Cx.signTrick_keeps])

theorem execSign_keeps (h : Hdr) (k : BitVec 8) (s : State) {u : State} (hm : memsOk s.mems) (e : execSign h k s = .next u) :
    memsOk u.mems := by
  unfold execSign at e
  (try dsimp only at e)
  (repeat' split at e) <;> refine issue_keeps hm (fun c act hc => ?_) e
  all_goals
    clear e hm
    (repeat' (first | assumption | with_reducible refine onPath_keeps _ _ _ _ (by assumption) (fun c hc => ?_) | with_reducible refine Cx.readLanes_keeps _ _ _ _ _ _ _ _ (by assumption) (fun c g hc => ?_) | with_reducible refine Cx.edge_keeps _ _ _ _ (by assumption) (fun c d hc => ?_) | with_reducible refine Cx.edgeLine_keeps _ _ _ _ (by assumption) (fun c d hc => ?_) | with_reducible refine onFrame_keeps _ _ _ (by assumption) (fun f => ?_) | with_reducible refine onEngine_keeps _ _ _ (by assumption) ?_ | with_reducible refine Cx.onQueue_keeps _ _ _ (by assumption) (fun x => ?_) | with_reducible refine Cx.arrival_keeps _ _ _ _ _ (by assumption) (fun b t => ?_) | with_reducible refine Cx.awaitLine_keeps _ _ _ ?_ | with_reducible exact tileBody_keeps _ _ _ _ _ _ _ hc | with_reducible exact copyBody_keeps _ _ _ _ _ _ _ _ hc | with_reducible exact drainBody_keeps _ _ _ _ _ _ _ _ _ _ hc | with_reducible refine waitvPoll_keeps _ _ _ _ _ _ _ _ _ _ ?_ | split | dsimp only))
  all_goals (try grind [= mk_mems, = mems_fold, Cx.signTrick_keeps])

theorem Cx.edgeWrite_keeps (c : Cx) (p : DWord) (ws : List (Nat × DWord)) (hm : memsOk c.s.mems) :
    memsOk (Cx.edgeWrite c p ws).s.mems := by
  unfold Cx.edgeWrite
  (repeat' (first | split | with_reducible refine foldl_ok (fun _ _ _ => ?_) _ _ ?_ | dsimp only)) <;> grind [= mk_mems, = mems_fold, = State.dropL1_mems, = State.noReplay_mems]

grind_pattern Cx.edgeWrite_keeps => Cx.edgeWrite c p ws

theorem Cx.edgeLine_keeps (c : Cx) (p : DWord) (act : Mask) (k : Cx → LineData → Res) (hm : memsOk c.s.mems) (hk : ∀ c d, memsOk c.s.mems → (k c d).All fun u => memsOk u.mems) :
    (c.edgeLine p act k).All fun u => memsOk u.mems := by
  unfold Cx.edgeLine
  have h := State.readD_keeps c.s c.ctx (lineNo p) .atomic false hm
  split
  · next he => rw [he] at h; exact h
  · next he => rw [he] at h; exact Cx.awaitLine_keeps _ _ _ h
  · next he =>
    rw [he] at h
    split
    · exact h
    · exact hk _ _ h

theorem State.freeReadAgain_keeps (s : State) (c : Ctx) (p : DWord) (hm : memsOk s.mems) :
    memsOk (State.freeReadAgain s c p).mems := by
  unfold State.freeReadAgain
  (repeat' (first | split | with_reducible refine foldl_ok (fun _ _ _ => ?_) _ _ ?_ | dsimp only)) <;> grind [= mk_mems, = mems_fold]

grind_pattern State.freeReadAgain_keeps => State.freeReadAgain s c p

theorem Cx.freeReadAgain_keeps (c : Cx) (p : DWord) (hm : memsOk c.s.mems) :
    memsOk (Cx.freeReadAgain c p).s.mems := by
  unfold Cx.freeReadAgain
  (repeat' (first | split | with_reducible refine foldl_ok (fun _ _ _ => ?_) _ _ ?_ | dsimp only)) <;> grind [= mk_mems, = mems_fold]

grind_pattern Cx.freeReadAgain_keeps => Cx.freeReadAgain c p

theorem Cx.edge_keeps (c : Cx) (p : DWord) (act : Mask) (k : Cx → Edge → Res) (hm : memsOk c.s.mems) (hk : ∀ c d, memsOk c.s.mems → (k c d).All fun u => memsOk u.mems) :
    (c.edge p act k).All fun u => memsOk u.mems := by
  unfold Cx.edge
  split
  · exact hm
  · refine Cx.edgeLine_keeps _ _ _ _ hm (fun c d hc => ?_)
    split
    · exact hk _ _ hc
    · exact hc

theorem execEpop_keeps (h : Hdr) (d : BitVec 8) (a : BitVec 8) (disp : BitVec 32) (s : State) {u : State} (hm : memsOk s.mems) (e : execEpop h d a disp s = .next u) :
    memsOk u.mems := by
  unfold execEpop at e
  (try dsimp only at e)
  (repeat' split at e) <;> refine issue_keeps hm (fun c act hc => ?_) e
  all_goals
    clear e hm
    (repeat' (first | assumption | with_reducible refine onPath_keeps _ _ _ _ (by assumption) (fun c hc => ?_) | with_reducible refine Cx.readLanes_keeps _ _ _ _ _ _ _ _ (by assumption) (fun c g hc => ?_) | with_reducible refine Cx.edge_keeps _ _ _ _ (by assumption) (fun c d hc => ?_) | with_reducible refine Cx.edgeLine_keeps _ _ _ _ (by assumption) (fun c d hc => ?_) | with_reducible refine onFrame_keeps _ _ _ (by assumption) (fun f => ?_) | with_reducible refine onEngine_keeps _ _ _ (by assumption) ?_ | with_reducible refine Cx.onQueue_keeps _ _ _ (by assumption) (fun x => ?_) | with_reducible refine Cx.arrival_keeps _ _ _ _ _ (by assumption) (fun b t => ?_) | with_reducible refine Cx.awaitLine_keeps _ _ _ ?_ | with_reducible exact tileBody_keeps _ _ _ _ _ _ _ hc | with_reducible exact copyBody_keeps _ _ _ _ _ _ _ _ hc | with_reducible exact drainBody_keeps _ _ _ _ _ _ _ _ _ _ hc | with_reducible refine waitvPoll_keeps _ _ _ _ _ _ _ _ _ _ ?_ | split | dsimp only))
  all_goals (try grind [= mk_mems, = mems_fold, Res.All])

theorem execEpush_keeps (h : Hdr) (d : BitVec 8) (a : BitVec 8) (b : BitVec 8) (disp : BitVec 32) (s : State) {u : State} (hm : memsOk s.mems) (e : execEpush h d a b disp s = .next u) :
    memsOk u.mems := by
  unfold execEpush at e
  (try dsimp only at e)
  (repeat' split at e) <;> refine issue_keeps hm (fun c act hc => ?_) e
  all_goals
    clear e hm
    (repeat' (first | assumption | with_reducible refine onPath_keeps _ _ _ _ (by assumption) (fun c hc => ?_) | with_reducible refine Cx.readLanes_keeps _ _ _ _ _ _ _ _ (by assumption) (fun c g hc => ?_) | with_reducible refine Cx.edge_keeps _ _ _ _ (by assumption) (fun c d hc => ?_) | with_reducible refine Cx.edgeLine_keeps _ _ _ _ (by assumption) (fun c d hc => ?_) | with_reducible refine onFrame_keeps _ _ _ (by assumption) (fun f => ?_) | with_reducible refine onEngine_keeps _ _ _ (by assumption) ?_ | with_reducible refine Cx.onQueue_keeps _ _ _ (by assumption) (fun x => ?_) | with_reducible refine Cx.arrival_keeps _ _ _ _ _ (by assumption) (fun b t => ?_) | with_reducible refine Cx.awaitLine_keeps _ _ _ ?_ | with_reducible exact tileBody_keeps _ _ _ _ _ _ _ hc | with_reducible exact copyBody_keeps _ _ _ _ _ _ _ _ hc | with_reducible exact drainBody_keeps _ _ _ _ _ _ _ _ _ _ hc | with_reducible refine waitvPoll_keeps _ _ _ _ _ _ _ _ _ _ ?_ | split | dsimp only))
  all_goals (try grind [= mk_mems, = mems_fold, Res.All])

theorem Cx.takeEntry_mems (c : Cx) (q : QueueState) :
    (Cx.takeEntry c q).s.mems = c.s.mems := by
  unfold Cx.takeEntry
  repeat' split
  all_goals grind [= mk_mems, = mems_fold, = Cx.putQueue_mems]

theorem execQtry_keeps (h : Hdr) (d : BitVec 8) (sym : BitVec 8) (s : State) {u : State} (hm : memsOk s.mems) (e : execQtry h d sym s = .next u) :
    memsOk u.mems := by
  unfold execQtry at e
  (try dsimp only at e)
  (repeat' split at e) <;> refine issue_keeps hm (fun c act hc => ?_) e
  all_goals
    clear e hm
    (repeat' (first | assumption | with_reducible refine onPath_keeps _ _ _ _ (by assumption) (fun c hc => ?_) | with_reducible refine Cx.readLanes_keeps _ _ _ _ _ _ _ _ (by assumption) (fun c g hc => ?_) | with_reducible refine Cx.edge_keeps _ _ _ _ (by assumption) (fun c d hc => ?_) | with_reducible refine Cx.edgeLine_keeps _ _ _ _ (by assumption) (fun c d hc => ?_) | with_reducible refine onFrame_keeps _ _ _ (by assumption) (fun f => ?_) | with_reducible refine onEngine_keeps _ _ _ (by assumption) ?_ | with_reducible refine Cx.onQueue_keeps _ _ _ (by assumption) (fun x => ?_) | with_reducible refine Cx.arrival_keeps _ _ _ _ _ (by assumption) (fun b t => ?_) | with_reducible refine Cx.awaitLine_keeps _ _ _ ?_ | with_reducible exact tileBody_keeps _ _ _ _ _ _ _ hc | with_reducible exact copyBody_keeps _ _ _ _ _ _ _ _ hc | with_reducible exact drainBody_keeps _ _ _ _ _ _ _ _ _ _ hc | with_reducible refine waitvPoll_keeps _ _ _ _ _ _ _ _ _ _ ?_ | split | dsimp only))
  all_goals (try grind [= mk_mems, = mems_fold, = Cx.takeEntry_mems, Res.All])

theorem execQpop_keeps (h : Hdr) (d : BitVec 8) (sym : BitVec 8) (s : State) {u : State} (hm : memsOk s.mems) (e : execQpop h d sym s = .next u) :
    memsOk u.mems := by
  unfold execQpop at e
  (try dsimp only at e)
  (repeat' split at e) <;> refine issue_keeps hm (fun c act hc => ?_) e
  all_goals
    clear e hm
    (repeat' (first | assumption | with_reducible refine onPath_keeps _ _ _ _ (by assumption) (fun c hc => ?_) | with_reducible refine Cx.readLanes_keeps _ _ _ _ _ _ _ _ (by assumption) (fun c g hc => ?_) | with_reducible refine Cx.edge_keeps _ _ _ _ (by assumption) (fun c d hc => ?_) | with_reducible refine Cx.edgeLine_keeps _ _ _ _ (by assumption) (fun c d hc => ?_) | with_reducible refine onFrame_keeps _ _ _ (by assumption) (fun f => ?_) | with_reducible refine onEngine_keeps _ _ _ (by assumption) ?_ | with_reducible refine Cx.onQueue_keeps _ _ _ (by assumption) (fun x => ?_) | with_reducible refine Cx.arrival_keeps _ _ _ _ _ (by assumption) (fun b t => ?_) | with_reducible refine Cx.awaitLine_keeps _ _ _ ?_ | with_reducible exact tileBody_keeps _ _ _ _ _ _ _ hc | with_reducible exact copyBody_keeps _ _ _ _ _ _ _ _ hc | with_reducible exact drainBody_keeps _ _ _ _ _ _ _ _ _ _ hc | with_reducible refine waitvPoll_keeps _ _ _ _ _ _ _ _ _ _ ?_ | split | dsimp only))
  all_goals (try grind [= mk_mems, = mems_fold, = Cx.takeEntry_mems, Res.All])

theorem execQpush_keeps (h : Hdr) (sym : BitVec 8) (a : BitVec 8) (s : State) {u : State} (hm : memsOk s.mems) (e : execQpush h sym a s = .next u) :
    memsOk u.mems := by
  unfold execQpush at e
  (try dsimp only at e)
  (repeat' split at e) <;> refine issue_keeps hm (fun c act hc => ?_) e
  all_goals
    clear e hm
    (repeat' (first | assumption | with_reducible refine onPath_keeps _ _ _ _ (by assumption) (fun c hc => ?_) | with_reducible refine Cx.readLanes_keeps _ _ _ _ _ _ _ _ (by assumption) (fun c g hc => ?_) | with_reducible refine Cx.edge_keeps _ _ _ _ (by assumption) (fun c d hc => ?_) | with_reducible refine Cx.edgeLine_keeps _ _ _ _ (by assumption) (fun c d hc => ?_) | with_reducible refine onFrame_keeps _ _ _ (by assumption) (fun f => ?_) | with_reducible refine onEngine_keeps _ _ _ (by assumption) ?_ | with_reducible refine Cx.onQueue_keeps _ _ _ (by assumption) (fun x => ?_) | with_reducible refine Cx.arrival_keeps _ _ _ _ _ (by assumption) (fun b t => ?_) | with_reducible refine Cx.awaitLine_keeps _ _ _ ?_ | with_reducible exact tileBody_keeps _ _ _ _ _ _ _ hc | with_reducible exact copyBody_keeps _ _ _ _ _ _ _ _ hc | with_reducible exact drainBody_keeps _ _ _ _ _ _ _ _ _ _ hc | with_reducible refine waitvPoll_keeps _ _ _ _ _ _ _ _ _ _ ?_ | split | dsimp only))
  all_goals (try grind [= mk_mems, = mems_fold, = State.tick_mems, = Cx.putQueue_mems, Res.All])

theorem Cx.awaitBar_mems (c : Cx) (sym : Nat) (token : BitVec 16) :
    (Cx.awaitBar c sym token).s.mems = c.s.mems := by
  unfold Cx.awaitBar
  repeat' split
  all_goals grind [= mk_mems, = mems_fold, = Cx.setWv_mems]

theorem State.waitPassed_mems (s : State) (b : Block) (wave : Nat) (sym : Nat) :
    (State.waitPassed s b wave sym).mems = s.mems := by
  unfold State.waitPassed
  repeat' split
  all_goals grind [= mk_mems, = mems_fold]

theorem Cx.passed_mems (c : Cx) (sym : Nat) :
    (Cx.passed c sym).s.mems = c.s.mems := by
  unfold Cx.passed
  repeat' split
  all_goals grind [= mk_mems, = mems_fold, = State.waitPassed_mems]

theorem execBars_keeps (h : Hdr) (sym : BitVec 8) (a : BitVec 8) (s : State) {u : State} (hm : memsOk s.mems) (e : execBars h sym a s = .next u) :
    memsOk u.mems := by
  unfold execBars at e
  (try dsimp only at e)
  (repeat' split at e) <;> refine issue_keeps hm (fun c act hc => ?_) e
  all_goals
    clear e hm
    (repeat' (first | assumption | with_reducible refine onPath_keeps _ _ _ _ (by assumption) (fun c hc => ?_) | with_reducible refine Cx.readLanes_keeps _ _ _ _ _ _ _ _ (by assumption) (fun c g hc => ?_) | with_reducible refine Cx.edge_keeps _ _ _ _ (by assumption) (fun c d hc => ?_) | with_reducible refine Cx.edgeLine_keeps _ _ _ _ (by assumption) (fun c d hc => ?_) | with_reducible refine onFrame_keeps _ _ _ (by assumption) (fun f => ?_) | with_reducible refine onEngine_keeps _ _ _ (by assumption) ?_ | with_reducible refine Cx.onQueue_keeps _ _ _ (by assumption) (fun x => ?_) | with_reducible refine Cx.arrival_keeps _ _ _ _ _ (by assumption) (fun b t => ?_) | with_reducible refine Cx.awaitLine_keeps _ _ _ ?_ | with_reducible exact tileBody_keeps _ _ _ _ _ _ _ hc | with_reducible exact copyBody_keeps _ _ _ _ _ _ _ _ hc | with_reducible exact drainBody_keeps _ _ _ _ _ _ _ _ _ _ hc | with_reducible refine waitvPoll_keeps _ _ _ _ _ _ _ _ _ _ ?_ | split | dsimp only))
  all_goals (try grind [= mk_mems, = mems_fold, = Cx.passed_mems, = Cx.awaitBar_mems, Res.All])

theorem State.stbArrived_mems (s : State) (w : WaveRef) (sym : Nat) :
    (State.stbArrived s w sym).mems = s.mems := by
  unfold State.stbArrived
  repeat' split
  all_goals grind [= mk_mems, = mems_fold]

theorem Cx.arriving_mems (c : Cx) (sym : Nat) :
    (Cx.arriving c sym).s.mems = c.s.mems := by
  unfold Cx.arriving
  repeat' split
  all_goals grind [= mk_mems, = mems_fold, = State.stbArrived_mems]

theorem Cx.phaseAtSite_mems (c : Cx) (site : Nat) :
    (Cx.phaseAtSite c site).s.mems = c.s.mems := by
  unfold Cx.phaseAtSite
  dsimp only
  refine foldl_mems (fun s r => ?_) _ _
  (repeat' split) <;> first | rfl | rw [State.freshUnits_mems]

theorem State.phaseDone_mems (s : State) (b : Block) (sym : Nat) :
    (State.phaseDone s b sym).mems = s.mems := by
  unfold State.phaseDone
  repeat' split
  all_goals grind [= mk_mems, = mems_fold]

theorem State.waitsEnd_mems (s : State) (b : Block) (k : BarState) :
    (State.waitsEnd s b k).mems = s.mems := by
  unfold State.waitsEnd
  refine foldl_mems (fun s x => ?_) _ _
  split
  · split
    · exact State.waitPassed_mems _ _ _ _
    · rfl
  · rfl

theorem Cx.barSettle_mems (c : Cx) (k : BarState) :
    (Cx.barSettle c k).s.mems = c.s.mems := by
  unfold Cx.barSettle
  have hp : ∀ (c : Cx) (o : Option Nat), (match o with | some n => c.phaseAtSite n | none => c).s.mems = c.s.mems := by
    intro c o; split
    · exact Cx.phaseAtSite_mems _ _
    · rfl
  dsimp only
  split
  · rfl
  · generalize hc : Cx.mk ((c.s.phaseDone _ _).waitsEnd _ _) _ _ _ _ _ _ _ = c1
    have h1 : c1.s.mems = c.s.mems := by rw [← hc, State.waitsEnd_mems, State.phaseDone_mems]
    split <;> (split <;> (first | exact (hp c1 _).trans h1 | exact h1 | exact (Cx.phaseAtSite_mems c1 _).trans h1))

theorem Cx.arrival_keeps (c : Cx) (sym : Nat) (act : Mask) (wait : Wait) (k : BarState → ThreadSet → Res) (hm : memsOk c.s.mems) (hk : ∀ b t, (k b t).All fun u => memsOk u.mems) :
    (c.arrival sym act wait k).All fun u => memsOk u.mems := by
  unfold Cx.arrival
  dsimp only
  (repeat' split) <;> first | exact hm | exact hk _ _

theorem execBarw_keeps (h : Hdr) (sym : BitVec 8) (s : State) {u : State} (hm : memsOk s.mems) (e : execBarw h sym s = .next u) :
    memsOk u.mems := by
  unfold execBarw at e
  (try dsimp only at e)
  (repeat' split at e) <;> refine issue_keeps hm (fun c act hc => ?_) e
  all_goals
    clear e hm
    (repeat' (first | assumption | with_reducible refine onPath_keeps _ _ _ _ (by assumption) (fun c hc => ?_) | with_reducible refine Cx.readLanes_keeps _ _ _ _ _ _ _ _ (by assumption) (fun c g hc => ?_) | with_reducible refine Cx.edge_keeps _ _ _ _ (by assumption) (fun c d hc => ?_) | with_reducible refine Cx.edgeLine_keeps _ _ _ _ (by assumption) (fun c d hc => ?_) | with_reducible refine onFrame_keeps _ _ _ (by assumption) (fun f => ?_) | with_reducible refine onEngine_keeps _ _ _ (by assumption) ?_ | with_reducible refine Cx.onQueue_keeps _ _ _ (by assumption) (fun x => ?_) | with_reducible refine Cx.arrival_keeps _ _ _ _ _ (by assumption) (fun b t => ?_) | with_reducible refine Cx.awaitLine_keeps _ _ _ ?_ | with_reducible exact tileBody_keeps _ _ _ _ _ _ _ hc | with_reducible exact copyBody_keeps _ _ _ _ _ _ _ _ hc | with_reducible exact drainBody_keeps _ _ _ _ _ _ _ _ _ _ hc | with_reducible refine waitvPoll_keeps _ _ _ _ _ _ _ _ _ _ ?_ | split | dsimp only))
  all_goals (try grind [= mk_mems, = mems_fold, = Cx.barSettle_mems, = Cx.awaitBar_mems, = Cx.arriving_mems, Res.All])

theorem execBard_keeps (h : Hdr) (sym : BitVec 8) (s : State) {u : State} (hm : memsOk s.mems) (e : execBard h sym s = .next u) :
    memsOk u.mems := by
  unfold execBard at e
  (try dsimp only at e)
  (repeat' split at e) <;> refine issue_keeps hm (fun c act hc => ?_) e
  all_goals
    clear e hm
    (repeat' (first | assumption | with_reducible refine onPath_keeps _ _ _ _ (by assumption) (fun c hc => ?_) | with_reducible refine Cx.readLanes_keeps _ _ _ _ _ _ _ _ (by assumption) (fun c g hc => ?_) | with_reducible refine Cx.edge_keeps _ _ _ _ (by assumption) (fun c d hc => ?_) | with_reducible refine Cx.edgeLine_keeps _ _ _ _ (by assumption) (fun c d hc => ?_) | with_reducible refine onFrame_keeps _ _ _ (by assumption) (fun f => ?_) | with_reducible refine onEngine_keeps _ _ _ (by assumption) ?_ | with_reducible refine Cx.onQueue_keeps _ _ _ (by assumption) (fun x => ?_) | with_reducible refine Cx.arrival_keeps _ _ _ _ _ (by assumption) (fun b t => ?_) | with_reducible refine Cx.awaitLine_keeps _ _ _ ?_ | with_reducible exact tileBody_keeps _ _ _ _ _ _ _ hc | with_reducible exact copyBody_keeps _ _ _ _ _ _ _ _ hc | with_reducible exact drainBody_keeps _ _ _ _ _ _ _ _ _ _ hc | with_reducible refine waitvPoll_keeps _ _ _ _ _ _ _ _ _ _ ?_ | split | dsimp only))
  all_goals (try grind [= mk_mems, = mems_fold, = Cx.barSettle_mems, = Cx.arriving_mems, Res.All])

theorem execBarv_keeps (h : Hdr) (d : BitVec 8) (sym : BitVec 8) (s : State) {u : State} (hm : memsOk s.mems) (e : execBarv h d sym s = .next u) :
    memsOk u.mems := by
  unfold execBarv at e
  (try dsimp only at e)
  (repeat' split at e) <;> refine issue_keeps hm (fun c act hc => ?_) e
  all_goals
    clear e hm
    (repeat' (first | assumption | with_reducible refine onPath_keeps _ _ _ _ (by assumption) (fun c hc => ?_) | with_reducible refine Cx.readLanes_keeps _ _ _ _ _ _ _ _ (by assumption) (fun c g hc => ?_) | with_reducible refine Cx.edge_keeps _ _ _ _ (by assumption) (fun c d hc => ?_) | with_reducible refine Cx.edgeLine_keeps _ _ _ _ (by assumption) (fun c d hc => ?_) | with_reducible refine onFrame_keeps _ _ _ (by assumption) (fun f => ?_) | with_reducible refine onEngine_keeps _ _ _ (by assumption) ?_ | with_reducible refine Cx.onQueue_keeps _ _ _ (by assumption) (fun x => ?_) | with_reducible refine Cx.arrival_keeps _ _ _ _ _ (by assumption) (fun b t => ?_) | with_reducible refine Cx.awaitLine_keeps _ _ _ ?_ | with_reducible exact tileBody_keeps _ _ _ _ _ _ _ hc | with_reducible exact copyBody_keeps _ _ _ _ _ _ _ _ hc | with_reducible exact drainBody_keeps _ _ _ _ _ _ _ _ _ _ hc | with_reducible refine waitvPoll_keeps _ _ _ _ _ _ _ _ _ _ ?_ | split | dsimp only))
  all_goals (try grind [= mk_mems, = mems_fold, = Cx.barSettle_mems, = Cx.arriving_mems, Res.All])

theorem execTclr_keeps (h : Hdr) (tags : TagList) (s : State) {u : State} (hm : memsOk s.mems) (e : execTclr h tags s = .next u) :
    memsOk u.mems := by
  unfold execTclr at e
  (try dsimp only at e)
  (repeat' split at e) <;> refine issue_keeps hm (fun c act hc => ?_) e
  all_goals
    clear e hm
    (repeat' (first | assumption | with_reducible refine onPath_keeps _ _ _ _ (by assumption) (fun c hc => ?_) | with_reducible refine Cx.readLanes_keeps _ _ _ _ _ _ _ _ (by assumption) (fun c g hc => ?_) | with_reducible refine Cx.edge_keeps _ _ _ _ (by assumption) (fun c d hc => ?_) | with_reducible refine Cx.edgeLine_keeps _ _ _ _ (by assumption) (fun c d hc => ?_) | with_reducible refine onFrame_keeps _ _ _ (by assumption) (fun f => ?_) | with_reducible refine onEngine_keeps _ _ _ (by assumption) ?_ | with_reducible refine Cx.onQueue_keeps _ _ _ (by assumption) (fun x => ?_) | with_reducible refine Cx.arrival_keeps _ _ _ _ _ (by assumption) (fun b t => ?_) | with_reducible refine Cx.awaitLine_keeps _ _ _ ?_ | with_reducible exact tileBody_keeps _ _ _ _ _ _ _ hc | with_reducible exact copyBody_keeps _ _ _ _ _ _ _ _ hc | with_reducible exact drainBody_keeps _ _ _ _ _ _ _ _ _ _ hc | with_reducible refine waitvPoll_keeps _ _ _ _ _ _ _ _ _ _ ?_ | split | dsimp only))
  all_goals (try grind [= mk_mems, = mems_fold, Res.All])

theorem execTfirst_keeps (h : Hdr) (d : BitVec 8) (tags : TagList) (s : State) {u : State} (hm : memsOk s.mems) (e : execTfirst h d tags s = .next u) :
    memsOk u.mems := by
  unfold execTfirst at e
  (try dsimp only at e)
  (repeat' split at e) <;> refine issue_keeps hm (fun c act hc => ?_) e
  all_goals
    clear e hm
    (repeat' (first | assumption | with_reducible refine onPath_keeps _ _ _ _ (by assumption) (fun c hc => ?_) | with_reducible refine Cx.readLanes_keeps _ _ _ _ _ _ _ _ (by assumption) (fun c g hc => ?_) | with_reducible refine Cx.edge_keeps _ _ _ _ (by assumption) (fun c d hc => ?_) | with_reducible refine Cx.edgeLine_keeps _ _ _ _ (by assumption) (fun c d hc => ?_) | with_reducible refine onFrame_keeps _ _ _ (by assumption) (fun f => ?_) | with_reducible refine onEngine_keeps _ _ _ (by assumption) ?_ | with_reducible refine Cx.onQueue_keeps _ _ _ (by assumption) (fun x => ?_) | with_reducible refine Cx.arrival_keeps _ _ _ _ _ (by assumption) (fun b t => ?_) | with_reducible refine Cx.awaitLine_keeps _ _ _ ?_ | with_reducible exact tileBody_keeps _ _ _ _ _ _ _ hc | with_reducible exact copyBody_keeps _ _ _ _ _ _ _ _ hc | with_reducible exact drainBody_keeps _ _ _ _ _ _ _ _ _ _ hc | with_reducible refine waitvPoll_keeps _ _ _ _ _ _ _ _ _ _ ?_ | split | dsimp only))
  all_goals (try grind [= mk_mems, = mems_fold, Res.All])

theorem execTwall_keeps (h : Hdr) (tags : TagList) (s : State) {u : State} (hm : memsOk s.mems) (e : execTwall h tags s = .next u) :
    memsOk u.mems := by
  unfold execTwall at e
  (try dsimp only at e)
  (repeat' split at e) <;> refine issue_keeps hm (fun c act hc => ?_) e
  all_goals
    clear e hm
    (repeat' (first | assumption | with_reducible refine onPath_keeps _ _ _ _ (by assumption) (fun c hc => ?_) | with_reducible refine Cx.readLanes_keeps _ _ _ _ _ _ _ _ (by assumption) (fun c g hc => ?_) | with_reducible refine Cx.edge_keeps _ _ _ _ (by assumption) (fun c d hc => ?_) | with_reducible refine Cx.edgeLine_keeps _ _ _ _ (by assumption) (fun c d hc => ?_) | with_reducible refine onFrame_keeps _ _ _ (by assumption) (fun f => ?_) | with_reducible refine onEngine_keeps _ _ _ (by assumption) ?_ | with_reducible refine Cx.onQueue_keeps _ _ _ (by assumption) (fun x => ?_) | with_reducible refine Cx.arrival_keeps _ _ _ _ _ (by assumption) (fun b t => ?_) | with_reducible refine Cx.awaitLine_keeps _ _ _ ?_ | with_reducible exact tileBody_keeps _ _ _ _ _ _ _ hc | with_reducible exact copyBody_keeps _ _ _ _ _ _ _ _ hc | with_reducible exact drainBody_keeps _ _ _ _ _ _ _ _ _ _ hc | with_reducible refine waitvPoll_keeps _ _ _ _ _ _ _ _ _ _ ?_ | split | dsimp only))
  all_goals (try grind [= mk_mems, = mems_fold, Res.All])

theorem execTwany_keeps (h : Hdr) (tags : TagList) (s : State) {u : State} (hm : memsOk s.mems) (e : execTwany h tags s = .next u) :
    memsOk u.mems := by
  unfold execTwany at e
  (try dsimp only at e)
  (repeat' split at e) <;> refine issue_keeps hm (fun c act hc => ?_) e
  all_goals
    clear e hm
    (repeat' (first | assumption | with_reducible refine onPath_keeps _ _ _ _ (by assumption) (fun c hc => ?_) | with_reducible refine Cx.readLanes_keeps _ _ _ _ _ _ _ _ (by assumption) (fun c g hc => ?_) | with_reducible refine Cx.edge_keeps _ _ _ _ (by assumption) (fun c d hc => ?_) | with_reducible refine Cx.edgeLine_keeps _ _ _ _ (by assumption) (fun c d hc => ?_) | with_reducible refine onFrame_keeps _ _ _ (by assumption) (fun f => ?_) | with_reducible refine onEngine_keeps _ _ _ (by assumption) ?_ | with_reducible refine Cx.onQueue_keeps _ _ _ (by assumption) (fun x => ?_) | with_reducible refine Cx.arrival_keeps _ _ _ _ _ (by assumption) (fun b t => ?_) | with_reducible refine Cx.awaitLine_keeps _ _ _ ?_ | with_reducible exact tileBody_keeps _ _ _ _ _ _ _ hc | with_reducible exact copyBody_keeps _ _ _ _ _ _ _ _ hc | with_reducible exact drainBody_keeps _ _ _ _ _ _ _ _ _ _ hc | with_reducible refine waitvPoll_keeps _ _ _ _ _ _ _ _ _ _ ?_ | split | dsimp only))
  all_goals (try grind [= mk_mems, = mems_fold, Res.All])

theorem Cx.startJob_mems (c : Cx) (kind : JobKind) (tag : Nat) :
    (Cx.startJob c kind tag).s.mems = c.s.mems := by
  unfold Cx.startJob
  repeat' split
  all_goals grind [= mk_mems, = mems_fold, = State.tick_mems]

theorem copyBody_keeps (lvl : Level) (remote : Bool) (d src : BitVec 8) (n : SI) (tag : BitVec 8) (c : Cx) (act : Mask) (hm : memsOk c.s.mems) :
    (copyBody lvl remote d src n tag c act).All fun u => memsOk u.mems := by
  unfold copyBody
  dsimp only
  (repeat' split) <;> first | exact hm | (rw [Res.All, Cx.startJob_mems]; exact hm)

theorem execCpyr_keeps (h : Hdr) (d : BitVec 8) (src : BitVec 8) (n : SI) (tag : BitVec 8) (s : State) {u : State} (hm : memsOk s.mems) (e : execCpyr h d src n tag s = .next u) :
    memsOk u.mems := by
  unfold execCpyr at e
  (try dsimp only at e)
  (repeat' split at e) <;> refine issue_keeps hm (fun c act hc => ?_) e
  all_goals
    clear e hm
    (repeat' (first | assumption | with_reducible refine onPath_keeps _ _ _ _ (by assumption) (fun c hc => ?_) | with_reducible refine Cx.readLanes_keeps _ _ _ _ _ _ _ _ (by assumption) (fun c g hc => ?_) | with_reducible refine Cx.edge_keeps _ _ _ _ (by assumption) (fun c d hc => ?_) | with_reducible refine Cx.edgeLine_keeps _ _ _ _ (by assumption) (fun c d hc => ?_) | with_reducible refine onFrame_keeps _ _ _ (by assumption) (fun f => ?_) | with_reducible refine onEngine_keeps _ _ _ (by assumption) ?_ | with_reducible refine Cx.onQueue_keeps _ _ _ (by assumption) (fun x => ?_) | with_reducible refine Cx.arrival_keeps _ _ _ _ _ (by assumption) (fun b t => ?_) | with_reducible refine Cx.awaitLine_keeps _ _ _ ?_ | with_reducible exact tileBody_keeps _ _ _ _ _ _ _ hc | with_reducible exact copyBody_keeps _ _ _ _ _ _ _ _ hc | with_reducible exact drainBody_keeps _ _ _ _ _ _ _ _ _ _ hc | with_reducible refine waitvPoll_keeps _ _ _ _ _ _ _ _ _ _ ?_ | split | dsimp only))
  all_goals (try grind [= mk_mems, = mems_fold])

theorem tileBody_keeps (buf : SegRef16) (hn so tag : BitVec 8) (kind : Nat → TEntry → List DWord → JobKind) (c : Cx) (act : Mask) (hm : memsOk c.s.mems) :
    (tileBody buf hn so tag kind c act).All fun u => memsOk u.mems := by
  unfold tileBody
  dsimp only
  (repeat' split) <;> first | exact hm | (rw [Res.All, Cx.startJob_mems]; exact hm)

theorem execCpytSt_keeps (h : Hdr) (lvl : Level) (buf : SegRef16) (hn : BitVec 8) (so : BitVec 8) (tag : BitVec 8) (s : State) {u : State} (hm : memsOk s.mems) (e : execCpytSt h lvl buf hn so tag s = .next u) :
    memsOk u.mems := by
  unfold execCpytSt at e
  (try dsimp only at e)
  (repeat' split at e) <;> refine issue_keeps hm (fun c act hc => ?_) e
  all_goals
    clear e hm
    (repeat' (first | assumption | with_reducible refine onPath_keeps _ _ _ _ (by assumption) (fun c hc => ?_) | with_reducible refine Cx.readLanes_keeps _ _ _ _ _ _ _ _ (by assumption) (fun c g hc => ?_) | with_reducible refine Cx.edge_keeps _ _ _ _ (by assumption) (fun c d hc => ?_) | with_reducible refine Cx.edgeLine_keeps _ _ _ _ (by assumption) (fun c d hc => ?_) | with_reducible refine onFrame_keeps _ _ _ (by assumption) (fun f => ?_) | with_reducible refine onEngine_keeps _ _ _ (by assumption) ?_ | with_reducible refine Cx.onQueue_keeps _ _ _ (by assumption) (fun x => ?_) | with_reducible refine Cx.arrival_keeps _ _ _ _ _ (by assumption) (fun b t => ?_) | with_reducible refine Cx.awaitLine_keeps _ _ _ ?_ | with_reducible exact tileBody_keeps _ _ _ _ _ _ _ hc | with_reducible exact copyBody_keeps _ _ _ _ _ _ _ _ hc | with_reducible exact drainBody_keeps _ _ _ _ _ _ _ _ _ _ hc | with_reducible refine waitvPoll_keeps _ _ _ _ _ _ _ _ _ _ ?_ | split | dsimp only))
  all_goals (try grind [= mk_mems, = mems_fold])

theorem execCpytLd_keeps (h : Hdr) (buf : SegRef16) (hn : BitVec 8) (so : BitVec 8) (tag : BitVec 8) (s : State) {u : State} (hm : memsOk s.mems) (e : execCpytLd h buf hn so tag s = .next u) :
    memsOk u.mems := by
  unfold execCpytLd at e
  (try dsimp only at e)
  (repeat' split at e) <;> refine issue_keeps hm (fun c act hc => ?_) e
  all_goals
    clear e hm
    (repeat' (first | assumption | with_reducible refine onPath_keeps _ _ _ _ (by assumption) (fun c hc => ?_) | with_reducible refine Cx.readLanes_keeps _ _ _ _ _ _ _ _ (by assumption) (fun c g hc => ?_) | with_reducible refine Cx.edge_keeps _ _ _ _ (by assumption) (fun c d hc => ?_) | with_reducible refine Cx.edgeLine_keeps _ _ _ _ (by assumption) (fun c d hc => ?_) | with_reducible refine onFrame_keeps _ _ _ (by assumption) (fun f => ?_) | with_reducible refine onEngine_keeps _ _ _ (by assumption) ?_ | with_reducible refine Cx.onQueue_keeps _ _ _ (by assumption) (fun x => ?_) | with_reducible refine Cx.arrival_keeps _ _ _ _ _ (by assumption) (fun b t => ?_) | with_reducible refine Cx.awaitLine_keeps _ _ _ ?_ | with_reducible exact tileBody_keeps _ _ _ _ _ _ _ hc | with_reducible exact copyBody_keeps _ _ _ _ _ _ _ _ hc | with_reducible exact drainBody_keeps _ _ _ _ _ _ _ _ _ _ hc | with_reducible refine waitvPoll_keeps _ _ _ _ _ _ _ _ _ _ ?_ | split | dsimp only))
  all_goals (try grind [= mk_mems, = mems_fold])

theorem execCpy_keeps (h : Hdr) (lvl : Level) (d : BitVec 8) (src : BitVec 8) (n : SI) (tag : BitVec 8) (s : State) {u : State} (hm : memsOk s.mems) (e : execCpy h lvl d src n tag s = .next u) :
    memsOk u.mems := by
  unfold execCpy at e
  (try dsimp only at e)
  (repeat' split at e) <;> refine issue_keeps hm (fun c act hc => ?_) e
  all_goals
    clear e hm
    (repeat' (first | assumption | with_reducible refine onPath_keeps _ _ _ _ (by assumption) (fun c hc => ?_) | with_reducible refine Cx.readLanes_keeps _ _ _ _ _ _ _ _ (by assumption) (fun c g hc => ?_) | with_reducible refine Cx.edge_keeps _ _ _ _ (by assumption) (fun c d hc => ?_) | with_reducible refine Cx.edgeLine_keeps _ _ _ _ (by assumption) (fun c d hc => ?_) | with_reducible refine onFrame_keeps _ _ _ (by assumption) (fun f => ?_) | with_reducible refine onEngine_keeps _ _ _ (by assumption) ?_ | with_reducible refine Cx.onQueue_keeps _ _ _ (by assumption) (fun x => ?_) | with_reducible refine Cx.arrival_keeps _ _ _ _ _ (by assumption) (fun b t => ?_) | with_reducible refine Cx.awaitLine_keeps _ _ _ ?_ | with_reducible exact tileBody_keeps _ _ _ _ _ _ _ hc | with_reducible exact copyBody_keeps _ _ _ _ _ _ _ _ hc | with_reducible exact drainBody_keeps _ _ _ _ _ _ _ _ _ _ hc | with_reducible refine waitvPoll_keeps _ _ _ _ _ _ _ _ _ _ ?_ | split | dsimp only))
  all_goals (try grind [= mk_mems, = mems_fold])

theorem execIcinv_keeps (h : Hdr) (s : State) {u : State} (hm : memsOk s.mems) (e : execIcinv h s = .next u) :
    memsOk u.mems := by
  unfold execIcinv at e
  (try dsimp only at e)
  (repeat' split at e) <;> refine issue_keeps hm (fun c act hc => ?_) e
  all_goals
    clear e hm
    (repeat' (first | assumption | with_reducible refine onPath_keeps _ _ _ _ (by assumption) (fun c hc => ?_) | with_reducible refine Cx.readLanes_keeps _ _ _ _ _ _ _ _ (by assumption) (fun c g hc => ?_) | with_reducible refine Cx.edge_keeps _ _ _ _ (by assumption) (fun c d hc => ?_) | with_reducible refine Cx.edgeLine_keeps _ _ _ _ (by assumption) (fun c d hc => ?_) | with_reducible refine onFrame_keeps _ _ _ (by assumption) (fun f => ?_) | with_reducible refine onEngine_keeps _ _ _ (by assumption) ?_ | with_reducible refine Cx.onQueue_keeps _ _ _ (by assumption) (fun x => ?_) | with_reducible refine Cx.arrival_keeps _ _ _ _ _ (by assumption) (fun b t => ?_) | with_reducible refine Cx.awaitLine_keeps _ _ _ ?_ | with_reducible exact tileBody_keeps _ _ _ _ _ _ _ hc | with_reducible exact copyBody_keeps _ _ _ _ _ _ _ _ hc | with_reducible exact drainBody_keeps _ _ _ _ _ _ _ _ _ _ hc | with_reducible refine waitvPoll_keeps _ _ _ _ _ _ _ _ _ _ ?_ | split | dsimp only))
  all_goals (try grind [= mk_mems, = mems_fold, = Cx.setWv_mems, = State.setCore_mems, Res.All])

theorem execFence_keeps (h : Hdr) (src : BitVec 4) (dst : BitVec 4) (s : State) {u : State} (hm : memsOk s.mems) (e : execFence h src dst s = .next u) :
    memsOk u.mems := by
  unfold execFence at e
  (try dsimp only at e)
  (repeat' split at e) <;> refine issue_keeps hm (fun c act hc => ?_) e
  all_goals
    clear e hm
    (repeat' (first | assumption | with_reducible refine onPath_keeps _ _ _ _ (by assumption) (fun c hc => ?_) | with_reducible refine Cx.readLanes_keeps _ _ _ _ _ _ _ _ (by assumption) (fun c g hc => ?_) | with_reducible refine Cx.edge_keeps _ _ _ _ (by assumption) (fun c d hc => ?_) | with_reducible refine Cx.edgeLine_keeps _ _ _ _ (by assumption) (fun c d hc => ?_) | with_reducible refine onFrame_keeps _ _ _ (by assumption) (fun f => ?_) | with_reducible refine onEngine_keeps _ _ _ (by assumption) ?_ | with_reducible refine Cx.onQueue_keeps _ _ _ (by assumption) (fun x => ?_) | with_reducible refine Cx.arrival_keeps _ _ _ _ _ (by assumption) (fun b t => ?_) | with_reducible refine Cx.awaitLine_keeps _ _ _ ?_ | with_reducible exact tileBody_keeps _ _ _ _ _ _ _ hc | with_reducible exact copyBody_keeps _ _ _ _ _ _ _ _ hc | with_reducible exact drainBody_keeps _ _ _ _ _ _ _ _ _ _ hc | with_reducible refine waitvPoll_keeps _ _ _ _ _ _ _ _ _ _ ?_ | split | dsimp only))
  all_goals (try grind [= mk_mems, = mems_fold, = Cx.setWv_mems, Res.All])

theorem Cx.openWindow_mems (c : Cx) (lvl : Level) :
    (Cx.openWindow c lvl).s.mems = c.s.mems := by
  unfold Cx.openWindow
  repeat' split
  all_goals grind [= mk_mems, = mems_fold, = State.tick_mems, = Cx.setWv_mems]

theorem Cx.acquire_mems (c : Cx) (lvl : Level) :
    (Cx.acquire c lvl).s.mems = c.s.mems := by
  unfold Cx.acquire
  repeat' split
  all_goals grind [= mk_mems, = mems_fold, = State.setCore_mems]

theorem execAcq_keeps (h : Hdr) (lvl : Level) (s : State) {u : State} (hm : memsOk s.mems) (e : execAcq h lvl s = .next u) :
    memsOk u.mems := by
  unfold execAcq at e
  (try dsimp only at e)
  (repeat' split at e) <;> refine issue_keeps hm (fun c act hc => ?_) e
  all_goals
    clear e hm
    (repeat' (first | assumption | with_reducible refine onPath_keeps _ _ _ _ (by assumption) (fun c hc => ?_) | with_reducible refine Cx.readLanes_keeps _ _ _ _ _ _ _ _ (by assumption) (fun c g hc => ?_) | with_reducible refine Cx.edge_keeps _ _ _ _ (by assumption) (fun c d hc => ?_) | with_reducible refine Cx.edgeLine_keeps _ _ _ _ (by assumption) (fun c d hc => ?_) | with_reducible refine onFrame_keeps _ _ _ (by assumption) (fun f => ?_) | with_reducible refine onEngine_keeps _ _ _ (by assumption) ?_ | with_reducible refine Cx.onQueue_keeps _ _ _ (by assumption) (fun x => ?_) | with_reducible refine Cx.arrival_keeps _ _ _ _ _ (by assumption) (fun b t => ?_) | with_reducible refine Cx.awaitLine_keeps _ _ _ ?_ | with_reducible exact tileBody_keeps _ _ _ _ _ _ _ hc | with_reducible exact copyBody_keeps _ _ _ _ _ _ _ _ hc | with_reducible exact drainBody_keeps _ _ _ _ _ _ _ _ _ _ hc | with_reducible refine waitvPoll_keeps _ _ _ _ _ _ _ _ _ _ ?_ | split | dsimp only))
  all_goals (try grind [= mk_mems, = mems_fold, = Cx.acquire_mems, = Cx.openWindow_mems, Res.All])

theorem execAbort_keeps (h : Hdr) (lvl : Level) (s : State) {u : State} (hm : memsOk s.mems) (e : execAbort h lvl s = .next u) :
    memsOk u.mems := by
  unfold execAbort at e
  (try dsimp only at e)
  (repeat' split at e) <;> refine issue_keeps hm (fun c act hc => ?_) e
  all_goals
    clear e hm
    (repeat' (first | assumption | with_reducible refine onPath_keeps _ _ _ _ (by assumption) (fun c hc => ?_) | with_reducible refine Cx.readLanes_keeps _ _ _ _ _ _ _ _ (by assumption) (fun c g hc => ?_) | with_reducible refine Cx.edge_keeps _ _ _ _ (by assumption) (fun c d hc => ?_) | with_reducible refine Cx.edgeLine_keeps _ _ _ _ (by assumption) (fun c d hc => ?_) | with_reducible refine onFrame_keeps _ _ _ (by assumption) (fun f => ?_) | with_reducible refine onEngine_keeps _ _ _ (by assumption) ?_ | with_reducible refine Cx.onQueue_keeps _ _ _ (by assumption) (fun x => ?_) | with_reducible refine Cx.arrival_keeps _ _ _ _ _ (by assumption) (fun b t => ?_) | with_reducible refine Cx.awaitLine_keeps _ _ _ ?_ | with_reducible exact tileBody_keeps _ _ _ _ _ _ _ hc | with_reducible exact copyBody_keeps _ _ _ _ _ _ _ _ hc | with_reducible exact drainBody_keeps _ _ _ _ _ _ _ _ _ _ hc | with_reducible refine waitvPoll_keeps _ _ _ _ _ _ _ _ _ _ ?_ | split | dsimp only))
  all_goals (try grind [= mk_mems, = mems_fold, = Cx.setWv_mems, = Cx.setGangBuf_mems, Res.All])

theorem Cx.awaitAcks_mems (c : Cx) :
    (Cx.awaitAcks c).s.mems = c.s.mems := by
  unfold Cx.awaitAcks
  repeat' split
  all_goals grind [= mk_mems, = mems_fold, = Cx.setWv_mems]

theorem execCommitX_keeps (h : Hdr) (lvl : Level) (d : BitVec 8) (s : State) {u : State} (hm : memsOk s.mems) (e : execCommitX h lvl d s = .next u) :
    memsOk u.mems := by
  unfold execCommitX at e
  refine issue_keeps hm (fun c act hc => ?_) e
  refine onPath_keeps _ _ _ _ hc (fun c hc => ?_)
  have h := Cx.publish_keeps c lvl true act hc
  split
  · exact hc
  · cases hp : c.publish lvl true act with
    | ok x => rw [hp] at h; exact (show memsOk x.awaitAcks.s.mems by rw [Cx.awaitAcks_mems]; exact h)
    | conflict x n => rw [hp] at h; first | exact (show memsOk x.awaitAcks.s.mems by rw [Cx.awaitAcks_mems]; exact h) | exact h
    | fault s t => rw [hp] at h; exact h

theorem execCommit_keeps (h : Hdr) (lvl : Level) (s : State) {u : State} (hm : memsOk s.mems) (e : execCommit h lvl s = .next u) :
    memsOk u.mems := by
  unfold execCommit at e
  refine issue_keeps hm (fun c act hc => ?_) e
  refine onPath_keeps _ _ _ _ hc (fun c hc => ?_)
  have h := Cx.publish_keeps c lvl false act hc
  split
  · exact hc
  · cases hp : c.publish lvl false act with
    | ok x => rw [hp] at h; exact (show memsOk x.awaitAcks.s.mems by rw [Cx.awaitAcks_mems]; exact h)
    | conflict x n => rw [hp] at h; first | exact (show memsOk x.awaitAcks.s.mems by rw [Cx.awaitAcks_mems]; exact h) | exact h
    | fault s t => rw [hp] at h; exact h

theorem execWaitv_keeps (h : Hdr) (ne : Bool) (lvl : Level) (t : ITy) (d : BitVec 12) (base : VS) (src : WaitSrc) (s : State) {u : State} (hm : memsOk s.mems) (e : execWaitv h ne lvl t d base src s = .next u) :
    memsOk u.mems := by
  unfold execWaitv at e
  (try dsimp only at e)
  (repeat' split at e) <;> refine issue_keeps hm (fun c act hc => ?_) e
  all_goals
    clear e hm
    (repeat' (first | assumption | with_reducible refine onPath_keeps _ _ _ _ (by assumption) (fun c hc => ?_) | with_reducible refine Cx.readLanes_keeps _ _ _ _ _ _ _ _ (by assumption) (fun c g hc => ?_) | with_reducible refine Cx.edge_keeps _ _ _ _ (by assumption) (fun c d hc => ?_) | with_reducible refine Cx.edgeLine_keeps _ _ _ _ (by assumption) (fun c d hc => ?_) | with_reducible refine onFrame_keeps _ _ _ (by assumption) (fun f => ?_) | with_reducible refine onEngine_keeps _ _ _ (by assumption) ?_ | with_reducible refine Cx.onQueue_keeps _ _ _ (by assumption) (fun x => ?_) | with_reducible refine Cx.arrival_keeps _ _ _ _ _ (by assumption) (fun b t => ?_) | with_reducible refine Cx.awaitLine_keeps _ _ _ ?_ | with_reducible exact tileBody_keeps _ _ _ _ _ _ _ hc | with_reducible exact copyBody_keeps _ _ _ _ _ _ _ _ hc | with_reducible exact drainBody_keeps _ _ _ _ _ _ _ _ _ _ hc | with_reducible refine waitvPoll_keeps _ _ _ _ _ _ _ _ _ _ ?_ | split | dsimp only))
  all_goals (try grind [= mk_mems, = mems_fold])

theorem Cx.atomAll_keeps (c : Cx) (lvl : Level) (n : Nat) (ptr : Nat → DWord) (f : Nat → Nat → Option Nat × Flags) (x1 : List Nat) (x2 : List (Nat × Nat)) (x3 : Flags) (hm : memsOk c.s.mems) :
    memsOk (Cx.atomAll c lvl n ptr f x1 x2 x3).1.s.mems := by
  induction x1 generalizing c x2 x3 with
  | nil => exact hm
  | cons l ls ih =>
    unfold Cx.atomAll
    exact ih _ _ _ (Cx.atomStep_keeps _ _ _ _ _ hm)

grind_pattern Cx.atomAll_keeps => Cx.atomAll c lvl n ptr f x1 x2 x3

theorem execAtom_keeps (h : Hdr) (op : AtomOp) (lvl : Level) (t : ETy) (d : BitVec 12) (base : VS) (b : VS) (cmp : Option VS) (disp : BitVec 32) (s : State) {u : State} (hm : memsOk s.mems) (e : execAtom h op lvl t d base b cmp disp s = .next u) :
    memsOk u.mems := by
  unfold execAtom at e
  dsimp only at e
  refine issue_keeps hm (fun c act hc => ?_) e
  refine onPath_keeps _ _ _ _ hc (fun c hc => ?_)
  (try dsimp only)
  cases misaligned act (c.based base disp.toInt) t.bytes with
  | some tr => exact hc
  | none =>
    have hr := State.atomLines_keeps c.s c.ctx (lvl == .b || lvl == .g) (hostDoes op t) (lineNeeds (c.based base disp.toInt) t.bytes (lanesOf act) []) [] hc
    revert hr
    generalize State.atomLines c.s c.ctx _ _ _ [] = r
    intro hr
    cases r.2.fault act (c.based base disp.toInt) d.toNat with
    | some tr => exact hr
    | none =>
      (try dsimp only)
      cases r.2.away with
      | some l =>
        (try dsimp only)
        split
        · exact Cx.awaitLine_keeps _ _ _ hr
        · exact hr
      | none =>
        (try dsimp only)
        split
        · exact hr
        · split
          · exact hr
          · split
            · exact hr
            · show memsOk (Cx.awaitAcks _).s.mems
              rw [Cx.awaitAcks_mems]
              refine foldl_ok (fun s y h => by rw [State.dropL1_mems]; exact h) _ _ (Cx.atomAll_keeps _ _ _ _ _ _ _ _ hr)

theorem State.unsettleSeg_mems (s : State) (w : WaveRef) (core : Nat) (seg : Nat) (old : Nat) (bytes : List (Nat × Nat)) :
    (State.unsettleSeg s w core seg old bytes).mems = s.mems := by
  unfold State.unsettleSeg
  dsimp only
  refine foldl_mems (fun s p => ?_) _ _
  split <;> rfl

theorem State.stbRace_mems (s : State) (w : WaveRef) (core : Nat) (seg : Nat) (old : Nat) (bytes : List (Nat × Nat)) :
    (State.stbRace s w core seg old bytes).1.mems = s.mems := by
  unfold State.stbRace
  split
  · refine foldl_mems1 (fun x p => ?_) _ (s, bytes)
    exact State.draw_mems x.1 64
  · rfl

theorem execStb_keeps (h : Hdr) (t : ETy) (off : VS) (queue : Bool) (sym : BitVec 8) (disp : BitVec 32) (data : BitVec 12) (s : State) {u : State} (hm : memsOk s.mems) (e : execStb h t off queue sym disp data s = .next u) :
    memsOk u.mems := by
  unfold execStb at e
  refine issue_keeps hm (fun c act hc => ?_) e
  refine onPath_keeps _ _ _ _ hc (fun c hc => ?_)
  cases c.scTrap queue sym.toNat act (c.scOff off disp) t.bytes with
  | some tr => exact hc
  | none =>
    (try dsimp only)
    split
    · exact hc
    · refine foldl_ok (fun s x h => ?_) _ _ (by rw [State.tick_mems]; exact hc)
      (try dsimp only)
      rw [State.unsettleSeg_mems, State.putSeg_mems, State.stbRace_mems]
      exact h

theorem State.readSegs_mems (s : State) (me : WaveRef) (core : Nat) (segs : List Nat) :
    (State.readSegs s me core segs).1.mems = s.mems := by
  unfold State.readSegs
  refine foldl_mems1 (fun x n => ?_) _ (s, [])
  exact State.readSeg_mems _ _ _ _ _

theorem execLdb_keeps (h : Hdr) (t : ETy) (d : BitVec 12) (off : VS) (queue : Bool) (sym : BitVec 8) (disp : BitVec 32) (s : State) {u : State} (hm : memsOk s.mems) (e : execLdb h t d off queue sym disp s = .next u) :
    memsOk u.mems := by
  unfold execLdb at e
  (try dsimp only at e)
  (repeat' split at e) <;> refine issue_keeps hm (fun c act hc => ?_) e
  all_goals
    clear e hm
    (repeat' (first | assumption | with_reducible refine onPath_keeps _ _ _ _ (by assumption) (fun c hc => ?_) | with_reducible refine Cx.readLanes_keeps _ _ _ _ _ _ _ _ (by assumption) (fun c g hc => ?_) | with_reducible refine Cx.edge_keeps _ _ _ _ (by assumption) (fun c d hc => ?_) | with_reducible refine Cx.edgeLine_keeps _ _ _ _ (by assumption) (fun c d hc => ?_) | with_reducible refine onFrame_keeps _ _ _ (by assumption) (fun f => ?_) | with_reducible refine onEngine_keeps _ _ _ (by assumption) ?_ | with_reducible refine Cx.onQueue_keeps _ _ _ (by assumption) (fun x => ?_) | with_reducible refine Cx.arrival_keeps _ _ _ _ _ (by assumption) (fun b t => ?_) | with_reducible refine Cx.awaitLine_keeps _ _ _ ?_ | with_reducible exact tileBody_keeps _ _ _ _ _ _ _ hc | with_reducible exact copyBody_keeps _ _ _ _ _ _ _ _ hc | with_reducible exact drainBody_keeps _ _ _ _ _ _ _ _ _ _ hc | with_reducible refine waitvPoll_keeps _ _ _ _ _ _ _ _ _ _ ?_ | split | dsimp only))
  all_goals (try grind [= mk_mems, = mems_fold, = State.readSegs_mems, Res.All])

theorem Cx.storeLines_mems (c : Cx) (data : Nat → LineData) (x1 : List (Nat × ByteMask)) (x2 : List Nat) :
    (Cx.storeLines c data x1 x2).1.s.mems = c.s.mems := by
  induction x1 generalizing c x2 with
  | nil => rfl
  | cons p rest ih =>
    obtain ⟨line, m⟩ := p
    unfold Cx.storeLines
    split
    · rw [ih, Cx.setWv_mems]
    · split
      · exact ih _ _
      · dsimp only; rw [ih, Cx.setWv_mems, Cx.l1Make_mems]

theorem State.checkLines_keeps (s : State) (c : Ctx) (acc : Access) (x1 : List (Nat × ByteMask)) (x2 : Got) (hm : memsOk s.mems) :
    memsOk (State.checkLines s c acc x1 x2).1.mems := by
  induction x1 generalizing s x2 with
  | nil => exact hm
  | cons p rest ih =>
    obtain ⟨line, m⟩ := p
    unfold State.checkLines
    have h := State.ensure_keeps s c line acc hm
    split <;> (next he => rw [he] at h; exact ih _ _ h)

grind_pattern State.checkLines_keeps => State.checkLines s c acc x1 x2

theorem execSt_keeps (h : Hdr) (t : ETy) (a : Addr) (data : BitVec 12) (s : State) {u : State} (hm : memsOk s.mems) (e : execSt h t a data s = .next u) :
    memsOk u.mems := by
  unfold execSt at e
  (try dsimp only at e)
  (repeat' split at e) <;> refine issue_keeps hm (fun c act hc => ?_) e
  all_goals
    clear e hm
    (repeat' (first | assumption | with_reducible refine onPath_keeps _ _ _ _ (by assumption) (fun c hc => ?_) | with_reducible refine Cx.readLanes_keeps _ _ _ _ _ _ _ _ (by assumption) (fun c g hc => ?_) | with_reducible refine Cx.edge_keeps _ _ _ _ (by assumption) (fun c d hc => ?_) | with_reducible refine Cx.edgeLine_keeps _ _ _ _ (by assumption) (fun c d hc => ?_) | with_reducible refine onFrame_keeps _ _ _ (by assumption) (fun f => ?_) | with_reducible refine onEngine_keeps _ _ _ (by assumption) ?_ | with_reducible refine Cx.onQueue_keeps _ _ _ (by assumption) (fun x => ?_) | with_reducible refine Cx.arrival_keeps _ _ _ _ _ (by assumption) (fun b t => ?_) | with_reducible refine Cx.awaitLine_keeps _ _ _ ?_ | with_reducible exact tileBody_keeps _ _ _ _ _ _ _ hc | with_reducible exact copyBody_keeps _ _ _ _ _ _ _ _ hc | with_reducible exact drainBody_keeps _ _ _ _ _ _ _ _ _ _ hc | with_reducible refine waitvPoll_keeps _ _ _ _ _ _ _ _ _ _ ?_ | split | dsimp only))
  all_goals (try grind [= mk_mems, = mems_fold, = Cx.storeLines_mems, Res.All])

theorem execLd_keeps (h : Hdr) (t : ETy) (o : OpsLd) (s : State) {u : State} (hm : memsOk s.mems) (e : execLd h t o s = .next u) :
    memsOk u.mems := by
  unfold execLd at e
  (try dsimp only at e)
  (repeat' split at e) <;> refine issue_keeps hm (fun c act hc => ?_) e
  all_goals
    clear e hm
    (repeat' (first | assumption | with_reducible refine onPath_keeps _ _ _ _ (by assumption) (fun c hc => ?_) | with_reducible refine Cx.readLanes_keeps _ _ _ _ _ _ _ _ (by assumption) (fun c g hc => ?_) | with_reducible refine Cx.edge_keeps _ _ _ _ (by assumption) (fun c d hc => ?_) | with_reducible refine Cx.edgeLine_keeps _ _ _ _ (by assumption) (fun c d hc => ?_) | with_reducible refine onFrame_keeps _ _ _ (by assumption) (fun f => ?_) | with_reducible refine onEngine_keeps _ _ _ (by assumption) ?_ | with_reducible refine Cx.onQueue_keeps _ _ _ (by assumption) (fun x => ?_) | with_reducible refine Cx.arrival_keeps _ _ _ _ _ (by assumption) (fun b t => ?_) | with_reducible refine Cx.awaitLine_keeps _ _ _ ?_ | with_reducible exact tileBody_keeps _ _ _ _ _ _ _ hc | with_reducible exact copyBody_keeps _ _ _ _ _ _ _ _ hc | with_reducible exact drainBody_keeps _ _ _ _ _ _ _ _ _ _ hc | with_reducible refine waitvPoll_keeps _ _ _ _ _ _ _ _ _ _ ?_ | split | dsimp only))
  all_goals (try grind [= mk_mems, = mems_fold, Res.All])

theorem execPatan_keeps (h : Hdr) (p : PTy) (f : FTy) (d : BitVec 12) (y : BitVec 12) (x : BitVec 12) (s : State) {u : State} (hm : memsOk s.mems) (e : execPatan h p f d y x s = .next u) :
    memsOk u.mems := by
  unfold execPatan at e
  (try dsimp only at e)
  (repeat' split at e) <;> refine issue_keeps hm (fun c act hc => ?_) e
  all_goals
    clear e hm
    (repeat' (first | assumption | with_reducible refine onPath_keeps _ _ _ _ (by assumption) (fun c hc => ?_) | with_reducible refine Cx.readLanes_keeps _ _ _ _ _ _ _ _ (by assumption) (fun c g hc => ?_) | with_reducible refine Cx.edge_keeps _ _ _ _ (by assumption) (fun c d hc => ?_) | with_reducible refine Cx.edgeLine_keeps _ _ _ _ (by assumption) (fun c d hc => ?_) | with_reducible refine onFrame_keeps _ _ _ (by assumption) (fun f => ?_) | with_reducible refine onEngine_keeps _ _ _ (by assumption) ?_ | with_reducible refine Cx.onQueue_keeps _ _ _ (by assumption) (fun x => ?_) | with_reducible refine Cx.arrival_keeps _ _ _ _ _ (by assumption) (fun b t => ?_) | with_reducible refine Cx.awaitLine_keeps _ _ _ ?_ | with_reducible exact tileBody_keeps _ _ _ _ _ _ _ hc | with_reducible exact copyBody_keeps _ _ _ _ _ _ _ _ hc | with_reducible exact drainBody_keeps _ _ _ _ _ _ _ _ _ _ hc | with_reducible refine waitvPoll_keeps _ _ _ _ _ _ _ _ _ _ ?_ | split | dsimp only))
  all_goals (try grind [= mk_mems, = mems_fold, Res.All])

theorem execPfromf_keeps (h : Hdr) (p : PTy) (f : FTy) (d : BitVec 12) (a : BitVec 12) (s : State) {u : State} (hm : memsOk s.mems) (e : execPfromf h p f d a s = .next u) :
    memsOk u.mems := by
  unfold execPfromf at e
  (try dsimp only at e)
  (repeat' split at e) <;> refine issue_keeps hm (fun c act hc => ?_) e
  all_goals
    clear e hm
    (repeat' (first | assumption | with_reducible refine onPath_keeps _ _ _ _ (by assumption) (fun c hc => ?_) | with_reducible refine Cx.readLanes_keeps _ _ _ _ _ _ _ _ (by assumption) (fun c g hc => ?_) | with_reducible refine Cx.edge_keeps _ _ _ _ (by assumption) (fun c d hc => ?_) | with_reducible refine Cx.edgeLine_keeps _ _ _ _ (by assumption) (fun c d hc => ?_) | with_reducible refine onFrame_keeps _ _ _ (by assumption) (fun f => ?_) | with_reducible refine onEngine_keeps _ _ _ (by assumption) ?_ | with_reducible refine Cx.onQueue_keeps _ _ _ (by assumption) (fun x => ?_) | with_reducible refine Cx.arrival_keeps _ _ _ _ _ (by assumption) (fun b t => ?_) | with_reducible refine Cx.awaitLine_keeps _ _ _ ?_ | with_reducible exact tileBody_keeps _ _ _ _ _ _ _ hc | with_reducible exact copyBody_keeps _ _ _ _ _ _ _ _ hc | with_reducible exact drainBody_keeps _ _ _ _ _ _ _ _ _ _ hc | with_reducible refine waitvPoll_keeps _ _ _ _ _ _ _ _ _ _ ?_ | split | dsimp only))
  all_goals (try grind [= mk_mems, = mems_fold, Res.All])

theorem execPvec_keeps (h : Hdr) (md : Rm) (fz : Bool) (f : FTy) (p : PTy) (d : BitVec 12) (a : BitVec 12) (s : State) {u : State} (hm : memsOk s.mems) (e : execPvec h md fz f p d a s = .next u) :
    memsOk u.mems := by
  unfold execPvec at e
  (try dsimp only at e)
  (repeat' split at e) <;> refine issue_keeps hm (fun c act hc => ?_) e
  all_goals
    clear e hm
    (repeat' (first | assumption | with_reducible refine onPath_keeps _ _ _ _ (by assumption) (fun c hc => ?_) | with_reducible refine Cx.readLanes_keeps _ _ _ _ _ _ _ _ (by assumption) (fun c g hc => ?_) | with_reducible refine Cx.edge_keeps _ _ _ _ (by assumption) (fun c d hc => ?_) | with_reducible refine Cx.edgeLine_keeps _ _ _ _ (by assumption) (fun c d hc => ?_) | with_reducible refine onFrame_keeps _ _ _ (by assumption) (fun f => ?_) | with_reducible refine onEngine_keeps _ _ _ (by assumption) ?_ | with_reducible refine Cx.onQueue_keeps _ _ _ (by assumption) (fun x => ?_) | with_reducible refine Cx.arrival_keeps _ _ _ _ _ (by assumption) (fun b t => ?_) | with_reducible refine Cx.awaitLine_keeps _ _ _ ?_ | with_reducible exact tileBody_keeps _ _ _ _ _ _ _ hc | with_reducible exact copyBody_keeps _ _ _ _ _ _ _ _ hc | with_reducible exact drainBody_keeps _ _ _ _ _ _ _ _ _ _ hc | with_reducible refine waitvPoll_keeps _ _ _ _ _ _ _ _ _ _ ?_ | split | dsimp only))
  all_goals (try grind [= mk_mems, = mems_fold, Res.All])

theorem phasor1_keeps (h : Hdr) (md : Rm) (fz : Bool) (f : FTy) (p : PTy) (d : BitVec 12) (a : BitVec 12) (fn : Nat) (val : Nat → Nat → FVal) (s : State) {u : State} (hm : memsOk s.mems) (e : phasor1 h md fz f p d a fn val s = .next u) :
    memsOk u.mems := by
  unfold phasor1 at e
  (try dsimp only at e)
  (repeat' split at e) <;> refine issue_keeps hm (fun c act hc => ?_) e
  all_goals
    clear e hm
    (repeat' (first | assumption | with_reducible refine onPath_keeps _ _ _ _ (by assumption) (fun c hc => ?_) | with_reducible refine Cx.readLanes_keeps _ _ _ _ _ _ _ _ (by assumption) (fun c g hc => ?_) | with_reducible refine Cx.edge_keeps _ _ _ _ (by assumption) (fun c d hc => ?_) | with_reducible refine Cx.edgeLine_keeps _ _ _ _ (by assumption) (fun c d hc => ?_) | with_reducible refine onFrame_keeps _ _ _ (by assumption) (fun f => ?_) | with_reducible refine onEngine_keeps _ _ _ (by assumption) ?_ | with_reducible refine Cx.onQueue_keeps _ _ _ (by assumption) (fun x => ?_) | with_reducible refine Cx.arrival_keeps _ _ _ _ _ (by assumption) (fun b t => ?_) | with_reducible refine Cx.awaitLine_keeps _ _ _ ?_ | with_reducible exact tileBody_keeps _ _ _ _ _ _ _ hc | with_reducible exact copyBody_keeps _ _ _ _ _ _ _ _ hc | with_reducible exact drainBody_keeps _ _ _ _ _ _ _ _ _ _ hc | with_reducible refine waitvPoll_keeps _ _ _ _ _ _ _ _ _ _ ?_ | split | dsimp only))
  all_goals (try grind [= mk_mems, = mems_fold, Res.All])

theorem execPsin_keeps (h : Hdr) (md : Rm) (fz : Bool) (f : FTy) (p : PTy) (d : BitVec 12) (a : BitVec 12) (s : State) {u : State} (hm : memsOk s.mems) (e : execPsin h md fz f p d a s = .next u) :
    memsOk u.mems := by
  unfold execPsin at e
  (repeat' split at e) <;> grind [= mk_mems, = mems_fold, → phasor1_keeps]

theorem execPcos_keeps (h : Hdr) (md : Rm) (fz : Bool) (f : FTy) (p : PTy) (d : BitVec 12) (a : BitVec 12) (s : State) {u : State} (hm : memsOk s.mems) (e : execPcos h md fz f p d a s = .next u) :
    memsOk u.mems := by
  unfold execPcos at e
  (repeat' split at e) <;> grind [= mk_mems, = mems_fold, → phasor1_keeps]

theorem execPtof_keeps (h : Hdr) (md : Rm) (fz : Bool) (f : FTy) (p : PTy) (d : BitVec 12) (a : BitVec 12) (s : State) {u : State} (hm : memsOk s.mems) (e : execPtof h md fz f p d a s = .next u) :
    memsOk u.mems := by
  unfold execPtof at e
  (repeat' split at e) <;> grind [= mk_mems, = mems_fold, → phasor1_keeps]

theorem execPred_keeps (h : Hdr) (p : PTy) (d : BitVec 12) (a : BitVec 12) (s : State) {u : State} (hm : memsOk s.mems) (e : execPred h p d a s = .next u) :
    memsOk u.mems := by
  unfold execPred at e
  (try dsimp only at e)
  (repeat' split at e) <;> refine issue_keeps hm (fun c act hc => ?_) e
  all_goals
    clear e hm
    (repeat' (first | assumption | with_reducible refine onPath_keeps _ _ _ _ (by assumption) (fun c hc => ?_) | with_reducible refine Cx.readLanes_keeps _ _ _ _ _ _ _ _ (by assumption) (fun c g hc => ?_) | with_reducible refine Cx.edge_keeps _ _ _ _ (by assumption) (fun c d hc => ?_) | with_reducible refine Cx.edgeLine_keeps _ _ _ _ (by assumption) (fun c d hc => ?_) | with_reducible refine onFrame_keeps _ _ _ (by assumption) (fun f => ?_) | with_reducible refine onEngine_keeps _ _ _ (by assumption) ?_ | with_reducible refine Cx.onQueue_keeps _ _ _ (by assumption) (fun x => ?_) | with_reducible refine Cx.arrival_keeps _ _ _ _ _ (by assumption) (fun b t => ?_) | with_reducible refine Cx.awaitLine_keeps _ _ _ ?_ | with_reducible exact tileBody_keeps _ _ _ _ _ _ _ hc | with_reducible exact copyBody_keeps _ _ _ _ _ _ _ _ hc | with_reducible exact drainBody_keeps _ _ _ _ _ _ _ _ _ _ hc | with_reducible refine waitvPoll_keeps _ _ _ _ _ _ _ _ _ _ ?_ | split | dsimp only))
  all_goals (try grind [= mk_mems, = mems_fold, Res.All])

theorem execPcvt_keeps (h : Hdr) (pm : PTy) (pn : PTy) (d : BitVec 12) (a : BitVec 12) (s : State) {u : State} (hm : memsOk s.mems) (e : execPcvt h pm pn d a s = .next u) :
    memsOk u.mems := by
  unfold execPcvt at e
  (try dsimp only at e)
  (repeat' split at e) <;> refine issue_keeps hm (fun c act hc => ?_) e
  all_goals
    clear e hm
    (repeat' (first | assumption | with_reducible refine onPath_keeps _ _ _ _ (by assumption) (fun c hc => ?_) | with_reducible refine Cx.readLanes_keeps _ _ _ _ _ _ _ _ (by assumption) (fun c g hc => ?_) | with_reducible refine Cx.edge_keeps _ _ _ _ (by assumption) (fun c d hc => ?_) | with_reducible refine Cx.edgeLine_keeps _ _ _ _ (by assumption) (fun c d hc => ?_) | with_reducible refine onFrame_keeps _ _ _ (by assumption) (fun f => ?_) | with_reducible refine onEngine_keeps _ _ _ (by assumption) ?_ | with_reducible refine Cx.onQueue_keeps _ _ _ (by assumption) (fun x => ?_) | with_reducible refine Cx.arrival_keeps _ _ _ _ _ (by assumption) (fun b t => ?_) | with_reducible refine Cx.awaitLine_keeps _ _ _ ?_ | with_reducible exact tileBody_keeps _ _ _ _ _ _ _ hc | with_reducible exact copyBody_keeps _ _ _ _ _ _ _ _ hc | with_reducible exact drainBody_keeps _ _ _ _ _ _ _ _ _ _ hc | with_reducible refine waitvPoll_keeps _ _ _ _ _ _ _ _ _ _ ?_ | split | dsimp only))
  all_goals (try grind [= mk_mems, = mems_fold, Res.All])

theorem execPdef_keeps (h : Hdr) (p : PTy) (pd : BitVec 3) (a : BitVec 12) (s : State) {u : State} (hm : memsOk s.mems) (e : execPdef h p pd a s = .next u) :
    memsOk u.mems := by
  unfold execPdef at e
  (try dsimp only at e)
  (repeat' split at e) <;> refine issue_keeps hm (fun c act hc => ?_) e
  all_goals
    clear e hm
    (repeat' (first | assumption | with_reducible refine onPath_keeps _ _ _ _ (by assumption) (fun c hc => ?_) | with_reducible refine Cx.readLanes_keeps _ _ _ _ _ _ _ _ (by assumption) (fun c g hc => ?_) | with_reducible refine Cx.edge_keeps _ _ _ _ (by assumption) (fun c d hc => ?_) | with_reducible refine Cx.edgeLine_keeps _ _ _ _ (by assumption) (fun c d hc => ?_) | with_reducible refine onFrame_keeps _ _ _ (by assumption) (fun f => ?_) | with_reducible refine onEngine_keeps _ _ _ (by assumption) ?_ | with_reducible refine Cx.onQueue_keeps _ _ _ (by assumption) (fun x => ?_) | with_reducible refine Cx.arrival_keeps _ _ _ _ _ (by assumption) (fun b t => ?_) | with_reducible refine Cx.awaitLine_keeps _ _ _ ?_ | with_reducible exact tileBody_keeps _ _ _ _ _ _ _ hc | with_reducible exact copyBody_keeps _ _ _ _ _ _ _ _ hc | with_reducible exact drainBody_keeps _ _ _ _ _ _ _ _ _ _ hc | with_reducible refine waitvPoll_keeps _ _ _ _ _ _ _ _ _ _ ?_ | split | dsimp only))
  all_goals (try grind [= mk_mems, = mems_fold, Res.All])

theorem execPconj_keeps (h : Hdr) (p : PTy) (x2 : Bool) (d : BitVec 12) (a : BitVec 12) (s : State) {u : State} (hm : memsOk s.mems) (e : execPconj h p x2 d a s = .next u) :
    memsOk u.mems := by
  unfold execPconj at e
  (try dsimp only at e)
  (repeat' split at e) <;> refine issue_keeps hm (fun c act hc => ?_) e
  all_goals
    clear e hm
    (repeat' (first | assumption | with_reducible refine onPath_keeps _ _ _ _ (by assumption) (fun c hc => ?_) | with_reducible refine Cx.readLanes_keeps _ _ _ _ _ _ _ _ (by assumption) (fun c g hc => ?_) | with_reducible refine Cx.edge_keeps _ _ _ _ (by assumption) (fun c d hc => ?_) | with_reducible refine Cx.edgeLine_keeps _ _ _ _ (by assumption) (fun c d hc => ?_) | with_reducible refine onFrame_keeps _ _ _ (by assumption) (fun f => ?_) | with_reducible refine onEngine_keeps _ _ _ (by assumption) ?_ | with_reducible refine Cx.onQueue_keeps _ _ _ (by assumption) (fun x => ?_) | with_reducible refine Cx.arrival_keeps _ _ _ _ _ (by assumption) (fun b t => ?_) | with_reducible refine Cx.awaitLine_keeps _ _ _ ?_ | with_reducible exact tileBody_keeps _ _ _ _ _ _ _ hc | with_reducible exact copyBody_keeps _ _ _ _ _ _ _ _ hc | with_reducible exact drainBody_keeps _ _ _ _ _ _ _ _ _ _ hc | with_reducible refine waitvPoll_keeps _ _ _ _ _ _ _ _ _ _ ?_ | split | dsimp only))
  all_goals (try grind [= mk_mems, = mems_fold, Res.All])

theorem execPcmp_keeps (h : Hdr) (p : PTy) (cc : PCond) (pd : BitVec 3) (o : OpsC) (s : State) {u : State} (hm : memsOk s.mems) (e : execPcmp h p cc pd o s = .next u) :
    memsOk u.mems := by
  unfold execPcmp at e
  (try dsimp only at e)
  (repeat' split at e) <;> refine issue_keeps hm (fun c act hc => ?_) e
  all_goals
    clear e hm
    (repeat' (first | assumption | with_reducible refine onPath_keeps _ _ _ _ (by assumption) (fun c hc => ?_) | with_reducible refine Cx.readLanes_keeps _ _ _ _ _ _ _ _ (by assumption) (fun c g hc => ?_) | with_reducible refine Cx.edge_keeps _ _ _ _ (by assumption) (fun c d hc => ?_) | with_reducible refine Cx.edgeLine_keeps _ _ _ _ (by assumption) (fun c d hc => ?_) | with_reducible refine onFrame_keeps _ _ _ (by assumption) (fun f => ?_) | with_reducible refine onEngine_keeps _ _ _ (by assumption) ?_ | with_reducible refine Cx.onQueue_keeps _ _ _ (by assumption) (fun x => ?_) | with_reducible refine Cx.arrival_keeps _ _ _ _ _ (by assumption) (fun b t => ?_) | with_reducible refine Cx.awaitLine_keeps _ _ _ ?_ | with_reducible exact tileBody_keeps _ _ _ _ _ _ _ hc | with_reducible exact copyBody_keeps _ _ _ _ _ _ _ _ hc | with_reducible exact drainBody_keeps _ _ _ _ _ _ _ _ _ _ hc | with_reducible refine waitvPoll_keeps _ _ _ _ _ _ _ _ _ _ ?_ | split | dsimp only))
  all_goals (try grind [= mk_mems, = mems_fold, Res.All])

theorem execPpow_keeps (h : Hdr) (p : PTy) (x2 : Bool) (o : Ops2) (s : State) {u : State} (hm : memsOk s.mems) (e : execPpow h p x2 o s = .next u) :
    memsOk u.mems := by
  unfold execPpow at e
  (try dsimp only at e)
  (repeat' split at e) <;> refine issue_keeps hm (fun c act hc => ?_) e
  all_goals
    clear e hm
    (repeat' (first | assumption | with_reducible refine onPath_keeps _ _ _ _ (by assumption) (fun c hc => ?_) | with_reducible refine Cx.readLanes_keeps _ _ _ _ _ _ _ _ (by assumption) (fun c g hc => ?_) | with_reducible refine Cx.edge_keeps _ _ _ _ (by assumption) (fun c d hc => ?_) | with_reducible refine Cx.edgeLine_keeps _ _ _ _ (by assumption) (fun c d hc => ?_) | with_reducible refine onFrame_keeps _ _ _ (by assumption) (fun f => ?_) | with_reducible refine onEngine_keeps _ _ _ (by assumption) ?_ | with_reducible refine Cx.onQueue_keeps _ _ _ (by assumption) (fun x => ?_) | with_reducible refine Cx.arrival_keeps _ _ _ _ _ (by assumption) (fun b t => ?_) | with_reducible refine Cx.awaitLine_keeps _ _ _ ?_ | with_reducible exact tileBody_keeps _ _ _ _ _ _ _ hc | with_reducible exact copyBody_keeps _ _ _ _ _ _ _ _ hc | with_reducible exact drainBody_keeps _ _ _ _ _ _ _ _ _ _ hc | with_reducible refine waitvPoll_keeps _ _ _ _ _ _ _ _ _ _ ?_ | split | dsimp only))
  all_goals (try grind [= mk_mems, = mems_fold, Res.All])

theorem execPmul_keeps (h : Hdr) (p : PTy) (x2 : Bool) (o : Ops2) (s : State) {u : State} (hm : memsOk s.mems) (e : execPmul h p x2 o s = .next u) :
    memsOk u.mems := by
  unfold execPmul at e
  (try dsimp only at e)
  (repeat' split at e) <;> refine issue_keeps hm (fun c act hc => ?_) e
  all_goals
    clear e hm
    (repeat' (first | assumption | with_reducible refine onPath_keeps _ _ _ _ (by assumption) (fun c hc => ?_) | with_reducible refine Cx.readLanes_keeps _ _ _ _ _ _ _ _ (by assumption) (fun c g hc => ?_) | with_reducible refine Cx.edge_keeps _ _ _ _ (by assumption) (fun c d hc => ?_) | with_reducible refine Cx.edgeLine_keeps _ _ _ _ (by assumption) (fun c d hc => ?_) | with_reducible refine onFrame_keeps _ _ _ (by assumption) (fun f => ?_) | with_reducible refine onEngine_keeps _ _ _ (by assumption) ?_ | with_reducible refine Cx.onQueue_keeps _ _ _ (by assumption) (fun x => ?_) | with_reducible refine Cx.arrival_keeps _ _ _ _ _ (by assumption) (fun b t => ?_) | with_reducible refine Cx.awaitLine_keeps _ _ _ ?_ | with_reducible exact tileBody_keeps _ _ _ _ _ _ _ hc | with_reducible exact copyBody_keeps _ _ _ _ _ _ _ _ hc | with_reducible exact drainBody_keeps _ _ _ _ _ _ _ _ _ _ hc | with_reducible refine waitvPoll_keeps _ _ _ _ _ _ _ _ _ _ ?_ | split | dsimp only))
  all_goals (try grind [= mk_mems, = mems_fold, Res.All])

theorem execNunpk_keeps (h : Hdr) (d : BitVec 12) (a : BitVec 12) (hn : BitVec 8) (pos : BitVec 5) (sc : Option (BitVec 8)) (s : State) {u : State} (hm : memsOk s.mems) (e : execNunpk h d a hn pos sc s = .next u) :
    memsOk u.mems := by
  unfold execNunpk at e
  (try dsimp only at e)
  (repeat' split at e) <;> refine issue_keeps hm (fun c act hc => ?_) e
  all_goals
    clear e hm
    (repeat' (first | assumption | with_reducible refine onPath_keeps _ _ _ _ (by assumption) (fun c hc => ?_) | with_reducible refine Cx.readLanes_keeps _ _ _ _ _ _ _ _ (by assumption) (fun c g hc => ?_) | with_reducible refine Cx.edge_keeps _ _ _ _ (by assumption) (fun c d hc => ?_) | with_reducible refine Cx.edgeLine_keeps _ _ _ _ (by assumption) (fun c d hc => ?_) | with_reducible refine onFrame_keeps _ _ _ (by assumption) (fun f => ?_) | with_reducible refine onEngine_keeps _ _ _ (by assumption) ?_ | with_reducible refine Cx.onQueue_keeps _ _ _ (by assumption) (fun x => ?_) | with_reducible refine Cx.arrival_keeps _ _ _ _ _ (by assumption) (fun b t => ?_) | with_reducible refine Cx.awaitLine_keeps _ _ _ ?_ | with_reducible exact tileBody_keeps _ _ _ _ _ _ _ hc | with_reducible exact copyBody_keeps _ _ _ _ _ _ _ _ hc | with_reducible exact drainBody_keeps _ _ _ _ _ _ _ _ _ _ hc | with_reducible refine waitvPoll_keeps _ _ _ _ _ _ _ _ _ _ ?_ | split | dsimp only))
  all_goals (try grind [= mk_mems, = mems_fold, Res.All])

theorem execNpack_keeps (h : Hdr) (md : Rm) (fz : Bool) (d : BitVec 12) (a : BitVec 12) (hn : BitVec 8) (pos : BitVec 5) (sc : Option (BitVec 8)) (s : State) {u : State} (hm : memsOk s.mems) (e : execNpack h md fz d a hn pos sc s = .next u) :
    memsOk u.mems := by
  unfold execNpack at e
  (try dsimp only at e)
  (repeat' split at e) <;> refine issue_keeps hm (fun c act hc => ?_) e
  all_goals
    clear e hm
    (repeat' (first | assumption | with_reducible refine onPath_keeps _ _ _ _ (by assumption) (fun c hc => ?_) | with_reducible refine Cx.readLanes_keeps _ _ _ _ _ _ _ _ (by assumption) (fun c g hc => ?_) | with_reducible refine Cx.edge_keeps _ _ _ _ (by assumption) (fun c d hc => ?_) | with_reducible refine Cx.edgeLine_keeps _ _ _ _ (by assumption) (fun c d hc => ?_) | with_reducible refine onFrame_keeps _ _ _ (by assumption) (fun f => ?_) | with_reducible refine onEngine_keeps _ _ _ (by assumption) ?_ | with_reducible refine Cx.onQueue_keeps _ _ _ (by assumption) (fun x => ?_) | with_reducible refine Cx.arrival_keeps _ _ _ _ _ (by assumption) (fun b t => ?_) | with_reducible refine Cx.awaitLine_keeps _ _ _ ?_ | with_reducible exact tileBody_keeps _ _ _ _ _ _ _ hc | with_reducible exact copyBody_keeps _ _ _ _ _ _ _ _ hc | with_reducible exact drainBody_keeps _ _ _ _ _ _ _ _ _ _ hc | with_reducible refine waitvPoll_keeps _ _ _ _ _ _ _ _ _ _ ?_ | split | dsimp only))
  all_goals (try grind [= mk_mems, = mems_fold, Res.All])

theorem execCvtif_keeps (h : Hdr) (fd : FTy) (t : ITy) (md : Rm) (o : OpsCv) (s : State) {u : State} (hm : memsOk s.mems) (e : execCvtif h fd t md o s = .next u) :
    memsOk u.mems := by
  unfold execCvtif at e
  (try dsimp only at e)
  (repeat' split at e) <;> refine issue_keeps hm (fun c act hc => ?_) e
  all_goals
    clear e hm
    (repeat' (first | assumption | with_reducible refine onPath_keeps _ _ _ _ (by assumption) (fun c hc => ?_) | with_reducible refine Cx.readLanes_keeps _ _ _ _ _ _ _ _ (by assumption) (fun c g hc => ?_) | with_reducible refine Cx.edge_keeps _ _ _ _ (by assumption) (fun c d hc => ?_) | with_reducible refine Cx.edgeLine_keeps _ _ _ _ (by assumption) (fun c d hc => ?_) | with_reducible refine onFrame_keeps _ _ _ (by assumption) (fun f => ?_) | with_reducible refine onEngine_keeps _ _ _ (by assumption) ?_ | with_reducible refine Cx.onQueue_keeps _ _ _ (by assumption) (fun x => ?_) | with_reducible refine Cx.arrival_keeps _ _ _ _ _ (by assumption) (fun b t => ?_) | with_reducible refine Cx.awaitLine_keeps _ _ _ ?_ | with_reducible exact tileBody_keeps _ _ _ _ _ _ _ hc | with_reducible exact copyBody_keeps _ _ _ _ _ _ _ _ hc | with_reducible exact drainBody_keeps _ _ _ _ _ _ _ _ _ _ hc | with_reducible refine waitvPoll_keeps _ _ _ _ _ _ _ _ _ _ ?_ | split | dsimp only))
  all_goals (try grind [= mk_mems, = mems_fold, Res.All])

theorem execCvtfi_keeps (h : Hdr) (t : ITy) (fs : FTy) (md : Rm) (o : OpsCv) (s : State) {u : State} (hm : memsOk s.mems) (e : execCvtfi h t fs md o s = .next u) :
    memsOk u.mems := by
  unfold execCvtfi at e
  (try dsimp only at e)
  (repeat' split at e) <;> refine issue_keeps hm (fun c act hc => ?_) e
  all_goals
    clear e hm
    (repeat' (first | assumption | with_reducible refine onPath_keeps _ _ _ _ (by assumption) (fun c hc => ?_) | with_reducible refine Cx.readLanes_keeps _ _ _ _ _ _ _ _ (by assumption) (fun c g hc => ?_) | with_reducible refine Cx.edge_keeps _ _ _ _ (by assumption) (fun c d hc => ?_) | with_reducible refine Cx.edgeLine_keeps _ _ _ _ (by assumption) (fun c d hc => ?_) | with_reducible refine onFrame_keeps _ _ _ (by assumption) (fun f => ?_) | with_reducible refine onEngine_keeps _ _ _ (by assumption) ?_ | with_reducible refine Cx.onQueue_keeps _ _ _ (by assumption) (fun x => ?_) | with_reducible refine Cx.arrival_keeps _ _ _ _ _ (by assumption) (fun b t => ?_) | with_reducible refine Cx.awaitLine_keeps _ _ _ ?_ | with_reducible exact tileBody_keeps _ _ _ _ _ _ _ hc | with_reducible exact copyBody_keeps _ _ _ _ _ _ _ _ hc | with_reducible exact drainBody_keeps _ _ _ _ _ _ _ _ _ _ hc | with_reducible refine waitvPoll_keeps _ _ _ _ _ _ _ _ _ _ ?_ | split | dsimp only))
  all_goals (try grind [= mk_mems, = mems_fold, Res.All])

theorem execCvtf_keeps (h : Hdr) (fd : FTy) (fs : FTy) (md : Rm) (fz : Bool) (o : OpsCv) (s : State) {u : State} (hm : memsOk s.mems) (e : execCvtf h fd fs md fz o s = .next u) :
    memsOk u.mems := by
  unfold execCvtf at e
  (try dsimp only at e)
  (repeat' split at e) <;> refine issue_keeps hm (fun c act hc => ?_) e
  all_goals
    clear e hm
    (repeat' (first | assumption | with_reducible refine onPath_keeps _ _ _ _ (by assumption) (fun c hc => ?_) | with_reducible refine Cx.readLanes_keeps _ _ _ _ _ _ _ _ (by assumption) (fun c g hc => ?_) | with_reducible refine Cx.edge_keeps _ _ _ _ (by assumption) (fun c d hc => ?_) | with_reducible refine Cx.edgeLine_keeps _ _ _ _ (by assumption) (fun c d hc => ?_) | with_reducible refine onFrame_keeps _ _ _ (by assumption) (fun f => ?_) | with_reducible refine onEngine_keeps _ _ _ (by assumption) ?_ | with_reducible refine Cx.onQueue_keeps _ _ _ (by assumption) (fun x => ?_) | with_reducible refine Cx.arrival_keeps _ _ _ _ _ (by assumption) (fun b t => ?_) | with_reducible refine Cx.awaitLine_keeps _ _ _ ?_ | with_reducible exact tileBody_keeps _ _ _ _ _ _ _ hc | with_reducible exact copyBody_keeps _ _ _ _ _ _ _ _ hc | with_reducible exact drainBody_keeps _ _ _ _ _ _ _ _ _ _ hc | with_reducible refine waitvPoll_keeps _ _ _ _ _ _ _ _ _ _ ?_ | split | dsimp only))
  all_goals (try grind [= mk_mems, = mems_fold, Res.All])

theorem float1_keeps (h : Hdr) (f : FTy) (lat : Nat) (x2 : Bool) (o : Ops1) (op : Nat → Nat × Flags) (s : State) {u : State} (hm : memsOk s.mems) (e : float1 h f lat x2 o op s = .next u) :
    memsOk u.mems := by
  unfold float1 at e
  (try dsimp only at e)
  (repeat' split at e) <;> refine issue_keeps hm (fun c act hc => ?_) e
  all_goals
    clear e hm
    (repeat' (first | assumption | with_reducible refine onPath_keeps _ _ _ _ (by assumption) (fun c hc => ?_) | with_reducible refine Cx.readLanes_keeps _ _ _ _ _ _ _ _ (by assumption) (fun c g hc => ?_) | with_reducible refine Cx.edge_keeps _ _ _ _ (by assumption) (fun c d hc => ?_) | with_reducible refine Cx.edgeLine_keeps _ _ _ _ (by assumption) (fun c d hc => ?_) | with_reducible refine onFrame_keeps _ _ _ (by assumption) (fun f => ?_) | with_reducible refine onEngine_keeps _ _ _ (by assumption) ?_ | with_reducible refine Cx.onQueue_keeps _ _ _ (by assumption) (fun x => ?_) | with_reducible refine Cx.arrival_keeps _ _ _ _ _ (by assumption) (fun b t => ?_) | with_reducible refine Cx.awaitLine_keeps _ _ _ ?_ | with_reducible exact tileBody_keeps _ _ _ _ _ _ _ hc | with_reducible exact copyBody_keeps _ _ _ _ _ _ _ _ hc | with_reducible exact drainBody_keeps _ _ _ _ _ _ _ _ _ _ hc | with_reducible refine waitvPoll_keeps _ _ _ _ _ _ _ _ _ _ ?_ | split | dsimp only))
  all_goals (try grind [= mk_mems, = mems_fold, Res.All])

theorem execFrnd_keeps (h : Hdr) (f : FTy) (md : Rm) (_fz : Bool) (x2 : Bool) (o : Ops1) (s : State) {u : State} (hm : memsOk s.mems) (e : execFrnd h f md _fz x2 o s = .next u) :
    memsOk u.mems := by
  unfold execFrnd at e
  (repeat' split at e) <;> grind [= mk_mems, = mems_fold, → float1_keeps]

theorem execFcos_keeps (h : Hdr) (f : FTy) (fz : Bool) (x2 : Bool) (o : Ops1) (s : State) {u : State} (hm : memsOk s.mems) (e : execFcos h f fz x2 o s = .next u) :
    memsOk u.mems := by
  unfold execFcos at e
  (repeat' split at e) <;> grind [= mk_mems, = mems_fold, → float1_keeps]

theorem execFsin_keeps (h : Hdr) (f : FTy) (fz : Bool) (x2 : Bool) (o : Ops1) (s : State) {u : State} (hm : memsOk s.mems) (e : execFsin h f fz x2 o s = .next u) :
    memsOk u.mems := by
  unfold execFsin at e
  (repeat' split at e) <;> grind [= mk_mems, = mems_fold, → float1_keeps]

theorem execFlog2_keeps (h : Hdr) (f : FTy) (fz : Bool) (x2 : Bool) (o : Ops1) (s : State) {u : State} (hm : memsOk s.mems) (e : execFlog2 h f fz x2 o s = .next u) :
    memsOk u.mems := by
  unfold execFlog2 at e
  (repeat' split at e) <;> grind [= mk_mems, = mems_fold, → float1_keeps]

theorem execFexp2_keeps (h : Hdr) (f : FTy) (fz : Bool) (x2 : Bool) (o : Ops1) (s : State) {u : State} (hm : memsOk s.mems) (e : execFexp2 h f fz x2 o s = .next u) :
    memsOk u.mems := by
  unfold execFexp2 at e
  (repeat' split at e) <;> grind [= mk_mems, = mems_fold, → float1_keeps]

theorem execFsqrt_keeps (h : Hdr) (f : FTy) (md : Rm) (fz : Bool) (x2 : Bool) (o : Ops1) (s : State) {u : State} (hm : memsOk s.mems) (e : execFsqrt h f md fz x2 o s = .next u) :
    memsOk u.mems := by
  unfold execFsqrt at e
  (repeat' split at e) <;> grind [= mk_mems, = mems_fold, → float1_keeps]

theorem execFrsq_keeps (h : Hdr) (f : FTy) (fz : Bool) (x2 : Bool) (o : Ops1) (s : State) {u : State} (hm : memsOk s.mems) (e : execFrsq h f fz x2 o s = .next u) :
    memsOk u.mems := by
  unfold execFrsq at e
  (repeat' split at e) <;> grind [= mk_mems, = mems_fold, → float1_keeps]

theorem execFrcp_keeps (h : Hdr) (f : FTy) (fz : Bool) (x2 : Bool) (o : Ops1) (s : State) {u : State} (hm : memsOk s.mems) (e : execFrcp h f fz x2 o s = .next u) :
    memsOk u.mems := by
  unfold execFrcp at e
  (repeat' split at e) <;> grind [= mk_mems, = mems_fold, → float1_keeps]

theorem execFsel_keeps (h : Hdr) (f : FTy) (neg : Bool) (p : BitVec 3) (o : OpsSel) (s : State) {u : State} (hm : memsOk s.mems) (e : execFsel h f neg p o s = .next u) :
    memsOk u.mems := by
  unfold execFsel at e
  (try dsimp only at e)
  (repeat' split at e) <;> refine issue_keeps hm (fun c act hc => ?_) e
  all_goals
    clear e hm
    (repeat' (first | assumption | with_reducible refine onPath_keeps _ _ _ _ (by assumption) (fun c hc => ?_) | with_reducible refine Cx.readLanes_keeps _ _ _ _ _ _ _ _ (by assumption) (fun c g hc => ?_) | with_reducible refine Cx.edge_keeps _ _ _ _ (by assumption) (fun c d hc => ?_) | with_reducible refine Cx.edgeLine_keeps _ _ _ _ (by assumption) (fun c d hc => ?_) | with_reducible refine onFrame_keeps _ _ _ (by assumption) (fun f => ?_) | with_reducible refine onEngine_keeps _ _ _ (by assumption) ?_ | with_reducible refine Cx.onQueue_keeps _ _ _ (by assumption) (fun x => ?_) | with_reducible refine Cx.arrival_keeps _ _ _ _ _ (by assumption) (fun b t => ?_) | with_reducible refine Cx.awaitLine_keeps _ _ _ ?_ | with_reducible exact tileBody_keeps _ _ _ _ _ _ _ hc | with_reducible exact copyBody_keeps _ _ _ _ _ _ _ _ hc | with_reducible exact drainBody_keeps _ _ _ _ _ _ _ _ _ _ hc | with_reducible refine waitvPoll_keeps _ _ _ _ _ _ _ _ _ _ ?_ | split | dsimp only))
  all_goals (try grind [= mk_mems, = mems_fold, Res.All])

theorem execFcmp_keeps (h : Hdr) (cc : FCond) (f : FTy) (pd : BitVec 3) (o : OpsC) (s : State) {u : State} (hm : memsOk s.mems) (e : execFcmp h cc f pd o s = .next u) :
    memsOk u.mems := by
  unfold execFcmp at e
  (try dsimp only at e)
  (repeat' split at e) <;> refine issue_keeps hm (fun c act hc => ?_) e
  all_goals
    clear e hm
    (repeat' (first | assumption | with_reducible refine onPath_keeps _ _ _ _ (by assumption) (fun c hc => ?_) | with_reducible refine Cx.readLanes_keeps _ _ _ _ _ _ _ _ (by assumption) (fun c g hc => ?_) | with_reducible refine Cx.edge_keeps _ _ _ _ (by assumption) (fun c d hc => ?_) | with_reducible refine Cx.edgeLine_keeps _ _ _ _ (by assumption) (fun c d hc => ?_) | with_reducible refine onFrame_keeps _ _ _ (by assumption) (fun f => ?_) | with_reducible refine onEngine_keeps _ _ _ (by assumption) ?_ | with_reducible refine Cx.onQueue_keeps _ _ _ (by assumption) (fun x => ?_) | with_reducible refine Cx.arrival_keeps _ _ _ _ _ (by assumption) (fun b t => ?_) | with_reducible refine Cx.awaitLine_keeps _ _ _ ?_ | with_reducible exact tileBody_keeps _ _ _ _ _ _ _ hc | with_reducible exact copyBody_keeps _ _ _ _ _ _ _ _ hc | with_reducible exact drainBody_keeps _ _ _ _ _ _ _ _ _ _ hc | with_reducible refine waitvPoll_keeps _ _ _ _ _ _ _ _ _ _ ?_ | split | dsimp only))
  all_goals (try grind [= mk_mems, = mems_fold, Res.All])

theorem float2_keeps (h : Hdr) (f : FTy) (x2 : Bool) (o : Ops2) (op : Nat → Nat → Nat × Flags) (s : State) {u : State} (hm : memsOk s.mems) (e : float2 h f x2 o op s = .next u) :
    memsOk u.mems := by
  unfold float2 at e
  (try dsimp only at e)
  (repeat' split at e) <;> refine issue_keeps hm (fun c act hc => ?_) e
  all_goals
    clear e hm
    (repeat' (first | assumption | with_reducible refine onPath_keeps _ _ _ _ (by assumption) (fun c hc => ?_) | with_reducible refine Cx.readLanes_keeps _ _ _ _ _ _ _ _ (by assumption) (fun c g hc => ?_) | with_reducible refine Cx.edge_keeps _ _ _ _ (by assumption) (fun c d hc => ?_) | with_reducible refine Cx.edgeLine_keeps _ _ _ _ (by assumption) (fun c d hc => ?_) | with_reducible refine onFrame_keeps _ _ _ (by assumption) (fun f => ?_) | with_reducible refine onEngine_keeps _ _ _ (by assumption) ?_ | with_reducible refine Cx.onQueue_keeps _ _ _ (by assumption) (fun x => ?_) | with_reducible refine Cx.arrival_keeps _ _ _ _ _ (by assumption) (fun b t => ?_) | with_reducible refine Cx.awaitLine_keeps _ _ _ ?_ | with_reducible exact tileBody_keeps _ _ _ _ _ _ _ hc | with_reducible exact copyBody_keeps _ _ _ _ _ _ _ _ hc | with_reducible exact drainBody_keeps _ _ _ _ _ _ _ _ _ _ hc | with_reducible refine waitvPoll_keeps _ _ _ _ _ _ _ _ _ _ ?_ | split | dsimp only))
  all_goals (try grind [= mk_mems, = mems_fold, Res.All])

theorem execFmax_keeps (h : Hdr) (f : FTy) (x2 : Bool) (o : Ops2) (s : State) {u : State} (hm : memsOk s.mems) (e : execFmax h f x2 o s = .next u) :
    memsOk u.mems := by
  unfold execFmax at e
  (repeat' split at e) <;> grind [= mk_mems, = mems_fold, → float2_keeps]

theorem execFmin_keeps (h : Hdr) (f : FTy) (x2 : Bool) (o : Ops2) (s : State) {u : State} (hm : memsOk s.mems) (e : execFmin h f x2 o s = .next u) :
    memsOk u.mems := by
  unfold execFmin at e
  (repeat' split at e) <;> grind [= mk_mems, = mems_fold, → float2_keeps]

theorem execFfma_keeps (h : Hdr) (f : FTy) (md : Rm) (fz : Bool) (x2 : Bool) (o : Ops3) (s : State) {u : State} (hm : memsOk s.mems) (e : execFfma h f md fz x2 o s = .next u) :
    memsOk u.mems := by
  unfold execFfma at e
  (try dsimp only at e)
  (repeat' split at e) <;> refine issue_keeps hm (fun c act hc => ?_) e
  all_goals
    clear e hm
    (repeat' (first | assumption | with_reducible refine onPath_keeps _ _ _ _ (by assumption) (fun c hc => ?_) | with_reducible refine Cx.readLanes_keeps _ _ _ _ _ _ _ _ (by assumption) (fun c g hc => ?_) | with_reducible refine Cx.edge_keeps _ _ _ _ (by assumption) (fun c d hc => ?_) | with_reducible refine Cx.edgeLine_keeps _ _ _ _ (by assumption) (fun c d hc => ?_) | with_reducible refine onFrame_keeps _ _ _ (by assumption) (fun f => ?_) | with_reducible refine onEngine_keeps _ _ _ (by assumption) ?_ | with_reducible refine Cx.onQueue_keeps _ _ _ (by assumption) (fun x => ?_) | with_reducible refine Cx.arrival_keeps _ _ _ _ _ (by assumption) (fun b t => ?_) | with_reducible refine Cx.awaitLine_keeps _ _ _ ?_ | with_reducible exact tileBody_keeps _ _ _ _ _ _ _ hc | with_reducible exact copyBody_keeps _ _ _ _ _ _ _ _ hc | with_reducible exact drainBody_keeps _ _ _ _ _ _ _ _ _ _ hc | with_reducible refine waitvPoll_keeps _ _ _ _ _ _ _ _ _ _ ?_ | split | dsimp only))
  all_goals (try grind [= mk_mems, = mems_fold, Res.All])

theorem execFmul_keeps (h : Hdr) (f : FTy) (md : Rm) (fz : Bool) (x2 : Bool) (o : Ops2) (s : State) {u : State} (hm : memsOk s.mems) (e : execFmul h f md fz x2 o s = .next u) :
    memsOk u.mems := by
  unfold execFmul at e
  (repeat' split at e) <;> grind [= mk_mems, = mems_fold, → float2_keeps]

theorem execFsub_keeps (h : Hdr) (f : FTy) (md : Rm) (fz : Bool) (x2 : Bool) (o : Ops2) (s : State) {u : State} (hm : memsOk s.mems) (e : execFsub h f md fz x2 o s = .next u) :
    memsOk u.mems := by
  unfold execFsub at e
  (repeat' split at e) <;> grind [= mk_mems, = mems_fold, → float2_keeps]

theorem execFadd_keeps (h : Hdr) (f : FTy) (md : Rm) (fz : Bool) (x2 : Bool) (o : Ops2) (s : State) {u : State} (hm : memsOk s.mems) (e : execFadd h f md fz x2 o s = .next u) :
    memsOk u.mems := by
  unfold execFadd at e
  (repeat' split at e) <;> grind [= mk_mems, = mems_fold, → float2_keeps]

theorem execPset_keeps (h : Hdr) (op : PsetOp) (pd : BitVec 3) (na : Bool) (pa : BitVec 3) (nb : Bool) (pb : BitVec 3) (s : State) {u : State} (hm : memsOk s.mems) (e : execPset h op pd na pa nb pb s = .next u) :
    memsOk u.mems := by
  unfold execPset at e
  (try dsimp only at e)
  (repeat' split at e) <;> refine issue_keeps hm (fun c act hc => ?_) e
  all_goals
    clear e hm
    (repeat' (first | assumption | with_reducible refine onPath_keeps _ _ _ _ (by assumption) (fun c hc => ?_) | with_reducible refine Cx.readLanes_keeps _ _ _ _ _ _ _ _ (by assumption) (fun c g hc => ?_) | with_reducible refine Cx.edge_keeps _ _ _ _ (by assumption) (fun c d hc => ?_) | with_reducible refine Cx.edgeLine_keeps _ _ _ _ (by assumption) (fun c d hc => ?_) | with_reducible refine onFrame_keeps _ _ _ (by assumption) (fun f => ?_) | with_reducible refine onEngine_keeps _ _ _ (by assumption) ?_ | with_reducible refine Cx.onQueue_keeps _ _ _ (by assumption) (fun x => ?_) | with_reducible refine Cx.arrival_keeps _ _ _ _ _ (by assumption) (fun b t => ?_) | with_reducible refine Cx.awaitLine_keeps _ _ _ ?_ | with_reducible exact tileBody_keeps _ _ _ _ _ _ _ hc | with_reducible exact copyBody_keeps _ _ _ _ _ _ _ _ hc | with_reducible exact drainBody_keeps _ _ _ _ _ _ _ _ _ _ hc | with_reducible refine waitvPoll_keeps _ _ _ _ _ _ _ _ _ _ ?_ | split | dsimp only))
  all_goals (try grind [= mk_mems, = mems_fold, Res.All])

theorem execBallot_keeps (h : Hdr) (d : BitVec 8) (neg : Bool) (ps : BitVec 3) (s : State) {u : State} (hm : memsOk s.mems) (e : execBallot h d neg ps s = .next u) :
    memsOk u.mems := by
  unfold execBallot at e
  (try dsimp only at e)
  (repeat' split at e) <;> refine issue_keeps hm (fun c act hc => ?_) e
  all_goals
    clear e hm
    (repeat' (first | assumption | with_reducible refine onPath_keeps _ _ _ _ (by assumption) (fun c hc => ?_) | with_reducible refine Cx.readLanes_keeps _ _ _ _ _ _ _ _ (by assumption) (fun c g hc => ?_) | with_reducible refine Cx.edge_keeps _ _ _ _ (by assumption) (fun c d hc => ?_) | with_reducible refine Cx.edgeLine_keeps _ _ _ _ (by assumption) (fun c d hc => ?_) | with_reducible refine onFrame_keeps _ _ _ (by assumption) (fun f => ?_) | with_reducible refine onEngine_keeps _ _ _ (by assumption) ?_ | with_reducible refine Cx.onQueue_keeps _ _ _ (by assumption) (fun x => ?_) | with_reducible refine Cx.arrival_keeps _ _ _ _ _ (by assumption) (fun b t => ?_) | with_reducible refine Cx.awaitLine_keeps _ _ _ ?_ | with_reducible exact tileBody_keeps _ _ _ _ _ _ _ hc | with_reducible exact copyBody_keeps _ _ _ _ _ _ _ _ hc | with_reducible exact drainBody_keeps _ _ _ _ _ _ _ _ _ _ hc | with_reducible refine waitvPoll_keeps _ _ _ _ _ _ _ _ _ _ ?_ | split | dsimp only))
  all_goals (try grind [= mk_mems, = mems_fold, Res.All])

theorem execVote_keeps (h : Hdr) (m : VoteMode) (pd : BitVec 3) (neg : Bool) (ps : BitVec 3) (s : State) {u : State} (hm : memsOk s.mems) (e : execVote h m pd neg ps s = .next u) :
    memsOk u.mems := by
  unfold execVote at e
  (try dsimp only at e)
  (repeat' split at e) <;> refine issue_keeps hm (fun c act hc => ?_) e
  all_goals
    clear e hm
    (repeat' (first | assumption | with_reducible refine onPath_keeps _ _ _ _ (by assumption) (fun c hc => ?_) | with_reducible refine Cx.readLanes_keeps _ _ _ _ _ _ _ _ (by assumption) (fun c g hc => ?_) | with_reducible refine Cx.edge_keeps _ _ _ _ (by assumption) (fun c d hc => ?_) | with_reducible refine Cx.edgeLine_keeps _ _ _ _ (by assumption) (fun c d hc => ?_) | with_reducible refine onFrame_keeps _ _ _ (by assumption) (fun f => ?_) | with_reducible refine onEngine_keeps _ _ _ (by assumption) ?_ | with_reducible refine Cx.onQueue_keeps _ _ _ (by assumption) (fun x => ?_) | with_reducible refine Cx.arrival_keeps _ _ _ _ _ (by assumption) (fun b t => ?_) | with_reducible refine Cx.awaitLine_keeps _ _ _ ?_ | with_reducible exact tileBody_keeps _ _ _ _ _ _ _ hc | with_reducible exact copyBody_keeps _ _ _ _ _ _ _ _ hc | with_reducible exact drainBody_keeps _ _ _ _ _ _ _ _ _ _ hc | with_reducible refine waitvPoll_keeps _ _ _ _ _ _ _ _ _ _ ?_ | split | dsimp only))
  all_goals (try grind [= mk_mems, = mems_fold, Res.All])

theorem execLred_keeps (h : Hdr) (op : RedOp) (t : RedTy) (md : Rm) (d : BitVec 12) (a : BitVec 12) (s : State) {u : State} (hm : memsOk s.mems) (e : execLred h op t md d a s = .next u) :
    memsOk u.mems := by
  unfold execLred at e
  (try dsimp only at e)
  (repeat' split at e) <;> refine issue_keeps hm (fun c act hc => ?_) e
  all_goals
    clear e hm
    (repeat' (first | assumption | with_reducible refine onPath_keeps _ _ _ _ (by assumption) (fun c hc => ?_) | with_reducible refine Cx.readLanes_keeps _ _ _ _ _ _ _ _ (by assumption) (fun c g hc => ?_) | with_reducible refine Cx.edge_keeps _ _ _ _ (by assumption) (fun c d hc => ?_) | with_reducible refine Cx.edgeLine_keeps _ _ _ _ (by assumption) (fun c d hc => ?_) | with_reducible refine onFrame_keeps _ _ _ (by assumption) (fun f => ?_) | with_reducible refine onEngine_keeps _ _ _ (by assumption) ?_ | with_reducible refine Cx.onQueue_keeps _ _ _ (by assumption) (fun x => ?_) | with_reducible refine Cx.arrival_keeps _ _ _ _ _ (by assumption) (fun b t => ?_) | with_reducible refine Cx.awaitLine_keeps _ _ _ ?_ | with_reducible exact tileBody_keeps _ _ _ _ _ _ _ hc | with_reducible exact copyBody_keeps _ _ _ _ _ _ _ _ hc | with_reducible exact drainBody_keeps _ _ _ _ _ _ _ _ _ _ hc | with_reducible refine waitvPoll_keeps _ _ _ _ _ _ _ _ _ _ ?_ | split | dsimp only))
  all_goals (try grind [= mk_mems, = mems_fold, Res.All])

theorem execShfl_keeps (h : Hdr) (m : ShMode) (d : BitVec 12) (a : BitVec 12) (b : VSI) (s : State) {u : State} (hm : memsOk s.mems) (e : execShfl h m d a b s = .next u) :
    memsOk u.mems := by
  unfold execShfl at e
  (try dsimp only at e)
  (repeat' split at e) <;> refine issue_keeps hm (fun c act hc => ?_) e
  all_goals
    clear e hm
    (repeat' (first | assumption | with_reducible refine onPath_keeps _ _ _ _ (by assumption) (fun c hc => ?_) | with_reducible refine Cx.readLanes_keeps _ _ _ _ _ _ _ _ (by assumption) (fun c g hc => ?_) | with_reducible refine Cx.edge_keeps _ _ _ _ (by assumption) (fun c d hc => ?_) | with_reducible refine Cx.edgeLine_keeps _ _ _ _ (by assumption) (fun c d hc => ?_) | with_reducible refine onFrame_keeps _ _ _ (by assumption) (fun f => ?_) | with_reducible refine onEngine_keeps _ _ _ (by assumption) ?_ | with_reducible refine Cx.onQueue_keeps _ _ _ (by assumption) (fun x => ?_) | with_reducible refine Cx.arrival_keeps _ _ _ _ _ (by assumption) (fun b t => ?_) | with_reducible refine Cx.awaitLine_keeps _ _ _ ?_ | with_reducible exact tileBody_keeps _ _ _ _ _ _ _ hc | with_reducible exact copyBody_keeps _ _ _ _ _ _ _ _ hc | with_reducible exact drainBody_keeps _ _ _ _ _ _ _ _ _ _ hc | with_reducible refine waitvPoll_keeps _ _ _ _ _ _ _ _ _ _ ?_ | split | dsimp only))
  all_goals (try grind [= mk_mems, = mems_fold, Res.All])

theorem execBkpt_keeps (h : Hdr) (s : State) {u : State} (hm : memsOk s.mems) (e : execBkpt h s = .next u) :
    memsOk u.mems := by
  unfold execBkpt at e
  (try dsimp only at e)
  (repeat' split at e) <;> refine issue_keeps hm (fun c act hc => ?_) e
  all_goals
    clear e hm
    (repeat' (first | assumption | with_reducible refine onPath_keeps _ _ _ _ (by assumption) (fun c hc => ?_) | with_reducible refine Cx.readLanes_keeps _ _ _ _ _ _ _ _ (by assumption) (fun c g hc => ?_) | with_reducible refine Cx.edge_keeps _ _ _ _ (by assumption) (fun c d hc => ?_) | with_reducible refine Cx.edgeLine_keeps _ _ _ _ (by assumption) (fun c d hc => ?_) | with_reducible refine onFrame_keeps _ _ _ (by assumption) (fun f => ?_) | with_reducible refine onEngine_keeps _ _ _ (by assumption) ?_ | with_reducible refine Cx.onQueue_keeps _ _ _ (by assumption) (fun x => ?_) | with_reducible refine Cx.arrival_keeps _ _ _ _ _ (by assumption) (fun b t => ?_) | with_reducible refine Cx.awaitLine_keeps _ _ _ ?_ | with_reducible exact tileBody_keeps _ _ _ _ _ _ _ hc | with_reducible exact copyBody_keeps _ _ _ _ _ _ _ _ hc | with_reducible exact drainBody_keeps _ _ _ _ _ _ _ _ _ _ hc | with_reducible refine waitvPoll_keeps _ _ _ _ _ _ _ _ _ _ ?_ | split | dsimp only))
  all_goals (try grind [= mk_mems, = mems_fold, Res.All])

theorem execTrap_keeps (h : Hdr) (imm : BitVec 32) (s : State) {u : State} (hm : memsOk s.mems) (e : execTrap h imm s = .next u) :
    memsOk u.mems := by
  unfold execTrap at e
  (try dsimp only at e)
  (repeat' split at e) <;> refine issue_keeps hm (fun c act hc => ?_) e
  all_goals
    clear e hm
    (repeat' (first | assumption | with_reducible refine onPath_keeps _ _ _ _ (by assumption) (fun c hc => ?_) | with_reducible refine Cx.readLanes_keeps _ _ _ _ _ _ _ _ (by assumption) (fun c g hc => ?_) | with_reducible refine Cx.edge_keeps _ _ _ _ (by assumption) (fun c d hc => ?_) | with_reducible refine Cx.edgeLine_keeps _ _ _ _ (by assumption) (fun c d hc => ?_) | with_reducible refine onFrame_keeps _ _ _ (by assumption) (fun f => ?_) | with_reducible refine onEngine_keeps _ _ _ (by assumption) ?_ | with_reducible refine Cx.onQueue_keeps _ _ _ (by assumption) (fun x => ?_) | with_reducible refine Cx.arrival_keeps _ _ _ _ _ (by assumption) (fun b t => ?_) | with_reducible refine Cx.awaitLine_keeps _ _ _ ?_ | with_reducible exact tileBody_keeps _ _ _ _ _ _ _ hc | with_reducible exact copyBody_keeps _ _ _ _ _ _ _ _ hc | with_reducible exact drainBody_keeps _ _ _ _ _ _ _ _ _ _ hc | with_reducible refine waitvPoll_keeps _ _ _ _ _ _ _ _ _ _ ?_ | split | dsimp only))
  all_goals (try grind [= mk_mems, = mems_fold, Res.All])

theorem execYield_keeps (h : Hdr) (s : State) {u : State} (hm : memsOk s.mems) (e : execYield h s = .next u) :
    memsOk u.mems := by
  unfold execYield at e
  (try dsimp only at e)
  (repeat' split at e) <;> refine issue_keeps hm (fun c act hc => ?_) e
  all_goals
    clear e hm
    (repeat' (first | assumption | with_reducible refine onPath_keeps _ _ _ _ (by assumption) (fun c hc => ?_) | with_reducible refine Cx.readLanes_keeps _ _ _ _ _ _ _ _ (by assumption) (fun c g hc => ?_) | with_reducible refine Cx.edge_keeps _ _ _ _ (by assumption) (fun c d hc => ?_) | with_reducible refine Cx.edgeLine_keeps _ _ _ _ (by assumption) (fun c d hc => ?_) | with_reducible refine onFrame_keeps _ _ _ (by assumption) (fun f => ?_) | with_reducible refine onEngine_keeps _ _ _ (by assumption) ?_ | with_reducible refine Cx.onQueue_keeps _ _ _ (by assumption) (fun x => ?_) | with_reducible refine Cx.arrival_keeps _ _ _ _ _ (by assumption) (fun b t => ?_) | with_reducible refine Cx.awaitLine_keeps _ _ _ ?_ | with_reducible exact tileBody_keeps _ _ _ _ _ _ _ hc | with_reducible exact copyBody_keeps _ _ _ _ _ _ _ _ hc | with_reducible exact drainBody_keeps _ _ _ _ _ _ _ _ _ _ hc | with_reducible refine waitvPoll_keeps _ _ _ _ _ _ _ _ _ _ ?_ | split | dsimp only))
  all_goals (try grind [= mk_mems, = mems_fold, = Cx.setWv_mems, Res.All])

theorem Cx.endHandler_mems (c : Cx) :
    (Cx.endHandler c).s.mems = c.s.mems := by
  unfold Cx.endHandler
  repeat' split
  all_goals grind [= mk_mems, = mems_fold, = Cx.leaveHandler_mems]

theorem Cx.relabelB_mems (c : Cx) (set : List SetLine) :
    (Cx.relabelB c set).s.mems = c.s.mems := by
  unfold Cx.relabelB
  exact foldl_cx (fun c x => Cx.putBlock_mems _ _ _) _ _

theorem Cx.retireWave_mems (c : Cx) :
    (Cx.retireWave c).s.mems = c.s.mems := by
  unfold Cx.retireWave
  split
  · dsimp only; rw [Cx.setWv_mems, Cx.relabelB_mems, Cx.emptied_mems]
  · rfl

theorem Cx.exitLanes_mems (c : Cx) (m : Mask) :
    (Cx.exitLanes c m).s.mems = c.s.mems := by
  unfold Cx.exitLanes
  refine (foldl_cx (fun c k => ?_) _ _).trans (Cx.setWv_mems _ _)
  rw [Cx.barSettle_mems]
  exact State.stbArrived_mems _ _ _

theorem execExit_keeps (h : Hdr) (s : State) {u : State} (hm : memsOk s.mems) (e : execExit h s = .next u) :
    memsOk u.mems := by
  unfold execExit at e
  (try dsimp only at e)
  (repeat' split at e) <;> refine issue_keeps hm (fun c act hc => ?_) e
  all_goals
    clear e hm
    (repeat' (first | assumption | with_reducible refine onPath_keeps _ _ _ _ (by assumption) (fun c hc => ?_) | with_reducible refine Cx.readLanes_keeps _ _ _ _ _ _ _ _ (by assumption) (fun c g hc => ?_) | with_reducible refine Cx.edge_keeps _ _ _ _ (by assumption) (fun c d hc => ?_) | with_reducible refine Cx.edgeLine_keeps _ _ _ _ (by assumption) (fun c d hc => ?_) | with_reducible refine onFrame_keeps _ _ _ (by assumption) (fun f => ?_) | with_reducible refine onEngine_keeps _ _ _ (by assumption) ?_ | with_reducible refine Cx.onQueue_keeps _ _ _ (by assumption) (fun x => ?_) | with_reducible refine Cx.arrival_keeps _ _ _ _ _ (by assumption) (fun b t => ?_) | with_reducible refine Cx.awaitLine_keeps _ _ _ ?_ | with_reducible exact tileBody_keeps _ _ _ _ _ _ _ hc | with_reducible exact copyBody_keeps _ _ _ _ _ _ _ _ hc | with_reducible exact drainBody_keeps _ _ _ _ _ _ _ _ _ _ hc | with_reducible refine waitvPoll_keeps _ _ _ _ _ _ _ _ _ _ ?_ | split | dsimp only))
  all_goals (try grind [= mk_mems, = mems_fold, = Cx.exitLanes_mems, = Cx.retireWave_mems, = Cx.counted_mems, = Cx.endHandler_mems, = State.tick_mems, Res.All])

theorem execMeet_keeps (h : Hdr) (disp : BitVec 32) (s : State) {u : State} (hm : memsOk s.mems) (e : execMeet h disp s = .next u) :
    memsOk u.mems := by
  unfold execMeet at e
  (try dsimp only at e)
  (repeat' split at e) <;> refine issue_keeps hm (fun c act hc => ?_) e
  all_goals
    clear e hm
    (repeat' (first | assumption | with_reducible refine onPath_keeps _ _ _ _ (by assumption) (fun c hc => ?_) | with_reducible refine Cx.readLanes_keeps _ _ _ _ _ _ _ _ (by assumption) (fun c g hc => ?_) | with_reducible refine Cx.edge_keeps _ _ _ _ (by assumption) (fun c d hc => ?_) | with_reducible refine Cx.edgeLine_keeps _ _ _ _ (by assumption) (fun c d hc => ?_) | with_reducible refine onFrame_keeps _ _ _ (by assumption) (fun f => ?_) | with_reducible refine onEngine_keeps _ _ _ (by assumption) ?_ | with_reducible refine Cx.onQueue_keeps _ _ _ (by assumption) (fun x => ?_) | with_reducible refine Cx.arrival_keeps _ _ _ _ _ (by assumption) (fun b t => ?_) | with_reducible refine Cx.awaitLine_keeps _ _ _ ?_ | with_reducible exact tileBody_keeps _ _ _ _ _ _ _ hc | with_reducible exact copyBody_keeps _ _ _ _ _ _ _ _ hc | with_reducible exact drainBody_keeps _ _ _ _ _ _ _ _ _ _ hc | with_reducible refine waitvPoll_keeps _ _ _ _ _ _ _ _ _ _ ?_ | split | dsimp only))
  all_goals (try grind [= mk_mems, = mems_fold, = Cx.setWv_mems, Res.All])

theorem execBrt_keeps (h : Hdr) (idx : VS) (n1 : BitVec 12) (disp : BitVec 32) (s : State) {u : State} (hm : memsOk s.mems) (e : execBrt h idx n1 disp s = .next u) :
    memsOk u.mems := by
  unfold execBrt at e
  (try dsimp only at e)
  (repeat' split at e) <;> refine issue_keeps hm (fun c act hc => ?_) e
  all_goals
    clear e hm
    (repeat' (first | assumption | with_reducible refine onPath_keeps _ _ _ _ (by assumption) (fun c hc => ?_) | with_reducible refine Cx.readLanes_keeps _ _ _ _ _ _ _ _ (by assumption) (fun c g hc => ?_) | with_reducible refine Cx.edge_keeps _ _ _ _ (by assumption) (fun c d hc => ?_) | with_reducible refine Cx.edgeLine_keeps _ _ _ _ (by assumption) (fun c d hc => ?_) | with_reducible refine onFrame_keeps _ _ _ (by assumption) (fun f => ?_) | with_reducible refine onEngine_keeps _ _ _ (by assumption) ?_ | with_reducible refine Cx.onQueue_keeps _ _ _ (by assumption) (fun x => ?_) | with_reducible refine Cx.arrival_keeps _ _ _ _ _ (by assumption) (fun b t => ?_) | with_reducible refine Cx.awaitLine_keeps _ _ _ ?_ | with_reducible exact tileBody_keeps _ _ _ _ _ _ _ hc | with_reducible exact copyBody_keeps _ _ _ _ _ _ _ _ hc | with_reducible exact drainBody_keeps _ _ _ _ _ _ _ _ _ _ hc | with_reducible refine waitvPoll_keeps _ _ _ _ _ _ _ _ _ _ ?_ | split | dsimp only))
  all_goals (try grind [= mk_mems, = mems_fold, Res.All])

theorem execBra_keeps (h : Hdr) (disp : BitVec 32) (s : State) {u : State} (hm : memsOk s.mems) (e : execBra h disp s = .next u) :
    memsOk u.mems := by
  unfold execBra at e
  (try dsimp only at e)
  (repeat' split at e) <;> refine issue_keeps hm (fun c act hc => ?_) e
  all_goals
    clear e hm
    (repeat' (first | assumption | with_reducible refine onPath_keeps _ _ _ _ (by assumption) (fun c hc => ?_) | with_reducible refine Cx.readLanes_keeps _ _ _ _ _ _ _ _ (by assumption) (fun c g hc => ?_) | with_reducible refine Cx.edge_keeps _ _ _ _ (by assumption) (fun c d hc => ?_) | with_reducible refine Cx.edgeLine_keeps _ _ _ _ (by assumption) (fun c d hc => ?_) | with_reducible refine onFrame_keeps _ _ _ (by assumption) (fun f => ?_) | with_reducible refine onEngine_keeps _ _ _ (by assumption) ?_ | with_reducible refine Cx.onQueue_keeps _ _ _ (by assumption) (fun x => ?_) | with_reducible refine Cx.arrival_keeps _ _ _ _ _ (by assumption) (fun b t => ?_) | with_reducible refine Cx.awaitLine_keeps _ _ _ ?_ | with_reducible exact tileBody_keeps _ _ _ _ _ _ _ hc | with_reducible exact copyBody_keeps _ _ _ _ _ _ _ _ hc | with_reducible exact drainBody_keeps _ _ _ _ _ _ _ _ _ _ hc | with_reducible refine waitvPoll_keeps _ _ _ _ _ _ _ _ _ _ ?_ | split | dsimp only))
  all_goals (try grind [= mk_mems, = mems_fold, Res.All])

theorem execNopl_keeps (h : Hdr) (s : State) {u : State} (hm : memsOk s.mems) (e : execNopl h s = .next u) :
    memsOk u.mems := by
  unfold execNopl at e
  (try dsimp only at e)
  (repeat' split at e) <;> refine issue_keeps hm (fun c act hc => ?_) e
  all_goals
    clear e hm
    (repeat' (first | assumption | with_reducible refine onPath_keeps _ _ _ _ (by assumption) (fun c hc => ?_) | with_reducible refine Cx.readLanes_keeps _ _ _ _ _ _ _ _ (by assumption) (fun c g hc => ?_) | with_reducible refine Cx.edge_keeps _ _ _ _ (by assumption) (fun c d hc => ?_) | with_reducible refine Cx.edgeLine_keeps _ _ _ _ (by assumption) (fun c d hc => ?_) | with_reducible refine onFrame_keeps _ _ _ (by assumption) (fun f => ?_) | with_reducible refine onEngine_keeps _ _ _ (by assumption) ?_ | with_reducible refine Cx.onQueue_keeps _ _ _ (by assumption) (fun x => ?_) | with_reducible refine Cx.arrival_keeps _ _ _ _ _ (by assumption) (fun b t => ?_) | with_reducible refine Cx.awaitLine_keeps _ _ _ ?_ | with_reducible exact tileBody_keeps _ _ _ _ _ _ _ hc | with_reducible exact copyBody_keeps _ _ _ _ _ _ _ _ hc | with_reducible exact drainBody_keeps _ _ _ _ _ _ _ _ _ _ hc | with_reducible refine waitvPoll_keeps _ _ _ _ _ _ _ _ _ _ ?_ | split | dsimp only))
  all_goals (try grind [= mk_mems, = mems_fold, Res.All])

theorem execNop_keeps (h : Hdr) (s : State) {u : State} (hm : memsOk s.mems) (e : execNop h s = .next u) :
    memsOk u.mems := by
  unfold execNop at e
  (try dsimp only at e)
  (repeat' split at e) <;> refine issue_keeps hm (fun c act hc => ?_) e
  all_goals
    clear e hm
    (repeat' (first | assumption | with_reducible refine onPath_keeps _ _ _ _ (by assumption) (fun c hc => ?_) | with_reducible refine Cx.readLanes_keeps _ _ _ _ _ _ _ _ (by assumption) (fun c g hc => ?_) | with_reducible refine Cx.edge_keeps _ _ _ _ (by assumption) (fun c d hc => ?_) | with_reducible refine Cx.edgeLine_keeps _ _ _ _ (by assumption) (fun c d hc => ?_) | with_reducible refine onFrame_keeps _ _ _ (by assumption) (fun f => ?_) | with_reducible refine onEngine_keeps _ _ _ (by assumption) ?_ | with_reducible refine Cx.onQueue_keeps _ _ _ (by assumption) (fun x => ?_) | with_reducible refine Cx.arrival_keeps _ _ _ _ _ (by assumption) (fun b t => ?_) | with_reducible refine Cx.awaitLine_keeps _ _ _ ?_ | with_reducible exact tileBody_keeps _ _ _ _ _ _ _ hc | with_reducible exact copyBody_keeps _ _ _ _ _ _ _ _ hc | with_reducible exact drainBody_keeps _ _ _ _ _ _ _ _ _ _ hc | with_reducible refine waitvPoll_keeps _ _ _ _ _ _ _ _ _ _ ?_ | split | dsimp only))
  all_goals (try grind [= mk_mems, = mems_fold, Res.All])

theorem execMovi_keeps (h : Hdr) (t : ITy) (d : VS) (imm : BitVec 32) (s : State) {u : State} (hm : memsOk s.mems) (e : execMovi h t d imm s = .next u) :
    memsOk u.mems := by
  unfold execMovi at e
  (try dsimp only at e)
  (repeat' split at e) <;> refine issue_keeps hm (fun c act hc => ?_) e
  all_goals
    clear e hm
    (repeat' (first | assumption | with_reducible refine onPath_keeps _ _ _ _ (by assumption) (fun c hc => ?_) | with_reducible refine Cx.readLanes_keeps _ _ _ _ _ _ _ _ (by assumption) (fun c g hc => ?_) | with_reducible refine Cx.edge_keeps _ _ _ _ (by assumption) (fun c d hc => ?_) | with_reducible refine Cx.edgeLine_keeps _ _ _ _ (by assumption) (fun c d hc => ?_) | with_reducible refine onFrame_keeps _ _ _ (by assumption) (fun f => ?_) | with_reducible refine onEngine_keeps _ _ _ (by assumption) ?_ | with_reducible refine Cx.onQueue_keeps _ _ _ (by assumption) (fun x => ?_) | with_reducible refine Cx.arrival_keeps _ _ _ _ _ (by assumption) (fun b t => ?_) | with_reducible refine Cx.awaitLine_keeps _ _ _ ?_ | with_reducible exact tileBody_keeps _ _ _ _ _ _ _ hc | with_reducible exact copyBody_keeps _ _ _ _ _ _ _ _ hc | with_reducible exact drainBody_keeps _ _ _ _ _ _ _ _ _ _ hc | with_reducible refine waitvPoll_keeps _ _ _ _ _ _ _ _ _ _ ?_ | split | dsimp only))
  all_goals (try grind [= mk_mems, = mems_fold, Res.All])

theorem execLea_keeps (h : Hdr) (t : ITy) (o : OpsLea) (sh : BitVec 3) (disp : BitVec 24) (s : State) {u : State} (hm : memsOk s.mems) (e : execLea h t o sh disp s = .next u) :
    memsOk u.mems := by
  unfold execLea at e
  (try dsimp only at e)
  (repeat' split at e) <;> refine issue_keeps hm (fun c act hc => ?_) e
  all_goals
    clear e hm
    (repeat' (first | assumption | with_reducible refine onPath_keeps _ _ _ _ (by assumption) (fun c hc => ?_) | with_reducible refine Cx.readLanes_keeps _ _ _ _ _ _ _ _ (by assumption) (fun c g hc => ?_) | with_reducible refine Cx.edge_keeps _ _ _ _ (by assumption) (fun c d hc => ?_) | with_reducible refine Cx.edgeLine_keeps _ _ _ _ (by assumption) (fun c d hc => ?_) | with_reducible refine onFrame_keeps _ _ _ (by assumption) (fun f => ?_) | with_reducible refine onEngine_keeps _ _ _ (by assumption) ?_ | with_reducible refine Cx.onQueue_keeps _ _ _ (by assumption) (fun x => ?_) | with_reducible refine Cx.arrival_keeps _ _ _ _ _ (by assumption) (fun b t => ?_) | with_reducible refine Cx.awaitLine_keeps _ _ _ ?_ | with_reducible exact tileBody_keeps _ _ _ _ _ _ _ hc | with_reducible exact copyBody_keeps _ _ _ _ _ _ _ _ hc | with_reducible exact drainBody_keeps _ _ _ _ _ _ _ _ _ _ hc | with_reducible refine waitvPoll_keeps _ _ _ _ _ _ _ _ _ _ ?_ | split | dsimp only))
  all_goals (try grind [= mk_mems, = mems_fold, Res.All])

theorem execBfx_keeps (h : Hdr) (t : ITy) (o : Dst1) (pos : BitVec 8) (len : BitVec 8) (s : State) {u : State} (hm : memsOk s.mems) (e : execBfx h t o pos len s = .next u) :
    memsOk u.mems := by
  unfold execBfx at e
  (try dsimp only at e)
  (repeat' split at e) <;> refine issue_keeps hm (fun c act hc => ?_) e
  all_goals
    clear e hm
    (repeat' (first | assumption | with_reducible refine onPath_keeps _ _ _ _ (by assumption) (fun c hc => ?_) | with_reducible refine Cx.readLanes_keeps _ _ _ _ _ _ _ _ (by assumption) (fun c g hc => ?_) | with_reducible refine Cx.edge_keeps _ _ _ _ (by assumption) (fun c d hc => ?_) | with_reducible refine Cx.edgeLine_keeps _ _ _ _ (by assumption) (fun c d hc => ?_) | with_reducible refine onFrame_keeps _ _ _ (by assumption) (fun f => ?_) | with_reducible refine onEngine_keeps _ _ _ (by assumption) ?_ | with_reducible refine Cx.onQueue_keeps _ _ _ (by assumption) (fun x => ?_) | with_reducible refine Cx.arrival_keeps _ _ _ _ _ (by assumption) (fun b t => ?_) | with_reducible refine Cx.awaitLine_keeps _ _ _ ?_ | with_reducible exact tileBody_keeps _ _ _ _ _ _ _ hc | with_reducible exact copyBody_keeps _ _ _ _ _ _ _ _ hc | with_reducible exact drainBody_keeps _ _ _ _ _ _ _ _ _ _ hc | with_reducible refine waitvPoll_keeps _ _ _ _ _ _ _ _ _ _ ?_ | split | dsimp only))
  all_goals (try grind [= mk_mems, = mems_fold, Res.All])

theorem execIsel_keeps (h : Hdr) (t : ITy) (neg : Bool) (p : BitVec 3) (o : OpsSel) (s : State) {u : State} (hm : memsOk s.mems) (e : execIsel h t neg p o s = .next u) :
    memsOk u.mems := by
  unfold execIsel at e
  (try dsimp only at e)
  (repeat' split at e) <;> refine issue_keeps hm (fun c act hc => ?_) e
  all_goals
    clear e hm
    (repeat' (first | assumption | with_reducible refine onPath_keeps _ _ _ _ (by assumption) (fun c hc => ?_) | with_reducible refine Cx.readLanes_keeps _ _ _ _ _ _ _ _ (by assumption) (fun c g hc => ?_) | with_reducible refine Cx.edge_keeps _ _ _ _ (by assumption) (fun c d hc => ?_) | with_reducible refine Cx.edgeLine_keeps _ _ _ _ (by assumption) (fun c d hc => ?_) | with_reducible refine onFrame_keeps _ _ _ (by assumption) (fun f => ?_) | with_reducible refine onEngine_keeps _ _ _ (by assumption) ?_ | with_reducible refine Cx.onQueue_keeps _ _ _ (by assumption) (fun x => ?_) | with_reducible refine Cx.arrival_keeps _ _ _ _ _ (by assumption) (fun b t => ?_) | with_reducible refine Cx.awaitLine_keeps _ _ _ ?_ | with_reducible exact tileBody_keeps _ _ _ _ _ _ _ hc | with_reducible exact copyBody_keeps _ _ _ _ _ _ _ _ hc | with_reducible exact drainBody_keeps _ _ _ _ _ _ _ _ _ _ hc | with_reducible refine waitvPoll_keeps _ _ _ _ _ _ _ _ _ _ ?_ | split | dsimp only))
  all_goals (try grind [= mk_mems, = mems_fold, Res.All])

theorem execBfi_keeps (h : Hdr) (t : ITy) (o : Ops3) (s : State) {u : State} (hm : memsOk s.mems) (e : execBfi h t o s = .next u) :
    memsOk u.mems := by
  unfold execBfi at e
  (try dsimp only at e)
  (repeat' split at e) <;> refine issue_keeps hm (fun c act hc => ?_) e
  all_goals
    clear e hm
    (repeat' (first | assumption | with_reducible refine onPath_keeps _ _ _ _ (by assumption) (fun c hc => ?_) | with_reducible refine Cx.readLanes_keeps _ _ _ _ _ _ _ _ (by assumption) (fun c g hc => ?_) | with_reducible refine Cx.edge_keeps _ _ _ _ (by assumption) (fun c d hc => ?_) | with_reducible refine Cx.edgeLine_keeps _ _ _ _ (by assumption) (fun c d hc => ?_) | with_reducible refine onFrame_keeps _ _ _ (by assumption) (fun f => ?_) | with_reducible refine onEngine_keeps _ _ _ (by assumption) ?_ | with_reducible refine Cx.onQueue_keeps _ _ _ (by assumption) (fun x => ?_) | with_reducible refine Cx.arrival_keeps _ _ _ _ _ (by assumption) (fun b t => ?_) | with_reducible refine Cx.awaitLine_keeps _ _ _ ?_ | with_reducible exact tileBody_keeps _ _ _ _ _ _ _ hc | with_reducible exact copyBody_keeps _ _ _ _ _ _ _ _ hc | with_reducible exact drainBody_keeps _ _ _ _ _ _ _ _ _ _ hc | with_reducible refine waitvPoll_keeps _ _ _ _ _ _ _ _ _ _ ?_ | split | dsimp only))
  all_goals (try grind [= mk_mems, = mems_fold, Res.All])

theorem execImad_keeps (h : Hdr) (t : ITy) (sat : Bool) (o : Ops3) (s : State) {u : State} (hm : memsOk s.mems) (e : execImad h t sat o s = .next u) :
    memsOk u.mems := by
  unfold execImad at e
  (try dsimp only at e)
  (repeat' split at e) <;> refine issue_keeps hm (fun c act hc => ?_) e
  all_goals
    clear e hm
    (repeat' (first | assumption | with_reducible refine onPath_keeps _ _ _ _ (by assumption) (fun c hc => ?_) | with_reducible refine Cx.readLanes_keeps _ _ _ _ _ _ _ _ (by assumption) (fun c g hc => ?_) | with_reducible refine Cx.edge_keeps _ _ _ _ (by assumption) (fun c d hc => ?_) | with_reducible refine Cx.edgeLine_keeps _ _ _ _ (by assumption) (fun c d hc => ?_) | with_reducible refine onFrame_keeps _ _ _ (by assumption) (fun f => ?_) | with_reducible refine onEngine_keeps _ _ _ (by assumption) ?_ | with_reducible refine Cx.onQueue_keeps _ _ _ (by assumption) (fun x => ?_) | with_reducible refine Cx.arrival_keeps _ _ _ _ _ (by assumption) (fun b t => ?_) | with_reducible refine Cx.awaitLine_keeps _ _ _ ?_ | with_reducible exact tileBody_keeps _ _ _ _ _ _ _ hc | with_reducible exact copyBody_keeps _ _ _ _ _ _ _ _ hc | with_reducible exact drainBody_keeps _ _ _ _ _ _ _ _ _ _ hc | with_reducible refine waitvPoll_keeps _ _ _ _ _ _ _ _ _ _ ?_ | split | dsimp only))
  all_goals (try grind [= mk_mems, = mems_fold, Res.All])

theorem execCvti_keeps (h : Hdr) (t : ITy) (o : Ops1) (s : State) {u : State} (hm : memsOk s.mems) (e : execCvti h t o s = .next u) :
    memsOk u.mems := by
  unfold execCvti at e
  (try dsimp only at e)
  (repeat' split at e) <;> refine issue_keeps hm (fun c act hc => ?_) e
  all_goals
    clear e hm
    (repeat' (first | assumption | with_reducible refine onPath_keeps _ _ _ _ (by assumption) (fun c hc => ?_) | with_reducible refine Cx.readLanes_keeps _ _ _ _ _ _ _ _ (by assumption) (fun c g hc => ?_) | with_reducible refine Cx.edge_keeps _ _ _ _ (by assumption) (fun c d hc => ?_) | with_reducible refine Cx.edgeLine_keeps _ _ _ _ (by assumption) (fun c d hc => ?_) | with_reducible refine onFrame_keeps _ _ _ (by assumption) (fun f => ?_) | with_reducible refine onEngine_keeps _ _ _ (by assumption) ?_ | with_reducible refine Cx.onQueue_keeps _ _ _ (by assumption) (fun x => ?_) | with_reducible refine Cx.arrival_keeps _ _ _ _ _ (by assumption) (fun b t => ?_) | with_reducible refine Cx.awaitLine_keeps _ _ _ ?_ | with_reducible exact tileBody_keeps _ _ _ _ _ _ _ hc | with_reducible exact copyBody_keeps _ _ _ _ _ _ _ _ hc | with_reducible exact drainBody_keeps _ _ _ _ _ _ _ _ _ _ hc | with_reducible refine waitvPoll_keeps _ _ _ _ _ _ _ _ _ _ ?_ | split | dsimp only))
  all_goals (try grind [= mk_mems, = mems_fold, Res.All])

theorem execMov_keeps (h : Hdr) (t : ITy) (o : Ops1) (s : State) {u : State} (hm : memsOk s.mems) (e : execMov h t o s = .next u) :
    memsOk u.mems := by
  unfold execMov at e
  (try dsimp only at e)
  (repeat' split at e) <;> refine issue_keeps hm (fun c act hc => ?_) e
  all_goals
    clear e hm
    (repeat' (first | assumption | with_reducible refine onPath_keeps _ _ _ _ (by assumption) (fun c hc => ?_) | with_reducible refine Cx.readLanes_keeps _ _ _ _ _ _ _ _ (by assumption) (fun c g hc => ?_) | with_reducible refine Cx.edge_keeps _ _ _ _ (by assumption) (fun c d hc => ?_) | with_reducible refine Cx.edgeLine_keeps _ _ _ _ (by assumption) (fun c d hc => ?_) | with_reducible refine onFrame_keeps _ _ _ (by assumption) (fun f => ?_) | with_reducible refine onEngine_keeps _ _ _ (by assumption) ?_ | with_reducible refine Cx.onQueue_keeps _ _ _ (by assumption) (fun x => ?_) | with_reducible refine Cx.arrival_keeps _ _ _ _ _ (by assumption) (fun b t => ?_) | with_reducible refine Cx.awaitLine_keeps _ _ _ ?_ | with_reducible exact tileBody_keeps _ _ _ _ _ _ _ hc | with_reducible exact copyBody_keeps _ _ _ _ _ _ _ _ hc | with_reducible exact drainBody_keeps _ _ _ _ _ _ _ _ _ _ hc | with_reducible refine waitvPoll_keeps _ _ _ _ _ _ _ _ _ _ ?_ | split | dsimp only))
  all_goals (try grind [= mk_mems, = mems_fold, Res.All])

theorem int1_keeps (h : Hdr) (t : ITy) (o : Ops1) (f : Nat → Int) (s : State) {u : State} (hm : memsOk s.mems) (e : int1 h t o f s = .next u) :
    memsOk u.mems := by
  unfold int1 at e
  (try dsimp only at e)
  (repeat' split at e) <;> refine issue_keeps hm (fun c act hc => ?_) e
  all_goals
    clear e hm
    (repeat' (first | assumption | with_reducible refine onPath_keeps _ _ _ _ (by assumption) (fun c hc => ?_) | with_reducible refine Cx.readLanes_keeps _ _ _ _ _ _ _ _ (by assumption) (fun c g hc => ?_) | with_reducible refine Cx.edge_keeps _ _ _ _ (by assumption) (fun c d hc => ?_) | with_reducible refine Cx.edgeLine_keeps _ _ _ _ (by assumption) (fun c d hc => ?_) | with_reducible refine onFrame_keeps _ _ _ (by assumption) (fun f => ?_) | with_reducible refine onEngine_keeps _ _ _ (by assumption) ?_ | with_reducible refine Cx.onQueue_keeps _ _ _ (by assumption) (fun x => ?_) | with_reducible refine Cx.arrival_keeps _ _ _ _ _ (by assumption) (fun b t => ?_) | with_reducible refine Cx.awaitLine_keeps _ _ _ ?_ | with_reducible exact tileBody_keeps _ _ _ _ _ _ _ hc | with_reducible exact copyBody_keeps _ _ _ _ _ _ _ _ hc | with_reducible exact drainBody_keeps _ _ _ _ _ _ _ _ _ _ hc | with_reducible refine waitvPoll_keeps _ _ _ _ _ _ _ _ _ _ ?_ | split | dsimp only))
  all_goals (try grind [= mk_mems, = mems_fold, Res.All])

theorem execBrev_keeps (h : Hdr) (t : ITy) (o : Ops1) (s : State) {u : State} (hm : memsOk s.mems) (e : execBrev h t o s = .next u) :
    memsOk u.mems := by
  unfold execBrev at e
  (repeat' split at e) <;> grind [= mk_mems, = mems_fold, → int1_keeps]

theorem execClz_keeps (h : Hdr) (t : ITy) (o : Ops1) (s : State) {u : State} (hm : memsOk s.mems) (e : execClz h t o s = .next u) :
    memsOk u.mems := by
  unfold execClz at e
  (repeat' split at e) <;> grind [= mk_mems, = mems_fold, → int1_keeps]

theorem execPopc_keeps (h : Hdr) (t : ITy) (o : Ops1) (s : State) {u : State} (hm : memsOk s.mems) (e : execPopc h t o s = .next u) :
    memsOk u.mems := by
  unfold execPopc at e
  (repeat' split at e) <;> grind [= mk_mems, = mems_fold, → int1_keeps]

theorem execNot_keeps (h : Hdr) (t : ITy) (o : Ops1) (s : State) {u : State} (hm : memsOk s.mems) (e : execNot h t o s = .next u) :
    memsOk u.mems := by
  unfold execNot at e
  (repeat' split at e) <;> grind [= mk_mems, = mems_fold, → int1_keeps]

theorem execIabs_keeps (h : Hdr) (t : ITy) (o : Ops1) (s : State) {u : State} (hm : memsOk s.mems) (e : execIabs h t o s = .next u) :
    memsOk u.mems := by
  unfold execIabs at e
  (repeat' split at e) <;> grind [= mk_mems, = mems_fold, → int1_keeps]

theorem execIneg_keeps (h : Hdr) (t : ITy) (o : Ops1) (s : State) {u : State} (hm : memsOk s.mems) (e : execIneg h t o s = .next u) :
    memsOk u.mems := by
  unfold execIneg at e
  (repeat' split at e) <;> grind [= mk_mems, = mems_fold, → int1_keeps]

theorem execIcmp_keeps (h : Hdr) (cc : ICond) (t : ITy) (pd : BitVec 3) (o : OpsC) (s : State) {u : State} (hm : memsOk s.mems) (e : execIcmp h cc t pd o s = .next u) :
    memsOk u.mems := by
  unfold execIcmp at e
  (try dsimp only at e)
  (repeat' split at e) <;> refine issue_keeps hm (fun c act hc => ?_) e
  all_goals
    clear e hm
    (repeat' (first | assumption | with_reducible refine onPath_keeps _ _ _ _ (by assumption) (fun c hc => ?_) | with_reducible refine Cx.readLanes_keeps _ _ _ _ _ _ _ _ (by assumption) (fun c g hc => ?_) | with_reducible refine Cx.edge_keeps _ _ _ _ (by assumption) (fun c d hc => ?_) | with_reducible refine Cx.edgeLine_keeps _ _ _ _ (by assumption) (fun c d hc => ?_) | with_reducible refine onFrame_keeps _ _ _ (by assumption) (fun f => ?_) | with_reducible refine onEngine_keeps _ _ _ (by assumption) ?_ | with_reducible refine Cx.onQueue_keeps _ _ _ (by assumption) (fun x => ?_) | with_reducible refine Cx.arrival_keeps _ _ _ _ _ (by assumption) (fun b t => ?_) | with_reducible refine Cx.awaitLine_keeps _ _ _ ?_ | with_reducible exact tileBody_keeps _ _ _ _ _ _ _ hc | with_reducible exact copyBody_keeps _ _ _ _ _ _ _ _ hc | with_reducible exact drainBody_keeps _ _ _ _ _ _ _ _ _ _ hc | with_reducible refine waitvPoll_keeps _ _ _ _ _ _ _ _ _ _ ?_ | split | dsimp only))
  all_goals (try grind [= mk_mems, = mems_fold, Res.All])

theorem shift2_keeps (h : Hdr) (t : ITy) (o : Ops2) (f : Nat → Nat → Nat) (s : State) {u : State} (hm : memsOk s.mems) (e : shift2 h t o f s = .next u) :
    memsOk u.mems := by
  unfold shift2 at e
  (try dsimp only at e)
  (repeat' split at e) <;> refine issue_keeps hm (fun c act hc => ?_) e
  all_goals
    clear e hm
    (repeat' (first | assumption | with_reducible refine onPath_keeps _ _ _ _ (by assumption) (fun c hc => ?_) | with_reducible refine Cx.readLanes_keeps _ _ _ _ _ _ _ _ (by assumption) (fun c g hc => ?_) | with_reducible refine Cx.edge_keeps _ _ _ _ (by assumption) (fun c d hc => ?_) | with_reducible refine Cx.edgeLine_keeps _ _ _ _ (by assumption) (fun c d hc => ?_) | with_reducible refine onFrame_keeps _ _ _ (by assumption) (fun f => ?_) | with_reducible refine onEngine_keeps _ _ _ (by assumption) ?_ | with_reducible refine Cx.onQueue_keeps _ _ _ (by assumption) (fun x => ?_) | with_reducible refine Cx.arrival_keeps _ _ _ _ _ (by assumption) (fun b t => ?_) | with_reducible refine Cx.awaitLine_keeps _ _ _ ?_ | with_reducible exact tileBody_keeps _ _ _ _ _ _ _ hc | with_reducible exact copyBody_keeps _ _ _ _ _ _ _ _ hc | with_reducible exact drainBody_keeps _ _ _ _ _ _ _ _ _ _ hc | with_reducible refine waitvPoll_keeps _ _ _ _ _ _ _ _ _ _ ?_ | split | dsimp only))
  all_goals (try grind [= mk_mems, = mems_fold, Res.All])

theorem execRot_keeps (h : Hdr) (t : ITy) (o : Ops2) (s : State) {u : State} (hm : memsOk s.mems) (e : execRot h t o s = .next u) :
    memsOk u.mems := by
  unfold execRot at e
  (repeat' split at e) <;> grind [= mk_mems, = mems_fold, → shift2_keeps]

theorem execSar_keeps (h : Hdr) (t : ITy) (o : Ops2) (s : State) {u : State} (hm : memsOk s.mems) (e : execSar h t o s = .next u) :
    memsOk u.mems := by
  unfold execSar at e
  (repeat' split at e) <;> grind [= mk_mems, = mems_fold, → shift2_keeps]

theorem execShr_keeps (h : Hdr) (t : ITy) (o : Ops2) (s : State) {u : State} (hm : memsOk s.mems) (e : execShr h t o s = .next u) :
    memsOk u.mems := by
  unfold execShr at e
  (repeat' split at e) <;> grind [= mk_mems, = mems_fold, → shift2_keeps]

theorem execShl_keeps (h : Hdr) (t : ITy) (o : Ops2) (s : State) {u : State} (hm : memsOk s.mems) (e : execShl h t o s = .next u) :
    memsOk u.mems := by
  unfold execShl at e
  (repeat' split at e) <;> grind [= mk_mems, = mems_fold, → shift2_keeps]

theorem bits2_keeps (h : Hdr) (t : ITy) (o : Ops2) (f : DWord → DWord → DWord) (s : State) {u : State} (hm : memsOk s.mems) (e : bits2 h t o f s = .next u) :
    memsOk u.mems := by
  unfold bits2 at e
  (try dsimp only at e)
  (repeat' split at e) <;> refine issue_keeps hm (fun c act hc => ?_) e
  all_goals
    clear e hm
    (repeat' (first | assumption | with_reducible refine onPath_keeps _ _ _ _ (by assumption) (fun c hc => ?_) | with_reducible refine Cx.readLanes_keeps _ _ _ _ _ _ _ _ (by assumption) (fun c g hc => ?_) | with_reducible refine Cx.edge_keeps _ _ _ _ (by assumption) (fun c d hc => ?_) | with_reducible refine Cx.edgeLine_keeps _ _ _ _ (by assumption) (fun c d hc => ?_) | with_reducible refine onFrame_keeps _ _ _ (by assumption) (fun f => ?_) | with_reducible refine onEngine_keeps _ _ _ (by assumption) ?_ | with_reducible refine Cx.onQueue_keeps _ _ _ (by assumption) (fun x => ?_) | with_reducible refine Cx.arrival_keeps _ _ _ _ _ (by assumption) (fun b t => ?_) | with_reducible refine Cx.awaitLine_keeps _ _ _ ?_ | with_reducible exact tileBody_keeps _ _ _ _ _ _ _ hc | with_reducible exact copyBody_keeps _ _ _ _ _ _ _ _ hc | with_reducible exact drainBody_keeps _ _ _ _ _ _ _ _ _ _ hc | with_reducible refine waitvPoll_keeps _ _ _ _ _ _ _ _ _ _ ?_ | split | dsimp only))
  all_goals (try grind [= mk_mems, = mems_fold, Res.All])

theorem execXor_keeps (h : Hdr) (t : ITy) (o : Ops2) (s : State) {u : State} (hm : memsOk s.mems) (e : execXor h t o s = .next u) :
    memsOk u.mems := by
  unfold execXor at e
  (repeat' split at e) <;> grind [= mk_mems, = mems_fold, → bits2_keeps]

theorem execOr_keeps (h : Hdr) (t : ITy) (o : Ops2) (s : State) {u : State} (hm : memsOk s.mems) (e : execOr h t o s = .next u) :
    memsOk u.mems := by
  unfold execOr at e
  (repeat' split at e) <;> grind [= mk_mems, = mems_fold, → bits2_keeps]

theorem execAnd_keeps (h : Hdr) (t : ITy) (o : Ops2) (s : State) {u : State} (hm : memsOk s.mems) (e : execAnd h t o s = .next u) :
    memsOk u.mems := by
  unfold execAnd at e
  (repeat' split at e) <;> grind [= mk_mems, = mems_fold, → bits2_keeps]

theorem int2_keeps (h : Hdr) (t : ITy) (lat : Nat) (sat : Bool) (o : Ops2) (f : Int → Int → Int) (s : State) {u : State} (hm : memsOk s.mems) (e : int2 h t lat sat o f s = .next u) :
    memsOk u.mems := by
  unfold int2 at e
  (try dsimp only at e)
  (repeat' split at e) <;> refine issue_keeps hm (fun c act hc => ?_) e
  all_goals
    clear e hm
    (repeat' (first | assumption | with_reducible refine onPath_keeps _ _ _ _ (by assumption) (fun c hc => ?_) | with_reducible refine Cx.readLanes_keeps _ _ _ _ _ _ _ _ (by assumption) (fun c g hc => ?_) | with_reducible refine Cx.edge_keeps _ _ _ _ (by assumption) (fun c d hc => ?_) | with_reducible refine Cx.edgeLine_keeps _ _ _ _ (by assumption) (fun c d hc => ?_) | with_reducible refine onFrame_keeps _ _ _ (by assumption) (fun f => ?_) | with_reducible refine onEngine_keeps _ _ _ (by assumption) ?_ | with_reducible refine Cx.onQueue_keeps _ _ _ (by assumption) (fun x => ?_) | with_reducible refine Cx.arrival_keeps _ _ _ _ _ (by assumption) (fun b t => ?_) | with_reducible refine Cx.awaitLine_keeps _ _ _ ?_ | with_reducible exact tileBody_keeps _ _ _ _ _ _ _ hc | with_reducible exact copyBody_keeps _ _ _ _ _ _ _ _ hc | with_reducible exact drainBody_keeps _ _ _ _ _ _ _ _ _ _ hc | with_reducible refine waitvPoll_keeps _ _ _ _ _ _ _ _ _ _ ?_ | split | dsimp only))
  all_goals (try grind [= mk_mems, = mems_fold, Res.All])

theorem execImax_keeps (h : Hdr) (t : ITy) (o : Ops2) (s : State) {u : State} (hm : memsOk s.mems) (e : execImax h t o s = .next u) :
    memsOk u.mems := by
  unfold execImax at e
  (repeat' split at e) <;> grind [= mk_mems, = mems_fold, → int2_keeps]

theorem execImin_keeps (h : Hdr) (t : ITy) (o : Ops2) (s : State) {u : State} (hm : memsOk s.mems) (e : execImin h t o s = .next u) :
    memsOk u.mems := by
  unfold execImin at e
  (repeat' split at e) <;> grind [= mk_mems, = mems_fold, → int2_keeps]

theorem execImulh_keeps (h : Hdr) (t : ITy) (o : Ops2) (s : State) {u : State} (hm : memsOk s.mems) (e : execImulh h t o s = .next u) :
    memsOk u.mems := by
  unfold execImulh at e
  (repeat' split at e) <;> grind [= mk_mems, = mems_fold, → int2_keeps]

theorem execImul_keeps (h : Hdr) (t : ITy) (o : Ops2) (s : State) {u : State} (hm : memsOk s.mems) (e : execImul h t o s = .next u) :
    memsOk u.mems := by
  unfold execImul at e
  (repeat' split at e) <;> grind [= mk_mems, = mems_fold, → int2_keeps]

theorem execIsub_keeps (h : Hdr) (t : ITy) (sat : Bool) (o : Ops2) (s : State) {u : State} (hm : memsOk s.mems) (e : execIsub h t sat o s = .next u) :
    memsOk u.mems := by
  unfold execIsub at e
  (repeat' split at e) <;> grind [= mk_mems, = mems_fold, → int2_keeps]

theorem execIadd_keeps (h : Hdr) (t : ITy) (sat : Bool) (o : Ops2) (s : State) {u : State} (hm : memsOk s.mems) (e : execIadd h t sat o s = .next u) :
    memsOk u.mems := by
  unfold execIadd at e
  (repeat' split at e) <;> grind [= mk_mems, = mems_fold, → int2_keeps]

theorem State.rcLeft_mems (s : State) (b : Block) (wave : Nat) :
    (State.rcLeft s b wave).mems = s.mems := by
  unfold State.rcLeft
  repeat' split
  all_goals grind [= mk_mems, = mems_fold, = State.setCore_mems]

theorem State.rcTrim_keeps (s : State) (core : Nat) (hm : memsOk s.mems) :
    memsOk (State.rcTrim s core).mems := by
  unfold State.rcTrim
  (repeat' (first | split | with_reducible refine foldl_ok (fun _ _ _ => ?_) _ _ ?_ | dsimp only)) <;> grind [= mk_mems, = mems_fold]

grind_pattern State.rcTrim_keeps => State.rcTrim s core

theorem State.rcKept_keeps (s : State) (ref : WaveRef) (hm : memsOk s.mems) :
    memsOk (State.rcKept s ref).mems := by
  unfold State.rcKept
  (repeat' (first | split | with_reducible refine foldl_ok (fun _ _ _ => ?_) _ _ ?_ | dsimp only)) <;> grind [= mk_mems, = mems_fold, = State.rcLeft_mems]

grind_pattern State.rcKept_keeps => State.rcKept s ref

theorem State.rehand_mems (s : State) (ref : WaveRef) (missed : Bool) :
    (State.rehand s ref missed).mems = s.mems := by
  unfold State.rehand
  repeat' split
  all_goals grind [= mk_mems, = mems_fold, = State.swapWaves_mems, = State.setBlock_mems]

theorem State.issuedBy_keeps (s : State) (ref : WaveRef) (missed : Bool) (hm : memsOk s.mems) :
    memsOk (State.issuedBy s ref missed).mems := by
  unfold State.issuedBy
  (repeat' (first | split | with_reducible refine foldl_ok (fun _ _ _ => ?_) _ _ ?_ | dsimp only)) <;> grind [= mk_mems, = mems_fold, = State.rehand_mems]

grind_pattern State.issuedBy_keeps => State.issuedBy s ref missed

theorem Cx.atLine_mems (c : Cx) :
    (Cx.atLine c).s.mems = c.s.mems := by
  unfold Cx.atLine
  repeat' split
  all_goals grind [= mk_mems, = mems_fold, = Cx.setWv_mems]

theorem Cx.fetch_keeps (c : Cx) (hm : memsOk c.s.mems) :
    (Cx.fetch c).All fun u => memsOk u.mems := by
  unfold Cx.fetch
  (repeat' (first | split | with_reducible refine foldl_ok (fun _ _ _ => ?_) _ _ ?_ | dsimp only)) <;> grind [= mk_mems, = mems_fold, = Cx.atLine_mems, = Cx.close_mems, = Cx.setWv_mems, = State.requestLine_mems, Fetched.All]

theorem State.issuer_mems (s : State) (ref : WaveRef) (grp : Nat) {u : Cx} (e : State.issuer s ref grp = some u) :
    u.s.mems = s.mems := by
  unfold State.issuer at e
  (repeat' split at e) <;> grind [= mk_mems, = mems_fold, → State.cxAt_mems, = Cx.setWv_mems]

theorem State.hostRead_mems (s : State) (fn : Nat) (off : Nat) {u : State} (e : State.hostRead s fn off = .next u) :
    u.mems = s.mems := by
  unfold State.hostRead at e
  (repeat' split at e) <;> grind [= mk_mems, = mems_fold, = State.emit_mems]

theorem State.rejectEntry_keeps (s : State) (c : CmdSrc) (opc : Nat) {u : State} (hm : memsOk s.mems) (e : State.rejectEntry s c opc = .next u) :
    memsOk u.mems := by
  unfold State.rejectEntry at e
  (repeat' split at e) <;> grind [= mk_mems, = mems_fold, = State.take_mems]

end Sys2Proof.Machine
end

