-- ==== Sys2Proof/Laws/Lines.lean ====
section
/-!
SUPPORT. The laws of lines and buffers byte by byte: lines merged under a mask, lines of memory, the bytes a buffer holds, and the bytes of
scratch segments.
-/

namespace Sys2Proof.Machine

set_option linter.all false
set_option Elab.async false

/-! ### Bytes of a line -/

theorem byteOf_getLsbD (d : LineData) (i k : Nat) : (byteOf d i).getLsbD k = (decide (k < 8) && d.getLsbD (8 * i + k)) := by
  simp [byteOf]

theorem byteOnes (k : Nat) : BitVec.getLsbD (0xFF : LineData) k = decide (k < 8) := by
  have h : BitVec.getLsbD (BitVec.ofNat 512 255) k = decide (k < 8) := by
    rw [BitVec.getLsbD_ofNat, show (255 : Nat) = 2 ^ 8 - 1 from rfl, Nat.testBit_two_pow_sub_one]
    by_cases h8 : k < 8
    · have h5 : k < 512 := by omega
      simp only [h5, h8, decide_true, Bool.true_and]
    · simp only [h8, decide_false, Bool.and_false]
  exact h

theorem byteOf_setByte (d : LineData) (i j : Nat) (b : Byte) (hj : j < 64) :
    byteOf (setByte d i b) j = if i = j then b else byteOf d j := by
  apply BitVec.eq_of_getLsbD_eq
  intro k hk
  rw [byteOf_getLsbD]
  have h1 : 8 * j + k < 512 := by omega
  simp only [hk, decide_true, Bool.true_and, setByte, BitVec.getLsbD_or, BitVec.getLsbD_and, BitVec.getLsbD_not, BitVec.getLsbD_shiftLeft,
    h1, byteOnes, BitVec.getLsbD_setWidth]
  by_cases e : i = j
  · subst e
    have h2 : ¬ (8 * i + k < 8 * i) := by omega
    have h3 : 8 * i + k - 8 * i = k := by omega
    have h5 : k < 512 := by omega
    simp only [h2, h3, hk, h5, decide_false, decide_true, Bool.not_false, Bool.true_and, Bool.not_true, Bool.and_false, Bool.false_or, if_true]
  · simp only [if_neg e, byteOf_getLsbD, hk, decide_true, Bool.true_and]
    by_cases h2 : 8 * j + k < 8 * i
    · simp only [h2, decide_true, Bool.not_true, Bool.false_and, Bool.not_false, Bool.and_true, Bool.or_false]
    · have h5 : ¬ (8 * j + k - 8 * i < 8) := by omega
      have h7 : b.getLsbD (8 * j + k - 8 * i) = false := BitVec.getLsbD_of_ge _ _ (by omega)
      simp only [h5, h7, decide_false, Bool.and_false, Bool.not_false, Bool.and_true, Bool.or_false]

theorem merge_fold (new : LineData) (m : ByteMask) (j : Nat) (hj : j < 64) (xs : List Nat) (old : LineData) :
    byteOf (xs.foldl (fun d i => if m.getLsbD i then setByte d i (byteOf new i) else d) old) j =
      if xs.contains j && m.getLsbD j then byteOf new j else byteOf old j := by
  induction xs generalizing old with
  | nil => rfl
  | cons x xs ih =>
    rw [List.foldl_cons, ih]
    by_cases hx : x = j
    · subst hx
      cases m.getLsbD x
      · simp
      · simp [byteOf_setByte _ _ _ _ hj]
    · have hx' : ¬ j = x := fun e => hx e.symm
      by_cases hm : m.getLsbD x = true
      · simp [hm, byteOf_setByte _ _ _ _ hj, hx, hx']
      · simp [hm, hx']

/-- A byte of merged lines. -/
theorem byteOf_mergeLine (old new : LineData) (m : ByteMask) (j : Nat) (hj : j < 64) :
    byteOf (mergeLine old new m) j = if m.getLsbD j then byteOf new j else byteOf old j := by
  rw [mergeLine, merge_fold _ _ _ hj]
  simp [hj]

@[simp] theorem byteOf_zero (j : Nat) : byteOf 0 j = 0 := by simp [byteOf]

/-! ### Lines of memory -/

theorem putLine_fold (a : Nat) (mask : ByteMask) (d : LineData) (x : Nat) (xs : List Nat) (m : List Host.Cell) (w : memWf m = true) :
    memRead (xs.foldl (fun m i => if mask.getLsbD i then memWrite m (a + i) (byteOf d i) else m) m) x =
      if a ≤ x ∧ xs.contains (x - a) ∧ mask.getLsbD (x - a) then byteOf d (x - a) else memRead m x := by
  induction xs generalizing m with
  | nil => simp
  | cons y ys ih =>
    rw [List.foldl_cons]
    have hw : memWf (if mask.getLsbD y then memWrite m (a + y) (byteOf d y) else m) = true := by
      split
      · exact memWf_write _ _ _ w
      · exact w
    rw [ih _ hw]
    by_cases hy : x = a + y
    · subst hy
      have : a + y - a = y := by omega
      rw [this]
      cases mask.getLsbD y
      · simp
      · simp [memRead_write_same _ _ _ w]
    · have hread : memRead (if mask.getLsbD y then memWrite m (a + y) (byteOf d y) else m) x = memRead m x := by
        split
        · exact memRead_write_other _ _ w hy
        · rfl
      rw [hread]
      have he : a ≤ x → (ys.contains (x - a) ↔ (y :: ys).contains (x - a)) := by
        intro hle
        have : ¬ (x - a = y) := by omega
        simp [this]
      by_cases hle : a ≤ x
      · simp only [hle, true_and, he hle]
      · simp only [hle, false_and]

/-- A read after a masked line write. -/
theorem memRead_putLine (m : List Host.Cell) (a : Nat) (mask : ByteMask) (d : LineData) (x : Nat) (w : memWf m = true) :
    memRead (memPutLine m a mask d) x =
      if a ≤ x ∧ x < a + 64 ∧ mask.getLsbD (x - a) then byteOf d (x - a) else memRead m x := by
  rw [memPutLine, putLine_fold _ _ _ _ _ _ w]
  have h : a ≤ x → (((List.range 64).contains (x - a) = true) ↔ x < a + 64) := by
    intro hle
    simp only [List.contains_iff_mem, List.mem_range]
    omega
  by_cases hle : a ≤ x
  · simp only [hle, true_and, h hle]
  · simp only [hle, false_and]

theorem memNat_byte (m : List Host.Cell) (a n i : Nat) (h : i < n) : memNat m a n / 2 ^ (8 * i) % 256 = (memRead m (a + i)).toNat := by
  induction n generalizing a i with
  | zero => omega
  | succ n ih =>
    cases i with
    | zero =>
      have := (memRead m a).isLt
      simp only [memNat, Nat.mul_zero, Nat.pow_zero, Nat.div_one, Nat.add_zero]
      omega
    | succ i =>
      have e : 2 ^ (8 * (i + 1)) = 256 * 2 ^ (8 * i) := by rw [Nat.mul_add, Nat.pow_add]; omega
      have h1 : (memNat m a (n + 1)) / 256 = memNat m (a + 1) n := by
        have := (memRead m a).isLt
        simp only [memNat]; omega
      rw [e, ← Nat.div_div_eq_div_mul, h1, ih _ _ (by omega)]
      congr 2; omega

/-- A byte of a line of memory. -/
theorem byteOf_memLine (m : List Host.Cell) (a i : Nat) (h : i < 64) : byteOf (memLine m a) i = memRead m (a + i) := by
  apply BitVec.eq_of_toNat_eq
  rw [← memNat_byte m a 64 i h]
  have hlt : ∀ n a, memNat m a n < 2 ^ (8 * n) := by
    intro n
    induction n with
    | zero => intro a; simp [memNat]
    | succ n ih =>
      intro a
      have h1 := ih (a + 1)
      have h2 := (memRead m a).isLt
      simp only [memNat]
      have e : 2 ^ (8 * (n + 1)) = 256 * 2 ^ (8 * n) := by rw [Nat.mul_add, Nat.pow_add]; omega
      rw [e]; omega
  simp only [byteOf, memLine, BitVec.extractLsb'_toNat, BitVec.toNat_ofNat, Nat.shiftRight_eq_div_pow]
  rw [Nat.mod_eq_of_lt (hlt 64 a)]

/-! ### Bytes that a buffer holds -/

theorem bufFind_map (b : List BufLine) (line k : Nat) (f : BufLine → BufLine) (hf : ∀ x, (f x).line = x.line) :
    bufFind (b.map fun x => if x.line == line then f x else x) k = if k = line then (bufFind b k).map f else bufFind b k := by
  induction b with
  | nil => simp [bufFind]
  | cons x b ih =>
    simp only [bufFind, List.map_cons, List.find?_cons] at ih ⊢
    by_cases hx : x.line = line
    · by_cases hk : k = line
      · subst hk; subst hx; simp [hf]
      · have h1 : (x.line == k) = false := by rw [hx]; simp; exact fun e => hk e.symm
        have h2 : ((f x).line == k) = false := by rw [hf]; exact h1
        simp only [hx, beq_self_eq_true, if_true]
        rw [h2]
        rw [hx] at h1
        rw [h1]
        simpa [hk] using ih
    · have h0 : (x.line == line) = false := by simp [hx]
      simp only [h0, Bool.false_eq_true, if_false]
      by_cases hk : x.line = k
      · have : ¬ k = line := fun e => hx (hk.trans e)
        simp [hk, this]
      · have : (x.line == k) = false := by simp [hk]
        rw [this]; exact ih

/-- Bytes merged into a buffer: the new ones where the mask names them, the old ones elsewhere. -/
theorem bufByte_merge (b : List BufLine) (line : Nat) (mask : ByteMask) (data : LineData) (log : Option (Nat × Nat)) (mk : Nat × Nat)
    (slot : Nat) (poison : Bool) (bad : BitVec 8) (k i : Nat) (hi : i < 64) :
    bufByte (bufMerge b line mask data log mk slot poison bad) k i =
      if k = line ∧ mask.getLsbD i then some (byteOf data i) else bufByte b k i := by
  unfold bufMerge
  cases hb : bufFind b line with
  | some y =>
    dsimp only
    unfold bufByte
    rw [bufFind_map b line k (fun x => { x with
      mask := x.mask ||| mask, data := mergeLine x.data data mask, bad := (x.bad &&& ~~~wholeDwords mask) ||| bad
      poison := poison || (x.poison && mask != BitVec.allOnes 64) }) fun _ => rfl]
    by_cases hk : k = line
    · subst hk
      rw [hb]
      simp only [if_true, Option.map_some, BitVec.getLsbD_or, byteOf_mergeLine _ _ _ _ hi, true_and]
      cases mask.getLsbD i <;> cases y.mask.getLsbD i <;> simp
    · simp [hk]
  | none =>
    dsimp only
    unfold bufByte
    generalize hn : BufLine.mk line mask (mergeLine 0 data mask) log false mk bad poison slot = new
    have this : bufFind (new :: b) k = if k = line then some new else bufFind b k := by
      subst hn
      simp only [bufFind, List.find?_cons]
      by_cases hk : k = line
      · simp [hk]
      · have h1 : (line == k) = false := by simp; exact fun e => hk e.symm
        simp [h1, hk]
    rw [this]
    by_cases hk : k = line
    · subst hk
      subst hn
      rw [hb]
      simp only [if_true, byteOf_mergeLine _ _ _ _ hi, true_and]
      cases mask.getLsbD i <;> simp
    · simp [hk]

end Sys2Proof.Machine
end

