-- ==== Sys2Proof/Tests/Slice0.lean ====
section
/-!
SUPPORT. Tests: what WellFormed refuses, words written out from the manual's encodings, values of the manual's worked tables, and for the
hypotheses of the statements one state that meets them.
-/

namespace Sys2Proof.Tests

set_option linter.all false
set_option Elab.async false

open Sys2Proof Sys2Proof.Machine

/-! ### A small machine: one wave of two threads on core 0, with one symbol of each kind -/

def p7 : Hdr := { gn := false, gp := 7, stall := 0, y := false, da := false, db := false, dc := false }

/-- Guard !p2, a stall of 5 and Y. -/
def g2 : Hdr := { p7 with gn := true, gp := 2, stall := 5, y := true }

/-- v0 = 5, 7; v1 = -3, 2; v2 and v3 a pointer to 0x0200_0000_0000_1000 and 0x...1004; v4 unwritten; s4 = 6, s5 a pointer, s6 = 1. -/
def regs : RegCtx :=
  { nv := 16, vregs := [[some 5, some 7], [some 0xFFFFFFFD, some 2], [some 0x1000, some 0x1004], [some 0x02000000, some 0x02000000]],
    scalars := [0x0300000000001000, 0, 0, 0, 6, 0x0200000000001000, 1], preds := [1, 3], fstat := 0 }

def wave : Wave := { Wave.default with present := 3, groups := [{ lanes := 3, pc := 0x0100000000000000, last := 0 }], regs := regs }

def sym (kind : Nat) (count : Nat) : SymRec :=
  { kind := kind, num := 0, count := count, first := 0, last := 0, plSwz := 0, depth := 4, wavesPerGroup := 0, place := 0 }

def kernel : Kernel := { probeKernel with nv := 16, syms := [sym 0 32, sym 1 0, sym 2 4, sym 3 2, sym 4 0, sym 5 16] }

def block : Block :=
  { probeBlock with
    waves := [wave], bound := [(0, 0), (1, 0), (2, 0), (3, 0), (4, 0), (5, 0)], segCount := 64, bankCount := 4,
    bars := [{ sym := 0, unit := 0, p := 9, e := 4, a := 0, q := 0, arrived := 0, dropped := 0, lastSite := none }],
    queues := [{ sym := 0, unit := 0, ring := [11], g := 1 }], tricks := [{ sym := 0, unit := 0, signed := 0, count := 0, op := none }],
    tags := [{ sym := 0, unit := 0, ready := true, count := 0 }] }

/-- An entry of e4m3 (R99) with one dimension of 32 elements at the pointers' address. -/
def e4m3 : TEntry := [0x8400000000530C07, 0x0200000000001000, 0, 0x0000200000000000]

/-- The same of 32-bit unsigned integers. -/
def n32 : TEntry := [0x8400000000180000, 0x0200000000001000, 0, 0x0000200000000000]

/-- ASID 7; handle 5 is e4m3, 6 is P16 in planes, 7 is n32, 8 is e4m3 with scales, 9 is e4m3 in planes. -/
def ctx : Ctx :=
  { probeCtx with
    desc := [7], table := [[], [], [], [], [], e4m3, [0x8600000000700000, 0x0200000000001000, 0, 0x0000200000000000], n32,
      [0x8410000000530C07, 0x0200000000001000, 0x0200000000001000, 0x0000200000000000],
      [0x8600000000530C07, 0x0200000000001000, 0, 0x0000200000000000]] }

/-- The line at the pointers' address, its checks for RD and W passed. -/
def line : L2Line :=
  { tenant := 0, asid := 7, line := lineNo 0x0200000000001000, phys := false, rd := true, w := true, x := false, addr := 0x4000,
    owner := .loc, dirty := false, reported := false, sharers := 0, data := 0 }

def base : State :=
  { State.reset with
    sel := some { ref := { lid := 0, rank := 0, wave := 0 }, grp := 0, inst := 0 }, ctxs := [ctx], kernels := [kernel],
    launches := [probeLaunch], blocks := [block], l2 := [line], mem := [(0x4000, 0x2A), (0x4001, 0x80)] }

def cx : Cx :=
  { s := base, sel := { ref := { lid := 0, rank := 0, wave := 0 }, grp := 0, inst := 0 }, lch := probeLaunch, krn := kernel, ctx := ctx,
    blk := block, rv := regs, alts := [] }

def ready (c : Cx) (h : Hdr) (i : Info) : Bool :=
  (guardOpd h :: i.ops).all (fun o => (c.hazards o).isEmpty) && (c.firstTrap h i).isNone && c.guardMask h != 0

theorem base_cx : base.cx? = some cx := by with_unfolding_all rfl

theorem canIssue (h : Hdr) (i : Info) (hr : ready cx h i = true) : CanIssue base cx h i := by
  simp only [ready, Bool.and_eq_true, List.all_eq_true, List.isEmpty_iff, Option.isNone_iff_eq_none, bne_iff_ne, ne_eq] at hr
  exact ⟨base_cx, hr.1.1, hr.1.2, hr.2⟩

/-- The instruction on this machine. -/
def after (i : Instr) : State := match exec i base with
  | .next u => u
  | _ => base

def lane (i : Instr) (n l : Nat) : Option Word := ((after i).regs cx.ref).lane n l
def scalar (i : Instr) (n : Nat) : DWord := ((after i).regs cx.ref).scalar n
def pred (i : Instr) (n : Nat) : Mask := ((after i).regs cx.ref).pred n

theorem test_decode_iadd : decodeTableWord 64 0xE123ABC005755000 = some (.iadd { g2 with da := true, db := true } .n32 true (.v 5 0xABC 0x123)) := by decide +kernel
theorem test_decode_isub : decodeTableWord 64 0x10FE0060050E0014 = some (.isub p7 .i16 false (.s 5 6 0xFE)) := by decide +kernel
theorem test_decode_imul : decodeTableWord 96 0xFFFFFFFB30000060040E0029 = some (.imul p7 .i64 (.i 4 6 0xFFFFFFFB)) := by decide +kernel
theorem test_decode_imulh : decodeTableWord 64 0x70060040020E0030 = some (.imulh p7 .n64 (.v 2 4 6)) := by decide +kernel
theorem test_decode_imin : decodeTableWord 96 0x0000000000050040030E004D = some (.imin p7 .i8 (.us 3 4 5)) := by decide +kernel
theorem test_decode_imax : decodeTableWord 96 0x8000000148000040030E005D = some (.imax p7 .n8 (.ui 3 4 0x80000001)) := by decide +kernel
theorem test_decode_and : decodeTableWord 64 0x50030020010E0060 = some (.and p7 .n16 (.v 1 2 3)) := by decide +kernel
theorem test_decode_or : decodeTableWord 64 0x60030020010E0074 = some (.or p7 .n32 (.s 1 2 3)) := by decide +kernel
theorem test_decode_xor : decodeTableWord 96 0x000000FF20000020010E0089 = some (.xor p7 .i32 (.i 1 2 0xFF)) := by decide +kernel
theorem test_decode_shl : decodeTableWord 64 0x60030020010E0090 = some (.shl p7 .n32 (.v 1 2 3)) := by decide +kernel
theorem test_decode_shr : decodeTableWord 96 0x0000001F60000020010E00A9 = some (.shr p7 .n32 (.i 1 2 31)) := by decide +kernel
theorem test_decode_sar : decodeTableWord 64 0x20030020010E00B4 = some (.sar p7 .i32 (.s 1 2 3)) := by decide +kernel
theorem test_decode_rot : decodeTableWord 64 0x60030020010E00C0 = some (.rot p7 .n32 (.v 1 2 3)) := by decide +kernel
theorem test_decode_icmp : decodeTableWord 96 0x0000000860000010110E00D9 = some (.icmp p7 .lt .n32 1 (.i 1 8)) := by decide +kernel
theorem test_decode_ineg : decodeTableWord 64 0x20000060050E0100 = some (.ineg p7 .i32 (.v 5 6)) := by decide +kernel
theorem test_decode_iabs : decodeTableWord 64 0x20000060050E0114 = some (.iabs p7 .i32 (.s 5 6)) := by decide +kernel
theorem test_decode_not : decodeTableWord 96 0x0000000070000060050E012D = some (.not p7 .n64 (.u 5 6)) := by decide +kernel
theorem test_decode_popc : decodeTableWord 64 0x60000060052E0130 = some (.popc { p7 with da := true } .n32 (.v 5 6)) := by decide +kernel
theorem test_decode_clz : decodeTableWord 64 0x40000060050E0140 = some (.clz p7 .n8 (.v 5 6)) := by decide +kernel
theorem test_decode_brev : decodeTableWord 64 0x50000060050E0150 = some (.brev p7 .n16 (.v 5 6)) := by decide +kernel
theorem test_decode_mov : decodeTableWord 64 0x70000060040E0164 = some (.mov p7 .n64 (.s 4 6)) := by decide +kernel
theorem test_decode_cvti : decodeTableWord 64 0x30000060040E0170 = some (.cvti p7 .i64 (.v 4 6)) := by decide +kernel
theorem test_decode_imad : decodeTableWord 128 0x00000000800A000080070060058E0182 = some (.imad { p7 with dc := true } .i32 true (.vec 5 (.s 6) (.v 7) (.v 8))) := by decide +kernel
theorem test_decode_bfi : decodeTableWord 128 0x000008045006000000070060050E018A = some (.bfi p7 .n32 (.vec 5 (.v 6) (.s 7) (.i 0x0804))) := by decide +kernel
theorem test_decode_isel : decodeTableWord 128 0x0000000000070000B0070060050E0196 = some (.isel p7 .n64 true 3 (.uni 5 6 7)) := by decide +kernel
theorem test_decode_bfx : decodeTableWord 96 0x0000040820000060050E0199 = some (.bfx p7 .i32 (.v 5 6) 8 4) := by decide +kernel
theorem test_decode_lea : decodeTableWord 96 0xFFFFFE0160020040040E01A1 = some (.lea p7 .n32 (.vec 4 (.s 4) 2) 1 0xFFFFFE) := by decide +kernel
theorem test_decode_movi : decodeTableWord 96 0xFFFFFFFF30000000090E01AD = some (.movi p7 .i64 (.s 9) 0xFFFFFFFF) := by decide +kernel
theorem test_decode_nop : decodeTableWord 64 0x0000000000155200 = some (.nop g2) := by decide +kernel
theorem test_decode_nopl : decodeTableWord 96 0x0000000000000000000E0205 = some (.nopl p7) := by decide +kernel
theorem test_decode_bra : decodeTableWord 96 0xFFFFFFE000000000000E0209 = some (.bra p7 0xFFFFFFE0) := by decide +kernel
theorem test_decode_brt : decodeTableWord 128 0x000000408FFF000000000090000E020E = some (.brt p7 (.s 9) 4095 0x40) := by decide +kernel
theorem test_decode_meet : decodeTableWord 96 0x0000008000000000000E0211 = some (.meet p7 0x80) := by decide +kernel
theorem test_decode_exit : decodeTableWord 64 0x0000000000155214 = some (.exit g2) := by decide +kernel
theorem test_decode_yield : decodeTableWord 64 0x00000000000E0218 = some (.yield p7) := by decide +kernel
theorem test_decode_trap : decodeTableWord 96 0xDEADBEEF00000000000E021D = some (.trap p7 0xDEADBEEF) := by decide +kernel
theorem test_decode_bkpt : decodeTableWord 64 0x00000000000E0220 = some (.bkpt p7) := by decide +kernel
theorem test_decode_shfl : decodeTableWord 96 0xFFFFFFFF20000060070E0249 = some (.shfl p7 .rel 7 6 (.i 0xFFFFFFFF)) := by decide +kernel
theorem test_decode_lred : decodeTableWord 96 0x0000002A00000060070E0251 = some (.lred p7 .add (.flt .bf16) .rp 7 6) := by decide +kernel
theorem test_decode_vote : decodeTableWord 64 0x200000D0040E0254 = some (.vote p7 .uni 4 true 5) := by decide +kernel
theorem test_decode_ballot : decodeTableWord 64 0x000000500A0E0258 = some (.ballot p7 10 false 5) := by decide +kernel
theorem test_decode_pset : decodeTableWord 64 0x200300A0010E025C = some (.pset p7 .xor 1 true 2 false 3) := by decide +kernel
theorem test_decode_fadd : decodeTableWord 64 0x80030020040E0420 = some (.fadd p7 .bf16 .rn false true (.v 4 2 3)) := by decide +kernel
theorem test_decode_fsub : decodeTableWord 96 0x3F80000050000020040E0439 = some (.fsub p7 .f32 .rz true false (.i 4 2 0x3F800000)) := by decide +kernel
theorem test_decode_fmul : decodeTableWord 64 0x30030020040E0474 = some (.fmul p7 .f16 .rm false false (.s 4 2 3)) := by decide +kernel
theorem test_decode_ffma : decodeTableWord 128 0x000000002006000090030020040E06A2 = some (.ffma p7 .f32 .rp true false (.vec 4 (.v 2) (.v 3) (.s 9))) := by decide +kernel
theorem test_decode_fmin : decodeTableWord 64 0x00030020040E0490 = some (.fmin p7 .f32 false (.v 4 2 3)) := by decide +kernel
theorem test_decode_fmax : decodeTableWord 64 0x80030020040E04D4 = some (.fmax p7 .f16 true (.s 4 2 3)) := by decide +kernel
theorem test_decode_fcmp : decodeTableWord 64 0x00030020320E04F0 = some (.fcmp p7 .un .f32 2 (.v 2 3)) := by decide +kernel
theorem test_decode_fsel : decodeTableWord 128 0x000000000002000010030020040E06BA = some (.fsel p7 .bf16 false 1 (.vec 4 (.v 2) (.v 3))) := by decide +kernel
theorem test_decode_frcp : decodeTableWord 64 0x40000020040E0520 = some (.frcp p7 .f32 true false (.v 4 2)) := by decide +kernel
theorem test_decode_frsq : decodeTableWord 64 0x80000020040E0560 = some (.frsq p7 .f16 false true (.v 4 2)) := by decide +kernel
theorem test_decode_fsqrt : decodeTableWord 96 0x0000000010000020040E05AD = some (.fsqrt p7 .bf16 .rz false false (.u 4 2)) := by decide +kernel
theorem test_decode_fexp2 : decodeTableWord 64 0x00000020040E05B4 = some (.fexp2 p7 .f32 false false (.s 4 2)) := by decide +kernel
theorem test_decode_flog2 : decodeTableWord 64 0x00000020040E05E0 = some (.flog2 p7 .f32 false false (.v 4 2)) := by decide +kernel
theorem test_decode_fsin : decodeTableWord 64 0x00000020040E0610 = some (.fsin p7 .f32 false false (.v 4 2)) := by decide +kernel
theorem test_decode_fcos : decodeTableWord 64 0x00000020040E0660 = some (.fcos p7 .bf16 false false (.v 4 2)) := by decide +kernel
theorem test_decode_frnd : decodeTableWord 64 0x30000020040E0680 = some (.frnd p7 .f16 .rm false false (.v 4 2)) := by decide +kernel
theorem test_decode_cvtf : decodeTableWord 128 0x000000008085000000000020040E06C2 = some (.cvtf p7 .bf16 .f32 .rz true (.vec 4 (.s 2))) := by decide +kernel
theorem test_decode_cvtfi : decodeTableWord 128 0x000000000413000000000020040E06CA = some (.cvtfi p7 .n8 .f16 .rm (.vec 4 (.v 2))) := by decide +kernel
theorem test_decode_cvtif : decodeTableWord 128 0x000000000380000000000020040E06D6 = some (.cvtif p7 .bf16 .i64 .rn (.uni 4 2)) := by decide +kernel
theorem test_decode_npack : decodeTableWord 128 0x000000080016050000030010020E06DA = some (.npack p7 .rp true 2 1 5 8 (some 3)) := by decide +kernel
theorem test_decode_nunpk : decodeTableWord 128 0x0000001F0000050000000020080E06DE = some (.nunpk p7 8 2 5 31 none) := by decide +kernel
theorem test_decode_pmul : decodeTableWord 64 0x80030020040E0710 = some (.pmul p7 .p16 true (.v 4 2 3)) := by decide +kernel
theorem test_decode_ppow : decodeTableWord 96 0xFFFFFFFE00000020040E0759 = some (.ppow p7 .p32 false (.i 4 2 0xFFFFFFFE)) := by decide +kernel
theorem test_decode_pcmp : decodeTableWord 64 0x00030020090E0770 = some (.pcmp p7 .p16 .lead 1 (.v 2 3)) := by decide +kernel
theorem test_decode_pconj : decodeTableWord 64 0x90000020040E0790 = some (.pconj p7 .p16 true 4 2) := by decide +kernel
theorem test_decode_pdef : decodeTableWord 64 0x20000020030E0794 = some (.pdef p7 .p32 3 2) := by decide +kernel
theorem test_decode_pcvt : decodeTableWord 64 0x40000020040E0798 = some (.pcvt p7 .p8 .p16 4 2) := by decide +kernel
theorem test_decode_pred : decodeTableWord 64 0x00000020040E079C = some (.pred p7 .p8 4 2) := by decide +kernel
theorem test_decode_ptof : decodeTableWord 96 0x0000001250000020040E07A1 = some (.ptof p7 .rz true .f16 .p32 4 2) := by decide +kernel
theorem test_decode_pcos : decodeTableWord 96 0x0000002100000050060E07A5 = some (.pcos p7 .rn false .bf16 .p16 6 5) := by decide +kernel
theorem test_decode_psin : decodeTableWord 96 0x0000000000000050060E07A9 = some (.psin p7 .rn false .f32 .p8 6 5) := by decide +kernel
theorem test_decode_pvec : decodeTableWord 96 0x0000002130000050060E07AD = some (.pvec p7 .rm false .bf16 .p16 6 5) := by decide +kernel
theorem test_decode_pfromf : decodeTableWord 96 0x0000000100000050060E07B1 = some (.pfromf p7 .p16 .f32 6 5) := by decide +kernel
theorem test_decode_patan : decodeTableWord 96 0x0000002100040050060E07B5 = some (.patan p7 .p16 .bf16 6 5 4) := by decide +kernel
theorem test_decode_ld : decodeTableWord 96 0x00000020C002004003020801 = some (.ld { p7 with gp := 1 } (.pha .p16) (.vec 3 ⟨.s 4, .v 2, 0, 0⟩)) := by decide +kernel
theorem test_decode_st : decodeTableWord 96 0x00000000C000006006240809 = some (.st { p7 with gp := 2, da := true } (.pha .p16) ⟨.s 6, .none, 0, 0⟩ 6) := by decide +kernel
theorem test_decode_ldb : decodeTableWord 128 0xFFFFFFF08017090000000020040E0812 = some (.ldb p7 (.int .n64) 4 (.s 2) true 9 0xFFFFFFF0) := by decide +kernel
theorem test_decode_stb : decodeTableWord 128 0x00000010000A090000070020000E0816 = some (.stb p7 (.flt .bf16) (.v 2) false 9 0x10 7) := by decide +kernel
theorem test_decode_atom : decodeTableWord 128 0x00000010A738000070060040050E0822 = some (.atom p7 .cas .d (.flt .f32) 5 (.s 4) (.v 6) (some (.s 7)) 0x10) := by decide +kernel
theorem test_decode_waitv : decodeTableWord 128 0xFFFFFFFF1146000000000040050E0826 = some (.waitv p7 true .s .n32 5 (.v 4) (.imm 0xFFFFFFFF)) := by decide +kernel
theorem test_decode_commit : decodeTableWord 64 0x30000000000E0840 = some (.commit p7 .d) := by decide +kernel
theorem test_decode_commitX : decodeTableWord 64 0x100000000E0E0844 = some (.commitX p7 .b 14) := by decide +kernel
theorem test_decode_abort : decodeTableWord 64 0x00000000000E0848 = some (.abort p7 .w) := by decide +kernel
theorem test_decode_acq : decodeTableWord 64 0x40000000000E084C = some (.acq p7 .s) := by decide +kernel
theorem test_decode_fence : decodeTableWord 64 0x00000000210E08E0 = some (.fence p7 1 2) := by decide +kernel
theorem test_decode_icinv : decodeTableWord 64 0x00000000000E08E4 = some (.icinv p7) := by decide +kernel
theorem test_decode_cpy : decodeTableWord 128 0x000010001004020000000040060E0A02 = some (.cpy p7 .s 6 4 (.i 0x1000) 2) := by decide +kernel
theorem test_decode_cpytLd : decodeTableWord 128 0x000000000000010000000080000E0A06 = some (.cpytLd p7 ⟨0, false, .imm 0⟩ 1 8 0) := by decide +kernel
theorem test_decode_cpytSt : decodeTableWord 128 0x00000503400B010000090080000E0A0A = some (.cpytSt p7 .d ⟨3, true, .scl 9⟩ 1 8 5) := by decide +kernel
theorem test_decode_cpyr : decodeTableWord 128 0x000000000000000000050040060E0A0E = some (.cpyr p7 6 4 (.s 5) 0) := by decide +kernel
theorem test_decode_twany : decodeTableWord 128 0x0000003F0000000000000000000E0A22 = some (.twany p7 ⟨0, 63⟩) := by decide +kernel
theorem test_decode_twall : decodeTableWord 128 0x000000400000010000000000000E0A26 = some (.twall p7 ⟨1, 0x40⟩) := by decide +kernel
theorem test_decode_tfirst : decodeTableWord 128 0x00000000FC00070000000000090E0A2A = some (.tfirst p7 9 ⟨7, 0xFC0000000000⟩) := by decide +kernel
theorem test_decode_tclr : decodeTableWord 128 0x000000410000010000000000000E0A2E = some (.tclr p7 ⟨1, 0x41⟩) := by decide +kernel
theorem test_decode_barv : decodeTableWord 128 0x000000000000010000000000030E0B02 = some (.barv p7 3 1) := by decide +kernel
theorem test_decode_bard : decodeTableWord 128 0x000000000000010000000000000E0B06 = some (.bard p7 1) := by decide +kernel
theorem test_decode_barw : decodeTableWord 128 0x000000000000000000000000000E0B0A = some (.barw p7 0) := by decide +kernel
theorem test_decode_bars : decodeTableWord 128 0x000000000000010000000030000E0B0E = some (.bars p7 1 3) := by decide +kernel
theorem test_decode_qpush : decodeTableWord 128 0x000000000000020000000060000E0B22 = some (.qpush p7 2 6) := by decide +kernel
theorem test_decode_qpop : decodeTableWord 128 0x000000000000020000000000070E0B26 = some (.qpop p7 7 2) := by decide +kernel
theorem test_decode_qtry : decodeTableWord 128 0x000000000000020000000000FE0E0B2A = some (.qtry p7 254 2) := by decide +kernel
theorem test_decode_qgrant : decodeTableWord 128 0x000000100000020000000000000E0B2E = some (.qgrant p7 2 16) := by decide +kernel
theorem test_decode_epush : decodeTableWord 96 0xFFFFFFC000030020010E0B41 = some (.epush p7 1 2 3 0xFFFFFFC0) := by decide +kernel
theorem test_decode_epop : decodeTableWord 96 0x0000004000000020010E0B45 = some (.epop p7 1 2 0x40) := by decide +kernel
theorem test_decode_sign : decodeTableWord 128 0x000000000000050000000000000E0C02 = some (.sign p7 5) := by decide +kernel
theorem test_decode_mma : decodeTableWord 128 0x0307080960010600400200102A0E0C12 = some (.mma p7 true ⟨6, 0x2A, ⟨1, false, true, 7⟩, 9, ⟨2, true, false, 3⟩, 8, 4⟩) := by decide +kernel
theorem test_decode_pmma : decodeTableWord 128 0x00000201000400000001000000060C16 = some (.pmma { p7 with gp := 3 } 0 true ⟨0, 0, ⟨0, false, false, 0⟩, 1, ⟨1, false, false, 0⟩, 2, 0⟩) := by decide +kernel
theorem test_decode_acca : decodeTableWord 128 0x009F03FF0000010000000000000E0C22 = some (.acca p7 1 1023 15 9) := by decide +kernel
theorem test_decode_accf : decodeTableWord 128 0x000300050000010000000000000E0C26 = some (.accf p7 1 5 3) := by decide +kernel
theorem test_decode_accz : decodeTableWord 128 0x000000050000010000000000000E0C2A = some (.accz p7 1 5 0) := by decide +kernel
theorem test_decode_accr : decodeTableWord 128 0x0000000500000100000000412C0E0C2E = some (.accr p7 300 1 5 4) := by decide +kernel
theorem test_decode_accw : decodeTableWord 128 0x0000000500000100012C0040004E0C32 = some (.accw { p7 with db := true } 1 5 4 300) := by decide +kernel
theorem test_decode_drain : decodeTableWord 128 0x0001000503AD030020000090080E0C42 = some (.drain p7 (.mem .g 8) true .rz true (some (.d, 9)) 3 1 5 2) := by decide +kernel
theorem test_decode_pdrain : decodeTableWord 128 0x00000000003003002009000008060C46 = some (.pdrain { p7 with gp := 3 } (.mem .d 8) 9 3 0 0 2) := by decide +kernel
theorem test_decode_tdef : decodeTableWord 128 0x000000000000090000000F80000E0C62 = some (.tdef p7 9 248) := by decide +kernel
theorem test_decode_tqry : decodeTableWord 128 0x000000080000090000000000040E0C66 = some (.tqry p7 4 9 8) := by decide +kernel
theorem test_decode_srr : decodeTableWord 64 0x10000100040E0E00 = some (.srr p7 (.s 4) 0x10) := by decide +kernel
theorem test_decode_srw : decodeTableWord 64 0x00040110000E0E04 = some (.srw p7 0x11 4) := by decide +kernel
theorem test_decode_xrd : decodeTableWord 96 0x0000000040000030040E0E11 = some (.xrd p7 .v 4 (.scl 3)) := by decide +kernel
theorem test_decode_xwr : decodeTableWord 96 0x0000010210060000000E0E15 = some (.xwr p7 .v64 (.imm 0x102) 6) := by decide +kernel
theorem test_decode_rtt : decodeTableWord 64 0x00000030000E0E20 = some (.rtt p7 3) := by decide +kernel
theorem test_decode_rttBr : decodeTableWord 64 0x10000060000E0E20 = some (.rttBr p7 6) := by decide +kernel
/-! ### Terms without an encoding: one for each check of WellFormed -/

def hA : Hdr := { p7 with da := true }
def hB : Hdr := { p7 with db := true }
def hC : Hdr := { p7 with dc := true }

/-- !p7, and last-use bits on fields that name no vector source. -/
theorem smoke_header :
    [.nop { p7 with gn := true }, .nop hA, .exit hB, .bra hC 0, .fence hA 1 1, .iadd hC .n32 false (.v 1 2 3),
     .iadd hB .n32 false (.s 1 2 3), .isub hB .n32 false (.i 1 2 3), .imul hA .n32 (.us 1 2 3), .shl hA .n32 (.ui 1 2 3),
     .icmp hA .eq .n32 0 (.us 1 2), .icmp hB .eq .n32 0 (.s 1 2), .mov hA .n32 (.s 1 2), .ineg hB .n32 (.v 1 2),
     .not hA .n32 (.u 1 2)].all (fun i => !Instr.wf i) = true := by decide +kernel

theorem smoke_header_three :
    [.imad hA .n32 false (.vec 1 (.s 2) (.v 3) (.v 4)), .imad hB .n32 false (.vec 1 (.v 2) (.s 3) (.v 4)),
     .imad hC .n32 false (.vec 1 (.v 2) (.v 3) (.i 4)), .ffma hA .f32 .rn false false (.uni 1 2 3 (.s 4)),
     .isel hC .n32 false 0 (.vec 1 (.v 2) (.v 3)), .fsel hA .f32 false 0 (.vec 1 (.s 2) (.v 3)), .isel hB .n32 false 0 (.uni 1 2 3),
     .cvtf hB .f16 .f32 .rn false (.vec 1 (.v 2)), .cvtfi hA .n32 .f32 .rn (.vec 1 (.s 2)), .cvtif hA .f32 .n32 .rn (.uni 1 2),
     .bfx hA .n32 (.u 1 2) 0 1, .bfx hB .n32 (.v 1 2) 0 1, .lea hA .n32 (.vec 2 (.s 4) 6) 0 0, .lea hB .n32 (.uni 2 4 6) 0 0,
     .movi hA .n32 (.v 1) 0].all (fun i => !Instr.wf i) = true := by decide +kernel

theorem smoke_header_others :
    [.brt hA (.s 1) 0 0, .shfl hB .idx 1 2 (.s 3), .shfl hC .idx 1 2 (.v 3), .lred hB .add (.int .n32) .rn 1 2, .vote hA .any 1 false 2,
     .fadd hB .f32 .rn false false (.s 1 2 3), .frcp hA .f32 false false (.s 1 2), .fsqrt hB .f32 .rn false false (.v 1 2),
     .npack hB .rn false 1 2 3 0 none, .pmul hB .p8 false (.s 1 2 3), .pconj hB .p8 false 1 2, .patan hC .p8 .f32 1 2 3,
     .ld hA (.int .n32) (.vec 1 ⟨.s 2, .none, 0, 0⟩), .ld hB (.int .n32) (.vec 1 ⟨.v 2, .s 3, 0, 0⟩), .ld hA (.int .n32) (.uni 1 2 none 0 0),
     .st hB (.int .n32) ⟨.s 2, .none, 0, 0⟩ 1, .ldb hA (.int .n32) 1 (.s 2) false 0 0, .stb hA (.int .n32) (.s 2) false 0 0 1,
     .atom hC .add .d (.int .n32) 1 (.s 2) (.v 3) none 0, .waitv hB false .d .n32 1 (.s 2) (.imm 0), .accw hA 0 0 1 2, .accr hA 1 0 0 2,
     .srw hB 0 1, .xrd hA .v 1 (.imm 2), .xwr hB .s (.imm 2) 1].all (fun i => !Instr.wf i) = true := by decide +kernel

/-- Immediates of three-source and float forms, .x2, the types of LEA, LRED, ATOM and WAITV. -/
theorem smoke_types :
    [.bfi p7 .n32 (.vec 1 (.v 2) (.v 3) (.i 0x10000)), .lea p7 .n16 (.vec 2 (.s 4) 6) 0 0, .lred p7 .and (.flt .f32) .rn 1 2,
     .lred p7 .add (.int .n32) .rz 1 2, .lred p7 .min (.flt .f32) .rz 1 2, .fadd p7 .f32 .rn false true (.v 1 2 3),
     .fmul p7 .f16 .rn false false (.i 1 2 0x10000), .ffma p7 .f32 .rn false true (.vec 1 (.v 2) (.v 3) (.v 4)),
     .ffma p7 .bf16 .rn false false (.vec 1 (.v 2) (.v 3) (.i 0x10000)), .fmin p7 .f32 true (.v 1 2 3), .fmax p7 .f16 false (.i 1 2 0x10000),
     .fcmp p7 .eq .f16 0 (.i 2 0x10000), .frcp p7 .f32 false true (.v 1 2), .frnd p7 .f32 .rn false true (.v 1 2),
     .cvtf p7 .f16 .f16 .rn false (.vec 1 (.v 2)), .pmul p7 .p8 true (.v 1 2 3), .pmul p7 .p8 false (.i 1 2 0x100),
     .ppow p7 .p32 true (.v 1 2 3), .pcmp p7 .p16 .eq 0 (.i 2 0x10000), .pconj p7 .p32 true 1 2,
     .atom p7 .and .d (.flt .f32) 1 (.s 2) (.v 3) none 0, .atom p7 .add .d (.int .i8) 1 (.s 2) (.v 3) none 0,
     .atom p7 .cas .d (.int .n32) 1 (.s 2) (.v 3) none 0, .atom p7 .add .d (.int .n32) 1 (.s 2) (.v 3) (some (.v 4)) 0,
     .waitv p7 false .d .n8 1 (.s 2) (.imm 0)].all (fun i => !Instr.wf i) = true := by decide +kernel

/-- Counts, lists and numbers out of range, and the levels of drains. -/
theorem smoke_ranges :
    [.fence p7 0 1, .fence p7 1 0, .twany p7 ⟨0, 0x40⟩, .tfirst p7 1 ⟨1, 0x1000⟩, .qgrant p7 0 0, .qgrant p7 0 17,
     .drain p7 (.mem .w 1) false .rn false none 0 0 0 0, .pdrain p7 (.mem .w 1) 0 0 0 0 0, .tqry p7 1 2 9, .srr p7 (.s 1) 0, .srr p7 (.s 1) 1,
     .xrd p7 .s 256 (.imm 0), .xrd p7 .p 8 (.imm 0), .xwr p7 .s (.imm 0) 256, .xwr p7 .p (.imm 0) 8].all (fun i => !Instr.wf i) = true := by
  decide +kernel

/-- The same terms within the limits. -/
theorem smoke_accepted :
    [.nop p7, .iadd hB .n32 false (.v 1 2 3), .imad hC .n32 false (.vec 1 (.v 2) (.v 3) (.v 4)), .bfi p7 .n32 (.vec 1 (.v 2) (.v 3) (.i 0xFFFF)),
     .lea hA .n64 (.vec 2 (.v 4) 6) 0 0, .lred p7 .add (.flt .f32) .rz 1 2, .fadd p7 .bf16 .rn false true (.v 1 2 3),
     .fmul p7 .f16 .rn false false (.i 1 2 0xFFFF), .pmul p7 .p8 false (.i 1 2 0xFF), .ld hA (.int .n32) (.vec 1 ⟨.v 2, .none, 0, 0⟩),
     .atom hC .cas .d (.int .n32) 1 (.s 2) (.v 3) (some (.v 4)) 0, .fence p7 15 15, .tfirst p7 1 ⟨1, 0xFFF⟩, .qgrant p7 0 16, .tqry p7 1 2 8,
     .srr p7 (.s 1) 2, .srr p7 (.v 1) 1, .xrd p7 .s 255 (.imm 0), .xwr p7 .p (.imm 0) 7, .packageReset [] 0].all Instr.wf = true := by
  decide +kernel
/-! ### Words the decoder refuses, by name (R193) -/

def refusal (room w : Nat) : Option DecodeCause := match decodeAt room w with
  | .ok _ => none
  | .error e => some e

theorem test_refusals :
    refusal 32 3 = some .lencode ∧ refusal 8 0x000E0001 = some .xbound ∧ refusal 32 0x000E0108 = some .unassigned ∧
    refusal 32 0x000E0201 = some .wronglen ∧ refusal 32 0x010E0200 = some .resbit ∧ refusal 32 0x80000020000E0020 = some .badmod ∧
    refusal 32 0x001E0200 = some .badguard := by decide +kernel
/-! ### Values of the manual's worked tables -/

/-- The small machine with s4 and lane 0 of v1, v2 and v3 as given, and the instruction run on it. -/
def onS (s4 : DWord) (a b c : Word) (i : Instr) : State :=
  let rv := { regs with vregs := [[], [some a], [some b], [some c]], scalars := [0, 0, 0, 0, s4] }
  let w := { wave with present := 1, groups := [{ lanes := 1, pc := 0x0100000000000000, last := 0 }], regs := rv }
  let s := { base with blocks := [{ block with waves := [w] }] }
  match exec i s with
  | .next u => u
  | _ => s

def on : Word → Word → Word → Instr → State := onS 0

/-- Register n of lane 0, the flags and a predicate after the instruction. -/
def vs (s4 : DWord) (a b : Word) (i : Instr) (n : Nat) : Option Word := ((onS s4 a b 0 i).regs cx.ref).lane n 0
def v (a b c : Word) (i : Instr) (n : Nat) : Option Word := ((on a b c i).regs cx.ref).lane n 0
def fl (a b c : Word) (i : Instr) : BitVec 6 := ((on a b c i).regs cx.ref).fstat
def p (a b c : Word) (i : Instr) (n : Nat) : Mask := ((on a b c i).regs cx.ref).pred n

/-- R203. -/
theorem test_add_edges :
    v 0x7FFFFFFF 1 0 (.iadd p7 .i32 false (.v 5 1 2)) 5 = some 0x80000000 ∧ v 0x7FFFFFFF 1 0 (.iadd p7 .i32 true (.v 5 1 2)) 5 = some 0x7FFFFFFF ∧
    v 0x7F 1 0 (.iadd p7 .i8 false (.v 5 1 2)) 5 = some 0xFFFFFF80 ∧ v 3 5 0 (.isub p7 .n32 true (.v 5 1 2)) 5 = some 0 := by decide +kernel

theorem test_imulh :
    v 0x80000000 2 0 (.imulh p7 .i32 (.v 5 1 2)) 5 = some 0xFFFFFFFF ∧ v 0x80000000 2 0 (.imulh p7 .n32 (.v 5 1 2)) 5 = some 1 := by decide +kernel

theorem test_shifts :
    v 0x80000000 40 0 (.sar p7 .i32 (.v 5 1 2)) 5 = some 0xFFFFFFFF ∧ v 1 32 0 (.shl p7 .n32 (.v 5 1 2)) 5 = some 0 ∧
    v 0x80000001 33 0 (.rot p7 .n32 (.v 5 1 2)) 5 = some 3 := by decide +kernel

theorem test_unary :
    v 0x80000000 0 0 (.iabs p7 .i32 (.v 5 1)) 5 = some 0x80000000 ∧ v 0 0 0 (.clz p7 .n32 (.v 5 1)) 5 = some 0x20 ∧
    v 0xFFFFFFFB 0 0 (.cvti p7 .n8 (.v 5 1)) 5 = some 0 ∧ v 300 0 0 (.cvti p7 .n8 (.v 5 1)) 5 = some 0xFF ∧
    v 0x0000000D 0 0 (.brev p7 .n8 (.v 5 1)) 5 = some 0xB0 ∧ v 0xFF 0 0 (.popc p7 .n8 (.v 5 1)) 5 = some 8 := by decide +kernel

/-- R205, R206. -/
theorem test_fields :
    v 0xF00 0 0 (.bfx p7 .i32 (.v 5 1) 8 4) 5 = some 0xFFFFFFFF ∧ v 0xC0000000 0 0 (.bfx p7 .n32 (.v 5 1) 30 8) 5 = some 3 ∧
    v 0xFFFFFFFF 0xA 0 (.bfi p7 .n32 (.vec 5 (.v 1) (.v 2) (.i 0x0404))) 5 = some 0xFFFFFFAF ∧
    v 0x12345678 0xA 0 (.bfi p7 .n32 (.vec 5 (.v 1) (.v 2) (.i 0x0420))) 5 = some 0x12345678 := by decide +kernel

theorem test_imad_movi :
    v 7 6 5 (.imad p7 .i32 false (.vec 5 (.v 1) (.v 2) (.v 3))) 5 = some 47 ∧ v 0 0 0 (.movi p7 .i8 (.v 5) 0x80) 5 = some 0xFFFFFF80 ∧
    v 0 0 0 (.movi p7 .i64 (.v 4) 0xFFFFFFFF) 5 = some 0xFFFFFFFF := by decide +kernel

/-- R207: the address wraps and the region identifier stands. -/
theorem test_lea :
    vs 0x03FFFFFFFFFFFFFE 0 2 (.lea p7 .n32 (.vec 4 (.s 4) 2) 1 0) 4 = some 2 ∧
    vs 0x03FFFFFFFFFFFFFE 0 2 (.lea p7 .n32 (.vec 4 (.s 4) 2) 1 0) 5 = some 0x03000000 ∧
    vs 0x030000FFFFFFFFFE 0 2 (.lea p7 .n32 (.vec 4 (.s 4) 2) 1 0) 4 = some 2 ∧
    vs 0x030000FFFFFFFFFE 0 2 (.lea p7 .n32 (.vec 4 (.s 4) 2) 1 0) 5 = some 0x03000100 := by decide +kernel

theorem test_icmp :
    (p 0x80000000 1 0 (.icmp p7 .lt .i32 2 (.v 1 2)) 2 &&& 1) = 1 ∧ (p 0x80000000 1 0 (.icmp p7 .lt .n32 2 (.v 1 2)) 2 &&& 1) = 0 := by decide +kernel

/-- R226, R227: rounding once, 0 × Inf, Inf − Inf. -/
theorem test_float :
    v 0x3F800000 0x33800000 0 (.fadd p7 .f32 .rn false false (.v 5 1 2)) 5 = some 0x3F800000 ∧
    v 0x3F800000 0x33800000 0 (.fadd p7 .f32 .rp false false (.v 5 1 2)) 5 = some 0x3F800001 ∧
    v 0x7F800000 0x7F800000 0 (.fsub p7 .f32 .rn false false (.v 5 1 2)) 5 = some 0x7FC00000 ∧
    v 0x80000000 0x7F800000 0 (.fmul p7 .f32 .rn false false (.v 5 1 2)) 5 = some 0x7FC00000 ∧
    v 0x3F800001 0x3F7FFFFF 0xBF800000 (.ffma p7 .f32 .rn false false (.vec 5 (.v 1) (.v 2) (.v 3))) 5 = some 0x337FFFFE := by decide +kernel

theorem test_float_min :
    v 0x80000000 0 0 (.fmin p7 .f32 false (.v 5 1 2)) 5 = some 0x80000000 ∧ v 0x80000000 0 0 (.fmax p7 .f32 false (.v 5 2 1)) 5 = some 0 ∧
    v 0x7FC00000 0x3F800000 0 (.fmin p7 .f32 false (.v 5 1 2)) 5 = some 0x3F800000 ∧
    (p 0x7FC00000 0 0 (.fcmp p7 .un .f32 2 (.v 1 2)) 2 &&& 1) = 1 ∧ (p 0x7FC00000 0 0 (.fcmp p7 .lt .f32 2 (.v 1 2)) 2 &&& 1) = 0 := by decide +kernel

/-- R232: special inputs. -/
theorem test_special :
    v 0x80000000 0 0 (.frcp p7 .f32 false false (.v 5 1)) 5 = some 0xFF800000 ∧ v 0xFF800000 0 0 (.frsq p7 .f32 false false (.v 5 1)) 5 = some 0x7FC00000 ∧
    v 0x80000000 0 0 (.fsqrt p7 .f32 .rn false false (.v 5 1)) 5 = some 0x80000000 ∧ v 0x3F800000 0 0 (.fexp2 p7 .f32 false false (.v 5 1)) 5 = some 0x40000000 ∧
    v 0x3F800000 0 0 (.flog2 p7 .f32 false false (.v 5 1)) 5 = some 0 ∧ v 0x80000000 0 0 (.fsin p7 .f32 false false (.v 5 1)) 5 = some 0x80000000 ∧
    v 0 0 0 (.fcos p7 .f32 false false (.v 5 1)) 5 = some 0x3F800000 := by decide +kernel

/-- R233. -/
theorem test_frnd :
    v 0x3F000000 0 0 (.frnd p7 .f32 .rm false false (.v 5 1)) 5 = some 0 ∧ v 0xBF000000 0 0 (.frnd p7 .f32 .rp false false (.v 5 1)) 5 = some 0x80000000 ∧
    v 0x40200000 0 0 (.frnd p7 .f32 .rn false false (.v 5 1)) 5 = some 0x40000000 := by decide +kernel

/-- R235. Flag bits are those of sr.fstat (R108). -/
theorem test_cvtf :
    v 0x3F808000 0 0 (.cvtf p7 .bf16 .f32 .rn false (.vec 5 (.v 1))) 5 = some 0x3F80 ∧ v 0x47800000 0 0 (.cvtf p7 .f16 .f32 .rn false (.vec 5 (.v 1))) 5 = some 0x7C00 ∧
    v 0x47800000 0 0 (.cvtf p7 .f16 .f32 .rz false (.vec 5 (.v 1))) 5 = some 0x7BFF ∧ v 1 0 0 (.cvtf p7 .bf16 .f16 .rn false (.vec 5 (.v 1))) 5 = some 0x3380 ∧
    fl 1 0 0 (.cvtf p7 .bf16 .f16 .rn false (.vec 5 (.v 1))) = 0 := by decide +kernel

theorem test_cvtfi :
    v 0xC0200000 0 0 (.cvtfi p7 .i32 .f32 .rn (.vec 5 (.v 1))) 5 = some 0xFFFFFFFE ∧ v 0xC0200000 0 0 (.cvtfi p7 .i32 .f32 .rm (.vec 5 (.v 1))) 5 = some 0xFFFFFFFD ∧
    v 0xBF800000 0 0 (.cvtfi p7 .n8 .f32 .rz (.vec 5 (.v 1))) 5 = some 0 ∧ v 0x7FC00000 0 0 (.cvtfi p7 .i32 .f32 .rz (.vec 5 (.v 1))) 5 = some 0 ∧
    v 0x01000001 0 0 (.cvtif p7 .f32 .i32 .rn (.vec 5 (.v 1))) 5 = some 0x4B800000 := by decide +kernel

/-- R237: handle 5 is e4m3, s4 the scale. -/
theorem test_narrow :
    vs 0xFD 0xBED00000 0 (.npack p7 .rn false 2 1 5 0 (some 4)) 2 = some 0xC5 ∧
    vs 0 0x43FA0000 0xC5 (.npack p7 .rn false 2 1 5 8 none) 2 = some 0x7FC5 ∧
    vs 0xFD 0 0x7FC5 (.nunpk p7 5 2 5 0 (some 4)) 5 = some 0xBED00000 ∧
    vs 0 0 0x7FC5 (.nunpk p7 5 2 5 8 none) 5 = some 0x43F00000 := by decide +kernel

/-- R242. -/
theorem test_phasor_float :
    v 0x1000 0 0 (.pcos p7 .rn false .bf16 .p16 5 1) 5 = some 0x3F35 ∧ v 0x2000 0 0 (.pvec p7 .rn false .bf16 .p16 4 1) 4 = some 0 ∧
    v 0x2000 0 0 (.pvec p7 .rn false .bf16 .p16 4 1) 5 = some 0x3F80 ∧ v 0xC123 0 0 (.psin p7 .rn false .f32 .p16 5 1) 5 = some 0x7FC00000 := by decide +kernel

theorem test_angles :
    v 0x4049 0 0 (.pfromf p7 .p16 .bf16 5 1) 5 = some 0x3FFB ∧ v 0x3F80 0xBF80 0 (.patan p7 .p16 .bf16 5 1 2) 5 = some 0x3000 ∧
    v 0xBF80 0xBF80 0 (.patan p7 .p16 .bf16 5 1 2) 5 = some 0x5000 ∧ v 0x80000000 0 0 (.patan p7 .p16 .f32 5 1 2) 5 = some 0x8000 := by decide +kernel

theorem test_phasor :
    (p 0x7F00 0x0100 0 (.pcmp p7 .p16 .lead 2 (.v 1 2)) 2 &&& 1) = 1 ∧ v 0x7FC0 0 0 (.pcvt p7 .p8 .p16 5 1) 5 = some 0 := by decide +kernel

/-! ### Lanes (R218 to R222) -/

/-- The small machine with four threads whose v1 and predicate p1 are as given. -/
def on4 (a b c d : Word) (p1 : Mask) (i : Instr) : State :=
  let rv := { regs with vregs := [[], [some a, some b, some c, some d]], preds := [0, p1] }
  let w := { wave with present := 15, groups := [{ lanes := 15, pc := 0x0100000000000000, last := 0 }], regs := rv }
  let s := { base with blocks := [{ block with waves := [w] }] }
  match exec i s with
  | .next u => u
  | _ => s

def v4 (i : Instr) (a b c d : Word) (n : Nat) : List (Option Word) :=
  (List.range 4).map (((on4 a b c d 5 i).regs cx.ref).lane n)

/-- R219's example: 1.0, 2^24, 1.0, -2^24 sum to 1.0, inexactly. -/
theorem test_lred :
    v4 (.lred p7 .add (.flt .f32) .rn 5 1) 0x3F800000 0x4B800000 0x3F800000 0xCB800000 5 =
      [some 0x3F800000, some 0x3F800000, some 0x3F800000, some 0x3F800000] ∧
    v4 (.lred p7 .max (.int .i32) .rn 5 1) 3 0xFFFFFFFF 9 0x80000000 5 = [some 9, some 9, some 9, some 9] := by decide +kernel

/-- R218: a lane that is not present gives way to the lane's own value. -/
theorem test_shfl :
    v4 (.shfl p7 .rel 5 1 (.i 0xFFFFFFFF)) 10 11 12 13 5 = [some 10, some 10, some 11, some 12] ∧
    v4 (.shfl p7 .xor 5 1 (.i 1)) 10 11 12 13 5 = [some 11, some 10, some 13, some 12] ∧
    v4 (.shfl p7 .idx 5 1 (.i 130)) 10 11 12 13 5 = [some 12, some 12, some 12, some 12] := by decide +kernel

theorem test_predicates :
    ((on4 0 0 0 0 5 (.vote p7 .any 2 false 1)).regs cx.ref).pred 2 = 15 ∧ ((on4 0 0 0 0 5 (.vote p7 .all 2 false 1)).regs cx.ref).pred 2 = 0 ∧
    ((on4 0 0 0 0 5 (.vote p7 .uni 2 true 1)).regs cx.ref).pred 2 = 0 ∧ ((on4 0 0 0 0 5 (.ballot p7 8 true 1)).regs cx.ref).scalar 8 = 10 ∧
    ((on4 0 0 0 0 5 (.pset p7 .xor 2 false 1 false 7)).regs cx.ref).pred 2 = 10 := by decide +kernel

/-! ### Memory -/

/-- R244: the bytes of the small machine's line, extended by the type. -/
theorem test_load :
    lane (.ld p7 (.int .i8) (.vec 6 ⟨.s 5, .none, 0, 1⟩)) 6 0 = some 0xFFFFFF80 ∧ lane (.ld p7 (.int .n16) (.vec 6 ⟨.s 5, .none, 0, 0⟩)) 6 1 = some 0x802A ∧
    lane (.ld p7 (.int .n32) (.vec 6 ⟨.v 2, .none, 0, 0⟩)) 6 0 = some 0x802A ∧ scalar (.ld p7 (.int .i16) (.uni 7 5 none 0 0)) 7 = 0xFFFFFFFFFFFF802A := by
  decide +kernel

/-- R54, R319: a register with a double-bit error is read, written whole and read again; the pair of lanes 0 and 1 is meant. -/
theorem test_register_error :
    let worn (n : Nat) : State :=
      { base with cores := base.cores.mapIdx fun i (k : Core) => if i = 0 then
          { k with regCache := [{ lid := 0, rank := 0, wave := 0, window := false, reg := n, dirty := false, used := 0, bad := 1 }] } else k }
    let after (s : State) : Option (Nat × Nat × Mask) :=
      match exec (.iadd p7 .i32 false (.v 1 0 0)) s with
      | .next u => (u.wave cx.ref).trap.map fun t => (t.info.cls, t.info.cause, t.info.lanes)
      | _ => none
    let left (n : Nat) : Option (BitVec 64) :=
      match exec (.iadd p7 .i32 false (.v 1 0 0)) (worn n) with
      | .next u => ((u.core 0).regCache.find? (·.reg == n)).map (·.bad)
      | _ => none
    after (worn 0) = some (0xB, 2, 3) ∧ after (worn 1) = none ∧ left 0 = some 1 ∧ left 1 = some 0 := by decide +kernel
/-! ### States and operands that meet the hypotheses of the statements -/

/-- Wave 0 of block 0 of launch 0 is selected; the rest of the machine is `u`. -/
def standIn (u : State) (x : Ctx) (l : Launch) (b : Block) : State :=
  { u with
    sel := some { ref := { lid := 0, rank := 0, wave := 0 }, grp := 0, inst := 0 }, ctxs := [x], kernels := [kernel],
    launches := [l], blocks := [b] }

def standInCx (u : State) (x : Ctx) (l : Launch) (b : Block) : Cx :=
  { s := standIn u x l b, sel := { ref := { lid := 0, rank := 0, wave := 0 }, grp := 0, inst := 0 }, lch := l, krn := kernel, ctx := x,
    blk := b, rv := (b.wave 0).regs, alts := [] }

def seated (x : Ctx) (l : Launch) (b : Block) : Bool :=
  x.tenant == l.src.fn && x.num == l.ctx && l.lid == 0 && l.hdr.entry == 0 && b.lid == 0 && b.rank == 0 && decide (0 < b.waves.length) &&
    decide (0 < (b.wave 0).groups.length)

theorem standIn_cx (u : State) (x : Ctx) (l : Launch) (b : Block) (h : seated x l b = true) : (standIn u x l b).cx? = some (standInCx u x l b) := by
  simp only [seated, Bool.and_eq_true, beq_iff_eq, decide_eq_true_eq] at h
  obtain ⟨⟨⟨⟨⟨⟨⟨x1, x2⟩, l1⟩, l2⟩, h1⟩, h2⟩, h3⟩, h4⟩ := h
  have eb : (standIn u x l b).block? 0 0 = some b := by simp [standIn, State.block?, h1, h2]
  have el : (standIn u x l b).launch? 0 = some l := by simp [standIn, State.launch?, l1]
  have ek : (standIn u x l b).kernel? l.hdr.entry = some kernel := by rw [l2]; with_unfolding_all rfl
  have ex : (standIn u x l b).ctx? l.src.fn l.ctx = some x := by simp [standIn, State.ctx?, x1, x2]
  have a : (standIn u x l b).cxAt { ref := { lid := 0, rank := 0, wave := 0 }, grp := 0, inst := 0 } = some (standInCx u x l b) := by
    simp only [State.cxAt, eb, el, ek, ex]; rfl
  have s : (standIn u x l b).sel = some { ref := { lid := 0, rank := 0, wave := 0 }, grp := 0, inst := 0 } := rfl
  simp only [State.cx?, s, a]
  simp [standInCx, h3, h4]

theorem issuesIn (u : State) (x : Ctx) (l : Launch) (b : Block) (h : Hdr) (is : List Info) (hs : seated x l b = true)
    (hr : is.all (ready (standInCx u x l b) h) = true) : ∀ i ∈ is, CanIssue (standIn u x l b) (standInCx u x l b) h i := by
  intro i hi
  have r := List.all_eq_true.1 hr i hi
  simp only [ready, Bool.and_eq_true, List.all_eq_true, List.isEmpty_iff, Option.isNone_iff_eq_none, bne_iff_ne, ne_eq] at r
  exact ⟨standIn_cx u x l b hs, r.1.1, r.1.2, r.2⟩

def stand (u : State) (b : Block) : State := standIn u ctx probeLaunch b
def standCx (u : State) (b : Block) : Cx := standInCx u ctx probeLaunch b

/-- The small machine with another block. -/
theorem issues (b : Block) (h : Hdr) (l : List Info) (hs : seated ctx probeLaunch b = true) (hr : l.all (ready (standCx base b) h) = true) :
    ∀ i ∈ l, CanIssue (stand base b) (standCx base b) h i := issuesIn base ctx probeLaunch b h l hs hr

/-- On the small machine. -/
theorem issue (l : List Info) (hr : l.all (ready (standCx base block) p7) = true) : ∀ i ∈ l, CanIssue (stand base block) (standCx base block) p7 i :=
  issues block p7 l (by decide +kernel) hr

def c0 : Cx := standCx base block
def s0 : State := stand base block

theorem witness_IntegerArithmeticResults : ∀ i ∈ [Ops2.info (.v 5 0 1) 3 false false false, Ops2.info (.s 15 0 255) 3 false false false,
    Ops2.info (.i 5 0 0xFFFFFFFF) 5 false false false, Ops2.info (.us 255 4 5) 5 false false false, Ops2.info (.ui 0 4 8) 3 true true true,
    Ops2.info (.v 14 2 2) (intLat 5 .i64) true true true], CanIssue s0 c0 p7 i := issue _ (by decide +kernel)

theorem witness_ShiftResults : ∀ i ∈ [Ops2.info (.v 5 0 1) (intLat 3 .n32) false false false, Ops2.info (.i 4 2 64) (intLat 3 .n64) true false true,
    Ops2.info (.us 255 4 5) (intLat 3 .i8) false false false], CanIssue s0 c0 p7 i := issue _ (by decide +kernel)

theorem witness_IntegerCompareWritesPredicate : ∀ i ∈ [OpsC.info (.v 0 1) 3 false 7, OpsC.info (.s 0 255) 3 false 0, OpsC.info (.i 2 8) (intLat 3 .i64) true 6,
    OpsC.info (.us 4 5) 3 false 1, OpsC.info (.ui 4 0) 3 false 2], CanIssue s0 c0 p7 i := issue _ (by decide +kernel)

theorem witness_IntegerUnaryResults : ∀ i ∈ [Ops1.info (.v 5 0) 3 false false false, Ops1.info (.s 4 255) (intLat 3 .i64) true true false,
    Ops1.info (.u 0 4) 3 false false false, Ops1.info (.v 6 4) 3 false false true, Ops1.info (.v 4 0) (intLat 3 .n64) false true false],
    CanIssue s0 c0 p7 i := issue _ (by decide +kernel)

theorem witness_MultiplyAddFieldAndSelectResults : ∀ i ∈ [Ops3.info (.vec 15 (.v 0) (.v 1) (.v 1)) 5 false false, Ops3.info (.vec 5 (.s 4) (.v 1) (.i 8)) 3 false false,
    Ops3.info (.uni 5 6 4 (.s 6)) 5 false false, OpsSel.info (.vec 6 (.v 4) (.v 5)) 3 false 7, OpsSel.info (.uni 5 4 6) (intLat 3 .n64) true 0],
    CanIssue s0 c0 p7 i := issue _ (by decide +kernel)

theorem witness_BitFieldPointerAndImmediateResults : ∀ i ∈ [
    { len := 12, lat := 3, ops := [rdV 0 false, wrV 5 false], lastA := regsOf 0 false }, { len := 12, lat := 3, uni := true, ops := [rdS 4 1, wrS 255 1] },
    { len := 12, lat := 3, ops := [vsOpd true false (.s 5), rdV 1 false, wrV 4 true], lastA := vsLast true (.s 5), lastB := regsOf 1 false },
    { len := 12, lat := intLat 3 .i64, ops := [vsOpd true false (.v 2), rdV 2 true, wrV 14 true], lastA := vsLast true (.v 2), lastB := regsOf 2 true },
    { len := 12, lat := 3, uni := true, ops := [rdS 5 1, rdS 4 1, wrS 9 1] }, { len := 12, lat := 3, uni := false, ops := [wrV 15 false] },
    { len := 12, lat := intLat 3 .i64, uni := true, ops := [wrS 255 1] }], CanIssue s0 c0 p7 i := issue _ (by decide +kernel)

theorem witness_NopsAndYieldChangeNoValue : ∀ i ∈ [{ len := 8 }, { len := 12 }], CanIssue s0 c0 p7 i := issue _ (by decide +kernel)

/-- p7's lanes 0 and 1; a target on a 64-byte block and one off it; a table of 6 blocks whose entry 5 lane 0 takes, and one of 5 blocks
that neither lane takes. -/
theorem witness_BranchesMoveTheActiveLanes :
    (∀ i ∈ [{ len := 12 }, { len := 16, ops := [vsOpd false false (.v 0)], lastA := vsLast false (.v 0) }], CanIssue s0 c0 p7 i) ∧
    (c0.target 0xFFFFFFC0).toNat % 64 = 0 ∧ (c0.target 0x3F).toNat % 64 ≠ 0 ∧
    ((c0.guardMask p7).getLsbD 0 = true ∧ c0.tableIndexOf (.v 0) 0 < (5 : BitVec 12).toNat + 1) ∧
    (∀ l, l < 128 → ¬ ((c0.guardMask p7).getLsbD l = true ∧ c0.tableIndexOf (.v 0) l < (4 : BitVec 12).toNat + 1)) :=
  ⟨issue _ (by decide +kernel), by decide +kernel, by decide +kernel, by decide +kernel, by decide +kernel⟩

theorem witness_MeetSetsMeetingRegisters :
    CanIssue s0 c0 p7 { len := 12 } ∧ (c0.target 0x40).toNat % 64 = 0 ∧ (c0.target 1).toNat % 64 ≠ 0 :=
  ⟨issue [{ len := 12 }] (by decide +kernel) _ (by simp), by decide +kernel, by decide +kernel⟩

/-- Lanes 0 and 1 wait for each other at X: lane 0 is held there, lane 1 still runs. -/
def meeting : Wave :=
  { wave with groups := [{ lanes := 2, pc := 0x0100000000000000, last := 0 }], held := 1, mr := [0x0100000000000040, 0x0100000000000040] }

theorem witness_MeetingPointsSettle :
    { lanes := 2, pc := 0x0100000000000000, last := 0 } ∈ meeting.meet.groups ∧ meeting.meet.alive.getLsbD 0 = true ∧
    meeting.meet.mrOf 0 = 0x0100000000000040 ∧ meeting.meet.held.getLsbD 1 = false ∧ meeting.stands 0 0x0100000000000040 :=
  ⟨by decide +kernel, by decide +kernel, by decide +kernel, by decide +kernel, .inr (by decide +kernel)⟩
/-- Guard p0, which lane 0 alone has. -/
def p0 : Hdr := { p7 with gp := 0 }

def noBars : Block := { block with bars := [] }

/-- The wave holds two bytes; a bound barrier waits for the wave's two threads alone. -/
def closing : Block :=
  { block with
    waves := [{ wave with buf := [{ line := 1, mask := 3, data := 0x55AA, log := none, saved := false, maker := (0, 0) }] }]
    bars := [{ sym := 0, unit := 0, p := 9, e := 2, a := 0, q := 0, arrived := 0, dropped := 0, lastSite := none }] }

/-- Lane 0 exits and lane 1 remains; both exit; with a bound barrier; and with one that both complete. -/
theorem witness_ExitEndsThreads :
    CanIssue (stand base noBars) (standCx base noBars) p0 { len := 8 } ∧ noBars.bars = [] ∧ (standCx base noBars).wv.frame = none ∧
    (standCx base noBars).wv.alive &&& ~~~(standCx base noBars).guardMask p0 ≠ 0 ∧
    CanIssue (stand base noBars) (standCx base noBars) p7 { len := 8 } ∧
    (standCx base noBars).wv.alive &&& ~~~(standCx base noBars).guardMask p7 = 0 ∧ (standCx base noBars).wv.retired = false ∧
    CanIssue s0 c0 p7 { len := 8 } ∧
    (let noBar : Block := { closing with bars := [] }
     CanIssue (stand base noBar) (standCx base noBar) p7 { len := 8 } ∧ ((standCx base noBar).wv.buf.map (·.line)).Nodup ∧
     (standCx base noBar).wv.alive &&& ~~~(standCx base noBar).guardMask p7 = 0) ∧
    (let left (k : BarState) : BarState := (lanesOf ((standCx base closing).guardMask p7)).foldl (fun k l => k.exit (threadBit 0 l)) k
     CanIssue (stand base closing) (standCx base closing) p7 { len := 8 } ∧ (closing.bars.map (·.sym)).Nodup ∧
     ∀ k ∈ closing.bars, (left k).a = (left k).e ∧ k.lastSite = none) :=
  ⟨issues noBars p0 [{ len := 8 }] (by decide +kernel) (by decide +kernel) _ (by simp), by decide +kernel, by decide +kernel, by decide +kernel,
   issues noBars p7 [{ len := 8 }] (by decide +kernel) (by decide +kernel) _ (by simp), by decide +kernel, by decide +kernel,
   issue [{ len := 8 }] (by decide +kernel) _ (by simp),
   ⟨issues { closing with bars := [] } p7 [{ len := 8 }] (by decide +kernel) (by decide +kernel) _ (by simp), by decide +kernel, by decide +kernel⟩,
   issues closing p7 [{ len := 8 }] (by decide +kernel) (by decide +kernel) _ (by simp), by decide +kernel, by decide +kernel⟩

/-- A context whose handler takes every class, with room for a window and without. -/
def handling (size : Nat) : Ctx := { ctx with hentry := 0x0100000000002000, h1 := 0x7FE00000007, poolBase := 0x100000, poolSize := size }

theorem witness_TrapAndBkptTakeTheirTrap :
    (∀ i ∈ [{ len := 12 }, { len := 8 }], CanIssue s0 c0 p7 i) ∧ c0.delivers 9 = false ∧
    (let x := standInCx base (handling 0x100000) probeLaunch block
     (standIn base (handling 0x100000) probeLaunch block).cx? = some x ∧ x.delivers 9 = true ∧
     (x.s.takePool x.ctx.tenant x.ctx.num (windowSize x.ctx.hnv)).isSome = true ∧ memWf x.s.mem = true ∧ ∀ t ∈ x.s.tenants, t.track = none) ∧
    (let x := standInCx base (handling 0) probeLaunch block
     (standIn base (handling 0) probeLaunch block).cx? = some x ∧ x.delivers 10 = true ∧
     x.s.takePool x.ctx.tenant x.ctx.num (windowSize x.ctx.hnv) = none) :=
  ⟨issue _ (by decide +kernel), by decide +kernel, ⟨standIn_cx _ _ _ _ (by decide +kernel), by decide +kernel, by decide +kernel, by decide +kernel, by decide +kernel⟩,
   ⟨standIn_cx _ _ _ _ (by decide +kernel), by decide +kernel, by decide +kernel⟩⟩

theorem witness_LaneOperationResults : ∀ i ∈ [shflInfo 5 0 (.v 1), shflInfo 15 0 (.s 4), shflInfo 5 4 (.i 127),
    { len := 12, ops := [rdV 0 false, wrV 5 false], lastA := regsOf 0 false }, { len := 12, ops := [rdV 2 true, wrV 14 true], lastA := regsOf 2 true },
    { len := 8, ops := [rdP 0, wrP 7] }, { len := 8, ops := [rdP 7, wrS 254 2], badReg := (254 : BitVec 8) == 255 },
    { len := 8, lat := 3, ops := [rdP 0, rdP 7, wrP 6] }], CanIssue s0 c0 p7 i := issue _ (by decide +kernel)

theorem witness_FloatArithmeticResults : ∀ i ∈ [Ops2.info (.v 15 0 1) 4 false false false, Ops2.info (.i 5 0 0x3F800000) 4 false false false,
    Ops2.info (.us 5 4 6) 4 false false false, Ops3.info (.vec 5 (.v 0) (.s 4) (.v 1)) 4 false false, Ops3.info (.uni 5 6 4 (.i 0)) 4 false false],
    CanIssue s0 c0 p7 i := issue _ (by decide +kernel)

theorem witness_FloatCompareAndSelectResults : ∀ i ∈ [OpsC.info (.v 0 1) 4 false 7, OpsC.info (.us 4 5) 4 false 0,
    OpsSel.info (.vec 5 (.v 0) (.s 4)) 4 false 7, OpsSel.info (.uni 255 4 5) 4 false 0], CanIssue s0 c0 p7 i := issue _ (by decide +kernel)

theorem witness_FloatUnaryResults : ∀ i ∈ [Ops1.info (.v 5 0) 0 false false false, Ops1.info (.s 15 4) 4 false false false,
    Ops1.info (.u 255 4) 0 false false false], CanIssue s0 c0 p7 i := issue _ (by decide +kernel)

theorem witness_ConversionResults : ∀ i ∈ [OpsCv.info (.vec 5 (.v 0)) false false, OpsCv.info (.vec 4 (.s 4)) false true, OpsCv.info (.uni 5 4) true false,
    { len := 16, ops := rdV 0 false :: (scaleOpds (some 4) ++ [{ rdRaw 5 false with wr := true }]), lastA := regsOf 0 false, handle := narrowHandle 5 },
    { len := 16, ops := rdV 0 false :: (scaleOpds none ++ [wrV 15 false]), lastA := regsOf 0 false, handle := narrowHandle 5 }],
    CanIssue s0 c0 p7 i := issue _ (by decide +kernel)

theorem witness_PhasorResults : ∀ i ∈ [Ops2.info (.v 15 0 1) 3 false false false, Ops2.info (.ui 5 4 8) 3 false false false,
    { len := 8, lat := 3, ops := [rdV 0 false, wrV 5 false], lastA := regsOf 0 false }, OpsC.info (.i 0 8) 3 false 7,
    { len := 8, lat := 3, ops := [rdV 0 false, wrP 0], lastA := regsOf 0 false }, { len := 8, ops := [rdV 0 false, wrV 14 true], lastA := regsOf 0 false }],
    CanIssue s0 c0 p7 i := issue _ (by decide +kernel)

theorem witness_PhasorFloatResults : ∀ i ∈ [{ len := 12, ops := [rdV 0 false, wrV 5 false], lastA := regsOf 0 false },
    { len := 12, ops := [rdV 0 false, wrV 14 true], lastA := regsOf 0 false },
    { len := 12, ops := [rdV 0 false, rdV 1 false, wrV 5 false], lastA := regsOf 0 false, lastB := regsOf 1 false }], CanIssue s0 c0 p7 i :=
  issue _ (by decide +kernel)

/-! ### Memory -/

theorem cellWf_base : memWf base.mem = true ∧ memWf base.hostMem = true ∧ memWf base.peerMem = true := by decide +kernel

theorem here_line : s0.l2? c0.ctx.tenant c0.ctx.asid (lineNo 0x0200000000001000) = some line := by with_unfolding_all rfl

theorem readable_line : c0.readable (lineNo 0x0200000000001000) :=
  ⟨line, here_line, rfl, by decide +kernel, by
    intro x hx
    have e : (c0.s.core c0.core).l1 = [] := by decide +kernel
    rw [e] at hx; cases hx⟩

theorem sound_base : c0.sound := by unfold Cx.sound; decide +kernel

/-- Aligned elements of both lanes through a scalar and through a vector base, at the symbol's first bytes, and at the last byte of its
32 segments. -/
theorem witness_LoadResults :
    c0.fenced 0 = false ∧ (∀ i ∈ [ldVecInfo (.int .n32) 6 ⟨.v 2, .none, 0, 0⟩, ldVecInfo (.int .n64) 6 ⟨.s 5, .none, 0, 0⟩, ldUniInfo (ldUniAddr 5 none 0 0) 7,
      ldbInfo (.int .n32) 6 (.s 1) false 0, ldbInfo (.int .i8) 6 (.s 1) true 0], CanIssue s0 c0 p7 i) ∧
    (∀ l, l < 128 → (c0.guardMask p7).getLsbD l = true → c0.loadable (c0.addr ⟨.v 2, .none, 0, 0⟩ l) 4) ∧
    c0.loadable (c0.addr (ldUniAddr 5 none 0 0) (lowestLane (c0.guardMask p7))) 8 ∧
    (∀ l, l < 128 → (c0.guardMask p7).getLsbD l = true → c0.scInside false 0 (c0.scOff (.s 1) 32767 l) 1 ∧ c0.scInside false 0 (c0.scOff (.s 1) 0 l) 8) ∧
    (s0.core c0.core).badScratch = [] ∧ c0.sound ∧ c0.columnFree := by
  refine ⟨by decide +kernel, issue _ (by decide +kernel), ?_, ?_, ?_, by decide +kernel, sound_base, by unfold Cx.columnFree; decide +kernel⟩
  · intro l hl h
    have := (by decide +kernel : ∀ l, l < 128 → (c0.guardMask p7).getLsbD l = true →
      (c0.addr ⟨.v 2, .none, 0, 0⟩ l).toNat % 4 = 0 ∧ lineNo (c0.addr ⟨.v 2, .none, 0, 0⟩ l) = lineNo 0x0200000000001000) l hl h
    exact ⟨this.1, .inr (this.2 ▸ readable_line)⟩
  · exact ⟨by decide +kernel, .inr ((by decide +kernel : lineNo (c0.addr (ldUniAddr 5 none 0 0) (lowestLane (c0.guardMask p7))) =
      lineNo 0x0200000000001000) ▸ readable_line)⟩
  · unfold Cx.scInside; decide +kernel
theorem writable_line (p : DWord) (h : lineNo p = lineNo 0x0200000000001000) :
    ∃ x, s0.l2? c0.ctx.tenant c0.ctx.asid (lineNo p) = some x ∧ x.w = true := ⟨line, h ▸ here_line, rfl⟩

/-- Every place for new lines is taken. -/
def crowded : Block :=
  { block with
    waves := [{ wave with
      buf := (List.range 1024).map (fun n => { line := n, mask := 1, data := 0, log := some (0, 0), saved := false, maker := (0, 0) }) ++
        (List.range 256).map fun n => { line := 2000 + n, mask := 1, data := 0, log := none, saved := false, maker := (0, 0) } }] }

theorem witness_StoreResults :
    (∀ i ∈ [stInfo (.int .n32) ⟨.s 5, .none, 0, 0⟩ 0, stInfo (.int .n64) ⟨.s 5, .none, 0, 0⟩ 2, stbInfo (.int .n32) (.s 1) false 0 0], CanIssue s0 c0 p7 i) ∧
    (∀ l, l < 128 → (c0.guardMask p7).getLsbD l = true → (c0.addr ⟨.s 5, .none, 0, 0⟩ l).toNat % 8 = 0 ∧
      ∃ x, s0.l2? c0.ctx.tenant c0.ctx.asid (lineNo (c0.addr ⟨.s 5, .none, 0, 0⟩ l)) = some x ∧ x.w = true) ∧
    c0.logged c0.ref.wave + 128 ≤ 1024 ∧ c0.fenced 0 = false ∧ c0.core < s0.cores.length ∧
    (∀ l, l < 128 → (c0.guardMask p7).getLsbD l = true → c0.scInside false 0 (c0.scOff (.s 1) 32764 l) 4 ∧ s0.engineReads c0.core (c0.scPlace false 0 32764).1 = false) := by
  refine ⟨issue _ (by decide +kernel), ?_, by decide +kernel, by decide +kernel, by decide +kernel, ?_⟩
  · intro l hl h
    have := (by decide +kernel : ∀ l, l < 128 → (c0.guardMask p7).getLsbD l = true →
      (c0.addr ⟨.s 5, .none, 0, 0⟩ l).toNat % 8 = 0 ∧ lineNo (c0.addr ⟨.s 5, .none, 0, 0⟩ l) = lineNo 0x0200000000001000) l hl h
    exact ⟨this.1, writable_line _ this.2⟩
  · unfold Cx.scInside; decide +kernel

theorem witness_StoreResults_full :
    CanIssue (stand base crowded) (standCx base crowded) p7 (stInfo (.int .n32) ⟨.s 5, .none, 0, 0⟩ 0) ∧
    (∀ l, l < 128 → ((standCx base crowded).guardMask p7).getLsbD l = true → lineNo ((standCx base crowded).addr ⟨.s 5, .none, 0, 0⟩ l) = lineNo 0x0200000000001000) ∧
    bufFind (standCx base crowded).wv.buf (lineNo 0x0200000000001000) = none ∧ (standCx base crowded).wavePlace (lineNo 0x0200000000001000) = none :=
  ⟨issues crowded p7 [stInfo (.int .n32) ⟨.s 5, .none, 0, 0⟩ 0] (by decide +kernel) (by decide +kernel) _ (by simp), by decide +kernel, by decide +kernel,
   by decide +kernel⟩

/-- Odd pointers in lane 1 only (v2 + 2), scratch offsets one past an element and one past the symbol. -/
theorem witness_AccessTraps :
    c0.fenced 0 = false ∧ (∀ i ∈ [ldVecInfo (.int .n64) 6 ⟨.v 2, .none, 0, 0⟩, ldUniInfo (ldUniAddr 5 none 0 1) 7, stInfo (.int .n64) ⟨.v 2, .none, 0, 0⟩ 2,
      atomInfo .d (.int .n64) 6 (.v 2) (.s 4) none, waitvInfo .n64 .d 6 (.v 2) (.imm 0), ldbInfo (.int .n32) 6 (.s 1) false 0, stbInfo (.int .n32) (.s 1) false 0 0],
      CanIssue s0 c0 p7 i) ∧
    (∀ l, l < 128 → ((2 : Mask).getLsbD l = true ↔ (c0.guardMask p7).getLsbD l = true ∧ (c0.addr ⟨.v 2, .none, 0, 0⟩ l).toNat % 8 ≠ 0)) ∧
    (∀ l, l < 128 → ((2 : Mask).getLsbD l = true ↔ (c0.guardMask p7).getLsbD l = true ∧ (c0.based (.v 2) 0 l).toNat % 8 ≠ 0)) ∧
    (c0.addr (ldUniAddr 5 none 0 1) (lowestLane (c0.guardMask p7))).toNat % 4 ≠ 0 ∧
    (∀ l, l < 128 → ((3 : Mask).getLsbD l = true ↔ (c0.guardMask p7).getLsbD l = true ∧ c0.scOff (.s 1) 1 l % 4 ≠ 0)) ∧
    (∀ l, l < 128 → (c0.guardMask p7).getLsbD l = true → c0.scOff (.s 1) 32768 l % 4 = 0) ∧
    (∀ l, l < 128 → ((3 : Mask).getLsbD l = true ↔ (c0.guardMask p7).getLsbD l = true ∧
      (c0.scOff (.s 1) 32768 l < 0 ∨ 1024 * (c0.segCount false 0 : Int) < c0.scOff (.s 1) 32768 l + 4))) :=
  ⟨by decide +kernel, issue _ (by decide +kernel), by and_intros <;> decide +kernel⟩

/-- Region 2 with the flags `w0` and its limit at 0x1000; a translation of its first pages if `w` says whether they may be written. -/
def mapped (w0 : Byte) (w : Option Bool) : State :=
  { base with
    mem := [(32, w0), (41, 0x10)], l2 := [],
    tlb := w.elim [] fun w => [{ tenant := 0, asid := 7, chan := 0, base := 0, log := 16, tr := { addr := 0x8000, owner := .loc, rd := true, w := w, x := false } }] }

/-- The last line inside the region and the first one outside it. -/
theorem witness_FillChecks :
    let inside := lineNo 0x0200000000001000
    let outside := lineNo 0x0200000000001040
    let e (w0 : Byte) := (mapped w0 none).boundsEntry ctx
    (s0.l2? 0 7 inside = some line ∧ grants line.rd line.w line.x .read = true ∧ grants line.rd line.w line.x .fetch = false) ∧
    (∀ l, (mapped 15 none).l2? ctx.tenant ctx.asid inside = some l → grants l.rd l.w l.x .read = false) ∧
    (e 7 (ridOf inside)).1.getLsbD 3 = false ∧
    ((e 15 (ridOf outside)).1.getLsbD 3 = true ∧ ((e 15 (ridOf outside)).2.toNat / 64 % 2 ^ 50 < lineVa outside)) ∧
    (¬ (lineVa inside < (e 15 (ridOf inside)).1.toNat / 64 % 2 ^ 50 ∨ (e 15 (ridOf inside)).2.toNat / 64 % 2 ^ 50 < lineVa inside)) ∧
    grants ((e 9 2).1.getLsbD 0) ((e 9 2).1.getLsbD 1) ((e 9 2).1.getLsbD 2) .write = false ∧
    grants ((e 15 2).1.getLsbD 0) ((e 15 2).1.getLsbD 1) ((e 15 2).1.getLsbD 2) .write = true ∧
    ((mapped 15 none).translate ctx inside).2.toOption = none ∧
    (((mapped 15 (some false)).translate ctx inside).2.toOption.map fun t => grants t.rd t.w t.x .write) = some false ∧
    (((mapped 15 (some true)).translate ctx inside).2.toOption.map fun t => grants t.rd t.w t.x .write) = some true ∧
    ∀ t ∈ (mapped 15 none).tenants, t.track = none := by
  refine ⟨by decide +kernel, ?_, by and_intros <;> decide +kernel⟩
  intro l h
  have : (mapped 15 none).l2? ctx.tenant ctx.asid (lineNo 0x0200000000001000) = none := by decide +kernel
  rw [this] at h; cases h

theorem plain_base : s0.plainWrites := by unfold State.plainWrites; decide +kernel

theorem atom_line : c0.atomReady (lineNo 0x0200000000001000) := ⟨line, here_line, rfl, rfl, rfl, by decide +kernel, by decide +kernel⟩

theorem witness_AtomResults :
    (∀ i ∈ [atomInfo .d (.int .n32) 6 (.s 5) (.v 0) (some (.s 4)), atomInfo .b (.flt .f32) 15 (.v 2) (.v 1) none, atomInfo .s (.int .i64) 14 (.s 5) (.v 2) none],
      CanIssue s0 c0 p7 i) ∧ c0.fenced 0 = false ∧ c0.sound ∧
    (∀ l, l < 128 → (c0.guardMask p7).getLsbD l = true → (c0.based (.v 2) 0 l).toNat % 4 = 0 ∧ c0.atomReady (lineNo (c0.based (.v 2) 0 l))) ∧
    c0.s.memOk ∧ s0.plainWrites ∧ s0.awaitsAck c0.ref = false ∧ c0.atomReady (lineNo 0x0200000000001038) ∧ (0x0200000000001038 : DWord).toNat % 8 = 0 := by
  refine ⟨issue _ (by decide +kernel), by decide +kernel, sound_base, ?_, ?_, plain_base, by decide +kernel, (by decide +kernel : lineNo 0x0200000000001000 = lineNo 0x0200000000001038) ▸ atom_line, by decide⟩
  · intro l hl h
    have := (by decide +kernel : ∀ l, l < 128 → (c0.guardMask p7).getLsbD l = true →
      (c0.based (.v 2) 0 l).toNat % 4 = 0 ∧ lineNo (c0.based (.v 2) 0 l) = lineNo 0x0200000000001000) l hl h
    exact ⟨this.1, this.2 ▸ atom_line⟩
  · exact cellWf_base

/-- The element of lane 0 and 1 at s5 is 0x802A: equal to itself, unequal to 0. -/
theorem witness_WaitvResults :
    (∀ i ∈ [waitvInfo .n32 .d 6 (.s 5) (.imm 0x802A), waitvInfo .n32 .b 6 (.s 5) (.reg (.v 0) 0), waitvInfo .n64 .s 14 (.s 5) (.reg (.s 4) 0)], CanIssue s0 c0 p7 i) ∧
    c0.fenced 0 = false ∧ c0.sound ∧
    (∀ l, l < 128 → (c0.guardMask p7).getLsbD l = true → (c0.based (.s 5) 0 l).toNat % 8 = 0 ∧
      ∃ x, s0.l2? c0.ctx.tenant c0.ctx.asid (lineNo (c0.based (.s 5) 0 l)) = some x ∧ x.rd = true ∧ (if x.owner = .loc then s0.poisoned x.addr = false ∧ s0.mismatch x.addr = false
        else x.poisoned = false ∧ x.check = lineCheck x.data)) ∧
    c0.elemFrom .d 0x0200000000001000 4 = 0x802A := by
  refine ⟨issue _ (by decide +kernel), by decide +kernel, sound_base, ?_, by decide +kernel⟩
  intro l hl h
  have := (by decide +kernel : ∀ l, l < 128 → (c0.guardMask p7).getLsbD l = true →
    (c0.based (.s 5) 0 l).toNat % 8 = 0 ∧ lineNo (c0.based (.s 5) 0 l) = lineNo 0x0200000000001000) l hl h
  exact ⟨this.1, line, this.2 ▸ here_line, rfl, by decide +kernel⟩

/-- The wave holds the bytes of the line, and a sibling has written byte 3 of it at D since. -/
def holding : Block :=
  { block with
    waves := [{ wave with buf := [{ line := lineNo 0x0200000000001000, mask := 0xF, data := 0x44332211, log := none, saved := false, maker := (0, 0) }] }] }

def crossed : State :=
  { base with
    stamp := 1
    wlog := [{ stamp := 1, lvl := .d, tenant := 0, asid := 7, lid := some 5, block := 0, wave := 0, gang := 0, engine := false,
               line := lineNo 0x0200000000001000, phys := some 0x4000, mask := 8 }] }

theorem holding_set : (standCx base holding).commitSet .d =
    [{ line := lineNo 0x0200000000001000, mask := 0xF, data := 0x44332211, log := none }] := by decide +kernel

theorem holding_line : (stand base holding).l2? 0 7 (lineNo 0x0200000000001000) = some line := by with_unfolding_all rfl

theorem witness_CommitsPublish :
    (∀ i ∈ [levelInfo .b, levelInfo .d, levelInfo .s, commitXInfo 255 .d, commitXInfo 0 .b], CanIssue (stand base holding) (standCx base holding) p7 i) ∧
    (standCx base holding).fenced 0 = false ∧ (standCx base holding).canPublish .b ∧ (standCx base holding).canPublish .d ∧
    (standCx base holding).canPublish .s ∧ (standCx base holding).conflicts .d ((standCx base holding).commitSet .d) = 0 ∧
    (standCx crossed holding).conflicts .d ((standCx crossed holding).commitSet .d) = 1 := by
  have l : (standCx base holding).landable := by
    refine ⟨holding_set ▸ List.pairwise_singleton .., ?_⟩
    rw [holding_set]
    intro x hx
    cases List.mem_singleton.1 hx
    exact ⟨line, holding_line, rfl, rfl⟩
  have p : (standCx base holding).s.plainWrites := by unfold State.plainWrites; decide +kernel
  have e : ∀ b ∈ [(standCx base holding).wv.buf, (standCx base holding).blk.buf, (standCx base holding).gang?.elim [] (·.buf)],
    (b.map (·.line)).Nodup := by decide +kernel
  have k : (standCx base holding).s.awaitsAck (standCx base holding).ref = false := by decide +kernel
  have g : (standCx base holding).sound := by unfold Cx.sound; decide +kernel
  exact ⟨issues holding p7 _ (by decide +kernel) (by decide +kernel), by decide +kernel, ⟨g, e, k, trivial⟩, ⟨g, e, k, l, cellWf_base, p⟩, ⟨g, e, k, l, cellWf_base, p⟩,
    by decide +kernel, by decide +kernel⟩

/-- A launch with gangs of one block. -/
def ganged : Launch := { probeLaunch with hdr := { probeHdr with w0 := 0xFFF248000000 } }

def gangState : State := { base with gangs := [{ lid := 0, num := 0, buf := [], cluster := 0, saveRange := 0, saveSize := 0 }] }

theorem witness_CommitsPublish_gang :
    CanIssue (standIn gangState ctx ganged block) (standInCx gangState ctx ganged block) p7 (levelInfo .g) ∧
    (standInCx gangState ctx ganged block).canPublish .g :=
  ⟨issuesIn gangState ctx ganged block p7 [levelInfo .g] (by decide +kernel) (by decide +kernel) _ (by simp), by unfold Cx.canPublish Cx.sound Cx.columnFree; decide +kernel⟩

/-- A copy of the wave is under way. -/
def copying : State :=
  { base with
    jobs := [{ id := 9, wave := some { lid := 0, rank := 0, wave := 0 }, cmd := none, ctx := 4096, tenant := 0, pc := 0, core := 0, pipe := 0, tag := 0,
               kind := .linear .d 0x0200000000001000 0x0200000000001008 8 false false 0 0, row := 0, stage := [], after := [], stop := none, told := false }] }

/-- A write of the wave to device 1's memory is not acknowledged. -/
def sending : State :=
  { base with
    unsettled := [{ id := 4, wave := { lid := 0, rank := 0, wave := 0 }, owner := .peer 1, unseen := 0xE, fenced := 0, scratch := false, loc := 0,
                    mask := 1, old := 0 }] }

theorem witness_AbortAcquireFenceResults :
    (∀ i ∈ [{ len := 8, level := some (.w, false, true) }, { len := 8, level := some (.b, false, true) }, levelInfo .b, levelInfo .d, levelInfo .s, { len := 8 }],
      CanIssue s0 c0 p7 i) ∧
    (∀ i ∈ [{ len := 8, level := some (.g, false, true) }, levelInfo .g],
      CanIssue (standIn gangState ctx ganged block) (standInCx gangState ctx ganged block) p7 i) ∧
    c0.core < s0.cores.length ∧ (∃ j ∈ (standCx copying block).fenceJobs 2, (stand copying block).underway j = true) ∧
    (∃ n ∈ (standCx sending block).fenceWrites 1, (stand sending block).unacked n = true) :=
  ⟨issue _ (by decide +kernel), issuesIn gangState ctx ganged block p7 _ (by decide +kernel) (by decide +kernel), by decide +kernel,
   ⟨9, by decide +kernel, by decide +kernel⟩, 4, by decide +kernel, by decide +kernel⟩
/-! ### Copies, tags, barriers, queues, edges -/

/-- Tag 0 with a count. -/
def counted (ready : Bool) (n : Nat) : Block := { block with tags := [{ sym := 0, unit := 0, ready := ready, count := n }] }

def copyInfos : List Info :=
  [cpyInfo 5 5 (.i 0) 0 (some .d), cpyInfo 5 5 (.s 255) 0 (some .b), cpyInfo 5 5 (.s 4) 0 none,
   tileInfo ⟨0, false, .imm 26⟩ 4 0 1 none (needs 5 fun e => Option.isNone (none : Option Level) || entWritable e),
   tileInfo ⟨0, false, .scl 4⟩ 4 0 1 (some (.d, true, false)) (needs 5 fun e => Option.isNone (some Level.d) || entWritable e),
   tileInfo ⟨0, true, .imm 0⟩ 4 0 1 none (needs 8 fun e => Option.isNone (none : Option Level) || entWritable e)]

/-- The copy engines that tenant 0 owns, in a machine where it owns these. -/
def owning (engines : BitVec 96) : BitVec 96 :=
  (State.tenant { base with tenants := base.tenants.set 0 { base.tenant 0 with own := { (base.tenant 0).own with engines := engines } } } 0).own.engines

/-- Tag counts of 254 and 255; segment 26 is the last a tile may start at; s4 = 6 is no scaled origin. -/
theorem witness_CopiesStart :
    c0.fenced 1 = false ∧ c0.fenced 3 = false ∧ (∀ i ∈ copyInfos, CanIssue (stand base (counted false 254)) (standCx base (counted false 254)) p7 i) ∧
    (∀ i ∈ copyInfos, CanIssue (stand base (counted false 255)) (standCx base (counted false 255)) p7 i) ∧
    (∀ t, (counted false 254).tag? 0 = some t → t.count < 255) ∧ (∃ t, (counted false 255).tag? 0 = some t ∧ 255 ≤ t.count) ∧
    ¬ c0.segCount false 0 < 26 + tileSegs (ctx.entry 5) ∧ c0.segCount false 0 < 27 + tileSegs (ctx.entry 5) ∧
    (entScm (ctx.entry 8) = 1 ∧ ([c0.scl 4 0].headD 0).toNat % 2 ^ 32 % 32 ≠ 0) ∧ entScm (ctx.entry 5) ≠ 1 ∧
    (∃ i, i < 4 ∧ (owning 12).getLsbD (4 * clusterOf c0.core + i) = true) ∧
    ((∀ i, i < 4 → (owning (2 ^ 95)).getLsbD (4 * clusterOf c0.core + i) = false) ∧ (owning (2 ^ 95)).getLsbD ((4 * clusterOf c0.core + 95) % 96) = true ∧
     ∀ j, j < 95 → (owning (2 ^ 95)).getLsbD ((4 * clusterOf c0.core + j) % 96) = false) := by
  refine ⟨by decide +kernel, by decide +kernel, issues _ _ _ (by decide +kernel) (by decide +kernel), issues _ _ _ (by decide +kernel) (by decide +kernel),
    ?_, ⟨_, rfl, by decide⟩, by decide +kernel, by decide +kernel, by decide +kernel, by decide +kernel, ⟨2, by decide +kernel⟩, by decide +kernel⟩
  intro t h
  rw [(by with_unfolding_all rfl : (counted false 254).tag? 0 = some { sym := 0, unit := 0, ready := false, count := 254 })] at h
  cases h
  decide

theorem witness_TagInstructionResults :
    (∀ i ∈ [{ len := 16, uni := true, ops := [], syms := (TagList.tags ⟨0, 0⟩).map fun n => (kTag, n, 0, 0) },
      { len := 16, uni := true, ops := [wrS 255 1], syms := (TagList.tags ⟨7, 0⟩).map fun n => (kTag, n, 0, 0) }], CanIssue s0 c0 p7 i) ∧
    (∃ t, c0.blk.tag? 0 = some t ∧ t.ready = true) ∧
    (∀ i ∈ [{ len := 16, uni := true, ops := [], syms := (TagList.tags ⟨0, 0⟩).map fun n => (kTag, n, 0, 0) }],
      CanIssue (stand base (counted false 1)) (standCx base (counted false 1)) p7 i) ∧
    ¬ ∃ t, (counted false 1).tag? 0 = some t ∧ t.ready = true := by
  refine ⟨issue _ (by decide +kernel), ⟨_, rfl, rfl⟩, issues _ _ _ (by decide +kernel) (by decide +kernel), ?_⟩
  rintro ⟨t, h, r⟩
  rw [(by with_unfolding_all rfl : (counted false 1).tag? 0 = some { sym := 0, unit := 0, ready := false, count := 1 })] at h
  cases h
  cases r

/-- Barrier 0 with arrivals and marks. -/
def barred (a : Nat) (arrived dropped : ThreadSet) : Block :=
  { block with bars := [{ sym := 0, unit := 0, p := 6, e := 4, a := a, q := 0, arrived := arrived, dropped := dropped, lastSite := none }] }

def barInfos : List Info := [barInfo [wrS 255 1] 0, barInfo [] 0, barInfo [rdS 4 1] 0, barInfo [rdS 6 1] 0]

/-- Two threads arrive: with one arrival before they do not fill the phase of four, with two they do; thread 1 has dropped, or has
arrived. s4 is the phase, s6 is not. -/
theorem witness_BarrierResults :
    (∀ a ∈ [1, 2], ∀ i ∈ barInfos, CanIssue (stand base (barred a 0 0)) (standCx base (barred a 0 0)) p7 i) ∧
    (∀ i ∈ barInfos, CanIssue (stand base (barred 1 2 0)) (standCx base (barred 1 2 0)) p7 i) ∧
    (∀ i ∈ barInfos, CanIssue (stand base (barred 1 0 2)) (standCx base (barred 1 0 2)) p7 i) ∧
    (∃ b, (barred 2 0 0).bar? 0 = some b ∧ b.a + laneCount (c0.guardMask p7) = b.e ∧ b.e ≠ 0 ∧ b.dropped &&& threadsOf 0 (c0.guardMask p7) = 0 ∧
      b.arrived &&& threadsOf 0 (c0.guardMask p7) = 0) ∧
    (∃ b, (barred 1 0 0).bar? 0 = some b ∧ ¬ b.a + laneCount (c0.guardMask p7) = b.e) ∧
    (∃ b, (barred 1 2 0).bar? 0 = some b ∧ b.arrived &&& threadsOf 0 (c0.guardMask p7) ≠ 0 ∧ b.dropped &&& threadsOf 0 (c0.guardMask p7) = 0) ∧
    (∃ b, (barred 1 0 2).bar? 0 = some b ∧ b.dropped &&& threadsOf 0 (c0.guardMask p7) ≠ 0) ∧
    c0.site = none ∧ (c0.scl 4 0).setWidth 16 = (6 : BitVec 16) ∧ (c0.scl 6 0).setWidth 16 ≠ (6 : BitVec 16) := by
  refine ⟨?_, issues _ _ _ (by decide +kernel) (by decide +kernel), issues _ _ _ (by decide +kernel) (by decide +kernel), ⟨_, rfl, by decide +kernel⟩,
    ⟨_, rfl, by decide +kernel⟩, ⟨_, rfl, by decide +kernel⟩, ⟨_, rfl, by decide +kernel⟩, by decide +kernel⟩
  intro a ha
  obtain rfl | rfl : a = 1 ∨ a = 2 := by simpa using ha
  · exact issues _ _ _ (by decide +kernel) (by decide +kernel)
  · exact issues _ _ _ (by decide +kernel) (by decide +kernel)

def queued (ring : List DWord) (g : Nat) : Block := { block with queues := [{ sym := 0, unit := 0, ring := ring, g := g }] }

def mat : MatOps := ⟨0, 0, ⟨0, false, false, 0⟩, 9, ⟨0, false, false, 26⟩, 9, 0⟩

/-- An MMA stands in core 0's engine queue. -/
def engineOp (op : Instr) (origin : List DWord) (arg : DWord) (e : TEntry) : EngOp :=
  { id := 3, wave := { lid := 0, rank := 0, wave := 0 }, pc := 0, op := op, origin := origin, arg := arg, segA := 0, segB := 26, entryA := e, entryB := e }

/-- The wave's QGRANT waits for the operation, or for one that is no more there. -/
def granting (k : Nat) : Block :=
  { block with waves := [{ wave with grant := some { pc := 0x0100000000000000, ops := [k], op := .nop p7, inst := 0 } }] }

def engineBusy : State := base.setCore 0 { base.core 0 with engine := [engineOp (.mma p7 true mat) [] 0 (ctx.entry 9)] }

def queueInfos : List Info := [queueInfo [rdS 4 1] 0, queueInfo [wrS 255 1] 0, { queueInfo [wrS 254 2] 0 with badReg := (254 : BitVec 8) == 255 }, queueInfo [] 0]

/-- One entry and one grant of four: two more fit, three do not. -/
theorem witness_QueueResults :
    (∀ i ∈ queueInfos, CanIssue s0 c0 p7 i) ∧ (∀ i ∈ queueInfos, CanIssue (stand base (queued [] 0)) (standCx base (queued [] 0)) p7 i) ∧
    (∃ q, c0.blk.queue? 0 = some q ∧ q.g ≠ 0 ∧ q.ring = [11] ∧ q.g + 2 + q.ring.length ≤ c0.depth 0 ∧ c0.depth 0 < q.g + 3 + q.ring.length) ∧
    (∃ q, (queued [] 0).queue? 0 = some q ∧ q.g = 0 ∧ q.ring = []) ∧
    c0.grantOps = [] ∧ (∀ b ∈ [block, granting 3, granting 2], ∀ i ∈ queueInfos, CanIssue (stand engineBusy b) (standCx engineBusy b) p7 i) ∧
    (standCx engineBusy block).grantOps = [3] ∧ (standCx engineBusy (granting 3)).grantOps = [3] ∧ (standCx engineBusy (granting 2)).grantOps = [] := by
  refine ⟨issue _ (by decide +kernel), issues _ _ _ (by decide +kernel) (by decide +kernel), ⟨_, rfl, by decide +kernel⟩, ⟨_, rfl, by decide +kernel⟩,
    by decide +kernel, ?_, by decide +kernel, by decide +kernel, by decide +kernel⟩
  intro b hb
  obtain rfl | rfl | rfl : b = block ∨ b = granting 3 ∨ b = granting 2 := by simpa using hb
  all_goals exact issuesIn _ _ _ _ _ _ (by decide +kernel) (by decide +kernel)

/-- The line after it. -/
def line1 : L2Line := { line with line := lineNo 0x0200000000001040, addr := 0x4040 }

/-- A sound edge descriptor at 0x4000 with two slots at 0x4040: free slots, pushes and pops as given. -/
def edge (free pushed popped : Byte) : State :=
  { base with
    mem := [(0x4000, 0x40), (0x4001, 0x10), (0x4007, 0x02), (0x4008, 2)] ++ (if free = 0 then [] else [(0x4010, free)]) ++
      (if pushed = 0 then [] else [(0x4018, pushed)]) ++ (if popped = 0 then [] else [(0x4020, popped)])
    l2 := [line, line1] }

theorem edge_ready (s : State) (h : s.l2 = [line, line1]) (hc : s.checks = []) :
    (standCx s block).AtomAt 0x0200000000001000 0x4000 ∧ (standCx s block).AtomAt 0x0200000000001048 0x4048 := by
  have a : (standCx s block).s.l2? 0 7 (lineNo 0x0200000000001000) = some line := by simp only [State.l2?, standCx, standInCx, standIn, h]; decide +kernel
  have b : (standCx s block).s.l2? 0 7 (lineNo 0x0200000000001048) = some line1 := by
    simp only [State.l2?, standCx, standInCx, standIn, h]; decide +kernel
  have p (n : Nat) (m : L2Line) (hn : [line, line1].find? (·.holds n) = some m)
      (hm : m.poisoned = false) : (standCx s block).s.poisoned n = false := by
    simp only [State.poisoned, standCx, standInCx, standIn, h, hn, hm]
  have k : ∀ n, (standCx s block).s.mismatch n = false := by intro n; simp [State.mismatch, standCx, standInCx, standIn, hc]
  exact ⟨⟨_, a, rfl, rfl, rfl, p _ line (by decide +kernel) rfl, k _, by decide +kernel⟩, ⟨_, b, rfl, rfl, rfl, p _ line1 (by decide +kernel) rfl, k _, by decide +kernel⟩⟩

/-- One free slot of two with a record to pop, no free slot, and an empty edge; s5 is the descriptor, s5 + 8 is no descriptor. -/
theorem witness_EdgeResults :
    (∀ s ∈ [edge 1 1 0, edge 0 2 0, edge 2 1 1], (∀ i ∈ [epushInfo 255 5 4, epopInfo 254 5], CanIssue (stand s block) (standCx s block) p7 i) ∧
      (standCx s block).fenced 0 = false ∧ (stand s block).memOk ∧ (stand s block).plainWrites ∧ (standCx s block).AtomAt 0x0200000000001000 0x4000 ∧
      (standCx s block).AtomAt 0x0200000000001048 0x4048) ∧
    EdgeAt (edge 1 1 0).mem 0x4000 0x0200000000001040 2 1 1 0 ∧ EdgeAt (edge 0 2 0).mem 0x4000 0x0200000000001040 2 0 2 0 ∧
    EdgeAt (edge 2 1 1).mem 0x4000 0x0200000000001040 2 2 1 1 ∧
    ptrAdd (0x0200000000001040 : DWord) ((8 * ((1 : DWord).toNat % 2) : Nat) : Int) = 0x0200000000001048 ∧
    (ptrAdd (c0.scl 5 0) 0).toNat % 64 = 0 ∧ (ptrAdd (c0.scl 5 0) 8).toNat % 64 ≠ 0 := by
  refine ⟨?_, by unfold EdgeAt; decide +kernel, by unfold EdgeAt; decide +kernel, by unfold EdgeAt; decide +kernel, by decide, by decide +kernel, by decide +kernel⟩
  intro s hs
  obtain rfl | rfl | rfl : s = edge 1 1 0 ∨ s = edge 0 2 0 ∨ s = edge 2 1 1 := by simpa using hs
  all_goals exact ⟨issuesIn _ _ _ _ _ _ (by decide +kernel) (by decide +kernel), by decide +kernel, by unfold State.memOk; decide +kernel,
    by unfold State.plainWrites; decide +kernel, edge_ready _ rfl rfl⟩
/-! ### Matrix engine, accumulators, system instructions -/

/-- Trick 0 of two signatures, so far as given. -/
def signing (signed : ThreadSet) (count : Nat) : Block := { block with tricks := [{ sym := 0, unit := 0, signed := signed, count := count, op := none }] }

/-- Core 0's scratch in planes. -/
def planes : State := base.setCore 0 { base.core 0 with segs := List.replicate 32 { data := 0, tag := 8 } }

def phasors : MatOps := ⟨0, 14, ⟨0, false, false, 0⟩, 6, ⟨0, false, false, 26⟩, 6, 0⟩

def signInfos : List Info := [signInfo 0, matInfo mat (1 + Bool.toNat true) mmaClass, matInfo phasors 2 pmmaClass]

/-- Three threads for a trick of two. -/
def three : Block := { block with waves := [{ wave with present := 7, groups := [{ lanes := 7, pc := 0x0100000000000000, last := 0 }] }] }

theorem witness_SigningIssuesTheRound :
    c0.fenced 2 = false ∧ (∀ i ∈ signInfos, CanIssue s0 c0 p7 i) ∧ (∀ i ∈ signInfos, CanIssue s0 c0 p0 i) ∧
    (∀ i ∈ signInfos, CanIssue (stand base (signing 2 1)) (standCx base (signing 2 1)) p7 i) ∧
    (∀ i ∈ signInfos, CanIssue (stand base three) (standCx base three) p7 i) ∧
    (∃ t, c0.blk.trick? 0 = some t ∧ t.signed &&& threadsOf 0 (c0.guardMask p7) = 0 ∧ t.count + laneCount (c0.guardMask p7) = c0.trickSize 0 ∧
      t.count + laneCount (c0.guardMask p0) < c0.trickSize 0) ∧
    (∃ t, (signing 2 1).trick? 0 = some t ∧ t.signed &&& threadsOf 0 (c0.guardMask p7) ≠ 0) ∧
    c0.trickSize 0 < laneCount ((standCx base three).guardMask p7) :=
  ⟨by decide +kernel, issue _ (by decide +kernel), issues _ _ _ (by decide +kernel) (by decide +kernel), issues _ _ _ (by decide +kernel) (by decide +kernel),
   issues _ _ _ (by decide +kernel) (by decide +kernel), ⟨_, rfl, by decide +kernel⟩, ⟨_, rfl, by decide +kernel⟩, by decide +kernel⟩

/-- The last segment a tile of the symbol may start at is 26; planes carry tag 8, unwritten segments tag 0. -/
theorem witness_SigningIssuesTheRound_operands :
    26 + tileSegs (ctx.entry 9) ≤ c0.segCount false 0 ∧ ¬ 27 + tileSegs (ctx.entry 9) ≤ c0.segCount false 0 ∧
    (∀ i, i < tileSegs (ctx.entry 9) → (((stand planes block).core 0).seg (c0.segAt false 0 + 26 + i)).tag = if i < 6 then entTag (ctx.entry 9) else 0) ∧
    ((s0.core 0).seg (c0.segAt false 0)).tag ≠ entTag (ctx.entry 9) ∧ (standCx planes block).core < (stand planes block).cores.length := by
  decide +kernel

/-- Banks 0 and 1 are allocated to group 0, bank 2 to group 1; word 5 of bank 0 has an error. -/
def banked : State :=
  base.setCore 0 { base.core 0 with
    banks := [{ alloc := true, owner := 0, words := [1, 2] }, { alloc := true, owner := 0, words := [] }, { alloc := true, owner := 1, words := [] }]
    badAcc := [5] }

def accInfos : List Info :=
  [accInfo 0 0 16 [], accInfo 0 15 1 [], accInfo 0 0 1 [rdS 4 1, wrV 15 false], accInfo 0 2 1 [rdS 255 1, wrV 5 false],
   { accInfo 0 0 1 [rdS 4 1, rdRaw 0 false] with lastB := regsOf 0 false }]

/-- s4 + lanes 0 and 1 name words 6 and 7, s3 + lane 1 none of them; s2 + 5 names the bad word by lane 5 only. -/
theorem witness_AccumulatorResults :
    (∀ i ∈ accInfos, CanIssue (stand banked block) (standCx banked block) p7 i) ∧ (standCx banked block).core < (stand banked block).cores.length ∧
    ((stand banked block).core 0).engine = [] ∧ (∀ i ∈ accInfos, CanIssue (stand engineBusy block) (standCx engineBusy block) p7 i) ∧
    ¬ ((stand engineBusy block).core 0).engine = [] ∧
    (∀ l, l < 128 → (c0.guardMask p7).getLsbD l = true → 0 * 512 + ((c0.scl 4 0).toNat + l) % 512 ∉ ((stand banked block).core 0).badAcc) := by
  refine ⟨issuesIn _ _ _ _ _ _ (by decide +kernel) (by decide +kernel), by decide +kernel, by decide +kernel,
    issuesIn _ _ _ _ _ _ (by decide +kernel) (by decide +kernel), by decide +kernel, by decide +kernel⟩

/-- The error stands at word 7, which lane 1 names. -/
def bankedBad : State := base.setCore 0 { base.core 0 with banks := [{ alloc := true, owner := 0, words := [] }], badAcc := [7] }

theorem witness_AccumulatorResults_error :
    CanIssue (stand bankedBad block) (standCx bankedBad block) p7 (accInfo 0 0 1 [rdS 4 1, wrV 15 false]) ∧
    (((stand bankedBad block).core 0).bank 0).alloc = true ∧
    (∀ l, l < 128 → ((2 : Mask).getLsbD l = true ↔ (c0.guardMask p7).getLsbD l = true ∧ 0 * 512 + ((c0.scl 4 0).toNat + l) % 512 ∈ ((stand bankedBad block).core 0).badAcc)) :=
  ⟨issuesIn _ _ _ _ p7 [accInfo 0 0 1 [rdS 4 1, wrV 15 false]] (by decide +kernel) (by decide +kernel) _ (by simp), by decide +kernel, by decide +kernel⟩

def drainInfos (s : State) : List Info :=
  [drainInfo (.mem .d 4) 5 0 0 (1 + Bool.toNat true) 0 ((some (Level.d, (255 : BitVec 8))).elim [] fun a => [rdS a.2 1]) drainClass (some .d) s,
   drainInfo (.sc 0 false 26) 5 0 1 (1 + Bool.toNat true) 0 [] drainClass none s, drainInfo (.mem .b 255) 7 0 14 2 0 [rdS 4 1] pdrainClass none s,
   drainInfo (.sc 0 false 27) 7 0 0 2 0 [rdS 255 1] pdrainClass none s]

/-- Segment 26 is the last a drain may start at; of banks 1 and 2 the second is foreign. -/
theorem witness_DrainsEnterTheQueue :
    c0.fenced 2 = false ∧ (∀ i ∈ drainInfos (stand banked (counted false 254)), CanIssue (stand banked (counted false 254)) (standCx banked (counted false 254)) p7 i) ∧
    (∀ i ∈ drainInfos (stand banked (counted false 255)), CanIssue (stand banked (counted false 255)) (standCx banked (counted false 255)) p7 i) ∧
    ¬ c0.segCount false 0 < (26 : BitVec 8).toNat + 6 ∧ c0.segCount false 0 < (27 : BitVec 8).toNat + 6 ∧
    (let foreign (b n : Nat) : Prop := (((stand banked block).core 0).bank (c0.bankAt 0 + b + n)).alloc = true ∧
        (((stand banked block).core 0).bank (c0.bankAt 0 + b + n)).owner ≠ c0.waveGroup 0
     (¬ foreign 0 0 ∧ ¬ foreign 0 1) ∧ ¬ foreign 1 0 ∧ foreign 1 1) := by
  refine ⟨by decide +kernel, issuesIn _ _ _ _ _ _ (by decide +kernel) (by decide +kernel), issuesIn _ _ _ _ _ _ (by decide +kernel) (by decide +kernel),
    by decide +kernel, by decide +kernel, by decide +kernel⟩

theorem witness_TensorTableResults :
    (∀ i ∈ [tdefInfo 0, tdefInfo 248, { len := 16, uni := true, ops := [wrS 255 1] }], CanIssue s0 c0 p7 i) ∧ c0.fenced 0 = false ∧ s0.memOk ∧
    s0.plainWrites ∧ entValid (c0.ctx.entry 5) = true ∧ entValid (c0.ctx.entry 0) = false :=
  ⟨issue _ (by decide +kernel), by decide +kernel, cellWf_base, plain_base, by decide +kernel, by decide +kernel⟩

/-- A drain of the wave stands in the engine queue. -/
def draining : State := base.setCore 0 { base.core 0 with engine := [engineOp (.drain p7 (.mem .d 4) true .rn false none 5 0 0 0) [0] 0 e4m3] }

theorem witness_SpecialRegisterResults :
    (∀ n ∈ [0, 5, 6, 7, 16, 17, 18, 19, 20, 21], CanIssue s0 c0 p7 (srrInfo (.v 14) n)) ∧ (∀ n ∈ [1, 2, 3, 4, 8, 22], CanIssue s0 c0 p7 (srrInfo (.v 15) n)) ∧
    (∀ n ∈ [0, 5, 7, 8, 16, 22], CanIssue s0 c0 p7 (srrInfo (.s 254) n)) ∧ (∀ n ∈ [7, 8], CanIssue s0 c0 p7 (srwInfo n 255)) ∧ c0.drains = false ∧
    c0.core < s0.cores.length ∧ CanIssue (stand draining block) (standCx draining block) p7 (srrInfo (.v 14) 7) ∧ (standCx draining block).drains = true := by
  have m (f : BitVec 8 → Info) (l : List (BitVec 8)) (h : (l.map f).all (ready (standCx base block) p7) = true) : ∀ n ∈ l, CanIssue s0 c0 p7 (f n) :=
    fun n hn => issue (l.map f) h _ (List.mem_map_of_mem hn)
  exact ⟨m _ _ (by decide +kernel), m _ _ (by decide +kernel), m _ _ (by decide +kernel), m _ _ (by decide +kernel), by decide +kernel, by decide +kernel,
    issuesIn _ _ _ _ p7 [srrInfo (.v 14) 7] (by decide +kernel) (by decide +kernel) _ (by simp), by decide +kernel⟩

def trapRec : TrapRec := { info := plainTrap 1 0x09 0, pc := 0x0100000000000000, inst := 0, mask := 3 }

/-- The wave is in its handler. -/
def handler : Block :=
  { block with
    waves := [{ wave with
      frame := some { trap := trapRec, regs := { regs with nv := 8 }, groups := [], held := 0, mr := [], window := 0 } }] }

def frameInfos : List Info :=
  [xrdInfo .v 15 (.imm 7), xrdInfo .v 15 (.imm 8), xrdInfo .v64 14 (.imm 7), xrdInfo .s 255 (.imm 255), xrdInfo .s 0 (.imm 256), xrdInfo .p 7 (.imm 8), xrdInfo .v 4 (.scl 4),
   xwrInfo .v (.imm 7) 15, xwrInfo .v64 (.imm 8) 14, xwrInfo .s (.imm 255) 255, xwrInfo .p (.imm 7) 0, rttInfo 5, rttInfo 4]

/-- In a handler and outside one; s5 is on a 64-byte block and s4 is not. -/
theorem witness_TrapFrameResults :
    (∀ i ∈ frameInfos, CanIssue s0 c0 p7 i) ∧ c0.wv.frame = none ∧
    (∀ i ∈ frameInfos, CanIssue (stand base handler) (standCx base handler) p7 i) ∧ (∃ f, (standCx base handler).wv.frame = some f ∧ f.regs.nv = 8) ∧
    (c0.scl 5 0).toNat % 64 = 0 ∧ (c0.scl 4 0).toNat % 64 ≠ 0 ∧ (standCx base handler).regWorn ((standCx base handler).guardMask p7) false [6, 7, 8] = 0 ∧
    (standCx base handler).regsSick false ((standCx base handler).absent false [6, 7, 8]) = false :=
  ⟨issue _ (by decide +kernel), by decide +kernel, issues _ _ _ (by decide +kernel) (by decide +kernel), ⟨_, rfl, rfl⟩, by decide +kernel, by decide +kernel, by decide +kernel,
   by decide +kernel⟩

/-- A launch that checks stalls and unwritten reads. -/
def checked : Launch := { probeLaunch with hdr := { probeHdr with w0 := 0xFFF240000006 } }

/-- v1, p1 and s6 have results on their way, in both lanes. -/
def waiting : Block :=
  let e (k : RegKind) (n : Nat) : Pending := { kind := k, num := n, lanes := 3, left := 1, ipc := 0, oldRow := [some 9], oldBits := 2 }
  { block with waves := [{ wave with pend := [e .v 1, e .p 1, e .s 6] }] }

def x0 : Cx := standInCx base ctx checked block
def xw : Cx := standInCx base ctx checked waiting

theorem witness_TrapsComeInOrder : (standIn base ctx checked block).cx? = some x0 ∧ (standIn base ctx checked waiting).cx? = some xw :=
  ⟨standIn_cx _ _ _ _ (by decide +kernel), standIn_cx _ _ _ _ (by decide +kernel)⟩

/-- For each check an instruction that fails it and passes those before it; v4 is unwritten, p2 false in every lane. -/
theorem witness_TrapsComeInOrder_checks :
    x0.lch.hdr.scb = true ∧ x0.lch.hdr.unw = true ∧
    (¬ ∀ o ∈ [wrV 16 false], o.kind = .v → o.num + o.n ≤ x0.wv.regs.nv ∧ (o.n = 2 → o.num % 2 = 0)) ∧
    (∀ o ∈ [wrV 15 false], o.kind = .v → o.num + o.n ≤ x0.wv.regs.nv ∧ (o.n = 2 → o.num % 2 = 0)) ∧
    (srrInfo (.v 15) 9).badSr = true ∧ x0.symOk kBuffer 1 0 0 = false ∧ x0.symOk kAcc 0 15 1 = true ∧ x0.symOk kAcc 0 15 2 = false ∧
    x0.levelBad (some (.w, true, false)) = true ∧ x0.levelBad (some (.g, false, true)) = true ∧ x0.levelBad (some (.b, true, true)) = false ∧
    narrowHandle 7 x0 = some 7 ∧ narrowHandle 5 x0 = none ∧ xw.hazards (guardOpd { p7 with gp := 1 }) ≠ [] ∧ xw.hazards (guardOpd p7) = [] ∧
    xw.guardMask p7 ≠ 0 ∧ xw.hazards (rdV 1 false) ≠ [] ∧ x0.guardMask { p7 with gp := 2 } = 0 ∧ (rdV 4 false).arith = true ∧
    (∃ n ∈ (rdV 4 false).regs, x0.wv.regs.lane n 0 = none) := by decide +kernel

/-- With the scoreboard off and results on their way, with it on, and with nothing on its way. -/
theorem witness_StallHazardsReadOldOrNew :
    (stand base waiting).cx? = some (standCx base waiting) ∧ (standCx base waiting).lch.hdr.scb = false ∧
    (∃ e ∈ (standCx base waiting).wv.pend, e.kind = .v ∧ e.num = 1 ∧ 0 < e.left ∧ e.lanes.getLsbD 1 = true) ∧ xw.lch.hdr.scb = true ∧
    (∀ e ∈ c0.wv.pend, e.left = 0) :=
  ⟨standIn_cx _ _ _ _ (by decide +kernel), by decide +kernel, ⟨_, List.mem_cons_self, by decide +kernel⟩, by decide +kernel, by decide +kernel⟩

/-- The machine after reset with a NOP where it fetches. -/
def fetching : State := State.reset.withFetchWord 64 0x000E0200

def r0 : WaveRef := { lid := 0, rank := 0, wave := 0 }

theorem witness_StepRunsDecodedInstruction :
    fetching.agenda = [.issue r0 0] ∧
    ((State.issuer { fetching with agenda := [] } r0 0).bind fun c => c.atLine.ownLine).map (fun l =>
      (decodeAt 32 (l.data.toNat % 2 ^ 128)).toOption) = some (some (.nop p7)) ∧
    ((State.issuer { fetching with agenda := [] } r0 0).map fun c => c.g.pc) = some 0 := by
  refine ⟨by decide +kernel, by decide +kernel, by decide +kernel⟩

theorem test_step_runs_it :
    (match step (fetching) with
     | .next t => t.agenda == [] && (t.wave { lid := 0, rank := 0, wave := 0 }).groups.map (·.pc) == [8]
     | _ => false) = true := by decide +kernel

theorem witness_DecodeOfEncodeIsTheInstruction :
    Instr.wf (.iadd g2 .n32 true (.v 5 0xABC 0x123)) = true ∧ (encode (.iadd g2 .n32 true (.v 5 0xABC 0x123))).length = 8 ∧
    Instr.wf (.qgrant p7 255 16) = true ∧ (encode (.qgrant p7 255 16)).length = 16 ∧ encode (.packageReset [] 0) = [] := by decide +kernel

theorem goes_on (s : State) (h : (match step s with
    | .next _ => true
    | _ => false) = true) : goesOn s := by
  unfold goesOn
  revert h
  generalize step s = o
  intro h
  cases o with
  | next t => exact ⟨t, rfl⟩
  | fault f => cases h
  | refused r => cases h

theorem witness_StepKeepsMemoryCanonical : fetching.memOk ∧ goesOn fetching :=
  ⟨by unfold State.memOk; decide +kernel, goes_on _ (by decide +kernel)⟩
/-! ### Commands -/

def onQueue : CmdQueue := { CmdQueue.reset with qctl := 1, qtail := 1 }

/-- Tenant 0 owns cluster 0, slice 0, channel 0, engine 0, port 0 and host port 0, region 0, and a command stands in its queue 0. -/
def tenant0 : Tenant :=
  { Tenant.reset with
    own := { clusters := 1, slices := 1, channels := 1, engines := 1, ports := 0x101 }, queues := onQueue :: List.replicate 63 CmdQueue.reset,
    key := some 5, regions := [0] }

/-- Context 0 of tenant 0, with room for decks on core 0. -/
def ctx0 : Ctx := { ctx with num := 0, poolBase := 0x100000, poolSize := 0x1000000 }

def dev : State :=
  { State.reset with
    tenants := tenant0 :: List.replicate 15 Tenant.reset, pkg := { Package.reset with queue := onQueue }, ctxs := [ctx0], kernels := [kernel] }

def src : CmdSrc := { fn := 0, q := 0, seq := 0 }
def pkgSrc : CmdSrc := { fn := 16, q := 0, seq := 0 }

def run0 : Launch := { probeLaunch with ctx := 0 }

/-- The same with a launch of context 0 and its block on core 0. -/
def runs : State := { dev with launches := [run0], blocks := [block] }

theorem dev_takes : TenantTakes dev src ∧ PackageTakes dev pkgSrc := by unfold TenantTakes PackageTakes; decide +kernel
theorem runs_takes : TenantTakes runs src ∧ PackageTakes runs pkgSrc := by unfold TenantTakes PackageTakes; decide +kernel

/-- A queue that is off, one that is empty and one that carries out a command; a tenant's command in the package queue. -/
theorem witness_CommandsCompleteWithRecords :
    commandIn (.ctxdestroy src 0) = some (src, false, 0x04) ∧ commandIn (.attest pkgSrc 0 0) = some (pkgSrc, true, 0x44) ∧
    (dev.cmdQueue 0 1).qctl.getLsbD 0 = false ∧ (dev.cmdQueue 0 0).qctl.getLsbD 0 = true ∧ (dev.cmdQueue 0 0).qhead ≠ (dev.cmdQueue 0 0).qtail ∧
    (dev.cmdQueue 0 0).busy = false ∧ ((dev.take src).cmdQueue 0 0).busy = true ∧ ((dev.take src).cmdQueue 0 0).qhead = ((dev.take src).cmdQueue 0 0).qtail ∧
    ¬ ((16 : Nat) = 16 ↔ false = true) ∧ ¬ ((0 : Nat) = 16 ↔ true = true) ∧ dev.memOk ∧ 0 < dev.tenants.length ∧ 0 < (dev.tenant 0).queues.length := by
  unfold State.memOk; decide +kernel

/-- Context numbers 4,095 and 4,096, descriptors on a 128-byte boundary and off one; an idle context, one with a launch; slices and cores at
their limits; a block inside the new share and one outside it. -/
theorem witness_ContextCommandResults :
    TenantTakes dev src ∧ TenantTakes runs src ∧
    (dev.ctx? 0 4095 = none ∧ (∀ y ∈ dev.ctxs, y.tenant = 0 → y.asid ≠ (mem64 dev.mem 0x8000).toNat % 2 ^ 16) ∧ (0x8000 : DWord).toNat % 128 = 0 ∧
      (∀ i, i < 16 → mem64 dev.mem (0x8000 + 8 * i) = 0)) ∧ (0x8040 : DWord).toNat % 128 ≠ 0 ∧
    dev.ctx? 0 0 = some ctx0 ∧ dev.ctx? 0 1 = none ∧ dev.launches = [] ∧ dev.jobs = [] ∧ ctx0.sharing = none ∧
    (∃ l ∈ runs.launches, l.src.fn = 0 ∧ l.ctx = 0) ∧ (65536 ≤ 65536 ∧ 65536 < 2 ^ 32 ∧ (∀ n ∈ [0, 287], n < 288) ∧ [coreCaps 0, coreCaps 1].length = [0, 287].length) ∧ ¬ (∀ n ∈ [288], n < 288) ∧
    ((runs.take src).setCtx { ctx0 with sharing := some src }).outOfShare { ctx0 with sharing := some src } = [] ∧
    ((runs.take src).setCtx { ctx0 with cores := [1] }).outOfShare { ctx0 with cores := [1] } = [block] := by
  refine ⟨dev_takes.1, runs_takes.1, ?_⟩; decide +kernel

/-- Tracked, with a bitmap of 32,768 bytes. -/
def tracked : State := { dev with tenants := { tenant0 with track := some (0x10000, 32768) } :: List.replicate 15 Tenant.reset }

theorem witness_InvalidationAndTrackingResults :
    TenantTakes dev src ∧ dev.memOk ∧ dev.ctx? 0 0 = some ctx0 ∧ dev.ctx? 0 1 = none ∧ (∀ n ∈ [2 ^ 12, 2 ^ 16, 2 ^ 21, 2 ^ 30], (BitVec.ofNat 64 n).toNat ∈ [2 ^ 12, 2 ^ 16, 2 ^ 21, 2 ^ 30]) ∧
    ¬ (0 : DWord).toNat ∈ [2 ^ 12, 2 ^ 16, 2 ^ 21, 2 ^ 30] ∧ dev.heldPackets = [] ∧ dev.jobs = [] ∧ (∀ p ∈ dev.ports, p.state = 0 → p.buffer = []) ∧ dev.plainWrites ∧ (dev.tenant 0).track = none ∧
    TenantTakes tracked src ∧ (tracked.tenant 0).track = some (0x10000, 32768) ∧ (4095 : DWord).toNat + (1 : DWord).toNat ≤ 32768 / 8 ∧
    32768 / 8 < (4095 : DWord).toNat + (2 : DWord).toNat ∧ (0x1000 : DWord).toNat % 4096 = 0 ∧ 32768 * (dev.tenant 0).regions.length ≤ (32768 : DWord).toNat ∧
    (32767 : DWord).toNat < 32768 * (dev.tenant 0).regions.length := by
  unfold State.memOk State.plainWrites TenantTakes
  and_intros <;> decide +kernel

def stoppedJob : Job :=
  { id := 4, wave := none, cmd := some { fn := 0, q := 0, seq := 0 }, ctx := 0, tenant := 0, pc := 0, core := 0, pipe := 0, tag := 0,
    kind := .linear .d 0 0 8 false false 0 0, row := 0, stage := [], after := [], stop := some (plainTrap 7 1 0), told := true }

def withBlock (b : Block) : State := { runs with blocks := [b] }

/-- A stopped COPY; a block away on a fault, and a retired one; blocks to halt off their core and on it, and a halted one whose deck ends at
0x10000. -/
theorem witness_FaultServiceAndDebugResults :
    TenantTakes runs src ∧ runs.memOk ∧ runs.stoppedCopy 0 0 0 0 = none ∧
    (runs.namedBlock 0 0 0 0 fun _ b => b.faulted && b.place != .resident) = none ∧
    State.stoppedCopy { runs with jobs := [stoppedJob] } 0 0 0 0 = some stoppedJob ∧
    (∀ p ∈ [BlockPlace.away, BlockPlace.retired],
      (State.namedBlock (withBlock { block with place := p, faulted := true }) 0 0 0 0 fun _ b => b.faulted && b.place != .resident) =
        some (run0, { block with place := p, faulted := true })) ∧
    (runs.namedBlock 0 0 0 0 fun l b => l.state == .running && b.place != .retired && !b.halted) = some (run0, block) ∧ block.place = .resident ∧
    (runs.haltBlock block).isSome = true ∧ (let b : Block := { block with waves := [{ wave with wait := some .acks }] }; (withBlock b).haltBlock b = none) ∧
    (∀ at_ ∈ [true, false], State.namedBlock (withBlock { block with halted := true, atBkpt := at_ }) 0 0 0 0 (fun _ b => b.halted) =
      some (run0, { block with halted := true, atBkpt := at_ }) ∧ runs.deckSick { block with halted := true, atBkpt := at_ } = false) ∧
    (State.namedBlock (withBlock { block with place := .away }) 0 0 0 0 fun l b => l.state == .running && b.place != .retired && !b.halted) =
      some (run0, { block with place := .away }) ∧
    (State.namedBlock (withBlock { block with halted := true, deckSize := 0x10000 }) 0 0 0 0 fun _ b => b.halted) =
      some (run0, { block with halted := true, deckSize := 0x10000 }) ∧
    (0xFFF8 : DWord).toNat + (8 : DWord).toNat ≤ 0x10000 ∧ 0x10000 < (0xFFF9 : DWord).toNat + (8 : DWord).toNat := by
  refine ⟨runs_takes.1, by unfold State.memOk; decide +kernel, ?_⟩; decide +kernel

/-- The stream has been used; its received one has failed. -/
def used (failed : Bool) : State :=
  let x : Stream := { num := 3, counter := 1, seen := [0], failed := failed, records := [] }
  { dev with
    tenants := { tenant0 with sent := [x], received := [x] } :: List.replicate 15 Tenant.reset, mem := [(0, 1)], hostMem := [(0, 1)] }

theorem ring_empty : dev.readRing 0 0 = [] := by unfold State.readRing; split <;> rfl

theorem ring_short (f : Bool) : (used f).readRing 0 1 = [1] := by unfold State.readRing; split <;> cases f <;> with_unfolding_all rfl

def message (kind off : Nat) : UeMessage := sealMessage 5 3 7 0 kind 0 off [1, 2, 3, 4]

theorem witness_CopyAndMigrationResults :
    TenantTakes dev src ∧ (dev.cmdQueue 0 0).ctx = 0 ∧ dev.ctx? 0 0 ≠ none ∧ (dev.tenant 0).own.engines ≠ 0 ∧
    ((dev.tenant 0).key ≠ none ∧ (dev.tenant 0).own.ports.getLsbD (8 + 0) = true ∧ (dev.tenant 0).own.ports.getLsbD (8 + 3) = false ∧ (dev.tenant 0).track = none) ∧
    (tracked.tenant 0).track ≠ none ∧ (∃ x ∈ ((used false).tenant 0).sent, x.num = 3) ∧ (¬ ∃ x ∈ (dev.tenant 0).sent, x.num = 3) ∧
    (∃ x ∈ ((used true).tenant 0).received, x.failed = true) ∧ (∀ x ∈ ((used false).tenant 0).received, x.failed = false) ∧
    cutRecords ((used false).readRing 0 1).length ((used false).readRing 0 1) = none ∧ cutRecords (dev.readRing 0 0).length (dev.readRing 0 0) = some [] := by
  rw [ring_short, ring_empty]
  refine ⟨dev_takes.1, ?_⟩
  and_intros <;> first | decide +kernel | rfl

/-- A message under key 5 opens, and another tag does not. -/
theorem witness_CopyAndMigrationResults_opens :
    (dev.tenant 0).own.ports.getLsbD (8 + 0) = true ∧
    gcmOpen (natBytes 32 5) (nonceOf 3 7) (message 0 64).aad (message 0 64).sealed (message 0 64).tag = some [1, 2, 3, 4] ∧
    gcmOpen (natBytes 32 5) (nonceOf 3 7) (message 0 64).aad (message 0 64).sealed [] = none := by decide +kernel

/-- Its frame lands in region 0 at the last 4 bytes of 1 GiB, and 4 bytes further not. -/
theorem witness_CopyAndMigrationResults_lands :
    (message 0 64).aad.length = 32 ∧ bytesLe 4 (fun j => (message 0 64).aad.getD (16 + j) 0) = 0 ∧
    bytesLe 4 (fun j => (message 1 0).aad.getD (16 + j) 0) ≠ 0 ∧
    bytesLe 4 (fun j => (message 0 1073741820).aad.getD (24 + j) 0) + 4 ≤ 1073741824 ∧
    1073741824 < bytesLe 4 (fun j => (message 0 1073741824).aad.getD (24 + j) 0) + 4 ∧
    (dev.tenant 0).regions[bytesLe 4 fun j => (message 0 64).aad.getD (20 + j) 0]? = some 0 ∧ (dev.tenant 0).regions[1]? = none := by
  refine ⟨by decide +kernel, by decide +kernel, by decide +kernel, ?_, ?_, by decide +kernel, by decide +kernel⟩
  · decide +kernel
  · decide +kernel

theorem witness_PackageCommandResults :
    PackageTakes dev pkgSrc ∧ 16 ≤ dev.tenants.length ∧ dev.pkg.columns.length = 24 ∧
    (let r : Resources := { Resources.none with clusters := 1 }
     ((List.range 16).filter fun n => n != 1 && Resources.meet (dev.tenant n).own r != Resources.none) = [0] ∧ dev.partitionHeld (some 1) r = false ∧
     runs.partitionHeld (some 1) r = true) ∧
    ((dev.pkg.regions.find? fun x => x.num == 299).map (·.inService)) = some true ∧ (dev.pkg.regions.find? fun x => x.num == 300) = none ∧
    (dev.tenants.findIdx? fun t => t.regions.contains 0) = some 0 := by
  refine ⟨dev_takes.2, ?_⟩
  and_intros <;> decide +kernel
/-! ### Events -/

/-- A header of two threads with an out-edge and the slots it needs. -/
def header (edge need : DWord) : LaunchHdr := { probeHdr with w0 := 0xF240000000, w2 := 1, w5 := edge, w6 := need }

/-- A taken launch of context 0; its edge at the pointers' address has a capacity of 4 and 2 free slots. -/
def taking (h : LaunchHdr) : State :=
  { dev with
    launches := [{ run0 with state := .taken, hdr := h, nextUnit := 0 }], l2 := [line],
    mem := [(0x4001, 0x10), (0x4008, 4), (0x4010, 2)] }

def nextHdr (s : State) : Option LaunchHdr := (s.nextLaunch 0 0).map (·.hdr)

/-- A launch in a state, with no block. -/
def ending (st : LaunchState) : State := { dev with launches := [{ run0 with state := st }] }

/-- A taken launch without context, with a bad header, too few threads for its trick, a bad edge, too few slots, and one that begins; at its
boundary, settled and first. -/
theorem witness_LaunchesBeginAndComplete :
    ((dev.cmdQueue 0 0).qctl.getLsbD 0 = true ∧ (dev.cmdQueue 0 0).qhead ≠ (dev.cmdQueue 0 0).qtail ∧ (dev.cmdQueue 0 0).busy = false) ∧
    (dev.cmdQueue 0 1).qctl.getLsbD 0 = false ∧ nextHdr dev = none ∧
    ((taking (header 0 0)).nextLaunch 0 0).map (·.held) = some false ∧
    (({ dev with launches := [{ run0 with state := .taken, held := true }] } : State).nextLaunch 0 0).map (·.held) = some true ∧
    nextHdr (taking (header 0 0)) = some (header 0 0) ∧ (taking (header 0 0)).ctx? 0 0 = some ctx0 ∧ (taking (header 0 0)).ctx? 0 1 = none ∧
    (taking (header 0 0)).kernel? (header 0 0).entry = some kernel ∧ LaunchHdr.ok (header 0 0) kernel.nv = true ∧ LaunchHdr.ok (header 0 1) kernel.nv = false ∧
    handlerOk (mem64 dev.mem (ctx0.descAt + 64)) (mem64 dev.mem (ctx0.descAt + 72)) = true ∧ launchFits kernel (header 0 0) = true ∧
    launchFits kernel { header 0 0 with w2 := 0 } = false ∧ (dev.tenant 0).own.clusters ≠ 0 ∧ (dev.tenant 0).own.slices ≠ 0 ∧
    (dev.tenant 0).own.channels ≠ 0 ∧ (dev.tenant 0).own.engines ≠ 0 ∧ kernel.usesCopy = false ∧
    (header 0x0200000000001004 2).outEdge.toNat % 64 ≠ 0 ∧ (header 0x0200000000001000 2).outEdge.toNat % 64 = 0 ∧
    ((taking (header 0x0200000000001000 2)).l2? 0 7 (lineNo 0x0200000000001000)) = some line ∧ line.rd = true ∧ line.w = true ∧
    ((edgeOf (memLine (taking (header 0x0200000000001000 2)).mem 0x4000)).map (·.free) = some 2 ∧ ¬ 2 < (header 0x0200000000001000 2).need ∧
      2 < (header 0x0200000000001000 3).need) ∧ edgeOf (memLine dev.mem 0x4000) = none ∧
    ((runs.launch? 0).map (·.state) = some .running ∧ run0.nextUnit = run0.hdr.blockCount / run0.hdr.gangSize ∧
      ∀ b ∈ ({ runs with blocks := [{ block with place := .retired }] } : State).blocks, b.lid = 0 → b.place = .retired) ∧
    (∀ st ∈ [LaunchState.boundary, LaunchState.ended 0x11], (ending st).jobs = [] ∧ (∀ n ∈ (ending st).cores, n.engine = []) ∧
      (∀ p ∈ (ending st).ports, p.buffer = []) ∧ (ending st).heldPackets = [] ∧
      ((ending st).launches.find? fun y => y.src.fn == 0 && y.src.q == 0).map (·.state) = some st) ∧
    ((taking (header 0 0)).tenant 0).own.slices &&& (taking (header 0 0)).pkg.scrubSlice = 0 ∧ (taking (header 0 0)).mismatch line.addr = false ∧
    run0.shadowMap = 0 := by
  and_intros <;> decide +kernel

/-- Context 0 may use one core's worth, and a unit of its launch is to be placed; the argument block's lines are held. -/
def placing : State :=
  { dev with
    ctxs := [{ ctx0 with caps := [coreCaps 12] }], launches := [{ run0 with hdr := header 0 0, nextUnit := 0 }]
    l2 := (List.range 4).map fun i => { line with line := i, addr := 0x4000 + 64 * i } }

def placed (cores pipes : List Nat) : Option State :=
  placing.placeUnit { run0 with hdr := header 0 0, nextUnit := 0 } kernel { ctx0 with caps := [coreCaps 12] } cores pipes

/-- The block, away. -/
def back : Block := { block with place := .away }

def backCtx : State := { runs with blocks := [back], ctxs := [{ ctx0 with caps := [coreCaps 12] }] }

/-- The block's wave has retired. -/
def finished : Block := { block with waves := [{ wave with retired := true, groups := [] }] }

/-- Context 1 of tenant 0 has work too. -/
def twoCtxs : State :=
  { runs with
    ctxs := [{ ctx0 with spent := true }, { ctx0 with num := 1, turn := false, credit := 2, caps := [coreCaps 12] }],
    launches := [run0, { run0 with lid := 1, ctx := 1, hdr := header 0 0, nextUnit := 0 }], blocks := [] }

/-- A unit on a core of the share and on one outside it; core 0 has room for it. -/
theorem witness_BlocksArePlacedAndMoved :
    (placed [0] [0]).isSome = true ∧ placed [1] [0] = none ∧ (∀ b ∈ placing.blocks, b.lid = 0 → placing.canReturn b = false) ∧ ctx0.turn = true ∧
    ctx0.spent = false ∧ 0 < (header 0 0).blockCount / (header 0 0).gangSize ∧ (header 0 0).gangSize = 1 ∧
    placing.roomAt { ctx0 with caps := [coreCaps 12] } (needOf kernel (header 0 0)) 0 ∧
    PipesFit (header 0 0).waveCount [3] ∧ (∀ p ∈ placing.block? 0 0, False) ∧ ctx0.pool = [] ∧
    (deckBytes 16 1 kernel.demand.segs kernel.demand.banks + 4095) / 4096 * 4096 ≤ ctx0.poolSize := by
  unfold State.roomAt PipesFit
  and_intros
  all_goals first | decide +kernel | exact fun p => Nat.le_trans (List.length_filter_le ..) (by decide)

theorem witness_BlocksArePlacedAndMoved_arguments : ∀ n ∈ argLines (header 0 0).args, placing.readable ctx0 n := by
  intro n h
  obtain rfl | rfl | rfl | rfl : n = 0 ∨ n = 1 ∨ n = 2 ∨ n = 3 := by simpa using (show n ∈ [0, 1, 2, 3] from h)
  all_goals exact ⟨_, by with_unfolding_all rfl, rfl, fun _ => by decide +kernel, fun h => absurd rfl h⟩

/-- A block that has finished and one that has not; two contexts with work: one whose burst goes on and one whose burst ends; a block to leave
at once. -/
theorem witness_BlocksArePlacedAndMoved_ends :
    (∀ w ∈ finished.waves, w.retired = true) ∧ (∀ w ∈ block.waves, ¬ w.retired = true) ∧ finished.place = .resident ∧
    (∃ c, State.cxOf { runs with blocks := [finished] } r0 = some c ∧ c.commitSet .d = [] ∧ c.s.memOk ∧ c.s.plainWrites ∧ c.s.awaitsAck c.ref = false) ∧
    (∃ x ∈ twoCtxs.ctxs, x.tenant = ctx0.tenant ∧ x.num ≠ ctx0.num ∧ twoCtxs.hasWork x = true) ∧ ctx0.burst ≤ 1 ∧ 1 < ({ ctx0 with burst := 3 } : Ctx).burst ∧
    (runs.ofCtx 0 0 block = true ∧ block.place = .resident ∧ (runs.launch? block.lid).map (·.hdr.grace) = some 0 ∧ block.trapPending = false ∧
      block.moveWanted = false) := by
  refine ⟨by decide +kernel, by decide +kernel, by decide +kernel, ⟨_, by with_unfolding_all rfl, by decide +kernel, by unfold State.memOk; decide +kernel,
    by unfold State.plainWrites; decide +kernel, by decide +kernel⟩, by decide +kernel, by decide +kernel, by decide +kernel, by decide +kernel⟩

/-- A unit that leaves and one that awaits acknowledgements; one that may return, or has no core; one to be moved; two waves of a pipe. -/
theorem witness_BlocksArePlacedAndMoved_leaves :
    (let b : Block := { block with stopWanted := true }
     ((withBlock b).unitLeaves [b] true).isSome = true ∧ (withBlock b).quiet b ∧ b.stopWanted = true ∧ b.moveWanted = false ∧ b.trapPending = false ∧
     run0.hdr.hasGang = false) ∧
    (let b : Block := { block with waves := [{ wave with wait := some .acks }] }
     (withBlock b).unitLeaves [b] true = none) ∧
    backCtx.canReturn back = true ∧ (backCtx.unitReturns [back] [0] [0] 4).isSome = true ∧ (backCtx.unitReturns [back] [] [] 4).isSome = false ∧
    backCtx.roomAt { ctx0 with caps := [coreCaps 12] } (backCtx.blockNeed back) 0 ∧
    (let b : Block := { block with moveWanted := true, window := true, stopped := true }
     let s : State := { withBlock b with ctxs := [{ ctx0 with cores := [0, 1], caps := [coreCaps 12, coreCaps 12] }] }
     (∃ x ∈ s.unitOf b, x.moveWanted = true) ∧ s.quiet b ∧ s.roomAt { ctx0 with cores := [0, 1], caps := [coreCaps 12, coreCaps 12] } (s.blockNeed b) 1) := by
  unfold State.roomAt State.quiet; decide +kernel

/-- A wave in the stock beside one in the hand; the turn passes from context 0 to context 1. -/
theorem witness_BlocksArePlacedAndMoved_turns :
    (runs.oldestHand 0 0).isSome = true ∧ ({ wave with stock := true } : Wave).blocked = false ∧ ({ wave with stock := true, wait := some .retry } : Wave).mayTry = true ∧
    (twoCtxs.ctxs.find? (fun c => c.tenant == 0 && c.turn)).map (·.num) = some 0 ∧
    twoCtxs.resident { ctx0 with spent := true } = false ∧ ((twoCtxs.turnOrder 0 (some 0)).find? twoCtxs.hasWork).map (·.num) = some 1 := by decide +kernel


/-- The block's wave has a trap that waits to be told. -/
def trapping (cls cause : Nat) (inHandler : Bool) : Block :=
  { block with
    waves := [{ wave with
      trap := some { trapRec with info := plainTrap cls cause 0 }, wait := some .traps, frame := if inHandler then (handler.wave 0).frame else none }] }

/-- Context 0 has a pool; the wave waits for room there for its handler. -/
def roomy : Block := { block with waves := [{ wave with trap := some trapRec, wait := some .room }] }

/-- One page has been saved at 0x5000; the bitmap stands at 0x2000 and marks frame 0x10. -/
def shadowed : State :=
  { dev with mem := [(0x2002, 1), (0x3001, 0x00), (0x3002, 0x01), (0x3009, 0x50)] }

def shadowing : Launch := { run0 with shadowDir := 0x1000, shadowBitmap := 0x2000, shadowMap := 0x3000, shadowCount := 1 }

/-- A wave that waits for its handler's window; of each class one trap that leads elsewhere; a launch with a snapshot and one without; a page to
restore. -/
theorem witness_TrapsAreServed :
    (roomy.wave 0).wait = some .room ∧ roomy.runs = true ∧ { roomy with halted := true }.runs = false ∧
    ((State.takePool (withBlock roomy) 0 0 (windowSize ctx0.hnv)).map (·.1)) = some 0x100000 ∧
    (trapping 7 0 false).hasFate .swap = true ∧ (trapping 7 0 true).hasFate .swap = false ∧ (trapping 9 0 false).hasFate .halt = true ∧
    ((State.failing (withBlock (trapping 1 9 false)) 0).map (·.2.2.2)) = some 0x11 ∧ ((State.failing (withBlock (trapping 7 8 false)) 0).map (·.2.2.2)) = some 8 ∧
    ((State.failing (withBlock (trapping 1 9 true)) 0).map (·.2.2.2)) = some 7 ∧ (State.failing (withBlock (trapping 0xB 1 true)) 0) = none ∧
    (State.sick (withBlock (trapping 0xB 1 true)) 0).isSome = true ∧ (State.sick (withBlock block) 0) = none ∧ run0.snap = false ∧
    (State.haltBlock (withBlock (trapping 9 0 false)) (trapping 9 0 false)).isSome = true ∧
    (let b : Block := { trapping 9 0 false with waves := [{ (trapping 9 0 false).wave 0 with fences := [{ dst := 1, jobs := [], writes := [4] }] }] }
     State.haltBlock { withBlock b with unsettled := sending.unsettled } b = none) ∧
    shadowed.shadowPages shadowing = [(0x10000, 0x5000)] ∧ shadowed.frameBit 0 0x10000 = some 0x10 ∧ bitmapGet shadowed.mem 0x2000 0x10 = true ∧
    (∀ t ∈ shadowed.tenants, t.track = none) ∧ block.core < runs.cores.length ∧ block.core / 12 < runs.pkg.islands.length := by decide +kernel

/-- Where each completes: an empty pool with room for a window; a lone quiet block with a fault; a wave with a trap that ends the launch and one
that rolls it back; a block at BKPT, resident and quiet, and one already halted. -/
theorem witness_TrapsAreServed_completes :
    ctx0.pool = [] ∧ (windowSize ctx0.hnv + 4095) / 4096 * 4096 ≤ ctx0.poolSize ∧
    (let b := trapping 7 0 false
     b.hasFate .swap = true ∧ b.place = .resident ∧ run0.hdr.hasGang = false ∧ (withBlock b).quiet b ∧ ((withBlock b).ctx? 0 0).isSome = true ∧
     ((withBlock b).kernel? run0.hdr.entry).isSome = true) ∧
    (∀ b ∈ [trapping 1 9 false, trapping 7 8 false, trapping 9 0 true], ((b.wave 0).trap.map fun r => decide (r.info.cls ≠ 0xB)) = some true ∧
      (b.wave 0).wait = some .traps) ∧
    (let r : TrapInfo := plainTrap 0xB 1 0
     ((trapping 0xB 1 false).wave 0).trap = some { trapRec with info := r } ∧ ((trapping 0xB 1 false).wave 0).wait = some .traps) ∧
    (let b := trapping 9 0 false
     b.hasFate .halt = true ∧ b.atBkpt = false ∧ b.halted = false ∧ b.place = .resident ∧ (withBlock b).quiet b ∧ ((withBlock b).launch? 0).isSome = true ∧
     { b with halted := true }.hasFate .halt = true) := by
  unfold State.quiet; decide +kernel

/-- Tables at 0x8000, 0x9000 and 0xA000 lead page 0 to a page of 1 GiB at region 0; the entry of the second GiB is invalid. -/
def ctxPaged : Ctx := { ctx0 with desc := [7, 0x8000] }

def tables : State :=
  { dev with
    ctxs := [ctxPaged], mem := [(0x8000, 1), (0x8001, 0x90), (0x9000, 1), (0x9001, 0xA0), (0xA000, 0x0F)] }

def walkEnd (s : State) (va : Nat) : Option (Trans × Nat) := (s.walk ctxPaged va).toOption

/-- A TLB entry of 4 KiB for page 0. -/
def paged (chan : Nat) : State :=
  { dev with tlb := [{ tenant := 0, asid := 7, chan := chan, base := 0, log := 12, tr := { addr := 0x7000, owner := .loc, rd := true, w := true, x := false } }] }

/-- A line held and one not, whose check fails; a page with a translation, one whose walk ends and one whose walk fails. -/
theorem witness_ArrivalsAndPolls :
    dev.ctx? 0 0 = some ctx0 ∧ dev.l2? 0 7 (lineNo 0x0200000000001000) = none ∧ (dev.regionCheck ctx0 (lineNo 0x0200000000001000) .read).isSome = true ∧
    (taking (header 0 0)).l2? 0 7 (lineNo 0x0200000000001000) = some line ∧ line.owner = .loc ∧ (taking (header 0 0)).poisoned line.addr = false ∧
    (taking (header 0 0)).mismatch line.addr = false ∧ (∀ b ∈ (taking (header 0 0)).blocks, b.core = 0 → b.place = .resident → b.bufferLines = []) ∧
    walkEnd tables 0 = some ({ addr := 0, owner := .loc, rd := true, w := true, x := false }, 30) ∧ walkEnd tables 0x40000000 = none ∧
    (∀ chan, (tables.tlb? 0 7 chan 0) = none) ∧ (∀ chan, ((paged chan).tlb? 0 7 chan 0).isSome = true) := by
  and_intros
  all_goals first | decide +kernel | exact fun _ => rfl | exact fun n => by simp [paged, State.tlb?]

def pollOp : Instr := .waitv p7 false .d .n32 6 (.s 5) (.imm 0x802A)

/-- The wave waits in WAITV. -/
def polled : Block := { block with waves := [{ wave with wait := some (.waitv pollOp 0 0 4 [] none) }] }

/-- The poll finds the value it waits for; another immediate would not be found. -/
theorem witness_ArrivalsAndPolls_poll :
    (stand base polled).cxAt { ref := r0, grp := 0, inst := 0 } = some (standCx base polled) ∧
    (standCx base polled).wv.wait = some (.waitv pollOp 0 0 4 [] none) ∧ polled.runs = true ∧
    (standCx base polled).polling.firstTrap p7 (waitvInfo .n32 .d 6 (.s 5) (.imm 0x802A)) = none ∧ (standCx base polled).polling.guardMask p7 ≠ 0 ∧
    (standCx base polled).polling.fenced 0 = false ∧ (standCx base polled).polling.sound ∧ (standCx base polled).polling.elemFrom .d 0x0200000000001000 4 = 0x802A ∧
    ((ITy.n32.imm 0x802A).toNat % 2 ^ 32 = 0x802A) ∧ ((ITy.n32.imm 0x802B).toNat % 2 ^ 32 ≠ 0x802A) := by
  refine ⟨by with_unfolding_all rfl, by decide +kernel, by decide +kernel, by decide +kernel, by decide +kernel, by decide +kernel,
    by unfold Cx.sound; decide +kernel, by decide +kernel, by decide +kernel, by decide +kernel⟩

/-- The wave waits for a line of a peer; page 0 lies at peer 9, to which no port leads, or at the device. -/
def forwarded : Block := { block with waves := [{ wave with wait := some (.forward 0 false) }] }

def far : State := { tables with mem := [(0x8000, 1), (0x8001, 0x90), (0x9000, 1), (0x9001, 0xA0), (0xA000, 0x8F), (0xA007, 9)] }

theorem witness_ArrivalsAndPolls_forward :
    (forwarded.wave 0).wait = some (.forward 0 false) ∧ (Wait.forward 0 false).asks = some (0, false) ∧ (Wait.link 0).asks.isSome = true ∧
    (Wait.waitv pollOp 0 0 4 [] (some 0)).asks.isSome = true ∧ far.reachable ctxPaged 0 = false ∧ tables.reachable ctxPaged 0 = true ∧
    (runs.core block.core).regCache = [] ∧ [0, 1].length ≤ 16 := by decide +kernel

/-- A copy of 8 bytes within the line, a tile load whose 32 rows are staged, a tile store at its end. -/
def lineJob : Job :=
  { id := 9, wave := none, cmd := some src, ctx := 4096, tenant := 0, pc := 0, core := 0, pipe := 0, tag := 0,
    kind := .linear .d 0x0200000000001000 0x0200000000001008 8 false false 0 0, row := 0, stage := [], after := [], stop := none, told := false }

def loadJob : Job := { lineJob with wave := some r0, cmd := none, kind := .tileLoad 0 false 0 e4m3 5 [0], row := 32 }

def withJobs (js : List Job) : State := { base with jobs := js }

theorem spot : (withJobs [lineJob]).l2? 0 7 (lineNo 0x0200000000001000) = some line := by with_unfolding_all rfl

theorem witness_EnginesDoTheirWork_copies :
    ((withJobs [lineJob]).job? 9) = some lineJob ∧ ((withJobs [lineJob]).ctx? 0 4096) = some ctx ∧ lineJob.row < spanLines 0x0200000000001000 8 ∧
    (withJobs [lineJob]).memOk ∧ (withJobs [lineJob]).plainWrites ∧ (withJobs [lineJob]).unsettled = [] ∧ lineJob.asked = none ∧ lineJob.srcLines = [] ∧
    (withJobs [lineJob]).mismatch line.addr = false ∧
    line.w = true ∧ line.rd = true ∧ line.owner = .loc ∧
    (∀ i, i < 8 → lineNo (ptrAdd 0x0200000000001008 (i : Nat)) = lineNo 0x0200000000001000) ∧ (withJobs [lineJob]).poisoned line.addr = false ∧
    ((withJobs [loadJob]).job? 9) = some loadJob ∧ (loadJob.wave.bind (withJobs [loadJob]).cxOf).map (fun x => x.blk.place) = some .resident ∧
    32 + scaleRows e4m3 ≤ loadJob.row ∧ loadJob.row < 32 + scaleRows e4m3 + tileSegs e4m3 ∧ (∀ n ∈ [9], (withJobs [lineJob, { loadJob with after := [9] }]).underway n = true) ∧
    loadJob.total = 38 ∧ (withJobs [{ loadJob with row := 38 }]).outstanding 9 = false ∧ loadJob.kind.isDrain = false := by
  unfold State.memOk State.plainWrites
  and_intros <;> decide +kernel

/-- An operation at the head of core 0's queue, with words of the banks in error. -/
def headed (op : Instr) (e : TEntry) (bad badSc : List Nat) : State :=
  base.setCore 0 { base.core 0 with
    engine := [engineOp op [0] 0 e], segs := List.replicate 32 { data := 0, tag := 8 }, badAcc := bad, badScratch := badSc,
    banks := [{ alloc := true, owner := 0, words := [0x7FC00000, 0x3F800000] }] }

def mmaOp : Instr := .mma p7 true mat
def pmmaOp : Instr := .pmma p7 0 false phasors
def drainOp : Instr := .drain p7 (.mem .d 4) true .rn false none 5 0 0 0

/-- An MMA and a PMMA with sound operands and banks, with a scratch word in error, with an accumulator word in error in its banks and beyond
them; a drain. -/
theorem witness_EnginesDoTheirWork :
    (∀ op ∈ [mmaOp, pmmaOp, drainOp], (((headed op (ctx.entry 9) [] []).core 0).engine.map (·.op)) = [op] ∧
      ((headed op (ctx.entry 9) [] []).cxOf r0).map (fun c => c.bankAt 0) = some 0) ∧ r0.wave < block.waves.length ∧
    ((headed mmaOp (ctx.entry 9) [] []).readOperands 0 (engineOp mmaOp [0] 0 (ctx.entry 9)) 0 32).2.2.2 = false ∧
    ((headed mmaOp (ctx.entry 9) [] [0]).readOperands 0 (engineOp mmaOp [0] 0 (ctx.entry 9)) 0 32).2.2.2 = true ∧
    ((headed pmmaOp (ctx.entry 6) [] []).readOperands 0 (engineOp pmmaOp [0] 0 (ctx.entry 6)) 0 8).2.2.2 = false ∧
    (∃ w ∈ ((headed mmaOp (ctx.entry 9) [1023] []).core 0).badAcc, 0 ≤ w / 512 ∧ w / 512 < 0 + 2) ∧
    (¬ ∃ w ∈ ((headed mmaOp (ctx.entry 9) [1024] []).core 0).badAcc, 0 ≤ w / 512 ∧ w / 512 < 0 + 2) ∧
    (((headed mmaOp (ctx.entry 9) [] []).core 0).bank 0).alloc = true ∧ (((headed mmaOp (ctx.entry 9) [] []).core 0).bank 1).alloc = false ∧
    entWidth (ctx.entry 7) = 32 := by
  and_intros <;> decide +kernel

/-! ### The host -/

/-- Queue 0 holds 64 entries; the host has written 3 of them and 1 has been taken. -/
def filling : State :=
  { dev with tenants := { tenant0 with queues := { onQueue with qhead := 1, qtail := 3 } :: List.replicate 63 CmdQueue.reset } :: List.replicate 15 Tenant.reset }

def heldAt (s : State) (p : DWord) : Nat := (p.toNat + (s.cmdQueue 0 0).size - (s.cmdQueue 0 0).qhead.toNat % (s.cmdQueue 0 0).size) % (s.cmdQueue 0 0).size

/-- A tenant with no unit, one with a unit; a tail behind, one at the end of the ring, one further on; a window's last byte and one further. -/
theorem witness_HostAccessResults :
    HasQueue 0 63 ∧ ¬ HasQueue 0 64 ∧ HasQueue 16 0 ∧ ¬ HasQueue 16 1 ∧ filling.holdsQueue 0 0 ∧ filling.holdsQueue 16 0 ∧ (filling.tenant 0).resetting = false ∧
    0 < (filling.cmdQueue 0 0).size ∧ heldAt filling 2 < heldAt filling (filling.cmdQueue 0 0).qtail ∧ ¬ heldAt filling 0 < heldAt filling (filling.cmdQueue 0 0).qtail ∧
    (filling.cmdQueue 0 0).qctl.getLsbD 0 = true ∧ (filling.cmdQueue 0 1).qctl.getLsbD 0 = false ∧ filling.ctx? 0 0 = some ctx0 ∧
    0 < dev.tenants.length ∧ (dev.tenant 0).own.clusters ≠ 0 ∧ (dev.tenant 1).own.clusters = 0 ∧ (∀ l ∈ dev.launches, l.src.fn ≠ 0) ∧ dev.memOk ∧
    (runs.launches.filter (fun l => l.src.fn == 0)).map (·.lid) = [0] ∧ (runs.launch? 0).isSome = true ∧
    (List.replicate 24 ({ banks := 800, spare := 5, failed := 3 } : ColumnMeasure)).length = 24 ∧ (dev.tenant 0).regions[1073741820 / 1073741824]? = some 0 ∧
    1073741820 % 1073741824 + 4 ≤ 1073741824 ∧ ¬ 1073741820 % 1073741824 + 5 ≤ 1073741824 ∧ (dev.tenant 0).regions.length ≤ 1073741824 / 1073741824 ∧
    (∀ l ∈ dev.l2, l.phys = false ∧ l.owner ≠ .loc) ∧ dev.checks = [] ∧ dev.l2.length + 19 < 20 ∧ (∀ l ∈ dev.launches, l.snap = true → l.state ≠ .running) ∧
    dev.pkg.regionsInService < 4294967296 := by
  refine ⟨by unfold HasQueue; decide, by unfold HasQueue; decide, by unfold HasQueue; decide, by unfold HasQueue; decide, by unfold State.holdsQueue; decide +kernel,
    by unfold State.holdsQueue; decide +kernel, ?_⟩
  unfold State.memOk; decide +kernel

/-! ### Links -/

def sentOne : SentPacket := { packet := sealPacket (askPacket 2 0x40 []), job := none, lid := none, va := none }

def link (state : BitVec 4) (lanes : BitVec 16) (buffer : List SentPacket) : Port :=
  { Port.reset with far := 9, state := state, lanes := lanes, ackDue := true, buffer := buffer }

def linked (state : BitVec 4) (lanes : BitVec 16) (buffer : List SentPacket) : State :=
  { dev with ports := link state lanes buffer :: List.replicate 7 Port.reset, heldPackets := [{ tenant := 0, peer := 9, sent := sentOne }] }

def goodPacket (p : Packet) : Bool :=
  p.hcv == crc32c (packetHead p) && decide (p.lines.length ≤ 32) && p.nfl.toNat == (p.lines.length + 3) / 4 &&
    (List.range p.lines.length).all fun i => p.lcv.getD i 0 == crc32c (lineBytes (p.lines.getD i 0))

def writing : Packet := sealPacket (writePacket 0x40 [7, 8] 0 0)

theorem good_sealed (p : Packet) (h : p.lines.length ≤ 32) (hl : ∀ i, i < p.lines.length → p.lcv.getD i 0 = crc32c (lineBytes (p.lines.getD i 0))) :
    goodPacket (sealPacket p) = true := by
  have e : (sealPacket p).hcv = crc32c (packetHead (sealPacket p)) := rfl
  have n : (sealPacket p).nfl.toNat = ((sealPacket p).lines.length + 3) / 4 := by
    show (BitVec.ofNat 4 ((p.lines.length + 3) / 4)).toNat = (p.lines.length + 3) / 4
    simp only [BitVec.toNat_ofNat]; omega
  unfold goodPacket
  rw [n, ← e]
  simp only [BEq.rfl, Bool.true_and, Bool.and_true, Bool.and_eq_true, decide_eq_true_eq, List.all_eq_true, List.mem_range, beq_iff_eq]
  exact ⟨h, hl⟩

/-- Packets of each type in turn, out of turn and damaged. -/
theorem witness_LinkResults_packets :
    (∀ t : Nat, goodPacket (sealPacket (askPacket t 0x40 [])) = true ∧ (sealPacket (askPacket t 0x40 [])).type = BitVec.ofNat 8 t ∧
      (sealPacket (askPacket t 0x40 [])).seq = 0) ∧ (link 4 0xFFFF []).expected = 0 ∧
    goodPacket writing = true ∧ goodPacket { writing with lcv := [] } = false ∧ { writing with seq := 1 }.seq ≠ 0 ∧ writing.lines.length = 2 ∧ writing.type = 1 := by
  refine ⟨fun t => ⟨good_sealed _ (Nat.zero_le 32) (fun i h => absurd h (Nat.not_lt_zero i)), rfl, rfl⟩, rfl,
    good_sealed _ (by decide) (by decide +kernel), ?_, by decide, rfl, rfl⟩
  have : ((List.range 2).all fun i => ([] : List (BitVec 32)).getD i 0 == crc32c (lineBytes (writing.lines.getD i 0))) = false := by decide +kernel
  exact Bool.and_eq_false_iff.2 (.inr this)

/-- Links that are up, train and are down; lanes of 16, 8 and 4; a packet held for a port with room and for one without. -/
theorem witness_LinkResults :
    (∀ st lanes b, (linked st lanes b).port 0 = link st lanes b ∧ ((linked st lanes b).port 1).state = 0 ∧ 0 < (linked st lanes b).ports.length) ∧
    (link 4 0xFFFF [sentOne]).buffer ≠ [] ∧ (link 4 0xFFFF []).ackDue = true ∧ 0x40 % 1073741824 + 64 * 2 ≤ 1073741824 ∧ (linked 4 0xFFFF []).memOk ∧
    (linked 4 0xFFFF []).portOwner 0 = some 0 ∧ 0x40 / 1073741824 ∈ ((linked 4 0xFFFF []).tenant 0).regions ∧
    (bitsOf (0xFFFF : BitVec 16)).length = 16 ∧ (bitsOf (0xFF : BitVec 16)).length = 8 ∧ (bitsOf (0xF : BitVec 16)).length = 4 ∧
    portStateOf 0 = 0 ∧ portStateOf 0xFF ≠ 0 ∧ (linked 4 0xFFFF []).portTo 0 9 = some 0 ∧ (linked 4 0xFFFF []).portTo 0 8 = none ∧
    (linked 4 0xFFFF []).portFor 0 9 (some 1) = some 0 ∧ (linked 4 0xFFFF []).portFor 0 9 (some 0) = some 0 ∧
    ((linked 4 0xFFFF []).port 0).buffer.length < 1024 ∧ (∀ h ∈ (linked 4 0xFFFF []).heldPackets, h.port ≠ some 0) ∧
    (∀ t ∈ (linked 4 0xFFFF []).tenants, t.track = none) ∧ (linked 4 0xFFFF []).unsettled = [] ∧ (∀ l ∈ (linked 4 0xFFFF []).l2, l.owner ≠ .loc) ∧
    (link 4 0xFFFF []).buffer.length < 1024 ∧ 1024 ≤ (link 4 0xFFFF (List.replicate 1024 sentOne)).buffer.length := by
  refine ⟨fun _ _ _ => ⟨rfl, rfl, by show 0 < 8; decide⟩, List.cons_ne_nil _ _, rfl, ?_⟩
  unfold State.memOk
  and_intros <;> decide +kernel

/-! ### The package -/

/-- Tenant 1 owns channel 1 of column 0, region 0 is on column 0 with a spare bank, or with none. -/
def mended (spare : Nat) (cursor : Option Nat) : State :=
  { dev with
    tenants := tenant0 :: { Tenant.reset with own := { Resources.none with channels := 2 } } :: List.replicate 14 Tenant.reset
    pkg := { Package.reset with
      scrubCluster := 1, scrubSlice := 2, columns := { Column.reset with spare := spare } :: List.replicate 23 Column.reset
      regions := [{ num := 0, inService := true, channels := 1, gen := 0, cursor := cursor, excluded := if cursor.isSome then some 0 else none }]
      islands := { Island.reset with throttled := true } :: List.replicate 23 Island.reset } }

/-- A unit to scrub and one not; slices free to change and held; a region that can move, has no spare, and moves its first and last unit; a hot
bank of another tenant's and of the same. Which banks a region uses is the device's hash (spec/01 R14), of which nothing is known here. -/
theorem witness_PackageEventResults :
    dev.memOk ∧ 0 < dev.tenants.length ∧ (mended 0 none).pkg.scrubCluster.getLsbD 0 = true ∧ (mended 0 none).pkg.scrubCluster.getLsbD 1 = false ∧
    (mended 0 none).blocks = [] ∧ (∃ b ∈ runs.blocks, b.place = .resident ∧ b.core / 12 = 0) ∧ (mended 0 none).pkg.scrubSlice.getLsbD 1 = true ∧
    (mended 0 none).pkg.scrubSlice.getLsbD 0 = false ∧ (∀ n, n < 16 → n ≠ 0 → (dev.tenant n).own.slices &&& (5 : BitVec 96) = 0) ∧
    (5 : BitVec 96) &&& dev.pkg.scrubSlice = 0 ∧ (2 : BitVec 96) &&& (mended 0 none).pkg.scrubSlice ≠ 0 ∧
    ((mended 1 none).pkg.regions.find? fun x => x.num == 0).map (fun r => (r.inService, r.cursor, r.excluded, r.channels)) = some (true, none, none, 1) ∧
    ((mended 1 none).pkg.regions.find? fun x => x.num == 1) = none ∧ 0 < ((mended 1 none).column 0).spare ∧ ¬ 0 < ((mended 0 none).column 0).spare ∧
    (∀ a ∈ [0, 1073737728], ((mended 1 (some a)).pkg.regions.find? fun x => x.num == 0).map (fun r => (r.cursor, r.excluded)) = some (some a, some 0)) ∧
    0 + 4096 < 1073741824 ∧ ¬ 1073737728 + 4096 < 1073741824 ∧ (mended 1 none).pkg.columns.length = 24 ∧ (0, 0) ∉ ((mended 1 none).column 0).hot ∧ (∀ x ∈ dev.deckLines, x.cluster = 0 → x.dirty = false) ∧
    (∀ x ∈ (mended 1 none).pkg.regions, x.cursor = none) ∧
    (((mended 1 none).tenants.findIdx? fun t => t.own.channels.getLsbD 1) = some 1 ∧ ((mended 1 none).tenants.findIdx? fun t => t.own.clusters.getLsbD 0) = some 0) ∧
    ((mended 1 none).tenants.findIdx? fun t => t.own.channels.getLsbD 0) = some 0 ∧ ((mended 1 none).island 0).throttled = true ∧
    ((mended 1 none).island 1).throttled = false := by
  unfold State.memOk
  and_intros <;> decide +kernel

end Sys2Proof.Tests
end

section
/-!
SUPPORT. The state after package reset (spec/00 R6, spec/01 R12, spec/21 R351): when a step leaves a state as it is, what the device could
do of itself after reset, and why none of it makes progress.
-/

namespace Sys2Proof.Machine

/-! ### A device that has nothing to do -/

theorem State.differs_self (s : State) : s.differs s = false := bne_self_eq_false s

theorem State.noteReady_of_blocks_nil (old : State) {new : State} (h : new.blocks = []) : old.noteReady new = new := by
  simp [State.noteReady, h]

theorem State.progress_of_perform_self {s : State} {m : Move} (hb : s.blocks = []) (h : s.perform m = .next s) :
    s.progress m = false := by
  have hact : s.act m = .next s := by rw [State.act, h]; exact congrArg _ (s.noteReady_of_blocks_nil hb)
  rw [State.progress, hact]
  exact s.differs_self

theorem step_of_progress_false {s : State} (ha : s.agenda = []) (hm : ∀ m ∈ s.moves, s.progress m = false) :
    step s = .next s := by
  have hn : s.nextMove = none := List.find?_eq_none.2 fun m h => by simp [hm m h]
  rw [step, ha]
  dsimp only
  rw [hn]

theorem mem_rotate {α : Type} {n : Nat} {l : List α} {x : α} : x ∈ rotate n l ↔ x ∈ l := by
  rw [rotate, List.mem_append, or_comm, ← List.mem_append, List.take_append_drop]

/-- The seven sources of the moves, whichever end the list starts from. -/
theorem State.mem_moves {s : State} {m : Move} : m ∈ s.moves ↔
    m ∈ s.trapMoves ∨ m ∈ s.engineMoves ∨ m ∈ s.launchMoves ∨ m ∈ s.queueMoves ∨
      (∃ r ∈ s.ready, .issue r.ref r.grp = m) ∨ m ∈ s.packageMoves ∨ m ∈ s.timeMoves := by
  rw [State.moves]
  split <;> simp only [List.mem_append, List.mem_map, mem_rotate, or_assoc, or_comm (a := m ∈ s.timeMoves)]

/-! ### Links that are down -/

theorem execRetrainComplete_of_down {s : State} {n : Nat} (ack : BitVec 12) (h : (s.port n).state = 0) :
    execRetrainComplete n ack s = .next s := by
  simp [execRetrainComplete, h]

theorem execPleipAckTimer_of_down {s : State} {n : Nat} (h : (s.port n).state = 0) : execPleipAckTimer n s = .next s := by
  simp [execPleipAckTimer, Port.up, h]

/-! ### Command queues that are not enabled -/

theorem CmdQueue.mayTake_of_disabled {q : CmdQueue} (h : q.enabled = false) : q.mayTake = false := by
  simp [CmdQueue.mayTake, h]

theorem State.mayTakeLaunch_of_disabled {s : State} {fn q : Nat} (h : (s.cmdQueue fn q).enabled = false) :
    s.mayTakeLaunch fn q = false := by
  have hidle : { s.cmdQueue fn q with busy := false }.mayTake = false := CmdQueue.mayTake_of_disabled h
  simp [State.mayTakeLaunch, CmdQueue.mayTake_of_disabled h, hidle]

/-! ### What the reset state holds -/

theorem getD_replicate_self {α : Type} (k n : Nat) (x : α) : (List.replicate k x).getD n x = x := by
  rw [List.getD_eq_getElem?_getD, List.getElem?_replicate]
  split <;> rfl

theorem reset_port (n : Nat) : State.reset.port n = Port.reset := getD_replicate_self 8 n Port.reset

theorem reset_tenant (t : Nat) : State.reset.tenant t = Tenant.reset := getD_replicate_self 16 t Tenant.reset

theorem reset_cmdQueue (fn q : Nat) : State.reset.cmdQueue fn q = CmdQueue.reset := by
  rw [State.cmdQueue, reset_tenant]
  split
  · rfl
  · exact getD_replicate_self 64 q CmdQueue.reset

theorem reset_mayTakeLaunch (fn q : Nat) : State.reset.mayTakeLaunch fn q = false :=
  State.mayTakeLaunch_of_disabled (by rw [reset_cmdQueue]; decide)

theorem reset_core_of_mem {k : Core} (h : k ∈ State.reset.cores) : k = Core.reset := List.eq_of_mem_replicate h

theorem reset_region_of_mem {r : Region} (h : r ∈ State.reset.pkg.regions) : r.cursor = none ∧ r.excluded = none := by
  obtain ⟨n, -, rfl⟩ := List.mem_map.1 h
  exact ⟨rfl, rfl⟩

theorem reset_shapeOk : State.reset.shapeOk :=
  ⟨List.length_replicate, List.length_replicate, List.length_replicate, List.length_replicate, List.length_replicate⟩

/-! ### What the device could do after reset -/

theorem reset_trapMoves : State.reset.trapMoves = [] := rfl

theorem reset_launchMoves : State.reset.launchMoves = [] := rfl

theorem reset_ready : State.reset.ready = [] := rfl

/-- Every matrix engine's queue is empty, and there are no copies. -/
theorem reset_engineMoves : State.reset.engineMoves = [] := by
  refine List.append_eq_nil_iff.2 ⟨List.filterMap_eq_nil_iff.2 fun k hk => ?_, rfl⟩
  rw [reset_core_of_mem (List.fst_mem_of_mem_zipIdx hk)]
  rfl

/-- No command queue is enabled. -/
theorem reset_queueMoves : State.reset.queueMoves = [] :=
  List.filterMap_eq_nil_iff.2 fun x _ => by simp [reset_mayTakeLaunch]

/-- Nothing waits for a scrub, and no region re-stripes. -/
theorem reset_packageMoves : State.reset.packageMoves = [] := by
  have hcursor : State.reset.pkg.regions.filter (·.cursor.isSome) = [] :=
    List.filter_eq_nil_iff.2 fun r hr => by simp [(reset_region_of_mem hr).1]
  have hexcluded (c : Nat) : (State.reset.pkg.regions.any fun r => r.excluded == some c && r.cursor.isNone) = false :=
    List.any_eq_false.2 fun r hr => by simp [(reset_region_of_mem hr).2]
  have hcluster : bitsOf State.reset.pkg.scrubCluster = [] := by decide
  have hslice : bitsOf State.reset.pkg.scrubSlice = [] := by decide
  simp [State.packageMoves, hcursor, hexcluded, hcluster, hslice]

/-- All that time brings about is the timers of the links. -/
theorem reset_timeMoves : State.reset.timeMoves = (List.range 8).flatMap fun n =>
    [ev (.retrainComplete n (Config.freeBits 12 State.reset.fresh)), ev (.pleipAckTimer n)] := rfl

theorem link_timer_of_mem_reset_moves {m : Move} (h : m ∈ State.reset.moves) :
    ∃ n, (∃ ack, m = ev (.retrainComplete n ack)) ∨ m = ev (.pleipAckTimer n) := by
  rw [State.mem_moves, reset_trapMoves, reset_engineMoves, reset_launchMoves, reset_queueMoves, reset_ready, reset_packageMoves,
    reset_timeMoves] at h
  simp only [List.not_mem_nil, false_and, exists_false, false_or, List.mem_flatMap, List.mem_cons, or_false] at h
  obtain ⟨n, -, h | h⟩ := h
  · exact ⟨n, .inl ⟨_, h⟩⟩
  · exact ⟨n, .inr h⟩

theorem reset_perform {m : Move} (h : m ∈ State.reset.moves) : State.reset.perform m = .next State.reset := by
  have hdown (n : Nat) : (State.reset.port n).state = 0 := by rw [reset_port]; rfl
  obtain ⟨n, ⟨ack, rfl⟩ | rfl⟩ := link_timer_of_mem_reset_moves h
  · exact execRetrainComplete_of_down ack (hdown n)
  · exact execPleipAckTimer_of_down (hdown n)

/-- The device stays in the reset state until the host does something. -/
theorem step_reset : step State.reset = .next State.reset :=
  step_of_progress_false rfl fun _ hm => State.progress_of_perform_self rfl (reset_perform hm)

/-- Settles O43: cores, ports and columns are copies of one, so what is said of each is said of that one; and no move makes progress, because
the links' timers, the only moves there are, change nothing on a link that is down. -/
theorem resetLeavesTheSpecState : Obligations.ResetLeavesTheSpecState := by
  have hcores : ∀ k ∈ State.reset.cores, k.cycle = 0 ∧ k.engine = [] ∧ k.l1 = [] ∧ k.icache = [] ∧ k.regCache = [] := by
    intro k hk
    rw [reset_core_of_mem hk]
    exact ⟨rfl, rfl, rfl, rfl, rfl⟩
  have hports : ∀ p ∈ State.reset.ports, p.far = 0xFF ∧ p.lanes = 0 ∧ p.state = 0 ∧ p.replays = 0 ∧ p.retrains = 0 := by
    intro p hp
    obtain rfl : p = Port.reset := List.eq_of_mem_replicate hp
    exact ⟨rfl, rfl, rfl, rfl, rfl⟩
  have hcolumns : ∀ c ∈ State.reset.pkg.columns, c.banks = 864 ∧ c.spare = 0 ∧ c.failed = 0 ∧ c.mainMib = 12800 := by
    intro c hc
    obtain rfl : c = Column.reset := List.eq_of_mem_replicate hc
    exact ⟨rfl, rfl, rfl, rfl⟩
  exact ⟨reset_memOk, reset_shapeOk, rfl, rfl, rfl, rfl, rfl, rfl, rfl, rfl, rfl, rfl, rfl, rfl, rfl, rfl, hcores, hports, hcolumns, rfl,
    step_reset⟩

end Sys2Proof.Machine
end

section
/-!
SUPPORT. Special registers (spec/04 R95, R96; spec/15 R282 to R284): what a ready SRR or SRW names, what the reading of sr.cycle changes,
and how the two instructions end.
-/

namespace Sys2Proof.Machine

/-! ### Cores -/

theorem State.core_setCore_self {s : State} {n : Nat} (k : Core) (h : n < s.cores.length) : (s.setCore n k).core n = k := by
  simp [State.core, h]

theorem State.core_setCore_of_ne {s : State} {m n : Nat} (k : Core) (h : m ≠ n) : (s.setCore n k).core m = s.core m := by
  simp [State.core, List.getElem?_set_ne h.symm]

/-! ### What a ready instruction has passed -/

theorem CanIssue.decodeTrap_eq_none {s : State} {c : Cx} {h : Hdr} {i : Info} (r : CanIssue s c h i) : c.decodeTrap i = none := by
  have hp := r.pass
  unfold Cx.firstTrap at hp
  dsimp only at hp
  split at hp
  · cases hp
  · assumption

theorem CanIssue.badReg_eq_false {s : State} {c : Cx} {h : Hdr} {i : Info} (r : CanIssue s c h i) : i.badReg = false := by
  cases hb : i.badReg with
  | false => rfl
  | true =>
    have hd := r.decodeTrap_eq_none
    rw [Cx.decodeTrap, hb, Bool.true_or, if_pos rfl] at hd
    cases hd

theorem CanIssue.badSr_eq_false {s : State} {c : Cx} {h : Hdr} {i : Info} (r : CanIssue s c h i) : i.badSr = false := by
  cases hb : i.badSr with
  | false => rfl
  | true =>
    have hd := r.decodeTrap_eq_none
    rw [Cx.decodeTrap, hb, if_pos rfl] at hd
    split at hd <;> cases hd

/-! ### A wave's own fields -/

@[simp] theorem Chosen.setWv_wv {s : State} {c : Cx} (hc : Chosen s c) (w : Wave) : (c.setWv w).wv = w :=
  Block.wave_setWave_same hc.wave

/-- Effects on the wave that leave its registers, its threads' places and its results on their way. -/
theorem Kept.setWv {s : State} {c : Cx} (hc : Chosen s c) {w : Wave} (hregs : w.regs = c.wv.regs) (hgroups : w.groups = c.wv.groups)
    (hheld : w.held = c.wv.held) (hmr : w.mr = c.wv.mr) (hpend : w.pend = c.wv.pend) : Kept c (c.setWv w) where
  sel := rfl
  block := by rw [show (c.setWv w).s = s from hc.state, hc.block]; rfl
  lid := hc.lid
  rank := hc.rank
  waves := by rw [setWave_blk, Block.setWave_length]; exact hc.wave
  regs := by rw [hc.setWv_wv]; exact hregs
  groups := by rw [hc.setWv_wv]; exact hgroups
  held := by rw [hc.setWv_wv]; exact hheld
  mr := by rw [hc.setWv_wv]; exact hmr
  pend := by rw [hc.setWv_wv]; exact hpend

/-- A ready instruction that puts registers `w` in place, whatever `w` is, and goes on at the next instruction. -/
theorem issue_done {s : State} {c : Cx} {h : Hdr} {i : Info} {k : Instr} (r : CanIssue s c h i) {body : Cx → Mask → Res}
    {w : RegCtx → RegCtx} (hx : exec k s = issue h i body s) (hb : body c (c.guardMask h) = .done c w) :
    ∃ u, exec k s = .next u ∧ RegsOnly s u c.ref ∧ u.regs c.ref = w (c.wv.regs.killAll (i.kills h) (c.guardMask h)) ∧
      PcAre c u fun _ => ptrAdd c.g.pc i.len := by
  obtain ⟨honly, hwave, -, -, hregs⟩ := finish_done r w none
  refine ⟨_, by rw [hx, issue_ready r, hb], honly, hregs, ?_⟩
  unfold PcAre
  rw [hwave]
  exact ended_stands (chosen r.chosen).grp fun l _ hx => ⟨_, List.mem_singleton.mpr rfl, hx, rfl⟩

/-! ### The numbers of R95 -/

/-- The numbers that R95 lists. -/
def srNumbers : List (BitVec 8) :=
  [0x00, 0x01, 0x02, 0x03, 0x04, 0x05, 0x06, 0x07, 0x08, 0x10, 0x11, 0x12, 0x13, 0x14, 0x15, 0x16]

theorem srWidth_isSome_iff (sr : BitVec 8) : (srWidth sr).isSome ↔ sr ∈ srNumbers := by
  revert sr; decide

theorem srWidth_eq_mask_iff (sr : BitVec 8) : (srWidth sr).getD .w32 = .mask ↔ sr = 0x16 := by
  revert sr; decide

theorem CanIssue.mem_srNumbers {s : State} {c : Cx} {h : Hdr} {d : VS} {sr : BitVec 8} (r : CanIssue s c h (srrInfo d sr)) :
    sr ∈ srNumbers :=
  (srWidth_isSome_iff sr).1 (Option.isNone_eq_false_iff.1 r.badSr_eq_false)

/-- The two scalars of sr.trapmask end at s255 (R283). -/
theorem CanIssue.mask_scalar_lt {s : State} {c : Cx} {h : Hdr} {n sr : BitVec 8} (r : CanIssue s c h (srrInfo (.s n) sr))
    (hm : sr = 0x16) : n.toNat + 1 < 256 := by
  have hbad : ((srWidth sr).getD .w32 == .mask && n == 255) = false := r.badReg_eq_false
  rw [(srWidth_eq_mask_iff sr).2 hm] at hbad
  have hne : n ≠ 255 := by simpa using hbad
  have hlt : n.toNat ≠ 255 := fun e => hne (BitVec.eq_of_toNat_eq e)
  omega

/-! ### The values read -/

/-- The trap registers that hold one word: zero outside a handler. -/
theorem Cx.trapReg_eq_elim (c : Cx) {n : Nat} (h : n ∈ [0x10, 0x11, 0x12, 0x13, 0x14, 0x15]) :
    c.trapReg n = c.wv.frame.elim 0 fun f =>
      if n = 0x10 then f.trap.info.trapc else if n = 0x11 then f.trap.pc else instPiece f.trap.inst (n - 0x12) := by
  unfold Cx.trapReg
  cases c.wv.frame with
  | none => rfl
  | some f =>
    simp only [List.mem_cons, List.not_mem_nil, or_false] at h
    obtain rfl | rfl | rfl | rfl | rfl | rfl := h <;> rfl

/-! ### Time that passes -/

theorem Cx.passTime_eq (c : Cx) : c.passTime = { c with s := c.passTime.s } := rfl

theorem Cx.passTime_state {s : State} {c : Cx} (hc : Chosen s c) :
    c.passTime.s = { s with fresh := s.fresh + 1, cores := c.passTime.s.cores } := by
  rw [← hc.state]; rfl

theorem Cx.passTime_core_self {s : State} {c : Cx} (hc : Chosen s c) (h : c.core < s.cores.length) :
    c.passTime.s.core c.core =
      { s.core c.core with cycle := (s.core c.core).cycle + BitVec.ofNat 64 (Config.freeNat s.fresh) } := by
  rw [← hc.state] at h ⊢
  exact State.core_setCore_self (s := { c.s with fresh := c.s.fresh + 1 }) _ h

theorem Cx.passTime_core_of_ne {s : State} {c : Cx} (hc : Chosen s c) {n : Nat} (h : n ≠ c.core) :
    c.passTime.s.core n = s.core n := by
  rw [← hc.state]
  exact State.core_setCore_of_ne (s := { c.s with fresh := c.s.fresh + 1 }) _ h

theorem Kept.passTime {s : State} {c : Cx} (hc : Chosen s c) : Kept c c.passTime :=
  Kept.ofState hc (v := c.passTime.s) (by rw [Cx.passTime_state hc])

/-! ### SRR -/

/-- Two scalars of a pair, written one after the other. -/
theorem RegCtx.setScalar_setScalar_holds (r : RegCtx) (ns : List Nat) (act : Mask) {n : Nat} (h : n + 1 < 256) (x y : DWord) :
    RegEffect.Holds { scalar := fun m => if m = n + 1 then some y else if m = n then some x else none } r
      (((r.killAll ns act).setScalar n x).setScalar (n + 1) y) ns act := by
  refine ⟨by simp, by simp, fun m l hl => ?_, fun m => ?_, fun m => by simp⟩
  · rw [setScalar_lane, setScalar_lane, killAll_lane _ _ _ _ _ hl]
    by_cases hact : act.getLsbD l = true <;> simp [hact]
  · rw [setScalar_scalar _ _ _ _ h, setScalar_scalar _ _ _ _ (by omega), killAll_scalar]
    by_cases hhigh : m = n + 1
    · simp [hhigh]
    · by_cases hlow : m = n <;> simp [hhigh, hlow]

/-- What SRR writes, given the value of each lane (R283). -/
def srrEffect (d : VS) (sr : BitVec 8) (c : Cx) (act : Mask) (v : Nat → DWord) : RegEffect :=
  match d with
  | .v n => .dst (.v n ((srWidth sr).getD .w32 == .w64)) act v
  | .s n =>
    if sr = 0x16 then
      { scalar := fun m => if m = n.toNat + 1 then some (c.trapMask.extractLsb' 64 64)
                           else if m = n.toNat then some (c.trapMask.extractLsb' 0 64) else none }
    else .dst (.s n) act v

/-- SRR that does not wait completes with the value read in `x`, the context once time has passed where sr.cycle is read. -/
theorem srr_completes {s : State} {c x : Cx} {h : Hdr} {d : VS} {sr : BitVec 8} (r : CanIssue s c h (srrInfo d sr))
    (hwait : (sr == 0x07 && c.drains) = false) (hx : (if sr == 0x05 then c.passTime else c) = x) (hk : Kept c x) :
    Completes s (.srr h d sr) c h (srrInfo d sr) x
      (srrEffect d sr x (c.guardMask h) (x.srValue (x.s.core x.core).cycle sr.toNat)) := by
  cases d with
  | v n =>
    exact issue_completes r rfl (w := fun y => y.put (.v n ((srWidth sr).getD .w32 == .w64)) (c.guardMask h) _)
      (by simp only [hwait, hx, Bool.false_eq_true, if_false]) hk (RegCtx.put_holds _ _ _ _ _)
  | s n =>
    by_cases hm : sr = 0x16
    · have hw : ((srWidth sr).getD .w32 == .mask) = true := beq_iff_eq.2 ((srWidth_eq_mask_iff sr).2 hm)
      rw [srrEffect, if_pos hm]
      exact issue_completes r rfl (w := fun y => (y.setScalar n.toNat _).setScalar (n.toNat + 1) _)
        (by simp only [hwait, hx, hw, Bool.false_eq_true, if_false, if_true]) hk
        (RegCtx.setScalar_setScalar_holds _ _ _ (r.mask_scalar_lt hm) _ _)
    · have hw : ((srWidth sr).getD .w32 == .mask) = false := beq_eq_false_iff_ne.2 (mt (srWidth_eq_mask_iff sr).1 hm)
      rw [srrEffect, if_neg hm]
      exact issue_completes r rfl (w := fun y => y.put (.s n) (c.guardMask h) _)
        (by simp only [hwait, hx, hw, Bool.false_eq_true, if_false]; rfl) hk (RegCtx.put_holds _ _ _ _ _)

/-- SRR of every register but sr.cycle changes no other state. -/
theorem srr_completes_of_ne_cycle {s : State} {c : Cx} {h : Hdr} {d : VS} {sr : BitVec 8} (r : CanIssue s c h (srrInfo d sr))
    (hcycle : sr ≠ 0x05) (hwait : sr ≠ 0x07 ∨ c.drains = false) :
    Completes s (.srr h d sr) c h (srrInfo d sr) c
      (srrEffect d sr c (c.guardMask h) (c.srValue (c.s.core c.core).cycle sr.toNat)) :=
  have hretry : (sr == 0x07 && c.drains) = false := by
    obtain hstatus | hdrains := hwait
    · rw [beq_eq_false_iff_ne.2 hstatus, Bool.false_and]
    · rw [hdrains, Bool.and_false]
  have hsame : (if sr == 0x05 then c.passTime else c) = c := if_neg (mt beq_iff_eq.1 hcycle)
  srr_completes r hretry hsame (Kept.ofState (chosen r.chosen) (congrArg State.blocks (chosen r.chosen).state))

theorem srr_waits {s : State} {c : Cx} {h : Hdr} {d : VS} (r : CanIssue s c h (srrInfo d 0x07)) (hdrains : c.drains = true) :
    Waits s (.srr h d 0x07) c s .retry :=
  issue_waits r rfl (by simp only [hdrains, (chosen r.chosen).state]; rfl)

/-- SRR of sr.cycle lets time pass on the core and reads the counter as it stands then. -/
theorem srr_cycle_completes {s : State} {c : Cx} {h : Hdr} {d : VS} (r : CanIssue s c h (srrInfo d 0x05)) :
    Completes s (.srr h d 0x05) c h (srrInfo d 0x05) c.passTime
      (srrEffect d 0x05 c (c.guardMask h) fun _ => (c.passTime.s.core c.core).cycle) :=
  srr_completes r rfl rfl (Kept.passTime (chosen r.chosen))

/-! ### SRW -/

@[simp] theorem srwInfo_kills (sr b : BitVec 8) (h : Hdr) : (srwInfo sr b).kills h = [] := by
  simp [Info.kills, srwInfo]

/-- A 1 clears bits 0 to 2 and no other (R96). -/
theorem clearStatus_eq (old w : DWord) : clearStatus old w = old &&& ~~~(w &&& 7) := rfl

theorem srw_status_completes {s : State} {c : Cx} {h : Hdr} {b : BitVec 8} (r : CanIssue s c h (srwInfo 0x07 b)) :
    Completes s (.srw h 0x07 b) c h (srwInfo 0x07 b)
      (c.setWv { c.wv with status := clearStatus c.wv.status (c.scl b (lowestLane (c.guardMask h))) }) {} :=
  issue_completes r rfl rfl (Kept.setWv (chosen r.chosen) rfl rfl rfl rfl rfl) (RegEffect.holds_none _ _ _)

theorem srw_fstat_next {s : State} {c : Cx} {h : Hdr} {b : BitVec 8} (r : CanIssue s c h (srwInfo 0x08 b)) :
    ∃ u, exec (.srw h 0x08 b) s = .next u ∧ RegsOnly s u c.ref ∧
      u.regs c.ref = { c.wv.regs with fstat := (c.scl b (lowestLane (c.guardMask h))).extractLsb' 0 6 } ∧
      PcAre c u fun _ => ptrAdd c.g.pc 8 := by
  obtain ⟨u, hexec, honly, hregs, hpc⟩ := issue_done r (k := .srw h 0x08 b) rfl rfl
  rw [srwInfo_kills] at hregs
  exact ⟨u, hexec, honly, hregs, hpc⟩

/-- Settles O38: SRR ends in one way for all its registers, so what is left is the value of each number R95 lists; sr.cycle is read after
time has passed on the core, and SRW writes the wave's status or its registers' flags. -/
theorem specialRegisterResults : Obligations.SpecialRegisterResults := by
  intro s h c
  refine ⟨fun d sr r => ?_, fun sr b r => ?_⟩
  · have hc := chosen r.chosen
    intro f e
    have he (v : Nat → DWord) : e v = srrEffect d sr c (c.guardMask h) v := by cases d <;> rfl
    refine ⟨fun hcycle hwait => ?_, ?_, ?_⟩
    · have hf : f sr.toNat = c.srValue (c.s.core c.core).cycle sr.toNat := by
        funext l
        have hfstat : c.rv.fstat = c.wv.regs.fstat := congrArg _ hc.regs
        have htrap n hn := (c.trapReg_eq_elim (n := n) hn).symm
        have hn := r.mem_srNumbers
        simp only [srNumbers, List.mem_cons, List.not_mem_nil, or_false] at hn
        obtain rfl | rfl | rfl | rfl | rfl | rfl | rfl | rfl | rfl | rfl | rfl | rfl | rfl | rfl | rfl | rfl := hn
        · rfl
        · rfl
        · rfl
        · rfl
        · rfl
        · exact absurd rfl hcycle
        · rfl
        · rfl
        · exact congrArg (BitVec.setWidth 64) hfstat.symm
        · exact htrap 0x10 (by decide)
        · exact htrap 0x11 (by decide)
        · exact htrap 0x12 (by decide)
        · exact htrap 0x13 (by decide)
        · exact htrap 0x14 (by decide)
        · exact htrap 0x15 (by decide)
        · rfl
      rw [he, hf]
      exact srr_completes_of_ne_cycle r hcycle hwait
    · rintro rfl hdrains
      exact srr_waits r hdrains
    · rintro rfl hlt
      refine ⟨c.passTime.s, Cx.passTime_state hc, fun n hn => Cx.passTime_core_of_ne hc hn, Cx.passTime_core_self hc hlt, ?_⟩
      rw [he, ← Cx.passTime_eq]
      exact srr_cycle_completes r
  · refine ⟨?_, ?_⟩
    · rintro rfl
      rw [← clearStatus_eq]
      exact srw_status_completes r
    · rintro rfl
      obtain ⟨u, hexec, honly, hregs, hpc⟩ := srw_fstat_next r
      exact ⟨u, hexec, honly, by rw [hregs], hpc, fun n l => by rw [hregs]; rfl, fun n => by rw [hregs]; rfl, fun n => by rw [hregs]; rfl⟩

end Sys2Proof.Machine
end

section
/-!
SUPPORT. Tricks (spec/07 R127 to R129; spec/15 R271 to R274): effects that leave the issuing wave but for its wait, what a signature leaves
of its trick, when an operation enters the engine queue, and how SIGN, MMA and PMMA end.
-/

namespace Sys2Proof.Machine

/-! ### Effects on the state and on the block -/

theorem set_getD_self {α : Type} (l : List α) (n : Nat) (x : α) : l.set n (l.getD n x) = l := by
  by_cases hn : n < l.length
  · simp [hn]
  · exact List.set_eq_of_length_le (Nat.not_lt.1 hn)

/-- Putting a wave back unchanged changes nothing. -/
theorem Cx.setWv_wv (c : Cx) : c.setWv c.wv = c := by
  rw [Cx.setWv, Block.setWave, Cx.wv, Block.wave, set_getD_self]

/-- Putting a core back unchanged changes nothing. -/
theorem State.setCore_core (s : State) (n : Nat) : s.setCore n (s.core n) = s := by
  rw [State.setCore, State.core, set_getD_self]

theorem Kept.withState {c x : Cx} (k : Kept c x) {v : State} (hv : v.blocks = x.s.blocks) : Kept c { x with s := v } :=
  { k with block := (congrArg Option.isSome (congrArg (List.find? _) hv)).trans k.block }

/-- A block whose wave differs in its wait alone. -/
theorem Kept.withBlock {c x : Cx} (k : Kept c x) {b : Block} (hlid : b.lid = x.blk.lid) (hrank : b.rank = x.blk.rank)
    (hlength : b.waves.length = x.blk.waves.length) {w : Option Wait} (hwave : b.wave x.sel.ref.wave = { x.wv with wait := w }) :
    Kept c { x with blk := b } where
  sel := k.sel
  block := k.block
  lid := hlid.trans k.lid
  rank := hrank.trans k.rank
  waves := by rw [hlength]; exact k.waves
  regs := (congrArg Wave.regs hwave).trans k.regs
  groups := (congrArg Wave.groups hwave).trans k.groups
  held := (congrArg Wave.held hwave).trans k.held
  mr := (congrArg Wave.mr hwave).trans k.mr
  pend := (congrArg Wave.pend hwave).trans k.pend

theorem Woken.exists_wait {b b' : Block} (h : Woken b b') (n : Nat) : ∃ w, b'.wave n = { b.wave n with wait := w } := by
  rw [h.2 n]
  split
  · exact ⟨none, rfl⟩
  · exact ⟨(b.wave n).wait, rfl⟩

theorem Kept.woken {c x : Cx} (k : Kept c x) {b : Block} (h : Woken x.blk b) (hlid : b.lid = x.blk.lid) (hrank : b.rank = x.blk.rank) :
    Kept c { x with blk := b } :=
  have ⟨_, hwave⟩ := h.exists_wait x.sel.ref.wave
  k.withBlock hlid hrank h.1 hwave

theorem Block.wake_wave (b : Block) (n : Nat) :
    b.wake.wave n =
      if (b.wave n).wait = some .retry ∨ (b.wave n).wait = some .phase then { b.wave n with wait := none } else b.wave n := by
  simp only [Block.wave, Block.wake, List.getD_eq_getElem?_getD, List.getElem?_map]
  cases b.waves[n]? with
  | none => rfl
  | some w => simp

/-- Waves that wait to try again are woken, whatever else of the block has changed. -/
theorem Block.wake_woken {b b' : Block} (h : b'.waves = b.waves) : Woken b b'.wake := by
  have hwave (n : Nat) : b'.wave n = b.wave n := by rw [Block.wave, h, Block.wave]
  refine ⟨?_, fun n => ?_⟩
  · rw [Block.wake, List.length_map, h]
  · rw [Block.wake_wave, hwave]

/-! ### Tricks -/

theorem Block.trick?_sym {b : Block} {k : Nat} {t : TrickState} (h : b.trick? k = some t) : t.sym = k := by
  have := List.find?_some h
  simpa using this

theorem Block.trick?_setTrick {b : Block} {k : Nat} {t t' : TrickState} (h : b.trick? k = some t) (hsym : t'.sym = k) (n : Nat) :
    (b.setTrick t').trick? n = if n = k then some t' else b.trick? n := by
  subst hsym
  have hp : (fun x : TrickState => x.sym == n) ∘ (fun y => if y.sym == t'.sym then t' else y) = fun x => x.sym == n := by
    funext y
    by_cases hy : y.sym = t'.sym <;> simp [hy]
  rw [Block.trick?, Block.setTrick, List.find?_map, hp]
  change Option.map _ (b.trick? n) = _
  by_cases hn : n = t'.sym
  · subst hn
    simp [h, Block.trick?_sym h]
  · rw [if_neg hn]
    cases ht : b.trick? n with
    | none => rfl
    | some y =>
      have hy : ¬ y.sym = t'.sym := by rw [Block.trick?_sym ht]; exact hn
      simp [hy]

theorem Block.setTrick_trickNow {b : Block} {k : Nat} {t t' : TrickState} (h : b.trick? k = some t) (hsym : t'.sym = k) :
    TrickNow b (b.setTrick t') k t' :=
  ⟨rfl, Block.trick?_setTrick h hsym⟩

theorem TrickNow.wake {b b' : Block} {k : Nat} {t : TrickState} (h : TrickNow b b' k t) : TrickNow b b'.wake k t :=
  ⟨by rw [Block.wake, h.1], h.2⟩

/-! ### A signature -/

/-- The trick once the active lanes have signed it, with the operation that the instruction brings (R128, R129, R59). -/
def Cx.signature (c : Cx) (t : TrickState) (op : Option Instr) (act : Mask) : TrickState :=
  { t with
    signed := t.signed ||| threadsOf c.ref.wave act, count := t.count + laneCount act
    op := match op with
      | some j => some (c.ref.wave, c.raisesFor, j)
      | none => t.op
    entryA := (op.bind matOps?).elim t.entryA fun o => c.ctx.entry o.hA.toNat
    entryB := (op.bind matOps?).elim t.entryB fun o => c.ctx.entry o.hB.toNat }

/-- The trick as a round leaves it (R128). -/
def TrickState.cleared (t : TrickState) : TrickState := { t with signed := 0, count := 0, op := none, entryA := [], entryB := [] }

/-- The block once the round is over: the trick is cleared, and waves that wait to sign try again. -/
def Block.endRound (b : Block) (t : TrickState) : Block := (b.setTrick t.cleared).wake

theorem Block.endRound_woken (b : Block) (t : TrickState) : Woken b (b.endRound t) := Block.wake_woken rfl

theorem Block.endRound_trickNow {b : Block} {k : Nat} {t t' : TrickState} (h : b.trick? k = some t) (hsym : t'.sym = k) :
    TrickNow b (b.endRound t') k t'.cleared :=
  (Block.setTrick_trickNow (t' := t'.cleared) h hsym).wake

/-- The end of a round: the operation signed last is issued, if any. -/
def Cx.endRound (c : Cx) (t : TrickState) (act : Mask) : Res :=
  match t.op with
  | none => .done { c with blk := c.blk.endRound t } id
  | some (wave, from_, j) =>
    match c.issueOp t j wave from_ act with
    | .error tr => .trap c.s tr
    | .ok x => .done { x with blk := x.blk.endRound t } id

theorem Cx.endRound_of_none {c : Cx} {t : TrickState} {act : Mask} (h : t.op = none) :
    c.endRound t act = .done { c with blk := c.blk.endRound t } id := by
  simp only [Cx.endRound, h]

theorem Cx.endRound_of_error {c : Cx} {t : TrickState} {act : Mask} {wave : Nat} {from_ : FlagsTo} {j : Instr} {tr : TrapInfo}
    (h : t.op = some (wave, from_, j)) (herr : c.issueOp t j wave from_ act = .error tr) : c.endRound t act = .trap c.s tr := by
  simp only [Cx.endRound, h, herr]

theorem Cx.endRound_of_ok {c x : Cx} {t : TrickState} {act : Mask} {wave : Nat} {from_ : FlagsTo} {j : Instr}
    (h : t.op = some (wave, from_, j)) (hok : c.issueOp t j wave from_ act = .ok x) :
    c.endRound t act = .done { x with blk := x.blk.endRound t } id := by
  simp only [Cx.endRound, h, hok]

section
variable {c : Cx} {sym : Nat} {op : Option Instr} {act : Mask} {t : TrickState}

theorem Cx.signTrick_trap (h : c.blk.trick? sym = some t) (hover : c.trickSize sym < laneCount act) :
    c.signTrick sym op act = .trap c.s (laneTrap tIllop 0x0C 0 act) := by
  simp only [Cx.signTrick, h, if_pos hover]

theorem Cx.signTrick_wait (h : c.blk.trick? sym = some t) (hfits : laneCount act ≤ c.trickSize sym)
    (hlate : t.signed &&& threadsOf c.ref.wave act ≠ 0 ∨ c.trickSize sym < t.count + laneCount act) :
    c.signTrick sym op act = .wait c.s .retry := by
  have hlate : (t.signed &&& threadsOf c.sel.ref.wave act != 0 || decide (c.trickSize sym < t.count + laneCount act)) = true := by
    simpa [Cx.ref] using hlate
  simp only [Cx.signTrick, h, if_neg (Nat.not_lt.2 hfits), hlate, if_true]

/-- Where every thread may sign, the signature is counted; if one is still missing nothing else happens. -/
theorem Cx.signTrick_counted (h : c.blk.trick? sym = some t) (hnew : t.signed &&& threadsOf c.ref.wave act = 0)
    (hmiss : t.count + laneCount act < c.trickSize sym) :
    c.signTrick sym op act = .done { c with blk := c.blk.setTrick (c.signature t op act) } id := by
  have hfits : ¬ c.trickSize sym < laneCount act := by omega
  have hroom : ¬ c.trickSize sym < t.count + laneCount act := by omega
  have hnew : t.signed &&& threadsOf c.sel.ref.wave act = 0 := hnew
  cases op <;> simp [Cx.signTrick, h, hfits, hroom, hnew, hmiss] <;> rfl

/-- The last signature ends the round. -/
theorem Cx.signTrick_last (h : c.blk.trick? sym = some t) (hnew : t.signed &&& threadsOf c.ref.wave act = 0)
    (hlast : t.count + laneCount act = c.trickSize sym) :
    c.signTrick sym op act = c.endRound (c.signature t op act) act := by
  have hfits : ¬ c.trickSize sym < laneCount act := by omega
  have hroom : ¬ c.trickSize sym < t.count + laneCount act := by omega
  have hfull : ¬ t.count + laneCount act < c.trickSize sym := by omega
  have hnew : t.signed &&& threadsOf c.sel.ref.wave act = 0 := hnew
  cases op <;> simp [Cx.signTrick, h, hfits, hroom, hnew, hfull] <;> rfl

end

/-! ### Issuing the round's operation -/

theorem Cx.tileTrap_of_lt {c : Cx} {queue : Bool} {sym seg n : Nat} {lanes : Mask} (h : c.segCount queue sym < seg + n) :
    ∃ tr, c.tileTrap queue sym seg n lanes = some tr ∧ tr.cls = 7 ∧ tr.cause = 5 :=
  ⟨_, if_pos h, rfl, rfl⟩

theorem Cx.tileTrap_of_le {c : Cx} {queue : Bool} {sym seg n : Nat} {lanes : Mask} (h : seg + n ≤ c.segCount queue sym) :
    c.tileTrap queue sym seg n lanes = none :=
  if_neg (Nat.not_lt.2 h)

/-- The segments of a tile carry its entry's tag, those of its scales none (R127). -/
def Cx.Tagged (c : Cx) (r : SegRef) (off : Nat) (e : TEntry) : Prop :=
  ∀ i, i < tileSegs e →
    ((c.s.core c.core).seg (c.segAt r.queue r.sym.toNat + off + i)).tag = if i < 6 then entTag e else 0

theorem Cx.swizzleTrap_of_tagged {c : Cx} {r : SegRef} {off : Nat} {e : TEntry} {lanes : Mask} (h : c.Tagged r off e) :
    c.swizzleTrap r off e lanes = none := by
  rw [Cx.swizzleTrap, Option.map_eq_none_iff, List.find?_eq_none]
  intro i hi
  simpa using h i (List.mem_range.1 hi)

theorem Cx.swizzleTrap_of_not_tagged {c : Cx} {r : SegRef} {off : Nat} {e : TEntry} {lanes : Mask} (h : ¬ c.Tagged r off e) :
    ∃ tr, c.swizzleTrap r off e lanes = some tr ∧ tr.cls = 6 := by
  obtain ⟨i, hi, htag⟩ : ∃ i, i < tileSegs e ∧
      ¬ ((c.s.core c.core).seg (c.segAt r.queue r.sym.toNat + off + i)).tag = if i < 6 then entTag e else 0 := by
    simpa [Cx.Tagged] using h
  unfold Cx.swizzleTrap
  dsimp only
  generalize hf : (List.range (tileSegs e)).find? _ = found
  cases found with
  | none => exact absurd (List.find?_eq_none.1 hf i (List.mem_range.2 hi)) (by simpa using htag)
  | some n => exact ⟨_, rfl, rfl⟩

/-- The segment where an operand begins: read from the wave that signed last (R273). -/
def Cx.operandSeg (c : Cx) (wave : Nat) (from_ : FlagsTo) (act : Mask) (r : SegRef) : Nat :=
  if r.scl then (c.signerScalar wave from_ r.seg (lowestLane act)).toNat % 2 ^ 16 else r.seg.toNat

/-- The first of the traps of an operation's two operands: their ranges, then their tags (R127, R274). -/
def Cx.operandTrap (c : Cx) (t : TrickState) (o : MatOps) (offA offB : Nat) (act : Mask) : Option TrapInfo :=
  [c.tileTrap o.a.queue o.a.sym.toNat offA (tileSegs t.entryA) act, c.tileTrap o.b.queue o.b.sym.toNat offB (tileSegs t.entryB) act,
    c.swizzleTrap o.a offA t.entryA act, c.swizzleTrap o.b offB t.entryB act].findSome? id

section
variable {c : Cx} {t : TrickState} {o : MatOps} {offA offB : Nat} {act : Mask} {tr : TrapInfo}

theorem Cx.operandTrap_of_rangeA (ha : c.tileTrap o.a.queue o.a.sym.toNat offA (tileSegs t.entryA) act = some tr) :
    c.operandTrap t o offA offB act = some tr := by
  rw [Cx.operandTrap, ha]
  rfl

theorem Cx.operandTrap_of_rangeB (ha : c.tileTrap o.a.queue o.a.sym.toNat offA (tileSegs t.entryA) act = none)
    (hb : c.tileTrap o.b.queue o.b.sym.toNat offB (tileSegs t.entryB) act = some tr) : c.operandTrap t o offA offB act = some tr := by
  rw [Cx.operandTrap, ha, hb]
  rfl

theorem Cx.operandTrap_of_not_tagged (ha : c.tileTrap o.a.queue o.a.sym.toNat offA (tileSegs t.entryA) act = none)
    (hb : c.tileTrap o.b.queue o.b.sym.toNat offB (tileSegs t.entryB) act = none)
    (htag : ¬ (c.Tagged o.a offA t.entryA ∧ c.Tagged o.b offB t.entryB)) :
    ∃ tr, c.operandTrap t o offA offB act = some tr ∧ tr.cls = 6 := by
  rw [Cx.operandTrap, ha, hb]
  by_cases hta : c.Tagged o.a offA t.entryA
  · obtain ⟨tr, htr, hcls⟩ := Cx.swizzleTrap_of_not_tagged (lanes := act) fun htb => htag ⟨hta, htb⟩
    rw [Cx.swizzleTrap_of_tagged hta, htr]
    exact ⟨tr, rfl, hcls⟩
  · obtain ⟨tr, htr, hcls⟩ := Cx.swizzleTrap_of_not_tagged (lanes := act) hta
    rw [htr]
    exact ⟨tr, rfl, hcls⟩

theorem Cx.operandTrap_eq_none (ha : c.tileTrap o.a.queue o.a.sym.toNat offA (tileSegs t.entryA) act = none)
    (hb : c.tileTrap o.b.queue o.b.sym.toNat offB (tileSegs t.entryB) act = none)
    (hta : c.Tagged o.a offA t.entryA) (htb : c.Tagged o.b offB t.entryB) : c.operandTrap t o offA offB act = none := by
  rw [Cx.operandTrap, ha, hb, Cx.swizzleTrap_of_tagged hta, Cx.swizzleTrap_of_tagged htb]
  rfl

end

section
variable {c : Cx} {t : TrickState} {j : Instr} {o : MatOps} {wave : Nat} {from_ : FlagsTo} {act : Mask}

theorem Cx.issueOp_error {tr : TrapInfo} (hj : matOps? j = some o)
    (h : c.operandTrap t o (c.operandSeg wave from_ act o.a) (c.operandSeg wave from_ act o.b) act = some tr) :
    c.issueOp t j wave from_ act = .error tr := by
  simp only [Cx.operandTrap, Cx.operandSeg] at h
  simp only [Cx.issueOp, hj, h]

/-- The operation that enters the engine queue. -/
def Cx.roundOp (c : Cx) (t : TrickState) (j : Instr) (o : MatOps) (offA offB : Nat) : EngOp :=
  { id := c.s.stamp + 1, wave := c.ref, pc := c.g.pc, op := j, origin := [], arg := 0,
    segA := c.segAt o.a.queue o.a.sym.toNat + offA, segB := c.segAt o.b.queue o.b.sym.toNat + offB,
    entryA := t.entryA, entryB := t.entryB, pipe := c.wv.pipe, flagsTo := c.raisesFor }

/-- The core once an operation has entered its engine queue. -/
def Core.enqueue (k : Core) (op : EngOp) : Core := { k with engine := k.engine ++ [op] }

theorem Cx.issueOp_ok (hj : matOps? j = some o)
    (h : c.operandTrap t o (c.operandSeg wave from_ act o.a) (c.operandSeg wave from_ act o.b) act = none) :
    ∃ u, c.issueOp t j wave from_ act =
      .ok { c with s := State.setCore { c.s.tick with unsettled := u } c.core ((c.s.core c.core).enqueue
        (c.roundOp t j o (c.operandSeg wave from_ act o.a) (c.operandSeg wave from_ act o.b))) } := by
  simp only [Cx.operandTrap, Cx.operandSeg] at h
  simp only [Cx.issueOp, hj, h]
  exact ⟨_, rfl⟩

/-- Issuing touches neither the wave nor its block. -/
theorem Cx.issueOp_eq {x : Cx} (h : c.issueOp t j wave from_ act = .ok x) :
    ∃ v : State, x = { c with s := v } ∧ v.blocks = c.s.blocks := by
  cases hj : matOps? j with
  | none =>
    simp only [Cx.issueOp, hj, Except.ok.injEq] at h
    subst h
    exact ⟨_, rfl, rfl⟩
  | some o =>
    cases htrap : c.operandTrap t o (c.operandSeg wave from_ act o.a) (c.operandSeg wave from_ act o.b) act with
    | some tr => rw [Cx.issueOp_error hj htrap] at h; cases h
    | none =>
      obtain ⟨u, hu⟩ := Cx.issueOp_ok hj htrap
      rw [hu, Except.ok.injEq] at h
      subst h
      exact ⟨_, rfl, rfl⟩

end

/-! ### The end of a signature -/

theorem onPath_of_not_fenced {path : Nat} {body : Cx → Mask → Res} {c : Cx} {act : Mask} (h : c.fenced path = false) :
    onPath path body c act = body { c with s := c.s.settlePath c.ref path } act := by
  rw [onPath, h, if_neg Bool.false_ne_true]

/-- What an instruction does whose body is a signature. -/
theorem signs_of_signTrick {s : State} {k : Instr} {c : Cx} {h : Hdr} {i : Info} {sym : Nat} {op : Option Instr}
    (hfence : c.fenced 2 = false) (r : CanIssue s c h i)
    (hx : exec k s = issue h i (onPath 2 fun c act => c.signTrick sym op act) s) : Signs s k c h i sym op := by
  intro t ht m n who v last ops t'
  have hc := chosen r.chosen
  have hbody : onPath 2 (fun c act => c.signTrick sym op act) c (c.guardMask h) =
      Cx.signTrick { c with s := v } sym op (c.guardMask h) := by
    rw [onPath_of_not_fenced hfence, hc.state]
  have hkept : Kept c { c with s := v } := Kept.ofState hc rfl
  have hsym : t'.sym = sym := (Block.trick?_sym ht : t.sym = sym)
  refine ⟨fun hover => ?_, fun hfits hlate => ?_, fun hnew hmiss => ?_, fun hnew hlast => ?_⟩
  · exact issue_traps r hx (hbody.trans (Cx.signTrick_trap ht hover))
  · exact issue_waits r hx (hbody.trans (Cx.signTrick_wait ht hfits hlate))
  · have hrun := hbody.trans (Cx.signTrick_counted ht hnew hmiss)
    exact ⟨c.blk.setTrick t', rfl, Block.setTrick_trickNow ht hsym,
      issue_completes r hx hrun (hkept.withBlock rfl rfl rfl rfl) (RegEffect.holds_none _ _ _)⟩
  · have hrun := hbody.trans (Cx.signTrick_last ht hnew hlast)
    have hwoken := c.blk.endRound_woken t'
    have hnow := Block.endRound_trickNow ht hsym
    have hop : t'.op = last := rfl
    intro fresh
    cases hl : last with
    | none =>
      have hend := hrun.trans (Cx.endRound_of_none (hop.trans hl))
      exact ⟨_, hwoken, hnow, issue_completes r hx hend (hkept.woken hwoken rfl rfl) (RegEffect.holds_none _ _ _)⟩
    | some w =>
      obtain ⟨wave, from_, j⟩ := w
      dsimp only
      split
      · next tr herr => exact issue_traps r hx (hrun.trans (Cx.endRound_of_error (hop.trans hl) herr))
      · next x hok =>
        have hend := hrun.trans (Cx.endRound_of_ok (hop.trans hl) hok)
        obtain ⟨_, rfl, hblocks⟩ := Cx.issueOp_eq hok
        exact ⟨_, hwoken, hnow,
          issue_completes r hx hend ((hkept.withState hblocks).woken hwoken rfl rfl) (RegEffect.holds_none _ _ _)⟩

theorem sign_signs {s : State} {c : Cx} {h : Hdr} (hfence : c.fenced 2 = false) {k : BitVec 8} (r : CanIssue s c h (signInfo k)) :
    Signs s (.sign h k) c h (signInfo k) k.toNat none :=
  signs_of_signTrick hfence r rfl

theorem mma_signs {s : State} {c : Cx} {h : Hdr} (hfence : c.fenced 2 = false) {w2 : Bool} {o : MatOps}
    (r : CanIssue s c h (matInfo o (1 + w2.toNat) mmaClass)) :
    Signs s (.mma h w2 o) c h (matInfo o (1 + w2.toNat) mmaClass) o.k.toNat (some (.mma h w2 o)) :=
  signs_of_signTrick hfence r rfl

theorem pmma_signs {s : State} {c : Cx} {h : Hdr} (hfence : c.fenced 2 = false) {qn : BitVec 2} {conj : Bool} {o : MatOps}
    (r : CanIssue s c h (matInfo o 2 pmmaClass)) :
    Signs s (.pmma h qn conj o) c h (matInfo o 2 pmmaClass) o.k.toNat (some (.pmma h qn conj o)) :=
  signs_of_signTrick hfence r rfl

/-- Settles O34: SIGN, MMA and PMMA have one body, a signature, so one lemma says how all three end; an operation is issued where none of the
four checks of its operands, in their order, raises a trap. -/
theorem signingIssuesTheRound : Obligations.SigningIssuesTheRound := by
  refine ⟨fun s h c hfence => ⟨fun k r => sign_signs hfence r, fun w2 o r => mma_signs hfence r, fun qn conj o r => pmma_signs hfence r⟩, ?_⟩
  intro c t wave from_ j act o hj off inside tagged ea eb
  have hops : matOps? j = some o := by
    obtain ⟨_, _, rfl⟩ | ⟨_, _, _, rfl⟩ := hj <;> rfl
  refine ⟨fun ha => ?_, fun ha hb => ?_, fun ha hb htag => ?_, fun ha hb hta htb => ?_⟩
  · obtain ⟨tr, htr, hcls, hcause⟩ := c.tileTrap_of_lt (lanes := act) (Nat.not_le.1 ha)
    exact ⟨tr, Cx.issueOp_error hops (Cx.operandTrap_of_rangeA htr), hcls, hcause⟩
  · obtain ⟨tr, htr, hcls, hcause⟩ := c.tileTrap_of_lt (lanes := act) (Nat.not_le.1 hb)
    exact ⟨tr, Cx.issueOp_error hops (Cx.operandTrap_of_rangeB (Cx.tileTrap_of_le ha) htr), hcls, hcause⟩
  · obtain ⟨tr, htr, hcls⟩ := Cx.operandTrap_of_not_tagged (act := act) (Cx.tileTrap_of_le ha) (Cx.tileTrap_of_le hb) htag
    exact ⟨tr, Cx.issueOp_error hops htr, hcls⟩
  · have hnone := Cx.operandTrap_eq_none (Cx.tileTrap_of_le (lanes := act) ha) (Cx.tileTrap_of_le hb) hta htb
    obtain ⟨u, hu⟩ := Cx.issueOp_ok hops hnone
    exact ⟨_, _, hu, rfl, rfl, rfl, rfl, rfl, rfl, rfl, rfl, rfl,
      fun hcore => ⟨State.core_setCore_self _ hcore, fun n hn => State.core_setCore_of_ne _ hn⟩⟩

end Sys2Proof.Machine
end

section
/-!
SUPPORT. Accumulators (spec/07 R130 to R132; spec/15 R276, R277): which banks and words ACCA, ACCF, ACCZ, ACCR and ACCW change, and how
these instructions end.
-/

namespace Sys2Proof.Machine

/-! ### Banks -/

theorem Core.bank_setBank (k : Core) (n : Nat) (b : Bank) (m : Nat) : (k.setBank n b).bank m = if m = n then b else k.bank m :=
  setAt_getD ..

/-- Two banks that no instruction tells apart: words past the 512th are never named. -/
def Bank.ReadsAs (a b : Bank) : Prop := a.alloc = b.alloc ∧ a.owner = b.owner ∧ ∀ i, i < 512 → a.word i = b.word i

theorem Bank.ReadsAs.refl (b : Bank) : b.ReadsAs b := ⟨rfl, rfl, fun _ _ => rfl⟩

theorem Bank.ReadsAs.trans {a b d : Bank} (h : a.ReadsAs b) (h' : b.ReadsAs d) : a.ReadsAs d := by
  obtain ⟨halloc, howner, hwords⟩ := h
  obtain ⟨halloc', howner', hwords'⟩ := h'
  exact ⟨halloc.trans halloc', howner.trans howner', fun i hi => (hwords i hi).trans (hwords' i hi)⟩

/-- Only accumulator banks, and the errors of their words, differ. -/
def Core.SameButBanks (k k' : Core) : Prop := k' = { k with banks := k'.banks, badAcc := k'.badAcc }

theorem Core.SameButBanks.trans {k k' k'' : Core} (h : k.SameButBanks k') (h' : k'.SameButBanks k'') : k.SameButBanks k'' := by
  unfold Core.SameButBanks at *
  rw [h', h]

/-- A step that changes the bank it is given by `g`, and nothing else but errors of words. -/
structure ChangesBank (step : Core → Nat → Core) (g : Bank → Bank) : Prop where
  same : ∀ k n, Core.SameButBanks k (step k n)
  bank : ∀ k n m, (step k n).bank m = if m = n then g (k.bank m) else k.bank m

/-- A step for each of `cnt` banks from `first` on. -/
def Core.eachBank (k : Core) (first cnt : Nat) (step : Core → Nat → Core) : Core :=
  (List.range cnt).foldl (fun k i => step k (first + i)) k

theorem Core.eachBank_succ (k : Core) (first cnt : Nat) (step : Core → Nat → Core) :
    k.eachBank first (cnt + 1) step = step (k.eachBank first cnt step) (first + cnt) := by
  rw [Core.eachBank, List.range_succ, List.foldl_append]
  rfl

section
variable {step : Core → Nat → Core} {g : Bank → Bank} (hstep : ChangesBank step g)
include hstep

theorem ChangesBank.sameButBanks_eachBank (k : Core) (first cnt : Nat) : k.SameButBanks (k.eachBank first cnt step) := by
  induction cnt with
  | zero => rfl
  | succ cnt ih =>
    rw [Core.eachBank_succ]
    exact ih.trans (hstep.same _ _)

theorem ChangesBank.bank_eachBank (k : Core) (first cnt n : Nat) :
    (k.eachBank first cnt step).bank n = if first ≤ n ∧ n < first + cnt then g (k.bank n) else k.bank n := by
  induction cnt with
  | zero =>
    rw [if_neg (by omega)]
    rfl
  | succ cnt ih =>
    rw [Core.eachBank_succ, hstep.bank, ih]
    by_cases hn : n = first + cnt
    · rw [if_pos hn, if_neg (by omega), if_pos (by omega)]
    · rw [if_neg hn]
      exact ite_congr (propext (by omega)) (fun _ => rfl) fun _ => rfl

end

/-- A bank that is not allocated reads as zeros (R132). -/
theorem Core.read_setWidth (k : Core) (n i : Nat) :
    (k.read n i).setWidth 64 = if (k.bank n).alloc then ((k.bank n).word i).setWidth 64 else (0 : DWord) := by
  rw [Core.read]
  split <;> rfl

/-! ### A bank allocated, freed, zeroed -/

/-- A bank allocated to a group, its words zero and sound (R131). -/
def Core.allocate (grp : Nat) (k : Core) (n : Nat) : Core :=
  { k.setBank n { alloc := true, owner := grp, words := [] } with badAcc := k.badAcc.filter (· / 512 != n) }

theorem Core.allocate_changesBank (grp : Nat) :
    ChangesBank (Core.allocate grp) fun _ => { alloc := true, owner := grp, words := [] } where
  same _ _ := rfl
  bank k _ _ := k.bank_setBank ..

/-- A bank freed (R131). -/
def Core.release (k : Core) (n : Nat) : Core := k.setBank n { k.bank n with alloc := false }

theorem Core.release_changesBank : ChangesBank Core.release fun b => { b with alloc := false } where
  same _ _ := rfl
  bank k n m := by
    rw [Core.release, Core.bank_setBank]
    split
    · next hm => rw [hm]
    · rfl

/-- A bank's words written whole; of a bank that is not allocated they stand (R132). -/
def Bank.fill (f : Nat → Word) (b : Bank) : Bank := if b.alloc then { b with words := (List.range 512).map f } else b

theorem Core.fill_changesBank (f : Nat → Word) : ChangesBank (fun k n => k.fill n f) (Bank.fill f) where
  same k n := by
    unfold Core.fill
    split <;> rfl
  bank k n m := by
    unfold Core.fill Bank.fill
    by_cases hm : m = n
    · subst hm
      rw [if_pos rfl]
      split
      · exact (k.bank_setBank ..).trans (if_pos rfl)
      · rfl
    · rw [if_neg hm]
      split
      · exact (k.bank_setBank ..).trans (if_neg hm)
      · rfl

theorem getD_map_const {α β : Type} (l : List α) (x : β) (n : Nat) : (l.map fun _ => x).getD n x = x := by
  rw [List.map_const']
  exact getD_replicate_self ..

/-- An allocated bank written with zeros reads as one without words. -/
theorem Bank.fill_zero_readsAs (b : Bank) : (b.fill fun _ => 0).ReadsAs (if b.alloc then { b with words := [] } else b) := by
  unfold Bank.fill
  split
  · refine ⟨rfl, rfl, fun i _ => ?_⟩
    rw [Bank.word, Bank.word, getD_map_const, List.getD_nil]
  · exact Bank.ReadsAs.refl _

/-! ### Unallocated banks -/

theorem Core.unalloc_iff {k : Core} {first cnt : Nat} :
    k.unalloc first cnt = true ↔ ∃ n, (first ≤ n ∧ n < first + cnt) ∧ (k.bank n).alloc = false := by
  rw [Core.unalloc, List.any_eq_true]
  constructor
  · rintro ⟨i, hi, halloc⟩
    rw [List.mem_range] at hi
    exact ⟨first + i, ⟨by omega, by omega⟩, by simpa using halloc⟩
  · rintro ⟨n, ⟨hfirst, hlast⟩, halloc⟩
    refine ⟨n - first, List.mem_range.2 (by omega), ?_⟩
    rw [Nat.add_sub_cancel' hfirst, halloc]
    rfl

theorem Core.unalloc_one (k : Core) (n : Nat) : k.unalloc n 1 = !(k.bank n).alloc := by
  simp [Core.unalloc]

/-! ### A row written -/

section
variable {word : Nat → Nat} {f : Nat → Word} {ls : List Nat} {ws : List Word}

theorem foldl_setAt_getD_of_forall_ne {j : Nat} (h : ∀ l ∈ ls, word l ≠ j) :
    (ls.foldl (fun ws l => setAt 0 (word l) (f l) ws) ws).getD j 0 = ws.getD j 0 := by
  induction ls generalizing ws with
  | nil => rfl
  | cons x ls ih =>
    rw [List.foldl_cons, ih fun l hl => h l (List.mem_cons_of_mem _ hl), setAt_getD, if_neg (h x List.mem_cons_self).symm]

theorem foldl_setAt_getD_of_mem (hinj : ∀ x ∈ ls, ∀ y ∈ ls, word x = word y → x = y) {l : Nat} (hl : l ∈ ls) :
    (ls.foldl (fun ws l => setAt 0 (word l) (f l) ws) ws).getD (word l) 0 = f l := by
  induction ls generalizing ws with
  | nil => cases hl
  | cons x ls ih =>
    rw [List.foldl_cons]
    by_cases hmem : l ∈ ls
    · exact ih (fun a ha b hb => hinj a (List.mem_cons_of_mem _ ha) b (List.mem_cons_of_mem _ hb)) hmem
    · obtain rfl : l = x := (List.mem_cons.1 hl).resolve_right hmem
      rw [foldl_setAt_getD_of_forall_ne, setAt_getD, if_pos rfl]
      intro m hm hword
      exact hmem (hinj m (List.mem_cons_of_mem _ hm) l hl hword ▸ hm)

end

/-- The word of R277, as a scalar and a lane give it. -/
theorem accWord_eq (sw : DWord) (l : Nat) : accWord sw l = (sw.toNat + l) % 512 := by
  rw [accWord, Nat.mod_add_mod]

/-- 128 lanes name 128 words. -/
theorem accWord_inj {sw : DWord} {l m : Nat} (hl : l < 128) (hm : m < 128) (h : accWord sw l = accWord sw m) : l = m := by
  rw [accWord_eq, accWord_eq] at h
  omega

/-- The core once ACCW has written its row: an allocated bank takes a word of each active lane. -/
def Core.writeRow (k : Core) (n : Nat) (sw : DWord) (f : Nat → Word) (act : Mask) : Core :=
  if (k.bank n).alloc then
    { k.setBank n { k.bank n with words := (lanesOf act).foldl (fun ws l => setAt 0 (accWord sw l) (f l) ws) (k.bank n).words } with
        badAcc := k.badAcc.filter fun w => !((lanesOf act).map fun l => n * 512 + accWord sw l).contains w }
  else k

section
variable {k : Core} {n : Nat} {sw : DWord} {f : Nat → Word} {act : Mask}

theorem Core.sameButBanks_writeRow : k.SameButBanks (k.writeRow n sw f act) := by
  unfold Core.writeRow
  split <;> rfl

theorem Core.bank_writeRow_of_ne {m : Nat} (h : m ≠ n) : (k.writeRow n sw f act).bank m = k.bank m := by
  unfold Core.writeRow
  split
  · exact (k.bank_setBank ..).trans (if_neg h)
  · rfl

theorem Core.bank_writeRow_of_alloc (h : (k.bank n).alloc = true) :
    (k.writeRow n sw f act).bank n =
      { k.bank n with words := (lanesOf act).foldl (fun ws l => setAt 0 (accWord sw l) (f l) ws) (k.bank n).words } := by
  rw [Core.writeRow, if_pos h]
  exact (k.bank_setBank ..).trans (if_pos rfl)

theorem Core.writeRow_of_not_alloc (h : (k.bank n).alloc = false) : k.writeRow n sw f act = k :=
  if_neg (by rw [h]; exact Bool.false_ne_true)

theorem Core.bank_writeRow_alloc : ((k.writeRow n sw f act).bank n).alloc = (k.bank n).alloc := by
  cases h : (k.bank n).alloc with
  | true => rw [Core.bank_writeRow_of_alloc h]; exact h
  | false => rw [Core.writeRow_of_not_alloc h, h]

theorem Core.bank_writeRow_owner : ((k.writeRow n sw f act).bank n).owner = (k.bank n).owner := by
  cases h : (k.bank n).alloc with
  | true => rw [Core.bank_writeRow_of_alloc h]
  | false => rw [Core.writeRow_of_not_alloc h]

theorem Core.word_writeRow_of_active {l : Nat} (hl : l < 128) (h : (k.bank n).alloc = true) (hact : act.getLsbD l = true) :
    ((k.writeRow n sw f act).bank n).word (accWord sw l) = f l := by
  rw [Core.bank_writeRow_of_alloc h]
  exact foldl_setAt_getD_of_mem (fun x hx y hy => accWord_inj (mem_lanesOf.1 hx).1 (mem_lanesOf.1 hy).1) (mem_lanesOf.2 ⟨hl, hact⟩)

theorem Core.word_writeRow_of_unnamed {j : Nat}
    (h : (k.bank n).alloc = false ∨ ∀ l, l < 128 → act.getLsbD l = true → accWord sw l ≠ j) :
    ((k.writeRow n sw f act).bank n).word j = (k.bank n).word j := by
  cases halloc : (k.bank n).alloc with
  | false => rw [Core.writeRow_of_not_alloc halloc]
  | true =>
    obtain hfalse | hne := h
    · rw [halloc] at hfalse; cases hfalse
    rw [Core.bank_writeRow_of_alloc halloc]
    refine foldl_setAt_getD_of_forall_ne fun l hl => ?_
    obtain ⟨hlt, hact⟩ := mem_lanesOf.1 hl
    exact hne l hlt hact

end

/-! ### The end of an accumulator instruction -/

theorem onEngine_of_idle {body : Cx → Mask → Res} {c : Cx} {act : Mask} (h : (c.s.core c.core).engine = []) :
    onEngine body c act = body c act := by
  rw [onEngine, h]
  rfl

theorem onEngine_of_busy {body : Cx → Mask → Res} {c : Cx} {act : Mask} (h : ¬ (c.s.core c.core).engine = []) :
    onEngine body c act = .wait c.s .retry :=
  if_neg (by rwa [List.isEmpty_iff])

theorem Cx.putAcc_eq (c : Cx) (k : Core) (unalloc : Bool) :
    c.putAcc k unalloc = Cx.setWv { c with s := c.s.setCore c.core k } (c.metUnalloc unalloc) := by
  cases unalloc with
  | false => exact (Cx.setWv_wv _).symm
  | true => rfl

section
variable {s : State} {c : Cx} {h : Hdr} {i : Info} {k : Instr} {body : Cx → Mask → Res}

theorem acc_waits (r : CanIssue s c h i) (hx : exec k s = issue h i (onEngine body) s) (hbusy : ¬ (s.core c.core).engine = []) :
    Waits s k c s .retry := by
  obtain rfl := (chosen r.chosen).state
  exact issue_waits r hx (onEngine_of_busy hbusy)

theorem acc_completes {core : Core} {unalloc : Bool} {w : RegCtx → RegCtx} {e : RegEffect} (r : CanIssue s c h i)
    (hx : exec k s = issue h i (onEngine body) s) (hidle : (s.core c.core).engine = [])
    (hb : body c (c.guardMask h) = .done (c.putAcc core unalloc) w)
    (he : e.Holds c.wv.regs (w (c.wv.regs.killAll (i.kills h) (c.guardMask h))) (i.kills h) (c.guardMask h)) :
    Completes s k c h i (Cx.setWv { c with s := s.setCore c.core core } (c.metUnalloc unalloc)) e := by
  have hc := chosen r.chosen
  obtain rfl := hc.state
  have hwave : Kept c (c.setWv (c.metUnalloc unalloc)) := by
    cases unalloc <;> exact Kept.setWv hc rfl rfl rfl rfl rfl
  have hrun := (onEngine_of_idle hidle).trans (hb.trans (by rw [Cx.putAcc_eq]))
  exact issue_completes r hx hrun (hwave.withState (v := c.s.setCore c.core core) rfl) he

/-- The same where no bank was met that is not allocated. -/
theorem acc_completes_alloc {core : Core} {w : RegCtx → RegCtx} {e : RegEffect} (r : CanIssue s c h i)
    (hx : exec k s = issue h i (onEngine body) s) (hidle : (s.core c.core).engine = [])
    (hb : body c (c.guardMask h) = .done (c.putAcc core false) w)
    (he : e.Holds c.wv.regs (w (c.wv.regs.killAll (i.kills h) (c.guardMask h))) (i.kills h) (c.guardMask h)) :
    Completes s k c h i { c with s := s.setCore c.core core } e := by
  have hc := acc_completes r hx hidle hb he
  rwa [show c.metUnalloc false = Cx.wv { c with s := s.setCore c.core core } from rfl, Cx.setWv_wv] at hc

end

theorem banksNow_setCore {s : State} {n : Nat} {k : Core} {f : Nat → Bank} (hcore : n < s.cores.length)
    (hk : (s.core n).SameButBanks k) (hf : ∀ m, (k.bank m).ReadsAs (f m)) : BanksNow s (s.setCore n k) n f := by
  refine ⟨rfl, fun m hm => State.core_setCore_of_ne k hm, ?_⟩
  rw [State.core_setCore_self k hcore]
  exact ⟨hk, hf⟩

theorem ChangesBank.banksNow {step : Core → Nat → Core} {g : Bank → Bank} (hstep : ChangesBank step g) {s : State} {core : Nat}
    (hcore : core < s.cores.length) (first cnt : Nat) :
    BanksNow s (s.setCore core ((s.core core).eachBank first cnt step)) core fun n =>
      if first ≤ n ∧ n < first + cnt then g ((s.core core).bank n) else (s.core core).bank n :=
  banksNow_setCore hcore (hstep.sameButBanks_eachBank ..) fun n => by
    rw [hstep.bank_eachBank]
    exact Bank.ReadsAs.refl _

theorem BanksNow.congr {s v : State} {core : Nat} {f g : Nat → Bank} (h : BanksNow s v core f) (hfg : ∀ n, (f n).ReadsAs (g n)) :
    BanksNow s v core g := by
  obtain ⟨hstate, hcores, hcore, hbanks⟩ := h
  exact ⟨hstate, hcores, hcore, fun n => Bank.ReadsAs.trans (hbanks n) (hfg n)⟩

/-! ### ACCA, ACCF and ACCZ -/

/-- The first bank that an accumulator instruction names (R131). -/
def Cx.accFirst (c : Cx) (sym : BitVec 8) (b : BitVec 10) : Nat := c.bankAt sym.toNat + b.toNat

section
variable {s : State} {c : Cx} {h : Hdr} {sym : BitVec 8} {b : BitVec 10} {cnt1 : BitVec 4}
  (hcore : c.core < s.cores.length) (r : CanIssue s c h (accInfo sym b (cnt1.toNat + 1) [])) (hidle : (s.core c.core).engine = [])
include hcore r hidle

theorem acca_completes (grp : BitVec 4) :
    ∃ v, BanksNow s v c.core (fun n =>
        if c.accFirst sym b ≤ n ∧ n < c.accFirst sym b + (cnt1.toNat + 1) then { alloc := true, owner := grp.toNat, words := [] }
        else (s.core c.core).bank n) ∧
      Completes s (.acca h sym b cnt1 grp) c h (accInfo sym b (cnt1.toNat + 1) []) { c with s := v } {} := by
  obtain rfl := (chosen r.chosen).state
  exact ⟨_, (Core.allocate_changesBank grp.toNat).banksNow hcore (c.accFirst sym b) (cnt1.toNat + 1),
    acc_completes_alloc r rfl hidle rfl (RegEffect.holds_none _ _ _)⟩

theorem accf_completes :
    ∃ v, BanksNow s v c.core (fun n =>
        if c.accFirst sym b ≤ n ∧ n < c.accFirst sym b + (cnt1.toNat + 1) then { (s.core c.core).bank n with alloc := false }
        else (s.core c.core).bank n) ∧
      Completes s (.accf h sym b cnt1) c h (accInfo sym b (cnt1.toNat + 1) []) { c with s := v } {} := by
  obtain rfl := (chosen r.chosen).state
  exact ⟨_, Core.release_changesBank.banksNow hcore (c.accFirst sym b) (cnt1.toNat + 1),
    acc_completes_alloc r rfl hidle rfl (RegEffect.holds_none _ _ _)⟩

theorem accz_completes :
    ∃ v un, BanksNow s v c.core (fun n =>
        if c.accFirst sym b ≤ n ∧ n < c.accFirst sym b + (cnt1.toNat + 1) ∧ ((s.core c.core).bank n).alloc then
          { (s.core c.core).bank n with words := [] }
        else (s.core c.core).bank n) ∧
      (un = true ↔ ∃ n, (c.accFirst sym b ≤ n ∧ n < c.accFirst sym b + (cnt1.toNat + 1)) ∧ ((s.core c.core).bank n).alloc = false) ∧
      Completes s (.accz h sym b cnt1) c h (accInfo sym b (cnt1.toNat + 1) []) (Cx.setWv { c with s := v } (c.metUnalloc un)) {} := by
  obtain rfl := (chosen r.chosen).state
  have hbanks := (Core.fill_changesBank fun _ => 0).banksNow hcore (c.accFirst sym b) (cnt1.toNat + 1)
  refine ⟨_, _, hbanks.congr fun n => ?_, Core.unalloc_iff, acc_completes r rfl hidle rfl (RegEffect.holds_none _ _ _)⟩
  by_cases hn : c.accFirst sym b ≤ n ∧ n < c.accFirst sym b + (cnt1.toNat + 1)
  · rw [if_pos hn]
    simp only [hn.1, hn.2, true_and]
    exact Bank.fill_zero_readsAs _
  · rw [if_neg hn, if_neg fun hz => hn ⟨hz.1, hz.2.1⟩]
    exact Bank.ReadsAs.refl _

end

/-! ### ACCR -/

/-- The scalar that names the first word of ACCR and ACCW, as the lowest active lane reads it (R277). -/
def Cx.accScalar (c : Cx) (h : Hdr) (sw : BitVec 8) : DWord := c.scl sw (lowestLane (c.guardMask h))

section
variable {s : State} {c : Cx} {h : Hdr} {d : BitVec 12} {sym : BitVec 8} {b : BitVec 10} {sw : BitVec 8}
  (r : CanIssue s c h (accInfo sym b 1 [rdS sw 1, wrV d false])) (hidle : (s.core c.core).engine = [])

/-- The active lanes whose word of an allocated bank has a double-bit error (R54, R132). -/
def Core.badLanes (k : Core) (n : Nat) (w : DWord) (act : Mask) : Mask :=
  maskOf fun l => act.getLsbD l && (k.bank n).alloc && k.badAcc.contains (n * 512 + accWord w l)

theorem Core.badLanes_getLsbD {k : Core} {n : Nat} {w : DWord} {act : Mask} {l : Nat} (hl : l < 128) :
    (k.badLanes n w act).getLsbD l = true ↔
      act.getLsbD l = true ∧ (k.bank n).alloc = true ∧ n * 512 + accWord w l ∈ k.badAcc := by
  rw [Core.badLanes, maskOf_getLsbD _ _ hl]
  simp [and_assoc]

theorem Core.badLanes_eq_zero {k : Core} {n : Nat} {w : DWord} {act : Mask}
    (h : (k.bank n).alloc = true → ∀ l, l < 128 → act.getLsbD l = true → n * 512 + accWord w l ∉ k.badAcc) :
    k.badLanes n w act = 0 := by
  refine mask_ext fun l hl => ?_
  rw [show (0 : Mask).getLsbD l = false from BitVec.getLsbD_zero, ← Bool.not_eq_true, Core.badLanes_getLsbD hl]
  rintro ⟨hact, halloc, hbad⟩
  exact h halloc l hl hact hbad

theorem Core.badLanes_eq {k : Core} {n : Nat} {w : DWord} {act lanes : Mask} (halloc : (k.bank n).alloc = true)
    (h : ∀ l, l < 128 → (lanes.getLsbD l = true ↔ act.getLsbD l = true ∧ n * 512 + accWord w l ∈ k.badAcc)) :
    k.badLanes n w act = lanes := by
  refine mask_ext fun l hl => Bool.eq_iff_iff.2 ?_
  rw [Core.badLanes_getLsbD hl, h l hl]
  exact and_congr_right fun _ => and_iff_right halloc

include r hidle

theorem accr_traps (hbad : (s.core c.core).badLanes (c.accFirst sym b) (c.accScalar h sw) (c.guardMask h) ≠ 0) :
    Traps s (.accr h d sym b sw) c s
      (laneTrap tUce 3 0 ((s.core c.core).badLanes (c.accFirst sym b) (c.accScalar h sw) (c.guardMask h))) := by
  obtain rfl := (chosen r.chosen).state
  exact issue_traps r rfl ((onEngine_of_idle hidle).trans (if_pos (bne_iff_ne.2 hbad)))

theorem accr_completes (hgood : (s.core c.core).badLanes (c.accFirst sym b) (c.accScalar h sw) (c.guardMask h) = 0) :
    Completes s (.accr h d sym b sw) c h (accInfo sym b 1 [rdS sw 1, wrV d false])
      (c.setWv (c.metUnalloc (!((s.core c.core).bank (c.accFirst sym b)).alloc)))
      (.dst (.v d false) (c.guardMask h) fun l =>
        ((s.core c.core).read (c.accFirst sym b) (accWord (c.accScalar h sw) l)).setWidth 64) := by
  obtain rfl := (chosen r.chosen).state
  have hput (regs : RegCtx) : regs.setRow d.toNat (c.guardMask h)
        (fun l => some ((c.s.core c.core).read (c.accFirst sym b) (accWord (c.accScalar h sw) l))) =
      regs.put (.v d false) (c.guardMask h) fun l =>
        ((c.s.core c.core).read (c.accFirst sym b) (accWord (c.accScalar h sw) l)).setWidth 64 := by
    rw [RegCtx.put]
    simp
  have hdone := acc_completes (k := .accr h d sym b sw) (core := c.s.core c.core)
    (unalloc := (c.s.core c.core).unalloc (c.accFirst sym b) 1) r rfl hidle
    (if_neg fun hbad => bne_iff_ne.1 hbad hgood) (hput _ ▸ RegCtx.put_holds ..)
  rwa [Core.unalloc_one, State.setCore_core] at hdone

end

/-! ### ACCW -/

def accwInfo (sym : BitVec 8) (b : BitVec 10) (sw : BitVec 8) (a : BitVec 12) : Info :=
  { accInfo sym b 1 [rdS sw 1, rdRaw a false] with lastB := regsOf a false }

/-- The core once ACCW has written its row. -/
def Cx.accwCore (c : Cx) (h : Hdr) (sym : BitVec 8) (b : BitVec 10) (sw : BitVec 8) (a : BitVec 12) : Core :=
  (c.s.core c.core).writeRow (c.accFirst sym b) (c.accScalar h sw) (fun l => (c.vec a false l).setWidth 32) (c.guardMask h)

theorem accw_completes {s : State} {c : Cx} {h : Hdr} {sym : BitVec 8} {b : BitVec 10} {sw : BitVec 8} {a : BitVec 12}
    (r : CanIssue s c h (accwInfo sym b sw a)) (hidle : (s.core c.core).engine = []) :
    Completes s (.accw h sym b sw a) c h (accwInfo sym b sw a)
      (Cx.setWv { c with s := s.setCore c.core (c.accwCore h sym b sw a) }
        (c.metUnalloc (!((s.core c.core).bank (c.accFirst sym b)).alloc))) {} := by
  obtain rfl := (chosen r.chosen).state
  have hdone := acc_completes (k := .accw h sym b sw a) (core := c.accwCore h sym b sw a)
    (unalloc := (c.s.core c.core).unalloc (c.accFirst sym b) 1) r rfl hidle rfl (RegEffect.holds_none _ _ _)
  rwa [Core.unalloc_one] at hdone

/-- Settles O35: each instruction's end is one of the lemmas above; what is left is that the words the statement names are those of
`accWord`. -/
theorem accumulatorResults : Obligations.AccumulatorResults := by
  intro s h sym b c hcore k first idle here
  refine ⟨?_, fun sw => ?_⟩
  · intro cnt1 cnt i r
    exact ⟨fun grp => ⟨acc_waits r rfl, fun hidle => acca_completes hcore r hidle grp⟩, acc_waits r rfl,
      fun hidle => accf_completes hcore r hidle, acc_waits r rfl, fun hidle => accz_completes hcore r hidle⟩
  · intro word
    have hword (l : Nat) : accWord (c.accScalar h sw) l = word l := accWord_eq ..
    refine ⟨?_, ?_⟩
    · intro d i r
      refine ⟨acc_waits r rfl, fun hidle hgood => ?_, fun hidle halloc lanes hlanes hbad => ?_⟩
      · have hzero : k.badLanes first (c.accScalar h sw) (c.guardMask h) = 0 :=
          Core.badLanes_eq_zero (by simpa only [hword] using hgood)
        simp only [← hword, ← Core.read_setWidth]
        exact accr_completes r hidle hzero
      · have heq : k.badLanes first (c.accScalar h sw) (c.guardMask h) = lanes :=
          Core.badLanes_eq halloc (by simpa only [hword] using hbad)
        rw [← heq]
        exact accr_traps r hidle fun hzero => hlanes (heq.symm.trans hzero)
    · intro a i r
      refine ⟨acc_waits r rfl, fun hidle => ?_⟩
      obtain rfl := (chosen r.chosen).state
      have hcoreNow := State.core_setCore_self (c.accwCore h sym b sw a) hcore
      refine ⟨c.s.setCore c.core (c.accwCore h sym b sw a), rfl, fun n hn => State.core_setCore_of_ne _ hn, ?_⟩
      rw [hcoreNow]
      refine ⟨Core.sameButBanks_writeRow, fun n hn => Core.bank_writeRow_of_ne hn, Core.bank_writeRow_alloc, Core.bank_writeRow_owner,
        fun l hl halloc hact => ?_, fun j hj => ?_, accw_completes r hidle⟩
      · rw [← hword]
        exact Core.word_writeRow_of_active hl halloc hact
      · refine Core.word_writeRow_of_unnamed (hj.imp_right fun hne l hl hact => ?_)
        rw [hword]
        exact hne l hl hact

end Sys2Proof.Machine
end
